-- ==== Sys2Proof/Word.lean ====
section
/-! DEFINITION. The word types of the manual (R8, R12) and their plainest arithmetic. -/

namespace Sys2Proof

abbrev Byte := BitVec 8
abbrev W16 := BitVec 16
abbrev W32 := BitVec 32
abbrev W64 := BitVec 64
/-- A local HBM byte address (R171). -/
abbrev Addr := BitVec 40
/-- A scratchpad byte address (R25). -/
abbrev SAddr := BitVec 23
/-- A chip identifier (R279). -/
abbrev Chip := BitVec 16
/-- A token of a queue entry or an owner token (R32, R42). -/
abbrev Token := BitVec 16
/-- A temperature in steps of 0.25 °C, two's complement (R328). -/
abbrev Temp := BitVec 16

/-- Bytes in a line (R12). -/
def lineBytes : Nat := 64

end Sys2Proof
end

