-- ==== Sys2Proof/Syntax.lean ====
section
/-! DEFINITION. The commands of the module, one constructor per row of spec/opcode_table.json, and their operands.
Encoded fields keep the manual's encoding: size, length and count fields hold n − 1 (R9). -/

namespace Sys2Proof

/-- A logical core, 0–63 (R49). -/
abbrev CoreId := Fin 64
/-- A network port, 0–7 (R198). -/
abbrev PortId := Fin 8
/-- A global lane index g = 16e + l (R253). -/
abbrev LaneId := Fin 64
/-- A ring pair (R294). -/
abbrev RingId := Fin 16
/-- A stack (R168). -/
abbrev StackId := Fin 12
/-- A channel of a stack (R169). -/
abbrev ChanId := Fin 16

/-- The two streams of a core. -/
inductive Stream where
  | access
  | execute
deriving DecidableEq, Repr

/-- The fields of SETD (R56). -/
structure SetdOp where
  d : Fin 16
  space : BitVec 2
  ndim : BitVec 2
  format : BitVec 4
  chip : Chip
  base : Addr
  size0 : W16
  size1 : W16
  size2 : W16
  size3 : W16
  stride1 : W32
  stride2 : W32
  stride3 : W32
deriving DecidableEq, Repr

/-- The fields of SETX (R82). -/
structure SetxOp where
  x : Fin 16
  ndim : BitVec 2
  format : BitVec 4
  base : SAddr
  size0 : W16
  size1 : W16
  size2 : W16
  size3 : W16
  stride1 : W32
  stride2 : W32
  stride3 : W32
deriving DecidableEq, Repr

/-- The fields shared by the moving instructions, bytes 1–7 (R61). -/
structure MoveOp where
  wq : Fin 4
  we : Bool
  dq : Fin 4
  de : Bool
  ix : Bool
  wtok : Token
  dtok : Token
  src : Fin 16
  dst : Fin 16
  aux : Fin 16
deriving DecidableEq, Repr

/-- PUSH, POP, PUSHE and POPE share these fields (R69, R96); `form1` selects an explicit region. -/
structure PushOp where
  q : Fin 4
  form1 : Bool
  token : Token
  reg : Fin 16
  base : SAddr
  length : SAddr
deriving DecidableEq, Repr

/-- The fields of LAND beyond the shared ones (R67). -/
structure LandOp where
  group : BitVec 12
  mb : W16
  offset : W32
deriving DecidableEq, Repr

/-- The fields of COLL beyond the shared ones and its operation code (R68). -/
structure CollOp where
  comm : BitVec 10
  chunk : W16
  param : W32
deriving DecidableEq, Repr

/-- The fields of MMA (R85). -/
structure MmaOp where
  eng : Fin 3
  cont : Bool
  ta : Bool
  tb : Bool
  slot : BitVec 5
  a : BitVec 5
  b : BitVec 5
  as : BitVec 5
  bs : BitVec 5
  fa : BitVec 4
  fb : BitVec 4
  own : Token
  k : W16
deriving DecidableEq, Repr

/-- The fields of DRN (R87). -/
structure DrnOp where
  eng : Fin 3
  rel : Bool
  dest : BitVec 3
  rnd : Bool
  cen : Bool
  slot : BitVec 5
  out : BitVec 5
  sc : BitVec 5
  axis : Bool
  fmt : BitVec 4
  set : Fin 16
  exp : BitVec 8
  half : Bool
  q : Fin 4
  recv : Fin 8
  rtok : Token
  mmask : BitVec 8
  cmask : BitVec 8
  op : BitVec 8
  commGroup : BitVec 12
  chunkMb : W16
  offset : W32
deriving DecidableEq, Repr

/-- The fields of TACC (R90). -/
structure TaccOp where
  eng : Fin 3
  cont : Bool
  q : Fin 4
  slot : BitVec 5
  op : BitVec 8
  own : Token
  atok : Token
deriving DecidableEq, Repr

/-- The fields of VOP (R92). -/
structure VopOp where
  op : BitVec 5
  bc : BitVec 3
  dst : BitVec 5
  conv : Bool
  rnd : Bool
  cen : Bool
  src0 : BitVec 5
  src1 : BitVec 5
  src2 : BitVec 5
  fmt : BitVec 4
  set : Fin 16
  lfmt : BitVec 4
  sc : BitVec 5
  axis : Bool
  imm : W32
deriving DecidableEq, Repr

/-- The fields of RST (R93). -/
structure RstOp where
  mode : BitVec 3
  start : Bool
  src0 : BitVec 5
  src1 : BitVec 5
  st : BitVec 5
  dst : BitVec 5
  fmt : BitVec 4
  set : Fin 16
  lfmt : BitVec 4
  rnd : Bool
  cen : Bool
  rows : W16
  cols : W16
  imm : W32
deriving DecidableEq, Repr

/-- The fields of XPS (R94). -/
structure XpsOp where
  src : BitVec 5
  dst : BitVec 5
  fmt : BitVec 4
  rows : W16
  cols : W16
deriving DecidableEq, Repr

/-- A packet: the header flit of R202 and its payload bytes (R201). `cls` holds bytes 24–47; bit i of `stomps` says that payload flit i
carries stomp in its side-band word (R200). -/
structure Packet where
  type : Byte
  attempt : BitVec 3
  pz : Bool
  ece : Bool
  ce : Bool
  dst : Chip
  src : Chip
  tag : BitVec 15
  hops : BitVec 10
  length : BitVec 12
  addr : Addr
  fmt : BitVec 4
  op : BitVec 4
  status : W16
  step : W32
  cls : List Byte
  pmask : W64
  crc : W32
  payload : List Byte
  stomps : W64
deriving DecidableEq, Repr

/-- A flit as a lane frame carries it (R200, R258): 64 data bytes and its side-band bits. -/
structure Flit where
  data : List Byte
  vc : Fin 8
  head : Bool
  tail : Bool
  stomp : Bool
  valid : Bool
  fcheck : W16
deriving DecidableEq, Repr

/-- A lane frame (R258), with the security slot's fields of R385 for confidential mode. -/
structure Frame where
  lid : BitVec 6
  seq : BitVec 24
  ack : BitVec 24
  nack : Bool
  svcType : BitVec 4
  svcPayload : Byte
  credits : List (Fin 8 × BitVec 13)
  flits : List Flit
  secCounter : W64
deriving DecidableEq, Repr

/-- What the receiver of a frame measured (R259): the symbol errors of its two codewords, and that the frame came more than 500 ns after one
of higher sequence. -/
structure FrameRx where
  errors0 : Nat
  errors1 : Nat
  late : Bool
deriving DecidableEq, Repr

/-- What one lane direction of a fibre port measured when it was trained (R261, R262): the receive margin in 0.1 dB,
the far end's report of the transmit margin, and the heater offset found at lock (R420). -/
structure LaneTrain where
  lane : LaneId
  locked : Bool
  snrRx : BitVec 10
  snrTx : BitVec 10
  heater : W16
deriving DecidableEq, Repr

/-- Failed lanes of a channel at training (R195): data lanes of its two pseudo-channels, row-command and column-command lanes. -/
structure LaneFail where
  data0 : Nat
  data1 : Nat
  row : Nat
  col : Nat
deriving DecidableEq, Repr

/-- The flash records whose HMAC fails at a boot (R376): suspect marks, the characterisation records, the failed-start counter, the dump
sequence number. -/
structure FlashRecords where
  suspects : List (Fin 8 × Fin 9)
  characterisation : Bool
  failedStarts : Bool
  dumpSeq : Bool
deriving DecidableEq, Repr

/-- The measurements and failures of one boot (R418–R423): everything a boot stage finds that the manual does not
compute from earlier state. `pufReads` says of each reading of the device root's memory whether it reproduced the check value (R373). `plainBase` are the stacks whose device identity is not a Nerzor base die's (R182). `fail` is a stage that ended with a reason code for a cause outside the fields below. -/
structure BootEnv where
  fail : Option (Byte × Byte × W32)
  pufReads : List Bool
  fleetOk : Bool
  secFlashOk : Bool
  records : FlashRecords
  rail : Option (Fin 9)
  pll : Option (Fin 18)
  coresBad : List (Fin 8 × Fin 9)
  stackSilent : Option StackId
  plainBase : List StackId
  laneFails : List (StackId × ChanId × LaneFail)
  settings : List (StackId × ChanId × W64)
  stackTemps : List Temp
  postTripOk : Bool
  tripIn80 : Option (BitVec 3)
  fmeas : List (Fin 8 × Fin 9 × BitVec 11)
  tchar : Byte
  coeffs : List W32
  combsBad : BitVec 5
  muxFailed : List LaneId
  engineBad : Option (Fin 4)
  durations : List W32
  slotId : BitVec 4
deriving DecidableEq, Repr

/-- The host access of a MGMT command that fails (R299): the read of its request or the write of its response. -/
inductive HostAccess where
  | request
  | response
deriving DecidableEq, Repr

/-- One power-telemetry reading (R323, R324, R393): input power in W, voltage in 0.1 V, regulator fault. -/
structure PowerReading where
  fresh : Bool
  watts : W16
  decivolts : W16
  fault : Bool
deriving DecidableEq, Repr

/-- Whether control state whose parity failed is a memory controller's or the router's (R359, R360). -/
inductive ControlPlace where
  | memoryController
  | router
  | other
deriving DecidableEq, Repr

/-- Where a parity error was found (R348): a scratchpad line, an accumulator row's slot, the beats on a chain link, a line of a tree half,
the pipeline registers of a unit (0–2 matrix engines, 3 vector, 4 row statistics, 5 transposer), a data flit of a packet on its way to
the fabric, a packet of the arrival store, a line in a write-combining entry or atomic unit, or control state. -/
inductive ParityPlace where
  | spadLine (core : CoreId) (addr : SAddr)
  | slotRow (core : CoreId) (eng : Fin 3) (slot : BitVec 5)
  | linkBeat (core : CoreId) (link : Fin 4)
  | treeHalf (core : CoreId) (half : Bool) (line : BitVec 11)
  | pipeline (core : CoreId) (unit : Fin 6)
  | nocData (packet : Nat) (line : Fin 64)
  | arrival (packet : Nat) (line : Fin 64)
  | hbmBuffer (addr : Addr)
  | control (unit : Byte) (place : ControlPlace)
deriving DecidableEq, Repr

/-- The commands. -/
inductive Instr where
  -- access stream (R52–R72)
  | setd (core : CoreId) (f : SetdOp)
  | advd (core : CoreId) (d : Fin 16) (restore : Bool) (disp : W32)
  | loop (core : CoreId) (count : W16) (body : BitVec 10)
  | budg (core : CoreId) (budget : W32)
  | fence (core : CoreId)
  | push (core : CoreId) (f : PushOp)
  | pop (core : CoreId) (q : Fin 4) (token : Token)
  | waitf (core : CoreId) (eq : Bool) (src : Fin 16) (value : W32)
  | waitfPoll (core : CoreId)
  | ldh (core : CoreId) (m : MoveOp)
  | sth (core : CoreId) (m : MoveOp)
  | movs (core : CoreId) (m : MoveOp)
  | gath (core : CoreId) (m : MoveOp)
  | scat (core : CoreId) (m : MoveOp)
  | rget (core : CoreId) (m : MoveOp)
  | rput (core : CoreId) (m : MoveOp)
  | atom (core : CoreId) (m : MoveOp) (op : BitVec 4)
  | land (core : CoreId) (m : MoveOp) (l : LandOp)
  | collRs (core : CoreId) (m : MoveOp) (c : CollOp)
  | collAg (core : CoreId) (m : MoveOp) (c : CollOp)
  | collAr (core : CoreId) (m : MoveOp) (c : CollOp)
  | collA2av (core : CoreId) (m : MoveOp) (c : CollOp)
  | collBcast (core : CoreId) (m : MoveOp) (c : CollOp)
  | collMcast (core : CoreId) (m : MoveOp) (c : CollOp)
  | collCinch (core : CoreId) (m : MoveOp) (c : CollOp)
  | accessCompletion (core : CoreId) (seq : Nat)
  | queueWaitResume (core : CoreId) (stream : Stream)
  | budgetExpiry (core : CoreId) (seq : Nat) (elapsed : W32)
  -- execute stream (R79–R98)
  | setx (core : CoreId) (delta : W16) (f : SetxOp)
  | advx (core : CoreId) (delta : W16) (x : Fin 16) (restore : Bool) (disp : W32)
  | loopx (core : CoreId) (delta : W16) (count : W16) (body : BitVec 10)
  | waitc (core : CoreId) (delta : W16) (n : W32)
  | pushe (core : CoreId) (delta : W16) (f : PushOp)
  | pope (core : CoreId) (delta : W16) (q : Fin 4) (token : Token)
  | mma (core : CoreId) (delta : W16) (f : MmaOp)
  | drn (core : CoreId) (delta : W16) (f : DrnOp)
  | tacc (core : CoreId) (delta : W16) (f : TaccOp)
  | vop (core : CoreId) (delta : W16) (f : VopOp)
  | rst (core : CoreId) (delta : W16) (f : RstOp)
  | xps (core : CoreId) (delta : W16) (f : XpsOp)
  | awls (core : CoreId) (delta : W16) (lane : Fin 4) (tid : BitVec 24) (base : BitVec 40)
  | cenf (core : CoreId) (delta : W16) (set : Fin 16) (dst : Fin 16) (tid : BitVec 24)
  | treeHalfTaken (core : CoreId) (half : Bool)
  | treeSumArrival (core : CoreId) (op : Byte)
  | treeBudgetExpiry (core : CoreId) (op : Byte) (chip : Bool) (elapsed : W32)
  -- dispatch (R45, R337)
  | segmentDispatch (core : CoreId)
  | segmentEnd (core : CoreId)
  | class3HoldExpiry (core : CoreId)
  -- landing and update (R149–R185)
  | landingArrival (idx : Nat)
  | parkedLandingApply (idx : Nat)
  | landingResend (idx : Nat)
  | secondPassReady (group : BitVec 12)
  | leaseOpen (stack : StackId) (chan : ChanId)
  | ldone (stack : StackId) (chan : ChanId) (status : BitVec 2)
  | leaseOverrun (stack : StackId) (chan : ChanId)
  -- memory (R175–R196)
  | memWrite (addr : Addr) (data : List Byte) (poison : Bool)
  | memRead (addr : Addr) (symbolErrors : Nat)
  | atomicUpdate (addr : Addr) (fmt : BitVec 4) (op : BitVec 4) (data : List Byte) (poison : Bool)
  | wcbIdleWriteback (ctrl : Fin 24) (line : Nat) (symbolErrors : Nat)
  | atomicLineWriteback (ctrl : Fin 24) (line : Nat)
  | sidedAccessRelease (idx : Nat)
  | refresh (stack : StackId) (chan : ChanId) (bank : Fin 128)
  | scrubRead (addr : Addr) (symbolErrors : Nat) (writtenSince : Bool) (lastOfPass : Bool)
  | stackTempRead (stack : StackId) (temp : Temp)
  | retrainSlice (stack : StackId) (chan : ChanId) (checkOk : Bool) (settings : W64)
  -- fabric (R203–R225)
  | routeLookup (port : Fin 10) (vc : Fin 8) (p : Packet)
  | packetIngress (p : Packet)
  | getreq (p : Packet)
  | put (p : Packet)
  | atomic (p : Packet)
  | getdata (p : Packet)
  | ack (p : Packet)
  | retryResend (tag : BitVec 15)
  | packetSend (idx : Nat)
  | txnTimeout (tag : BitVec 15) (elapsed : W32)
  | fenceNotice (p : Packet)
  | beat (port : PortId)
  | portSilent (port : PortId)
  | congestionOnset (port : PortId) (vc : Fin 8)
  | routeWrite (chip : Chip) (value : W32)
  | vcbufWrite (port : PortId) (high : Bool) (value : W64)
  | counterPublish
  -- collectives and cinch (R234–R252)
  | colldata (p : Packet)
  | earlyArrivalApply (idx : Nat)
  | phaseStart (op : Nat)
  | collComplete (op : Nat)
  | cinchUp (p : Packet)
  | cinchDown (p : Packet)
  | cinchCack (p : Packet)
  | cinchResend (comm : BitVec 10)
  | commitCinchEntry
  | cinchBudgetExpiry (comm : BitVec 10) (elapsed : W32)
  -- optics (R254–R275, R420)
  | combFailure (comb : Fin 5)
  | frameSend (port : PortId)
  | frameReceive (port : PortId) (g : LaneId) (bits : BitVec 10280) (rx : FrameRx)
  | stop (port : PortId) (g : LaneId)
  | ready (port : PortId) (g : LaneId)
  | switchMarker (plan : Fin 8)
  | switchDone (port : PortId) (plan : Fin 8)
  | planSwitch (plan : Fin 8)
  | buckleReprogram
  | reacquireEnd (failed : List LaneId)
  | pilotWord (g : LaneId) (tx : Bool) (word : W16)
  | pilotLost (g : LaneId) (tx : Bool)
  | ringSweepEnd (g : LaneId) (tx : Bool) (found : Bool)
  | laneRejoin (g : LaneId) (tx : Bool)
  | heaterFeedforward (temps : List Temp)
  | farLightArrival (fport : Fin 16) (lanes : List LaneTrain)
  -- PLAN and discovery (R273, R280–R288)
  | plan (port : PortId) (p : Packet)
  | discover (ring : RingId) (idx : W16) (data : List Byte) (hostErr : Bool)
  | hello (port : Fin 16) (p : Packet)
  | coord (port : Fin 16) (p : Packet)
  | up (port : Fin 16) (p : Packet)
  | down (port : Fin 16) (p : Packet)
  | discAck (port : Fin 16) (p : Packet)
  | discRepeat (port : Fin 16)
  | discoveryTimeout
  -- host link (R293–R312)
  | linkDown
  | linkRetrain (lanes : Nat)
  | linkFrameAuthFail
  | ringEnable (ring : RingId) (value : W64)
  | ringDisable (ring : RingId)
  | sqTailDoorbell (ring : RingId) (value : W16) (width32 : Bool)
  | cqHeadDoorbell (ring : RingId) (value : W16) (width32 : Bool)
  | eventHeadDoorbell (value : W16) (width32 : Bool)
  | descriptorFetch (ring : RingId) (data : List Byte)
  | descriptorComplete (ring : RingId) (idx : W16)
  | coalesceTimeout (ring : RingId)
  | eventRingEnable (value : W32)
  | eventRingDisable
  | nop (ring : RingId) (idx : W16)
  | waitr (ring : RingId) (idx : W16)
  | waitrTimeout (ring : RingId) (idx : W16)
  | htod (ring : RingId) (idx : W16) (data : List Byte) (hostErr : Bool)
  | dtoh (ring : RingId) (idx : W16) (hostErr : Bool)
  | stepHold (ring : RingId) (idx : W16)
  | stepRelease (ring : RingId) (idx : W16)
  | stepReplay (ring : RingId) (idx : W16)
  | drainSet (ring : RingId) (idx : W16)
  | drainClear (ring : RingId) (idx : W16)
  | mgmtIdentitySnapshot (ring : RingId) (idx : W16) (request : List Byte) (failed : Option HostAccess)
  | mgmtTelemetrySnapshot (ring : RingId) (idx : W16) (request : List Byte) (failed : Option HostAccess)
  | mgmtAttestationQuote (ring : RingId) (idx : W16) (request : List Byte) (failed : Option HostAccess)
  | mgmtDumpRead (ring : RingId) (idx : W16) (request : List Byte) (failed : Option HostAccess)
  | mgmtBootReport (ring : RingId) (idx : W16) (request : List Byte) (failed : Option HostAccess)
  | load (ring : RingId) (idx : W16) (image : List Byte) (hostErr : Bool)
  | start (ring : RingId) (idx : W16)
  | teardown (ring : RingId) (idx : W16)
  | linkReset (env : BootEnv)
  -- power and thermal (R321–R334)
  | setCap (body : List Byte)
  | getStatus (body : List Byte)
  | getLimits (body : List Byte)
  | hcapWrite (value : W16)
  | fceilWrite (value : BitVec 11)
  | estimateUpdate (activity : List W32)
  | peakUpdate
  | pMeasRead (r : PowerReading)
  | divergenceCheck
  | headroomSample
  | dieSample (sensors : List Temp)
  | droopDetect (core : CoreId)
  | thermalTrip (group : BitVec 3)
  -- faults and burnish (R342–R358)
  | parityError (place : ParityPlace)
  | watchdogExpiry
  | quiesceTimeout
  | burnishSliceStart (core : CoreId)
  | burnishSliceEnd (core : CoreId) (mismatch : Bool)
  -- confidential mode (R381–R389)
  | level1TreeBuilt
  | modeTargetWrite (target : Bool)
  -- module hardware (R394–R402)
  | inputStageOn
  | inputOvervoltage
  | inputOvervoltageClear
  | pwrEnLow
  | prsntNOpen
  | bulkUndervoltage (withinMs : Bool)
  | converterStop
  | resetNAssert
  | resetNRelease (env : BootEnv)
  | setdasa (static : BitVec 7) (dynamic : BitVec 7)
  | entdaa (dynamic : BitVec 7)
  | setEndpointId (eid : Byte)
  -- reset and boot (R415–R424, R434–R437)
  | powerOn (env : BootEnv)
  | fullReset (cause : BitVec 3) (env : BootEnv)
  | stageOverrun (stage : Byte)
  | failedStartRestart (env : BootEnv)
  | bootRetry (env : BootEnv)
  | mailboxGo (type : BitVec 3) (slot : Bool) (reserved : Bool)
  | mailboxDone (image : List Byte) (flashErr : Bool)
  | drainPendingWrite (value : Bool)
  | compatNextWrite (value : Bool)
  | flashStoreDone
  -- registers (R427–R441)
  | faultValidClear (core : CoreId) (recordNow : Bool)
  | dumpValidClear
  | watermarkRead (port : PortId) (vc : Fin 8)
  | halfReadLatch (addr : BitVec 26)
  | regBadAccess (addr : BitVec 26) (write : Bool)
  | registerWrite (addr : BitVec 26) (width64 : Bool) (value : W64)
  -- later rows of the table
  | congestionClear (port : PortId) (vc : Fin 8)
  | spareCombLock
  | droopRecovery (core : CoreId)
  | modeTransitionDone
  | powerRecordWritten (env : BootEnv)
  | dumpWritten
  | unknownCommand (body : List Byte)
deriving DecidableEq, Repr

end Sys2Proof
end

