-- ==== Sys2Proof/Config.lean ====
section
/-! DEFINITION. What the manual leaves open, as constants without a body: nothing in Lean can prove a value
of them, so a claim about the model holds whatever they are. -/

namespace Sys2Proof.Config

/-- A fresh free value for every count of `State.free` (log entry 13). -/
opaque freeValue : Nat → BitVec 64

/-- Which of the results within the error bound of R119 an engine gives for one FP32 operand (log entry 9).
The first argument is the function: 0 RCP, 1 RSQ, 2 EXP, 3 SIG, 4 SILU, 5 ln, 6 the e^x inside RST. -/
opaque transc : Nat → BitVec 32 → BitVec 32

/-- The same for DSILU of two FP32 operands (log entry 9). -/
opaque transc2 : BitVec 32 → BitVec 32 → BitVec 32

/-- The device root key K_dev, never readable (R373) (log entry 10). -/
opaque deviceRoot : BitVec 256

/-- The fleet key K_fleet as installed (R375) (log entry 10). -/
opaque fleetKey : BitVec 256

/-- Nerzor's 56-byte LMS public key for firmware images, in the boot ROM (R377) (log entry 10). -/
opaque firmwareKey : List Byte

/-- The 3,284-byte HSS signature over a message under leaf index q (R380, R382) (log entry 10). -/
opaque hssSign : Nat → List Byte → List Byte

/-- The 1,868-byte device certificate (R380) (log entry 10). -/
opaque certificate : List Byte

/-- The heater coefficient of a ring, code per °C, as its record in module flash holds it (R267): ring 2g receives on lane g,
ring 2g + 1 transmits (log entry 17). -/
opaque ringCoeff : Nat → BitVec 16

/-- The static term of the power estimate at a die temperature, in W: the manual gives no formula (R323) (log entry 117). -/
opaque staticPower : BitVec 16 → Nat

/-- The power the module would have drawn without holds and halving, in W (R322), from the estimate and the
suppressed share the harness knows: the manual gives no formula (log entry 14). -/
opaque demand : Nat → BitVec 16

/-- The bytes of a dump's sections, by dump sequence number and place: their layout is not given (R361) (log entry 23). -/
opaque dumpByte : Nat → Nat → BitVec 8

/-- The length of a telemetry snapshot: no chapter gives one (R309) (log entry 25). -/
opaque telemetryLength : Nat

/-- The boot ROM's contents, which M0 measures (R379) (log entry 10). -/
opaque bootRom : List Byte

/-- G₀ ÷ C of the interleaved regions, by their place in the region table; 64 is the dump region and 65 the firmware and service region:
the loader and the part assign them (R172, R176) (log entry 102). -/
opaque granuleBase : Nat → Nat

/-- The in-channel offset of a stack-local region's band by its place in the region table and its side (R173, R175) (log entry 102). -/
opaque bandBase : Nat → Bool → Nat

/-- The sub-band offsets of a group's extents in its band: 0 its state images, 1 its headers, 2 its arrays, 3 its control block (R173,
R174) (log entry 102). -/
opaque subBand : BitVec 12 → Nat → Nat

/-- How many elements the member `sender` sends to this one in the A2AV on a context and chunk of a step: the header's position i receives it
(R233), and no field of R239 carries it (log entry 115). Arguments: context, step, chunk, sender. -/
opaque a2avCount : Nat → Nat → Nat → Nat → Nat

/-- The 8 check symbols of R191 over 64 data symbols: the code's polynomials are not given (log entry 103). -/
opaque checkSymbols : List Byte → List Byte

/-- The bytes of a power record by cause, step, tick count and last input reading: their places are not given (R396) (log entry 26). -/
opaque powerRecord : Nat → Nat → Nat → Nat → List Byte

end Sys2Proof.Config
end

