-- ==== Sys2Proof/Machine/Bits.lean ====
section
/-! DEFINITION. Byte order (R8), the check codes the manual spells out (R200, R202, R366) and the awl hash (R114). -/

namespace Sys2Proof.Machine

/-- A byte with its poison (R76). -/
abbrev PByte := Byte × Bool

/-- The `n` low bytes of `v`, little-endian (R8). -/
def leBytes : Nat → Nat → List Byte
  | 0, _ => []
  | n + 1, v => BitVec.ofNat 8 v :: leBytes n (v / 256)

/-- The number that little-endian bytes spell (R8). -/
def leNat : List Byte → Nat
  | [] => 0
  | b :: bs => b.toNat + 256 * leNat bs

/-- Byte `i` of a list, 0 beyond its end. -/
def byteAt (bs : List Byte) (i : Nat) : Byte := bs.getD i 0

/-- The little-endian number at bytes `i` to `i + n − 1`. -/
def leAt (bs : List Byte) (i n : Nat) : Nat := leNat ((bs.drop i).take n)

/-- Bits [hi:lo] of a number. -/
def bitsOf (v lo len : Nat) : Nat := v / 2 ^ lo % 2 ^ len

def bitOf (v i : Nat) : Bool := v.testBit i

/-- A list padded with `a` to length `n`, or cut to it. -/
def padTo {α : Type} (n : Nat) (a : α) (l : List α) : List α := l.take n ++ List.replicate (n - l.length) a

/-- Cut a list into pieces of `n` (the last may be short), at most `fuel` of them. -/
def chunksOf {α : Type} (n : Nat) : Nat → List α → List (List α)
  | 0, _ => []
  | fuel + 1, l => if l.isEmpty then [] else l.take n :: chunksOf n fuel (l.drop n)

/-- The 32-bit words of a byte string. -/
def words32 (bs : List Byte) : List W32 := (chunksOf 4 bs.length bs).map fun c => BitVec.ofNat 32 (leNat c)

def bytes32 (ws : List W32) : List Byte := ws.flatMap fun w => leBytes 4 w.toNat

/-- Replace element `i` of a list by the function's value at it. -/
def modifyAt {α : Type} (l : List α) (i : Nat) (f : α → α) : List α :=
  match l[i]? with
  | some a => l.set i (f a)
  | none => l

/-! ## Check codes -/

def crcRight (poly : Nat) : Nat → Nat → Nat
  | 0, c => c
  | k + 1, c => crcRight poly k (if c % 2 = 1 then (c / 2).xor poly else c / 2)

def crcLeft (width poly : Nat) : Nat → Nat → Nat
  | 0, c => c
  | k + 1, c => crcLeft width poly k (if c.testBit (width - 1) then ((c * 2) % 2 ^ width).xor poly else c * 2)

/-- The CRC-32 of R202: reflected polynomial 0xEDB8_8320, initial value and final complement all ones. -/
def crc32 (bs : List Byte) : W32 :=
  BitVec.ofNat 32 ((bs.foldl (fun c b => crcRight 0xEDB88320 8 (c.xor b.toNat)) 0xFFFFFFFF).xor 0xFFFFFFFF)

/-- The CRC-16 of R200: polynomial 0x1021, initial value 0xFFFF. -/
def crc16 (bs : List Byte) : W16 :=
  BitVec.ofNat 16 (bs.foldl (fun c b => crcLeft 16 0x1021 8 (c.xor (b.toNat * 256))) 0xFFFF)

/-- The CRC-64 of R366: polynomial 0x42F0_E1EB_A9EA_3693, initial value 0, not reflected, no final XOR. -/
def crc64 (bs : List Byte) : W64 :=
  BitVec.ofNat 64 (bs.foldl (fun c b => crcLeft 64 0x42F0E1EBA9EA3693 8 (c.xor (b.toNat * 2 ^ 56))) 0)

/-- The CRC-4 of a pilot word over bits [11:4], polynomial x⁴ + x + 1 (R265). -/
def crc4 (v : Nat) : Nat :=
  (List.range 8).foldl (fun c i =>
    let bit := (v.testBit (7 - i) != c.testBit 3)
    let c2 := (c * 2) % 16
    if bit then c2.xor 3 else c2) 0

/-! ## The awl (R114) -/

/-- One of the nine rounds: (x0, x1, x2, x3, k0, k1). -/
def awlRound (r : Nat × Nat × Nat × Nat × Nat × Nat) : Nat × Nat × Nat × Nat × Nat × Nat :=
  match r with
  | (x0, x1, x2, x3, k0, k1) =>
    let p := x0 * 0xE817FB2D
    let q := x2 * 0xB5AD4ECF
    (((q / 2 ^ 32).xor x1).xor k0, q % 2 ^ 32, ((p / 2 ^ 32).xor x3).xor k1, p % 2 ^ 32,
      (k0 + 0x8A5CD789) % 2 ^ 32, (k1 + 0xC2B2AE3D) % 2 ^ 32)

def awlRounds : Nat → Nat × Nat × Nat × Nat × Nat × Nat → Nat × Nat × Nat × Nat × Nat × Nat
  | 0, r => r
  | n + 1, r => awlRounds n (awlRound r)

/-- The awl value of an element (R114): a function of seed, step, tensor identifier and element index only. -/
def awl (seed : W64) (step : W32) (tid : BitVec 24) (idx : Nat) : Nat :=
  let c := idx / 8
  let x1 := (c / 2 ^ 32 % 2 ^ 32).lor (tid.toNat * 256)
  match awlRounds 9 (c % 2 ^ 32, x1, step.toNat, 0x5C4D, seed.toNat % 2 ^ 32, seed.toNat / 2 ^ 32) with
  | (w0, w1, w2, w3, _, _) =>
    let w := [w0, w1, w2, w3].getD (idx % 8 / 2) 0
    w / 2 ^ (16 * (idx % 2)) % 2 ^ 16

/-- The `n` elements from position `lo` on. -/
def slice {α : Type} (l : List α) (lo n : Nat) : List α := (l.drop lo).take n

end Sys2Proof.Machine
end

