-- ==== Sys2Proof/Machine/Float.lean ====
section
/-! DEFINITION. The formats of R100–R104 and exact arithmetic with one rounding (R107, R113, R119, R152).
A number is a NaN, an infinity or an exact signed dyadic; zero keeps its sign. -/

namespace Sys2Proof.Machine

/-- An exact value: (−1)^neg · m · 2^e. -/
inductive Num where
  | nan
  | inf (neg : Bool)
  | fin (neg : Bool) (m : Nat) (e : Int)
deriving DecidableEq, Repr

/-- How a format treats its top exponent (R100): IEEE infinities and NaNs; one NaN and no infinity (E4M3, UE5M3);
neither (E3M2, E2M1). -/
inductive TopKind where
  | ieee
  | oneNan
  | none
deriving DecidableEq, Repr

/-- A floating-point format (R100). -/
structure FloatFmt where
  ebits : Nat
  mbits : Nat
  bias : Int
  signed : Bool
  top : TopKind
deriving DecidableEq, Repr

def fp32 : FloatFmt := { ebits := 8, mbits := 23, bias := 127, signed := true, top := .ieee }
def bf16 : FloatFmt := { ebits := 8, mbits := 7, bias := 127, signed := true, top := .ieee }
def fp16 : FloatFmt := { ebits := 5, mbits := 10, bias := 15, signed := true, top := .ieee }
def e4m3 : FloatFmt := { ebits := 4, mbits := 3, bias := 7, signed := true, top := .oneNan }
def e5m2 : FloatFmt := { ebits := 5, mbits := 2, bias := 15, signed := true, top := .ieee }
def e3m2 : FloatFmt := { ebits := 3, mbits := 2, bias := 3, signed := true, top := .none }
def e2m1 : FloatFmt := { ebits := 2, mbits := 1, bias := 1, signed := true, top := .none }
def ue5m3 : FloatFmt := { ebits := 5, mbits := 3, bias := 15, signed := false, top := .oneNan }

/-- The canonical NaN of a format (R101); 0 for a format without one. -/
def FloatFmt.nanBits (f : FloatFmt) : Nat :=
  match f.top with
  | .ieee => (2 ^ f.ebits - 1) * 2 ^ f.mbits + 2 ^ (f.mbits - 1)
  | .oneNan => 2 ^ (f.ebits + f.mbits) - 1
  | .none => 0

/-- The largest finite magnitude as a bit pattern without sign (R100). -/
def FloatFmt.maxBits (f : FloatFmt) : Nat :=
  match f.top with
  | .ieee => (2 ^ f.ebits - 1) * 2 ^ f.mbits - 1
  | .oneNan => 2 ^ (f.ebits + f.mbits) - 2
  | .none => 2 ^ (f.ebits + f.mbits) - 1

/-- E5M2's canonical NaN is 0x7E, FP32's 0x7FC0_0000 (R101): the IEEE pattern with the top mantissa bit set. -/
def decodeMag (f : FloatFmt) (neg : Bool) (mag : Nat) : Num :=
  let ex := mag / 2 ^ f.mbits
  let mt := mag % 2 ^ f.mbits
  if ex = 0 then .fin neg mt (1 - f.bias - f.mbits)
  else .fin neg (2 ^ f.mbits + mt) ((ex : Int) - f.bias - f.mbits)

/-- The value of a bit pattern (R100). -/
def decodeFloat (f : FloatFmt) (bits : Nat) : Num :=
  let mag := bits % 2 ^ (f.ebits + f.mbits)
  let neg := f.signed && bits.testBit (f.ebits + f.mbits)
  match f.top with
  | .ieee =>
    if mag / 2 ^ f.mbits = 2 ^ f.ebits - 1 then (if mag % 2 ^ f.mbits = 0 then .inf neg else .nan)
    else decodeMag f neg mag
  | .oneNan => if mag = 2 ^ (f.ebits + f.mbits) - 1 then .nan else decodeMag f neg mag
  | .none => decodeMag f neg mag

/-- ⌊log₂ m⌋ of a non-zero number; 0 for 0. -/
def log2 (m : Nat) : Nat := Nat.log2 m

/-- The rounding of R113: to nearest even, or stochastic under a 16-bit awl value. -/
inductive Rounding where
  | rne
  | stoch (r : Nat)
deriving DecidableEq, Repr

/-- m · 2^e as a whole number of 2^q, rounded (R113). -/
def roundTo (rm : Rounding) (m : Nat) (e q : Int) : Nat :=
  if q ≤ e then m * 2 ^ (e - q).toNat
  else
    let s := (q - e).toNat
    let n := m / 2 ^ s
    let r := m % 2 ^ s
    match rm with
    | .rne => if 2 * r > 2 ^ s || (2 * r == 2 ^ s && n % 2 == 1) then n + 1 else n
    | .stoch a => if a < r * 2 ^ 16 / 2 ^ s then n + 1 else n

/-- The exponent of the last place of m · 2^e in a format, subnormals kept (R100). -/
def quantum (f : FloatFmt) (m : Nat) (e : Int) : Int := max ((log2 m : Int) + e - f.mbits) (1 - f.bias - f.mbits)

/-- The magnitude bits of n · 2^q, with q the quantum of the value: n carries into the exponent by itself. -/
def packMag (f : FloatFmt) (n : Nat) (q : Int) : Nat := (q - (1 - f.bias - f.mbits)).toNat * 2 ^ f.mbits + n

/-- Magnitude bits of a rounded non-zero value; may exceed the largest finite pattern. -/
def roundMag (f : FloatFmt) (rm : Rounding) (m : Nat) (e : Int) : Nat :=
  if m = 0 then 0 else packMag f (roundTo rm m e (quantum f m e)) (quantum f m e)

def signBit (f : FloatFmt) (neg : Bool) : Nat := if neg && f.signed then 2 ^ (f.ebits + f.mbits) else 0

/-- IEEE 754 rounding to nearest even: beyond the range an infinity of the sign (R107, R92). -/
def rneBits (f : FloatFmt) (x : Num) : Nat :=
  match x with
  | .nan => f.nanBits
  | .inf neg => signBit f neg + (2 ^ f.ebits - 1) * 2 ^ f.mbits
  | .fin neg m e =>
    let mag := roundMag f .rne m e
    signBit f neg + (if mag > f.maxBits then (2 ^ f.ebits - 1) * 2 ^ f.mbits else mag)

/-- An FP32 bit pattern as a value, and back with one rounding. -/
def f32 (w : W32) : Num := decodeFloat fp32 w.toNat
def toF32 (x : Num) : W32 := BitVec.ofNat 32 (rneBits fp32 x)

def nan32 : W32 := 0x7FC00000#32

/-- Compare magnitudes m · 2^e. -/
def magLe (m : Nat) (e : Int) (m' : Nat) (e' : Int) : Bool :=
  if e ≤ e' then m ≤ m' * 2 ^ (e' - e).toNat else m * 2 ^ (e - e').toNat ≤ m'

/-- A signed dyadic as an integer multiple of 2^q, for q at most its exponent. -/
def toInt (neg : Bool) (m : Nat) (e q : Int) : Int :=
  let n : Int := (m * 2 ^ (e - q).toNat : Nat)
  if neg then -n else n

/-- Exact addition; an exact zero of operands of both signs is +0 (IEEE 754 to nearest). -/
def Num.add (x y : Num) : Num :=
  match x, y with
  | .nan, _ => .nan
  | _, .nan => .nan
  | .inf a, .inf b => if a == b then .inf a else .nan
  | .inf a, .fin _ _ _ => .inf a
  | .fin _ _ _, .inf b => .inf b
  | .fin a m e, .fin b m' e' =>
    let q := min e e'
    let s := toInt a m e q + toInt b m' e' q
    if s = 0 then .fin (a && b && m = 0 && m' = 0) 0 q
    else .fin (decide (s < 0)) s.natAbs q

def Num.neg : Num → Num
  | .nan => .nan
  | .inf a => .inf (!a)
  | .fin a m e => .fin (!a) m e

/-- Exact multiplication (R106). -/
def Num.mul (x y : Num) : Num :=
  match x, y with
  | .nan, _ => .nan
  | _, .nan => .nan
  | .inf a, .inf b => .inf (a != b)
  | .inf a, .fin b m _ => if m = 0 then .nan else .inf (a != b)
  | .fin a m _, .inf b => if m = 0 then .nan else .inf (a != b)
  | .fin a m e, .fin b m' e' => .fin (a != b) (m * m') (e + e')

/-- Scaling by 2^k, exact (R106, R110). -/
def Num.scale (x : Num) (k : Int) : Num :=
  match x with
  | .fin a m e => .fin a m (e + k)
  | y => y

def Num.isFinite : Num → Bool
  | .fin _ _ _ => true
  | _ => false

def Num.isZero : Num → Bool
  | .fin _ 0 _ => true
  | _ => false

/-- x < y; false when either is NaN. -/
def Num.lt (x y : Num) : Bool :=
  match x, y with
  | .nan, _ => false
  | _, .nan => false
  | .inf a, .inf b => a && !b
  | .inf a, .fin _ _ _ => a
  | .fin _ _ _, .inf b => !b
  | .fin a m e, .fin b m' e' =>
    let q := min e e'
    toInt a m e q < toInt b m' e' q

/-! ## Correctly rounded FP32 operations (R119, R152) -/

def fadd (a b : W32) : W32 := toF32 ((f32 a).add (f32 b))
def fsub (a b : W32) : W32 := toF32 ((f32 a).add (f32 b).neg)
def fmul (a b : W32) : W32 := toF32 ((f32 a).mul (f32 b))
/-- One rounding of a · b + c (R119, R152). -/
def ffma (a b c : W32) : W32 := toF32 (((f32 a).mul (f32 b)).add (f32 c))

/-- Quotient of magnitudes with a sticky last bit, far below any format's precision. -/
def divSticky (m m' : Nat) : Nat × Int :=
  let k := 80 + log2 m'
  let n := m * 2 ^ k / m'
  (2 * n + (if m * 2 ^ k % m' = 0 then 0 else 1), -(k : Int) - 1)

def Num.div (x y : Num) : Num :=
  match x, y with
  | .nan, _ => .nan
  | _, .nan => .nan
  | .inf _, .inf _ => .nan
  | .inf a, .fin b _ _ => .inf (a != b)
  | .fin a _ _, .inf b => .fin (a != b) 0 0
  | .fin a m e, .fin b m' e' =>
    if m' = 0 then (if m = 0 then .nan else .inf (a != b))
    else match divSticky m m' with
      | (n, k) => .fin (a != b) n (e - e' + k)

/-- Correctly rounded division (div_cr, R152). -/
def fdiv (a b : W32) : W32 := toF32 ((f32 a).div (f32 b))

/-- ⌊√m⌋ by its bits from `bit` down. -/
def sqrtBits (m : Nat) : Nat → Nat → Nat
  | 0, r => r
  | bit + 1, r => sqrtBits m bit (let t := r + 2 ^ bit; if t * t ≤ m then t else r)

def isqrt (m : Nat) : Nat := sqrtBits m (log2 m / 2 + 1) 0

/-- The square root of m · 2^e for even e, with a sticky bit. -/
def sqrtSticky (m : Nat) (e : Int) : Num :=
  let m' := m * 2 ^ 120
  let s := isqrt m'
  .fin false (2 * s + (if s * s = m' then 0 else 1)) ((e - 120) / 2 - 1)

def Num.sqrt (x : Num) : Num :=
  match x with
  | .nan => .nan
  | .inf a => if a then .nan else .inf false
  | .fin a m e =>
    if m = 0 then .fin a 0 e
    else if a then .nan
    else if e % 2 = 0 then sqrtSticky m e else sqrtSticky (2 * m) (e - 1)

/-- Correctly rounded square root (sqrt_cr, R152). -/
def fsqrt (a : W32) : W32 := toF32 (f32 a).sqrt

/-- 1/√(m · 2^e) for even e, with a sticky bit. -/
def rsqSticky (m : Nat) (e : Int) : Num :=
  let k := 2 * (100 + log2 m)
  let q := 2 ^ k / m
  let s := isqrt q
  .fin false (2 * s + (if s * s * m = 2 ^ k then 0 else 1)) (-(k / 2 : Nat) - e / 2 - 1)

/-- IEEE 754 rSqrt (rsq_cr, R152; special cases R119). -/
def Num.rsq (x : Num) : Num :=
  match x with
  | .nan => .nan
  | .inf a => if a then .nan else .fin false 0 0
  | .fin a m e =>
    if m = 0 then .inf a
    else if a then .nan
    else if e % 2 = 0 then rsqSticky m e else rsqSticky (2 * m) (e - 1)

def frsq (a : W32) : W32 := toF32 (f32 a).rsq

/-- VOP MAX and MIN (R119): NaN if either is NaN; +0 above −0. -/
def fmax (a b : W32) : W32 :=
  match f32 a, f32 b with
  | .nan, _ => nan32
  | _, .nan => nan32
  | x, y =>
    if x.lt y then b else if y.lt x then a
    else if x.isZero && y.isZero then (if a.toNat.testBit 31 then b else a) else a

def fmin (a b : W32) : W32 :=
  match f32 a, f32 b with
  | .nan, _ => nan32
  | _, .nan => nan32
  | x, y =>
    if x.lt y then a else if y.lt x then b
    else if x.isZero && y.isZero then (if a.toNat.testBit 31 then a else b) else a

def finite32 (a : W32) : Bool := (f32 a).isFinite
def isNan32 (a : W32) : Bool := f32 a == .nan
def gt0 (a : W32) : Bool := (Num.fin false 0 0).lt (f32 a)

/-- An integer as an exact value. -/
def ofInt (i : Int) : Num := .fin (decide (i < 0)) i.natAbs 0

/-- The FP32 value 2^k for a k in its normal range (R120). -/
def pow2 (k : Int) : W32 := toF32 (.fin false 1 k)

/-- ⌊log₂|y|⌋ of a finite non-zero value. -/
def Num.ilog : Num → Option Int
  | .fin _ m e => if m = 0 then none else some ((log2 m : Int) + e)
  | _ => none

/-! ## FP32-pair (R104, R108) -/

/-- A pair (hi, lo) updated by a group sum g (R108). -/
def pairAdd (p : W32 × W32) (g : W32) : W32 × W32 :=
  match p with
  | (hi, lo) =>
    let t := fadd hi g
    if finite32 t then
      let bp := fsub t hi
      let e := fadd (fsub hi (fsub t bp)) (fsub g bp)
      let lo1 := fadd lo e
      let hi1 := fadd t lo1
      (hi1, fsub lo1 (fsub hi1 t))
    else (t, 0)

end Sys2Proof.Machine
end

