-- ==== Sys2Proof/Machine/Crypto.lean ====
section
/-! DEFINITION. The standard algorithms the manual names and does not spell out (log entry 10): SHA-256 and HMAC (R374, R379),
AES-256 in Galois/counter mode (R363, R385–R387), the key derivation of R374, and the check of an LMS signature (R377). -/

namespace Sys2Proof.Machine

/-- The `n` low bytes of a number, most significant first. -/
def beBytes (n v : Nat) : List Byte := (leBytes n v).reverse

def beNat (bs : List Byte) : Nat := leNat bs.reverse

/-- The bytes of a label (R374). -/
def ascii (t : String) : List Byte := t.toList.map fun c => BitVec.ofNat 8 c.toNat

/-! ## SHA-256 -/

def primesTo : List Nat := (List.range 312).filter fun n => 2 ≤ n && (List.range n).all fun d => d < 2 || n % d ≠ 0

/-- The largest r with r ^ k ≤ v, bit by bit from bit `b` down. -/
def rootBits (k v : Nat) : Nat → Nat → Nat
  | 0, r => r
  | b + 1, r => rootBits k v b (if (r + 2 ^ b) ^ k ≤ v then r + 2 ^ b else r)

/-- The first 32 bits of the fractional part of the k-th root of a prime. -/
def fracRoot (k p : Nat) : W32 := BitVec.ofNat 32 (rootBits k (p * 2 ^ (32 * k)) 40 0)

def shaK : List W32 := primesTo.map (fracRoot 3)
def shaInit : List W32 := (primesTo.take 8).map (fracRoot 2)

def shaPad (m : List Byte) : List Byte :=
  let z := (119 - m.length % 64) % 64
  m ++ [0x80] ++ List.replicate z 0 ++ beBytes 8 (8 * m.length)

/-- The message schedule, most recent word first. -/
def shaExtend : Nat → List W32 → List W32
  | 0, w => w
  | n + 1, w =>
    let a := w.getD 14 0
    let b := w.getD 1 0
    let s0 := a.rotateRight 7 ^^^ a.rotateRight 18 ^^^ (a >>> 3)
    let s1 := b.rotateRight 17 ^^^ b.rotateRight 19 ^^^ (b >>> 10)
    shaExtend n ((w.getD 15 0 + s0 + w.getD 6 0 + s1) :: w)

def shaRound (v : List W32) (kw : W32) : List W32 :=
  match v with
  | [a, b, c, d, e, f, g, h] =>
    let t1 := h + (e.rotateRight 6 ^^^ e.rotateRight 11 ^^^ e.rotateRight 25) + ((e &&& f) ^^^ (~~~e &&& g)) + kw
    let t2 := (a.rotateRight 2 ^^^ a.rotateRight 13 ^^^ a.rotateRight 22) + ((a &&& b) ^^^ (a &&& c) ^^^ (b &&& c))
    [t1 + t2, a, b, c, d + t1, e, f, g]
  | v => v

def shaBlock (k h : List W32) (block : List Byte) : List W32 :=
  let w := ((chunksOf 4 16 block).map fun c => BitVec.ofNat 32 (beNat c)).reverse
  let v := ((shaExtend 48 w).reverse.zip k).foldl (fun v x => shaRound v (x.1 + x.2)) h
  (h.zip v).map fun x => x.1 + x.2

/-- SHA-256, its bytes in order as a big-endian number. -/
def sha256 (m : List Byte) : BitVec 256 :=
  let p := shaPad m
  let k := shaK
  BitVec.ofNat 256 (((chunksOf 64 p.length p).foldl (shaBlock k) shaInit).foldl (fun n w => n * 2 ^ 32 + w.toNat) 0)

def bytes256 (v : BitVec 256) : List Byte := beBytes 32 v.toNat

/-- HMAC-SHA-256 under a 32-byte key. -/
def hmac256 (key : BitVec 256) (m : List Byte) : BitVec 256 :=
  let k := bytes256 key ++ List.replicate 32 0
  sha256 (k.map (· ^^^ 0x5C) ++ bytes256 (sha256 (k.map (· ^^^ 0x36) ++ m)))

/-- Block `i` of the KDF of R374 for an output of 256 × n bits. -/
def kdfBlock (parent : BitVec 256) (label ctx : List Byte) (bits i : Nat) : BitVec 256 :=
  hmac256 parent (beBytes 4 i ++ label ++ [0] ++ ctx ++ beBytes 4 bits)

/-- A 256-bit derived key (R374). -/
def kdf (parent : BitVec 256) (label ctx : List Byte) : BitVec 256 := kdfBlock parent label ctx 256 1

/-! ## AES-256 -/

/-- Multiplication in GF(2^8). -/
def gfMul : Nat → Nat → Nat → Nat
  | 0, _, _ => 0
  | n + 1, a, b => (if b % 2 = 1 then a else 0).xor (gfMul n (if 128 ≤ a then (2 * a).xor 0x11B else 2 * a) (b / 2))

def gfInv (a : Nat) : Nat := ((List.range 256).find? fun b => gfMul 8 a b = 1).getD 0

def rotl8 (a n : Nat) : Nat := (a * 2 ^ n + a / 2 ^ (8 - n)) % 256

def sboxAt (a : Nat) : Nat :=
  let b := gfInv a
  ((((b.xor (rotl8 b 1)).xor (rotl8 b 2)).xor (rotl8 b 3)).xor (rotl8 b 4)).xor 0x63

def sbox : List Nat := (List.range 256).map sboxAt

def subBytes (sb l : List Nat) : List Nat := l.map fun b => sb.getD b 0

def xorLists (a b : List Nat) : List Nat := (a.zip b).map fun x => x.1.xor x.2

/-- Round-key words, most recent first, from word `i` on. -/
def aesExpand (sb : List Nat) : Nat → Nat → Nat → List (List Nat) → List (List Nat)
  | 0, _, _, ws => ws
  | n + 1, i, rcon, ws =>
    let t := ws.headD []
    let old := ws.getD 7 []
    let t1 := if i % 8 = 0 then
        (match subBytes sb (t.drop 1 ++ t.take 1) with | b :: bs => b.xor rcon :: bs | [] => [])
      else if i % 8 = 4 then subBytes sb t else t
    aesExpand sb n (i + 1) (if i % 8 = 0 then gfMul 8 rcon 2 else rcon) (xorLists old t1 :: ws)

def mixColumn (c : List Nat) : List Nat :=
  (List.range 4).map fun i =>
    (((gfMul 8 (c.getD i 0) 2).xor (gfMul 8 (c.getD ((i + 1) % 4) 0) 3)).xor (c.getD ((i + 2) % 4) 0)).xor (c.getD ((i + 3) % 4) 0)

/-- Column order: byte r of column c at 4c + r. -/
def shiftRows (s : List Nat) : List Nat := (List.range 16).map fun i => s.getD ((i + 4 * (i % 4)) % 16) 0

structure AesKey where
  sbox : List Nat
  rounds : List (List Nat)

def aesKey (key : BitVec 256) : AesKey :=
  let sb := sbox
  let k := (bytes256 key).map BitVec.toNat
  let ws := (aesExpand sb 52 8 1 ((chunksOf 4 8 k).reverse)).reverse
  { sbox := sb, rounds := (chunksOf 4 15 ws).map List.flatten }

/-- One block of 16 bytes. -/
def aesBlock (k : AesKey) (b : List Byte) : List Byte :=
  let r (i : Nat) : List Nat := k.rounds.getD i []
  let s0 := xorLists (b.map BitVec.toNat) (r 0)
  let s1 := (List.range 13).foldl (fun s i => xorLists (((chunksOf 4 4 (shiftRows (subBytes k.sbox s))).map mixColumn).flatten) (r (i + 1))) s0
  (xorLists (shiftRows (subBytes k.sbox s1)) (r 14)).map (BitVec.ofNat 8)

/-! ## XTS of a 64-byte data unit (R188) -/

/-- Multiplication by α in GF(2^128), least significant bit first. -/
def xtsDouble (t : Nat) : Nat := if 2 ^ 127 ≤ t then ((2 * t) % 2 ^ 128).xor 0x87 else 2 * t

/-- AES-256-XTS under keys k1 and k2 and a tweak value. -/
def xtsSeal (k1 k2 : Nat) (tweak : Nat) (data : List Byte) : List Byte :=
  let a := aesKey (BitVec.ofNat 256 k1)
  let t0 := leNat (aesBlock (aesKey (BitVec.ofNat 256 k2)) (leBytes 16 tweak))
  ((chunksOf 16 data.length data).foldl (fun (x : List Byte × Nat) c =>
    let mask := leBytes 16 x.2
    (x.1 ++ ((aesBlock a ((c.zip mask).map fun y => y.1 ^^^ y.2)).zip mask).map (fun y => y.1 ^^^ y.2), xtsDouble x.2)) ([], t0)).1

/-! ## Galois/counter mode with a 12-byte nonce -/

/-- Multiplication in GF(2^128), most significant bit first. -/
def ghashMul : Nat → Nat → Nat → Nat → Nat
  | 0, _, _, z => z
  | n + 1, x, v, z => ghashMul n x (if v % 2 = 1 then (v / 2).xor (0xE1 * 2 ^ 120) else v / 2) (if x.testBit n then z.xor v else z)

def ghash (h : Nat) (data : List Byte) : Nat :=
  (chunksOf 16 data.length data).foldl (fun y c => ghashMul 128 (y.xor (beNat (padTo 16 0 c))) h 0) 0

def pad16 (bs : List Byte) : List Byte := bs ++ List.replicate ((16 - bs.length % 16) % 16) 0

def gcmStream (k : AesKey) (nonce : List Byte) (data : List Byte) : List Byte :=
  ((chunksOf 16 data.length data).zipIdx).flatMap fun c =>
    (c.1.zip (aesBlock k (nonce ++ beBytes 4 (c.2 + 2)))).map fun x => x.1 ^^^ x.2

def gcmTag (k : AesKey) (nonce aad ct : List Byte) : List Byte :=
  let h := beNat (aesBlock k (List.replicate 16 0))
  let g := ghash h (pad16 aad ++ pad16 ct ++ beBytes 8 (8 * aad.length) ++ beBytes 8 (8 * ct.length))
  ((beBytes 16 g).zip (aesBlock k (nonce ++ beBytes 4 1))).map fun x => x.1 ^^^ x.2

/-- Seal: key, nonce, additional data, plaintext; the ciphertext and the 16-byte tag. -/
def gcmSeal (key : BitVec 256) (nonce aad pt : List Byte) : List Byte × List Byte :=
  let k := aesKey key
  let ct := gcmStream k nonce pt
  (ct, gcmTag k nonce aad ct)

/-- Open: none when the tag fails. -/
def gcmOpen (key : BitVec 256) (nonce aad ct tag : List Byte) : Option (List Byte) :=
  let k := aesKey key
  if gcmTag k nonce aad ct = tag then some (gcmStream k nonce ct) else none

/-! ## LMS signatures (R377): LMS_SHA256_M32_H20 with LMOTS_SHA256_N32_W8 -/

/-- A hash of the scheme over the tree's identifier, a number, a two-byte domain and further bytes. -/
def lmsHash (id : List Byte) (q d : Nat) (rest : List Byte) : List Byte := bytes256 (sha256 (id ++ beBytes 4 q ++ beBytes 2 d ++ rest))

/-- The rest of a one-time chain, from step j to its end at 255. -/
def otsChain (id : List Byte) (q i : Nat) : Nat → List Byte → List Byte
  | 0, x => x
  | n + 1, x => otsChain id q i n (lmsHash id q i (beBytes 1 (254 - n) ++ x))

/-- The one-time public key that a signature implies: 32 digest bytes and 2 of their checksum, each the start of a chain. -/
def otsKey (id : List Byte) (q : Nat) (c : List Byte) (ys : List (List Byte)) (m : List Byte) : List Byte :=
  let digest := lmsHash id q 0x8181 (c ++ m)
  let digits := digest ++ beBytes 2 (digest.map fun b => 255 - b.toNat).sum
  lmsHash id q 0x8080 ((digits.zipIdx.zip ys).flatMap fun x => otsChain id q x.1.2 (255 - x.1.1.toNat) x.2)

/-- The root over a leaf and its path. -/
def lmsRoot (id : List Byte) : Nat → List Byte → List (List Byte) → List Byte
  | _, x, [] => x
  | n, x, p :: ps => lmsRoot id (n / 2) (lmsHash id (n / 2) 0x8383 (if n % 2 = 1 then p ++ x else x ++ p)) ps

/-- A signature of 1,772 bytes over a message under a public key of 56 bytes. -/
def lmsGood (key m sig : List Byte) : Bool :=
  let id := slice key 8 16
  let q := beNat (sig.take 4)
  let part (o : Nat) : List Byte := slice sig o 32
  let leaf := lmsHash id (2 ^ 20 + q) 0x8282 (otsKey id q (part 8) ((List.range 34).map fun i => part (40 + 32 * i)) m)
  key.length == 56 && sig.length == 1772 && beNat (key.take 4) == 8 && beNat (slice key 4 4) == 4 && beNat (slice sig 4 4) == 4 &&
    beNat (slice sig 1128 4) == 8 && decide (q < 2 ^ 20) && lmsRoot id (2 ^ 20 + q) leaf ((List.range 20).map fun i => part (1132 + 32 * i)) == slice key 24 32

end Sys2Proof.Machine
end

