-- ==== Sys2Proof/Machine/Packets.lean ====
section
/-! DEFINITION. What crosses a fibre: packets and their check code (R201–R203), flits and theirs (R200), and the bits of a lane frame with
its two codewords (R258, R385). -/

namespace Sys2Proof.Machine

/-! ## Packets (R201–R203) -/

/-- The class of a packet type: 0 request, 1 response, 2 collective, 3 control (R203, R205). -/
def typeClass (t : Byte) : Option Nat :=
  match t.toNat with
  | 0x01 | 0x02 | 0x03 => some 0
  | 0x08 | 0x09 => some 1
  | 0x10 => some 2
  | 0x18 | 0x19 | 0x1A | 0x1B | 0x1C => some 3
  | _ => none

def bit (b : Bool) (i : Nat) : Nat := if b then 2 ^ i else 0

/-- The mask of poisoned payload flits (R202). -/
def maskOf (bs : List PByte) : W64 :=
  ((chunksOf 64 64 bs).zipIdx).foldl (fun m c => if c.1.any (·.2) then m ||| BitVec.ofNat 64 (2 ^ c.2) else m) 0

end Sys2Proof.Machine

namespace Sys2Proof

open Machine

/-- Payload bytes may be carried, and a control payload is at most 256 (R203). -/
def Packet.formed (p : Packet) : Bool :=
  match typeClass p.type with
  | none => false
  | some c => c ≠ 3 || p.payload.length ≤ 256

/-- Header bytes 0–59 with the two mutable fields as given (R202). -/
def Packet.header (p : Packet) (ce : Bool) (hops : Nat) : List Byte :=
  [p.type] ++ leBytes 1 (p.attempt.toNat + bit p.pz 3 + bit p.ece 4 + bit ce 5) ++ leBytes 2 p.dst.toNat ++ leBytes 2 p.src.toNat ++
    leBytes 2 p.tag.toNat ++ leBytes 2 hops ++ leBytes 2 p.length.toNat ++ leBytes 5 p.addr.toNat ++
    leBytes 1 (p.fmt.toNat + 16 * p.op.toNat) ++ leBytes 2 p.status.toNat ++ leBytes 4 p.step.toNat ++ padTo 24 0 p.cls ++
    leBytes 8 p.pmask.toNat ++ [0, 0, 0, 0]

/-- What the check code covers of the header: ce and hops taken as zero (R202). -/
def Packet.head (p : Packet) : List Byte := p.header false 0

/-- The end-to-end CRC of R202. -/
def Packet.check (p : Packet) : W32 := crc32 (p.head ++ p.payload)

/-- A packet as its source sends it: hops and ce 0, its CRC in place, no flit stomped (R202). -/
def Packet.sealed (p : Packet) : Packet := { p with hops := 0, ce := false, crc := p.check, stomps := 0 }

/-- What a destination accepts: no flit carries stomp, and the CRC holds (R220). -/
def Packet.intact (p : Packet) : Bool := p.stomps == 0 && p.crc == p.check

/-- Put payload bytes with their poison into a packet. -/
def Packet.load (p : Packet) (bs : List PByte) : Packet :=
  { p with payload := bs.map (·.1), pmask := maskOf bs, pz := maskOf bs ≠ 0, length := BitVec.ofNat 12 (bs.length - 1) }

/-- The payload with the poison of its flits (R76, R202). -/
def Packet.bytes (p : Packet) : List PByte :=
  p.payload.zipIdx.map fun b => (b.1, p.pz && p.pmask.getLsbD (b.2 / 64))

/-- Flits of a packet (R201). -/
def Packet.flits (p : Packet) : Nat := 1 + (p.payload.length + 63) / 64

/-- The bytes a packet charges to its window: its payload, or a GETREQ's requested length (R211). -/
def Packet.charge (p : Packet) : Nat := if p.type = 1 then p.length.toNat + 1 else p.payload.length

end Sys2Proof

namespace Sys2Proof.Machine

/-! ## Flits (R200) -/

/-- fcheck over the 64 data bytes and side-band bits [6:0]. -/
def flitCheck (f : Flit) : W16 :=
  let side := f.vc.val + bit f.head 3 + bit f.tail 4 + bit f.stomp 5 + bit f.valid 6
  let c := (crc16 f.data).toNat
  BitVec.ofNat 16 (crcLeft 16 0x1021 7 (c.xor (side * 512)))

/-- A flit with its check code. -/
def checkedFlit (f : Flit) : Flit := { f with fcheck := flitCheck f }

/-- An idle flit: it carries only credits. -/
def idleFlit : Flit :=
  checkedFlit { data := List.replicate 64 0, vc := 0, head := false, tail := false, stomp := false, valid := false, fcheck := 0 }

/-- Flit `k` of a packet on a virtual channel: the header flit, or a payload flit padded with zeros (R201, R202). -/
def packetFlit (p : Packet) (vc : Fin 8) (k : Nat) : Flit :=
  checkedFlit
    { data := if k = 0 then p.header p.ce p.hops.toNat ++ leBytes 4 p.crc.toNat else padTo 64 0 ((p.payload.drop (64 * (k - 1))).take 64),
      vc := vc, head := k == 0, tail := k + 1 == p.flits, stomp := k ≠ 0 && p.stomps.getLsbD (k - 1), valid := true, fcheck := 0 }

/-! ## The bits of a lane frame (R258) -/

/-- A flit slot of 535 bits. -/
def slotNat (f : Flit) : Nat :=
  leNat (padTo 64 0 f.data) + 2 ^ 512 * (f.vc.val + bit f.head 3 + bit f.tail 4 + bit f.stomp 5 + bit f.valid 6) + 2 ^ 519 * f.fcheck.toNat

def slotFlit (v : Nat) : Flit :=
  { data := leBytes 64 v, vc := Fin.ofNat 8 (bitsOf v 512 3), head := bitOf v 515, tail := bitOf v 516, stomp := bitOf v 517,
    valid := bitOf v 518, fcheck := BitVec.ofNat 16 (bitsOf v 519 16) }

/-- Frame bits [114:0]: all but the flits. -/
def frameHead (f : Frame) : Nat :=
  f.lid.toNat + 2 ^ 6 * f.seq.toNat + 2 ^ 30 * f.ack.toNat + bit f.nack 54 + 2 ^ 55 * f.svcPayload.toNat + 2 ^ 63 * f.svcType.toNat +
    (((f.credits.take 3).zipIdx).map fun c => 2 ^ (67 + 16 * c.2) * (c.1.1.val + 8 * c.1.2.toNat)).sum

/-- Flit slots in a row. -/
def slotsNat (n : Nat) (fs : List Flit) : Nat := (((padTo n idleFlit fs).zipIdx).map fun x => 2 ^ (535 * x.2) * slotNat x.1).sum

/-- The frame that bits spell: 19 flit slots, or 18 in confidential mode, where slot 18 is the security slot (R385). -/
def frameOf (conf : Bool) (bits : Nat) : Frame :=
  { lid := BitVec.ofNat 6 bits, seq := BitVec.ofNat 24 (bitsOf bits 6 24), ack := BitVec.ofNat 24 (bitsOf bits 30 24), nack := bitOf bits 54,
    svcType := BitVec.ofNat 4 (bitsOf bits 63 4), svcPayload := BitVec.ofNat 8 (bitsOf bits 55 8),
    credits := ((List.range 3).map fun i => (Fin.ofNat 8 (bitsOf bits (67 + 16 * i) 3), BitVec.ofNat 13 (bitsOf bits (70 + 16 * i) 13))).filter fun c => c.2 ≠ 0,
    flits := (List.range (if conf then 18 else 19)).map fun i => slotFlit (bitsOf bits (115 + 535 * i) 535),
    secCounter := if conf then BitVec.ofNat 64 (bitsOf bits (9745 + 128) 64) else 0 }

/-! ## Frames of confidential mode (R385) -/

/-- The fibre transmit key of the module `i` in its boot epoch `e` (R375). -/
def fibreKey (i e : Nat) : BitVec 256 := kdf Config.fleetKey (ascii "FIB") (leBytes 8 i ++ leBytes 8 e)

def fibreNonce (g counter : Nat) : List Byte := leBytes 1 g ++ [0, 0, 0] ++ leBytes 8 counter

/-- Seal the bits of slots 0–17: ciphertext bits and tag. -/
def sealSlots (i e g counter head slots : Nat) : Nat × Nat :=
  let x := gcmSeal (fibreKey i e) (fibreNonce g counter) (leBytes 15 head) (leBytes 1204 slots)
  (leNat x.1 % 2 ^ 9630, leNat x.2)

/-- Open them: the two pad bits of the ciphertext are not sent, and follow from the zero bits they stand for. -/
def openSlots (i e g counter head cipher tag : Nat) : Option Nat :=
  let pt := leNat (gcmStream (aesKey (fibreKey i e)) (fibreNonce g counter) (leBytes 1204 cipher)) % 2 ^ 9630
  if sealSlots i e g counter head pt = (cipher, tag) then some pt else none

/-- The 10,280 bits of a frame as module `i` of epoch `e` sends them. -/
def frameBits (conf : Bool) (i e : Nat) (f : Frame) : Nat :=
  let h := frameHead f
  if conf then
    let x := sealSlots i e f.lid.toNat f.secCounter.toNat h (slotsNat 18 f.flits)
    h + 2 ^ 115 * x.1 + 2 ^ 9745 * (x.2 + 2 ^ 128 * f.secCounter.toNat + 2 ^ 192 * e + 2 ^ 256 * i)
  else h + 2 ^ 115 * slotsNat 19 f.flits

/-- The bits of a received frame in clear: as they are, or opened under the sender's key; none when the tag fails or a reserved bit is
set. -/
def clearBits (conf : Bool) (bits : Nat) : Option Nat :=
  if conf then
    let h := bitsOf bits 0 115
    let sec := bitsOf bits 9745 535
    if sec / 2 ^ 320 ≠ 0 then none
    else (openSlots (bitsOf sec 256 64) (bitsOf sec 192 64) (bitsOf bits 0 6) (bitsOf sec 128 64) h (bitsOf bits 115 9630) (bitsOf sec 0 128)).map
      fun pt => h + 2 ^ 115 * pt + 2 ^ 9745 * sec
  else some bits

/-! ## The codewords (R258)

RS(544,514) over symbols of 10 bits. The field polynomial x^10 + x^3 + 1, the generator with roots α^0 to α^29 and the order of the symbols
are those of IEEE 802.3 Clause 91 (PRESUMED, log entry 108). -/

/-- Multiplication in GF(2^10). -/
def gf10 : Nat → Nat → Nat → Nat
  | 0, _, _ => 0
  | n + 1, a, b => (if b % 2 = 1 then a else 0).xor (gf10 n (if 512 ≤ a then (2 * a).xor 0x409 else 2 * a) (b / 2))

/-- The generator polynomial without its leading term, lowest coefficient first. -/
def rsGenerator : List Nat :=
  let step (x : List Nat × Nat) : List Nat × Nat :=
    (((0 :: x.1).zip (x.1 ++ [0])).map fun c => c.1.xor (gf10 10 c.2 x.2), gf10 10 x.2 2)
  ((Nat.repeat step 30 ([1], 1)).1).take 30

/-- The 30 check symbols of 514 data symbols, in the order sent: the highest coefficient first. -/
def rsParity (data : List Nat) : List Nat :=
  let g := rsGenerator
  (data.foldl (fun r d =>
    let fb := d.xor (r.getLastD 0)
    ((0 :: r.dropLast).zip g).map fun x => x.1.xor (gf10 10 x.2 fb)) (List.replicate 30 0)).reverse

/-- Codeword `k` of a frame: its 514 data symbols and their check symbols. -/
def codeword (bits k : Nat) : List (BitVec 10) :=
  let data := (List.range 514).map fun i => bitsOf bits (5140 * k + 10 * i) 10
  (data ++ rsParity data).map (BitVec.ofNat 10)

/-- The 1,088 symbols of a frame on the line. -/
def lineSymbols (bits : Nat) : List (BitVec 10) := codeword bits 0 ++ codeword bits 1

end Sys2Proof.Machine
end

