-- ==== Sys2Proof/Machine/State.lean ====
section
/-! DEFINITION. The state of one SKD-3 module as plain data, its outcomes' reasons, and the state after reset.
Each unit of the manual has its own structure; the docstrings cite the rules that name the state. -/

namespace Sys2Proof.Machine

/-! ## Core: queues, descriptor registers, streams (R23–R45, R52–R99) -/

/-- A queue entry (R32). `length` is encoded n − 1. -/
structure Entry where
  token : Token
  base : SAddr
  length : SAddr
deriving DecidableEq, Repr

/-- A descriptor register d0–d15 or x0–x15 (R55, R56, R82). `base` is the signed 41-bit base of R59 and `base0`
the base of the last SETD or SETX. -/
structure Desc where
  valid : Bool
  space : BitVec 2
  ndim : BitVec 2
  format : BitVec 4
  chip : Chip
  base : BitVec 41
  base0 : BitVec 41
  size0 : W16
  size1 : W16
  size2 : W16
  size3 : W16
  stride1 : W32
  stride2 : W32
  stride3 : W32
deriving DecidableEq, Repr

def Desc.reset : Desc :=
  { valid := false, space := 0, ndim := 0, format := 0, chip := 0, base := 0, base0 := 0,
    size0 := 0, size1 := 0, size2 := 0, size3 := 0, stride1 := 0, stride2 := 0, stride3 := 0 }

/-- The moving instructions (opcodes 0x10–0x1D, R53). -/
inductive MoveKind where
  | ldh
  | sth
  | movs
  | gath
  | scat
  | rget
  | rput
  | atom (op : BitVec 4)
  | land (l : LandOp)
  | coll (op : BitVec 4) (c : CollOp)
deriving DecidableEq, Repr

/-- An instruction of the access stream (R53). -/
inductive AInstr where
  | setd (f : SetdOp)
  | advd (d : Fin 16) (restore : Bool) (disp : W32)
  | loop (count : W16) (body : BitVec 10)
  | budg (n : W32)
  | fence
  | push (f : PushOp)
  | pop (q : Fin 4) (token : Token)
  | waitf (eq : Bool) (src : Fin 16) (value : W32)
  | move (k : MoveKind) (m : MoveOp)
deriving DecidableEq, Repr

/-- An instruction of the execute stream (R79). -/
inductive XInstr where
  | setx (f : SetxOp)
  | advx (x : Fin 16) (restore : Bool) (disp : W32)
  | loopx (count : W16) (body : BitVec 10)
  | waitc (n : W32)
  | pushe (f : PushOp)
  | pope (q : Fin 4) (token : Token)
  | mma (f : MmaOp)
  | drn (f : DrnOp)
  | tacc (f : TaccOp)
  | vop (f : VopOp)
  | rst (f : RstOp)
  | xps (f : XpsOp)
  | awls (lane : Fin 4) (tid : BitVec 24) (base : BitVec 40)
  | cenf (set : Fin 16) (dst : Fin 16) (tid : BitVec 24)
deriving DecidableEq, Repr

/-- A scratchpad range, first and last address included, and whether it is written. It holds rows of `width` bytes, from `lo` on
at every multiple of the strides: `dims` lists the counts and strides of the outer dimensions (R58). -/
structure Range where
  lo : Nat
  hi : Nat
  write : Bool
  width : Nat
  dims : List (Nat × Nat)
deriving DecidableEq, Repr

/-- An access instruction in flight (R54, R62): `moved` once its data movement has ended, `done` once it has reached
completion, `pushDue` while its done push is still to be made. `open_` counts packets without an outcome, `chip` is the remote
module its operands named at issue (R77). -/
structure Flight where
  seq : Nat
  index : Nat
  instr : AInstr
  moved : Bool
  done : Bool
  pushDue : Bool
  queue : Fin 4
  entry : Entry
  ranges : List Range
  armed : Bool
  budget : W32
  open_ : Nat
  chip : Chip
deriving DecidableEq, Repr

/-- An active counted loop (R60): first and last instruction of the body, iterations left after this one. -/
structure LoopFrame where
  first : Nat
  last : Nat
  left : Nat
deriving DecidableEq, Repr

/-- The access stream of a core. `waiting` holds the instructions not yet issued, oldest first; `popped` says that
the wait (we = 1) of the oldest has taken its entry. -/
structure Access where
  desc : Vector Desc 16
  budget : W32
  waiting : List AInstr
  popped : Bool
  flights : List Flight
  nextSeq : Nat
  index : Nat
  loops : List LoopFrame
  stopped : Bool
deriving DecidableEq, Repr

/-- A piece of an output in scratchpad: the execute cycle of its write, its address, and the bytes with the poison of their
lines that stood there before (R39, R83). -/
structure Undo where
  cycle : Nat
  addr : Nat
  old : List (Byte × Bool)
deriving DecidableEq, Repr

/-- A CHAIN_SLIP (R38, R39, R84): `index`, `opcode` and `unit` are the receiver's, 0xFFFF and 0 where none samples the beat;
`other` is the producer or the earlier instruction. -/
structure Slip where
  cause : Nat
  offset : Int
  cycle : Nat
  index : Nat
  opcode : Nat
  unit : Nat
  other : Nat
  link : Option (Fin 4)
  addr : Nat
  slot : Nat
deriving DecidableEq, Repr

/-- The window of an instruction of the execute stream (R83), in execute cycles. Ranges are paired with the first
and last cycle of their accesses; `writes` are the pieces of its output. -/
structure Window where
  index : Nat
  unit : Nat
  issue : Nat
  freeAt : Nat
  accesses : List (Range × Nat × Nat)
  slot : Option (Fin 3 × Nat)
  readyAt : Nat
  half : Bool
  writes : List Undo
deriving DecidableEq, Repr

/-- The beats that a producer places on a chain link (R37, R38, R95): the first cycle, the number, the format code
they carry, the elements (bit patterns of that format) at `per` a beat, by how many cycles a
transposer gets them earlier, and whether a receiver has sampled them. -/
structure Train where
  link : Fin 4
  first : Nat
  count : Nat
  per : Nat
  fmt : BitVec 4
  elems : List W32
  poison : Bool
  early : Nat
  producer : Nat
  sampled : Bool
deriving DecidableEq, Repr

/-- The state of a tile slot (R42). A draining slot becomes Free at the given execute cycle; a slot that waits for a
tree sum is Draining without one (R90). -/
inductive SlotState where
  | free
  | owned (token : Token)
  | draining (token : Token) (freeAt : Option Nat)
deriving DecidableEq, Repr

/-- A tile slot (R40–R42). Elements are 64-bit: the FP32 or INT32 value, or hi in [31:0] and lo in [63:32] of a pair; bit 32 of
an INT32 element is 1 once a clamp of R109 has met it (R116). `readyAt` is the cycle in which the last product has updated it (R83). -/
structure Slot where
  st : SlotState
  acc : List W64
  poison : Bool
  readyAt : Nat
deriving DecidableEq, Repr

def Slot.reset : Slot := { st := .free, acc := [], poison := false, readyAt := 0 }

/-- A matrix engine: the shape and accumulator format of the running segment (R40), its slots. -/
structure Engine where
  m : Nat
  n : Nat
  acc : BitVec 4
  slots : List Slot
deriving DecidableEq, Repr

def Engine.reset : Engine := { m := 32, n := 16, acc := 0, slots := List.replicate 32 Slot.reset }

/-- An awl lane (R97). -/
structure AwlLane where
  seeded : Bool
  tid : BitVec 24
  idx : BitVec 40
deriving DecidableEq, Repr

/-- A census set (R116, R117). `emax` and `emin` are none while no finite non-zero value was counted. -/
structure Census where
  elements : W32
  zeros : W32
  saturations : W32
  nonfinite : W32
  emax : Option Int
  emin : Option Int
  sat : Bool
  poison : Bool
deriving DecidableEq, Repr

def Census.reset : Census :=
  { elements := 0, zeros := 0, saturations := 0, nonfinite := 0, emax := none, emin := none, sat := false, poison := false }

/-- One tree output half (R89) with the drain that filled it; `poison` lists its poisoned lines of 16 elements (R47, R348). -/
structure Half where
  busy : Bool
  drn : Option DrnOp
  data : List W32
  poison : List Nat
  pushDue : Bool
  index : Nat
deriving DecidableEq, Repr

def Half.reset : Half := { busy := false, drn := none, data := [], poison := [], pushDue := false, index := 0 }

/-- A TACC that waits for its tree sum (R90); `pushDue` when the sum has come and atok waits for room. -/
structure TaccWait where
  f : TaccOp
  index : Nat
  pushDue : Bool
deriving DecidableEq, Repr

/-- The execute stream of a core. `cycle` is the issue cycle of the last instruction, `base` what the next delta
counts from (R80). `beats` holds census counts of beats that leave their lane at a cycle still ahead (R98), `due` the slips
whose cycle is still ahead (R38), and `held` says that the instruction at the head has waited at a queue or a half (R31). -/
structure Execute where
  desc : Vector Desc 16
  waiting : List (W16 × XInstr)
  cycle : Nat
  base : Nat
  index : Nat
  loops : List LoopFrame
  windows : List Window
  trains : List Train
  beats : List (Nat × Fin 16 × Census)
  due : List Slip
  held : Bool
  stopped : Bool
deriving DecidableEq, Repr

/-- A segment header of the loaded image (R44, R316), events by number. -/
structure Segment where
  cls : BitVec 2
  shapes : List (Nat × Nat × BitVec 4)
  inbound : List W16
  outbound : List W16
  alen : Nat
  xlen : Nat
deriving DecidableEq, Repr

/-- A fault record (R344) in its fields; `Faults` lays it out in 128 bytes. `tick` is when it was logged, and no byte of it (R346). -/
structure Record where
  code : W16
  cause : Byte
  source : BitVec 3
  core : Option CoreId
  phys : BitVec 4
  secondary : Byte
  step : W32
  segment : W16
  instr : W16
  opcode : Byte
  unit : Byte
  slot : BitVec 5
  offset : Byte
  cycle : W32
  addr : Addr
  chip : Chip
  other : W16
  owner : Token
  carried : Token
  slotState : BitVec 2
  doneTok : Token
  comm : W16
  value : W32
  heads : List Entry
  missing : List W16
  missingN : W16
  tick : W64
deriving DecidableEq, Repr

def Record.blank : Record :=
  { code := 0, cause := 0, source := 0, core := none, phys := 0, secondary := 0, step := 0, segment := 0,
    instr := 0, opcode := 0, unit := 0, slot := 0, offset := 0, cycle := 0, addr := 0, chip := 0, other := 0,
    owner := 0, carried := 0, slotState := 0, doneTok := 0, comm := 0, value := 0, heads := [], missing := [], missingN := 0, tick := 0 }

/-- A window pass queued for a channel, or in a lease (R159, R184): kind 0 single, 1 held first, 2 held second. -/
structure Pass where
  group : BitVec 12
  window : Nat
  kind : BitVec 2
  abandoned : Bool
deriving DecidableEq, Repr

/-- A logical core (R440 and chapters 02–05, 16). `status` is the code of R440 at [1:0]. `faultDue` is the record of an access
fault that waits for the earlier instructions in flight, with the sequence number of the faulting one (R77). -/
structure Core where
  present : Bool
  status : BitVec 2
  phys : BitVec 4
  overflow : Bool
  segment : W16
  faultValid : Bool
  faultSlot : Record
  faulted : Bool
  faultDue : Option (Nat × Record)
  holdConflict : W64
  holdToken : W64
  holdDroop : W64
  holdHalving : W64
  leftover : W64
  secondary : W64
  execCycles : W64
  mmaBusy : Vector W64 3
  accessBytes : W64
  spad : List Host.Cell
  spadPoison : List Nat
  aq : Vector (List Entry) 4
  eq : Vector (List Entry) 4
  engines : Vector Engine 3
  lanes : Vector AwlLane 4
  census : Vector Census 16
  halves : Vector Half 2
  taccs : List TaccWait
  access : Access
  exec : Execute
  running : Option Nat
  updating : Option Pass
  finished : List Nat
  held3 : Bool
  heldCounted : List Nat
  secondaryNow : Byte
  droop : Bool
  droopPeriods : Nat
  suspect : Bool
  sliceOn : Bool
  sliceAt : Option W64
  slicePattern : Nat
  sliceRerun : Bool
  segments : List Segment
  fcore : BitVec 11
  fmeas : BitVec 11
  tchar : Byte
  load : BitVec 2
deriving DecidableEq, Repr

def Access.reset : Access :=
  { desc := Vector.replicate 16 Desc.reset, budget := 0, waiting := [], popped := false, flights := [], nextSeq := 0,
    index := 0, loops := [], stopped := false }

def Execute.reset : Execute :=
  { desc := Vector.replicate 16 Desc.reset, waiting := [], cycle := 0, base := 0, index := 0, loops := [], windows := [],
    trains := [], beats := [], due := [], held := false, stopped := false }

def Core.reset : Core :=
  { present := false, status := 0, phys := 0, overflow := false, segment := 0, faultValid := false, faultSlot := Record.blank,
    faulted := false, faultDue := none, holdConflict := 0, holdToken := 0, holdDroop := 0, holdHalving := 0, leftover := 0, secondary := 0,
    execCycles := 0, mmaBusy := Vector.replicate 3 0, accessBytes := 0, spad := [], spadPoison := [],
    aq := Vector.replicate 4 [], eq := Vector.replicate 4 [], engines := Vector.replicate 3 Engine.reset,
    lanes := Vector.replicate 4 { seeded := false, tid := 0, idx := 0 }, census := Vector.replicate 16 Census.reset,
    halves := Vector.replicate 2 Half.reset, taccs := [], access := Access.reset, exec := Execute.reset, running := none, updating := none,
    finished := [], held3 := false, heldCounted := [], secondaryNow := 0, droop := false, droopPeriods := 0, suspect := false,
    sliceOn := false, sliceAt := none, slicePattern := 0, sliceRerun := false, segments := [], fcore := 0, fmeas := 0, tchar := 0, load := 0 }

/-- One contribution to a tree operation (R47, R89): the core, its drain and tile with its poisoned lines, `taken` once the tree
has its last element. -/
structure Contribution where
  core : CoreId
  drn : DrnOp
  index : Nat
  order : Nat
  half : Bool
  taken : Bool
  data : List W32
  poison : List Nat
deriving DecidableEq, Repr

/-- A cluster: the core map of R439, its tree operations in progress (R89). -/
structure Cluster where
  physMap : W32
  spare : BitVec 4
  count : BitVec 4
  failed : BitVec 9
  suspect : BitVec 9
  trees : List Contribution
deriving DecidableEq, Repr

def Cluster.reset : Cluster := { physMap := 0, spare := 0xF, count := 0, failed := 0, suspect := 0, trees := [] }

/-! ## Memory (R168–R197) and the update (R141–R167) -/

/-- A region of the region table (R171, R315): bases and size in bytes; the physical granule base of an interleaved region (R172) and the
in-channel offsets of a stack-local one's bands, side 0 then side 1 (R173, R175). -/
structure Region where
  base : Nat
  size : Nat
  stackLocal : Bool
  ro : Bool
  sided : Bool
  stack : StackId
  wbase : Nat
  g0 : Nat
  bands : Nat × Nat
deriving DecidableEq, Repr

/-- A write-combining entry (R177): the line, its byte-enables and poison bit; the bytes stand in `Mem.cells`, since
accepted data is visible to every read (R53, R178). `viaW` when a byte came through alias W (R350). -/
structure Wcb where
  line : Nat
  enables : W64
  poison : Bool
  viaW : Bool
deriving DecidableEq, Repr

/-- A channel of a stack (R438, R194, R196). `regained` is the tick in which it came back from a lease with requests waiting (R186). -/
structure Chan where
  live : Bool
  tLoad : BitVec 2
  repaired : Byte
  tTemp : Temp
  settings : W64
  corrected : W64
  uncorrectable : W64
  slicesLeft : Nat
  regained : Option W64
deriving DecidableEq, Repr

def Chan.reset : Chan :=
  { live := false, tLoad := 0, repaired := 0, tTemp := 0, settings := 0, corrected := 0, uncorrectable := 0,
    slicesLeft := 0, regained := none }

/-- A stack (R438, R196): `tRef` is the reference temperature, `retrainLoad` the class noted for a retraining. -/
structure Stack where
  present : Bool
  xen : Bool
  temp : Temp
  leases : W64
  leaseOverrun : W64
  retrains : W64
  retrainFail : W64
  tRef : Temp
  retrainLoad : BitVec 2
  chans : Vector Chan 16
deriving DecidableEq, Repr

def Stack.reset : Stack :=
  { present := false, xen := false, temp := 0, leases := 0, leaseOverrun := 0, retrains := 0, retrainFail := 0, tRef := 0, retrainLoad := 0,
    chans := Vector.replicate 16 Chan.reset }

/-- A remote access to a sided alias that waits for the local step (R175). -/
structure HeldAccess where
  p : Packet
deriving DecidableEq, Repr

/-- A request at a controller: a write, a read of a line with the symbols found in error, an atomic update. -/
inductive MemReq where
  | write (addr : Addr) (data : List Byte) (poison : Bool)
  | read (addr : Addr) (symbolErrors : Nat)
  | atomic (addr : Addr) (fmt op : BitVec 4) (data : List Byte) (poison : Bool)
deriving DecidableEq, Repr

/-- The memory system. `waiting` are the requests that wait for a leased channel (R184), `keyDraw` the place of the free values that are
the stacks' keys outside confidential mode (R376). `cells` are keyed by the physical key of `Ops` (side 1 of a sided region lies 2^40 above side 0),
in rising order and with no zero byte listed; `poison` lists the poisoned lines by number, rising. `errorLog` holds the stack,
channel and address of each uncorrectable line (R192). -/
structure Mem where
  cells : List Host.Cell
  poison : List Nat
  regions : List Region
  side : Bool
  drainPending : Bool
  drainPrev : Bool
  drainTick : Option W64
  drainStep : Bool
  compat : Bool
  compatNext : Bool
  compatPending : Bool
  flashBusy : Bool
  corrected : W64
  uncorrectable : W64
  poisonedReads : W64
  parked : W64
  parkRefused : W64
  scrubPasses : W64
  wcb : Vector (List Wcb) 24
  atomics : Vector (List Nat) 24
  hbmStacks : Vector Stack 12
  held : List HeldAccess
  errorLog : List (Nat × Nat × Nat)
  fwUncorrectable : Bool
  selfRefresh : Bool
  waiting : List (StackId × ChanId × MemReq)
  keyDraw : Nat
deriving DecidableEq, Repr

/-- Who waits for a landing's outcome (R149, R150, R130); a drain's landing holds the halves of its tree busy until it is accepted
(R132). -/
inductive LandSource where
  | land (core : CoreId) (seq : Nat)
  | drain (core : CoreId) (index : Nat) (op : Byte) (halves : List (CoreId × Bool))
  | chunk (core : CoreId) (comm : BitVec 10) (chunk : W16)
deriving DecidableEq, Repr

/-- A landing under way to its stack's landing unit, or parked there (R149). -/
structure Landing where
  source : LandSource
  group : BitVec 12
  mb : Nat
  first : Nat
  data : List (W32 × Bool)
  refused : Bool
deriving DecidableEq, Repr

/-- A parameter group of the loaded image (R144), decoded. Coefficients are FP32 bit patterns. -/
structure Group where
  idx : BitVec 12
  rule : BitVec 2
  held : Bool
  clip : Bool
  mom : Bool
  cen : Bool
  wfmt : BitVec 4
  stack : Nat
  chan0 : Nat
  elements : Nat
  mbcount : Nat
  tidW : BitVec 24
  tidM : BitVec 24
  tidV : BitVec 24
  ibase : Nat
  soff : Nat
  lbase : Nat
  cbase : Nat
  eta : W32
  lambda : W32
  b1 : W32
  ob1 : W32
  b2 : W32
  ob2 : W32
  eps : W32
  gm : W32
  tmax : W32
  cmax : W32
deriving DecidableEq, Repr

/-- An open lease (R184); `reclaimed` once XRECLAIM has been sent. -/
structure Lease where
  stack : StackId
  chan : ChanId
  id : Byte
  pass : Pass
  reclaimed : Bool
deriving DecidableEq, Repr

/-- A fingerprint unit (R366): 0–4,095 groups, 4,096–4,107 regions by stack. -/
structure Finger where
  unit : Nat
  f : W64
  n : W32
deriving DecidableEq, Repr

/-- An entry of the atomic-touch list (R368). -/
structure Touch where
  region : Byte
  first : Nat
  last : Nat
deriving DecidableEq, Repr

/-- Landing units, lease schedulers, fingerprints. Block counters, window partials and the gradient lie in HBM at the
group's landing (R148). `second` notes the captured rec_w.un2 of a held group (R160); `dones` the passes done. -/
structure Update where
  groups : List Group
  landings : List Landing
  parked : List Landing
  parkUsed : Vector Nat 12
  queue : List Pass
  leases : List Lease
  leaseId : Byte
  second : List (BitVec 12 × W32 × Bool)
  dones : List (BitVec 12 × BitVec 2 × Nat)
  census : List (BitVec 12 × List Census)
  fingers : List Finger
  fingersKept : List Finger
  touch : List Touch
  touchOver : Bool
  touchKept : List Touch
  touchOverKept : Bool
deriving DecidableEq, Repr

/-! ## Fabric (R198–R225) -/

/-- A packet that waits for an output port or is on its way through it (R206): its channel there, the input port and channel whose buffer
holds it (port 8 or 9 for one injected here), and how many of its flits have gone. -/
structure OutPkt where
  vc : Fin 8
  p : Packet
  inPort : Fin 10
  inVc : Fin 8
  sent : Nat
deriving DecidableEq, Repr

/-- A network port (R205, R206, R210, R213, R222, R224). `shares` are the accepted shares and `inForce` those in force; `owed` are
credits to return; `discarding` marks a channel whose packet lost its header (R220); `outQ` holds the packets that wait for the port, in
order of arrival; `lastVc` and `lastIn` say whose turn was last. -/
structure Port where
  up : Bool
  silent : Bool
  dateline : Bool
  lanes : BitVec 7
  neighbour : Chip
  shares : Vector W16 8
  inForce : Vector W16 8
  malformed : W64
  misrouted : W64
  stomped : W64
  headerDiscard : W64
  flitsTx : Vector W64 8
  packetsTx : Vector W64 8
  stall : Vector W64 8
  ecnMarks : Vector W64 8
  watermark : Vector (BitVec 14) 8
  credits : Vector Nat 8
  occupancy : Vector Nat 8
  congested : Vector Bool 8
  owed : Vector Nat 8
  discarding : Vector Bool 8
  outQ : List OutPkt
  lastVc : Fin 8
  lastIn : Vector (Fin 10) 8
deriving DecidableEq, Repr

def defaultShares : Vector W16 8 := #v[1024, 1024, 1024, 1024, 5632, 5632, 512, 512]

def Port.reset : Port :=
  { up := false, silent := false, dateline := false, lanes := 0, neighbour := 0xFFFF, shares := defaultShares,
    inForce := defaultShares, malformed := 0, misrouted := 0, stomped := 0, headerDiscard := 0,
    flitsTx := Vector.replicate 8 0, packetsTx := Vector.replicate 8 0, stall := Vector.replicate 8 0,
    ecnMarks := Vector.replicate 8 0, watermark := Vector.replicate 8 0,
    credits := defaultShares.map BitVec.toNat, occupancy := Vector.replicate 8 0, congested := Vector.replicate 8 false,
    owed := Vector.replicate 8 0, discarding := Vector.replicate 8 false, outQ := [], lastVc := 5, lastIn := Vector.replicate 8 9 }

/-- Who issued a packet that holds a tag (R216). -/
inductive Issuer where
  | access (core : CoreId) (seq : Nat)
  | coll (op : Nat)
deriving DecidableEq, Repr

/-- Where the data of a get goes on this module (R75): scratchpad or HBM. -/
inductive LocalDest where
  | spad (core : CoreId) (addr : Nat)
  | hbm (addr : Nat)
  | none
deriving DecidableEq, Repr

/-- A live completion-table entry (R216). `sentTick` and `resent` serve R214; `noticed` while a retry notice waits
for its resend (R204); `timeout` and `retries` are the settings in force when its attempt was armed (R223). -/
structure Tag where
  tag : BitVec 15
  issuer : Issuer
  p : Packet
  dest : LocalDest
  used : BitVec 3
  sent : Bool
  sentTick : W64
  resent : Bool
  noticed : Bool
  timeout : BitVec 20
  retries : BitVec 3
deriving DecidableEq, Repr

/-- A packet that waits for injection (R211, R215); `held` is its tag when it waits for a resend (R219), `waited` once its wait for a
window-cache entry has been counted (R212). -/
structure SendReq where
  issuer : Issuer
  p : Packet
  dest : LocalDest
  held : Option (BitVec 15)
  waited : Bool
deriving DecidableEq, Repr

/-- A window-cache entry (R211); the list of `Fabric.wins` is in order of last use, oldest first. -/
structure WinEntry where
  dst : Chip
  w : Nat
  outstanding : Nat
  tDec : W64
  rtt : Nat
deriving DecidableEq, Repr

/-- The router, the completion table and the FAB counters (R207–R223). Route entries not listed are 0. `ended` are the attempts that
completed in tick `endedAt` (R217). -/
structure Fabric where
  timeout : BitVec 20
  retries : BitVec 3
  chip : Chip
  fenced : Bool
  routerDead : Bool
  lateCompletion : W64
  lateFence : W64
  timeouts : W64
  retriesSent : W64
  crcDiscard : W64
  stompDiscard : W64
  fenceTx : W64
  fenceRx : W64
  windowWait : W64
  fenceClearRefused : W64
  misroutedLocal : W64
  routes : List (Nat × W32)
  ports : Vector Port 8
  tags : List Tag
  sendQ : List SendReq
  wins : List WinEntry
  ended : List (BitVec 15 × BitVec 3)
  endedAt : W64
  published : List (Nat × W64)
deriving DecidableEq, Repr

/-! ## Collectives (R226–R252) -/

/-- A landing-map entry (R230). -/
structure LandMap where
  first : Nat
  chunks : Nat
  group : BitVec 12
  mb : Nat
  obase : Nat
deriving DecidableEq, Repr

/-- A communicator context (R227), with its arrays read at load. Counts are decoded (n, not n − 1). -/
structure Comm where
  idx : BitVec 10
  tree : Bool
  land : Bool
  jobwide : Bool
  self : Nat
  fmt : BitVec 4
  chunkElems : Nat
  members : List Chip
  counts : List Nat
  phases : List (Fin 4 × Byte × Nat)
  landMap : List LandMap
  groups : List (List Nat)
  stat : Nat
  cseq : W32
deriving DecidableEq, Repr

/-- A tree partial T(lo, n) held for elements of a chunk (R236); each element with its poison. -/
structure CollTerm where
  chunk : Nat
  offset : Nat
  lo : Nat
  n : Nat
  elems : List (W32 × Bool)
deriving DecidableEq, Repr

/-- A collective operation in progress at this module (R232-R244): `buf` the values of its chunks as this member holds
them, `got` the final pieces (chunk or, for A2AV, member; offset; elements), `left` the elements this phase still has to
see, `counts` the source header of an A2AV. `dst` is the destination operand as it stood at issue. Of fenced members, `fenced` are those known
by index, `cut` those this member found itself, `below` how many each heap child reported below it (R239); `detoured` the gather steps and
members whose lines this member has served (R244). -/
structure CollRun where
  id : Nat
  core : CoreId
  seq : Nat
  comm : BitVec 10
  op : BitVec 4
  chunk : Nat
  nchunks : Nat
  param : W32
  drain : Bool
  fmt : BitVec 4
  dst : Desc
  buf : List (List (W32 × Bool))
  terms : List CollTerm
  got : List (Nat × Nat × List (W32 × Bool))
  counts : List Nat
  phase : Nat
  started : Bool
  left : Nat
  fenced : List Nat
  cut : List Nat := []
  below : List (Nat × Nat) := []
  detoured : List (Nat × Nat) := []
deriving DecidableEq, Repr

/-- The identity of a collective packet (R240). -/
structure CollId where
  comm : BitVec 10
  step : W32
  chunk : W16
  sender : W16
  phase : BitVec 2
  kind : BitVec 2
  offset : W32
deriving DecidableEq, Repr

/-- A cinch record (R245): `total` fenced members, of which `fenced` names those known here. -/
structure CinchRec where
  orw : W64
  minw : W64
  sumw : W64
  status : Byte
  planReq : Byte
  total : Nat
  fenced : List W16
deriving DecidableEq, Repr

/-- Which cinch a member is in (R245, R250, R335): a COLL CINCH, the commit cinch or the start cinch. -/
inductive CinchKind where
  | coll (core : CoreId) (seq : Nat)
  | commit
  | start (ring : RingId) (idx : W16)
deriving DecidableEq, Repr

/-- A cinch this member has entered and that has not completed (R246–R249): its own record, the UPs held by member,
the destination operand of a COLL CINCH, whether its UP has been sent and acknowledged. -/
structure Cinch where
  comm : BitVec 10
  cseq : W32
  kind : CinchKind
  record : CinchRec
  ups : List (Nat × CinchRec)
  dst : Option Desc
  chunk : Nat
  upSent : Bool
  upAcked : Bool
deriving DecidableEq, Repr

/-- A DOWN this member still resends to a child (R246). -/
structure CinchOwed where
  comm : BitVec 10
  cseq : W32
  member : Nat
  record : CinchRec
deriving DecidableEq, Repr

/-- The collective engine. `heldDowns` are the DOWNs that wait in the router while this module's own plan switch runs (R275). -/
structure Coll where
  comms : List Comm
  runs : List CollRun
  nextId : Nat
  seen : List CollId
  early : List Packet
  earlyUps : List Packet
  heldDowns : List Packet
  stale : W64
  treeSeq : Nat
  cinches : List Cinch
  owed : List CinchOwed
  acksOwed : List (Packet × List Nat)
deriving DecidableEq, Repr

/-! ## Optics (R253–R277) and discovery (R278–R288) -/

/-- The calibration record of a ring in module flash (R267): heater set point at lock, coefficient in heater code per °C, the engine and die
temperatures at the measurement, the load class. -/
structure RingRecord where
  heater : W16
  coeff : W16
  engTemp : Temp
  dieTemp : Temp
  load : BitVec 2
deriving DecidableEq, Repr

def RingRecord.blank : RingRecord := { heater := 0, coeff := 0, engTemp := 0, dieTemp := 0, load := 0 }

/-- One lane: the demux (receive) and mux (transmit) rings (R268), its training and its place in the strap. `txOut` and `rxOut`
say that it has been taken out of its strap, `txReady` and `rxReady` that it has locked again, `txDue` and `rxDue` that 200 µs have passed
since its detection (R270); `txTrained` and `rxTrained` that its modulation is chosen (R262). `pilotX` and `pilotY` are the identity words it
sends on the two polarisations, 0 while it is dark (R265); `trimTx` and `trimRx` what the ring locks have added to the set points, `polar`
and `carrier` the corrections of the other two loops (R266, R267). -/
structure Lane where
  rxState : BitVec 3
  txState : BitVec 3
  txMod : BitVec 2
  rxMod : BitVec 2
  txActive : Bool
  rxActive : Bool
  snr : BitVec 10
  heatRx : W16
  heatTx : W16
  mislock : W64
  fec : W64
  lost : W64
  rxGood : Nat
  rxOther : Nat
  txGood : Nat
  txOther : Nat
  rxSweeps : Nat
  txSweeps : Nat
  txOut : Bool
  rxOut : Bool
  txReady : Bool
  rxReady : Bool
  txDue : Bool
  rxDue : Bool
  txTrained : Bool
  rxTrained : Bool
  txPort : Option (Fin 4)
  rxPort : Option (Fin 4)
  txCounter : W64
  pilotX : W16
  pilotY : W16
  trimRx : W16
  trimTx : W16
  polar : W16
  carrier : W16
deriving DecidableEq, Repr

def Lane.reset : Lane :=
  { rxState := 0, txState := 0, txMod := 0, rxMod := 0, txActive := false, rxActive := false, snr := 0, heatRx := 0,
    heatTx := 0, mislock := 0, fec := 0, lost := 0, rxGood := 0, rxOther := 0, txGood := 0, txOther := 0,
    rxSweeps := 0, txSweeps := 0, txOut := false, rxOut := false, txReady := false, rxReady := false, txDue := false, rxDue := false,
    txTrained := false, rxTrained := false, txPort := none, rxPort := none, txCounter := 0, pilotX := 0, pilotY := 0, trimRx := 0, trimTx := 0,
    polar := 0, carrier := 0 }

/-- One strap (network port): its frame numbering and replay (R260), its part in a plan switch (R275). `kept` holds the frames
that wait for their acknowledgement with their lanes, `nextLane` where the next frame's search starts. `doneAt` is the sequence number of a
Done that has come, `markers` how many frames before it the far end sent as markers. -/
structure Strap where
  txSeq : BitVec 24
  rxSeq : BitVec 24
  gap : Bool
  kept : List (LaneId × Frame)
  nextLane : Nat
  buffer : List Frame
  paused : Bool
  doneSent : Bool
  doneSeen : Bool
  doneAt : Option (BitVec 24)
  markers : Nat
  svcQ : List (BitVec 4 × Byte)
  rxCounters : List (Nat × W64)
deriving DecidableEq, Repr

def Strap.reset : Strap :=
  { txSeq := 0, rxSeq := 0xFFFFFF, gap := false, kept := [], nextLane := 0, buffer := [], paused := false, doneSent := false,
    doneSeen := false, doneAt := none, markers := 0, svcQ := [], rxCounters := [] }

/-- The optical engines and the OPT block (R276). `strapTable` is the table of R271 by plan; `phase` of a switch: 0 none,
1 markers, 2 buckle reprogrammed; `markersHeld` are the markers that wait for its end; `records` are the ring records in module flash, ring 2g
receiving on lane g and ring 2g + 1 transmitting; `combEvents` counts what R254 reports. -/
structure Optics where
  plan : BitVec 3
  switching : Bool
  target : BitVec 3
  phase : Nat
  markersHeld : List (Fin 8)
  combs : BitVec 5
  spareUsed : Bool
  spareEngine : BitVec 2
  spareLit : Bool
  combsOut : List Nat
  combEvents : W64
  records : Vector RingRecord 128
  switches : W64
  mislock : W64
  pilotLost : W64
  lanesRemoved : W64
  lanesRejoined : W64
  sweepFailed : W64
  reacquireFailed : W64
  framesLost : W64
  framesResent : W64
  fecSymbols : W64
  planMismatch : W64
  svcReserved : W64
  temps : Vector Temp 4
  lanes : Vector Lane 64
  straps : Vector Strap 8
  portMap : List Byte
  validMask : Byte
  plans : List (List Byte)
  planPkts : List (Fin 8 × Packet)
  planFailed : Bool
deriving DecidableEq, Repr

/-- What discovery knows of one fibre port (R284, R285); `tseqs` are the kinds and tick counts of the messages sent on it, which their
acknowledgements echo (R282). -/
structure DiscLink where
  tseqs : List (Fin 4 × W32)
  helloAcked : Bool
  coordAcked : Bool
  upAcked : Bool
  downAcked : Bool
  helloChecked : Bool
  farIdentity : Option W64
  farEngine : Option (Fin 4)
  roundTrip : Option Nat
  coordSeen : Bool
  upFrom : Option (W32 × W16)
  coordSent : Bool
  upSent : Bool
  downSent : Bool
deriving DecidableEq, Repr

def DiscLink.reset : DiscLink :=
  { tseqs := [], helloAcked := false, coordAcked := false, upAcked := false, downAcked := false, helloChecked := false,
    farIdentity := none, farEngine := none, roundTrip := none, coordSeen := false, upFrom := none, coordSent := false,
    upSent := false, downSent := false }

/-- The topology declaration (R280), decoded. -/
structure Decl where
  axes : Nat
  lens : List Nat
  tag : W64
  seed : W64
  budget : W32
  pmap : List Byte
  dcrc : W32
deriving DecidableEq, Repr

/-- Discovery and its outcome (R280–R288, R442). `flagged` names, for each result code flagged here, the fibre port of its
first flag; `oldTags` are the tags of superseded declarations (R288). -/
structure Disc where
  running : Bool
  ended : Bool
  result : BitVec 4
  flagPort : BitVec 5
  total : BitVec 17
  farId : W64
  coordsReg : W32
  lensReg : W32
  tagReg : W64
  decl : Option Decl
  owner : Option (RingId × W16)
  coords : Option (List Nat)
  links : Vector DiscLink 16
  flags : W16
  flagged : List (Nat × Fin 16)
  oldTags : List W64
  downResult : Option (BitVec 4)
deriving DecidableEq, Repr

def Disc.reset : Disc :=
  { running := false, ended := false, result := 0, flagPort := 0, total := 0, farId := 0, coordsReg := 0, lensReg := 0,
    tagReg := 0, decl := none, owner := none, coords := none, links := Vector.replicate 16 DiscLink.reset, flags := 0,
    flagged := [], oldTags := [], downResult := none }

/-! ## Host link (R292–R311) -/

/-- A descriptor in progress (R297, R299): its bytes, its status once it has one, its details. `acted` once its action
has been taken. -/
structure Inflight where
  idx : W16
  bytes : List Byte
  status : Option W16
  detailA : BitVec 48
  detailB : W64
  code : W16
  acted : Bool
deriving DecidableEq, Repr

/-- A ring pair (R295–R301). `runBase`, `runSize` and `runVector` are the completion ring and vector of the last successful enable: what
is still to be completed goes there (R295). -/
structure Ring where
  sqbase : W64
  cqbase : W64
  size : BitVec 5
  enable : Bool
  weight : BitVec 2
  vector : BitVec 5
  ccount : Byte
  cticks : W16
  sqhead : W16
  cqtail : W16
  cfgErr : Bool
  completed : W64
  sqtail : W16
  cqhead : W16
  runBase : W64
  runSize : BitVec 5
  runVector : BitVec 5
  unreleased : Nat
  phase : Bool
  unsent : Nat
  inflight : List Inflight
deriving DecidableEq, Repr

def Ring.reset (n : Nat) : Ring :=
  { sqbase := 0, cqbase := 0, size := 0, enable := false, weight := 0, vector := BitVec.ofNat 5 n, ccount := 0, cticks := 0,
    sqhead := 0, cqtail := 0, cfgErr := false, completed := 0, sqtail := 0, cqhead := 0, runBase := 0, runSize := 0,
    runVector := BitVec.ofNat 5 n, unreleased := 0, phase := true, unsent := 0, inflight := [] }

/-- An event raised (R302): its type and detail bytes 16–31. -/
structure Event where
  type : W16
  step : W32
  ticks : W64
  detail : List Byte
deriving DecidableEq, Repr

/-- The eight job states (R307). -/
inductive JobState where
  | nodisc
  | discovering
  | ready
  | loaded
  | running
  | stopped
  | minimal
  | wedged
deriving DecidableEq, Repr

/-- The host link (R311, R293). -/
structure Hlk where
  width : BitVec 4
  up : Bool
  state : JobState
  evbase : W64
  evsize : BitVec 5
  evenable : Bool
  everr : Bool
  evtail : W16
  evhead : W16
  evused : Nat
  evphase : Bool
  evlostNow : Nat
  doorbellBad : W64
  eventLost : W64
  linkRetrains : W64
  trained : Bool
  buffered : List Event
  cutOff : List (RingId × W16)
  authRun : Nat
  rings : Vector Ring 16
  lastRing : Nat
  turn : Nat
deriving DecidableEq, Repr

/-! ## Job (R21, R120, R121, R250, R307–R308, R314, R347) -/

/-- STEP HOLD (R308). -/
inductive Hold where
  | none
  | pending
  | inEffect
deriving DecidableEq, Repr

/-- The manifest of the loaded image (R314). -/
structure Manifest where
  units : BitVec 4
  cores : Nat
  pop : List Nat
  lens : List Nat
  seed : W64
  step0 : W32
  side0 : Bool
  l0 : Int
  lf : Int
  lc : Int
  n : Nat
  commit : BitVec 10
  budget : W32
  cbudget : W32
  park : Nat
  ctx : Nat
  crec : Nat
  ntab : Nat
deriving DecidableEq, Repr

/-- The step in progress. `ctxKept` is the retained context of the last flipped step (R165): step, L and c; `freqKept` its frequency. -/
structure Job where
  manifest : Option Manifest
  step : W32
  l : Int
  clean : Nat
  floorHits : W64
  overflow : Bool
  poison : Bool
  consumedNow : Bool
  events : List (W16 × Nat)
  hold : Hold
  holdAt : Option (RingId × W16 × W64)
  replay : Option (RingId × W16)
  replaySide : Bool
  replayBack : Option (W32 × Int × Nat)
  ctxKept : Option (W32 × Int × Nat)
  freqKept : BitVec 11
  abort : Bool
  aborting : Bool
  quiescing : Bool
  entered : Bool
  deferred : Bool
  firstEntry : Bool
  dispatching : Bool
  startRing : Option (RingId × W16)
  switchThenRun : Bool
  report : List Byte
deriving DecidableEq, Repr

/-! ## Power (R321–R341) -/

/-- A coefficient of the power estimate (R323, R332): pW per activity count and MHz, with the die temperature in °C and the load class of
its measurement. -/
structure CoeffRec where
  coeff : W32
  temp : Byte
  load : BitVec 2
deriving DecidableEq, Repr

/-- The harness controller and the PWR block. `coeffs` are the unit classes of R323 in its order. `limSum` and `limN` are the values of
P_lim since the last 10 µs sample, in 0.1 W; `views` are P_est and P_meas at the last samples, newest first; `estSum`, `estN`, `measSum` and `measN` those of P_est and P_meas since the last millisecond
comparison. `samples` are the last values S, in 0.01 W, newest first; `dies` the last die samples, newest first. -/
structure Pwr where
  capRack : W16
  hcap : W16
  hcapErr : Bool
  fceilErr : Bool
  pstate : BitVec 2
  tstate : BitVec 2
  halving : Bool
  peak : Bool
  fastRise : Bool
  telemetryBad : Bool
  diverging : Bool
  capUnmet : Bool
  pEst : W16
  pMeas : W16
  pAvg : W16
  demand : W16
  fJob : BitVec 11
  fOffer : BitVec 11
  fChar : BitVec 11
  fceil : BitVec 11
  fTherm : BitVec 11
  fPwr : BitVec 11
  tDie : Temp
  tStack : Temp
  tOpt : Temp
  trip : BitVec 3
  tripPending : Bool
  divergence : W64
  telemetryEvents : W64
  fastRises : W64
  peakEngaged : W64
  amberSamples : W64
  redSamples : W64
  class3Held : W64
  holdExpired : W64
  bucket : Nat
  coeffs : Vector CoeffRec 7
  limSum : Nat
  limN : Nat
  estSum : Nat
  estN : Nat
  measSum : Nat
  measN : Nat
  samples : List Nat
  views : List (W16 × W16)
  dies : List Temp
  divergentMs : Nat
  goodReadings : Nat
  staleReads : Nat
  redHalved : Nat
  fastFor : Nat
  nSamples : Nat
  nRed : Nat
  nAmber : Nat
  tMax : Temp
  fastSeen : Bool
  inputBad : Bool
  inputGood : Nat
deriving DecidableEq, Repr

/-! ## Faults, management, security, boot (R342–R390, R415–R437) -/

/-- The fault log, the dump and the MGT registers of R364. `log` is oldest first. -/
structure Flt where
  log : List Record
  logWritten : W64
  logOverwritten : W64
  dumpHostBase : W64
  dumpHostSize : W16
  dumpValid : Bool
  dumpDest : BitVec 2
  dumpCode : W16
  dumpCause : Byte
  dumpSeq : W64
  seqRefused : Bool
  dumpTick : W64
  dumpHead : List Byte
  dumpLog : List Record
  dumping : Bool
  burnishEn : Bool
  dataParity : W64
  parityUnits : Vector W64 9
  consumptions : W64
  slices : W64
  transients : W64
  burnishDelay : W64
  fatalDropped : W64
  badFlagReads : W64
  lastBurnish : Nat
deriving DecidableEq, Repr

/-- A firmware slot of module flash (R377, R434): does its image verify, its version, SVN, body length − 1 and body hash. -/
structure FwSlot where
  valid : Bool
  version : W32
  svn : W32
  length : W32
  hash : BitVec 256
deriving DecidableEq, Repr

/-- The security engine and security flash (R373–R390). -/
structure Sec where
  conf : Bool
  keyed : Bool
  unlocked : Bool
  modeBusy : Bool
  modeErr : Bool
  modeTarget : Bool
  modeSeq : W16
  epoch : W64
  fleet : BitVec 128
  fleetInstalled : Bool
  arc : Vector W32 5
  slots : BitVec 5
  token : Vector W64 4
  leafNext : Nat
  mark : Nat
  quotes : W64
  fibreAuthFail : W64
  linkAuthFail : W64
  hostAuthFail : W64
  m : Vector (BitVec 256) 3
  log : List (List Byte)
  logSeq : Nat
  treeBuilt : Nat
  hostHigh : W64
  hostSeen : List W64
  hostNext : W64
deriving DecidableEq, Repr

/-- The firmware transfer in progress, as its go found the registers (R435): type, slot, a reserved bit set, host address, length − 1. -/
structure MbRun where
  type : BitVec 3
  slot : Bool
  reserved : Bool
  host : W64
  length : W32
deriving DecidableEq, Repr

/-- Boot, resets, module flash and the mailbox (R415–R437). -/
structure Boot where
  stage : Byte
  highest : Byte
  reason : Byte
  detail : W32
  failStage : Byte
  failedStarts : BitVec 2
  cause : BitVec 3
  minimal : Bool
  romMonitor : Bool
  startTick : W64
  durations : List W32
  powerRecord : List Byte
  powerCause : Byte
  lanesRepaired : Byte
  postTrip : Bool
  noLibrary : Bool
  awaitingRestart : Bool
  retryWaits : Bool
  coreFailed : List (Fin 8 × Fin 9)
  coreSuspect : List (Fin 8 × Fin 9)
  suspectPattern : List (Fin 8 × Fin 9 × Nat)
  fw : Vector FwSlot 10
  mbType : BitVec 3
  mbSlot : Bool
  mbHost : W64
  mbLength : W32
  mbRun : Option MbRun
  mbAgain : Bool
  mbResult : BitVec 4
  mbDone : W32
deriving DecidableEq, Repr

/-- The module's pins, input stage and management endpoint (R391–R402). -/
structure Inp where
  mated : Bool
  prsnt : Bool
  pwrEn : Bool
  overvolt : Bool
  switchOn : Bool
  aux : Bool
  rails : Bool
  railMask : BitVec 9
  clocksStopped : Bool
  tripN : Bool
  pg : Bool
  resetLow : Bool
  lastOpen : Byte
  powerFail : Bool
  resetWaits : Option (BitVec 3)
  inputDv : W16
  staticAddr : BitVec 7
  dynAddr : Option (BitVec 7)
  eid : Byte
deriving DecidableEq, Repr

/-- The part's variant (R2). -/
inductive Variant where
  | f64
  | m48
  | s64
deriving DecidableEq, Repr

/-- GLB: identity, capability, the tick counter and the half-read latch (R414, R428, R431). -/
structure Glb where
  moduleId : W64
  variant : Variant
  dieStep : Byte
  boardIssue : Byte
  cores : BitVec 7
  clusters : Byte
  hbmStacks : BitVec 12
  engines : BitVec 4
  chanEng : Bool
  lanes : BitVec 7
  members : W32
  mappedOut : Byte
  jobCapacity : Addr
  ticks : W64
  regBad : W64
  slotId : BitVec 4
  latch : Option (BitVec 26 × W32)
deriving DecidableEq, Repr

/-! ## What goes out -/

/-- What the module sends outside (log entry 3). -/
inductive Out where
  | packet (port : Fin 10) (p : Packet)
  | frame (port : PortId) (g : LaneId) (f : Frame) (line : List (BitVec 10))
  | planMismatch (port : PortId) (plan : Fin 8) (fport : Fin 16) (theirs : W16) (mine : W16)
  | disc (port : Fin 16) (p : Packet)
  | hostWrite (addr : W64) (data : List Byte)
  | interrupt (vector : BitVec 5)
  | mctp (body : List Byte)
  | readData (value : W64)
  | tripN
  | xgrant (stack : StackId) (chan : ChanId) (id : Byte) (desc : List Byte)
  | xreclaim (stack : StackId) (chan : ChanId) (id : Byte)
  | refresh (stack : StackId) (chan : ChanId) (bank : Fin 128)
  | refreshManage (stack : StackId) (chan : ChanId) (bank : Fin 128)
  | refreshAll (stack : StackId) (chan : ChanId)
  | precharge (stack : StackId) (chan : ChanId)
  | xkey (stack : StackId) (key : List Byte)
  | xstat (stack : StackId) (chan : ChanId)
  | memData (data : List Byte) (poison : Bool)
deriving DecidableEq, Repr

/-! ## The whole -/

/-- The machine stops with no fault of its own: every error of the manual is a next state (a record, STOPPED, WEDGED,
powered off), so no meaning raises one. -/
inductive Fault where
deriving DecidableEq, Repr

/-- Refusals. -/
inductive Refusal where
  /-- Raised by an arm of `exec` whose command has no meaning yet; safe (the model stops). -/
  | notModelled (mnemonic : String)
deriving DecidableEq, Repr

/-- The state of the module. `out`, `free` and `pending` are the model's own fields. -/
structure State where
  cores : Vector Core 64
  clusters : Vector Cluster 8
  mem : Mem
  upd : Update
  fab : Fabric
  coll : Coll
  opt : Optics
  disc : Disc
  hlk : Hlk
  job : Job
  pwr : Pwr
  flt : Flt
  sec : Sec
  boot : Boot
  inp : Inp
  glb : Glb
  out : List Out
  free : Nat
  pending : List Instr
deriving DecidableEq, Repr

def Mem.reset : Mem :=
  { cells := [], poison := [], regions := [], side := false, drainPending := false, drainPrev := false, drainTick := none, drainStep := false, compat := false,
    compatNext := false, compatPending := false, flashBusy := false, corrected := 0, uncorrectable := 0, poisonedReads := 0,
    parked := 0, parkRefused := 0, scrubPasses := 0, wcb := Vector.replicate 24 [], atomics := Vector.replicate 24 [],
    hbmStacks := Vector.replicate 12 Stack.reset, held := [], errorLog := [], fwUncorrectable := false, selfRefresh := false,
    waiting := [], keyDraw := 0 }

def Update.reset : Update :=
  { groups := [], landings := [], parked := [], parkUsed := Vector.replicate 12 0, queue := [], leases := [], leaseId := 0,
    second := [], dones := [], census := [], fingers := [], fingersKept := [], touch := [], touchOver := false,
    touchKept := [], touchOverKept := false }

def Fabric.reset : Fabric :=
  { timeout := 0x4E1F, retries := 3, chip := 0xFFFF, fenced := false, routerDead := false, lateCompletion := 0, lateFence := 0, timeouts := 0,
    retriesSent := 0, crcDiscard := 0, stompDiscard := 0, fenceTx := 0, fenceRx := 0, windowWait := 0,
    fenceClearRefused := 0, misroutedLocal := 0, routes := [], ports := Vector.replicate 8 Port.reset, tags := [], sendQ := [], wins := [],
    ended := [], endedAt := 0, published := [] }

def Coll.reset : Coll :=
  { comms := [], runs := [], nextId := 0, seen := [], early := [], earlyUps := [], heldDowns := [], stale := 0, treeSeq := 0, cinches := [], owed := [],
    acksOwed := [] }

def Optics.reset : Optics :=
  { plan := 0, switching := false, target := 0, phase := 0, markersHeld := [], combs := 0x1F, spareUsed := false,
    spareEngine := 0, spareLit := false, combsOut := [], combEvents := 0, records := Vector.replicate 128 RingRecord.blank, switches := 0, mislock := 0, pilotLost := 0, lanesRemoved := 0, lanesRejoined := 0,
    sweepFailed := 0, reacquireFailed := 0, framesLost := 0, framesResent := 0, fecSymbols := 0, planMismatch := 0,
    svcReserved := 0, temps := Vector.replicate 4 0, lanes := Vector.replicate 64 Lane.reset, straps := Vector.replicate 8 Strap.reset,
    portMap := List.replicate 16 0xFF, validMask := 0, plans := List.replicate 8 (List.replicate 64 0), planPkts := [],
    planFailed := false }

def Hlk.reset : Hlk :=
  { width := 0, up := false, state := .nodisc, evbase := 0, evsize := 0, evenable := false, everr := false, evtail := 0,
    evhead := 0, evused := 0, evphase := true, evlostNow := 0, doorbellBad := 0, eventLost := 0, linkRetrains := 0, trained := false, buffered := [],
    cutOff := [], authRun := 0, rings := Vector.ofFn fun i => Ring.reset i.val, lastRing := 0, turn := 0 }

def Job.reset : Job :=
  { manifest := none, step := 0, l := 0, clean := 0, floorHits := 0, overflow := false, poison := false, consumedNow := false,
    events := [], hold := .none, holdAt := none, replay := none, replaySide := false, replayBack := none, ctxKept := none, freqKept := 0, abort := false, aborting := false,
    quiescing := false, entered := false, deferred := false, firstEntry := true, dispatching := false, startRing := none,
    switchThenRun := false, report := [] }

def Pwr.reset : Pwr :=
  { capRack := 0x960, hcap := 0x960, hcapErr := false, fceilErr := false, pstate := 0, tstate := 0, halving := false,
    peak := false, fastRise := false, telemetryBad := false, diverging := false, capUnmet := false, pEst := 0, pMeas := 0,
    pAvg := 0, demand := 0, fJob := 0, fOffer := 0, fChar := 0, fceil := 0x6D6, fTherm := 0, fPwr := 0, tDie := 0,
    tStack := 0, tOpt := 0, trip := 0, tripPending := false, divergence := 0, telemetryEvents := 0, fastRises := 0,
    peakEngaged := 0, amberSamples := 0, redSamples := 0, class3Held := 0, holdExpired := 0, bucket := 0,
    coeffs := Vector.replicate 7 { coeff := 0, temp := 0, load := 0 }, limSum := 0, limN := 0, estSum := 0, estN := 0, measSum := 0, measN := 0, samples := [], views := [],
    dies := [], divergentMs := 0, goodReadings := 0, staleReads := 0, redHalved := 0, fastFor := 0, nSamples := 0, nRed := 0,
    nAmber := 0, tMax := 0, fastSeen := false, inputBad := false, inputGood := 0 }

def Flt.reset : Flt :=
  { log := [], logWritten := 0, logOverwritten := 0, dumpHostBase := 0, dumpHostSize := 0, dumpValid := false, dumpDest := 0,
    dumpCode := 0, dumpCause := 0, dumpSeq := 0, seqRefused := false, dumpTick := 0, dumpHead := [], dumpLog := [], dumping := false, burnishEn := true, dataParity := 0, parityUnits := Vector.replicate 9 0,
    consumptions := 0, slices := 0, transients := 0, burnishDelay := 0, fatalDropped := 0, badFlagReads := 0, lastBurnish := 63 }

def Sec.reset : Sec :=
  { conf := false, keyed := false, unlocked := false, modeBusy := false, modeErr := false, modeTarget := false, modeSeq := 0,
    epoch := 0, fleet := 0, fleetInstalled := true, arc := Vector.replicate 5 0, slots := 0,
    token := Vector.replicate 4 0, leafNext := 0, mark := 0, quotes := 0, fibreAuthFail := 0, linkAuthFail := 0, hostAuthFail := 0,
    m := Vector.replicate 3 0, log := [], logSeq := 0, treeBuilt := 0, hostHigh := 0, hostSeen := [], hostNext := 1 }

def Boot.reset : Boot :=
  { stage := 0, highest := 0, reason := 0, detail := 0, failStage := 0, failedStarts := 0, cause := 0, minimal := false, romMonitor := false,
    startTick := 0, durations := List.replicate 11 0, powerRecord := List.replicate 32 0, powerCause := 1, lanesRepaired := 0,
    postTrip := false, noLibrary := false, awaitingRestart := false, retryWaits := false, coreFailed := [], coreSuspect := [], suspectPattern := [],
    fw := Vector.ofFn fun i => { valid := i.val % 2 == 0, version := if i.val % 2 == 0 then 1 else 0, svn := 0, length := 0, hash := 0 },
    mbType := 0, mbSlot := false, mbHost := 0, mbLength := 0, mbRun := none, mbAgain := false, mbResult := 0, mbDone := 0 }

def Inp.reset : Inp :=
  { mated := true, prsnt := true, pwrEn := true, overvolt := false, switchOn := true, aux := true, rails := false, railMask := 0,
    clocksStopped := false, tripN := false, pg := false, resetLow := false, lastOpen := 1, powerFail := false,
    resetWaits := none, inputDv := 600, staticAddr := 0x30, dynAddr := none, eid := 0 }

def Glb.reset : Glb :=
  { moduleId := 0x1000, variant := .f64, dieStep := 1, boardIssue := 1, cores := 0, clusters := 0, hbmStacks := 0, engines := 0,
    chanEng := false, lanes := 0, members := 0, mappedOut := 0, jobCapacity := 0, ticks := 0, regBad := 0, slotId := 0,
    latch := none }

/-- The module right after reset, before any boot stage (boot_stage 0x00, R418). -/
def State.reset : State :=
  { cores := Vector.replicate 64 Core.reset, clusters := Vector.replicate 8 Cluster.reset, mem := Mem.reset, upd := Update.reset,
    fab := Fabric.reset, coll := Coll.reset, opt := Optics.reset, disc := Disc.reset, hlk := Hlk.reset, job := Job.reset,
    pwr := Pwr.reset, flt := Flt.reset, sec := Sec.reset, boot := Boot.reset, inp := Inp.reset, glb := Glb.reset, out := [],
    free := 0, pending := [] }

end Sys2Proof.Machine
end

