-- ==== Sys2Proof/Machine/Ops.lean ====
section
/-! DEFINITION. The named operations over the state that every meaning is built from: cores, outputs, events,
records and faults (R302, R342–R359), and memory (R74, R141–R142, R171–R180, R191–R192, R350, R366). -/

namespace Sys2Proof.Machine

/-- Update element `i` of a vector by a function. -/
def vmod {α : Type} {n : Nat} (v : Vector α n) (i : Fin n) (f : α → α) : Vector α n := v.set i (f v[i])

/-- A counter that counts one more and wraps (R224). -/
def bump (c : W64) : W64 := c + 1

/-! ## Cores, outputs, free values -/

def State.core (s : State) (c : CoreId) : Core := s.cores[c]

def State.updCore (s : State) (c : CoreId) (f : Core → Core) : State := { s with cores := vmod s.cores c f }

/-- Send something outside (log entry 3). -/
def State.say (s : State) (o : Out) : State := { s with out := s.out ++ [o] }

/-- Draw a free value (log entry 13). -/
def State.draw (s : State) : W64 × State := (Config.freeValue s.free, { s with free := s.free + 1 })

/-- The reference tick counter (R414). -/
def State.now (s : State) : W64 := s.glb.ticks

/-- Any access to the set-up window clears the half-read latch (R428). -/
def State.unlatch (s : State) : State := { s with glb := { s.glb with latch := none } }

/-- A write to a block on the job rails: ignored while they are off (R430). -/
def State.onRails (s : State) (f : State → State) : State := if s.inp.rails then f s.unlatch else s.unlatch

/-- The job rails are on and the job-side clocks run (R391, R330, R396). -/
def State.jobSide (s : State) : Bool := s.inp.aux && s.inp.rails && !s.inp.clocksStopped

/-- Saturating increment of an 8-bit count (R344). -/
def satByte (b : Byte) : Byte := if b = 0xFF then b else b + 1

/-- The optical engine exists on this variant (R253). -/
def enginePresent (s : State) (e : Nat) : Bool := !(s.glb.variant == .m48 && e == 3)

/-! ## Events (R302, R293) -/

def ringEntries (size : Nat) : Nat := 2 ^ size

/-- The 32 bytes of an event entry (R302). -/
def eventBytes (e : Event) (phase : Bool) (lost : Nat) : List Byte :=
  leBytes 2 e.type.toNat ++ [if phase then 1 else 0] ++ leBytes 1 (min lost 255) ++ leBytes 4 e.step.toNat ++
    leBytes 8 e.ticks.toNat ++ padTo 16 0 e.detail

/-- An event dropped because the ring is full or disabled (R302). -/
def dropEvent (s : State) : State :=
  { s with hlk := { s.hlk with eventLost := bump s.hlk.eventLost, evlostNow := s.hlk.evlostNow + 1 } }

/-- Write an event entry and send message 16, or drop the event (R302). -/
def writeEvent (s : State) (e : Event) : State :=
  let h := s.hlk
  if h.evenable && h.evused < ringEntries h.evsize.toNat then
    let t := h.evtail.toNat
    let wrap := t + 1 == ringEntries h.evsize.toNat
    let s1 := s.say (.hostWrite (h.evbase + BitVec.ofNat 64 (32 * t)) (eventBytes e h.evphase h.evlostNow))
    let s2 := s1.say (.interrupt 16)
    { s2 with hlk := { h with evtail := if wrap then 0 else h.evtail + 1, evphase := (if wrap then !h.evphase else h.evphase),
                              evused := h.evused + 1, evlostNow := 0 } }
  else dropEvent s

/-- Raise an event: written, dropped, or kept while the link is down, up to 256 (R293, R302). -/
def raiseEvent (s : State) (type : Nat) (detail : List Byte) : State :=
  let e : Event := { type := BitVec.ofNat 16 type, step := s.job.step, ticks := s.now, detail := detail }
  if s.hlk.up then writeEvent s e
  else if s.hlk.buffered.length < 256 then { s with hlk := { s.hlk with buffered := s.hlk.buffered ++ [e] } }
  else dropEvent s

/-! ## Fault codes (R342) and records (R344–R346) -/

def codeTileConflict : W16 := 0x0101
def codeChainSlip : W16 := 0x0102
def codeStreamStall : W16 := 0x0103
def codeSpadRange : W16 := 0x0104
def codeHbmRange : W16 := 0x0105
def codeTimeout : W16 := 0x0106
def codeFenced : W16 := 0x0107
def codePoison : W16 := 0x0201
def codeDivergence : W16 := 0x0302
def codeMislock : W16 := 0x0303
def codeSuspect : W16 := 0x0304
def codeLength : W16 := 0x0401
def codeLoadRefused : W16 := 0x0402
def codeControlParity : W16 := 0x0501
def codeStackFatal : W16 := 0x0502
def codeThermalTrip : W16 := 0x0503
def codeFirmware : W16 := 0x0504

/-- A queue entry as its 8 bytes (R32). -/
def entryNat (e : Entry) : Nat := e.token.toNat + e.base.toNat * 2 ^ 16 + e.length.toNat * 2 ^ 39

/-- The heads of the eight queues, AQ0–AQ3 then EQ0–EQ3; a zero entry for an empty queue (R344). -/
def queueHeads (c : Core) : List Entry :=
  (c.aq.toList ++ c.eq.toList).map fun q => q.headD { token := 0, base := 0, length := 0 }

/-- The code uses the list of missing members (R91, R252, R344): elsewhere it is an unused field and zero. -/
def Record.listsMissing (r : Record) : Bool := !r.missing.isEmpty || r.code == codeStreamStall

/-- The 128 bytes of a record (R344). -/
def Record.bytes (r : Record) : List Byte :=
  leBytes 2 r.code.toNat ++ [r.cause] ++ leBytes 1 r.source.toNat ++
    leBytes 1 (match r.core with | some c => c.val | none => 64) ++
    leBytes 1 (r.phys.toNat + 16 * (match r.core with | some c => c.val / 8 | none => 0)) ++ [r.secondary, 0] ++
    leBytes 4 r.step.toNat ++ leBytes 2 r.segment.toNat ++ leBytes 2 r.instr.toNat ++ [r.opcode, r.unit] ++
    leBytes 1 r.slot.toNat ++ [r.offset] ++ leBytes 4 r.cycle.toNat ++ leBytes 5 r.addr.toNat ++ [0] ++
    leBytes 2 r.chip.toNat ++ leBytes 2 r.other.toNat ++ leBytes 2 r.owner.toNat ++ leBytes 2 r.carried.toNat ++
    leBytes 1 r.slotState.toNat ++ [0] ++ leBytes 2 r.doneTok.toNat ++ leBytes 2 r.comm.toNat ++ leBytes 4 r.value.toNat ++
    (padTo 8 { token := 0, base := 0, length := 0 } r.heads).flatMap (fun e => leBytes 8 (entryNat e)) ++
    leBytes 2 r.missingN.toNat ++ (padTo 7 (if r.listsMissing then 0xFFFF#16 else 0) r.missing).flatMap (fun m => leBytes 2 m.toNat)

/-- A record of the log was written in this tick for a higher core than `r`'s, or for none: `r` goes before it (R346). -/
def Record.follows (now : W64) (r x : Record) : Bool :=
  let no (q : Record) : Nat := match q.core with | some c => c.val | none => 64
  x.tick == now && no r < no x

/-- Append a record to the fault log, a ring of 4,096, and raise event 0x01 (R346). -/
def logRecord (s : State) (r : Record) : State :=
  let f := s.flt
  let full := 4096 ≤ f.log.length
  let later := (f.log.reverse.takeWhile (Record.follows s.now r)).length
  let idx := (f.logWritten.toNat - later) % 2 ^ 32
  let log := (if full then f.log.tail else f.log)
  let s1 := { s with flt := { f with log := log.take (log.length - later) ++ [{ r with tick := s.now }] ++ log.drop (log.length - later), logWritten := bump f.logWritten,
                                      logOverwritten := if full then bump f.logOverwritten else f.logOverwritten } }
  raiseEvent s1 0x01 (leBytes 2 r.code.toNat ++ [r.cause] ++ leBytes 1 (match r.core with | some c => c.val | none => 64) ++
    leBytes 4 r.step.toNat ++ leBytes 2 r.segment.toNat ++ leBytes 2 r.instr.toNat ++ leBytes 4 idx)

/-! ## Byte stores in canonical form (MEMORY; R25, R171) -/

/-- The canonical form: addresses strictly rising, no listed byte 0. -/
def cellsWf : List Host.Cell → Bool
  | [] => true
  | (a, b) :: t => b != 0 && (match t with | [] => true | (a', _) :: _ => decide (a < a')) && cellsWf t

/-- The byte at a key; an unlisted key reads 0 (log entry 5). -/
def cellsGet (a : Nat) : List Host.Cell → Byte
  | [] => 0
  | (a', b) :: t => if a = a' then b else cellsGet a t

/-- Write one byte, keeping the canonical form. -/
def cellsPut (a : Nat) (b : Byte) : List Host.Cell → List Host.Cell
  | [] => if b = 0 then [] else [(a, b)]
  | (a', b') :: t =>
    if a < a' then (if b = 0 then (a', b') :: t else (a, b) :: (a', b') :: t)
    else if a = a' then (if b = 0 then t else (a, b) :: t)
    else (a', b') :: cellsPut a b t

/-- Write successive bytes from a key. -/
def cellsWrite (a : Nat) : List Byte → List Host.Cell → List Host.Cell
  | [], m => m
  | b :: bs, m => cellsWrite (a + 1) bs (cellsPut a b m)

/-- Read `n` successive bytes. -/
def cellsRead (a n : Nat) (m : List Host.Cell) : List Byte := (List.range n).map fun i => cellsGet (a + i) m

/-- A rising list of numbers without repeats: membership, insertion, removal. -/
def setPut (a : Nat) : List Nat → List Nat
  | [] => [a]
  | b :: t => if a < b then a :: b :: t else if a = b then b :: t else b :: setPut a t

def setDel (a : Nat) (l : List Nat) : List Nat := l.filter (· ≠ a)

/-- Set or clear the membership of `a`. -/
def setTo (a : Nat) (p : Bool) (l : List Nat) : List Nat := if p then setPut a l else setDel a l

/-- The lines that bytes [a, a + n) touch. -/
def linesOf (a n : Nat) : List Nat := if n = 0 then [] else (List.range ((a + n - 1) / 64 - a / 64 + 1)).map (· + a / 64)

/-! ## Scratchpad (R25–R28) -/

/-- First scratchpad address closed to programs (R25). -/
def spadLimit : Nat := 0x5F0000

/-- On a part without channel engines the update segments' range is closed too (R167). -/
def spadOpen (s : State) : Nat := if s.glb.variant == .s64 then 0x570000 else spadLimit

def spadRead (c : Core) (a n : Nat) : List Byte := cellsRead a n c.spad

def spadPoisoned (c : Core) (a n : Nat) : Bool := (linesOf a n).any (c.spadPoison.contains ·)

/-- Write bytes and store the writer's poison bit in every line touched (R28). A clean write of part of a poisoned line
leaves it poisoned; a full-line write clears it (R349). -/
def spadWrite (c : Core) (a : Nat) (bs : List Byte) (p : Bool) : Core :=
  { c with spad := cellsWrite a bs c.spad,
           spadPoison := (linesOf a bs.length).foldl (fun l ln =>
             if p then setPut ln l else if a ≤ 64 * ln && 64 * ln + 64 ≤ a + bs.length then setDel ln l else l) c.spadPoison }

/-! ## Regions and addresses (R141, R171–R176) -/

/-- Stacks of the variant (R2). -/
def stacksOf (v : Variant) : Nat := match v with | .m48 => 8 | _ => 12

def gib : Nat := 2 ^ 30

/-- Installed GiB (R176): 48 a stack, less 3 for each channel mapped out. -/
def installedGib (s : State) : Nat := 48 * stacksOf s.glb.variant - 3 * s.glb.mappedOut.toNat

def installed (s : State) : Nat := gib * installedGib s

/-- The dump region is the top 256 MiB, a quarter of a GiB (R176). -/
def dumpBase (s : State) : Nat := 2 ^ 28 * (4 * installedGib s - 1)

/-- Job capacity: less the dump region and the 512 MiB of firmware and service (R176). -/
def jobCap (s : State) : Nat := 2 ^ 28 * (4 * installedGib s - 3)

/-- The region that holds an address, and whether it is reached through alias W. -/
def regionOf (rs : List Region) (a : Nat) : Option (Region × Bool) :=
  match rs with
  | [] => none
  | r :: t =>
    if r.base ≤ a && a < r.base + r.size then some (r, false)
    else if r.sided && r.wbase ≤ a && a < r.wbase + r.size then some (r, true)
    else regionOf t a

/-- The regions and aliases that bytes [a, a + n) pass through; none when some byte lies outside every region. -/
def regionWalk (rs : List Region) : Nat → Nat → Nat → Option (List (Region × Bool))
  | 0, _, n => if n = 0 then some [] else none
  | fuel + 1, a, n =>
    if n = 0 then some []
    else match regionOf rs a with
      | none => none
      | some (r, w) =>
        let left := (if w then r.wbase else r.base) + r.size - a
        (regionWalk rs fuel (a + left) (n - left)).map ((r, w) :: ·)

/-- A read-only field of a group's control block (R148): done, pass1 and the partials. -/
def controlReadOnly (s : State) (a n : Nat) : Bool :=
  s.upd.groups.any fun g =>
    (a < g.lbase + 4 && g.lbase < a + n) || (a < g.lbase + 24 && g.lbase + 8 < a + n)

/-- The checks of R74 on bytes [a, a + n) in its order; `align` is the alignment check's outcome. The cause of the first
that fails (R204). -/
def hbmCause (s : State) (a n : Nat) (write align : Bool) : Option Nat :=
  if installed s < a + n then some 0x10
  else if dumpBase s < a + n then some 0x12
  else match regionWalk s.mem.regions (2 * s.mem.regions.length + 1) a n with
    | none => some 0x11
    | some rs =>
      if write && (rs.any (·.1.ro) || controlReadOnly s a n) then some 0x13
      else if write && rs.any (fun r => r.1.sided && !r.2) then some 0x14
      else if !align then some 0x15
      else none

/-- The side an alias reaches (R141, R143), with the sides of a replay (R165). -/
def sideOf (s : State) (viaW : Bool) : Bool :=
  let r := if s.job.replay.isSome then s.job.replaySide else s.mem.side
  if viaW then !r else r

/-- The physical key of a local address: side 1 of a sided region lies 2^40 above side 0 (R141). -/
def keyOf (s : State) (a : Nat) : Nat :=
  match regionOf s.mem.regions a with
  | some (r, w) =>
    if r.sided then r.base + (a - if w then r.wbase else r.base) + (if sideOf s w then 2 ^ 40 else 0) else a
  | none => a

/-- An address is reached through alias W of a sided region. -/
def viaAliasW (s : State) (a : Nat) : Bool := match regionOf s.mem.regions a with | some (r, w) => r.sided && w | none => false

/-! ## Windows and placement of groups (R147, R148, R173, R174) -/

def Group.windows (g : Group) : Nat := (g.elements + 16383) / 16384

def roundUp (n k : Nat) : Nat := (n + k - 1) / k * k

/-- The pitch of a group's window images (R147). -/
def Group.pitch (g : Group) : Nat :=
  roundUp (32768 + (if g.wfmt = 9 then 256 else 0) + (if g.mom then 16896 else 0) + (if g.rule = 2 then 16896 else 0)) 4096

/-- H of R148. -/
def Group.headBytes (g : Group) : Nat := roundUp (32 + 544 * g.windows) 4096

/-- P of R148. -/
def Group.gradPitch (g : Group) : Nat := if g.held then 131072 else 65536

/-- Elements of window k. -/
def Group.winElems (g : Group) (k : Nat) : Nat := min 16384 (g.elements - 16384 * k)

def Group.landBytes (g : Group) : Nat := g.headBytes + g.windows * g.gradPitch

/-- The live channels in ascending order of n (R172). -/
def liveChannels (s : State) : List (Nat × Nat) :=
  (List.range 16).flatMap fun c => (List.range (stacksOf s.glb.variant)).filterMap fun k =>
    if h : k < 12 then (if h2 : c < 16 then (if (s.mem.hbmStacks[(⟨k, h⟩ : Fin 12)].chans[(⟨c, h2⟩ : Fin 16)]).live then some (k, c) else none) else none) else none

/-- A slice extent of a stack-local region (R173): start in the region, slices, slice size, first channel, sub-band offset in the band. -/
structure Extent where
  start : Nat
  slices : Nat
  pitch : Nat
  chan0 : Nat
  sub : Nat
deriving DecidableEq, Repr

/-- The height of an extent's sub-band in every channel (R173). -/
def Extent.height (e : Extent) : Nat := (e.slices + 15) / 16 * e.pitch

/-- The extents of a group in a region (R174): state images in the sided region; headers, arrays and the control block in the landing's. -/
def Group.extents (g : Group) (r : Region) : List Extent :=
  let ext (start slices pitch k : Nat) : Extent := { start := start, slices := slices, pitch := pitch, chan0 := g.chan0, sub := Config.subBand g.idx k }
  if !r.stackLocal || r.stack.val ≠ g.stack then []
  else if r.sided then [ext g.soff g.windows g.pitch 0]
  else if r.base ≤ g.lbase && g.lbase < r.base + r.size then
    let l := g.lbase - r.base
    [ext l 1 32 3, ext (l + 32) g.windows 544 1, ext (l + g.headBytes) g.windows g.gradPitch 2]
  else []

/-- Channel and offset in the band of an offset in a stack-local region (R173): its extent's slice, else 4 KiB granules in turn. -/
def sliceSpot (s : State) (r : Region) (o : Nat) : Nat × Nat :=
  match (s.upd.groups.flatMap (·.extents r)).find? fun e => e.start ≤ o && o < e.start + e.slices * e.pitch with
  | some e =>
    let k := (o - e.start) / e.pitch
    ((e.chan0 + k) % 16, e.sub + k / 16 * e.pitch + (o - e.start) % e.pitch)
  | none => (o / 4096 % 16, o / 4096 / 16 * 4096 + o % 4096)

/-- Stack, channel and in-channel offset of an offset in an interleaved region of granule base g0 (R172). -/
def granuleSpot (s : State) (g0 o : Nat) : (Nat × Nat) × Nat :=
  let live := liveChannels s
  let g := o / 4096 + g0
  (live.getD (g % live.length) (0, 0), g / live.length * 4096 + o % 4096)

/-- Stack and channel of a local address, and the offset c in the channel (R172, R173, R176). -/
def spotOf (s : State) (a : Nat) : (Nat × Nat) × Nat :=
  match regionOf s.mem.regions a with
  | some (r, w) =>
    let o := a - if w then r.wbase else r.base
    if r.stackLocal then
      let p := sliceSpot s r o
      ((r.stack.val, p.1), (if r.sided && sideOf s w then r.bands.2 else r.bands.1) + p.2)
    else granuleSpot s r.g0 o
  | none =>
    let C := (liveChannels s).length
    if dumpBase s ≤ a then granuleSpot s (C * Config.granuleBase 64) (a - dumpBase s)
    else granuleSpot s (C * Config.granuleBase 65) (a - jobCap s)

def placeOf (s : State) (a : Nat) : Nat × Nat := (spotOf s a).1

def stackIx (n : Nat) : Fin 12 := Fin.ofNat 12 n

/-- A cell of a channel (R169, R170): pseudo-channel, stack identifier, bank group, bank, row, line in the row, byte in the line. -/
structure DramCell where
  pc : Nat
  sid : Nat
  group : Nat
  bank : Nat
  row : Nat
  line : Nat
  byte : Nat
deriving DecidableEq, Repr

/-- The cell that offset c of a channel selects (R170). -/
def cellOf (c : Nat) : DramCell :=
  { pc := bitsOf c 6 1, sid := bitsOf c 15 2, group := (bitsOf c 13 2).xor (bitsOf c 17 2), bank := (bitsOf c 11 2).xor (bitsOf c 19 2),
    row := bitsOf c 17 15, line := bitsOf c 7 4, byte := bitsOf c 0 6 }

/-- The bank's number among the 128 of a channel (R169). -/
def DramCell.bankNo (x : DramCell) : Fin 128 := Fin.ofNat 128 (64 * x.pc + 16 * x.sid + 4 * x.group + x.bank)

/-- The controller of an address: two per stack, eight channels each (R177). -/
def ctrlOf (s : State) (a : Nat) : Fin 24 :=
  let p := placeOf s a
  Fin.ofNat 24 (2 * p.1 + p.2 / 8)

/-! ## Lines, poison, fingerprints (R177–R179, R191–R192, R349–R350, R366) -/

/-- Poison of a line as every reader sees it: the DRAM line's, or its write-combining entry's (R177, R178). -/
def linePoison (s : State) (line : Nat) : Bool :=
  s.mem.poison.contains line || s.mem.wcb.toList.any (·.any fun e => e.line == line && e.poison)

def readHbm (s : State) (a n : Nat) : List Byte := (List.range n).map fun i => cellsGet (keyOf s (a + i)) s.mem.cells

def hbmPoisoned (s : State) (a n : Nat) : Bool := (linesOf a n).any fun l => linePoison s (keyOf s (64 * l) / 64)

def readLe (s : State) (a n : Nat) : Nat := leNat (readHbm s a n)
def read32 (s : State) (a : Nat) : W32 := BitVec.ofNat 32 (readLe s a 4)

/-- The poison flag and a POISON_CONSUMED record for the first consumption of a step (R350). -/
def consume (s : State) (cause : Nat) (core : Option CoreId) (a : Nat) : State :=
  let s1 := { s with flt := { s.flt with consumptions := bump s.flt.consumptions },
                     job := { s.job with poison := true, consumedNow := true } }
  if s.job.consumedNow then s1
  else logRecord s1 { Record.blank with code := codePoison, cause := BitVec.ofNat 8 cause, source := 4, core := core,
                                        step := s.job.step, addr := BitVec.ofNat 40 a }

/-- The fingerprint unit of an address reached through alias W, and its offset in the sided region (R366). -/
def fingerUnit (s : State) (r : Region) (o : Nat) : Nat :=
  match s.upd.groups.find? fun g => g.stack == r.stack.val && g.soff ≤ o && o < g.soff + g.windows * g.pitch with
  | some g => g.idx.toNat
  | none => 4096 + r.stack.val

/-- Add one line of a write request to its unit (R366). -/
def addFinger (fs : List Finger) (unit : Nat) (h : W64) : List Finger :=
  if fs.any (·.unit == unit) then fs.map fun f => if f.unit == unit then { f with f := f.f + h, n := f.n + 1 } else f
  else fs ++ [{ unit := unit, f := h, n := 1 }]

/-- h of R366 for the part `bs` of a line at byte `off` of it, the line `o` bytes into its sided region. -/
def fingerHash (o off : Nat) (bs : List Byte) : W64 :=
  crc64 (leBytes 8 o ++ leBytes 8 ((2 ^ bs.length - 1) * 2 ^ off) ++ padTo 64 0 (List.replicate off 0 ++ bs))

/-- The alias W address of a stored line. -/
def aliasW (s : State) (line : Nat) : Nat :=
  let a := 64 * (line % 2 ^ 34)
  match s.mem.regions.find? fun r => r.sided && r.base ≤ a && a < r.base + r.size with
  | some r => r.wbase + (a - r.base)
  | none => a

/-- Store a line poisoned or clean; through alias W a poisoned line is a consumption (R350). -/
def settleLine (s : State) (line : Nat) (p viaW : Bool) : State :=
  let s1 := { s with mem := { s.mem with poison := setTo line p s.mem.poison } }
  if p && viaW then consume s1 0 none (aliasW s line) else s1

/-! ### Classes of a read line (R191, R192) -/

def updChan (s : State) (p : Nat × Nat) (f : Chan → Chan) : State :=
  { s with mem := { s.mem with hbmStacks := vmod s.mem.hbmStacks (stackIx p.1) fun k =>
      { k with chans := vmod k.chans (Fin.ofNat 16 p.2) f } } }

/-- A corrected line is counted per channel and for all channels (R192, R436, R438). -/
def countCorrected (s : State) (a : Nat) : State :=
  let s1 := updChan s (placeOf s a) fun c => { c with corrected := bump c.corrected }
  { s1 with mem := { s1.mem with corrected := bump s1.mem.corrected } }

/-- An uncorrectable line is counted and logged with its stack, channel and address (R192, R193, R360). -/
def countUncorrectable (s : State) (a : Nat) : State :=
  let p := placeOf s a
  let s1 := updChan s p fun c => { c with uncorrectable := bump c.uncorrectable }
  { s1 with mem := { s1.mem with uncorrectable := bump s1.mem.uncorrectable, errorLog := s1.mem.errorLog ++ [(p.1, p.2, a)],
                                  fwUncorrectable := s1.mem.fwUncorrectable || (jobCap s ≤ a && a < dumpBase s) } }

/-- The DRAM line is rewritten poisoned. -/
def poisonLine (s : State) (line : Nat) : State := { s with mem := { s.mem with poison := setPut line s.mem.poison } }

/-- The class of a stored line read with `errs` symbols in error: some true uncorrectable, some false corrected, none clean or poisoned;
a poisoned line within two symbols counts as poisoned, not as corrected (R191, R192). -/
def readClass (s : State) (line errs : Nat) : Option Bool :=
  if 2 < errs then some true else if errs = 0 || s.mem.poison.contains line then none else some false

/-- The counts and the rewrite that a read of a line brings (R192); a line written since the read is not rewritten (R193). -/
def classRead (s : State) (base line errs : Nat) (rewrite : Bool) : State :=
  match readClass s line errs with
  | none => s
  | some false => countCorrected s base
  | some true => if rewrite then poisonLine (countUncorrectable s base) line else countUncorrectable s base

/-! ### The write-combining buffer -/

/-- An entry leaves the buffer by read-modify-write: a poisoned DRAM line stays poisoned (R178). -/
def wcbWriteback (s : State) (k : Fin 24) (e : Wcb) : State :=
  let s1 := { s with mem := { s.mem with wcb := vmod s.mem.wcb k (·.filter (·.line != e.line)) } }
  settleLine s1 e.line (e.poison || s.mem.poison.contains e.line) e.viaW

/-- The read of a read-modify-write: how many symbols of the DRAM line it finds in error is free (R178, R192; log entry 104). -/
def wcbModify (s : State) (k : Fin 24) (e : Wcb) : State :=
  let f := s.draw
  wcbWriteback (classRead f.2 (64 * (e.line % 2 ^ 34)) e.line (f.1.toNat % 73) true) k e

/-- A partial write merges into its line's entry, or takes a new one, evicting the least recently written of 256
(R177); an entry with every byte written leaves as a full line (R178). -/
def wcbMerge (s : State) (k : Fin 24) (line off len : Nat) (p viaW : Bool) : State :=
  let mask : W64 := BitVec.ofNat 64 ((2 ^ len - 1) * 2 ^ off)
  match s.mem.wcb[k].find? (·.line == line) with
  | some e =>
    let e1 := { e with enables := e.enables ||| mask, poison := e.poison || p, viaW := e.viaW || viaW }
    let rest := s.mem.wcb[k].filter (·.line != line)
    if e1.enables = BitVec.allOnes 64 then
      settleLine { s with mem := { s.mem with wcb := s.mem.wcb.set k rest } } line e1.poison e1.viaW
    else { s with mem := { s.mem with wcb := s.mem.wcb.set k (rest ++ [e1]) } }
  | none =>
    let s1 := if 256 ≤ s.mem.wcb[k].length then (match s.mem.wcb[k].head? with | some e => wcbModify s k e | none => s) else s
    { s1 with mem := { s1.mem with wcb := vmod s1.mem.wcb k (· ++ [{ line := line, enables := mask, poison := p, viaW := viaW }]) } }

/-- Bytes stored into one line (R177): data is visible at once; the fingerprint counts the request's part of the line. -/
def storeLine (s : State) (a : Nat) (bs : List Byte) (p : Bool) : State :=
  let key := keyOf s a
  let line := key / 64
  let off := a % 64
  let k := ctrlOf s a
  let reg := regionOf s.mem.regions a
  let viaW := match reg with | some (r, w) => r.sided && w | none => false
  let s1 := match reg with
    | some (r, true) =>
      if r.sided then
        let o := a - r.wbase
        { s with upd := { s.upd with fingers := addFinger s.upd.fingers (fingerUnit s r o) (fingerHash (o - off) off bs) } }
      else s
    | _ => s
  if s.job.replay.isSome && viaW then s1   -- a replay's writes are fingerprinted, then discarded (R165)
  else
    let s2 := { s1 with mem := { s1.mem with cells := cellsWrite key bs s1.mem.cells } }
    if bs.length = 64 then
      settleLine { s2 with mem := { s2.mem with wcb := vmod s2.mem.wcb k (·.filter (·.line != line)) } } line p viaW
    else wcbMerge s2 k line off bs.length p viaW

/-- Store successive bytes, line by line in ascending address order (R179). -/
def storeLines : Nat → State → Nat → List Byte → Bool → State
  | 0, s, _, _, _ => s
  | fuel + 1, s, a, bs, p =>
    if bs.isEmpty then s
    else
      let n := 64 - a % 64
      storeLines fuel (storeLine s a (bs.take n) p) (a + n) (bs.drop n) p

/-- The one write of HBM by any requester (R53, R177). -/
def storeHbm (s : State) (a : Nat) (bs : List Byte) (p : Bool) : State := storeLines (bs.length / 64 + 2) s a bs p

/-! ## Stopping: segments, the step, the job (R39, R77, R221, R347, R359) -/

/-- Stop both streams of a core without a record (R221, R347, R359): status 3, nothing more issues. -/
def Core.stop (c : Core) : Core :=
  { c with status := if c.running.isSome then 3 else c.status, running := none, updating := none,
           access := { c.access with waiting := [], stopped := true },
           exec := { c.exec with waiting := [], windows := [], trains := [], beats := [], due := [], stopped := true }, taccs := [],
           halves := Vector.replicate 2 Half.reset }

/-- The pieces of output of the execute instructions that still write at a cycle or after it (R39). -/
def Core.openWrites (c : Core) (cycle : Nat) : List Undo :=
  (c.exec.windows.filter fun w => w.writes.any fun u => cycle ≤ u.cycle).flatMap (·.writes)

/-- `n` free bytes, from the count `k` of values drawn. -/
def freeBytes (k n : Nat) : List Byte := (List.range n).map fun i => (Config.freeValue (k + i)).setWidth 8

/-- Raise an event whose detail the manual does not give: it is free (R302, log entry 13). -/
def raiseOpen (s : State) (type : Nat) : State := raiseEvent { s with free := s.free + 16 } type (freeBytes s.free 16)

/-- Raise an event that carries a code in detail bytes 16–17 (R342); the rest of its detail is free. -/
def raiseCode (s : State) (type : Nat) (code : W16) : State :=
  raiseEvent { s with free := s.free + 14 } type (leBytes 2 code.toNat ++ freeBytes s.free 14)

/-- A piece that was never written holds what stood there before. -/
def Core.putBack (c : Core) (u : Undo) : Core :=
  { c with spad := cellsWrite u.addr (u.old.map (·.1)) c.spad,
           spadPoison := (linesOf u.addr u.old.length).foldl (fun l ln => setTo ln ((u.old.getD (64 * ln - u.addr) (0, false)).2) l) c.spadPoison }

/-- A piece already written is left undefined: free values, every line of it poisoned (R39). -/
def Core.undefine (c : Core) (u : Undo) (k : Nat) : Core :=
  { c with spad := cellsWrite u.addr (freeBytes k u.old.length) c.spad,
           spadPoison := (linesOf u.addr u.old.length).foldl (fun l ln => setPut ln l) c.spadPoison }

/-- A slot that a product was still filling at a cycle: undefined and poisoned (R39). -/
def Slot.undefine (v : Slot) (cycle k : Nat) : Slot :=
  if cycle < v.readyAt then { v with acc := v.acc.zipIdx.map fun e => Config.freeValue (k + e.2), poison := true } else v

def Engine.undefine (e : Engine) (cycle k : Nat) : Engine :=
  { e with slots := e.slots.zipIdx.map fun x => x.1.undefine cycle (k + 65536 * x.2) }

/-- What the execute instructions in flight at a cycle have written by then is undefined and poisoned, what they had still to
write stays as it was; a slot still being filled is undefined (R39). -/
def cutOutput (s : State) (c : CoreId) (cycle : Nat) : State :=
  let k := s.core c
  let us := k.openWrites cycle
  let k0 := ((us.filter fun u => cycle < u.cycle).reverse).foldl Core.putBack k
  let x := (us.filter fun u => u.cycle ≤ cycle).foldl (fun (t : Core × Nat) u => (t.1.undefine u t.2, t.2 + u.old.length)) (k0, s.free)
  { s.updCore c (fun _ => { x.1 with engines := x.1.engines.mapFinIdx fun i e _ => e.undefine cycle (x.2 + 2097152 * i) }) with
    free := x.2 + 6291456 }

/-- A running core stops at a cycle (R39). -/
def haltCore (s : State) (c : CoreId) (cycle : Nat) : State :=
  (if (s.core c).running.isSome then cutOutput s c cycle else s).updCore c Core.stop

/-- Stop every core, and abandon the tree operations in progress (R347). -/
def stopCores (s : State) : State :=
  let s1 := (List.finRange 64).foldl (fun t c => haltCore t c (t.core c).exec.cycle) s
  { s1 with clusters := s1.clusters.map fun k => { k with trees := [] } }

/-- The step abort (R347): every segment stops, queued passes are dropped, no segment starts, the poison flag is set.
The entry into the commit cinch follows as COMMIT_CINCH_ENTRY. -/
def abortStep (s : State) : State :=
  let s1 := stopCores s
  { s1 with upd := { s1.upd with queue := [] },
            job := { s1.job with abort := true, aborting := true, poison := true, dispatching := false } }

/-- The job is over on this module: RUNNING becomes STOPPED (R307). -/
def stopJob (s : State) : State :=
  { s with hlk := { s.hlk with state := if s.hlk.state == .running || s.hlk.state == .loaded then .stopped else s.hlk.state },
           job := { s.job with dispatching := false } }

/-- A second fault of a segment is only counted (R77). -/
def Core.countSecondary (c : Core) : Core :=
  { c with secondary := bump c.secondary, secondaryNow := satByte c.secondaryNow,
           faultSlot := if c.faultDue.isNone then { c.faultSlot with secondary := satByte c.secondaryNow } else c.faultSlot }

/-! ## Core records and faults (R39, R77, R343, R346, R441) -/

/-- The core's segment was ended by an abort or a quiesce before it faulted itself: it leaves no record of its own (R221, R347). -/
def abortedCleanly (s : State) (c : CoreId) : Bool := (s.job.aborting || s.job.quiescing) && !(s.core c).faulted

/-- The record of a segment's first fault is written at an execute cycle, the segment stops, and the step aborts unless it is
aborting or the module quiesces already (R77, R346, R347, R441). -/
def recordFault (s : State) (c : CoreId) (cycle : Nat) (r : Record) : State :=
  let k := s.core c
  let r1 := { r with heads := queueHeads k, secondary := k.secondaryNow }
  let s1 := haltCore s c cycle
  let s2 := s1.updCore c fun k => { k with faulted := true, faultDue := none, faultValid := true, faultSlot := r1, status := 3 }
  let s3 := logRecord s2 r1
  if s.job.aborting || s.job.quiescing then s3 else abortStep s3

/-- A record with the core, the step and the segment it is of (R344). -/
def Record.placed (r : Record) (s : State) (c : CoreId) : Record :=
  { r with core := some c, phys := (s.core c).phys, step := s.job.step, segment := (s.core c).segment }

/-- A fault on a core at an execute cycle: the first of the segment is recorded and aborts the step, later ones are counted, and
stop the execute stream (R39, R77). -/
def streamFaultAt (s : State) (c : CoreId) (cycle : Nat) (r : Record) : State :=
  if abortedCleanly s c then s
  else if (s.core c).faulted then
    (if r.source = 1 && (s.core c).running.isSome && !(s.core c).exec.stopped then
       (cutOutput s c cycle).updCore c fun k => { k with exec := { k.exec with waiting := [], windows := [], trains := [], due := [], stopped := true } }
     else s).updCore c Core.countSecondary
  else recordFault (s.updCore c fun k => { k with secondaryNow := 0 }) c cycle (r.placed s c)

/-- A fault that is not an execute instruction's reaches the execute stream in its current cycle (R77). -/
def streamFault (s : State) (c : CoreId) (r : Record) : State := streamFaultAt s c (s.core c).exec.cycle r

/-- The record of an access fault is written once every earlier instruction in flight has had its outcome (R77). -/
def settleFault (s : State) (c : CoreId) : State :=
  match (s.core c).faultDue with
  | some (seq, r) =>
    if (s.core c).access.flights.all fun f => seq ≤ f.seq then recordFault s c (s.core c).exec.cycle r else s
  | none => s

/-- The access instruction with a sequence number faults (R77): nothing more issues, done pushes still to be made are dropped, and
its record waits for the earlier instructions in flight. -/
def accessFaultAt (s : State) (c : CoreId) (seq : Nat) (r : Record) : State :=
  if abortedCleanly s c then s
  else if (s.core c).faulted then settleFault (s.updCore c Core.countSecondary) c
  else settleFault (s.updCore c fun k => { k with
    faulted := true, secondaryNow := 0, faultDue := some (seq, r.placed s c),
    access := { k.access with waiting := [], stopped := true, flights := k.access.flights.filter fun f => !f.done } }) c

/-! ## Events of one reference tick (R75, R217)

A tick passes only while no command waits (log entry 1): the commands waiting behind an event fall in its tick. -/

/-- The completion of a live attempt comes in this tick (R217). -/
def completesNow (s : State) (n : BitVec 15) (attempt : BitVec 3) : Bool :=
  s.pending.any fun c => match c with | .getdata p | .ack p => p.tag == n && p.attempt == attempt && p.intact | _ => false

/-- A fence notice for a live attempt comes in this tick (R217). -/
def fencedNow (s : State) (n : BitVec 15) (attempt : BitVec 3) : Bool :=
  s.pending.any fun c => match c with | .fenceNotice p => p.tag == n && p.attempt == attempt && p.intact | _ => false

/-- A completion of the packet, and no retry notice, comes in this tick (R217). -/
def endsNow (s : State) (n : BitVec 15) (attempt : BitVec 3) : Bool :=
  s.pending.any fun c => match c with | .getdata p | .ack p => p.tag == n && p.attempt == attempt && p.intact && p.status ≠ 1 | _ => false

/-- A packet is resent when its timer expires (R219). -/
def Tag.resendable (t : Tag) : Bool :=
  (t.p.type == 0x01 || t.p.type == 0x02 || t.p.type == 0x10) && t.used.toNat < t.retries.toNat

/-- Before a budget's expiry in the same tick come the completion of an instruction's last packet and a final TIMEOUT (R75). -/
def outcomeNow (s : State) (c : CoreId) (seq : Nat) : Bool :=
  let ts := s.fab.tags.filter fun t => t.issuer == .access c seq
  let last := !ts.isEmpty && !s.fab.sendQ.any (fun q => q.issuer == .access c seq) && ts.all fun t => endsNow s t.tag t.p.attempt
  let final := ts.any fun t => !t.resendable && t.sent && !t.noticed && s.pending.any fun d => match d with | .txnTimeout n _ => n == t.tag | _ => false
  let coll := s.coll.runs.any fun r => r.core == c && r.seq == seq && s.pending.any fun d => match d with | .collComplete i => i == r.id | _ => false
  last || final || coll

/-! ## The fatal path (R359, R360) -/

/-- HBM is suspect (R360). -/
def hbmSuspect (s : State) (code : W16) (memCtrl : Bool) : Bool :=
  code == codeStackFatal || code == codeThermalTrip || (code == codeControlParity && memCtrl) || s.mem.fwUncorrectable

/-- Where the dump goes: 0 HBM, 1 host, 2 management memory (R360, R376). -/
def dumpDestOf (s : State) (code : W16) (memCtrl : Bool) : BitVec 2 :=
  if s.flt.seqRefused then 2
  else if !hbmSuspect s code memCtrl then 0
  else if 256 ≤ s.flt.dumpHostSize.toNat && s.hlk.up then 1 else 2

/-- Mark a descriptor in progress with its status (R299). -/
def Inflight.finish (d : Inflight) (status : W16) (a : BitVec 48) (b : W64) (code : W16) : Inflight :=
  { d with status := some status, detailA := a, detailB := b, code := code, acted := true }

/-- Give a descriptor in progress its status (R299). -/
def finishDesc (s : State) (ring : RingId) (idx : W16) (status : W16) (a : BitVec 48) (b : W64) (code : W16) : State :=
  let act (d : Inflight) : Inflight := if d.idx == idx && d.status.isNone then d.finish status a b code else d
  { s with hlk := { s.hlk with rings := vmod s.hlk.rings ring fun r => { r with inflight := r.inflight.map act } } }

def isOpcode (d : Inflight) (op : Nat) : Bool := (byteAt d.bytes 0).toNat == op

/-- A START or STEP REPLAY whose action has begun and which a teardown or a wedge ends (R307, log entry 22). -/
def Inflight.ended (d : Inflight) : Inflight :=
  if d.status.isNone && d.acted && (isOpcode d 0x42 || isOpcode d 0x20) then d.finish 0x0004 0 0 0 else d

def Ring.endActed (r : Ring) : Ring := { r with inflight := r.inflight.map Inflight.ended }

/-- A DISCOVER or LOAD in progress is given status STATE (R307). -/
def Ring.endAdmin (r : Ring) : Ring :=
  { r with inflight := r.inflight.map fun d =>
      if d.status.isNone && (isOpcode d 0x40 || isOpcode d 0x41) then d.finish 0x0004 0 0 0 else d }

def endAdmin (s : State) : State :=
  { s with hlk := { s.hlk with rings := s.hlk.rings.map Ring.endAdmin },
           disc := { s.disc with running := false, owner := none },
           boot := { s.boot with stage := if s.boot.stage = 0xC0 then 0xB0 else s.boot.stage } }

/-- A write of the part's own during a step, with its unit as the source: through an alias R it writes no byte and leaves an HBM_RANGE
record with cause side (R142; log entry 100). -/
def storePart (s : State) (source a : Nat) (bs : List Byte) (p : Bool) : State :=
  let sided (x : Nat) : Bool := match regionOf s.mem.regions x with | some (r, w) => r.sided && !w | none => false
  if sided a || sided (a + bs.length - 1) then
    logRecord s { Record.blank with code := codeHbmRange, cause := 0x14, source := BitVec.ofNat 3 source, step := s.job.step, addr := BitVec.ofNat 40 a }
  else storeHbm s a bs p

/-- Step 1 of the fatal path (R359): everything stops, leases are reclaimed, every cinch is left. -/
def fatalStop (s : State) : State :=
  let s0 := stopCores s
  let s1 : State := { s0 with cores := s0.cores.map fun (k : Core) => { k with sliceOn := false, status := if k.sliceOn then 3 else k.status, faultDue := none } }
  let s2 := s1.upd.leases.foldl (fun t l => t.say (.xreclaim l.stack l.chan l.id)) s1
  { s2 with upd := { s2.upd with leases := [], queue := [] }, mem := { s2.mem with waiting := [] }, coll := { s2.coll with cinches := [], owed := [] },
            job := { s2.job with dispatching := false, quiescing := true } }

/-- Bytes 0–63 of the header of the dump that a fatal error begins (R362). -/
def dumpHeadOf (s : State) (code : W16) (cause : Byte) (dest : BitVec 2) : List Byte :=
  leBytes 4 0x504D5544 ++ leBytes 2 1 ++ leBytes 1 dest.toNat ++ leBytes 1 (s.sec.conf.toNat + 2) ++ leBytes 2 code.toNat ++ [cause, 0] ++
    leBytes 4 s.job.step.toNat ++ leBytes 8 s.now.toNat ++ leBytes 8 s.glb.moduleId.toNat ++ leBytes 2 s.fab.chip.toNat ++ List.replicate 6 0 ++
    leBytes 8 s.disc.tagReg.toNat ++ leBytes 4 s.flt.log.length ++ leBytes 4 (s.flt.logWritten.toNat - 1) ++ leBytes 8 s.flt.dumpSeq.toNat

/-- Steps 1 and 2 of the fatal path, and the dump begun (R359). A second fatal error before STOPPED is only counted. -/
def fatal (s : State) (code : W16) (cause : Byte) (memCtrl : Bool) : State :=
  if s.flt.dumping then { s with flt := { s.flt with fatalDropped := bump s.flt.fatalDropped } }
  else
    let s4 := logRecord (fatalStop s) { Record.blank with code := code, cause := cause, source := 5, step := s.job.step }
    let s5 := endAdmin s4
    let dest := dumpDestOf s code memCtrl
    let s6 : State := { s5 with flt := { s5.flt with
      dumping := true, dumpDest := dest, dumpCode := code, dumpCause := cause, dumpTick := s.now, dumpSeq := bump s5.flt.dumpSeq,
      dumpLog := s5.flt.log } }
    { s6 with flt := { s6.flt with dumpHead := dumpHeadOf s6 code cause dest } }

end Sys2Proof.Machine
end

