-- ==== Sys2Proof/Machine/Operands.lean ====
section
/-! DEFINITION. Operand forms: descriptor registers and their extents (R56–R59), rows and elements of every format
(R57, R102–R104), the 5-bit operand fields of the execute stream (R81), bytes with their poison (R28, R76). -/

namespace Sys2Proof.Machine

/-! ## Descriptors (R56–R59) -/

/-- Bits per element of a format code (R57); 0 for a code that no operand has. -/
def eltBits (fmt : BitVec 4) : Nat :=
  match fmt.toNat with
  | 0x0 | 0xB => 32
  | 0x1 | 0x2 | 0x9 => 16
  | 0x3 | 0x4 | 0x5 | 0x8 | 0xA => 8
  | 0x6 => 6
  | 0x7 => 4
  | _ => 0

def Desc.n0 (d : Desc) : Nat := d.size0.toNat + 1
def Desc.n1 (d : Desc) : Nat := d.size1.toNat + 1
def Desc.n2 (d : Desc) : Nat := d.size2.toNat + 1
def Desc.n3 (d : Desc) : Nat := d.size3.toNat + 1

/-- Elements of the operand. -/
def Desc.count (d : Desc) : Nat := d.n0 * d.n1 * d.n2 * d.n3

/-- Bytes of one contiguous run of dimension 0 (R58). -/
def Desc.rowBytes (d : Desc) : Nat := (d.n0 * eltBits d.format + 7) / 8

/-- Bytes from the base up to and including the last of the extent (R58). -/
def Desc.extent (d : Desc) : Nat :=
  d.size1.toNat * d.stride1.toNat + d.size2.toNat * d.stride2.toNat + d.size3.toNat * d.stride3.toNat + d.rowBytes

/-- The signed base (R59). -/
def Desc.start (d : Desc) : Int := d.base.toInt

/-- The offsets of the rows from the base, dimension 1 fastest (R64). -/
def Desc.rows (d : Desc) : List Nat :=
  (List.range d.n3).flatMap fun i3 => (List.range d.n2).flatMap fun i2 => (List.range d.n1).map fun i1 =>
    i1 * d.stride1.toNat + i2 * d.stride2.toNat + i3 * d.stride3.toNat

/-- SETD (R56): the register becomes valid, its base kept for a later restore (R59). -/
def Desc.ofSetd (f : SetdOp) : Desc :=
  { valid := true, space := f.space, ndim := f.ndim, format := f.format, chip := f.chip, base := f.base.zeroExtend 41,
    base0 := f.base.zeroExtend 41, size0 := f.size0, size1 := f.size1, size2 := f.size2, size3 := f.size3,
    stride1 := f.stride1, stride2 := f.stride2, stride3 := f.stride3 }

/-- SETX (R82): always scratchpad. -/
def Desc.ofSetx (f : SetxOp) : Desc :=
  { valid := true, space := 0, ndim := f.ndim, format := f.format, chip := 0, base := f.base.zeroExtend 41,
    base0 := f.base.zeroExtend 41, size0 := f.size0, size1 := f.size1, size2 := f.size2, size3 := f.size3,
    stride1 := f.stride1, stride2 := f.stride2, stride3 := f.stride3 }

/-- ADVD and ADVX (R59): add a signed displacement to the base, or to the base of the last set. -/
def Desc.advance (d : Desc) (restore : Bool) (disp : W32) : Desc :=
  { d with base := (if restore then d.base0 else d.base) + disp.signExtend 41 }

/-- Why a scratchpad extent is out of range, 0 extent or 1 negative base, with the address named: its first address beyond
the range (R27, R73, R345) (log entry 35). -/
def spadCause (limit : Nat) (d : Desc) : Option (Nat × Nat) :=
  if d.start < 0 then some (1, (d.start % 2 ^ 40).toNat)
  else if limit < d.start.toNat + d.extent then some (0, max limit d.start.toNat)
  else none

/-- The same for the region a push gives itself (R33). -/
def pushCause (limit base len : Nat) : Option (Nat × Nat) := if limit < base + len then some (0, max limit base) else none

def Desc.range (d : Desc) (write : Bool) : Range :=
  { lo := d.start.toNat, hi := d.start.toNat + d.extent - 1, write := write, width := d.rowBytes,
    dims := [(d.n1, d.stride1.toNat), (d.n2, d.stride2.toNat), (d.n3, d.stride3.toNat)] }

/-- The range of a region that names its bytes itself (R33). -/
def spanRange (base len : Nat) (write : Bool) : Range := { lo := base, hi := base + len - 1, write := write, width := len, dims := [] }

/-- The first byte of every row of a range. -/
def Range.starts (r : Range) : List Nat := r.dims.foldr (fun d l => (List.range d.1).flatMap fun i => l.map (· + i * d.2)) [r.lo]

/-- The lowest of some addresses. -/
def lowestOf : List Nat → Option Nat
  | [] => none
  | a :: l => some (l.foldl min a)

/-- The lowest byte two ranges share; rows that interleave share none (R54, R84). -/
def Range.meet (a b : Range) : Option Nat :=
  if a.lo ≤ b.hi && b.lo ≤ a.hi then
    lowestOf (a.starts.flatMap fun x => b.starts.filterMap fun y => if x < y + b.width && y < x + a.width then some (max x y) else none)
  else none

/-- Two ranges share a byte and one of them is written (R54, R84). -/
def Range.clash (a b : Range) : Bool := (a.write || b.write) && (a.meet b).isSome

/-- The entry a register's extent makes (R62, R69). -/
def Desc.entry (d : Desc) (t : Token) : Entry :=
  { token := t, base := BitVec.ofNat 23 d.start.toNat, length := BitVec.ofNat 23 (d.extent - 1) }

/-- What a write of an operand, `per` elements a cycle from cycle `first`, overwrites piece by piece (R39, R83). -/
def Core.undo (c : Core) (d : Desc) (first per : Nat) : List Undo :=
  d.rows.zipIdx.flatMap fun r =>
    let e := r.2 * d.n0
    (List.range ((e + d.n0 - 1) / per - e / per + 1)).map fun j =>
      let b := e / per + j
      let lo := (max e (b * per) - e) * eltBits d.format / 8
      let hi := ((min (e + d.n0) ((b + 1) * per) - e) * eltBits d.format + 7) / 8
      let a := d.start.toNat + r.1 + lo
      { cycle := first + b, addr := a, old := (List.range (hi - lo)).map fun i => (cellsGet (a + i) c.spad, c.spadPoison.contains ((a + i) / 64)) }

def spadReadP (c : Core) (a n : Nat) : List PByte :=
  (List.range n).map fun i => (cellsGet (a + i) c.spad, c.spadPoison.contains ((a + i) / 64))

def readHbmP (s : State) (a n : Nat) : List PByte :=
  (List.range n).map fun i => (cellsGet (keyOf s (a + i)) s.mem.cells, linePoison s (keyOf s (a + i) / 64))

/-- Write bytes line by line, each line under the poison of the bytes that go into it (R28). -/
def spadWriteP : Nat → Core → Nat → List PByte → Core
  | 0, c, _, _ => c
  | fuel + 1, c, a, bs =>
    if bs.isEmpty then c
    else
      let n := 64 - a % 64
      let part := bs.take n
      spadWriteP fuel (spadWrite c a (part.map (·.1)) (part.any (·.2))) (a + n) (bs.drop n)

def spadPut (c : Core) (a : Nat) (bs : List PByte) : Core := spadWriteP (bs.length / 64 + 2) c a bs

def storeHbmP : Nat → State → Nat → List PByte → State
  | 0, s, _, _ => s
  | fuel + 1, s, a, bs =>
    if bs.isEmpty then s
    else
      let n := 64 - a % 64
      let part := bs.take n
      storeHbmP fuel (storeLine s a (part.map (·.1)) (part.any (·.2))) (a + n) (bs.drop n)

def hbmPut (s : State) (a : Nat) (bs : List PByte) : State := storeHbmP (bs.length / 64 + 2) s a bs

/-- The bytes of an operand in element order, dimension 0 fastest (R64). -/
def gatherSpad (c : Core) (d : Desc) : List PByte :=
  d.rows.flatMap fun o => spadReadP c (d.start.toNat + o) d.rowBytes

def gatherHbm (s : State) (d : Desc) : List PByte :=
  d.rows.flatMap fun o => readHbmP s (d.start.toNat + o) d.rowBytes

/-- Lay bytes out over the rows of an operand (R64). -/
def scatterRows {α : Type} (put : α → Nat → List PByte → α) (n : Nat) : α → List Nat → List PByte → α
  | a, [], _ => a
  | a, o :: os, bs => scatterRows put n (put a o (bs.take n)) os (bs.drop n)

def scatterSpad (c : Core) (d : Desc) (bs : List PByte) : Core :=
  scatterRows (fun k o b => spadPut k (d.start.toNat + o) b) d.rowBytes c d.rows bs

def scatterHbm (s : State) (d : Desc) (bs : List PByte) : State :=
  scatterRows (fun k o b => hbmPut k (d.start.toNat + o) b) d.rowBytes s d.rows bs

/-! ## Elements (R57, R100–R104) -/

/-- The elements of packed bytes: successive fields of the little-endian bit string (R8, R102). -/
def unpack (bits : Nat) (n : Nat) (bs : List Byte) : List W32 :=
  let v := leNat bs
  (List.range n).map fun i => BitVec.ofNat 32 (bitsOf v (bits * i) bits)

def packNat (bits : Nat) : List W32 → Nat
  | [] => 0
  | e :: es => e.toNat % 2 ^ bits + 2 ^ bits * packNat bits es

def pack (bits : Nat) (es : List W32) : List Byte := leBytes ((es.length * bits + 7) / 8) (packNat bits es)

/-- The floating-point format behind a code, elements of the block formats included (R100, R102). -/
def floatOf (fmt : BitVec 4) : Option FloatFmt :=
  match fmt.toNat with
  | 0x0 => some fp32
  | 0x1 => some bf16
  | 0x2 => some fp16
  | 0x3 | 0x5 => some e4m3
  | 0x4 => some e5m2
  | 0x6 => some e3m2
  | 0x7 => some e2m1
  | 0xA => some ue5m3
  | _ => none

/-- Elements per block scale: 32 for the MX formats, 64 for SB16, 0 for none (R102, R103). -/
def blockSize (fmt : BitVec 4) : Nat :=
  match fmt.toNat with
  | 0x5 | 0x6 | 0x7 => 32
  | 0x9 => 64
  | _ => 0

/-- The value of an element without its block scale (R100, R103, R104). -/
def rawValue (fmt : BitVec 4) (bits : W32) : Num :=
  match floatOf fmt with
  | some f => decodeFloat f bits.toNat
  | none =>
    match fmt.toNat with
    | 0x8 => ofInt (bits.setWidth 8).toInt
    | 0x9 => (ofInt (bits.setWidth 16).toInt).scale (-15)
    | 0xB => ofInt bits.toInt
    | _ => .nan

/-- The value of an element under the E8M0 scale of its block: v · 2^(S − 127), NaN under 0xFF (R102, R103). -/
def scaledValue (fmt : BitVec 4) (bits : W32) (scale : Byte) : Num :=
  if scale = 0xFF then .nan else (rawValue fmt bits).scale ((scale.toNat : Int) - 127)

/-- The elements of an operand register, with the poison of the lines read. -/
def readElems (c : Core) (d : Desc) : List W32 × Bool :=
  let bs := gatherSpad c d
  (d.rows.zipIdx.flatMap fun r => unpack (eltBits d.format) d.n0 (((bs.drop (r.2 * d.rowBytes)).take d.rowBytes).map (·.1)),
   bs.any (·.2))

/-- Write elements over an operand register. -/
def writeElems (c : Core) (d : Desc) (es : List W32) (p : Bool) : Core :=
  scatterSpad c d ((d.rows.zipIdx.flatMap fun r => pack (eltBits d.format) ((es.drop (r.2 * d.n0)).take d.n0)).map fun b => (b, p))

/-- What an operand field of the execute stream names (R81). -/
inductive Opnd where
  | reg (r : Fin 16)
  | link (l : Fin 4)
  | none
deriving DecidableEq, Repr

def opnd (f : BitVec 5) : Opnd :=
  if h : f.toNat < 16 then .reg ⟨f.toNat, h⟩
  else if h : f.toNat - 16 < 4 then .link ⟨f.toNat - 16, h⟩
  else .none

/-- Permute elements from a matrix stored rows × cols into its transpose (R94). -/
def transpose {α : Type} (rows cols : Nat) (a : α) (es : List α) : List α :=
  (List.range cols).flatMap fun j => (List.range rows).map fun i => es.getD (i * cols + j) a

end Sys2Proof.Machine
end

