-- ==== Sys2Proof/Machine/Flags.lean ====
section
/-! DEFINITION. Every flag computation: the census classes (R116, R117), the overflow flags (R118, R128, R157, R180),
the marks of poison on results (R349). -/

namespace Sys2Proof.Machine

/-- How one element fell out of a conversion: the class of R116. -/
inductive CensusClass where
  | nonfinite
  | saturation
  | zero
  | other
deriving DecidableEq, Repr

/-- The class of an element, tested in the order of R116: y before conversion, clamped, output zero. -/
def classOf (y : Num) (sat zeroOut : Bool) : CensusClass :=
  if !y.isFinite then .nonfinite else if sat then .saturation else if zeroOut then .zero else .other

/-- A count that stays at its limit; the lost increment is reported (R117). -/
def countTo (c : W32) : W32 × Bool := if c = BitVec.allOnes 32 then (c, true) else (c + 1, false)

/-- Count one element into a census set (R116, R117). -/
def Census.add (k : Census) (y : Num) (sat zeroOut : Bool) (p : Bool) : Census :=
  let cls := classOf y sat zeroOut
  let e := countTo k.elements
  let z := if cls = .zero then countTo k.zeros else (k.zeros, false)
  let t := if cls = .saturation then countTo k.saturations else (k.saturations, false)
  let n := if cls = .nonfinite then countTo k.nonfinite else (k.nonfinite, false)
  let ex := y.ilog
  { elements := e.1, zeros := z.1, saturations := t.1, nonfinite := n.1, sat := k.sat || e.2 || z.2 || t.2 || n.2,
    poison := k.poison || p,
    emax := match ex, k.emax with | some x, some m => some (max x m) | some x, none => some x | none, m => m,
    emin := match ex, k.emin with | some x, some m => some (min x m) | some x, none => some x | none, m => m }

/-- Two counts into one that stays at its limit. -/
def addCount (a b : W32) : W32 × Bool :=
  if a.toNat + b.toNat < 2 ^ 32 then (a + b, false) else (BitVec.allOnes 32, true)

/-- Two partial counts into one (R117). -/
def Census.merge (a b : Census) : Census :=
  let e := addCount a.elements b.elements
  let z := addCount a.zeros b.zeros
  let t := addCount a.saturations b.saturations
  let n := addCount a.nonfinite b.nonfinite
  { elements := e.1, zeros := z.1, saturations := t.1, nonfinite := n.1, sat := a.sat || b.sat || e.2 || z.2 || t.2 || n.2,
    poison := a.poison || b.poison,
    emax := match a.emax, b.emax with | some x, some y => some (max x y) | some x, none => some x | none, y => y,
    emin := match a.emin, b.emin with | some x, some y => some (min x y) | some x, none => some x | none, y => y }

/-- The 16-bit exponent field of a census record (R117). -/
def expField (e : Option Int) : Nat := match e with | some x => (BitVec.ofInt 16 x).toNat | none => 0x8000

/-- The 32 bytes of a census record (R117). -/
def censusBytes (k : Census) (tid : BitVec 24) (set : Nat) (step : W32) : List Byte :=
  leBytes 3 tid.toNat ++ leBytes 1 (set + (if k.sat then 16 else 0) + (if k.poison then 32 else 0)) ++ leBytes 4 step.toNat ++
    leBytes 4 k.elements.toNat ++ leBytes 4 k.zeros.toNat ++ leBytes 4 k.saturations.toNat ++ leBytes 4 k.nonfinite.toNat ++
    leBytes 2 (expField k.emax) ++ leBytes 2 (expField k.emin) ++ [0, 0, 0, 0]

/-- An add gives a non-finite value from finite inputs (R128, R149, R180). -/
def overflowed (a b r : W32) : Bool := finite32 a && finite32 b && !finite32 r

/-- Set the module's overflow flag if a condition holds (R128). -/
def orOverflow (s : State) (o : Bool) : State := if o then { s with job := { s.job with overflow := true } } else s

/-- The overflow flag the module contributes: its own or any core's (R118). -/
def overflowFlag (s : State) : Bool := s.job.overflow || s.cores.toList.any (·.overflow)

end Sys2Proof.Machine
end

