-- ==== Sys2Proof/Machine/Atomic.lean ====
section
/-! DEFINITION. Memory-side atomics (R180, R181): the arithmetic, the effect on lines, the atomic units' lines and the
touch list (R368). -/

namespace Sys2Proof.Machine

/-- Bytes of an element of an atomic format (R66). -/
def atomBytes (fmt : BitVec 4) : Nat := eltBits fmt / 8

/-- ADD in a floating-point format: one rounding to nearest even, NaN canonical (R101, R180). -/
def atomicFloatAdd (f : FloatFmt) (a b : W32) : W32 :=
  BitVec.ofNat 32 (rneBits f ((decodeFloat f a.toNat).add (decodeFloat f b.toNat)))

/-- A BF16 element as the FP32 value it equals. -/
def widen16 (a : W32) : W32 := a <<< 16

/-- One atomic update of an element: the new value, and whether it sets the overflow flag (R180). -/
def atomicValue (fmt op : BitVec 4) (a b : W32) : W32 × Bool :=
  match fmt.toNat, op.toNat with
  | 0x0, 0 => (fadd a b, overflowed a b (fadd a b))
  | 0x0, 1 => (fmin a b, false)
  | 0x0, 2 => (fmax a b, false)
  | 0x1, 0 =>
    let r := atomicFloatAdd bf16 a b
    (r, overflowed (widen16 a) (widen16 b) (widen16 r))
  | 0x1, 1 => (fmin (widen16 a) (widen16 b) >>> 16, false)
  | 0x1, 2 => (fmax (widen16 a) (widen16 b) >>> 16, false)
  | 0xB, 0 => (a + b, false)
  | 0xB, 1 => (if a.slt b then a else b, false)
  | 0xB, 2 => (if a.slt b then b else a, false)
  | 0xB, 3 => (a ||| b, false)
  | _, _ => (a, false)

/-! ## The touch list (R368) -/

/-- Put a granule into ascending merged ranges. -/
def touchPut (r : Byte) (g : Nat) : List Touch → List Touch
  | [] => [{ region := r, first := g, last := g }]
  | t :: ts =>
    if r < t.region || (r = t.region && g + 1 < t.first) then { region := r, first := g, last := g } :: t :: ts
    else if r = t.region && g ≤ t.last + 1 then
      let first := min t.first g
      let last := max t.last g
      match ts with
      | u :: us =>
        if u.region = r && u.first = last + 1 then { region := r, first := first, last := u.last } :: us
        else { region := r, first := first, last := last } :: u :: us
      | [] => [{ region := r, first := first, last := last }]
    else t :: touchPut r g ts

/-- Record an atomic add of a floating-point format, up to 1,024 entries (R368). -/
def noteTouch (s : State) (fmt op : BitVec 4) (a : Nat) : State :=
  if op = 0 && (fmt = 0 || fmt = 1) then
    match s.mem.regions.findIdx? (fun r => (r.base ≤ a && a < r.base + r.size) || (r.sided && r.wbase ≤ a && a < r.wbase + r.size)),
      regionOf s.mem.regions a with
    | some i, some (r, w) =>
      let l := touchPut (BitVec.ofNat 8 i) ((a - if w then r.wbase else r.base) / 4096) s.upd.touch
      if 1024 < l.length then { s with upd := { s.upd with touchOver := true } }
      else { s with upd := { s.upd with touch := l } }
    | _, _ => s
  else s

/-! ## Lines in the atomic units (R178, R181) -/

/-- A line enters an atomic unit: its write-combining entry merges into the unit's copy, and of 32 lines the one held
longest without an update is displaced. -/
def atomicEnter (s : State) (k : Fin 24) (line : Nat) : State :=
  let s1 : State := match s.mem.wcb[k].find? (·.line == line) with
    | some e => wcbWriteback s k e
    | none => s
  let rest : List Nat := s1.mem.atomics[k].filter (· != line)
  let kept := if 32 ≤ rest.length then rest.tail else rest
  { s1 with mem := { s1.mem with atomics := s1.mem.atomics.set k (kept ++ [line]) } }

/-- An atomic update of one element that carries no poison: nothing on a poisoned line. -/
def atomicElem (s : State) (fmt op : BitVec 4) (a : Nat) (v : W32) : State :=
  let key := keyOf s a
  let s1 := atomicEnter s (ctrlOf s a) (key / 64)
  if linePoison s1 (key / 64) then s1
  else
    let n := atomBytes fmt
    let old := BitVec.ofNat 32 (leNat (cellsRead key n s1.mem.cells))
    let r := atomicValue fmt op old v
    let s2 := if s.job.replay.isSome && viaAliasW s a then s1   -- a replay discards it (R165)
      else { s1 with mem := { s1.mem with cells := cellsWrite key (leBytes n r.1.toNat) s1.mem.cells } }
    noteTouch (orOverflow s2 r.2) fmt op a

/-- A line that an update with poisoned source elements would change is poisoned (R180), but by no replay (R165). -/
def atomicPoison (s : State) (a : Nat) : State :=
  let line := keyOf s a / 64
  let s1 := atomicEnter s (ctrlOf s a) line
  if s.job.replay.isSome && viaAliasW s a then s1 else settleLine s1 line true (viaAliasW s a)

/-- The updates of one request, elements with their addresses in ascending order (R179, R180): destination lines of
poisoned elements first, so that nothing is applied to them. -/
def atomicMany (s : State) (fmt op : BitVec 4) (es : List (Nat × List PByte)) : State :=
  let bad := es.filter fun e => e.2.any (·.2)
  let s1 := bad.foldl (fun t e => atomicPoison t e.1) s
  (es.filter fun e => !e.2.any (·.2)).foldl (fun t e => atomicElem t fmt op e.1 (BitVec.ofNat 32 (leNat (e.2.map (·.1))))) s1

/-- The elements of `n` bytes of a row at an address. -/
def elemsAt (n : Nat) (a : Nat) (bs : List PByte) : List (Nat × List PByte) :=
  ((chunksOf n bs.length bs).zipIdx).map fun c => (a + n * c.2, c.1)

end Sys2Proof.Machine
end

