-- ==== Sys2Proof/Machine/FabOps.lean ====
section
/-! DEFINITION. Packets and the route table as every unit uses them (R200–R208): header bytes and their check code,
classes, virtual channels, route entries, injection. -/

namespace Sys2Proof.Machine

/-- A packet of this module, without payload and class bytes. -/
def packetTo (s : State) (type : Nat) (dst : Chip) : Packet :=
  { type := BitVec.ofNat 8 type, attempt := 0, pz := false, ece := false, ce := false, dst := dst, src := s.fab.chip, tag := 0,
    hops := 0, length := 0, addr := 0, fmt := 0, op := 0, status := 0, step := s.job.step, cls := List.replicate 24 0,
    pmask := 0, crc := 0, payload := [], stomps := 0 }

/-- The acknowledgement of a packet (R203, R204, R213). -/
def ackOf (s : State) (p : Packet) (status : Nat) : Packet :=
  { packetTo s 0x09 p.src with tag := p.tag, attempt := p.attempt, ece := p.ce, status := BitVec.ofNat 16 status }

/-! ## Routes (R205, R207) -/

def routeOf (s : State) (d : Chip) : W32 := ((s.fab.routes.find? (·.1 == d.toNat)).map (·.2)).getD 0

def routePort (e : W32) : Nat := e.toNat % 16
def routeValid (e : W32) : Bool := e.getLsbD 4
def routeFenced (e : W32) : Bool := e.getLsbD 5
def routeVset (e : W32) : Nat := e.toNat / 128 % 4

/-- A usable entry (R207). -/
def routeUsable (e : W32) : Bool := routeValid e && routePort e ≤ 8 && routeVset e ≠ 3

/-- The entry of a chip has fence = 1, whatever its other bits say (R221, R243). -/
def chipFenced (s : State) (d : Chip) : Bool := routeFenced (routeOf s d)

/-- The virtual channel of a packet injected here (R205). -/
def injectVc (e : W32) (cls : Nat) : Fin 8 := Fin.ofNat 8 (2 * cls + if routeVset e = 2 then 1 else 0)

/-- Change a network port; port 8 and 9 have no register block. -/
def updPort (s : State) (n : Nat) (f : Port → Port) : State :=
  if h : n < 8 then { s with fab := { s.fab with ports := vmod s.fab.ports ⟨n, h⟩ f } } else s

/-- A packet goes to an output port: to a network port it is forwarded, with one hop more, and its flits wait there for their turn and
their credits (R202, R206, R210); on port 8 or 9 it is delivered. -/
def emit (s : State) (n : Nat) (vc : Fin 8) (inPort : Fin 10) (inVc : Fin 8) (p : Packet) : State :=
  if n < 8 then updPort s n fun q => { q with outQ := q.outQ ++ [{ vc := vc, p := { p with hops := p.hops + 1 }, inPort := inPort, inVc := inVc, sent := 0 }] }
  else s.say (.packet (Fin.ofNat 10 n) p)

/-- Inject a packet of this module through port 8, or through port 9 for the collective engine's (R198, R205, R207, R221): sent, silently
dropped at a fence, or counted as misrouted. -/
def inject (s : State) (p : Packet) : State :=
  let e := routeOf s p.dst
  if routeFenced e then s
  else if !routeUsable e then { s with fab := { s.fab with misroutedLocal := bump s.fab.misroutedLocal } }
  else emit s (routePort e) (injectVc e ((typeClass p.type).getD 3)) (if p.type = 0x10 || p.type = 0x18 then 9 else 8) 0 p.sealed

/-- Queue a packet that holds a tag: it is injected by PACKET_SEND (R211, R215). -/
def queueSend (s : State) (i : Issuer) (p : Packet) (d : LocalDest) : State :=
  { s with fab := { s.fab with sendQ := s.fab.sendQ ++ [{ issuer := i, p := p, dest := d, held := none, waited := false }] } }

/-- A flit has arrived on a network port: a silent port is heard again, and the event is reported (R222, R302). The manual gives
the event no detail: it is free (log entry 13). -/
def heard (s : State) (n : Nat) : State :=
  if h : n < 8 then
    if (s.fab.ports[(⟨n, h⟩ : Fin 8)]).silent then
      let s1 := updPort s n fun q => { q with silent := false }
      raiseOpen s1 0x03
    else s
  else s

/-- Live tags and waiting packets of a core (R215). -/
def coreTags (s : State) (c : CoreId) : Nat :=
  (s.fab.tags.filter fun t => match t.issuer with | .access d _ => d == c | .coll _ => false).length +
    (s.fab.sendQ.filter fun t => t.held.isNone && (match t.issuer with | .access d _ => d == c | .coll _ => false)).length

/-! ## Cutting remote data into packets (R201) -/

/-- Pieces (remote address, local address, bytes) of two equally long lists of runs, cut at the ends of runs, at the 4 KiB
boundaries of the remote address and at multiples of `mb` of the local one. -/
def cutRuns (mb : Nat) : Nat → List (Nat × Nat) → List (Nat × Nat) → List (Nat × Nat × Nat)
  | 0, _, _ => []
  | fuel + 1, (a, n) :: as, (b, m) :: bs =>
    if n = 0 then cutRuns mb fuel as ((b, m) :: bs)
    else if m = 0 then cutRuns mb fuel ((a, n) :: as) bs
    else
      let k := min (min n m) (min (4096 - a % 4096) (mb - b % mb))
      (a, b, k) :: cutRuns mb fuel ((a + k, n - k) :: as) ((b + k, m - k) :: bs)
  | _ + 1, _, _ => []

/-- The contiguous runs of an operand (R58, R64). -/
def Desc.runs (d : Desc) : List (Nat × Nat) := d.rows.map fun o => (d.start.toNat + o, d.rowBytes)

def pieces (a b : List (Nat × Nat)) : List (Nat × Nat × Nat) :=
  cutRuns 4096 (4 * (a.length + b.length + (a.map (·.2)).sum / 4096 + 4)) a b

end Sys2Proof.Machine
end

