-- ==== Sys2Proof/Machine/CollOps.lean ====
section
/-! DEFINITION. The collective engine's shared operations (R226–R252): contexts and segment order, the fixed reduction
orders, phases, packets, heaps, and the cinch tree. -/

namespace Sys2Proof.Machine

/-! ## Contexts and segment order (R226–R228) -/

def Comm.size (c : Comm) : Nat := c.members.length
def Comm.lens (c : Comm) : List Nat := c.phases.map (·.2.2)

def coordsOf : List Nat → Nat → List Nat
  | [], _ => []
  | l :: ls, i => i % l :: coordsOf ls (i / l)

def prodOf (l : List Nat) : Nat := l.foldl (· * ·) 1

/-- The rank of coordinates in segment order: compared c₀ first (R228). -/
def rankAt : List Nat → List Nat → Nat
  | _ :: ls, c :: cs => c * prodOf ls + rankAt ls cs
  | _, _ => 0

def Comm.rankOf (c : Comm) (m : Nat) : Nat := rankAt c.lens (coordsOf c.lens m)

/-- Elements of all members of a rank below `r`. -/
def Comm.before (c : Comm) (r : Nat) : Nat :=
  (c.counts.zipIdx.map fun x => if c.rankOf x.2 < r then x.1 else 0).sum

def Comm.coord (c : Comm) (k : Nat) : Nat := (coordsOf c.lens c.self).getD k 0
def Comm.len (c : Comm) (k : Nat) : Nat := c.lens.getD k 1

/-- The part of the chunk this member's phase-k line works on: first element and the one past the last (R228, R237). -/
def Comm.part (c : Comm) (k : Nat) : Nat × Nat :=
  let w := prodOf (c.lens.drop k)
  let lo := c.rankOf c.self / w * w
  (c.before lo, c.before (lo + w))

/-- The block of that part owned by coordinate `o` of the line. -/
def Comm.block (c : Comm) (k o : Nat) : Nat × Nat :=
  let w := prodOf (c.lens.drop k)
  let w1 := prodOf (c.lens.drop (k + 1))
  let lo := c.rankOf c.self / w * w + o * w1
  (c.before lo, c.before (lo + w1))

/-- The member at coordinate `o` of this member's phase-k line. -/
def Comm.lineMember (c : Comm) (k o : Nat) : Nat :=
  let st := prodOf (c.lens.take k)
  c.self - c.coord k * st + o * st

/-- The coordinate of the line whose block holds an element. -/
def Comm.ownerCoord (c : Comm) (k e : Nat) : Nat :=
  ((List.range (c.len k)).find? fun o => (c.block k o).1 ≤ e && e < (c.block k o).2).getD 0

def commOf (s : State) (i : BitVec 10) : Option Comm := s.coll.comms.find? (·.idx == i)

def Comm.chip (c : Comm) (m : Nat) : Chip := c.members.getD m 0xFFFF

/-! ## Elements with poison -/

abbrev PElem := W32 × Bool

def packP (bits : Nat) (es : List PElem) : List PByte :=
  (pack bits (es.map (·.1))).zipIdx.map fun b =>
    (b.1, (es.getD (8 * b.2 / bits) (0, false)).2 || (es.getD ((8 * b.2 + 7) / bits) (0, false)).2)

def unpackP (bits n : Nat) (bs : List PByte) : List PElem :=
  (unpack bits n (bs.map (·.1))).zipIdx.map fun e =>
    (e.1, (bs.getD (bits * e.2 / 8) (0, false)).2 || (bs.getD ((bits * e.2 + bits - 1) / 8) (0, false)).2)

/-- Elements of a contiguous operand in order, with the poison of their lines. -/
def readElemsHbm (s : State) (d : Desc) : List PElem :=
  let bs := gatherHbm s d
  d.rows.zipIdx.flatMap fun r => unpackP (eltBits d.format) d.n0 ((bs.drop (r.2 * d.rowBytes)).take d.rowBytes)

def setSlice {α : Type} (l : List α) (lo : Nat) (es : List α) : List α := l.take lo ++ es ++ l.drop (lo + es.length)

/-- One reduction of two elements (R232), and whether it sets the overflow flag (R128). A poisoned term poisons the sum
(R349). -/
def rop (fmt op : BitVec 4) (a b : PElem) : PElem × Bool :=
  let r := atomicValue fmt op a.1 b.1
  ((r.1, a.2 || b.2), r.2)

def ropAll (fmt op : BitVec 4) (xs ys : List PElem) : List PElem × Bool :=
  let rs := (xs.zip ys).map fun p => rop fmt op p.1 p.2
  (rs.map (·.1), rs.any (·.2))

/-! ## Packets of a collective (R239) -/

def collCls (comm : BitVec 10) (chunk sender : Nat) (op : BitVec 4) (phase kind off lo n1 : Nat) : List Byte :=
  leBytes 2 comm.toNat ++ leBytes 2 chunk ++ leBytes 2 sender ++ leBytes 1 (op.toNat + 16 * phase + 64 * kind) ++ [0] ++
    leBytes 4 off ++ leBytes 2 lo ++ leBytes 2 n1 ++ List.replicate 8 0

/-- Elements of one packet: at most 4,096 bytes, whole bytes. -/
def packElems (bits : Nat) : Nat := 32768 / bits / 4 * 4

/-- Queue elements for a member in packets (R201, R239). -/
def sendElems (s : State) (c : Comm) (r : CollRun) (m chunk phase kind off lo n1 : Nat) (es : List PElem) : State :=
  let bits := eltBits r.fmt
  ((chunksOf (packElems bits) (es.length + 1) es).zipIdx).foldl (fun t x =>
    let p := { packetTo t 0x10 (c.chip m) with
                 cls := collCls c.idx chunk c.self r.op phase kind (off + packElems bits * x.2) lo n1 }
    queueSend t (.coll r.id) (p.load (packP bits x.1)) .none) s

/-- The identity of a collective packet (R240). -/
def collId (p : Packet) : CollId :=
  { comm := BitVec.ofNat 10 (leAt p.cls 0 2), step := p.step, chunk := BitVec.ofNat 16 (leAt p.cls 2 2),
    sender := BitVec.ofNat 16 (leAt p.cls 4 2), phase := BitVec.ofNat 2 (leAt p.cls 6 1 / 16),
    kind := BitVec.ofNat 2 (leAt p.cls 6 1 / 64), offset := BitVec.ofNat 32 (leAt p.cls 8 4) }

def collOp (p : Packet) : BitVec 4 := BitVec.ofNat 4 (leAt p.cls 6 1)

/-! ## Phases (R235–R237, R242) -/

/-- The steps of an operation: reduce-scatter phases in order, gather phases in reverse; one direct step for the others. -/
def phaseSteps (c : Comm) (op : BitVec 4) : List (Nat × Bool) :=
  let up := (List.range c.phases.length).map fun k => (k, false)
  let down := (List.range c.phases.length).reverse.map fun k => (k, true)
  match op.toNat with
  | 0 => up
  | 1 => down
  | 2 => up ++ down
  | _ => []

/-- The plan of a step, none for any (R242). -/
def stepPlan (c : Comm) (k : Nat) : Option Byte :=
  match c.phases[k]? with
  | some (_, p, _) => if p = 0xFF then none else some p
  | none => none

/-- A tree node (lo, n) below (rlo, rn): its parent and whether it is the left child (R236). -/
def treeParent : Nat → Nat → Nat → Nat → Nat → Option (Nat × Nat × Bool)
  | 0, _, _, _, _ => none
  | fuel + 1, rlo, rn, lo, n =>
    if rn ≤ 1 then none
    else
      let h := 2 ^ Nat.log2 (rn - 1)
      if lo < rlo + h then (if lo = rlo && n = h then some (rlo, rn, true) else treeParent fuel rlo h lo n)
      else (if lo = rlo + h && n = rn - h then some (rlo, rn, false) else treeParent fuel (rlo + h) (rn - h) lo n)

/-- The coordinate that forms a node for the block of owner `o`: the owner where the node covers it, else its lowest
coordinate (log entry 15). -/
def treeFormer (o lo n : Nat) : Nat := if lo ≤ o && o < lo + n then o else lo

/-- A final piece of a result. -/
def CollRun.keep (r : CollRun) (chunk off : Nat) (es : List PElem) : CollRun := { r with got := r.got ++ [(chunk, off, es)] }

/-- Store values of a chunk, and keep them as final when the step is the operation's last reduce-scatter. -/
def CollRun.settle (r : CollRun) (last : Bool) (chunk off : Nat) (es : List PElem) : CollRun :=
  let r1 := { r with buf := modifyAt r.buf chunk (setSlice · off es), left := r.left - es.length }
  if last then r1.keep chunk off es else r1

/-- A tree partial at this member: combined with its sibling when it is here, kept, or sent on toward the owner. -/
def treeFlow (c : Comm) (k o : Nat) (last : Bool) : Nat → State → CollRun → CollTerm → State × CollRun
  | 0, s, r, _ => (s, r)
  | fuel + 1, s, r, t =>
    let send (m : Nat) : State × CollRun :=
      (sendElems s c r (c.lineMember k m) (r.chunk + t.chunk) k 0 t.offset t.lo (t.n - 1) t.elems,
       { r with left := r.left - t.elems.length })
    if t.n = c.len k then
      if c.coord k = o then (s, r.settle last t.chunk t.offset t.elems) else send o
    else
      match treeParent 40 0 (c.len k) t.lo t.n with
      | none => (s, r)
      | some (plo, pn, left) =>
        if treeFormer o plo pn ≠ c.coord k then send (treeFormer o plo pn)
        else
          let sib := r.terms.find? fun u => u.chunk == t.chunk && u.offset == t.offset && u.elems.length == t.elems.length &&
            (if left then u.lo == t.lo + t.n && u.n == plo + pn - (t.lo + t.n) else u.lo == plo && u.n == t.lo - plo)
          match sib with
          | none => (s, { r with terms := r.terms ++ [t] })
          | some u =>
            let x := ropAll r.fmt (BitVec.ofNat 4 (r.param.toNat % 4)) (if left then t.elems else u.elems) (if left then u.elems else t.elems)
            treeFlow c k o last fuel (orOverflow s x.2) { r with terms := r.terms.filter (· ≠ u) }
              { t with lo := plo, n := pn, elems := x.1 }

/-- Fold over the chunks of an operation. -/
def overChunks (r0 : CollRun) (f : State × CollRun → Nat → State × CollRun) (x : State × CollRun) : State × CollRun :=
  (List.range r0.nchunks).foldl f x

/-- Begin a reduce-scatter step: what this member starts itself (R235, R236). -/
def startScatter (s : State) (c : Comm) (r : CollRun) (k : Nat) (last : Bool) : State × CollRun :=
  let L := c.len k
  let cc := c.coord k
  let p := c.part k
  let size := p.2 - p.1
  if L ≤ 1 then
    overChunks r (fun x j =>
      (x.1, if last then x.2.keep j p.1 (slice (x.2.buf.getD j []) p.1 size) else x.2)) (s, { r with left := 0 })
  else if c.tree then
    let bits := eltBits r.fmt
    overChunks r (fun x j =>
      (List.range L).foldl (fun y o =>
        let b := c.block k o
        let es := slice (r.buf.getD j []) b.1 (b.2 - b.1)
        ((chunksOf (packElems bits) (es.length + 1) es).zipIdx).foldl (fun z e =>
          treeFlow c k o last 40 z.1 z.2
            { chunk := j, offset := b.1 + packElems bits * e.2, lo := cc, n := 1, elems := e.1 }) y) x)
      (s, { r with left := r.nchunks * size })
  else
    let o := (cc + L - 1) % L
    let b := c.block k o
    overChunks r (fun x j =>
      (sendElems x.1 c x.2 (c.lineMember k ((cc + 1) % L)) (r.chunk + j) k 0 b.1 0 0 (slice (r.buf.getD j []) b.1 (b.2 - b.1)), x.2))
      (s, { r with left := r.nchunks * (size - (b.2 - b.1)) })

/-! ## Gathers around fenced members (R237, R244) -/

/-- The elements of a member: first and the one past the last (R228). -/
def Comm.segment (c : Comm) (m : Nat) : Nat × Nat := let a := c.before (c.rankOf m); (a, a + c.counts.getD m 0)

/-- How many elements of a range of a chunk have come. -/
def CollRun.haveIn (r : CollRun) (j a b : Nat) : Nat :=
  ((r.got.filter (·.1 == j)).map fun g => min b (g.2.1 + g.2.2.length) - max a g.2.1).sum

/-- Elements of unfenced members that a gather step still has to see: its part of the chunk but for the part held before it. -/
def gatherLeft (s : State) (c : Comm) (r : CollRun) (k : Nat) : Nat :=
  let p := c.part k
  let own := c.part (k + 1)
  ((List.range r.nchunks).map fun j => ((List.range c.size).map fun m =>
    let g := c.segment m
    if p.1 ≤ g.1 && g.2 ≤ p.2 && !(own.1 ≤ g.1 && g.2 ≤ own.2) && !chipFenced s (c.chip m) then (g.2 - g.1) - r.haveIn j g.1 g.2 else 0).sum).sum

/-- The coordinate a gathered piece of owner `o` goes on to: the next unfenced one of the line before the owner. -/
def gatherNext (s : State) (c : Comm) (k o : Nat) : Option Nat :=
  (((List.range (c.len k - 1)).map fun i => (c.coord k + 1 + i) % c.len k).takeWhile (· ≠ o)).find? fun x => !chipFenced s (c.chip (c.lineMember k x))

/-- What this member holds of its part of a chunk: all of it, or, where a member is fenced, the segments that are whole. -/
def ownPieces (s : State) (c : Comm) (r : CollRun) (k j : Nat) : List (Nat × List PElem) :=
  let own := c.part (k + 1)
  let b := r.buf.getD j []
  if c.members.any (chipFenced s) then
    (List.range c.size).filterMap fun m =>
      let g := c.segment m
      if own.1 ≤ g.1 && g.2 ≤ own.2 && g.1 < g.2 && r.haveIn j g.1 g.2 = g.2 - g.1 then some (g.1, slice b g.1 (g.2 - g.1)) else none
  else [(own.1, slice b own.1 (own.2 - own.1))]

/-- Send this member's part of every chunk to a member, as gather packets of phase k. -/
def sendPart (s : State) (c : Comm) (r : CollRun) (k m : Nat) : State :=
  (List.range r.nchunks).foldl (fun t j => (ownPieces t c r k j).foldl (fun u x => sendElems u c r m (r.chunk + j) k 1 x.1 0 0 x.2) t) s

/-- The members that share this one's coordinates 0 to k hold the same part after the steps before phase k. -/
def samePart (c : Comm) (k m : Nat) : Bool := (coordsOf c.lens m).take (k + 1) == (coordsOf c.lens c.self).take (k + 1)

/-- For a fenced member that held this member's part, the first unfenced holder serves the fenced member's line in its place: the elements
that need no fenced term still reach it (R244; log entry 116). -/
def detours (s : State) (c : Comm) (r : CollRun) (k : Nat) : State × CollRun :=
  if (List.range c.size).find? (fun m => samePart c k m && !chipFenced s (c.chip m)) = some c.self then
    (List.range c.size).foldl (fun x f =>
      if samePart c k f && chipFenced s (c.chip f) && !x.2.detoured.contains (k, f) then
        let cf := (coordsOf c.lens f).getD k 0
        let st := prodOf (c.lens.take k)
        let line := (List.range (c.len k - 1)).map fun i => f - cf * st + (cf + 1 + i) % c.len k * st
        let y := { x.2 with detoured := (k, f) :: x.2.detoured }
        match line.find? fun m => !chipFenced s (c.chip m) with
        | some m => (sendPart x.1 c y k m, y)
        | none => (x.1, y)
      else x) (s, r)
  else (s, r)

/-- Begin a gather step: this member's part goes to the next coordinate of its line (R237), past fenced ones (R244). -/
def startGather (s : State) (c : Comm) (r : CollRun) (k : Nat) (first : Bool) : State × CollRun :=
  let own := c.part (k + 1)
  let p := c.part k
  let n := own.2 - own.1
  let r1 := if first then (List.range r.nchunks).foldl (fun q j => q.keep j own.1 (slice (q.buf.getD j []) own.1 n)) r else r
  let r2 := { r1 with left := r.nchunks * ((p.2 - p.1) - n) }
  let s1 := match gatherNext s c k (c.coord k) with | some x => sendPart s c r2 k (c.lineMember k x) | none => s
  detours s1 c r2 k

/-- Nothing is left to see in the step. -/
def stepEnds (s : State) (c : Comm) (r : CollRun) : Bool :=
  match (phaseSteps c r.op)[r.phase]? with
  | some (k, true) => gatherLeft s c r k = 0
  | _ => r.left = 0

/-- A step with nothing left to see ends. -/
def CollRun.advance (r : CollRun) (s : State) (c : Comm) : CollRun :=
  if r.started && stepEnds s c r then { r with phase := r.phase + 1, started := false } else r

/-! ## Heaps (R231, R243) -/

/-- The members of a multicast in heap order: a group's list, or all members rotated so that the root comes first. -/
def heapOf (c : Comm) (op : BitVec 4) (param : W32) : List Nat :=
  if op = 5 then c.groups.getD (param.toNat % 256) []
  else (List.range c.size).map fun i => (i + param.toNat % 65536) % c.size

/-- The members this one sends to, with fenced children pruned and their children adopted, and the fenced ones. -/
def heapKids (s : State) (c : Comm) (h : List Nat) : Nat → List Nat → List Nat × List Nat
  | 0, _ => ([], [])
  | _ + 1, [] => ([], [])
  | fuel + 1, j :: js =>
    match h[j]? with
    | none => heapKids s c h fuel js
    | some m =>
      if chipFenced s (c.chip m) then
        let r := heapKids s c h fuel ([2 * j + 1, 2 * j + 2] ++ js)
        (r.1, m :: r.2)
      else
        let r := heapKids s c h fuel js
        (m :: r.1, r.2)

def heapSends (s : State) (c : Comm) (h : List Nat) (m : Nat) : List Nat × List Nat :=
  match h.findIdx? (· == m) with
  | some j => heapKids s c h (2 * h.length + 3) [2 * j + 1, 2 * j + 2]
  | none => ([], [])

/-- Put members into a rising list of fenced members. -/
def addFenced (l ms : List Nat) : List Nat := ms.foldl (fun a m => setPut m a) l

/-! ## Runs in the state -/

def updRun (s : State) (id : Nat) (f : CollRun → CollRun) : State :=
  { s with coll := { s.coll with runs := s.coll.runs.map fun r => if r.id = id then f r else r } }

def putRun (s : State) (r : CollRun) : State := updRun s r.id fun _ => r

def dropRun (s : State) (id : Nat) : State := { s with coll := { s.coll with runs := s.coll.runs.filter (·.id ≠ id) } }

/-- Enter a new operation; its first packets go at its PHASE_START (R242). -/
def newRun (s : State) (r : CollRun) : State :=
  { s with coll := { s.coll with runs := s.coll.runs ++ [{ r with id := s.coll.nextId }], nextId := s.coll.nextId + 1 } }

/-! ## Acknowledgements along a heap (R239, R243) -/

def Comm.memberOf (c : Comm) (chip : Chip) : Option Nat := c.members.findIdx? (· == chip)

/-- An acknowledgement that counts the fenced members below this one and names up to 11 (R239). -/
def ackFenced (s : State) (p : Packet) (total : Nat) (fenced : List Nat) : Packet :=
  let a := ackOf s p 0
  { a with cls := if total = 0 then a.cls else padTo 24 0 (leBytes 2 total ++ (fenced.take 11).flatMap fun m => leBytes 2 m) }

/-- How many fenced members an acknowledgement counts. -/
def fencedCount (p : Packet) : Nat := leAt p.cls 0 2

/-- The fenced members an acknowledgement names. -/
def fencedIn (p : Packet) : List Nat := (List.range (min 11 (leAt p.cls 0 2))).map fun i => leAt p.cls (2 + 2 * i) 2

def isHeapOp (op : BitVec 4) : Bool := op == 4 || op == 5

/-- A run carries a packet's chunk. -/
def CollRun.carries (r : CollRun) (comm : BitVec 10) (op : BitVec 4) (chunk : Nat) : Bool :=
  r.comm == comm && r.op == op && r.chunk ≤ chunk && chunk < r.chunk + r.nchunks

def sameData (a b : Packet) : Bool :=
  (collId a).comm == (collId b).comm && (collId a).chunk == (collId b).chunk && (collId a).offset == (collId b).offset && collOp a == collOp b

/-- This member finds members fenced itself. -/
def CollRun.noteCut (r : CollRun) (ms : List Nat) : CollRun :=
  { r with fenced := addFenced r.fenced ms, cut := addFenced r.cut ms, below := r.below.filter fun x => !ms.contains x.1 }

/-- A heap child reports how many are fenced below it, and names some (R239). -/
def CollRun.noteBelow (r : CollRun) (m n : Nat) (ms : List Nat) : CollRun :=
  { r with fenced := addFenced r.fenced ms, below := r.below.filter (·.1 ≠ m) ++ if n = 0 then [] else [(m, n)] }

/-- The fenced members at or below this one, in total. -/
def CollRun.fencedTotal (r : CollRun) : Nat := r.cut.length + (r.below.map (·.2)).sum

/-- Change the operation that carries a packet's chunk. -/
def noteRun (s : State) (p : Packet) (f : CollRun → CollRun) : State :=
  let k := collId p
  { s with coll := { s.coll with runs := s.coll.runs.map fun r => if r.carries k.comm (collOp p) k.chunk.toNat then f r else r } }

/-- What the operation that carries a packet's chunk knows of fenced members: how many, and which. -/
def fencedOf (s : State) (p : Packet) : Nat × List Nat :=
  let k := collId p
  ((s.coll.runs.find? fun r => r.carries k.comm (collOp p) k.chunk.toNat).map fun r => (r.fencedTotal, r.fenced)).getD (0, [])

def ackFencedOf (s : State) (p : Packet) : Packet := ackFenced s p (fencedOf s p).1 (fencedOf s p).2

/-- Acknowledge every parent whose forwards are all acknowledged. -/
def settleAcks (s : State) : State :=
  let ended := s.coll.acksOwed.filter (·.2.isEmpty)
  ended.foldl (fun t x => inject t (ackFencedOf t x.1))
    { s with coll := { s.coll with acksOwed := s.coll.acksOwed.filter fun x => !x.2.isEmpty } }

/-- An acknowledgement of a packet sent to a member of a heap (R243). -/
def collAcked (s : State) (sent ack : Packet) : State :=
  match commOf s (collId sent).comm with
  | none => s
  | some c =>
    if isHeapOp (collOp sent) then
      match c.memberOf sent.dst with
      | none => s
      | some m =>
        let s1 := noteRun s sent fun r => r.noteBelow m (fencedCount ack) (fencedIn ack)
        settleAcks { s1 with coll := { s1.coll with
          acksOwed := s1.coll.acksOwed.map fun x => if sameData x.1 sent then (x.1, x.2.filter (· ≠ m)) else x } }
    else s

/-- A packet to a member completed as FENCED (R243, R244): a heap prunes the branch and adopts its children; any other operation
notes the member. -/
def collFencedAt (s : State) (id : Nat) (sent : Packet) : State :=
  match commOf s (collId sent).comm with
  | none => s
  | some c =>
    match c.memberOf sent.dst with
    | none => s
    | some m =>
      let s1 := noteRun s sent fun r => r.noteCut [m]
      if isHeapOp (collOp sent) then
        let h := match s.coll.runs.find? fun r => r.id == id with
          | some r => heapOf c r.op r.param
          | none => []
        match h.findIdx? (· == m) with
        | none => s1
        | some j =>
          let k := heapKids s1 c h (2 * h.length + 3) [2 * j + 1, 2 * j + 2]
          let s2 := k.1.foldl (fun t x => queueSend t (.coll id) { sent with dst := c.chip x, attempt := 0 } .none) (noteRun s1 sent fun r => r.noteCut k.2)
          settleAcks { s2 with coll := { s2.coll with
            acksOwed := s2.coll.acksOwed.map fun x => if sameData x.1 sent then (x.1, x.2.filter (· ≠ m) ++ k.1) else x } }
      else s1

/-! ## The cinch (R245–R249) -/

def CinchRec.blank : CinchRec := { orw := 0, minw := 0, sumw := 0, status := 0, planReq := 0, total := 0, fenced := [] }

/-- Reduce two records (R245); a disagreement in the plan request is a mismatch (R246), and a fenced part stays FENCED. -/
def CinchRec.merge (a b : CinchRec) : CinchRec :=
  { orw := a.orw ||| b.orw, minw := if a.minw ≤ b.minw then a.minw else b.minw, sumw := a.sumw + b.sumw,
    status := if a.status = 2 || b.status = 2 || a.planReq ≠ b.planReq then 2 else if a.status = 1 || b.status = 1 then 1 else 0,
    planReq := a.planReq, total := a.total + b.total,
    fenced := (addFenced (a.fenced.map BitVec.toNat) (b.fenced.map BitVec.toNat)).map (BitVec.ofNat 16) }

/-- The 64 bytes of a record (R245). -/
def CinchRec.bytes (r : CinchRec) : List Byte :=
  leBytes 8 r.orw.toNat ++ leBytes 8 r.minw.toNat ++ leBytes 8 r.sumw.toNat ++ [r.status, r.planReq] ++ leBytes 2 r.total ++
    [0, 0, 0, 0] ++ (padTo 16 (0xFFFF#16) r.fenced).flatMap fun m => leBytes 2 m.toNat

/-- A record as a CINCH packet carries it (R246). -/
def cinchOf (p : Packet) : CinchRec :=
  let b := p.payload
  let n := leAt b 26 2
  { orw := BitVec.ofNat 64 (leAt b 0 8), minw := BitVec.ofNat 64 (leAt b 8 8), sumw := BitVec.ofNat 64 (leAt b 16 8),
    status := byteAt b 24, planReq := byteAt p.cls 7, total := n,
    fenced := (List.range (min n 16)).map fun i => BitVec.ofNat 16 (leAt b (32 + 2 * i) 2) }

def cinchCls (comm : BitVec 10) (cseq : W32) (kind : Nat) (plan : Byte) (sender : Nat) : List Byte :=
  leBytes 2 comm.toNat ++ leBytes 4 cseq.toNat ++ leBytes 1 kind ++ [plan] ++ leBytes 2 sender ++ List.replicate 14 0

def cinchKind (p : Packet) : Nat := leAt p.cls 6 1
def cinchComm (p : Packet) : BitVec 10 := BitVec.ofNat 10 (leAt p.cls 0 2)
def cinchSeq (p : Packet) : W32 := BitVec.ofNat 32 (leAt p.cls 2 4)
def cinchSender (p : Packet) : Nat := leAt p.cls 8 2

/-- Send an UP or a DOWN (R246). -/
def sendCinch (s : State) (c : Comm) (cseq : W32) (kind m : Nat) (r : CinchRec) : State :=
  let p := { packetTo s 0x18 (c.chip m) with cls := cinchCls c.idx cseq kind r.planReq c.self }
  inject s (p.load (r.bytes.map fun b => (b, false)))

/-- Children of coordinate x in a line's tree rooted at 0 (R236, R246). -/
def lineKids (L x : Nat) : List Nat :=
  (List.range L).filter fun y =>
    (List.range 17).any fun i => y = x + 2 ^ i && x % 2 ^ (i + 1) = 0

/-- Children of a member in the cinch tree: in every phase whose earlier coordinates are 0 (R246). -/
def cinchKidsRaw (c : Comm) (m : Nat) : List Nat :=
  let cs := coordsOf c.lens m
  (List.range c.lens.length).flatMap fun k =>
    if (cs.take k).all (· == 0) then
      let st := prodOf (c.lens.take k)
      (lineKids (c.len k) (cs.getD k 0)).map fun y => m - cs.getD k 0 * st + y * st
    else []

/-- The parent of a member: one line up in the first phase where its coordinate is not 0. -/
def cinchParentRaw (c : Comm) (m : Nat) : Nat :=
  let cs := coordsOf c.lens m
  match (List.range c.lens.length).find? fun k => cs.getD k 0 ≠ 0 with
  | some k =>
    let x := cs.getD k 0
    let low := (List.range 17).find? fun i => x.testBit i
    m - 2 ^ low.getD 0 * prodOf (c.lens.take k)
  | none => m

/-- Live children, with those of fenced children adopted, and the fenced children (R249). -/
def cinchKids (s : State) (c : Comm) : Nat → List Nat → List Nat × List Nat
  | 0, _ => ([], [])
  | _ + 1, [] => ([], [])
  | fuel + 1, m :: ms =>
    if chipFenced s (c.chip m) then
      let r := cinchKids s c fuel (cinchKidsRaw c m ++ ms)
      (r.1, m :: r.2)
    else
      let r := cinchKids s c fuel ms
      (m :: r.1, r.2)

def cinchFamily (s : State) (c : Comm) : List Nat × List Nat := cinchKids s c (c.size + 2) (cinchKidsRaw c c.self)

/-- The member an UP goes to: the nearest live ancestor (R249). -/
def cinchParent (s : State) (c : Comm) : Nat → Nat → Nat
  | 0, m => m
  | fuel + 1, m => if m ≠ 0 && chipFenced s (c.chip m) then cinchParent s c fuel (cinchParentRaw c m) else m

def cinchUpTo (s : State) (c : Comm) : Nat := cinchParent s c 64 (cinchParentRaw c c.self)

def findCinch (s : State) (i : BitVec 10) : Option Cinch := s.coll.cinches.find? (·.comm == i)

def updCinch (s : State) (i : BitVec 10) (f : Cinch → Cinch) : State :=
  { s with coll := { s.coll with cinches := s.coll.cinches.map fun x => if x.comm = i then f x else x } }

/-- Everything this member has for its UP, once every live child's is here; fenced children are listed (R249). -/
def cinchGathered (s : State) (c : Comm) (n : Cinch) : Option CinchRec :=
  let fam := cinchFamily s c
  if fam.1.all fun m => n.ups.any (·.1 == m) then
    let r := (n.ups.filter fun u => fam.1.contains u.1).foldl (fun a u => a.merge u.2) n.record
    some { r with status := if fam.2.isEmpty || r.status = 2 then r.status else 1, total := r.total + fam.2.length,
                  fenced := (addFenced (r.fenced.map BitVec.toNat) fam.2).map (BitVec.ofNat 16) }
  else none

/-- The members this one still waits for: those that owe an UP, or its parent once the UP is out (R252). -/
def cinchMissing (s : State) (c : Comm) (n : Cinch) : List Nat :=
  match cinchGathered s c n with
  | some _ => [cinchUpTo s c]
  | none => (cinchFamily s c).1.filter fun m => !n.ups.any (·.1 == m)

/-- Begin the switching sequence (R248, R274): nothing for the current plan or the one being switched to; another plan waits while a switch
runs. -/
def triggerSwitch (s : State) (k : BitVec 3) : State :=
  let o := s.opt
  if o.plan = k then s
  else if o.switching then (if o.target = k then s else { s with opt := { o with markersHeld := o.markersHeld ++ [Fin.ofNat 8 k.toNat] } })
  else { s with opt := { o with switching := true, target := k, phase := 0 } }

/-- The result reaches this member: DOWNs go to its children, the cinch is over here, a done plan request starts the
switch (R246, R248). -/
def cinchDown (s : State) (c : Comm) (n : Cinch) (r : CinchRec) : State :=
  let kids := (cinchFamily s c).1
  let s1 := kids.foldl (fun t m => sendCinch t c n.cseq 1 m r) s
  let s2 := { s1 with coll := { s1.coll with
    cinches := s1.coll.cinches.filter (·.comm ≠ c.idx),
    owed := s1.coll.owed ++ kids.map fun m => { comm := c.idx, cseq := n.cseq, member := m, record := r } } }
  if r.status = 0 && r.planReq ≠ 0 then triggerSwitch s2 (BitVec.ofNat 3 (r.planReq.toNat - 1)) else s2

/-- Send the UP, or at the root form the result (R246, R248), which waits while this module's own switch runs (R275). The result, once formed
here, is answered with the cinch. -/
def cinchFlow (s : State) (i : BitVec 10) : State × Option (Cinch × CinchRec) :=
  match commOf s i, findCinch s i with
  | some c, some n =>
    match cinchGathered s c n with
    | none => (s, none)
    | some r =>
      if c.self = 0 then (if s.opt.switching then (s, none) else (cinchDown s c n r, some (n, r)))
      else if n.upSent then (s, none)
      else (updCinch (sendCinch s c n.cseq 0 (cinchUpTo s c) r) i fun x => { x with upSent := true }, none)
  | _, _ => (s, none)

/-- Enter a cinch: it takes the context's next sequence number and the UPs that waited for it (R246, R247). -/
def cinchEnter (s : State) (c : Comm) (kind : CinchKind) (r : CinchRec) (dst : Option Desc) (chunk : Nat) : State × Option (Cinch × CinchRec) :=
  let mine := s.coll.earlyUps.filter fun p => cinchComm p == c.idx && cinchSeq p == c.cseq
  let n : Cinch := { comm := c.idx, cseq := c.cseq, kind := kind, record := r, ups := mine.map fun p => (cinchSender p, cinchOf p),
                     dst := dst, chunk := chunk, upSent := false, upAcked := false }
  cinchFlow { s with coll := { s.coll with
    cinches := s.coll.cinches ++ [n],
    earlyUps := s.coll.earlyUps.filter fun p => !(cinchComm p == c.idx && cinchSeq p == c.cseq),
    comms := s.coll.comms.map fun d => if d.idx = c.idx then { d with cseq := d.cseq + 1 } else d } } c.idx

/-! ## The status slot (R234) -/

def statusBytes (status : Nat) (op : BitVec 4) (chunk : Nat) (step : W32) (total : Nat) (fenced : List Nat) : List Byte :=
  leBytes 1 status ++ leBytes 1 op.toNat ++ leBytes 2 chunk ++ leBytes 4 step.toNat ++ leBytes 2 total ++ [0, 0] ++
    (padTo 26 0xFFFF fenced).flatMap fun m => leBytes 2 m

def writeStatus (s : State) (c : Comm) (status : Nat) (op : BitVec 4) (chunk : Nat) (total : Nat) (fenced : List Nat) : State :=
  storePart s 3 c.stat (statusBytes status op chunk s.job.step total fenced) false

end Sys2Proof.Machine
end

