-- ==== Sys2Proof/Machine/Access.lean ====
section
/-! DEFINITION. The access stream (R52–R78): issue in program order, the interlock, waits and done pushes, the moving
instructions, range checks and faults. -/

namespace Sys2Proof.Machine

/-! ## Names and records (R53, R344) -/

def MoveKind.opcode : MoveKind → Nat
  | .ldh => 0x10 | .sth => 0x11 | .movs => 0x12 | .gath => 0x13 | .scat => 0x14 | .rget => 0x18 | .rput => 0x19
  | .atom _ => 0x1A | .land _ => 0x1C | .coll _ _ => 0x1D

def AInstr.opcode : AInstr → Nat
  | .setd _ => 1 | .advd _ _ _ => 2 | .loop _ _ => 3 | .budg _ => 4 | .fence => 5 | .push _ => 8 | .pop _ _ => 9
  | .waitf _ _ _ => 0xA | .move k _ => k.opcode

def accessRecord (index : Nat) (i : AInstr) (code : W16) (cause : Nat) : Record :=
  { Record.blank with code := code, cause := BitVec.ofNat 8 cause, source := 0, instr := BitVec.ofNat 16 index,
                      opcode := BitVec.ofNat 8 i.opcode, unit := 6 }

/-- A fault of the instruction at the head of the access stream (R77). -/
def accessFault (s : State) (c : CoreId) (i : AInstr) (code : W16) (cause : Nat) (f : Record → Record) : State :=
  accessFaultAt s c (s.core c).access.nextSeq (f (accessRecord (s.core c).access.index i code cause))

def updAccess (s : State) (c : CoreId) (f : Access → Access) : State := s.updCore c fun k => { k with access := f k.access }

/-- A fault of an instruction in flight: it has had its outcome and leaves the flights (R75, R77). -/
def flightFault (s : State) (c : CoreId) (f : Flight) (code : W16) (cause : Nat) (g : Record → Record) : State :=
  accessFaultAt (updAccess s c fun a => { a with flights := a.flights.filter (·.seq ≠ f.seq) }) c f.seq (g (accessRecord f.index f.instr code cause))

/-! ## Position in the block (R60) -/

/-- The index after an instruction, with the loops that end there. -/
def loopNext (i : Nat) : List LoopFrame → Nat × List LoopFrame
  | [] => (i + 1, [])
  | f :: t =>
    if f.last = i then (if 0 < f.left then (f.first, { f with left := f.left - 1 } :: t) else loopNext i t)
    else (i + 1, f :: t)

/-- The position after the instruction at the head has issued. -/
def Access.passed (a : Access) : Access :=
  let n := loopNext a.index a.loops
  { a with index := n.1, loops := n.2, waiting := a.waiting.tail, popped := false }

/-! ## Queues (R33–R35, R62) -/

/-- The source of a move lies in scratchpad: never that of a COLL, which may name a register of a side it does not read (R63, R232). -/
def srcSpad (k : MoveKind) (src : Desc) : Bool := match k with | .coll _ _ => false | _ => src.space == 0

/-- The destination of a move lies in scratchpad: never that of a COLL or a LAND (R63). -/
def dstSpad (k : MoveKind) (dst : Desc) : Bool := match k with | .coll _ _ | .land _ => false | _ => dst.space == 0

/-- The entry pushed for a moving instruction: the destination's extent if it lies in scratchpad, else the source's, else
a bare token (R62). -/
def doneEntry (m : MoveOp) (kind : MoveKind) (src dst : Desc) : Entry :=
  if dstSpad kind dst then dst.entry m.dtok
  else if srcSpad kind src then src.entry m.dtok
  else { token := m.dtok, base := 0, length := 0 }

/-- The instruction pushes an entry when it is done. -/
def Flight.pushes (f : Flight) : Bool := match f.instr with | .push _ => true | .move _ m => m.de | _ => false

/-- Make the pushes that are due and have room, in program order by queue (R62). A flight whose push is made is complete. -/
def pushPass : List Flight → Vector (List Entry) 4 → List (Fin 4) → List Flight × Vector (List Entry) 4
  | [], q, _ => ([], q)
  | f :: t, q, blocked =>
    if f.pushes then
      if f.pushDue && !blocked.contains f.queue && q[f.queue].length < 16 then
        pushPass t (vmod q f.queue (· ++ [f.entry])) blocked
      else
        let r := pushPass t q (f.queue :: blocked)
        (f :: r.1, r.2)
    else
      let r := pushPass t q blocked
      (f :: r.1, r.2)

def Core.settlePushes (k : Core) : Core :=
  let r := pushPass k.access.flights k.aq []
  { k with aq := r.2, access := { k.access with flights := r.1 } }

/-- How a pop of the access stream stands (R34, R35). -/
inductive PopResult where
  | wait
  | order
  | taken (k : Core)

def Core.popEq (k : Core) (q : Fin 4) (t : Token) : PopResult :=
  match k.eq[q] with
  | [] => .wait
  | e :: rest => if e.token = t then .taken { k with eq := k.eq.set q rest } else .order

/-! ## Flights (R54) -/

/-- The remote module that a remote instruction names at its issue (R77). -/
def remoteChip (a : Access) : AInstr → Chip
  | .move .rget m => a.desc[m.src].chip
  | .move .rput m | .move (.atom _) m => a.desc[m.dst].chip
  | _ => 0

def newFlight (a : Access) (i : AInstr) (m : MoveOp) (e : Entry) (ranges : List Range) (armed : Bool) (open_ : Nat) : Flight :=
  { seq := a.nextSeq, index := a.index, instr := i, moved := false, done := false, pushDue := false, queue := m.dq, entry := e,
    ranges := ranges, armed := armed, budget := a.budget, open_ := open_, chip := remoteChip a i }

def noMove : MoveOp := { wq := 0, we := false, dq := 0, de := false, ix := false, wtok := 0, dtok := 0, src := 0, dst := 0, aux := 0 }

/-- Put an instruction in flight and pass on. -/
def fly (s : State) (c : CoreId) (i : AInstr) (m : MoveOp) (e : Entry) (ranges : List Range) (armed : Bool) (open_ : Nat) : State :=
  updAccess s c fun a =>
    { a.passed with flights := a.flights ++ [newFlight a i m e ranges armed open_], nextSeq := a.nextSeq + 1 }

/-- Some range of an instruction clashes with one of an earlier instruction in flight (R54). -/
def interlocked (a : Access) (rs : List Range) : Bool := a.flights.any fun f => f.ranges.any fun x => rs.any (x.clash ·)

def closeFlight (s : State) (c : CoreId) (seq : Nat) : State :=
  updAccess s c fun a => { a with flights := a.flights.map fun f => if f.seq = seq then { f with open_ := f.open_ - 1 } else f }

def countBytes (s : State) (c : CoreId) (n : Nat) : State :=
  s.updCore c fun k => { k with accessBytes := k.accessBytes + BitVec.ofNat 64 n }

/-! ## Range checks (R73, R74) -/

/-- The first failed check of scratchpad operands. -/
def spadChecks (lim : Nat) (ds : List Desc) : Option (Nat × Nat) := ds.findSome? (spadCause lim)

/-- The check of one local HBM operand. A negative base has cause 0x10: R74 names none for it, and 0x11 would fit as well (log entry 90). -/
def hbmCheck (s : State) (d : Desc) (write align : Bool) : Option Nat :=
  if d.start < 0 then some 0x10 else hbmCause s d.start.toNat d.extent write align

/-- The indices of a list (R65), read from scratchpad. -/
def indexList (k : Core) (d : Desc) : List W32 := (readElems k d).1

/-- The position of the first index beyond the table (R65). -/
def badIndex (table : Desc) (ix : List W32) : Option Nat :=
  ix.findIdx? fun i => i ≠ 0xFFFFFFFF && table.size1.toNat < i.toNat

def badDesc : Desc := Desc.reset

def raddr (n : Nat) : Record → Record := fun r => { r with addr := BitVec.ofNat 40 n }

/-! ## The moves (R63–R67, R75) -/

/-- The rows of an indexed operand, by list position; pad entries are none (R65). -/
def tableRows (table : Desc) (ix : List W32) : List (Option Nat) :=
  ix.map fun i => if i = 0xFFFFFFFF then none else some (table.start.toNat + i.toNat * table.stride1.toNat)

/-- The rows an index list gathers from a table; a pad entry gives a row of zeros (R65). -/
def gatherRows (s : State) (table : Desc) (ix : List W32) : List PByte :=
  (tableRows table ix).flatMap fun r => match r with
    | some a => readHbmP s a table.rowBytes
    | none => List.replicate table.rowBytes (0, false)

/-- Store one row of a scatter; a pad entry stores nothing (R65). -/
def storeRow (table : Desc) (bs : List PByte) (s : State) (r : Option Nat × Nat) : State :=
  match r.1 with
  | some a => hbmPut s a (slice bs (r.2 * table.rowBytes) table.rowBytes)
  | none => s

/-- The rows an index list scatters into a table, in list order (R65). -/
def storeRows (s : State) (table : Desc) (ix : List W32) (bs : List PByte) : State :=
  (tableRows table ix).zipIdx.foldl (storeRow table bs) s

/-- The scratchpad ranges of an instruction: source, destination, index list. -/
def moveRanges (k : MoveKind) (m : MoveOp) (src dst aux : Desc) : List Range :=
  (if srcSpad k src then [src.range false] else []) ++ (if dstSpad k dst then [dst.range true] else []) ++
    (if m.ix then [aux.range false] else [])

def moveSpad (k : MoveKind) (m : MoveOp) (src dst aux : Desc) : List Desc :=
  (if srcSpad k src then [src] else []) ++ (if dstSpad k dst then [dst] else []) ++ (if m.ix then [aux] else [])

/-- The extent of a remote operand leaves the 40-bit address space (R58; log entry 89). -/
def remoteCause (d : Desc) : Option Nat := if d.start < 0 || 2 ^ 40 < d.start.toNat + d.extent then some 0x10 else none

/-- The elements an ATOM updates with their addresses at the destination (R65, R66). -/
def atomElems (k : Core) (m : MoveOp) (src dst aux : Desc) : List (Nat × List PByte) :=
  let n := atomBytes src.format
  let bs := gatherSpad k src
  if m.ix then
    ((tableRows dst (indexList k aux)).zipIdx).flatMap fun r =>
      match r.1 with
      | some a => elemsAt n a (slice bs (r.2 * dst.rowBytes) dst.rowBytes)
      | none => []
  else (dst.rows.zipIdx).flatMap fun r => elemsAt n (dst.start.toNat + r.1) (slice bs (r.2 * dst.rowBytes) dst.rowBytes)

/-- Every element of an ATOM lies at a multiple of its size (R181). -/
def atomAligned (k : Core) (m : MoveOp) (dst aux : Desc) : Bool :=
  let n := atomBytes dst.format
  if m.ix then (tableRows dst (indexList k aux)).all fun r => match r with | some a => n = 0 || a % n = 0 | none => true
  else dst.rows.all fun o => n = 0 || (dst.start.toNat + o) % n = 0

/-- A get packet and where its data goes (R75, R201). -/
def queueGet (c : CoreId) (seq : Nat) (chip : Chip) (toSpad : Bool) (s : State) (p : Nat × Nat × Nat) : State :=
  queueSend s (.access c seq)
    { packetTo s 0x01 chip with addr := BitVec.ofNat 40 p.1, length := BitVec.ofNat 12 (p.2.2 - 1) }
    (if toSpad then .spad c p.2.1 else .hbm p.2.1)

/-- A put packet with its data (R201). -/
def queuePut (c : CoreId) (seq : Nat) (chip : Chip) (fromSpad : Bool) (s : State) (p : Nat × Nat × Nat) : State :=
  let bs := if fromSpad then spadReadP (s.core c) p.2.1 p.2.2 else readHbmP s p.2.1 p.2.2
  queueSend s (.access c seq) ({ packetTo s 0x02 chip with addr := BitVec.ofNat 40 p.1 }.load bs) .none

/-- The packets of a remote ATOM: (destination address, place in the source's element order, bytes), cut at 4 KiB boundaries
of the destination and at the ends of the runs of either operand (R201). -/
def atomRuns (m : MoveOp) (k : Core) (src dst aux : Desc) : List (Nat × Nat × Nat) :=
  let rows := if m.ix then (tableRows dst (indexList k aux)).zipIdx.filterMap fun r => r.1.map fun a => (a, r.2)
              else dst.rows.zipIdx.map fun r => (dst.start.toNat + r.1, r.2)
  let steps := 4 * (dst.rowBytes / 4096 + dst.rowBytes / max 1 src.rowBytes + 4)
  rows.flatMap fun r => cutRuns (max 1 src.rowBytes) steps [(r.1, dst.rowBytes)] [(r.2 * dst.rowBytes, dst.rowBytes)]

def queueAtom (c : CoreId) (seq : Nat) (chip : Chip) (fmt op : BitVec 4) (data : List PByte) (s : State) (p : Nat × Nat × Nat) : State :=
  queueSend s (.access c seq)
    ({ packetTo s 0x03 chip with addr := BitVec.ofNat 40 p.1, fmt := fmt, op := op }.load (slice data p.2.1 p.2.2)) .none

/-- The packets of a remote ATOM (R181): with an element out of alignment, those alone that start out of alignment, which their
responder refuses, so that no element of the instruction is applied (log entry 106). -/
def atomSends (m : MoveOp) (k : Core) (src dst aux : Desc) : List (Nat × Nat × Nat) :=
  let ps := atomRuns m k src dst aux
  if atomAligned k m dst aux then ps else ps.filter fun p => p.1 % max 1 (atomBytes dst.format) ≠ 0

/-- The landing of a LAND (R67, R149). -/
def landingOf (k : Core) (c : CoreId) (seq : Nat) (l : LandOp) (src : Desc) : Landing :=
  let bs := gatherSpad k src
  { source := .land c seq, group := l.group, mb := l.mb.toNat, first := l.offset.toNat, refused := false,
    data := src.rows.zipIdx.flatMap fun r => unpackP 32 src.n0 ((bs.drop (r.2 * src.rowBytes)).take src.rowBytes) }

/-! ### COLL (R68, R232, R233, R247) -/

/-- The padded header of an A2AV operand (R233). -/
def a2avHead (c : Comm) : Nat := roundUp (4 * c.size) 64

/-- The source header's counts (R233). -/
def a2avCounts (s : State) (c : Comm) (src : Desc) : List Nat :=
  (List.range c.size).map fun j => readLe s (src.start.toNat + 4 * j) 4

/-- A count above K, or one that ends inside a byte, refuses the operation at issue (R232, R233). -/
def a2avBad (fmt : BitVec 4) (param : W32) (counts : List Nat) : Bool :=
  counts.any fun n => param.toNat + 1 < n || (fmt = 6 && n % 4 ≠ 0) || (fmt = 7 && n % 2 ≠ 0)

def collChunks (c : Comm) (op : BitVec 4) (src dst : Desc) (root : Bool) : Nat :=
  match op.toNat with
  | 0 | 2 => src.count / c.chunkElems
  | 1 | 4 => dst.count / c.chunkElems
  | 3 => 1
  | _ => if root then src.count / c.chunkElems else dst.count / c.chunkElems

/-- The values of the chunks as this member holds them at issue. -/
def collBuf (s : State) (c : Comm) (op : BitVec 4) (n : Nat) (src : Desc) (root : Bool) (param : W32) (counts : List Nat) :
    List (List PElem) :=
  let E := c.chunkElems
  match op.toNat with
  | 1 =>
    let es := readElemsHbm s src
    let own := c.counts.getD c.self 0
    let at_ := c.before (c.rankOf c.self)
    (List.range n).map fun j => setSlice (List.replicate E (0, false)) at_ (slice es (j * own) own)
  | 3 =>
    let bits := eltBits src.format
    (counts.zipIdx).map fun x =>
      unpackP bits x.1 (readHbmP s (src.start.toNat + a2avHead c + x.2 * ((param.toNat + 1) * bits / 8)) ((x.1 * bits + 7) / 8))
  | 4 | 5 => if root then chunksOf E n (readElemsHbm s src) else List.replicate n []
  | _ => chunksOf E n (readElemsHbm s src)

/-- Enter a collective operation (R68, R232). -/
def collStart (s : State) (core : CoreId) (seq : Nat) (c : Comm) (op : BitVec 4) (l : CollOp) (src dst : Desc) : State :=
  let heap := heapOf c op l.param
  let root := heap.head? == some c.self
  let n := collChunks c op src dst root
  let counts := if op = 3 then a2avCounts s c src else []
  newRun s { id := 0, core := core, seq := seq, comm := c.idx, op := op, chunk := l.chunk.toNat, nchunks := n, param := l.param,
             drain := false, fmt := if op = 0 || op = 2 then c.fmt else if op = 3 || (op = 5 && root) then src.format else dst.format,
             dst := dst, buf := collBuf s c op n src root l.param counts, terms := [], got := [], counts := counts, phase := 0,
             started := false, left := 0, fenced := [] }

/-- The operands a COLL reads and writes here: a side whose per-chunk count is zero is not checked (R232). -/
def collSides (c : Comm) (op : BitVec 4) (param : W32) : Bool × Bool :=
  let own := c.counts.getD c.self 0 ≠ 0
  let root := (heapOf c op param).head? == some c.self
  match op.toNat with
  | 0 => (true, own && !c.land)
  | 1 => (own, true)
  | 4 => (root, true)
  | 5 => (root, !root && (heapOf c op param).contains c.self)
  | _ => (true, true)

/-- The first failed check of a COLL, with the base of the operand that failed it (R74, R233). -/
def collCause (s : State) (c : Comm) (op : BitVec 4) (l : CollOp) (src dst : Desc) : Option (Nat × Desc) :=
  let sd := collSides c op l.param
  match (if sd.1 then hbmCheck s src false true else none) with
  | some x => some (x, src)
  | none =>
    match (if sd.2 then hbmCheck s dst true true else none) with
    | some x => some (x, dst)
    | none => if op = 3 && a2avBad src.format l.param (a2avCounts s c src) then some (0x16, src) else none

/-- A COLL CINCH that has its result: the record is written to the destination and the status slot filled (R234, R248). -/
def finishCollCinch (s : State) (n : Cinch) (r : CinchRec) : State :=
  match n.kind with
  | .coll core seq =>
    let s1 := match n.dst with | some d => storeHbm s d.start.toNat r.bytes false | none => s
    let s2 := match commOf s1 n.comm with
      | some c => writeStatus s1 c r.status.toNat 6 n.chunk r.total (r.fenced.map BitVec.toNat)
      | none => s1
    closeFlight s2 core seq
  | _ => s

/-- Enter a COLL CINCH with the 64-byte record of its source; poison in it is consumed (R245, R247, R350). -/
def collCinch (s : State) (core : CoreId) (seq : Nat) (c : Comm) (l : CollOp) (src dst : Desc) : State :=
  let a := src.start.toNat
  let s1 := if hbmPoisoned s a 64 then consume s 3 (some core) a else s
  let r : CinchRec := { CinchRec.blank with
    orw := BitVec.ofNat 64 (readLe s a 8), minw := BitVec.ofNat 64 (readLe s (a + 8) 8), sumw := BitVec.ofNat 64 (readLe s (a + 16) 8),
    planReq := BitVec.ofNat 8 (l.param.toNat % 16) }
  match cinchEnter s1 c (.coll core seq) r (some dst) l.chunk.toNat with
  | (t, some (n, res)) => finishCollCinch t n res
  | (t, none) => t

/-! ### Issue of a moving instruction -/

/-- Fault or issue of a move whose wait has been taken. A MOVS overlap names the lowest shared byte (log entry 35); a remote extent
that leaves its 40 bits has a cause that R74 does not list (log entry 89). -/
def issueMove (s : State) (c : CoreId) (k : MoveKind) (m : MoveOp) : State :=
  let core := s.core c
  let a := core.access
  let src := a.desc[m.src]
  let dst := a.desc[m.dst]
  let aux := a.desc[m.aux]
  let i := AInstr.move k m
  let seq := a.nextSeq
  let e := doneEntry m k src dst
  let rs := moveRanges k m src dst aux
  let go (armed : Bool) (open_ : Nat) (t : State) : State := fly t c i m e rs armed open_
  let bad (cause : Nat) (n : Nat) : State := accessFault s c i codeHbmRange cause (raddr n)
  match spadChecks (spadOpen s) (moveSpad k m src dst aux) with
  | some x => accessFault s c i codeSpadRange x.1 (raddr x.2)
  | none =>
  match k with
  | .ldh =>
    match hbmCheck s src false true with
    | some x => bad x (src.base.toNat % 2 ^ 40)
    | none => go false 0 (countBytes (s.updCore c fun q => scatterSpad q dst (gatherHbm s src)) c (src.n1 * src.n2 * src.n3 * src.rowBytes))
  | .sth =>
    match hbmCheck s dst true true with
    | some x => bad x (dst.base.toNat % 2 ^ 40)
    | none => go false 0 (countBytes (scatterHbm s dst (gatherSpad core src)) c (dst.n1 * dst.n2 * dst.n3 * dst.rowBytes))
  | .movs =>
    if src.start.toNat ≤ dst.start.toNat + dst.extent - 1 && dst.start.toNat ≤ src.start.toNat + src.extent - 1 then
      accessFault s c i codeSpadRange 2 (raddr (max src.start.toNat dst.start.toNat))
    else go false 0 (countBytes (s.updCore c fun q => scatterSpad q dst (gatherSpad core src)) c (src.n1 * src.n2 * src.n3 * src.rowBytes))
  | .gath =>
    let ix := indexList core aux
    match hbmCheck s src false true with
    | some x => bad x (src.base.toNat % 2 ^ 40)
    | none =>
      match badIndex src ix with
      | some p => bad 0x16 p
      | none =>
        let bs := gatherRows s src ix
        go false 0 (countBytes (s.updCore c fun q => scatterSpad q dst bs) c bs.length)
  | .scat =>
    let ix := indexList core aux
    match hbmCheck s dst true true with
    | some x => bad x (dst.base.toNat % 2 ^ 40)
    | none =>
      match badIndex dst ix with
      | some p => bad 0x16 p
      | none =>
        let bs := gatherSpad core src
        go false 0 (countBytes (storeRows s dst ix bs) c bs.length)
  | .rget =>
    match (if dst.space = 1 then hbmCheck s dst true true else none) with
    | some x => bad x (dst.base.toNat % 2 ^ 40)
    | none =>
      match remoteCause src with
      | some x => bad x (src.base.toNat % 2 ^ 40)
      | none =>
        let ps := pieces src.runs dst.runs
        go true ps.length (countBytes (ps.foldl (queueGet c seq src.chip (dst.space == 0)) s) c (ps.map (·.2.2)).sum)
  | .rput =>
    match (if src.space = 1 then hbmCheck s src false true else none) with
    | some x => bad x (src.base.toNat % 2 ^ 40)
    | none =>
      match remoteCause dst with
      | some x => bad x (dst.base.toNat % 2 ^ 40)
      | none =>
        let ps := pieces dst.runs src.runs
        go true ps.length (countBytes (ps.foldl (queuePut c seq dst.chip (src.space == 0)) s) c (ps.map (·.2.2)).sum)
  | .atom op =>
    let ix := if m.ix then indexList core aux else []
    if dst.space = 1 then
      match hbmCheck s dst true (atomAligned core m dst aux) with
      | some x => bad x (dst.base.toNat % 2 ^ 40)
      | none =>
        match badIndex dst ix with
        | some p => bad 0x16 p
        | none =>
          let es := atomElems core m src dst aux
          go false 0 (countBytes (atomicMany s src.format op es) c (es.map (·.2.length)).sum)
    else
      match remoteCause dst with
      | some x => bad x (dst.base.toNat % 2 ^ 40)
      | none =>
      match badIndex dst ix with
      | some p => bad 0x16 p
      | none =>
        let ps := atomSends m core src dst aux
        go true ps.length (countBytes (ps.foldl (queueAtom c seq dst.chip src.format op (gatherSpad core src)) s) c (ps.map (·.2.2)).sum)
  | .land l =>
    match s.upd.groups.find? (·.idx == l.group) with
    | none => bad 0x16 l.offset.toNat
    | some g =>
      if g.elements < l.offset.toNat + src.count then bad 0x16 l.offset.toNat
      else go true 1 (countBytes { s with upd := { s.upd with landings := s.upd.landings ++ [landingOf core c seq l src] } } c (4 * src.count))
  | .coll op l =>
    match commOf s l.comm with
    | none => go true 0 s
    | some cm =>
      match collCause s cm op l src dst with
      | some x => bad x.1 (x.2.base.toNat % 2 ^ 40)
      | none => if op = 6 then collCinch (go true 1 s) c seq cm l src dst else go true 1 (collStart s c seq cm op l src dst)

/-- A remote instruction, which needs a tag of its core to issue (R75, R215). -/
def needsTag (k : MoveKind) (dst : Desc) : Bool :=
  match k with
  | .rget | .rput => true
  | .atom _ => dst.space == 2
  | _ => false

/-- Take the wait of a move (R34, R35, R62). -/
def takeWait (s : State) (c : CoreId) (i : AInstr) (m : MoveOp) : Option State :=
  let k := s.core c
  if !m.we || k.access.popped then some s
  else
    match k.popEq m.wq m.wtok with
    | .wait => none
    | .order => some (accessFault s c i codeStreamStall 7 fun r => { r with carried := m.wtok, doneTok := if m.de then m.dtok else 0 })
    | .taken k1 => some (s.updCore c fun _ => { k1 with access := { k1.access with popped := true } })

/-- Try to issue the instruction at the head: none while it is held. -/
def tryIssue (s : State) (c : CoreId) (i : AInstr) : Option State :=
  let a := (s.core c).access
  -- a WAITF in flight holds the stream (R70); a 33rd instruction waits (R54)
  if (a.flights.any fun f => match f.instr with | .waitf _ _ _ => true | _ => false) || 32 ≤ a.flights.length then none
  else
    match i with
    | .setd f => some (updAccess s c fun a => { a.passed with desc := a.desc.set f.d (Desc.ofSetd f) })
    | .advd d restore disp => some (updAccess s c fun a => { a.passed with desc := vmod a.desc d (·.advance restore disp) })
    | .loop count body => some (updAccess s c fun a =>
        { a with waiting := a.waiting.tail, index := a.index + 1,
                 loops := { first := a.index + 1, last := a.index + 1 + body.toNat, left := count.toNat } :: a.loops })
    | .budg n => some (updAccess s c fun a => { a.passed with budget := n })
    | .fence => if a.flights.isEmpty then some (updAccess s c Access.passed) else none
    | .push f =>
      let d := a.desc[f.reg]
      let e : Entry := if f.form1 then { token := f.token, base := f.base, length := f.length } else d.entry f.token
      let cause := if f.form1 then pushCause (spadOpen s) f.base.toNat (f.length.toNat + 1) else spadCause (spadOpen s) d
      match (if f.token = 0 then some (3, 0) else cause) with
      | some x => some (accessFault s c i codeSpadRange x.1 (raddr x.2))
      | none =>
        let s1 := updAccess s c fun a =>
          { a.passed with flights := a.flights ++ [{ newFlight a i { noMove with dq := f.q } e [] false 0 with moved := true, done := true, pushDue := true }],
                          nextSeq := a.nextSeq + 1 }
        some (s1.updCore c Core.settlePushes)
    | .pop q t =>
      match (s.core c).popEq q t with
      | .wait => none
      | .order => some (accessFault s c i codeStreamStall 7 fun r => { r with carried := t })
      | .taken k1 => some (s.updCore c fun _ => { k1 with access := k1.access.passed })
    | .waitf eq src value =>
      let d := a.desc[src]
      let n := d.start.toNat
      match (if d.start < 0 then some 0x10 else hbmCause s n 4 false (n % 4 == 0)) with
      | some x => some (accessFault s c i codeHbmRange x (raddr (d.base.toNat % 2 ^ 40)))
      | none =>
        let w := read32 s n
        let p := hbmPoisoned s n 4
        let s1 := if p then { s with flt := { s.flt with badFlagReads := bump s.flt.badFlagReads } } else s
        if !p && (if eq then w = value else value ≤ w) then some (updAccess s1 c Access.passed)
        else some (fly s1 c i noMove { token := 0, base := BitVec.ofNat 23 0, length := 0 } [] true 1)
    | .move k m =>
      match takeWait s c i m with
      | none => none
      | some s1 =>
        if (s1.core c).access.stopped then some s1
        else
          let a1 := (s1.core c).access
          let src := a1.desc[m.src]
          let dst := a1.desc[m.dst]
          let hold := interlocked a1 (moveRanges k m src dst a1.desc[m.aux]) ||
            (needsTag k dst && 384 ≤ coreTags s1 c) ||
            (match k with | .coll op _ => op == 6 && !a1.flights.isEmpty | _ => false)
          if hold then (if a1.popped == a.popped then none else some s1) else some (issueMove s1 c k m)

/-- Issue in program order as far as the stream can go. A move that has taken its wait and is held stays at the head. -/
def advance : Nat → State → CoreId → State
  | 0, s, _ => s
  | fuel + 1, s, c =>
    let a := (s.core c).access
    if a.stopped then s
    else
      match a.waiting with
      | [] => s
      | i :: _ =>
        match tryIssue s c i with
        | none => s
        | some t => advance fuel t c

/-- Go on with a core's access stream. -/
def advanceAll (s : State) (c : CoreId) : State := advance (2 * (s.core c).access.waiting.length + 2) s c

/-- An instruction reaches the access stream of a core that runs a segment. -/
def accessCommand (s : State) (c : CoreId) (i : AInstr) : State :=
  let k := s.core c
  if k.running.isSome && !k.access.stopped then
    advanceAll (updAccess s c fun a => { a with waiting := a.waiting ++ [i] }) c
  else s

/-- The flight of a waiting WAITF, read again (R70, R352). -/
def pollFlag (s : State) (c : CoreId) (f : Flight) (eq : Bool) (src : Fin 16) (value : W32) : State :=
  let n := (s.core c).access.desc[src].start.toNat
  let s1 := if hbmPoisoned s n 4 then { s with flt := { s.flt with badFlagReads := bump s.flt.badFlagReads } } else s
  if !hbmPoisoned s n 4 && (if eq then read32 s n = value else value ≤ read32 s n) then
    advanceAll (updAccess s1 c fun a => { a with flights := a.flights.filter (·.seq ≠ f.seq) }) c
  else s1

/-- An instruction in flight reaches completion: its done push falls due, or it leaves; after a stop the push is dropped
(R62, R77). -/
def completeFlight (s : State) (c : CoreId) (seq : Nat) : State :=
  let a := (s.core c).access
  match a.flights.find? (·.seq == seq) with
  | none => s
  | some f =>
    if f.done || f.open_ ≠ 0 then s
    else if a.stopped then settleFault (updAccess s c fun a => { a with flights := a.flights.filter (·.seq ≠ seq) }) c
    else if !f.pushes then advanceAll (updAccess s c fun a => { a with flights := a.flights.filter (·.seq ≠ seq) }) c
    else
      let s1 := updAccess s c fun a =>
        { a with flights := a.flights.map fun g => if g.seq = seq then { g with moved := true, done := true, pushDue := true } else g }
      advanceAll (s1.updCore c Core.settlePushes) c

/-! ## The meanings -/

/-- SETD (R56). -/
def execSetd (core : CoreId) (f : SetdOp) (s : State) : Host.Outcome State Fault Refusal := .next (accessCommand s core (.setd f))

/-- ADVD (R59). -/
def execAdvd (core : CoreId) (d : Fin 16) (restore : Bool) (disp : W32) (s : State) : Host.Outcome State Fault Refusal :=
  .next (accessCommand s core (.advd d restore disp))

/-- LOOP (R60). -/
def execLoop (core : CoreId) (count : W16) (body : BitVec 10) (s : State) : Host.Outcome State Fault Refusal :=
  .next (accessCommand s core (.loop count body))

/-- BUDG (R71). -/
def execBudg (core : CoreId) (budget : W32) (s : State) : Host.Outcome State Fault Refusal := .next (accessCommand s core (.budg budget))

/-- FENCE (R72). -/
def execFence (core : CoreId) (s : State) : Host.Outcome State Fault Refusal := .next (accessCommand s core .fence)

/-- PUSH (R69, R33, R34). -/
def execPush (core : CoreId) (f : PushOp) (s : State) : Host.Outcome State Fault Refusal := .next (accessCommand s core (.push f))

/-- POP (R69, R34, R35). -/
def execPop (core : CoreId) (q : Fin 4) (token : Token) (s : State) : Host.Outcome State Fault Refusal :=
  .next (accessCommand s core (.pop q token))

/-- WAITF (R70). -/
def execWaitf (core : CoreId) (eq : Bool) (src : Fin 16) (value : W32) (s : State) : Host.Outcome State Fault Refusal :=
  .next (accessCommand s core (.waitf eq src value))

/-- A waiting WAITF reads its flag again (R70, R352). -/
def execWaitfPoll (core : CoreId) (s : State) : Host.Outcome State Fault Refusal :=
  .next (match (s.core core).access.flights.findSome? (fun f => match f.instr with | .waitf e r v => some (f, e, r, v) | _ => none) with
    | some (f, e, r, v) => if (s.core core).access.stopped then s else pollFlag s core f e r v
    | none => s)

/-- LDH (R63). -/
def execLdh (core : CoreId) (m : MoveOp) (s : State) : Host.Outcome State Fault Refusal := .next (accessCommand s core (.move .ldh m))

/-- STH (R63). -/
def execSth (core : CoreId) (m : MoveOp) (s : State) : Host.Outcome State Fault Refusal := .next (accessCommand s core (.move .sth m))

/-- MOVS (R64). -/
def execMovs (core : CoreId) (m : MoveOp) (s : State) : Host.Outcome State Fault Refusal := .next (accessCommand s core (.move .movs m))

/-- GATH (R65). -/
def execGath (core : CoreId) (m : MoveOp) (s : State) : Host.Outcome State Fault Refusal := .next (accessCommand s core (.move .gath m))

/-- SCAT (R65). -/
def execScat (core : CoreId) (m : MoveOp) (s : State) : Host.Outcome State Fault Refusal := .next (accessCommand s core (.move .scat m))

/-- RGET (R63, R75). -/
def execRget (core : CoreId) (m : MoveOp) (s : State) : Host.Outcome State Fault Refusal := .next (accessCommand s core (.move .rget m))

/-- RPUT (R63, R75). -/
def execRput (core : CoreId) (m : MoveOp) (s : State) : Host.Outcome State Fault Refusal := .next (accessCommand s core (.move .rput m))

/-- ATOM (R66). -/
def execAtom (core : CoreId) (m : MoveOp) (op : BitVec 4) (s : State) : Host.Outcome State Fault Refusal :=
  .next (accessCommand s core (.move (.atom op) m))

/-- LAND (R67). -/
def execLand (core : CoreId) (m : MoveOp) (l : LandOp) (s : State) : Host.Outcome State Fault Refusal :=
  .next (accessCommand s core (.move (.land l) m))

/-- COLL RS (R232, R237). -/
def execCollRs (core : CoreId) (m : MoveOp) (c : CollOp) (s : State) : Host.Outcome State Fault Refusal :=
  .next (accessCommand s core (.move (.coll 0 c) m))

/-- COLL AG (R232, R237). -/
def execCollAg (core : CoreId) (m : MoveOp) (c : CollOp) (s : State) : Host.Outcome State Fault Refusal :=
  .next (accessCommand s core (.move (.coll 1 c) m))

/-- COLL AR (R232, R237). -/
def execCollAr (core : CoreId) (m : MoveOp) (c : CollOp) (s : State) : Host.Outcome State Fault Refusal :=
  .next (accessCommand s core (.move (.coll 2 c) m))

/-- COLL A2AV (R233). -/
def execCollA2av (core : CoreId) (m : MoveOp) (c : CollOp) (s : State) : Host.Outcome State Fault Refusal :=
  .next (accessCommand s core (.move (.coll 3 c) m))

/-- COLL BCAST (R243). -/
def execCollBcast (core : CoreId) (m : MoveOp) (c : CollOp) (s : State) : Host.Outcome State Fault Refusal :=
  .next (accessCommand s core (.move (.coll 4 c) m))

/-- COLL MCAST (R243). -/
def execCollMcast (core : CoreId) (m : MoveOp) (c : CollOp) (s : State) : Host.Outcome State Fault Refusal :=
  .next (accessCommand s core (.move (.coll 5 c) m))

/-- COLL CINCH (R247). -/
def execCollCinch (core : CoreId) (m : MoveOp) (c : CollOp) (s : State) : Host.Outcome State Fault Refusal :=
  .next (accessCommand s core (.move (.coll 6 c) m))

/-- An instruction in flight reaches completion (R53, R62). -/
def execAccessCompletion (core : CoreId) (seq : Nat) (s : State) : Host.Outcome State Fault Refusal :=
  .next (completeFlight s core seq)

/-- What a STREAM_STALL of a remote instruction records (R77, R345): its cause, and the fields of the wait. -/
def stallRecord (s : State) (c : CoreId) (f : Flight) (elapsed : W32) : Nat × (Record → Record) :=
  let tok : Token := match f.instr with | .move _ m => if m.de then m.dtok else 0 | _ => 0
  match f.instr with
  | .waitf _ src _ =>
    let n := (s.core c).access.desc[src].start.toNat
    (0, fun r => { r with cycle := elapsed, addr := BitVec.ofNat 40 n, value := read32 s n })
  | .move (.coll op l) _ =>
    let lost := match commOf s l.comm, findCinch s l.comm with
      | some k, some n => if op = 6 then cinchMissing s k n else []
      | _, _ => []
    (2, fun r => { r with cycle := elapsed, doneTok := tok, comm := l.comm.zeroExtend 16,
                          value := if op = 6 then ((findCinch s l.comm).map (·.cseq)).getD 0 else l.chunk.zeroExtend 32,
                          missing := (lost.map (BitVec.ofNat 16)).take 7, missingN := BitVec.ofNat 16 lost.length })
  | .move (.land _) _ => (8, fun r => { r with cycle := elapsed, doneTok := tok })
  | .move _ _ => (1, fun r => { r with cycle := elapsed, doneTok := tok, chip := f.chip })
  | _ => (1, id)

/-- The wait of an armed instruction runs out of budget (R71): it leaves the stream's flights, its packets keep their own
outcomes (R77), and STREAM_STALL is raised, unless another outcome of the same tick comes first (R75). An instruction that waits at issue for a tag is the next sequence number (R75). -/
def execBudgetExpiry (core : CoreId) (seq : Nat) (elapsed : W32) (s : State) : Host.Outcome State Fault Refusal :=
  .next <| if outcomeNow s core seq then s else
    let a := (s.core core).access
    match a.flights.find? fun f => f.seq == seq && f.armed && !f.done && f.open_ ≠ 0 with
    | some f =>
      let r := stallRecord s core f elapsed
      -- a COLL CINCH is no longer resent (R246)
      let s1 := { s with coll := { s.coll with cinches := s.coll.cinches.filter (·.kind ≠ .coll core seq) } }
      flightFault s1 core f codeStreamStall r.1 r.2
    | none =>
      match a.waiting with
      | .move k m :: _ =>
        if seq = a.nextSeq && !a.stopped && needsTag k a.desc[m.dst] && 384 ≤ coreTags s core then
          accessFault s core (.move k m) codeStreamStall 1 fun r =>
            { r with cycle := elapsed, doneTok := if m.de then m.dtok else 0, chip := remoteChip a (.move k m) }
        else s
      | _ => s

end Sys2Proof.Machine
end

