-- ==== Sys2Proof/Machine/Skiver.lean ====
section
/-! DEFINITION. The skiver's conversions and block scales (R110–R113), and the lanes' use of the awl (R97, R115). -/

namespace Sys2Proof.Machine

/-- An element converted: its bits, whether it was clamped (R110), whether its block's scale makes it NaN (R102). -/
structure Conv where
  bits : W32
  sat : Bool
  nan : Bool
deriving DecidableEq, Repr

/-- |y| exceeds the largest finite value of a format. -/
def beyond (f : FloatFmt) (m : Nat) (e : Int) : Bool :=
  match decodeMag f false f.maxBits with
  | .fin _ mm me => !magLe m e mm me
  | _ => false

/-- Conversion to a floating-point format with saturation at M (R110). -/
def convFloat (f : FloatFmt) (rm : Rounding) (y : Num) : Conv :=
  match y with
  | .nan => ⟨BitVec.ofNat 32 f.nanBits, false, false⟩
  | .inf neg =>
    match f.top with
    | .ieee => ⟨BitVec.ofNat 32 (signBit f neg + (2 ^ f.ebits - 1) * 2 ^ f.mbits), false, false⟩
    | _ => ⟨BitVec.ofNat 32 f.nanBits, false, false⟩
  | .fin neg m e =>
    if !f.signed && neg then ⟨0, m ≠ 0, false⟩
    else if beyond f m e then ⟨BitVec.ofNat 32 (signBit f neg + f.maxBits), true, false⟩
    else ⟨BitVec.ofNat 32 (signBit f neg + roundMag f rm m e), false, false⟩

/-- Rounding to an integer, then clamping to [lo, hi] (R111). -/
def convInt (rm : Rounding) (y : Num) (lo hi : Int) (bits : Nat) : Conv :=
  match y with
  | .fin neg m e =>
    let n : Int := roundTo rm m e 0
    let v := if neg then -n else n
    let c := max lo (min hi v)
    ⟨(BitVec.ofInt bits c).zeroExtend 32, decide (c ≠ v), false⟩
  | _ => ⟨0, false, false⟩

/-- M and k of R112 for a block format's elements, as the magnitude M = mm · 2^me. -/
def blockLimit (fmt : BitVec 4) : Nat × Int × Int :=
  match fmt.toNat with
  | 0x6 => (28, 0, 4)
  | 0x7 => (6, 0, 2)
  | 0x9 => (32767, -15, -1)
  | 0xA => (114688, 0, 16)
  | _ => (448, 0, 8)

/-- The larger magnitude of two finite values. -/
def maxMag (a b : Nat × Int) : Nat × Int := if magLe a.1 a.2 b.1 b.2 then b else a

/-- The scale byte of a block (R112). -/
def blockScale (fmt : BitVec 4) (ys : List Num) : Byte :=
  if ys.any (fun y => !y.isFinite) then 0xFF
  else
    let a := (ys.filterMap fun y => match y with | .fin _ m e => some (m, e) | _ => none).foldl maxMag (0, 0)
    if a.1 = 0 then 0
    else
      let lim := blockLimit fmt
      let x0 := (log2 a.1 : Int) + a.2 - lim.2.2
      let x := if magLe a.1 (a.2 - x0) lim.1 lim.2.1 then x0 else x0 + 1
      BitVec.ofInt 8 (max 0 (min 254 (x + 127)))

/-- An element of a block under its scale (R112 step 5); a block with scale 0xFF has zero elements (R110). -/
def convBlockElem (fmt : BitVec 4) (scale : Byte) (rm : Rounding) (y : Num) : Conv :=
  if scale = 0xFF then ⟨0, false, true⟩
  else
    let z := y.scale (127 - (scale.toNat : Int))
    if fmt = 0x9 then
      match z with
      | .fin neg m e =>
        let n : Int := roundTo rm m (e + 15) 0
        let c := min 32767 n
        ⟨(BitVec.ofInt 16 (if neg then -c else c)).zeroExtend 32, !magLe m e 32767 (-15), false⟩
      | _ => ⟨0, false, false⟩
    else
      match floatOf fmt with
      | some f => convFloat f rm z
      | none => ⟨0, false, false⟩

/-- Conversion of one element to a format without block scales, from float or INT32 values (R111). -/
def convScalar (fmt : BitVec 4) (rm : Rounding) (y : Num) : Conv :=
  match floatOf fmt with
  | some f => convFloat f rm y
  | none => if fmt = 0xB then convInt rm y (-2147483648) 2147483647 32 else convInt rm y (-128) 127 8

/-- The rounding of element i of a conversion: to nearest even, or under the awl at base + i modulo 2^40 (R97, R113, R115). -/
def laneRounding (rnd : Bool) (seed : W64) (step : W32) (l : AwlLane) (i : Nat) : Rounding :=
  if rnd then .stoch (awl seed step l.tid ((l.idx.toNat + i) % 2 ^ 40)) else .rne

/-- The places of an output's elements in block order: as they stand, or along the columns of each plane of rows × cols (R88, R92). -/
def blockOrder (axis : Bool) (rows cols n : Nat) : List Nat :=
  if axis then
    (List.range (n / max 1 (rows * cols))).flatMap fun p => (transpose rows cols 0 (List.range (rows * cols))).map (· + p * (rows * cols))
  else List.range n

/-- The place of output element i in block order. -/
def blockIndex (axis : Bool) (rows cols i : Nat) : Nat :=
  if axis then i / (rows * cols) * (rows * cols) + i % cols * rows + i % (rows * cols) / cols else i

/-- The scales of a block-format output, block by block in block order (R88, R112). -/
def blockScales (fmt : BitVec 4) (axis : Bool) (rows cols : Nat) (ys : List Num) : List Byte :=
  let b := blockSize fmt
  if b = 0 then []
  else
    let ord := (blockOrder axis rows cols ys.length).map fun i => ys.getD i .nan
    (chunksOf b (ys.length / b + 1) ord).map (blockScale fmt)

/-- Insert by rising key. -/
def insertKey {α : Type} (x : Nat × α) : List (Nat × α) → List (Nat × α)
  | [] => [x]
  | y :: l => if x.1 < y.1 then x :: y :: l else y :: insertKey x l

/-- The scale array: the blocks in the order of their first elements, dimension 0 fastest (R102; log entry 91). -/
def outScales (fmt : BitVec 4) (axis : Bool) (rows cols n : Nat) (scales : List Byte) : List Byte :=
  if axis then
    let firsts := (chunksOf (blockSize fmt) (n / max 1 (blockSize fmt) + 1) (blockOrder axis rows cols n)).map (·.headD 0)
    ((firsts.zip scales).foldr insertKey []).map (·.2)
  else scales

/-- A skiver lane's conversion of a list of values in output order (R88, R110–R113): the elements and the scale array. `rows` and
`cols` are the extents of the first two dimensions, which axis 1 runs down. -/
def skive (fmt : BitVec 4) (axis : Bool) (rows cols : Nat) (rnd : Bool) (seed : W64) (step : W32) (l : AwlLane)
    (ys : List Num) : List Conv × List Byte :=
  let scales := blockScales fmt axis rows cols ys
  (ys.zipIdx.map fun yi =>
      let rm := laneRounding rnd seed step l yi.2
      if blockSize fmt = 0 then convScalar fmt rm yi.1
      else convBlockElem fmt (scales.getD (blockIndex axis rows cols yi.2 / blockSize fmt) 0) rm yi.1,
   outScales fmt axis rows cols ys.length scales)

/-- The output value of a converted element is a zero: an element of a block with scale 0xFF is NaN, whatever its bits (R102, R116). -/
def Conv.isZero (fmt : BitVec 4) (c : Conv) : Bool :=
  !c.nan && match floatOf fmt with
    | some f => (decodeFloat f c.bits.toNat).isZero
    | none => c.bits == 0

/-- Count converted elements into a set (R116). -/
def censusAll (fmt : BitVec 4) (ys : List Num) (cs : List Conv) (p : Bool) (k : Census) : Census :=
  (ys.zip cs).foldl (fun k yc => k.add yc.1 yc.2.sat (yc.2.isZero fmt) p) k

/-- The lane's index moves on by the elements it converted stochastically (R97, R115). -/
def AwlLane.advance (l : AwlLane) (rnd : Bool) (n : Nat) : AwlLane :=
  if rnd then { l with idx := l.idx + BitVec.ofNat 40 n } else l

end Sys2Proof.Machine
end

