-- ==== Sys2Proof/Machine/Engines.lean ====
section
/-! DEFINITION. What the engines compute (R92–R94, R104–R109, R119): products, vector operations, row statistics. -/

namespace Sys2Proof.Machine

/-! ## Functions with a bounded error (R119)

The exact result, rounded to FP32, is computed in fixed point of 256 fractional bits; how far from it the engine's
own result lies, within the bound that R119 gives, is free (log entry 9). -/

/-- ⌊ln 2 · 2^256⌋. -/
def ln2Fix : Nat := 0xb17217f7d1cf79abc9e3b39803f2f6af40f343267298b62d8a0d175b8baafa2b

/-- e^x as (E, k), E · 2^(k − 256), for x = ±m · 2^e with e ≥ −256; |x| counts up to 1,024, far beyond the range of FP32. -/
def expFix (neg : Bool) (m : Nat) (e : Int) : Nat × Int :=
  let a : Int := min (m * 2 ^ (e + 256).toNat) (1024 * 2 ^ 256)
  let x : Int := if neg then -a else a
  let k := x / ln2Fix
  let r := (x - k * ln2Fix).toNat
  ((List.range 64).foldr (fun i acc => 2 ^ 256 + acc * r / ((i + 1) * 2 ^ 256)) (2 ^ 256), k)

def expNum : Num → Num
  | .nan => .nan
  | .inf neg => if neg then .fin false 0 0 else .inf false
  | .fin neg m e => match expFix neg m e with
    | (x, k) => .fin false x (k - 256)

/-- ln of m · 2^e for m ≠ 0, by the series of artanh about 1. -/
def lnNum (m : Nat) (e : Int) : Num :=
  let l := log2 m
  let y0 := m * 2 ^ (256 - l)
  let y := if 2 * y0 > 3 * 2 ^ 256 then y0 / 2 else y0
  let k : Int := e + l + (if 2 * y0 > 3 * 2 ^ 256 then 1 else 0)
  let z : Int := ((y : Int) - 2 ^ 256) * 2 ^ 256 / (y + 2 ^ 256)
  let z2 := (z * z / 2 ^ 256).toNat
  let t : Nat := (List.range 64).foldr (fun i acc => 2 ^ 256 / (2 * i + 1) + acc * z2 / 2 ^ 256) 0
  let v := 2 * z * t / 2 ^ 256 + k * ln2Fix
  .fin (decide (v < 0)) v.natAbs (-256)

/-- σ(x) = e^x / (1 + e^x) of a finite x. -/
def sigNum (x : Num) : Num := (expNum x).div ((Num.fin false 1 0).add (expNum x))

/-- b · (σ(a) + a · σ(a) · (1 − σ(a))) = b · e^a · (1 + e^a + a) / (1 + e^a)² of a finite a (R92). -/
def dsiluNum (a b : Num) : Num :=
  let q := (Num.fin false 1 0).add (expNum a)
  b.mul (((expNum a).mul (q.add a)).div (q.mul q))

/-- A result at most n units in the last place from `r`: which one is free. -/
def ulpFree (n free : Nat) (r : W32) : W32 :=
  let m : Int := (r.toNat % 2 ^ 31 : Nat)
  let o := (if r.getLsbD 31 then -m else m) + (free % (2 * n + 1) : Nat) - n
  let mag := min o.natAbs 0x7F800000
  BitVec.ofNat 32 (if o < 0 || (o = 0 && r.getLsbD 31) then 2 ^ 31 + mag else mag)

/-- The free part of function `fn` at x. -/
def transcFree (fn : Nat) (x : W32) : Nat := (Config.transc fn x).toNat

def vRcp (x : W32) : W32 :=
  match f32 x with
  | .fin _ m _ => if m = 0 then fdiv 0x3F800000 x else ulpFree 1 (transcFree 0 x) (fdiv 0x3F800000 x)
  | _ => fdiv 0x3F800000 x

def vRsq (x : W32) : W32 :=
  match f32 x with
  | .fin neg m _ => if m = 0 || neg then frsq x else ulpFree 1 (transcFree 1 x) (frsq x)
  | _ => frsq x

/-- e^x; `fn` says which engine's (VOP EXP or RST). -/
def vExp (fn : Nat) (x : W32) : W32 :=
  match f32 x with
  | .nan => nan32
  | .inf neg => if neg then 0 else 0x7F800000
  | .fin neg m e => if !neg && 0x42B17218 ≤ x.toNat then 0x7F800000 else ulpFree 2 (transcFree fn x) (toF32 (expNum (.fin neg m e)))

def vSig (x : W32) : W32 :=
  match f32 x with
  | .nan => nan32
  | .inf neg => if neg then 0 else 0x3F800000
  | y => ulpFree 3 (transcFree 3 x) (toF32 (sigNum y))

def vSilu (x : W32) : W32 :=
  match f32 x with
  | .nan => nan32
  | .inf neg => if neg then 0x80000000 else 0x7F800000
  | y => ulpFree 4 (transcFree 4 x) (toF32 (y.mul (sigNum y)))

def vDsilu (a b : W32) : W32 :=
  match f32 a with
  | .nan => nan32
  | .inf neg => if neg then fmul b 0 else toF32 (f32 b)
  | y =>
    let r := toF32 (dsiluNum y (f32 b))
    if finite32 b then ulpFree 6 (Config.transc2 a b).toNat r else r

def vLn (x : W32) : W32 :=
  match f32 x with
  | .nan => nan32
  | .inf neg => if neg then nan32 else 0x7F800000
  | .fin neg m e => if m = 0 then 0xFF800000 else if neg then nan32 else ulpFree 2 (transcFree 5 x) (toF32 (lnNum m e))

/-! ## Vector operations (R92) -/

/-- An element-wise operation on FP32 values; a, b and c are src0, src1 and src2. -/
def vopElem (op : Nat) (a b c : W32) : W32 :=
  match op with
  | 0x00 => toF32 (f32 a)
  | 0x01 => fadd a b
  | 0x02 => fsub a b
  | 0x03 => fmul a b
  | 0x04 => ffma a b c
  | 0x05 => fmax a b
  | 0x06 => fmin a b
  | 0x07 => vExp 2 a
  | 0x08 => vRcp a
  | 0x09 => vRsq a
  | 0x0A => vSilu a
  | 0x0B => vDsilu a b
  | 0x0C => vSig a
  | 0x0D => if (f32 c).isZero then toF32 (f32 b) else toF32 (f32 a)
  | 0x10 => fmul a (fsub b c)
  | _ => toF32 (f32 a)

/-- Left-to-right fold of a row (R92, R119). -/
def foldRow (f : W32 → W32 → W32) : List W32 → W32
  | [] => 0
  | x :: xs => xs.foldl f (toF32 (f32 x))

def rowOp (op : Nat) (row : List W32) : W32 := if op = 0x0E then foldRow fadd row else foldRow fmax row

/-- A broadcast operand's value at row and column (R92). -/
def bcast (bc : Nat) (es : List W32) (cols i : Nat) : W32 :=
  match bc with
  | 1 => es.getD (i / cols) 0
  | 2 => es.getD (i % cols) 0
  | _ => es.getD i 0

/-- The FP32 results of a vector operation in output order. -/
def vopAll (op bc : Nat) (imm : W32) (cols n : Nat) (a b c : List W32) : List W32 :=
  if op = 0x0E || op = 0x0F then (chunksOf cols (a.length + 1) a).map (rowOp op)
  else (List.range n).map fun i =>
    vopElem op (a.getD i 0) (if bc = 3 then imm else bcast bc b cols i) (if op = 0x10 then bcast 1 c cols i else bcast bc c cols i)

/-! ## Row statistics (R93) -/

/-- SMS: the running maximum and sum of a row of scaled scores. The scaled old sum is formed first and the terms are added to it
from left to right, each sum rounded: R93 gives the formula and not the places of its roundings (log entry 94). -/
def rstSms (start : Bool) (w0 w1 imm : W32) (row : List W32) : W32 × W32 :=
  let m := if start then 0xFF800000 else w0
  let l := if start then 0 else w1
  let sx := row.map (fmul imm)
  let m' := sx.foldl fmax m
  if f32 m' == .inf true then (m', 0)
  else (m', sx.foldl (fun acc x => fadd acc (vExp 6 (fsub x m'))) (fmul l (vExp 6 (fsub m m'))))

def rstSmf (w0 w1 : W32) : W32 := fadd w0 (vLn w1)

def rstSmp (lse imm : W32) (row : List W32) : List W32 :=
  if f32 lse == .inf true then row.map fun _ => 0 else row.map fun x => vExp 6 (fsub (fmul imm x) lse)

def nat32 (n : Nat) : W32 := toF32 (ofInt n)

def rstNms (imm : W32) (row : List W32) : W32 × W32 :=
  let k := row.headD 0
  let r := row.foldl (fun (p : W32 × W32) x => let d := fsub x k; (fadd p.1 d, ffma d d p.2)) (0, 0)
  let n := nat32 row.length
  let m := fdiv r.1 n
  let var := fmax (fsub (fdiv r.2 n) (fmul m m)) 0
  (fadd k m, vRsq (fadd var imm))

def rstRms (imm : W32) (row : List W32) : W32 × W32 :=
  let q := row.foldl (fun q x => ffma x x q) 0
  (0, vRsq (fadd (fdiv q (nat32 row.length)) imm))

/-- RDT: sums run left to right. Each product is rounded before it is added, and the sum begins at the first product and not at +0:
R93 gives neither (log entry 94). -/
def rstRdt (a b : List W32) : W32 × W32 :=
  (foldRow fadd ((a.zip b).map fun p => fmul p.1 p.2), foldRow fadd a)

/-! ## Matrix products (R105–R109) -/

/-- Dot width of an operand format (R105). -/
def dotWidth (fmt : BitVec 4) : Nat :=
  match fmt.toNat with
  | 0x1 | 0x2 => 8
  | 0x9 => 4
  | 0x7 => 32
  | _ => 16

/-- Group size (R105). -/
def groupSize (fmt : BitVec 4) : Nat :=
  match fmt.toNat with
  | 0x1 | 0x2 => 8
  | 0x9 => 4
  | _ => 16

/-- An exact value truncated toward zero to a multiple of 2^q, as that multiple. -/
def truncTo (neg : Bool) (m : Nat) (e q : Int) : Int :=
  let n : Nat := if q ≤ e then m * 2 ^ (e - q).toNat else m / 2 ^ (q - e).toNat
  if neg then -n else n

/-- The sum of one group of floating-point products (R107). -/
def groupSum (ps : List Num) : W32 :=
  let hasNan := ps.any (fun p => p == .nan)
  let posInf := ps.any (fun p => p == .inf false)
  let negInf := ps.any (fun p => p == .inf true)
  if hasNan || (posInf && negInf) then nan32
  else if posInf then 0x7F800000
  else if negInf then 0xFF800000
  else
    match ps.filterMap Num.ilog with
    | [] => if ps.all (fun p => match p with | .fin neg _ _ => neg | _ => false) && !ps.isEmpty then 0x80000000 else 0
    | x :: xs =>
      let q := xs.foldl max x - 48
      let t : Int := (ps.map fun p => match p with | .fin neg m e => truncTo neg m e q | _ => (0 : Int)).sum
      if t = 0 then 0 else toF32 (.fin (decide (t < 0)) t.natAbs q)

/-- The sum of one group of INT8 products (R109). -/
def groupInt (ps : List (Int × Int)) : Int := (ps.map fun p => p.1 * p.2).sum

def clamp32 (v : Int) : W32 := BitVec.ofInt 32 (max (-2147483648) (min 2147483647 v))

/-- A group sum enters a slot element (R108): first of a start, or added. -/
def accFloat (acc : BitVec 4) (first : Bool) (v : W64) (g : W32) : W64 :=
  if acc = 0xC then
    let p := if first then (g, 0) else pairAdd (v.setWidth 32, (v >>> 32).setWidth 32) g
    p.1.zeroExtend 64 ||| (p.2.zeroExtend 64 <<< 32)
  else (if first then g else fadd (v.setWidth 32) g).zeroExtend 64

/-- An INT32 element after a group sum, clamped (R109); bit 32 stays set once the element has been clamped (R116). -/
def accInt (first : Bool) (v : W64) (g : Int) : W64 :=
  let x : Int := if first then g else (v.setWidth 32).toInt + g
  (clamp32 x).zeroExtend 64 ||| if (clamp32 x).toInt ≠ x || (!first && v.getLsbD 32) then 4294967296 else 0

/-- Values padded with zero products to whole groups (R86, R105). -/
def groupsOf {α : Type} (n : Nat) (z : α) (l : List α) : List (List α) :=
  (chunksOf n (l.length + 1) l).map fun g => padTo n z g

/-- One slot element after a product of depth K: `a` and `b` along K (R105–R108). -/
def dotFloat (acc : BitVec 4) (n : Nat) (start : Bool) (v : W64) (a b : List Num) : W64 :=
  ((groupsOf n (Num.fin false 0 0) ((a.zip b).map fun p => p.1.mul p.2)).zipIdx).foldl
    (fun w g => accFloat acc (start && g.2 = 0) w (groupSum g.1)) v

def dotInt (start : Bool) (v : W64) (a b : List Int) : W64 :=
  ((groupsOf 16 (0, 0) (a.zip b)).zipIdx).foldl (fun w g => accInt (start && g.2 = 0) w (groupInt g.1)) v

/-- The values of a matrix operand by (line, k): `kFast` when K is contiguous in storage. `lines` is M or N; scales stand
in the order of the blocks' first elements, blocks along K (R86, R102). -/
def operandValues (fmt : BitVec 4) (kFast : Bool) (lines K : Nat) (es : List W32) (scales : List W32) : List (List Num) :=
  let bs := blockSize fmt
  (List.range lines).map fun l => (List.range K).map fun k =>
    let e := es.getD (if kFast then l * K + k else k * lines + l) 0
    if bs = 0 then rawValue fmt e
    else
      let i := if kFast then l * (K / bs) + k / bs else k / bs * lines + l
      scaledValue fmt e ((scales.getD i 0).setWidth 8)

def operandInts (kFast : Bool) (lines K : Nat) (es : List W32) : List (List Int) :=
  (List.range lines).map fun l => (List.range K).map fun k =>
    ((es.getD (if kFast then l * K + k else k * lines + l) 0).setWidth 8).toInt

/-- The slot after a product (R85, R105–R109), rows of N in order. -/
def product (e : Engine) (f : MmaOp) (old : List W64) (a b as bs : List W32) : List W64 :=
  let K := f.k.toNat + 1
  if e.acc = 0xB then
    let av := operandInts (!f.ta) e.m K a
    let bv := operandInts f.tb e.n K b
    (av.zipIdx).flatMap fun r => (bv.zipIdx).map fun c => dotInt (!f.cont) (old.getD (r.2 * e.n + c.2) 0) r.1 c.1
  else
    let av := operandValues f.fa (!f.ta) e.m K a as
    let bv := operandValues f.fb f.tb e.n K b bs
    (av.zipIdx).flatMap fun r => (bv.zipIdx).map fun c =>
      dotFloat e.acc (groupSize f.fa) (!f.cont) (old.getD (r.2 * e.n + c.2) 0) r.1 c.1

/-! ## Slots (R104, R110) -/

/-- The exact value of a slot element: FP32, hi + lo of a pair, or INT32. -/
def slotValue (acc : BitVec 4) (v : W64) : Num :=
  if acc = 0xC then (f32 (v.setWidth 32)).add (f32 ((v >>> 32).setWidth 32))
  else if acc = 0xB then ofInt (v.setWidth 32).toInt
  else f32 (v.setWidth 32)

/-- A slot element that R109 has clamped. -/
def slotClamped (acc : BitVec 4) (v : W64) : Bool := acc == 0xB && v.getLsbD 32

/-- A tree sum enters a slot (R90, R108). The trees carry FP32, and R90 gives no TACC into an INT32 slot: it runs as into an FP32 slot
and leaves the bits of the FP32 sum there (log entry 93). -/
def acceptSum (acc : BitVec 4) (start : Bool) (old : List W64) (sum : List W32) : List W64 :=
  (sum.zipIdx).map fun x => accFloat acc start (old.getD x.2 0) x.1

/-! ## Trees (R47) -/

/-- An input of a tree: a tile with the poison of every element's line, or nothing from a bypassed member. -/
abbrev TreeIn := Option (List (W32 × Bool))

/-- One node: an add with one rounding, poisoned where one of its terms is, a bypass where one side takes no part; the flag of R128. -/
def treeNode (a b : TreeIn × Bool) : TreeIn × Bool :=
  match a.1, b.1 with
  | some x, some y =>
    let r := (x.zip y).map fun p => ((fadd p.1.1 p.2.1, p.1.2 || p.2.2), overflowed p.1.1 p.2.1 (fadd p.1.1 p.2.1))
    (some (r.map (·.1)), a.2 || b.2 || r.any (·.2))
  | some x, none => (some x, a.2 || b.2)
  | none, y => (y, a.2 || b.2)

/-- ((0 + 1) + (2 + 3)) + ((4 + 5) + (6 + 7)) (R47). -/
def tree8 (x : Fin 8 → TreeIn × Bool) : TreeIn × Bool :=
  treeNode (treeNode (treeNode (x 0) (x 1)) (treeNode (x 2) (x 3))) (treeNode (treeNode (x 4) (x 5)) (treeNode (x 6) (x 7)))

end Sys2Proof.Machine
end

