-- ==== Sys2Proof/Machine/Landing.lean ====
section
/-! DEFINITION. Landings (R127, R130, R148–R151): block counters, checks, application, parking, and when a window or a
held group's second pass becomes ready (R151, R160). -/

namespace Sys2Proof.Machine

def groupOf (s : State) (i : BitVec 12) : Option Group := s.upd.groups.find? (·.idx == i)

/-! ## Places in a landing (R148) -/

def Group.headerAt (g : Group) (k : Nat) : Nat := g.lbase + 32 + 544 * k

/-- The counter of block `b` of the group, 64 elements a block. -/
def Group.counterAt (g : Group) (b : Nat) : Nat := g.headerAt (b / 256) + 2 * (b % 256)

def Group.partialAt (g : Group) (k i : Nat) : Nat := g.headerAt k + 512 + 8 * i

/-- The gradient of owned element e. -/
def Group.gradAt (g : Group) (e : Nat) : Nat := g.lbase + g.headBytes + e / 16384 * g.gradPitch + 4 * (e % 16384)

/-- The direction of owned element e of a held group. -/
def Group.dirAt (g : Group) (e : Nat) : Nat := g.gradAt e + 65536

def counter (s : State) (g : Group) (b : Nat) : Nat := readLe s (g.counterAt b) 2

def blocksOf (first n : Nat) : List Nat := (List.range (n / 64)).map (· + first / 64)

/-! ## The checks and outcomes of R149 -/

def overlaps (a n b m : Nat) : Bool := a < b + m && b < a + n

/-- A landing of this micro-batch has been made or is parked on some block of the range. -/
def duplicateLanding (s : State) (g : Group) (mb first n : Nat) : Bool :=
  (blocksOf first n).any (fun b => mb < counter s g b) ||
    s.upd.parked.any fun p => p.group == g.idx && p.mb == mb && overlaps first n p.first p.data.length

/-- The cause that refuses a landing (R149, R204). -/
def landingCause (s : State) (g : Group) (l : Landing) : Option Nat :=
  let n := l.data.length
  if l.first % 64 ≠ 0 || n % 64 ≠ 0 then some 0x15
  else if g.elements < l.first + n then some 0x16
  else if g.mbcount ≤ l.mb then some 0x16
  else if duplicateLanding s g l.mb l.first n then some 0x17
  else none

def landingReady (s : State) (g : Group) (l : Landing) : Bool :=
  (blocksOf l.first l.data.length).all fun b => counter s g b == l.mb

/-- A window is ready when every counter of its blocks equals mbcount (R151). -/
def windowReady (s : State) (g : Group) (k : Nat) : Bool :=
  (List.range (g.winElems k / 64)).all fun b => counter s g (256 * k + b) == g.mbcount

/-- Queue a pass once. -/
def queuePass (s : State) (p : Pass) : State := { s with upd := { s.upd with queue := s.upd.queue ++ [p] } }

/-- Apply a landing (R127, R149, R349): values written for micro-batch 0, added with one rounding otherwise; every counter
moves on; windows that become ready are queued for their first or only pass (R160). -/
def applyLanding (s : State) (g : Group) (l : Landing) : State :=
  let bs := blocksOf l.first l.data.length
  let s1 := bs.zipIdx.foldl (fun t b =>
    let at_ := g.gradAt (64 * b.1)
    let new := (l.data.drop (64 * b.2)).take 64
    let old := (List.range 64).map fun i => (read32 t (at_ + 4 * i), hbmPoisoned t (at_ + 4 * i) 4)
    let sum := if l.mb = 0 then new else (old.zip new).map fun x => (fadd x.1.1 x.2.1, x.1.2 || x.2.2)
    let ov := l.mb ≠ 0 && (old.zip new).any fun x => overflowed x.1.1 x.2.1 (fadd x.1.1 x.2.1)
    let t1 := hbmPut (orOverflow t ov) at_ (sum.flatMap fun x => (leBytes 4 x.1.toNat).map fun b => (b, x.2))
    storeHbm t1 (g.counterAt b.1) (leBytes 2 (l.mb + 1)) false) s
  let ks := (bs.map (· / 256)).eraseDups
  if s.job.aborting then s1
  else (ks.filter (windowReady s1 g)).foldl (fun t k => queuePass t { group := g.idx, window := k, kind := if g.held then 1 else 0, abandoned := false }) s1

/-- Bytes a parked landing takes of its stack's park store (R150). -/
def Landing.parkBytes (l : Landing) : Nat := 4 * l.data.length

/-- The bytes of a park store: the manifest counts MiB (R150, R314). -/
def parkSize (s : State) : Nat := 2 ^ 20 * (s.job.manifest.map (·.park)).getD 0

/-- Its stack's park store has room for a landing (R150). -/
def parkRoom (s : State) (g : Group) (l : Landing) : Bool := s.upd.parkUsed[stackIx g.stack] + l.parkBytes ≤ parkSize s

def parkLanding (s : State) (g : Group) (l : Landing) : State :=
  { s with upd := { s.upd with parked := s.upd.parked ++ [l], parkUsed := vmod s.upd.parkUsed (stackIx g.stack) (· + l.parkBytes) },
           mem := { s.mem with parked := bump s.mem.parked } }

def unpark (s : State) (i : Nat) (g : Group) (l : Landing) : State :=
  { s with upd := { s.upd with parked := s.upd.parked.eraseIdx i, parkUsed := vmod s.upd.parkUsed (stackIx g.stack) (· - l.parkBytes) } }

def dropLanding (s : State) (i : Nat) : State := { s with upd := { s.upd with landings := s.upd.landings.eraseIdx i } }

/-- A landing refused for park room waits at its source (R150). -/
def refuseLanding (s : State) (i : Nat) : State :=
  { s with upd := { s.upd with landings := modifyAt s.upd.landings i fun l => { l with refused := true } },
           mem := { s.mem with parkRefused := bump s.mem.parkRefused } }

/-! ## Norm records and control blocks (R146, R148, R160) -/

/-- The sided region of a stack (R141). -/
def sidedOf (s : State) (k : Nat) : Option Region := s.mem.regions.find? fun r => r.sided && r.stack.val == k

def normTable (s : State) (viaW : Bool) : Nat :=
  match sidedOf s 0, s.job.manifest with
  | some r, some m => (if viaW then r.wbase else r.base) + m.ntab
  | _, _ => 0

def normRecord (s : State) (g : Group) (viaW : Bool) : Nat := normTable s viaW + 64 + 32 * g.idx.toNat

def ctlDone (s : State) (g : Group) : W32 := read32 s g.lbase
def ctlRelease (s : State) (g : Group) : W32 := read32 s (g.lbase + 4)
def ctlPass1 (s : State) (g : Group) : W32 := read32 s (g.lbase + 8)

/-- Every active group has completed the current step's update (R161). -/
def updatesDone (s : State) : Bool := s.upd.groups.all fun g => g.rule == 0 || ctlDone s g == s.job.step

/-- A held group's second pass becomes ready (R160): rec_w.un2 is read once, and every window's second pass queued. -/
def secondReady (s : State) (g : Group) : State :=
  if g.held && ctlPass1 s g == s.job.step && ctlRelease s g == s.job.step && !s.upd.second.any (·.1 == g.idx) && !s.job.aborting then
    let s1 := { s with upd := { s.upd with second := s.upd.second ++
      [(g.idx, read32 s (normRecord s g true + 4), hbmPoisoned s (normRecord s g true + 4) 4)] } }
    (List.range g.windows).foldl (fun t k => queuePass t { group := g.idx, window := k, kind := 2, abandoned := false }) s1
  else s

end Sys2Proof.Machine
end

