-- ==== Sys2Proof/Machine/Execute.lean ====
section
/-! DEFINITION. The execute stream (R79–R99): issue in execute cycles, timing windows and their checks, chain links, tile
slots, the engines' effects, tokens, awl and census. -/

namespace Sys2Proof.Machine

/-! ## Names and records (R79, R344) -/

def XInstr.opcode : XInstr → Nat
  | .setx _ => 0x01 | .advx _ _ _ => 0x02 | .loopx _ _ => 0x03 | .waitc _ => 0x04 | .pushe _ => 0x08 | .pope _ _ => 0x09
  | .mma _ => 0x10 | .drn _ => 0x18 | .tacc _ => 0x19 | .vop _ => 0x20 | .rst _ => 0x28 | .xps _ => 0x30
  | .awls _ _ _ => 0x38 | .cenf _ _ _ => 0x39

/-- The unit code of R344. -/
def XInstr.unit : XInstr → Nat
  | .mma f => f.eng.val | .drn f => f.eng.val | .tacc f => f.eng.val | .vop _ => 3 | .rst _ => 4 | .xps _ => 5 | _ => 0

/-- The unit whose windows an instruction shares (R83): product units 0–2, vector 3, row statistics 4, transposer 5, drain
ports 8–10; 7 for control. -/
def XInstr.port : XInstr → Nat
  | .mma f => f.eng.val | .drn f => 8 + f.eng.val | .vop _ => 3 | .rst _ => 4 | .xps _ => 5 | _ => 7

def execRecord (x : Execute) (i : XInstr) (code : W16) (cause : Nat) : Record :=
  { Record.blank with code := code, cause := BitVec.ofNat 8 cause, source := 1, instr := BitVec.ofNat 16 x.index,
                      opcode := BitVec.ofNat 8 i.opcode, unit := BitVec.ofNat 8 i.unit }

def updExec (s : State) (c : CoreId) (f : Execute → Execute) : State := s.updCore c fun k => { k with exec := f k.exec }

/-- A CHAIN_SLIP names what its rule names: the link (R39), or the unit, the range or the slot of R84. -/
def slipFault (s : State) (c : CoreId) (p : Slip) : State :=
  streamFaultAt s c p.cycle
    { Record.blank with
      code := codeChainSlip, cause := BitVec.ofNat 8 p.cause, source := 1, instr := BitVec.ofNat 16 p.index, opcode := BitVec.ofNat 8 p.opcode,
      other := BitVec.ofNat 16 p.other, offset := BitVec.ofInt 8 (max (-128) (min 127 p.offset)), cycle := BitVec.ofNat 32 p.cycle,
      unit := BitVec.ofNat 8 ((if p.cause = 3 || p.cause = 5 then p.unit else 0) +
                16 * (match p.link with | some l => l.val + 1 | none => 0)),
      addr := BitVec.ofNat 40 p.addr, slot := BitVec.ofNat 5 p.slot }

/-! ## Census in beats (R98, R116) -/

/-- Count the beats that have left their lanes before a cycle. -/
def Core.flushBeats (k : Core) (t : Nat) : Core :=
  let due := k.exec.beats.filter fun b => b.1 < t
  { k with census := due.foldl (fun cs b => vmod cs b.2.1 fun z => z.merge b.2.2) k.census,
           exec := { k.exec with beats := k.exec.beats.filter fun b => t ≤ b.1 } }

/-- The beats of a conversion, `per` elements each from cycle `t0`, counted into a set; a non-finite count sets the core's
overflow flag (R98, R118). -/
def Core.countBeats (k : Core) (cen : Bool) (set : Fin 16) (fmt : BitVec 4) (t0 per : Nat) (ys : List Num) (cs : List Conv) (p : Bool) : Core :=
  if cen then
    let bs := (chunksOf per (ys.length + 1) (ys.zip cs)).zipIdx.map fun b =>
      (t0 + b.2, set, censusAll fmt (b.1.map (·.1)) (b.1.map (·.2)) p Census.reset)
    { k with exec := { k.exec with beats := k.exec.beats ++ bs }, overflow := k.overflow || ys.any fun y => !y.isFinite }
  else k

/-! ## Windows and the checks at issue (R83, R84, R95) -/

/-- What an instruction asks of the shared resources at its issue: the registers whose extents are checked, its scratchpad
accesses, the slot whose products must have ended, the beats it places, the links it samples with the format and the
elements it expects, and its outputs with the first cycle and the elements a cycle of their writes. -/
structure Plan where
  busy : Nat
  regs : List Desc
  accesses : List (Range × Nat × Nat)
  slot : Option (Fin 3 × Nat)
  out : Option (Fin 4 × Nat × Nat)
  inp : List (Fin 4 × BitVec 4 × Option Nat)
  writes : List (Desc × Nat × Nat)
deriving DecidableEq, Repr

def Plan.none : Plan := { busy := 1, regs := [], accesses := [], slot := .none, out := .none, inp := [], writes := [] }

def maxOf (l : List (Nat × Nat × Nat)) : Option (Nat × Nat × Nat) :=
  l.foldl (fun b x => match b with | some y => if y.1 < x.1 then some x else some y | none => some x) none

/-- Unit, overlap, slot and link, in the order of R84, with how early the instruction comes. -/
def windowSlip (k : Core) (i : XInstr) (p : Plan) (t : Nat) : Option Slip :=
  let ws := k.exec.windows
  let mk (cause : Nat) (x : Nat × Nat × Nat) (slot : Nat) : Slip :=
    { cause := cause, offset := -(x.1 : Int), cycle := t, index := k.exec.index, opcode := i.opcode, unit := i.unit, other := x.2.1,
      link := none, addr := x.2.2, slot := slot }
  let unit := maxOf (ws.filterMap fun w => if i.port ≠ 7 && w.unit = i.port && t < w.freeAt then some (w.freeAt - t, w.index, 0) else none)
  let ov := maxOf (ws.flatMap fun w => w.accesses.flatMap fun a => p.accesses.filterMap fun b =>
    if t ≤ a.2.2 && (b.1.write || a.1.write) then (b.1.meet a.1).map fun x => (a.2.2 + 1 - t, w.index, x) else none)
  let slot : Option (Nat × Nat × Nat) := match p.slot with
    | some (e, n) => maxOf (ws.filterMap fun (w : Window) => if w.slot = some (e, n) && t < w.readyAt then some (w.readyAt - t, w.index, n) else none)
    | none => none
  match unit, ov, slot with
  | some x, _, _ => some (mk 3 x 0)
  | none, some x, _ => some (mk 4 x 0)
  | none, none, some x => some (mk 5 (x.1, x.2.1, 0) x.2.2)
  | none, none, none =>
    match p.out with
    | some (l, first, n) =>
      match k.exec.trains.find? fun (q : Train) => q.link = l && first < q.first + q.count && q.first < first + n with
      | some q => some { cause := 6, offset := 0, cycle := t, index := k.exec.index, opcode := i.opcode, unit := i.unit, other := q.producer,
                         link := some l, addr := 0, slot := 0 }
      | none => none
    | none => none

/-- The cycle in which a receiver gets the first beat: a transposer takes a drain's beats earlier (R95). -/
def Train.firstFor (q : Train) (i : XInstr) : Nat := match i with | .xps _ => q.first - q.early | _ => q.first

/-- The train a receiver that issues at cycle t samples. -/
def trainAt (k : Core) (i : XInstr) (l : Fin 4) (t : Nat) : Option Train :=
  k.exec.trains.find? fun q => q.link = l && q.firstFor i ≤ t && t < q.firstFor i + q.count

/-- The checks of a link that a receiver samples from its issue (R38, R95), in the first mismatched cycle; a beat that goes unsampled
names no receiver (R39) (log entry 36). -/
def linkSlip (k : Core) (i : XInstr) (t : Nat) (x : Fin 4 × BitVec 4 × Option Nat) : Option Slip :=
  let mk (cause : Nat) (off : Int) (cyc other : Nat) : Slip :=
    { cause := cause, offset := off, cycle := cyc, index := if off ≤ 0 then k.exec.index else 0xFFFF, opcode := if off ≤ 0 then i.opcode else 0,
      unit := if off ≤ 0 then i.unit else 0, other := other, link := some x.1, addr := 0, slot := 0 }
  match trainAt k i x.1 t with
  | none => some (mk 0 (-1) t (((k.exec.trains.find? fun q => q.link = x.1).map (·.producer)).getD 0xFFFF))
  | some q =>
    if q.sampled then some (mk 2 0 t q.producer)
    else if q.firstFor i < t then some (mk 1 1 (q.firstFor i) q.producer)
    else if q.fmt ≠ x.2.1 then some (mk 7 0 t q.producer)
    else
      match x.2.2 with
      | none => none
      | some n =>
        let beats := (n + q.per - 1) / max 1 q.per
        if q.count < beats then some (mk 0 (-1) (t + q.count) q.producer)
        else if beats < q.count then some (mk 1 1 (t + beats) q.producer)
        else none

/-- A slip comes before another: by its cycle, an invalid sample in the cycle before a beat left at its end (R38). -/
def Slip.before (a b : Slip) : Bool := a.cycle < b.cycle || (a.cycle == b.cycle && a.offset ≤ 0 && 0 < b.offset)

/-- The first of some slips. -/
def earliest (l : List Slip) : Option Slip :=
  l.foldl (fun b x => match b with | some y => if x.before y then some x else some y | none => some x) none

/-- The slip of a beat whose cycle passes unsampled (R38): offset +1, no receiver. -/
def Train.late (q : Train) : Slip :=
  { cause := 1, offset := 1, cycle := q.first, index := 0xFFFF, opcode := 0, unit := 0, other := q.producer, link := some q.link, addr := 0, slot := 0 }

/-- The first slip that stops the stream before an instruction issues in a cycle: a beat whose first cycle has passed unsampled, or
the mismatch of a receiver that has issued (R38, R39). -/
def lateSlip (k : Core) (t : Nat) : Option Slip :=
  earliest (((k.exec.trains.filter fun q => !q.sampled && q.first < t).map Train.late) ++
    k.exec.due.filter fun x => x.cycle < t || (x.cycle == t && x.offset ≤ 0))

/-- Windows and beats that can no longer matter at a cycle. -/
def Execute.prune (x : Execute) (t : Nat) : Execute :=
  { x with windows := x.windows.filter fun w => t < w.freeAt || t < w.readyAt || w.accesses.any fun a => t ≤ a.2.2,
           trains := x.trains.filter fun q => !q.sampled || t < q.first + q.count }

/-- The position after an instruction issued at cycle `t`; the next delta counts from `base`. After a WAITC that is because of
its own wait, also where it ends the body of a LOOPX (R80; log entry 92). -/
def Execute.passed (x : Execute) (t base : Nat) : Execute :=
  let n := loopNext x.index x.loops
  { x with index := n.1, loops := n.2, waiting := x.waiting.tail, cycle := t, base := base, held := false }

/-- A free number of cycles. -/
def freeCycles (n : Nat) : W64 := ((Config.freeValue n).setWidth 16).zeroExtend 64

/-- The counters of a core whose stream reaches execute cycle `t`: execute cycles, and by cause the CMP cycles of the holds up to then
(R31). How many those were is free (log entry 98); a queue that was not ready has held at least one, and no halving holds where none is in force. -/
def Core.countCycles (k : Core) (free : Nat) (halving : Bool) (t : Nat) : Core :=
  { k with execCycles := k.execCycles + BitVec.ofNat 64 (t - k.exec.cycle), holdConflict := k.holdConflict + freeCycles free,
           holdToken := if k.exec.held then k.holdToken + 1 + freeCycles (free + 1) else k.holdToken,
           holdHalving := if halving then k.holdHalving + freeCycles (free + 2) else k.holdHalving }

/-- A core whose execute stream has issued an instruction in cycle `t`, the next delta counting from `base` (R80). -/
def Core.passedX (k : Core) (free : Nat) (halving : Bool) (t base : Nat) : Core :=
  { k.countCycles free halving t with exec := k.exec.passed t base }

/-- A core's stream has issued an instruction in cycle `t`. -/
def State.passes (s : State) (c : CoreId) (f : Core → Core) (t base : Nat) : State :=
  { s.updCore c (fun k => (f k).passedX s.free s.pwr.halving t base) with free := s.free + 3 }

def passX (s : State) (c : CoreId) (t : Nat) : State := s.passes c id t t

/-- Record the windows of an instruction, and mark the trains it samples. -/
def Core.openWindow (k : Core) (i : XInstr) (p : Plan) (t readyAt : Nat) (slot : Option (Fin 3 × Nat)) (half : Bool) : Core :=
  let w : Window := { index := k.exec.index, unit := i.port, issue := t, freeAt := if i.port = 7 then 0 else t + p.busy,
                      accesses := p.accesses, slot := slot, readyAt := readyAt, half := half,
                      writes := p.writes.flatMap fun x => k.undo x.1 x.2.1 x.2.2 }
  { k with exec := { k.exec with
      windows := k.exec.windows ++ [w],
      trains := k.exec.trains.map fun q =>
        if p.inp.any (fun x => x.1 = q.link) && q.firstFor i ≤ t && t < q.firstFor i + q.count then { q with sampled := true } else q } }

/-! ## Operands (R81) -/

def Core.xdesc (k : Core) (f : BitVec 5) : Option Desc := match opnd f with | .reg r => some k.exec.desc[r] | _ => none

def regsOf (k : Core) (fs : List (BitVec 5)) : List Desc := fs.filterMap k.xdesc

/-- The elements of an operand with their poison: a register's, or the beats of the train it samples. -/
def Core.operand (k : Core) (i : XInstr) (t : Nat) (f : BitVec 5) : List W32 × Bool :=
  match opnd f with
  | .reg r => readElems k k.exec.desc[r]
  | .link l => match trainAt k i l t with | some q => (q.elems, q.poison) | none => ([], false)
  | .none => ([], false)

/-- Beats and format of the train an operand samples. -/
def Core.opBeats (k : Core) (i : XInstr) (t : Nat) (f : BitVec 5) : Option Train :=
  match opnd f with | .link l => trainAt k i l t | _ => none

def linkIn (f : BitVec 5) (fmt : BitVec 4) (n : Option Nat) : List (Fin 4 × BitVec 4 × Option Nat) :=
  match opnd f with | .link l => [(l, fmt, n)] | _ => []

/-- The writes of the registers that some fields name. -/
def putsAt (k : Core) (fs : List (BitVec 5)) (first per : Nat) : List (Desc × Nat × Nat) := (regsOf k fs).map fun d => (d, first, per)

/-- The writes of a scale array beside beats of `per` elements (R88). -/
def scalePuts (k : Core) (fmt : BitVec 4) (sc : BitVec 5) (first per : Nat) : List (Desc × Nat × Nat) :=
  if blockSize fmt = 0 then [] else putsAt k [sc] first (max 1 (per / blockSize fmt))

def accR (ds : List Desc) (a b : Nat) : List (Range × Nat × Nat) := ds.map fun d => (d.range false, a, b)
def accW (ds : List Desc) (a b : Nat) : List (Range × Nat × Nat) := ds.map fun d => (d.range true, a, b)

/-- FP32 values of elements in a format (R92): exact widening, NaN canonical. -/
def widen (fmt : BitVec 4) (es : List W32) : List W32 := es.map fun e => toF32 (rawValue fmt e)

def Core.formatOf (k : Core) (i : XInstr) (t : Nat) (f : BitVec 5) : BitVec 4 :=
  match opnd f with
  | .reg r => k.exec.desc[r].format
  | .link l => match trainAt k i l t with | some q => q.fmt | none => 0
  | .none => 0

/-! ## MMA (R83, R85, R86) -/

def aligned64 (d : Desc) : Bool := d.base.toNat % 64 == 0 && d.stride1.toNat % 64 == 0 && d.stride2.toNat % 64 == 0 && d.stride3.toNat % 64 == 0

/-- A transposing feed runs at half rate when a stored row does not start on a 64-byte boundary (R24, R126). -/
def halfRate (k : Core) (f : MmaOp) : Bool :=
  (f.ta && (match k.xdesc f.a with | some d => !aligned64 d | none => false)) ||
    (f.tb && (match k.xdesc f.b with | some d => !aligned64 d | none => false))

/-- D of R83. -/
def mmaDepth (k : Core) (f : MmaOp) : Nat :=
  let e := k.engines[f.eng]
  let d := e.m / 32 * (e.n / 16) * ((f.k.toNat + 1 + dotWidth f.fa - 1) / dotWidth f.fa)
  if halfRate k f then 2 * d else d

/-- ℓ of R83. -/
def mmaLoad (k : Core) (f : MmaOp) (t : Nat) : Nat :=
  max ((k.opBeats (.mma f) t f.a).elim 0 (·.count)) ((k.opBeats (.mma f) t f.b).elim 0 (·.count))

def mmaPlan (k : Core) (f : MmaOp) (t : Nat) : Plan :=
  let e := k.engines[f.eng]
  let K := f.k.toNat + 1
  let busy := mmaLoad k f t + mmaDepth k f
  { busy := busy, regs := regsOf k [f.a, f.b, f.as, f.bs], accesses := accR (regsOf k [f.a, f.b, f.as, f.bs]) t (t + busy - 1),
    slot := if f.cont then some (f.eng, f.slot.toNat) else none, out := none,
    inp := linkIn f.a f.fa (some (e.m * K)) ++ linkIn f.b f.fb (some (e.n * K)), writes := [] }

def Slot.stateAt (v : Slot) (t : Nat) : SlotState :=
  match v.st with | .draining _ (some n) => if n ≤ t then .free else v.st | st => st

def Core.slotAt (k : Core) (e : Fin 3) (n : Nat) : Slot := k.engines[e].slots.getD n Slot.reset

def Core.setSlot (k : Core) (e : Fin 3) (n : Nat) (v : Slot) : Core :=
  { k with engines := vmod k.engines e fun g => { g with slots := modifyAt g.slots n fun _ => v } }

def slotCode : SlotState → BitVec 2 | .free => 0 | .owned _ => 1 | .draining _ _ => 2
def slotOwner : SlotState → Token | .free => 0 | .owned t => t | .draining t _ => t

/-- TILE_CONFLICT (R42, R43): the instruction has no effect. -/
def tileFault (s : State) (c : CoreId) (i : XInstr) (t : Nat) (slot : BitVec 5) (st : SlotState) (cause : Nat) (own : Token) : State :=
  streamFaultAt s c t { execRecord (s.core c).exec i codeTileConflict cause with
    slot := slot, cycle := BitVec.ofNat 32 t, slotState := slotCode st, owner := slotOwner st, carried := own }

def doMma (s : State) (c : CoreId) (f : MmaOp) (t : Nat) : State :=
  let k := s.core c
  let p := mmaPlan k f t
  let i := XInstr.mma f
  let v := k.slotAt f.eng f.slot.toNat
  let st := v.stateAt t
  if !f.cont && st ≠ .free then tileFault s c i t f.slot st 0 f.own
  else if f.cont && st ≠ .owned f.own then tileFault s c i t f.slot st 1 f.own
  else
    let ready := t + p.busy + (if halfRate k f then 12 else 6)
    let a := k.operand i t f.a
    let b := k.operand i t f.b
    let as := k.operand i t f.as
    let bs := k.operand i t f.bs
    let acc := product k.engines[f.eng] f v.acc a.1 b.1 as.1 bs.1
    let poison := a.2 || b.2 || as.2 || bs.2 || (f.cont && v.poison)
    let k1 := (k.openWindow i p t ready (some (f.eng, f.slot.toNat)) (halfRate k f)).setSlot f.eng f.slot.toNat
      { st := .owned f.own, acc := acc, poison := poison, readyAt := ready }
    passX (s.updCore c fun _ => { k1 with mmaBusy := vmod k1.mmaBusy f.eng (· + BitVec.ofNat 64 p.busy) }) c t

/-! ## DRN (R83, R87–R89) -/

def drnBeats (k : Core) (f : DrnOp) : Nat := (k.engines[f.eng].m * k.engines[f.eng].n + 255) / 256

/-- A drain that issues while its engine runs a half-rate product takes the half-rate latency (R95). -/
def drnHalf (k : Core) (f : DrnOp) (t : Nat) : Bool := k.exec.windows.any fun w => w.unit = f.eng.val && w.half && t < w.freeAt

def drnLat (k : Core) (f : DrnOp) (t : Nat) : Nat := if drnHalf k f t then 18 else 9

def drnPlan (k : Core) (f : DrnOp) (t : Nat) : Plan :=
  let B := drnBeats k f
  let L := drnLat k f t
  let w := regsOf k ((if f.dest = 0 then [f.out] else []) ++ (if blockSize f.fmt = 0 then [] else [f.sc]))
  { busy := B, regs := w, accesses := if f.dest = 0 then accW w (t + L) (t + L + B - 1) else [], slot := some (f.eng, f.slot.toNat),
    out := if f.dest = 1 then (match opnd f.out with | .link l => some (l, t + L, B) | _ => none) else none, inp := [],
    writes := (if f.dest = 0 then putsAt k [f.out] (t + L) 256 else []) ++ scalePuts k f.fmt f.sc (t + L) 256 }

def stepSeed (s : State) : W64 := (s.job.manifest.map (·.seed)).getD 0

/-- Write block scales to their register (R88). -/
def Core.writeScales (k : Core) (f : BitVec 5) (scales : List Byte) (p : Bool) : Core :=
  match k.xdesc f with
  | some d => if scales.isEmpty then k else writeElems k d (scales.map (·.zeroExtend 32)) p
  | none => k

def memberOf (c : CoreId) : Nat := c.val % 8
def clusterOf (c : CoreId) : Fin 8 := ⟨c.val / 8, by omega⟩

/-- What refuses a destination-4 drain at issue: its range, or a landing of its micro-batch already made (R67, R88). -/
def drnLandBad (s : State) (f : DrnOp) (n : Nat) : Option Nat :=
  match s.upd.groups.find? (·.idx == f.commGroup) with
  | none => some 0x16
  | some g =>
    if g.elements < f.offset.toNat + n then some 0x16
    else if duplicateLanding s g f.chunkMb.toNat f.offset.toNat n then some 0x17 else none

/-- DRN. R42 frees a released slot in the cycle after the last beat enters the tree output half and R95 gives no latency toward a
tree: the beats enter the half, and count into the census, from the issue cycle on (R89; log entry 95). -/
def doDrn (s : State) (c : CoreId) (f : DrnOp) (t : Nat) : State :=
  let k := s.core c
  let p := drnPlan k f t
  let i := XInstr.drn f
  let e := k.engines[f.eng]
  let v := k.slotAt f.eng f.slot.toNat
  let st := v.stateAt t
  let n := e.m * e.n
  match st with
  | .owned own =>
    match (if f.dest = 4 then drnLandBad s f n else none) with
    | some x => streamFaultAt s c t { execRecord k.exec i codeHbmRange x with addr := BitVec.ofNat 40 f.offset.toNat }
    | none =>
      let L := drnLat k f t
      let B := drnBeats k f
      let lane := k.lanes[(⟨f.eng.val, by omega⟩ : Fin 4)]
      let ys := v.acc.map fun x => (slotValue e.acc x).scale f.exp.toInt
      let cv := skive f.fmt f.axis e.m e.n f.rnd (stepSeed s) s.job.step lane ys
      let bits := cv.1.map (·.bits)
      let k1 := k.openWindow i p t 0 none false
      let cs := (cv.1.zip v.acc).map fun x => { x.1 with sat := x.1.sat || slotClamped e.acc x.2 }
      let k2 := k1.countBeats f.cen f.set f.fmt (if 2 ≤ f.dest.toNat then t else t + L) 256 ys cs v.poison
      let k3 := { k2 with lanes := vmod k2.lanes (⟨f.eng.val, by omega⟩ : Fin 4) (·.advance f.rnd n) }
      let k4 := k3.writeScales f.sc cv.2 v.poison
      let free := if 2 ≤ f.dest.toNat then t + B else t + L + B
      let k5 := k4.setSlot f.eng f.slot.toNat { v with st := if f.rel then .draining own (some free) else .owned own }
      let k6 := match f.dest.toNat with
        | 0 => match k5.xdesc f.out with | some d => writeElems k5 d bits v.poison | none => k5
        | 1 =>
          match opnd f.out with
          | .link l => { k5 with exec := { k5.exec with trains := k5.exec.trains ++
              [{ link := l, first := t + L, count := B, per := 256, fmt := f.fmt, elems := bits, poison := v.poison,
                 early := if drnHalf k f t then 2 else 1, producer := k.exec.index, sampled := false }] } }
          | _ => k5
        | _ =>
          let h : Fin 2 := if f.half then 1 else 0
          let lines := if v.poison then List.range ((n + 15) / 16) else []
          { k5 with halves := k5.halves.set h { busy := true, drn := some f, data := bits, poison := lines, pushDue := false, index := k.exec.index },
                    overflow := k5.overflow || ys.any fun y => !y.isFinite }
      let s1 := s.updCore c fun _ => k6
      let s2 := if 2 ≤ f.dest.toNat then
          { s1 with coll := { s1.coll with treeSeq := s1.coll.treeSeq + 1 },
                    clusters := vmod s1.clusters (clusterOf c) fun q => { q with trees := q.trees ++
                      [{ core := c, drn := f, index := k.exec.index, order := s1.coll.treeSeq, half := f.half, taken := false,
                         data := bits, poison := [] }] } }
        else s1
      passX s2 c t
  | _ => tileFault s c i t f.slot st 2 0

/-! ## TACC (R90) -/

def doTacc (s : State) (c : CoreId) (f : TaccOp) (t : Nat) : State :=
  let k := s.core c
  let i := XInstr.tacc f
  let v := k.slotAt f.eng f.slot.toNat
  let st := v.stateAt t
  if (!f.cont && st ≠ .free) || (f.cont && st ≠ .owned f.own) then tileFault s c i t f.slot st 3 f.own
  else
    let k1 := k.setSlot f.eng f.slot.toNat { v with st := .draining f.own none }
    passX (s.updCore c fun _ => { k1 with taccs := k1.taccs ++ [{ f := f, index := k.exec.index, pushDue := false }] }) c t

/-! ## VOP (R83, R92) -/

def isRowOp (f : VopOp) : Bool := f.op.toNat == 0x0E || f.op.toNat == 0x0F

/-- A VOP reads its second or third source (R92). -/
def vopNeeds1 (f : VopOp) : Bool := f.bc ≠ 3 && [1, 2, 3, 4, 5, 6, 0xB, 0xD, 0x10].contains f.op.toNat
def vopNeeds2 (f : VopOp) : Bool := [4, 0xD, 0x10].contains f.op.toNat

/-- The length of a row of the operation. -/
def vopCols (k : Core) (f : VopOp) (n : Nat) : Nat :=
  match k.xdesc f.src0, k.xdesc f.dst, k.xdesc (if vopNeeds1 f then f.src1 else 0x1F) with
  | some d, _, _ => d.n0
  | none, some d, some b => if isRowOp f then n else if f.bc = 2 then b.count else d.n0
  | none, some d, none => if isRowOp f then n / max 1 d.count else d.n0
  | none, none, some d => if f.bc = 1 then n / max 1 d.count else if f.bc = 2 then d.count else d.n0
  | none, none, none => n

/-- The elements a VOP reads from its first source, as its own fields give them; none when only links are named. -/
def vopCount (k : Core) (f : VopOp) : Option Nat :=
  match k.xdesc f.src0 with
  | some d => some d.count
  | none =>
    if isRowOp f then none
    else match k.xdesc f.dst with
      | some d => some d.count
      | none => match k.xdesc (if vopNeeds1 f then f.src1 else 0x1F) with
        | some d => if f.bc = 0 then some d.count else none
        | none => none

def vopInputs (f : VopOp) : List (BitVec 5) :=
  f.src0 :: (if vopNeeds1 f then [f.src1] else []) ++ if vopNeeds2 f then [f.src2] else []

def vopTrain (k : Core) (f : VopOp) (t : Nat) : Option Train := (vopInputs f).findSome? (k.opBeats (.vop f) t)

/-- Destination elements. -/
def vopN (k : Core) (f : VopOp) (t : Nat) : Nat :=
  let src := (vopCount k f).getD (((vopTrain k f t).map (·.elems.length)).getD 0)
  if isRowOp f then (match k.xdesc f.dst with | some d => d.count | none => src / max 1 (vopCols k f src)) else src

def is16 (fmt : BitVec 4) : Bool := eltBits fmt == 16

/-- V of R83. -/
def vopBeats (k : Core) (f : VopOp) (t : Nat) : Nat :=
  match vopTrain k f t with
  | some q => q.count
  | none =>
    let n := vopN k f t
    let toLink := match opnd f.dst with | .link _ => true | _ => false
    let narrow := (regsOf k (vopInputs f)).all (fun d => is16 d.format) && is16 f.fmt && !f.conv && !toLink
    if narrow then (n + 511) / 512 else (n + 255) / 256

def vopLat (f : VopOp) : Nat := if f.conv then 7 else 4

def vopOutBeats (k : Core) (f : VopOp) (t : Nat) : Nat × Nat :=
  match vopTrain k f t with
  | some q => (q.count, q.per)
  | none => ((vopN k f t + 255) / 256, 256)

/-- The destination elements a cycle (R83, R92). -/
def vopPer (k : Core) (f : VopOp) (t : Nat) : Nat :=
  match vopTrain k f t with
  | some q => q.per
  | none => if vopBeats k f t * 256 < vopN k f t then 512 else 256

/-- A write window belongs to an output to a register (R83): the scales that go with a link are in time for the receiver that
samples its beats (R92) (log entry 37). -/
def vopPlan (k : Core) (f : VopOp) (t : Nat) : Plan :=
  let V := vopBeats k f t
  let w := regsOf k (f.dst :: if f.conv && blockSize f.fmt ≠ 0 then [f.sc] else [])
  let r := regsOf k (vopInputs f)
  let toReg := match opnd f.dst with | .reg _ => true | _ => false
  { busy := V, regs := r ++ w, slot := none,
    accesses := accR r t (t + V - 1) ++ (if toReg then accW w (t + vopLat f) (t + vopLat f + V - 1) else []),
    out := match opnd f.dst with | .link l => some (l, t + vopLat f, (vopOutBeats k f t).1) | _ => none,
    inp := (vopInputs f).flatMap fun x => linkIn x f.lfmt (vopCount k f),
    writes := putsAt k [f.dst] (t + vopLat f) (vopPer k f t) ++
                if f.conv then scalePuts k f.fmt f.sc (t + vopLat f) (vopPer k f t) else [] }

/-- FP32 results into an output format without the lane: one rounding to nearest even (R92). -/
def plainOut (fmt : BitVec 4) (x : W32) : W32 := BitVec.ofNat 32 (rneBits ((floatOf fmt).getD fp32) (f32 x))

def doVop (s : State) (c : CoreId) (f : VopOp) (t : Nat) : State :=
  let k := s.core c
  let i := XInstr.vop f
  let p := vopPlan k f t
  let a := k.operand i t f.src0
  let b := k.operand i t (if vopNeeds1 f then f.src1 else 0x1F)
  let d := k.operand i t (if vopNeeds2 f then f.src2 else 0x1F)
  let poison := a.2 || b.2 || d.2
  let n := vopN k f t
  let cols := vopCols k f a.1.length
  let r := vopAll f.op.toNat f.bc.toNat f.imm cols n (widen (k.formatOf i t f.src0) a.1) (widen (k.formatOf i t f.src1) b.1)
    (widen (k.formatOf i t f.src2) d.1)
  let lane := k.lanes[(3 : Fin 4)]
  let oc := match k.xdesc f.dst with | some x => (x.n1, x.n0) | none => (1, r.length)
  let ys := r.map f32
  let cv := skive f.fmt f.axis oc.1 oc.2 f.rnd (stepSeed s) s.job.step lane ys
  let bits := if f.conv then cv.1.map (·.bits) else r.map (plainOut f.fmt)
  let k1 := k.openWindow i p t 0 none false
  let k2 := if f.conv then
      let z := k1.countBeats f.cen f.set f.fmt (t + vopLat f) (vopPer k f t) ys cv.1 poison
      ({ z with lanes := vmod z.lanes (3 : Fin 4) (·.advance f.rnd r.length) }).writeScales f.sc cv.2 poison
    else k1
  let k3 := match opnd f.dst with
    | .reg x => writeElems k2 k2.exec.desc[x] bits poison
    | .link l =>
      let ob := vopOutBeats k f t
      { k2 with exec := { k2.exec with trains := k2.exec.trains ++
          [{ link := l, first := t + vopLat f, count := ob.1, per := ob.2, fmt := f.fmt, elems := bits, poison := poison,
             early := 0, producer := k.exec.index, sampled := false }] } }
    | .none => k2
  passX (s.updCore c fun _ => k3) c t

/-! ## RST (R83, R93) -/

def rstN (f : RstOp) : Nat := (f.rows.toNat + 1) * (f.cols.toNat + 1)

def rstBusy (f : RstOp) : Nat := (rstN f + 63) / 64

/-- The modes that read the statistics region: SMS without start, SMF, SMP. -/
def rstReads (f : RstOp) : Bool := (f.mode = 0 && !f.start) || f.mode = 1 || f.mode = 2

/-- The operands a mode reads (R93): SMF reads only the statistics. -/
def rstInputs (f : RstOp) : List (BitVec 5) := (if f.mode = 1 then [] else [f.src0]) ++ (if f.mode = 5 then [f.src1] else [])

def rstPlan (k : Core) (f : RstOp) (t : Nat) : Plan :=
  let b := rstBusy f
  let smp := f.mode = 2
  let r := regsOf k (rstInputs f ++ (if rstReads f then [f.st] else []))
  let st := if smp then [] else regsOf k [f.st]
  let d := if smp then regsOf k [f.dst] else []
  { busy := b, regs := r ++ st ++ d,
    accesses := accR r t (t + b - 1) ++ accW st (t + b + 3) (t + b + 3) ++ accW d (t + 3) (t + b + 2), slot := none,
    out := if smp then (match opnd f.dst with | .link l => some (l, t + 3, b) | _ => none) else none,
    inp := (rstInputs f).flatMap fun x => linkIn x f.lfmt (some (rstN f)),
    writes := if smp then putsAt k [f.dst] (t + 3) 64 else putsAt k [f.st] (t + b + 3) (rstN f) }

/-- The statistics of row r: w0 and w1 (R93). -/
def statAt (k : Core) (d : Desc) (r : Nat) : W32 × W32 :=
  let a := d.start.toNat + r * d.stride1.toNat
  (BitVec.ofNat 32 (leNat (spadRead k a 4)), BitVec.ofNat 32 (leNat (spadRead k (a + 4) 4)))

def rowsOfN (rows cols : Nat) (es : List W32) : List (List W32) := (List.range rows).map fun r => slice es (r * cols) cols

/-- The new statistics of one row. -/
def rstStat (f : RstOp) (old : W32 × W32) (a b : List W32) : W32 × W32 :=
  match f.mode.toNat with
  | 0 => rstSms f.start old.1 old.2 f.imm a
  | 1 => (old.1, rstSmf old.1 old.2)
  | 3 => rstNms f.imm a
  | 4 => rstRms f.imm a
  | 5 => rstRdt a b
  | _ => old

def doRst (s : State) (c : CoreId) (f : RstOp) (t : Nat) : State :=
  let k := s.core c
  let i := XInstr.rst f
  let p := rstPlan k f t
  let a := k.operand i t (if f.mode = 1 then 0x1F else f.src0)
  let b := k.operand i t (if f.mode = 5 then f.src1 else 0x1F)
  let rows := f.rows.toNat + 1
  let cols := f.cols.toNat + 1
  let av := rowsOfN rows cols (widen (k.formatOf i t f.src0) a.1)
  let bv := rowsOfN rows cols (widen (k.formatOf i t f.src1) b.1)
  let st := (k.xdesc f.st).getD Desc.reset
  let stPoison := rstReads f && (st.rows.any fun o => spadPoisoned k (st.start.toNat + o) 8)
  let poison := a.2 || b.2 || stPoison
  let k1 := k.openWindow i p t 0 none false
  let k2 :=
    if f.mode = 2 then
      let r := ((List.range rows).map fun j => rstSmp (statAt k st j).2 f.imm (av.getD j [])).flatten
      -- the engine writes through the vector engine's lane (R23)
      let lane := k1.lanes[(3 : Fin 4)]
      let ys := r.map f32
      let cv := skive f.fmt false rows cols f.rnd (stepSeed s) s.job.step lane ys
      let z := k1.countBeats f.cen f.set f.fmt (t + 3) 64 ys cv.1 poison
      let z1 := { z with lanes := vmod z.lanes (3 : Fin 4) (·.advance f.rnd r.length) }
      let bits := cv.1.map (·.bits)
      match opnd f.dst with
      | .reg x => writeElems z1 z1.exec.desc[x] bits poison
      | .link l => { z1 with exec := { z1.exec with trains := z1.exec.trains ++
          [{ link := l, first := t + 3, count := rstBusy f, per := 64, fmt := f.fmt, elems := bits, poison := poison, early := 0,
             producer := k.exec.index, sampled := false }] } }
      | .none => z1
    else
      (List.range rows).foldl (fun z j =>
        let w := rstStat f (statAt k st j) (av.getD j []) (bv.getD j [])
        spadWrite z (st.start.toNat + j * st.stride1.toNat) (leBytes 4 w.1.toNat ++ leBytes 4 w.2.toNat) poison) k1
  passX (s.updCore c fun _ => k2) c t

/-! ## XPS (R83, R94) -/

def xpsBytes (f : XpsOp) : Nat := (f.rows.toNat + 1) * (f.cols.toNat + 1) * eltBits f.fmt / 8

def xpsPlan (k : Core) (f : XpsOp) (t : Nat) : Plan :=
  let b := (xpsBytes f + 511) / 512
  { busy := b, regs := regsOf k [f.src, f.dst],
    accesses := accR (regsOf k [f.src]) t (t + b - 1) ++ accW (regsOf k [f.dst]) (t + 5) (t + b + 4), slot := none,
    out := match opnd f.dst with | .link l => some (l, t + 5, b) | _ => none,
    inp := linkIn f.src f.fmt (some ((f.rows.toNat + 1) * (f.cols.toNat + 1))),
    writes := putsAt k [f.dst] (t + 5) (4096 / max 1 (eltBits f.fmt)) }

def doXps (s : State) (c : CoreId) (f : XpsOp) (t : Nat) : State :=
  let k := s.core c
  let i := XInstr.xps f
  let a := k.operand i t f.src
  let out := transpose (f.rows.toNat + 1) (f.cols.toNat + 1) 0 a.1
  let k1 := k.openWindow i (xpsPlan k f t) t 0 none false
  let k2 := match opnd f.dst with
    | .reg x => writeElems k1 k1.exec.desc[x] out a.2
    | .link l => { k1 with exec := { k1.exec with trains := k1.exec.trains ++
        [{ link := l, first := t + 5, count := (xpsBytes f + 511) / 512, per := 4096 / max 1 (eltBits f.fmt), fmt := f.fmt, elems := out,
           poison := a.2, early := 0, producer := k.exec.index, sampled := false }] } }
    | .none => k1
  passX (s.updCore c fun _ => k2) c t

/-! ## PUSHE, POPE, CENF (R96, R98) -/

def pusheDesc (k : Core) (f : PushOp) : Desc :=
  if f.form1 then { Desc.reset with base := f.base.zeroExtend 41 } else k.exec.desc[f.reg]

def pusheRange (k : Core) (f : PushOp) : Range :=
  if f.form1 then spanRange f.base.toNat (f.length.toNat + 1) true else k.exec.desc[f.reg].range true

def pusheEntry (k : Core) (f : PushOp) : Entry :=
  if f.form1 then { token := f.token, base := f.base, length := f.length } else k.exec.desc[f.reg].entry f.token

def pusheCause (lim : Nat) (k : Core) (f : PushOp) : Option (Nat × Nat) :=
  if f.token = 0 then some (3, 0)
  else if f.form1 then pushCause lim f.base.toNat (f.length.toNat + 1)
  else spadCause lim k.exec.desc[f.reg]

def cenfPlan (k : Core) (dst : Fin 16) (t : Nat) : Plan :=
  { Plan.none with regs := [k.exec.desc[dst]], accesses := accW [k.exec.desc[dst]] (t + 2) (t + 2),
                   writes := [(k.exec.desc[dst], t + 2, max 1 k.exec.desc[dst].count)] }

/-- CENF: the record of the beats counted so far, then the set is cleared; a poisoned set is consumed (R98, R117, R350). -/
def doCenf (s : State) (c : CoreId) (set : Fin 16) (dst : Fin 16) (tid : BitVec 24) (t : Nat) : State :=
  let k := (s.core c).flushBeats t
  let z := k.census[set]
  let d := k.exec.desc[dst]
  let bs := (censusBytes z tid set.val s.job.step).map fun b => (b, z.poison)
  let k1 := scatterSpad (k.openWindow (.cenf set dst tid) (cenfPlan k dst t) t 0 none false) d bs
  let s1 := s.updCore c fun _ => { k1 with census := k1.census.set set Census.reset }
  passX (if z.poison then consume s1 1 (some c) d.start.toNat else s1) c t

/-! ## Issue (R80, R84, R99) -/

def xPlan (k : Core) (i : XInstr) (t : Nat) : Plan :=
  match i with
  | .mma f => mmaPlan k f t
  | .drn f => drnPlan k f t
  | .tacc f => { Plan.none with slot := some (f.eng, f.slot.toNat) }
  | .vop f => vopPlan k f t
  | .rst f => rstPlan k f t
  | .xps f => xpsPlan k f t
  | .pushe f => { Plan.none with accesses := [(pusheRange k f, t, t)] }
  | .cenf _ dst _ => cenfPlan k dst t
  | _ => Plan.none

/-- The first failed timing check (R84, R38, R95): a window's at issue, else the link mismatch whose cycle comes first. -/
def timingSlip (k : Core) (i : XInstr) (p : Plan) (t : Nat) : Option Slip :=
  match windowSlip k i p t with
  | some x => some x
  | none => earliest (p.inp.filterMap (linkSlip k i t))

/-- A DRN to a tree half that is still busy waits, as its POPE would (R132). -/
def drnHeld (k : Core) (i : XInstr) : Bool :=
  match i with
  | .drn f => 2 ≤ f.dest.toNat && (k.halves[(if f.half then 1 else 0 : Fin 2)]).busy
  | _ => false

/-- The effect of an instruction that has passed the checks of R84. -/
def runX (s : State) (c : CoreId) (i : XInstr) (t : Nat) : Option State :=
  match i with
  | .setx f => some (passX (updExec s c fun x => { x with desc := x.desc.set f.x (Desc.ofSetx f) }) c t)
  | .advx r restore disp => some (passX (updExec s c fun x => { x with desc := vmod x.desc r (·.advance restore disp) }) c t)
  | .loopx count body => some { s.updCore c (fun k => { k.countCycles s.free s.pwr.halving t with
      exec := { k.exec with waiting := k.exec.waiting.tail, cycle := t, base := t, index := k.exec.index + 1, held := false,
                            loops := { first := k.exec.index + 1, last := k.exec.index + 1 + body.toNat, left := count.toNat } :: k.exec.loops } }) with free := s.free + 3 }
  | .waitc n => some (s.passes c id t (t + n.toNat + 1))
  | .pushe f =>
    let k := s.core c
    if 16 ≤ k.eq[f.q].length then none
    else some (passX (s.updCore c fun k => { k with eq := vmod k.eq f.q (· ++ [pusheEntry k f]) }) c t)
  | .pope q tok =>
    match (s.core c).aq[q] with
    | [] => none
    | e :: rest =>
      if e.token = tok then some (passX (s.updCore c fun k => { k with aq := k.aq.set q rest }) c t)
      else some (streamFaultAt s c t { execRecord (s.core c).exec i codeStreamStall 7 with carried := tok })
  | .mma f => some (doMma s c f t)
  | .drn f => some (doDrn s c f t)
  | .tacc f => some (doTacc s c f t)
  | .vop f => some (doVop s c f t)
  | .rst f => some (doRst s c f t)
  | .xps f => some (doXps s c f t)
  | .awls lane tid base => some (passX (s.updCore c fun k => { k with lanes := k.lanes.set lane { seeded := true, tid := tid, idx := base } }) c t)
  | .cenf set dst tid => some (doCenf s c set dst tid t)

/-- The scratchpad check at issue (R27, R33, R73). -/
def xSpadCause (s : State) (k : Core) (i : XInstr) (p : Plan) : Option (Nat × Nat) :=
  match i with
  | .pushe f => pusheCause (spadOpen s) k f
  | _ => spadChecks (spadOpen s) p.regs

/-- Issue the instruction at the head at its cycle; none while the stream holds. A slip of a later cycle lets the instruction run up to
that cycle (R38, R39). Where the range check and a timing check of R84 both fail, the range is reported: R73 and R84 rank neither
(log entry 96). -/
def tryX (s0 : State) (c : CoreId) (delta : W16) (i : XInstr) : Option State :=
  let t := (s0.core c).exec.base + delta.toNat
  match lateSlip (s0.core c) t with
  | some x => some (slipFault s0 c x)
  | none =>
    let s := s0.updCore c fun k => { k.flushBeats t with exec := (k.flushBeats t).exec.prune t }
    let k := s.core c
    let p := xPlan k i t
    if drnHeld k i then none
    else
      match xSpadCause s k i p with
      | some x => some (streamFaultAt s c t { execRecord k.exec i codeSpadRange x.1 with unit := 0, addr := BitVec.ofNat 40 x.2 })
      | none =>
        match timingSlip k i p t with
        | some x => if x.cycle ≤ t then some (slipFault s c x) else runX (updExec s c fun e => { e with due := e.due ++ [x] }) c i t
        | none => runX s c i t

def advanceX : Nat → State → CoreId → State
  | 0, s, _ => s
  | fuel + 1, s, c =>
    let x := (s.core c).exec
    if x.stopped then s
    else
      match x.waiting with
      | [] => s
      | (delta, i) :: _ =>
        match tryX s c delta i with
        | none => updExec s c fun e => { e with held := true }
        | some t => advanceX fuel t c

def advanceXAll (s : State) (c : CoreId) : State := advanceX ((s.core c).exec.waiting.length + 1) s c

/-- An instruction reaches the execute stream of a core that runs a segment. -/
def execCommand (s : State) (c : CoreId) (delta : W16) (i : XInstr) : State :=
  let k := s.core c
  if k.running.isSome && !k.exec.stopped then
    advanceXAll (updExec s c fun x => { x with waiting := x.waiting ++ [(delta, i)] }) c
  else s

/-! ## Release and accept tokens (R89, R90) -/

/-- Push a token of the part's own onto an AQ queue: false while it is full (R34). -/
def Core.pushPart (k : Core) (q : Fin 4) (t : Token) : Core × Bool :=
  if 16 ≤ k.aq[q].length then (k, false)
  else ({ k with aq := vmod k.aq q (· ++ [{ token := t, base := 0, length := 0 }]) }, true)

/-- Push the release token of a half that the tree has taken; the half is free once it is in (R45, R89). -/
def Core.releaseHalf (k : Core) (h : Fin 2) : Core :=
  match k.halves[h].drn with
  | some f =>
    let r := k.pushPart f.q f.rtok
    if r.2 then { r.1 with halves := r.1.halves.set h Half.reset }
    else { k with halves := vmod k.halves h fun x => { x with busy := false, pushDue := true } }
  | none => k

/-- Push the accept token of a TACC whose sum has come. -/
def Core.acceptToken (k : Core) (w : TaccWait) : Core :=
  let r := k.pushPart w.f.q w.f.atok
  if r.2 then { r.1 with taccs := r.1.taccs.filter (· ≠ w) }
  else { k with taccs := k.taccs.map fun x => if x = w then { w with pushDue := true } else x }

/-- Retry the part's own pushes that waited for room. -/
def Core.retryPart (k : Core) : Core :=
  let k1 := if k.halves[(0 : Fin 2)].pushDue then k.releaseHalf 0 else k
  let k2 := if k1.halves[(1 : Fin 2)].pushDue then k1.releaseHalf 1 else k1
  (k2.taccs.filter (·.pushDue)).foldl (fun q w => q.acceptToken w) k2

/-! ## Trees (R47, R89–R91) -/

/-- The uses of a tree identifier in progress on one cluster. -/
def treePending (s : State) (cl : Fin 8) (op : Byte) (chip : Bool) : List Contribution :=
  s.clusters[cl].trees.filter fun x => x.drn.op = op && (x.drn.dest = 2) != chip

def firstPart (ps : List Contribution) : Option Contribution :=
  ps.foldl (fun b x => match b with | some y => if x.order < y.order then some x else some y | none => some x) none

/-- Two uses agree in what the uses of one tree operation agree in (R89). -/
def Contribution.joins (x y : Contribution) : Bool :=
  x.drn.mmask == y.drn.mmask && x.drn.cmask == y.drn.cmask && x.drn.dest == y.drn.dest && x.drn.recv == y.drn.recv

/-- The oldest operation among the uses of an identifier that the first of them belongs to: every core's first use that agrees with
it. A core's later use, ordered after that one (R89, R131), belongs to a later operation. -/
def oldestOf (x : Option Contribution) (ps : List Contribution) : List Contribution :=
  match x with
  | none => []
  | some x =>
    let qs := ps.filter (·.joins x)
    qs.filter fun y => !qs.any fun z => z.core == y.core && z.order < y.order

/-- All uses of an identifier of the chip tree. -/
def chipPending (s : State) (op : Byte) : List Contribution := (List.finRange 8).flatMap fun cl => treePending s cl op true

/-- The contributions of a tree operation on one cluster. -/
def treeParts (s : State) (cl : Fin 8) (op : Byte) (chip : Bool) : List Contribution :=
  oldestOf (firstPart (if chip then chipPending s op else treePending s cl op false)) (treePending s cl op chip)

/-- One cluster's tree input by member, every element with its line's poison. -/
def treeInput (ps : List Contribution) (m : Fin 8) : TreeIn × Bool :=
  ((ps.find? fun x => memberOf x.core = m.val).map fun x => x.data.zipIdx.map fun e => (e.1, x.poison.contains (e.2 / 16)), false)

/-- Every member of the mask has its tile taken. -/
def treeComplete (ps : List Contribution) (mask : BitVec 8) : Bool :=
  (List.range 8).all fun m => !mask.getLsbD m || ps.any fun x => memberOf x.core = m && x.taken

def clusterSum (ps : List Contribution) : TreeIn × Bool := tree8 (treeInput ps)

/-- All contributions of a chip-tree operation, and whether every member of every cluster in its masks is here. -/
def chipParts (s : State) (op : Byte) : List Contribution := (List.finRange 8).flatMap fun cl => treeParts s cl op true

def chipComplete (s : State) (op : Byte) (f : DrnOp) : Bool :=
  (List.finRange 8).all fun cl => !f.cmask.getLsbD cl.val || treeComplete (treeParts s cl op true) f.mmask

def chipSum (s : State) (op : Byte) (f : DrnOp) : TreeIn × Bool :=
  tree8 fun cl => if f.cmask.getLsbD cl.val then clusterSum (treeParts s cl op true) else (none, false)

/-- Remove the contributions of a finished operation; later uses of its identifier stay. -/
def dropParts (s : State) (ps : List Contribution) : State :=
  { s with clusters := s.clusters.map fun k => { k with trees := k.trees.filter fun x => !ps.any fun y => y.order == x.order } }

def dropTree (s : State) (cl : Fin 8) (op : Byte) (chip : Bool) : State := dropParts s (treeParts s cl op chip)

/-- A complete chip-tree operation hands its sum to the collective engine or to a landing buffer (R127, R130). A landing names the
halves that stay busy until the buffer has taken it (R132). -/
def chipFinish (s : State) (op : Byte) : State :=
  let ps := chipParts s op
  match firstPart ps with
  | none => s
  | some x =>
    if chipComplete s op x.drn then
      let r := chipSum s op x.drn
      let s1 := orOverflow (dropParts s ps) r.2
      match r.1 with
      | none => s1
      | some data =>
        if x.drn.dest = 4 then
          { s1 with upd := { s1.upd with landings := s1.upd.landings ++
              [{ source := .drain x.core x.index op (ps.map fun y => (y.core, y.half)), group := x.drn.commGroup, mb := x.drn.chunkMb.toNat,
                 first := x.drn.offset.toNat, data := data, refused := false }] } }
        else
          newRun s1 { id := 0, core := x.core, seq := 0, comm := x.drn.commGroup.setWidth 10, op := 0, chunk := x.drn.chunkMb.toNat, nchunks := 1,
                      param := 0, drain := true, fmt := 0, dst := Desc.reset, buf := [data], terms := [],
                      got := [], counts := [], phase := 0, started := false, left := 0, fenced := [] }
    else s

/-- The tree has taken the last element of a half (R89), with the poison its lines have by now (R47). The half of a landing stays busy
until the landing buffer accepts it (R132). -/
def halfTaken (s : State) (c : CoreId) (half : Bool) : State :=
  let h : Fin 2 := if half then 1 else 0
  let k := s.core c
  match k.halves[h].drn with
  | some f =>
    if k.halves[h].busy then
      let s1 := { s with clusters := vmod s.clusters (clusterOf c) fun q => { q with trees := q.trees.map fun (x : Contribution) =>
        if x.core = c && x.half = half && !x.taken then { x with taken := true, poison := k.halves[h].poison } else x } }
      if f.dest = 2 then s1.updCore c fun k => k.releaseHalf h
      else if f.dest = 3 then chipFinish (s1.updCore c fun k => k.releaseHalf h) f.op
      else chipFinish s1 f.op
    else s
  | none => s

/-- A landing buffer has accepted a tree's output: its halves are free, and their release tokens are pushed (R89, R132). -/
def releaseHalves (s : State) (hs : List (CoreId × Bool)) : State :=
  hs.foldl (fun t h => t.updCore h.1 fun k => k.releaseHalf (if h.2 then 1 else 0)) s

/-- The sum of a cluster-tree operation reaches the slot of its TACC (R90, R108). -/
def sumArrives (s : State) (c : CoreId) (op : Byte) : State :=
  let k := s.core c
  let ps := treeParts s (clusterOf c) op false
  match k.taccs.find? (fun w => w.f.op = op && !w.pushDue), firstPart ps with
  | some w, some x =>
    if treeComplete ps x.drn.mmask && x.drn.recv.val = memberOf c then
      let r := clusterSum ps
      let s1 := orOverflow (dropTree s (clusterOf c) op false) r.2
      match r.1 with
      | none => s1
      | some es =>
        let e := k.engines[w.f.eng]
        let v := k.slotAt w.f.eng w.f.slot.toNat
        let k1 := k.setSlot w.f.eng w.f.slot.toNat
          { v with st := .owned w.f.own, acc := acceptSum e.acc (!w.f.cont) v.acc (es.map (·.1)),
                   poison := es.any (·.2) || (w.f.cont && v.poison) }
        s1.updCore c fun _ => k1.acceptToken w
    else s
  | _, _ => s

/-- Members of a mask without a tile, as logical cores (R91, R344). -/
def treeMissing (cl : Nat) (mask : BitVec 8) (ps : List Contribution) : List Nat :=
  (List.range 8).filterMap fun m => if mask.getLsbD m && !ps.any (fun x => memberOf x.core = m) then some (8 * cl + m) else none

/-- The record of a tree's STREAM_STALL (R91): source 2. -/
def treeStall (i : Nat) (opcode cause : Nat) (elapsed : W32) (missing : List Nat) : Record :=
  { Record.blank with code := codeStreamStall, cause := BitVec.ofNat 8 cause, source := 2, instr := BitVec.ofNat 16 i,
                      opcode := BitVec.ofNat 8 opcode, cycle := elapsed, missingN := BitVec.ofNat 16 missing.length,
                      missing := (missing.map (BitVec.ofNat 16)).take 7 }

/-- A destination-4 landing still refused for park room when its tree's budget expires (R91, R150). -/
def refusedStall (s : State) (op : Byte) (elapsed : W32) : State :=
  let mine (l : Landing) : Bool := l.refused && (match l.source with | .drain _ _ o _ => o == op | _ => false)
  match s.upd.landings.find? mine with
  | some l =>
    match l.source with
    | .drain c i _ _ =>
      streamFault { s with upd := { s.upd with landings := s.upd.landings.filter fun x => x ≠ l } } c (treeStall i 0x18 8 elapsed [])
    | _ => s
  | none => s

/-! ## The meanings -/

/-- SETX (R82). -/
def execSetx (core : CoreId) (delta : W16) (f : SetxOp) (s : State) : Host.Outcome State Fault Refusal :=
  .next (execCommand s core delta (.setx f))

/-- ADVX (R82). -/
def execAdvx (core : CoreId) (delta : W16) (x : Fin 16) (restore : Bool) (disp : W32) (s : State) : Host.Outcome State Fault Refusal :=
  .next (execCommand s core delta (.advx x restore disp))

/-- LOOPX (R80, R82). -/
def execLoopx (core : CoreId) (delta : W16) (count : W16) (body : BitVec 10) (s : State) : Host.Outcome State Fault Refusal :=
  .next (execCommand s core delta (.loopx count body))

/-- WAITC (R80). -/
def execWaitc (core : CoreId) (delta : W16) (n : W32) (s : State) : Host.Outcome State Fault Refusal :=
  .next (execCommand s core delta (.waitc n))

/-- PUSHE (R96). -/
def execPushe (core : CoreId) (delta : W16) (f : PushOp) (s : State) : Host.Outcome State Fault Refusal :=
  .next (execCommand s core delta (.pushe f))

/-- POPE (R96, R34, R35). -/
def execPope (core : CoreId) (delta : W16) (q : Fin 4) (token : Token) (s : State) : Host.Outcome State Fault Refusal :=
  .next (execCommand s core delta (.pope q token))

/-- MMA (R85). -/
def execMma (core : CoreId) (delta : W16) (f : MmaOp) (s : State) : Host.Outcome State Fault Refusal :=
  .next (execCommand s core delta (.mma f))

/-- DRN (R87, R88). -/
def execDrn (core : CoreId) (delta : W16) (f : DrnOp) (s : State) : Host.Outcome State Fault Refusal :=
  .next (execCommand s core delta (.drn f))

/-- TACC (R90). -/
def execTacc (core : CoreId) (delta : W16) (f : TaccOp) (s : State) : Host.Outcome State Fault Refusal :=
  .next (execCommand s core delta (.tacc f))

/-- VOP (R92). -/
def execVop (core : CoreId) (delta : W16) (f : VopOp) (s : State) : Host.Outcome State Fault Refusal :=
  .next (execCommand s core delta (.vop f))

/-- RST (R93). -/
def execRst (core : CoreId) (delta : W16) (f : RstOp) (s : State) : Host.Outcome State Fault Refusal :=
  .next (execCommand s core delta (.rst f))

/-- XPS (R94). -/
def execXps (core : CoreId) (delta : W16) (f : XpsOp) (s : State) : Host.Outcome State Fault Refusal :=
  .next (execCommand s core delta (.xps f))

/-- AWLS (R97). -/
def execAwls (core : CoreId) (delta : W16) (lane : Fin 4) (tid : BitVec 24) (base : BitVec 40) (s : State) :
    Host.Outcome State Fault Refusal := .next (execCommand s core delta (.awls lane tid base))

/-- CENF (R98). -/
def execCenf (core : CoreId) (delta : W16) (set : Fin 16) (dst : Fin 16) (tid : BitVec 24) (s : State) :
    Host.Outcome State Fault Refusal := .next (execCommand s core delta (.cenf set dst tid))

/-- A tree takes the last element of a half; its release token is pushed (R89). -/
def execTreeHalfTaken (core : CoreId) (half : Bool) (s : State) : Host.Outcome State Fault Refusal := .next (halfTaken s core half)

/-- A tree sum reaches its TACC's slot; atok is pushed (R90). -/
def execTreeSumArrival (core : CoreId) (op : Byte) (s : State) : Host.Outcome State Fault Refusal := .next (sumArrives s core op)

/-- The budget of a tree operation expires (R91): a cluster tree's on its receiving core, a chip tree's on the core that
contributed first. -/
def execTreeBudgetExpiry (core : CoreId) (op : Byte) (chip : Bool) (elapsed : W32) (s : State) : Host.Outcome State Fault Refusal :=
  .next <|
    if chip then
      match firstPart (chipParts s op) with
      | some x =>
        let missing := (List.finRange 8).flatMap fun cl =>
          if x.drn.cmask.getLsbD cl.val then treeMissing cl.val x.drn.mmask (treeParts s cl op true) else []
        streamFault s x.core { treeStall x.index 0x18 4 elapsed missing with
          doneTok := x.drn.rtok, comm := if x.drn.dest = 3 then x.drn.commGroup.zeroExtend 16 else 0, value := x.drn.chunkMb.zeroExtend 32 }
      | none => refusedStall s op elapsed
    else
      match (s.core core).taccs.find? fun w => w.f.op = op && !w.pushDue with
      | some w =>
        let ps := treeParts s (clusterOf core) op false
        let missing := match firstPart ps with | some x => treeMissing (clusterOf core).val x.drn.mmask ps | none => []
        streamFault s core { treeStall w.index 0x19 3 elapsed missing with doneTok := w.f.atok, slot := w.f.slot, carried := w.f.own }
      | none => s

/-- A push that waited for room, or a pop that waited for its entry, takes effect (R34). -/
def execQueueWaitResume (core : CoreId) (stream : Stream) (s : State) : Host.Outcome State Fault Refusal :=
  .next <|
    if (s.core core).running.isSome then
      match stream with
      | .access => advanceAll (s.updCore core fun k => k.settlePushes.retryPart) core
      | .execute => advanceXAll s core
    else s

end Sys2Proof.Machine
end

