-- ==== Sys2Proof/Machine/Update.lean ====
section
/-! DEFINITION. Landing outcomes at their sources, the update's exact arithmetic (R152–R158), window passes, leases and
group completion (R156, R159–R160, R182–R185, R338). -/

namespace Sys2Proof.Machine

/-! ## The constants of R153 -/

structure UpdConsts where
  sinv : W32
  c : W32
  d : W32
  a : W32
  bc : W32
  p1 : W32
  p2 : W32
deriving DecidableEq, Repr

def one32 : W32 := 0x3F800000#32

/-- The update norm the trust ratio uses: this step's direction for a held group, the lagged one otherwise (R153, R160). -/
def trustNorm (s : State) (g : Group) : W32 :=
  if g.held then ((s.upd.second.find? (·.1 == g.idx)).map (·.2.1)).getD 0 else read32 s (normRecord s g false + 4)

def updConsts (s : State) (g : Group) : UpdConsts :=
  let rec_ := normRecord s g false
  let gn2 := read32 s (normTable s false)
  let c := if g.clip && finite32 gn2 && gt0 gn2 then fmin one32 (fmul g.cmax (frsq gn2)) else one32
  let d := fmul g.eta g.lambda
  if g.rule = 2 then
    let p1 := fmul (read32 s (rec_ + 8)) g.b1
    let p2 := fmul (read32 s (rec_ + 12)) g.b2
    { sinv := pow2 (-s.job.l), c := c, d := d, a := fdiv g.eta (fsub one32 p1), bc := frsq (fsub one32 p2), p1 := p1, p2 := p2 }
  else
    let wn2 := read32 s rec_
    let un2 := trustNorm s g
    let tau := if finite32 wn2 && finite32 un2 && gt0 wn2 && gt0 un2 then fmin g.tmax (fsqrt (fdiv wn2 un2)) else one32
    { sinv := pow2 (-s.job.l), c := c, d := d, a := fmul g.eta tau, bc := 0, p1 := read32 s (rec_ + 8), p2 := read32 s (rec_ + 12) }

/-! ## The element rules of R154 -/

/-- What one element's rule forms: the values stored for w, m, v and u where the rule stores them, the square that goes into
gn2, and whether some value named in R157 is not finite. -/
structure UpdElem where
  w : W32
  m : W32
  v : W32
  sq : W32
  bad : Bool
deriving DecidableEq, Repr

def updBlock (g : Group) (k : UpdConsts) (gr w m v : W32) : UpdElem :=
  let gu := fmul (fmul gr k.sinv) g.gm
  let gh := fmul gu k.c
  let m1 := ffma g.b1 m (fmul g.ob1 gh)
  let v1 := ffma g.b2 v (fmul g.ob2 (fmul gh gh))
  let den := ffma (fsqrt v1) k.bc g.eps
  let dl := fmul k.a (fdiv m1 den)
  let w1 := fsub w (ffma k.d w dl)
  { w := w1, m := m1, v := v1, sq := fmul gu gu, bad := [gu, gh, m1, v1, den, dl, w1].any fun x => !finite32 x }

/-- The layer rule's direction, with the moment when the group keeps one. -/
def updDir (g : Group) (k : UpdConsts) (gr m : W32) : UpdElem :=
  let gu := fmul (fmul gr k.sinv) g.gm
  let gh := fmul gu k.c
  let m1 := if g.mom then ffma g.b1 m (fmul g.ob1 gh) else gh
  { w := 0, m := m1, v := 0, sq := fmul gu gu, bad := [gu, gh, m1].any fun x => !finite32 x }

/-- The layer rule's weight from a direction u. -/
def updWeight (k : UpdConsts) (w u : W32) : W32 := fsub w (ffma k.d w (fmul k.a u))

def updLayer (g : Group) (k : UpdConsts) (gr w m : W32) : UpdElem :=
  let e := updDir g k gr m
  let w1 := updWeight k w e.m
  { e with w := w1, bad := e.bad || !finite32 w1 }

/-! ## Stored tensors (R147, R155) -/

/-- A stored tensor of a window: its bytes, the values it decodes to, its census. -/
structure Stored where
  elems : List Byte
  scales : List Byte
  values : List W32
  census : Census
deriving DecidableEq, Repr

/-- Count a stored element: its class before conversion, the exponent range of its decoded value (R158). -/
def Census.addStored (k : Census) (y : Num) (sat : Bool) (value : Num) (p : Bool) : Census :=
  let a := { k with emax := none, emin := none }.add y sat value.isZero p
  let x : Option Int := value.ilog
  { a with emax := (match x, k.emax with | some b, some m => some (max b m) | some b, none => some b | none, m => m),
           emin := (match x, k.emin with | some b, some m => some (min b m) | some b, none => some b | none, m => m) }

/-- The job seed of the step context. -/
def jobSeed (s : State) : W64 := (s.job.manifest.map (·.seed)).getD 0

/-- Convert a list of values to storage from owned element `e0` on, with the awl of R155. -/
def storeTensor (s : State) (fmt : BitVec 4) (block : Nat) (tid : BitVec 24) (at_ : Nat) (xs : List W32) (p : Bool) : Stored :=
  let seed := jobSeed s
  let ys := xs.map f32
  let scales := if block = 0 then [] else (chunksOf block (ys.length / block + 1) ys).map (blockScale fmt)
  let cs := ys.zipIdx.map fun y =>
    let rm := Rounding.stoch (awl seed s.job.step tid ((at_ + y.2) % 2 ^ 40))
    if block = 0 then convScalar fmt rm y.1 else convBlockElem fmt (scales.getD (y.2 / block) 0) rm y.1
  let vals := cs.zipIdx.map fun c =>
    if block = 0 then rawValue fmt c.1.bits else scaledValue fmt c.1.bits (scales.getD (c.2 / block) 0)
  { elems := pack (eltBits fmt) (cs.map (·.bits)), scales := scales, values := vals.map toF32,
    census := (ys.zip (cs.zip vals)).foldl (fun k x => k.addStored x.1 x.2.1.sat x.2.2 p) Census.reset }

/-- The places of a window's arrays in its state image (R147). -/
structure Places where
  w : Nat
  ws : Nat
  m : Nat
  ms : Nat
  v : Nat
  vs : Nat

def Group.places (g : Group) (image : Nat) : Places :=
  let m := image + 32768 + if g.wfmt = 9 then 256 else 0
  let v := m + if g.mom then 16896 else 0
  { w := image, ws := image + 32768, m := m, ms := m + 16384, v := v, vs := v + 16384 }

/-- The image of window k behind alias R or alias W. -/
def windowImage (s : State) (g : Group) (k : Nat) (viaW : Bool) : Nat :=
  match sidedOf s g.stack with
  | some r => (if viaW then r.wbase else r.base) + g.soff + k * g.pitch
  | none => 0

/-- Read n stored values, with scales one a block. -/
def readTensor (s : State) (fmt : BitVec 4) (block n a sa : Nat) : List W32 :=
  let es := unpack (eltBits fmt) n (readHbm s a (n * eltBits fmt / 8))
  if block = 0 then es.map fun e => toF32 (rawValue fmt e)
  else
    let ss := readHbm s sa (n / block)
    es.zipIdx.map fun e => toF32 (scaledValue fmt e.1 (ss.getD (e.2 / block) 0))

def wBlock (g : Group) : Nat := if g.wfmt = 9 then 64 else 0

/-! ## One window pass -/

structure PassOut where
  w : Option Stored
  m : Option Stored
  v : Option Stored
  u : Option (List W32)
  wn2 : W32 × W32
  un2 : W32 × W32
  gn2 : W32 × W32
  bad : Bool
  poison : Bool

def pairSum (xs : List W32) : W32 × W32 := xs.foldl pairAdd (0, 0)

def squares (xs : List W32) : List W32 := xs.map fun x => fmul x x

/-- Compute a pass (R154). `kind` is 0 single, 1 held first, 2 held second. -/
def runPass (s : State) (g : Group) (k : Nat) (kind : BitVec 2) : PassOut :=
  let n := g.winElems k
  let e0 := 16384 * k
  let at_ := g.ibase + e0
  let p := g.places (windowImage s g k false)
  let c := updConsts s g
  let ga := g.gradAt e0
  let ua := g.dirAt e0
  let poisonOf (on : Bool) (a len : Nat) : Bool := on && hbmPoisoned s a len
  let first := kind ≠ 2
  let reads := poisonOf first ga (4 * n) || poisonOf (kind = 2) ua (4 * n) || poisonOf (kind ≠ 1) p.w (2 * n) ||
    poisonOf (kind ≠ 1 && g.wfmt = 9) p.ws (n / 64) || poisonOf (first && g.mom) p.m n || poisonOf (first && g.mom) p.ms (n / 32) ||
    poisonOf (g.rule = 2) p.v n || poisonOf (g.rule = 2) p.vs (n / 32) || poisonOf true (normRecord s g false) 16 ||
    poisonOf (first && g.clip) (normTable s false) 4 || (kind = 2 && s.upd.second.any fun x => x.1 == g.idx && x.2.2)
  let grad := (List.range n).map fun i => read32 s (ga + 4 * i)
  let w := readTensor s g.wfmt (wBlock g) n p.w p.ws
  let m := if g.mom then readTensor s 0x5 32 n p.m p.ms else List.replicate n 0
  let v := if g.rule = 2 then readTensor s 0xA 32 n p.v p.vs else List.replicate n 0
  let stW (xs : List W32) : Stored := storeTensor s g.wfmt (wBlock g) g.tidW at_ xs reads
  let stM (xs : List W32) : Option Stored := if g.mom then some (storeTensor s 0x5 32 g.tidM at_ xs reads) else none
  let gn2 (es : List UpdElem) : W32 × W32 := if g.clip then pairSum (es.map (·.sq)) else (0, 0)
  if kind = 2 then
    let u := (List.range n).map fun i => read32 s (ua + 4 * i)
    let w1 := (w.zip u).map fun x => updWeight c x.1 x.2
    let st := stW w1
    { w := some st, m := none, v := none, u := none, wn2 := pairSum (squares st.values), un2 := (0, 0), gn2 := (0, 0),
      bad := w1.any fun x => !finite32 x, poison := reads }
  else if kind = 1 then
    let es := (grad.zip m).map fun x => updDir g c x.1 x.2
    let dir := es.map (·.m)
    { w := none, m := stM dir, v := none, u := some dir, wn2 := (0, 0), un2 := pairSum (squares dir), gn2 := gn2 es,
      bad := es.any (·.bad), poison := reads }
  else if g.rule = 2 then
    let es := ((grad.zip w).zip (m.zip v)).map fun x => updBlock g c x.1.1 x.1.2 x.2.1 x.2.2
    { w := some (stW (es.map (·.w))), m := stM (es.map (·.m)), v := some (storeTensor s 0xA 32 g.tidV at_ (es.map (·.v)) reads), u := none,
      wn2 := (0, 0), un2 := (0, 0), gn2 := gn2 es, bad := es.any (·.bad), poison := reads }
  else
    let es := ((grad.zip w).zip m).map fun x => updLayer g c x.1.1 x.1.2 x.2
    let st := stW (es.map (·.w))
    { w := some st, m := stM (es.map (·.m)), v := none, u := none, wn2 := pairSum (squares st.values),
      un2 := pairSum (squares (es.map (·.m))), gn2 := gn2 es, bad := es.any (·.bad), poison := reads }

def putStored (s : State) (st : Option Stored) (a sa : Nat) (p : Bool) : State :=
  match st with
  | some x => let t := storeHbm s a x.elems p; if x.scales.isEmpty then t else storeHbm t sa x.scales p
  | none => s

/-- Write-combining entries of one channel go back (R178, R184). -/
def flushChannel (s : State) (stack chan : Nat) : State :=
  (List.finRange 24).foldl (fun t k =>
    (t.mem.wcb[k].filter fun e => placeOf t (64 * (e.line % 2 ^ 34)) == (stack, chan)).foldl (fun u e => wcbWriteback u k e) t) s

/-- Atomic-unit lines of one channel go back (R181, R184). -/
def flushAtomics (s : State) (stack chan : Nat) : State :=
  { s with mem := { s.mem with atomics := s.mem.atomics.map fun ls => ls.filter fun l => placeOf s (64 * (l % 2 ^ 34)) != (stack, chan) } }

def pairBytes (p : W32 × W32) : List Byte := leBytes 4 p.1.toNat ++ leBytes 4 p.2.toNat

/-- Write a window's partials: a pass writes those it formed (R156, R183). -/
def putPartials (s : State) (g : Group) (k : Nat) (kind : BitVec 2) (o : PassOut) : State :=
  let s1 := if kind = 1 then s else storeHbm s (g.partialAt k 0) (pairBytes o.wn2) false
  if kind = 2 then s1 else storeHbm (storeHbm s1 (g.partialAt k 1) (pairBytes o.un2) false) (g.partialAt k 2) (pairBytes o.gn2) false

/-- The census of a group's tensors W, m, v so far (R158). -/
def mergeCensus (s : State) (g : Group) (o : PassOut) : State :=
  let mine := ((s.upd.census.find? (·.1 == g.idx)).map (·.2)).getD [Census.reset, Census.reset, Census.reset]
  let add (i : Nat) (x : Option Stored) : Census :=
    let c := mine.getD i Census.reset
    match x with | some y => c.merge y.census | none => c
  { s with upd := { s.upd with census := s.upd.census.filter (·.1 != g.idx) ++ [(g.idx, [add 0 o.w, add 1 o.m, add 2 o.v])] } }

/-- A module partial: the windows' pairs summed in ascending order, rounded once (R156). -/
def modulePartial (s : State) (g : Group) (i : Nat) : W32 :=
  let p := (List.range g.windows).foldl (fun p k => pairAdd (pairAdd p (read32 s (g.partialAt k i))) (read32 s (g.partialAt k i + 4))) (0, 0)
  fadd p.1 p.2

/-- The last pass of a group has completed (R156, R158): partials, moment powers, census records, and done last. -/
def finishGroup (s : State) (g : Group) : State :=
  let s1 := (List.range 3).foldl (fun t i => storeHbm t (g.lbase + 12 + 4 * i) (leBytes 4 (modulePartial s g i).toNat) false) s
  let c := updConsts s g
  let s2 := storeHbm s1 (normRecord s g true + 8) (leBytes 4 c.p1.toNat ++ leBytes 4 c.p2.toNat) false
  let cen := ((s.upd.census.find? (·.1 == g.idx)).map (·.2)).getD [Census.reset, Census.reset, Census.reset]
  let recs := [(cen.getD 0 Census.reset, g.tidW, true), (cen.getD 1 Census.reset, g.tidM, g.mom),
               (cen.getD 2 Census.reset, g.tidV, g.rule == 2)].filter (·.2.2)
  let s3 := if g.cen then
      (recs.zipIdx.foldl (fun t r =>
        let a := g.cbase + 32 * r.2
        let t1 := storePart t 4 a (censusBytes r.1.1 r.1.2.1 0 s.job.step) r.1.1.poison
        if r.1.1.poison then consume t1 1 none a else t1) s2)
    else s2
  storeHbm s3 g.lbase (leBytes 4 s.job.step.toNat) false

/-- The last first pass of a held group has completed (R160): its un2 partial, then pass1. -/
def finishFirst (s : State) (g : Group) : State :=
  storeHbm (storeHbm s (g.lbase + 16) (leBytes 4 (modulePartial s g 1).toNat) false) (g.lbase + 8) (leBytes 4 s.job.step.toNat) false

def doneCount (s : State) (g : Group) (kind : BitVec 2) : Nat :=
  ((s.upd.dones.find? fun d => d.1 == g.idx && d.2.1 == kind).map (·.2.2)).getD 0

/-- A completed window pass takes effect (R154–R158, R183, R350). -/
def completePass (s : State) (p : Pass) : State :=
  match groupOf s p.group with
  | none => s
  | some g =>
    let o := runPass s g p.window p.kind
    let pl := g.places (windowImage s g p.window true)
    let s1 := putStored (putStored (putStored s o.w pl.w pl.ws o.poison) o.m pl.m pl.ms o.poison) o.v pl.v pl.vs o.poison
    let s2 := match o.u with
      | some u => storeHbm s1 (g.dirAt (16384 * p.window)) (bytes32 u) o.poison
      | none => s1
    let s3 := flushChannel s2 g.stack ((g.chan0 + p.window) % 16)
    let s4 := orOverflow s3 o.bad
    let s5 := if o.poison then { s4 with job := { s4.job with poison := true } } else s4
    let s6 := mergeCensus (putPartials s5 g p.window p.kind o) g o
    let n := doneCount s g p.kind + 1
    let s7 := { s6 with upd := { s6.upd with dones := s6.upd.dones.filter (fun d => !(d.1 == g.idx && d.2.1 == p.kind)) ++ [(g.idx, p.kind, n)] } }
    if n = g.windows then (if p.kind = 1 then finishFirst s7 g else finishGroup s7 g) else s7

/-! ## Leases (R159, R182–R185, R338) -/

/-- The headroom state: the worse of the power and the thermal state (R325). -/
def headroom (s : State) : Nat := max s.pwr.pstate.toNat s.pwr.tstate.toNat

/-- A class-3 segment runs on the module. -/
def class3Runs (s : State) : Bool := s.cores.toList.any fun k =>
  match k.running with | some i => ((k.segments[i]?).map (·.cls)).getD 0 == 3 | none => false

def passPlace (s : State) (p : Pass) : Option (Nat × Nat) := (groupOf s p.group).map fun g => (g.stack, (g.chan0 + p.window) % 16)

/-- Ascending group number, then window number (R159). -/
def Pass.before (a b : Pass) : Bool := a.group.toNat < b.group.toNat || (a.group == b.group && a.window < b.window)

def firstPass (ps : List Pass) : Option Pass :=
  ps.foldl (fun b p => match b with | some q => if p.before q then some p else some q | none => some p) none

/-- The next pass of a channel. -/
def nextPass (s : State) (stack : StackId) (chan : ChanId) : Option Pass :=
  firstPass (s.upd.queue.filter fun p => passPlace s p == some (stack.val, chan.val))

/-- Channels of a stack under lease. -/
def leased (s : State) (stack : StackId) : Nat := (s.upd.leases.filter fun l => l.stack == stack).length

/-- A group's 128-byte table entry (R144). -/
def Group.bytes (g : Group) : List Byte :=
  leBytes 1 (g.rule.toNat + bit g.held 2 + bit g.clip 3 + bit g.mom 4 + bit g.cen 5) ++
    leBytes 1 (g.wfmt.toNat + 16 * if g.mom then 5 else 0) ++ leBytes 1 (if g.rule = 2 then 0xA else 0) ++
    leBytes 1 (g.stack + 16 * g.chan0) ++ leBytes 4 (g.elements - 1) ++ leBytes 2 (g.mbcount - 1) ++ [0, 0] ++
    leBytes 4 g.tidW.toNat ++ leBytes 4 g.tidM.toNat ++ leBytes 4 g.tidV.toNat ++ leBytes 8 g.ibase ++ leBytes 8 g.soff ++
    leBytes 8 g.lbase ++ leBytes 8 g.cbase ++
    bytes32 [g.eta, g.lambda, g.b1, g.ob1, g.b2, g.ob2, g.eps, g.gm, g.tmax, g.cmax] ++ List.replicate 32 0

/-- The pass descriptor that XGRANT carries (R183), with the in-channel offsets of the window's read state, written state and arrays. -/
def grantBytes (s : State) (g : Group) (p : Pass) : List Byte :=
  g.bytes ++ leBytes 4 s.job.step.toNat ++ leBytes 1 (BitVec.ofInt 8 s.job.l).toNat ++ leBytes 1 p.kind.toNat ++ leBytes 2 p.window ++
    leBytes 4 (read32 s (normTable s false)).toNat ++ readHbm s (normRecord s g false) 32 ++
    leBytes 4 (if p.kind = 2 then (trustNorm s g).toNat else 0) ++ leBytes 8 (jobSeed s).toNat ++
    [windowImage s g p.window false, windowImage s g p.window true, g.gradAt (16384 * p.window)].flatMap (fun a => leBytes 8 (spotOf s a).2) ++
    List.replicate 48 0

/-- The buffer entries of a channel about to be leased go back by read-modify-write (R178, R184). -/
def drainChannel (s : State) (stack chan : Nat) : State :=
  (List.finRange 24).foldl (fun t k =>
    (t.mem.wcb[k].filter fun e => placeOf t (64 * (e.line % 2 ^ 34)) == (stack, chan)).foldl (fun u e => wcbModify u k e) t) s

/-- The refreshes pulled in before a grant: up to two for each bank, by deadlines that no rule gives: how many is free (R187; log
entry 105). -/
def pullRefresh (s : State) (stack : StackId) (chan : ChanId) : State :=
  (List.finRange 128).foldl (fun t b =>
    let f := t.draw
    (List.range (f.1.toNat % 3)).foldl (fun u _ => u.say (.refresh stack chan b)) f.2) s

/-- A channel that came back with requests waiting serves them for 16 ticks before the next lease (R186). -/
def servesStill (s : State) (c : Chan) : Bool := match c.regained with | some t => (s.now - t).toNat < 16 | none => false

/-- Open a lease for the next pass of a channel (R184): buffer entries and atomic lines go back, refreshes are pulled in, all banks are
precharged, then XGRANT. -/
def openLease (s : State) (stack : StackId) (chan : ChanId) : State :=
  let busy := s.upd.leases.any fun l => l.stack == stack && l.chan == chan
  let full := headroom s == 0 && class3Runs s && 8 ≤ leased s stack
  match nextPass s stack chan with
  | none => s
  | some p =>
    match groupOf s p.group with
    | none => s
    | some g =>
      if busy || full || servesStill s s.mem.hbmStacks[stack].chans[chan] || !s.jobSide || !s.glb.chanEng || !s.mem.hbmStacks[stack].xen then s
      else
        let s0 := flushAtomics (drainChannel s stack.val chan.val) stack.val chan.val
        let s1 := (pullRefresh s0 stack chan).say (.precharge stack chan)
        let s2 := s1.say (.xgrant stack chan s.upd.leaseId (grantBytes s1 g p))
        { s2 with mem := { s2.mem with hbmStacks := vmod s2.mem.hbmStacks stack fun k => { k with leases := bump k.leases } },
                  upd := { s2.upd with queue := s2.upd.queue.filter (· ≠ p),
                                        leases := s2.upd.leases ++ [{ stack := stack, chan := chan, id := s.upd.leaseId, pass := p, reclaimed := false }],
                                        leaseId := s.upd.leaseId + 1 } }

def findLease (s : State) (stack : StackId) (chan : ChanId) : Option Lease := s.upd.leases.find? fun l => l.stack == stack && l.chan == chan

def dropLease (s : State) (l : Lease) : State := { s with upd := { s.upd with leases := s.upd.leases.filter (· ≠ l) } }

/-- A pass abandoned once is queued for a later lease; abandoned twice in a row it is fatal (R185). An aborted step drops it. -/
def abandonPass (s : State) (stack : StackId) (p : Pass) : State :=
  if p.abandoned then fatal s codeStackFatal (BitVec.ofNat 8 stack.val) false
  else if s.job.aborting then s
  else queuePass s { p with abandoned := true }

/-- The lease has outlived tick 350 (R185). -/
def overrunLease (s : State) (stack : StackId) (chan : ChanId) : State :=
  match findLease s stack chan with
  | none => s
  | some l =>
    if l.reclaimed then s
    else
      let s1 := s.say (.xreclaim stack chan l.id)
      let s2 := { s1 with
        mem := { s1.mem with hbmStacks := vmod s1.mem.hbmStacks stack fun k => { k with leaseOverrun := bump k.leaseOverrun } },
        upd := { s1.upd with leases := s1.upd.leases.map fun (x : Lease) => if x = l then { x with reclaimed := true } else x } }
      abandonPass s2 stack l.pass

/-! ## Landing outcomes (R149, R150, R130) -/

/-- A landing has been accepted: the LAND that made it can complete, the halves of the drains that made it are free and their release
tokens are pushed (R53, R89, R132, R150). -/
def landingAccepted (s : State) (l : Landing) : State :=
  match l.source with
  | .land c seq => closeFlight s c seq
  | .drain _ _ _ hs => releaseHalves s hs
  | .chunk _ _ _ => s

/-- HBM_RANGE of a landing, reported on its source (R67, R88, R130, R344). R67 gives the range as a place in the group's shard, and
the address field holds that element offset, not a byte address (log entry 83). -/
def landingFault (s : State) (l : Landing) (cause : Nat) : State :=
  match l.source with
  | .land c seq =>
    match (s.core c).access.flights.find? (·.seq == seq) with
    | some f => flightFault s c f codeHbmRange cause (raddr l.first)
    | none => s
  | .drain c index _ _ =>
    streamFault s c { Record.blank with code := codeHbmRange, cause := BitVec.ofNat 8 cause, source := 1, instr := BitVec.ofNat 16 index,
                                        opcode := 0x18, unit := 2, addr := BitVec.ofNat 40 l.first }
  | .chunk c comm chunk =>
    streamFault s c { Record.blank with code := codeHbmRange, cause := BitVec.ofNat 8 cause, source := 3, opcode := 0x18,
                                        addr := BitVec.ofNat 40 l.first, chip := s.fab.chip, comm := comm.zeroExtend 16,
                                        value := chunk.zeroExtend 32 }

/-- A landing reaches its landing unit (R149). -/
def landingArrives (s : State) (i : Nat) : State :=
  match s.upd.landings[i]? with
  | none => s
  | some l =>
    match groupOf s l.group with
    | none => landingFault (dropLanding s i) l 0x16
    | some g =>
      match landingCause s g l with
      | some x => landingFault (dropLanding s i) l x
      | none =>
        if landingReady s g l then landingAccepted (applyLanding (dropLanding s i) g l) l
        else if parkRoom s g l then landingAccepted (parkLanding (dropLanding s i) g l) l
        else refuseLanding s i

/-- A parked landing is applied once its counters have reached its micro-batch (R149). -/
def parkedApplies (s : State) (i : Nat) : State :=
  match s.upd.parked[i]? with
  | none => s
  | some l =>
    match groupOf s l.group with
    | none => s
    | some g => if landingReady s g l then applyLanding (unpark s i g l) g l else s

/-! ## The meanings -/

/-- A landing arrives: applied, parked, refused for room or refused with HBM_RANGE (R149, R150). -/
def execLandingArrival (idx : Nat) (s : State) : Host.Outcome State Fault Refusal := .next (landingArrives s idx)

/-- A parked landing is applied (R149). -/
def execParkedLandingApply (idx : Nat) (s : State) : Host.Outcome State Fault Refusal := .next (parkedApplies s idx)

/-- A landing refused for room is sent again (R150). -/
def execLandingResend (idx : Nat) (s : State) : Host.Outcome State Fault Refusal :=
  .next (match s.upd.landings[idx]? with
    | some l => if l.refused then landingArrives s idx else s
    | none => s)

/-- The second pass of a held group becomes ready (R160). -/
def execSecondPassReady (group : BitVec 12) (s : State) : Host.Outcome State Fault Refusal :=
  .next (match groupOf s group with | some g => secondReady s g | none => s)

/-- A lease opens on a channel (R159, R184). -/
def execLeaseOpen (stack : StackId) (chan : ChanId) (s : State) : Host.Outcome State Fault Refusal := .next (openLease s stack chan)

/-- No LDONE by the end of tick 350 (R185). -/
def execLeaseOverrun (stack : StackId) (chan : ChanId) (s : State) : Host.Outcome State Fault Refusal := .next (overrunLease s stack chan)

end Sys2Proof.Machine
end

