-- ==== Sys2Proof/Machine/Fabric.lean ====
section
/-! DEFINITION. The fabric (R203–R225): routing, windows and tags, responders, completions, timeouts, fences, ports. -/

namespace Sys2Proof.Machine

/-! ## Routing (R203, R205–R207, R213, R221) -/

def axisOf (port : Nat) : Nat := port / 2

/-- A router's own fence notice about F to the source of a packet (R221); it leaves by the source's port even when it answers F. Only a
notice sent is counted (R223). -/
def fenceNoticeFor (s : State) (f : Chip) (p : Packet) : State :=
  let n := { packetTo s 0x19 p.src with tag := p.tag, attempt := p.attempt, cls := padTo 24 0 (leBytes 2 f.toNat) }
  let e := routeOf s p.src
  if routeUsable e then emit { s with fab := { s.fab with fenceTx := bump s.fab.fenceTx } } (routePort e) (injectVc e 3) 8 0 n.sealed else s

/-- The dateline bit at the far end of an input port, which is the port's own bit: the port pairs with the neighbour's port of the
other direction (R205). -/
def cameOverDateline (s : State) (port : Nat) : Bool := if h : port < 8 then (s.fab.ports[(⟨port, h⟩ : Fin 8)]).dateline else false

/-- The set of a packet on its next hop (R205). -/
def nextSet (s : State) (e : W32) (inPort : Nat) (vc : Fin 8) : Nat :=
  if routeVset e = 1 then 0
  else if routeVset e = 2 then 1
  else if 8 ≤ inPort then 0
  else if axisOf inPort ≠ axisOf (routePort e) then 0
  else if cameOverDateline s inPort then 1
  else vc.val % 2

/-- The channel of an input port is congested: a header flit that leaves its buffer is marked (R213). -/
def marking (s : State) (port : Nat) (vc : Fin 8) : Bool :=
  if h : port < 8 then (s.fab.ports[(⟨port, h⟩ : Fin 8)]).congested[vc] && vc.val < 6 else false

/-- Flits leave an input buffer and return their credits (R210); a mark is counted (R213). -/
def leaveBuffer (s : State) (port : Nat) (vc : Fin 8) (flits : Nat) (marked : Bool) : State :=
  updPort s port fun q => { q with occupancy := vmod q.occupancy vc (· - flits), owed := vmod q.owed vc (· + flits),
                                   ecnMarks := if marked then vmod q.ecnMarks vc bump else q.ecnMarks }

/-- Set ce where the channel a packet leaves is congested. -/
def markCe (s : State) (port : Nat) (vc : Fin 8) (p : Packet) : Packet := if marking s port vc then { p with ce := true } else p

def countMisrouted (s : State) (port : Nat) : State :=
  if port < 8 then updPort s port fun q => { q with misrouted := bump q.misrouted }
  else { s with fab := { s.fab with misroutedLocal := bump s.fab.misroutedLocal } }

/-- A header flit arrives at the router (R203, R207, R221). A packet for a network port stays in its input buffer until its flits go out;
any other leaves it here. A DISC packet is link-local: it is delivered without a lookup (R282). -/
def routeHeader (s0 : State) (port : Fin 10) (vc : Fin 8) (p0 : Packet) : State :=
  let s := heard s0 port.val
  let ed := routeOf s p0.dst
  let p := markCe s port.val vc p0
  let s1 := leaveBuffer s port.val vc p.flits (marking s port.val vc)
  if s.fab.routerDead then s0
  else if !p.formed then updPort s1 port.val fun q => { q with malformed := bump q.malformed }
  else if p.type = 0x1B then emit s1 8 vc port vc p
  else if p.hops = 1023 && p.dst ≠ s.fab.chip then countMisrouted s1 port.val
  else if routeFenced ed then (if p.type = 0x19 then s1 else fenceNoticeFor s1 p.dst p)
  else if chipFenced s p.src then fenceNoticeFor s1 p.src p
  else if !routeUsable ed then countMisrouted s1 port.val
  else
    let out := Fin.ofNat 8 (2 * (typeClass p.type).getD 3 + nextSet s ed port.val vc)
    if routePort ed < 8 then emit s (routePort ed) out port vc p0 else emit s1 (routePort ed) out port vc p

/-- A packet that its destination discards, counted by cause (R220). -/
def discardPacket (s : State) (p : Packet) : State :=
  if p.stomps ≠ 0 then { s with fab := { s.fab with stompDiscard := bump s.fab.stompDiscard } }
  else { s with fab := { s.fab with crcDiscard := bump s.fab.crcDiscard } }

/-- The tail of a packet arrives at its destination (R220). An accepted packet has the effect of its own type's command. -/
def ingress (s : State) (p : Packet) : State := if p.intact then s else discardPacket s p

/-- A packet has its effect only when it is intact (R220). -/
def accepting (s : State) (p : Packet) (f : State → State) : State := if p.intact then f s else discardPacket s p

/-! ## Output ports (R206, R210, R224) -/

/-- The next packet of a virtual channel: the one under way, else the turn of the input port after the last served (R206). -/
def Port.next (q : Port) (vc : Fin 8) : Option (Nat × OutPkt) :=
  let l := (q.outQ.zipIdx.filter fun x => x.1.vc == vc).map fun x => (x.2, x.1)
  match l.find? fun x => x.2.sent ≠ 0 with
  | some x => some x
  | none => ((List.range 10).filterMap fun k => l.find? fun x => x.2.inPort.val = (q.lastIn[vc].val + 1 + k) % 10).head?

/-- The channel can send: a flit is ready and a credit is there. -/
def Port.ready (q : Port) (vc : Fin 8) : Bool := (q.next vc).isSome && 0 < q.credits[vc]

/-- The channel that sends the next flit: control first, then the other six in turn (R206). Between the two control channels the manual
gives no order: the bit `first` decides (log entry 109). -/
def Port.pick (q : Port) (first : Bool) : Option (Fin 8) :=
  match q.ready 6, q.ready 7 with
  | true, true => some (if first then 6 else 7)
  | true, false => some 6
  | false, true => some 7
  | false, false => ((List.range 6).map fun k => Fin.ofNat 8 ((q.lastVc.val + 1 + k) % 6)).find? q.ready

/-- One flit of a packet goes out: it costs a credit, the packet's turn is noted and its count kept (R206, R210, R224). -/
def Port.send (q : Port) (vc : Fin 8) (i : Nat) (o : OutPkt) : Port :=
  let tail := o.sent + 1 == o.p.flits
  { q with outQ := if tail then q.outQ.eraseIdx i else q.outQ.set i { o with sent := o.sent + 1 },
           credits := vmod q.credits vc (· - 1), flitsTx := vmod q.flitsTx vc bump, packetsTx := if tail then vmod q.packetsTx vc bump else q.packetsTx,
           lastVc := if vc.val < 6 then vc else q.lastVc, lastIn := q.lastIn.set vc o.inPort }

/-- The next flit of a network port, if one may go. -/
def nextFlit (s : State) (n : PortId) : Option (State × Flit) :=
  let q := s.fab.ports[n]
  let both := q.ready 6 && q.ready 7
  if s.fab.routerDead then none else
  match q.pick ((Config.freeValue s.free).getLsbD 0) with
  | none => none
  | some vc =>
    match q.next vc with
    | none => none
    | some (i, o) =>
      let marked := o.sent = 0 && marking s o.inPort.val o.inVc
      let o1 := if marked then { o with p := { o.p with ce := true } } else o
      let s1 := if both then { s with free := s.free + 1 } else s
      let s2 := updPort s1 n.val fun q => q.send vc i o1
      some (leaveBuffer s2 o.inPort.val o.inVc 1 marked, packetFlit o1.p vc o.sent)

/-- The flits that the router gives to a frame of at most `k` slots. -/
def takeFlits : Nat → State → PortId → State × List Flit
  | 0, s, _ => (s, [])
  | k + 1, s, n =>
    match nextFlit s n with
    | none => (s, [])
    | some (s1, f) =>
      let x := takeFlits k s1 n
      (x.1, f :: x.2)

/-- A channel with a flit ready and no credit waits: the cycles of its wait are counted, and the manual does not say how many a wait
lasts (R210; log entry 110). -/
def countStall (s : State) (n : Nat) (vc : Fin 8) : State :=
  updPort { s with free := s.free + 1 } n fun q => { q with stall := vmod q.stall vc (· + freeCycles s.free) }

/-- Every channel of a port that waits for a credit. -/
def countStalls (s : State) (n : PortId) : State :=
  (List.finRange 8).foldl (fun t vc => if ((t.fab.ports[n]).next vc).isSome && (t.fab.ports[n]).credits[vc] = 0 then countStall t n.val vc else t) s

/-! ## Windows (R211, R212, R214) -/

def winOf (s : State) (d : Chip) : Option WinEntry := s.fab.wins.find? (·.dst == d)

/-- The packet classes that a window governs. -/
def windowed (p : Packet) : Bool := match typeClass p.type with | some 0 | some 1 | some 2 => true | _ => false

/-- The entry of a destination, most recently used last; none while every entry of a full cache has bytes outstanding. -/
def takeWin (s : State) (d : Chip) : Option (WinEntry × List WinEntry) :=
  match winOf s d with
  | some e => some (e, s.fab.wins.filter (·.dst != d))
  | none =>
    let fresh : WinEntry := { dst := d, w := 65536, outstanding := 0, tDec := 0, rtt := 0 }
    if s.fab.wins.length < 4096 then some (fresh, s.fab.wins)
    else match s.fab.wins.find? (·.outstanding == 0) with
      | some v => some (fresh, s.fab.wins.filter (·.dst != v.dst))
      | none => none

def winRoom (e : WinEntry) (n : Nat) : Bool := e.outstanding + n ≤ e.w || e.outstanding = 0

def updWin (s : State) (d : Chip) (f : WinEntry → WinEntry) : State :=
  { s with fab := { s.fab with wins := s.fab.wins.map fun e => if e.dst == d then f e else e } }

/-- The congestion branch of R214. -/
def WinEntry.shrink (e : WinEntry) (now : W64) : WinEntry :=
  if e.rtt ≤ (now - e.tDec).toNat then { e with w := max 4096 (e.w / 2), tDec := now } else e

/-- The window update at a completion (R214). -/
def completeWin (s : State) (t : Tag) (echo : Bool) : State :=
  updWin s t.p.dst fun e =>
    let n := t.p.charge
    let e1 := { e with outstanding := e.outstanding - n,
                       rtt := if t.resent then e.rtt else (s.now - t.sentTick).toNat }
    if echo then e1.shrink s.now else { e1 with w := min 1048576 (e1.w + 4096 * n / e1.w) }

def timeoutWin (s : State) (t : Tag) : State :=
  updWin s t.p.dst fun e => ({ e with outstanding := e.outstanding - t.p.charge }).shrink s.now

def releaseWin (s : State) (t : Tag) : State := updWin s t.p.dst fun e => { e with outstanding := e.outstanding - t.p.charge }

/-! ## Tags (R215–R219) -/

def findTag (s : State) (n : BitVec 15) (attempt : BitVec 3) : Option Tag := s.fab.tags.find? fun t => t.tag == n && t.p.attempt == attempt

def freeTag (s : State) (n : BitVec 15) : State := { s with fab := { s.fab with tags := s.fab.tags.filter (·.tag != n) } }

/-- The attempt has completed in this tick (R217). -/
def endedNow (s : State) (n : BitVec 15) (attempt : BitVec 3) : Bool := s.fab.endedAt == s.now && s.fab.ended.contains (n, attempt)

/-- Free a tag whose attempt a completion or a fence notice ends: what else this tick brings for it is void (R217). -/
def endTag (s : State) (t : Tag) : State :=
  let old := if s.fab.endedAt = s.now then s.fab.ended else []
  let s1 := freeTag s t.tag
  { s1 with fab := { s1.fab with ended := (t.tag, t.p.attempt) :: old, endedAt := s.now } }

def updTag (s : State) (n : BitVec 15) (f : Tag → Tag) : State :=
  { s with fab := { s.fab with tags := s.fab.tags.map fun t => if t.tag == n then f t else t } }

/-- The tags of an issuer: first and how many (R215). -/
def tagRange (i : Issuer) : Nat × Nat := match i with | .access c _ => (384 * c.val, 384) | .coll _ => (0x6000, 0x2000)

def pickTag (s : State) (i : Issuer) : Option (BitVec 15) :=
  let r := tagRange i
  ((List.range r.2).find? fun k => !s.fab.tags.any fun t => t.tag.toNat == r.1 + k).map fun k => BitVec.ofNat 15 (r.1 + k)

/-- Report FENCED to an issuer (R75, R221, R244, R345). -/
def reportFenced (s : State) (i : Issuer) (p : Packet) (cause : Nat) : State :=
  match i with
  | .access c seq =>
    match (s.core c).access.flights.find? (·.seq == seq) with
    | some f => flightFault s c f codeFenced cause fun r => { r with chip := p.dst }
    | none => s
  | .coll id => collFencedAt s id p

/-- Report TIMEOUT to an issuer (R75, R219, R345). -/
def reportTimeout (s : State) (t : Tag) (elapsed : W32) : State :=
  match t.issuer with
  | .access c seq =>
    match (s.core c).access.flights.find? (·.seq == seq) with
    | some f => flightFault s c f codeTimeout (t.p.type.toNat - 1) fun r => { r with chip := t.p.dst, cycle := elapsed }
    | none => s
  | .coll id =>
    match s.coll.runs.find? (·.id == id) with
    | none => s
    | some r =>
      if r.drain then
        streamFault s r.core { Record.blank with code := codeTimeout, cause := 3, source := 3, opcode := 0x18, cycle := elapsed,
                                                 chip := t.p.dst, comm := r.comm.zeroExtend 16, value := BitVec.ofNat 32 r.chunk }
      else
        match (s.core r.core).access.flights.find? (·.seq == r.seq) with
        | some f => flightFault s r.core f codeTimeout 3 fun q =>
            { q with chip := t.p.dst, cycle := elapsed, comm := r.comm.zeroExtend 16, value := BitVec.ofNat 32 r.chunk }
        | none => s

/-- A port has a credit for a virtual channel; ports 8 and 9 need none (R210). -/
def hasCredit (s : State) (n : Nat) (vc : Fin 8) : Bool := if h : n < 8 then 0 < (s.fab.ports[(⟨n, h⟩ : Fin 8)]).credits[vc] else true

/-- Inject a packet under its tag: its timer is armed with the settings of now, and its charge taken (R211, R216, R223). -/
def injectTagged (s : State) (t : Tag) (e : WinEntry) (rest : List WinEntry) : State :=
  let t1 := { t with sent := true, sentTick := s.now, noticed := false, timeout := s.fab.timeout, retries := s.fab.retries }
  let s1 := { s with fab := { s.fab with
    tags := s.fab.tags.filter (·.tag != t.tag) ++ [t1],
    wins := rest ++ [if windowed t.p then { e with outstanding := e.outstanding + t.p.charge } else e] } }
  inject s1 { t.p with step := s.job.step, tag := t.tag }

/-- Try to send one waiting packet: fenced at injection, held for a tag, room or a credit, or injected (R211, R212, R215, R221). -/
def sendOne (s : State) (i : Nat) : State :=
  match s.fab.sendQ[i]? with
  | none => s
  | some q =>
    let out : State := { s with fab := { s.fab with sendQ := s.fab.sendQ.eraseIdx i } }
    let e := routeOf s q.p.dst
    let vc := injectVc e ((typeClass q.p.type).getD 3)
    if s.fab.fenced || s.job.quiescing then s
    else if routeFenced e then
      reportFenced (match q.held with | some n => freeTag out n | none => out) q.issuer q.p 1
    else
      match (match q.held with | some n => some n | none => pickTag s q.issuer) with
      | none => s
      | some n =>
        match takeWin s q.p.dst with
        | none =>
          if q.waited then s
          else { s with fab := { s.fab with windowWait := bump s.fab.windowWait, sendQ := s.fab.sendQ.set i { q with waited := true } } }
        | some (w, rest) =>
          if windowed q.p && !winRoom w q.p.charge then s
          else if routeUsable e && !hasCredit s (routePort e) vc then countStall s (routePort e) vc
          else
            let t : Tag := match q.held.bind fun n => s.fab.tags.find? (·.tag == n) with
              | some t => t
              | none => { tag := n, issuer := q.issuer, p := q.p, dest := q.dest, used := 0, sent := false, sentTick := 0, resent := false, noticed := false, timeout := 0, retries := 0 }
            injectTagged out t w rest

/-- A transaction timer expires (R214, R219): void when the same tick brings a completion or a fence notice for the attempt (R217). -/
def timerExpires (s : State) (n : BitVec 15) (elapsed : W32) : State :=
  match s.fab.tags.find? (·.tag == n) with
  | none => s
  | some t =>
    if !t.sent || t.noticed || completesNow s n t.p.attempt || fencedNow s n t.p.attempt then s
    else
      let s1 := timeoutWin { s with fab := { s.fab with timeouts := bump s.fab.timeouts } } t
      if t.resendable then
        let t1 := { t with p := { t.p with attempt := t.p.attempt + 1 }, used := t.used + 1, sent := false, resent := false }
        let s2 := updTag { s1 with fab := { s1.fab with retriesSent := bump s1.fab.retriesSent } } n fun _ => t1
        let k := s2.fab.sendQ.length
        sendOne { s2 with fab := { s2.fab with sendQ := s2.fab.sendQ ++ [{ issuer := t.issuer, p := t1.p, dest := t.dest, held := some n, waited := false }] } } k
      else reportTimeout (freeTag s1 n) t elapsed

/-- The same attempt goes again after a retry notice (R204): its timer restarts, its charge was kept. -/
def resendNoticed (s : State) (n : BitVec 15) : State :=
  match s.fab.tags.find? (·.tag == n) with
  | none => s
  | some t =>
    if !t.noticed || s.fab.fenced || s.job.quiescing then s
    else if chipFenced s t.p.dst then reportFenced (freeTag (releaseWin s t) n) t.issuer t.p 1
    else
      inject (updTag s n fun t => { t with noticed := false, sentTick := s.now, resent := true, timeout := s.fab.timeout, retries := s.fab.retries }) { t.p with step := s.job.step, tag := n }

/-! ## Completions (R75, R204, R217, R218) -/

def lateCompletion (s : State) : State := { s with fab := { s.fab with lateCompletion := bump s.fab.lateCompletion } }

/-- The packet of an instruction has its outcome. -/
def closeIssuer (s : State) (i : Issuer) : State := match i with | .access c seq => closeFlight s c seq | .coll _ => s

/-- A completion with an error status (R204, R345). -/
def refusedRemote (s : State) (t : Tag) (p : Packet) (status : Nat) : State :=
  match t.issuer with
  | .access c seq =>
    match (s.core c).access.flights.find? (·.seq == seq) with
    | some f => flightFault s c f codeHbmRange (0x80 + status) fun r => { r with chip := p.src, addr := t.p.addr }
    | none => s
  | .coll id =>
    match s.coll.runs.find? (·.id == id) with
    | none => s
    | some r =>
      let q : Record := { Record.blank with chip := p.src, addr := t.p.addr, comm := r.comm.zeroExtend 16, value := BitVec.ofNat 32 r.chunk }
      if r.drain then streamFault s r.core { q with code := codeHbmRange, cause := BitVec.ofNat 8 (0x80 + status), source := 3, opcode := 0x18 }
      else
        match (s.core r.core).access.flights.find? (·.seq == r.seq) with
        | some f => flightFault s r.core f codeHbmRange (0x80 + status) fun x => { x with chip := q.chip, addr := q.addr, comm := q.comm, value := q.value }
        | none => s

/-- A reserved status counts as malformed, on the port that leads back to the responder. -/
def countReserved (s : State) (p : Packet) : State :=
  updPort s (routePort (routeOf s p.src)) fun q => { q with malformed := bump q.malformed }

/-- An acknowledgement reaches the completion table. -/
def completeAck (s : State) (p : Packet) : State :=
  match findTag s p.tag p.attempt with
  | none => if endedNow s p.tag p.attempt then s else lateCompletion s
  | some t =>
    let st := p.status.toNat
    let echo := p.ece || p.ce
    if st = 1 then updTag s t.tag fun x => { x with noticed := true }
    else
      let s1 := endTag (completeWin s t echo) t
      if st = 0 then
        (match t.issuer with | .coll _ => collAcked s1 t.p p | i => closeIssuer s1 i)
      else if 0x10 ≤ st && st ≤ 0x17 then refusedRemote s1 t p st
      else refusedRemote (countReserved s1 p) t p 0x11

/-- Where get data goes (R75). -/
def placeData (s : State) (d : LocalDest) (bs : List PByte) : State :=
  match d with
  | .spad c a => s.updCore c fun k => spadPut k a bs
  | .hbm a => hbmPut s a bs
  | .none => s

/-- Get data reaches the completion table: written only when accepted (R218). -/
def completeData (s : State) (p : Packet) : State :=
  if p.status ≠ 0 then completeAck s p
  else
    match findTag s p.tag p.attempt with
    | none => if endedNow s p.tag p.attempt then s else lateCompletion s
    | some t => closeIssuer (placeData (endTag (completeWin s t (p.ece || p.ce)) t) t.dest p.bytes) t.issuer

/-! ## Responders (R74, R175, R204) -/

/-- An access that carries a later step than this module's to a sided alias is held (R175). The step numbers are compared modulo
2^32, as they pass from their last value to 0 (R121). -/
def mustHold (s : State) (p : Packet) : Bool :=
  match regionOf s.mem.regions p.addr.toNat with
  | some (r, _) => r.sided && p.step ≠ s.job.step && (p.step - s.job.step).toNat < 2 ^ 31
  | none => false

def holdAccess (s : State) (p : Packet) : State := { s with mem := { s.mem with held := s.mem.held ++ [{ p := p }] } }

/-- The GETDATA that answers a GETREQ (R201, R204). -/
def getdataOf (s : State) (p : Packet) : Packet :=
  { packetTo s 0x08 p.src with tag := p.tag, attempt := p.attempt, ece := p.ce }.load (readHbmP s p.addr.toNat (p.length.toNat + 1))

/-- The responder's action on a request. -/
def respond (s : State) (p : Packet) : State :=
  let a := p.addr.toNat
  match p.type.toNat with
  | 1 =>
    match hbmCause s a (p.length.toNat + 1) false true with
    | some x => inject s (ackOf s p x)
    | none => inject s (getdataOf s p)
  | 2 =>
    match hbmCause s a p.payload.length true true with
    | some x => inject s (ackOf s p x)
    | none => inject (hbmPut s a p.bytes) (ackOf s p 0)
  | _ =>
    let n := atomBytes p.fmt
    match hbmCause s a p.payload.length true (n ≠ 0 && a % n == 0) with
    | some x => inject s (ackOf s p x)
    | none => inject (atomicMany s p.fmt p.op (elemsAt n a p.bytes)) (ackOf s p 0)

def request (s : State) (p : Packet) : State := if mustHold s p then holdAccess s p else respond s p

def releaseHeld (s : State) (i : Nat) : State :=
  match s.mem.held[i]? with
  | none => s
  | some h => if mustHold s h.p then s else respond { s with mem := { s.mem with held := s.mem.held.eraseIdx i } } h.p

/-! ## Fences (R217, R221) -/

/-- Quiesce (R221): segments abort without a record, nothing is injected any more, every cinch is left. -/
def quiesce (s : State) : State :=
  let s1 := stopCores s
  { s1 with coll := { s1.coll with cinches := [], owed := [] }, fab := { s1.fab with sendQ := [] },
            job := { s1.job with dispatching := false, quiescing := true } }

/-- This module is fenced: it quiesces, reports it, and RUNNING becomes STOPPED (R221, R302, R307). -/
def fencedSelf (s : State) : State :=
  let s1 := quiesce s
  let s2 := stopJob { s1 with fab := { s1.fab with fenced := true } }
  raiseOpen s2 0x02

/-- A fence notice (R217, R218, R221): void for a packet that this tick completes. -/
def fenceNotice (s : State) (p : Packet) : State :=
  let f : Chip := BitVec.ofNat 16 (leAt p.cls 0 2)
  let s1 := { s with fab := { s.fab with fenceRx := bump s.fab.fenceRx } }
  let s2 :=
    if endsNow s p.tag p.attempt || endedNow s p.tag p.attempt then s1
    else match findTag s1 p.tag p.attempt with
      | some t => reportFenced (endTag (releaseWin s1 t) t) t.issuer t.p 0
      | none => { s1 with fab := { s1.fab with lateFence := bump s1.fab.lateFence } }
  if f = s.fab.chip && !s.fab.fenced then fencedSelf s2 else s2

/-! ## Ports (R210, R213, R222) -/

def above75 (q : Port) (vc : Fin 8) : Bool := 3 * (q.inForce[vc]).toNat < 4 * q.occupancy[vc]

/-- The shares of four channels as a register write gives them. -/
def shareWords (v : W64) : List W16 := (List.range 4).map fun i => BitVec.ofNat 16 (bitsOf v.toNat (16 * i) 16)

/-- A write of four shares is accepted when every share is at least 64 flits and the eight sum to at most 16,384 (R210). -/
def writeShares (q : Port) (high : Bool) (v : W64) : Port :=
  let w := shareWords v
  let o := q.shares.toList
  let l := if high then o.take 4 ++ w else w ++ o.drop 4
  if l.all (fun x => 64 ≤ x.toNat) && (l.map BitVec.toNat).sum ≤ 16384 then { q with shares := Vector.ofFn fun i => l.getD i.val 0 } else q

/-- A runtime write of a route entry (R207, R208). -/
def writeRoute (s : State) (d : Chip) (v : W32) : State :=
  let old := routeOf s d
  let fence := routeFenced old || v.getLsbD 5
  let e : W32 := BitVec.ofNat 32 (v.toNat % 32 + bit fence 5 + 64 + 128 * routeVset v)
  let s1 := if routeFenced old && !v.getLsbD 5 then { s with fab := { s.fab with fenceClearRefused := bump s.fab.fenceClearRefused } } else s
  { s1 with fab := { s1.fab with routes := s1.fab.routes.filter (·.1 != d.toNat) ++ [(d.toNat, e)] } }

/-- A BEAT packet on a port (R222). -/
def beatOn (s : State) (port : PortId) : State :=
  let q := s.fab.ports[port]
  if q.up then emit s port.val 6 8 0 (packetTo s 0x1A q.neighbour).sealed else s

def silentOn (s : State) (port : PortId) : State :=
  if (s.fab.ports[port]).silent then s
  else
    let s1 := updPort s port.val fun q => { q with silent := true }
    raiseOpen s1 0x03

/-! ## The meanings -/

/-- A held access to a sided alias proceeds once this module's step reaches its own (R175). -/
def execSidedAccessRelease (idx : Nat) (s : State) : Host.Outcome State Fault Refusal := .next (releaseHeld s idx)

/-- A header flit arrives at the router (R207). -/
def execRouteLookup (port : Fin 10) (vc : Fin 8) (p : Packet) (s : State) : Host.Outcome State Fault Refusal := .next (routeHeader s port vc p)

/-- A packet's tail arrives at its destination (R220). -/
def execPacketIngress (p : Packet) (s : State) : Host.Outcome State Fault Refusal := .next (ingress s p)

/-- GETREQ at its responder (R203, R204). -/
def execGetreq (p : Packet) (s : State) : Host.Outcome State Fault Refusal := .next (accepting s { p with type := 0x01 } (request · { p with type := 0x01 }))

/-- PUT at its responder (R203, R204). -/
def execPut (p : Packet) (s : State) : Host.Outcome State Fault Refusal := .next (accepting s { p with type := 0x02 } (request · { p with type := 0x02 }))

/-- ATOMIC at its responder (R203, R204, R180). -/
def execAtomic (p : Packet) (s : State) : Host.Outcome State Fault Refusal := .next (accepting s { p with type := 0x03 } (request · { p with type := 0x03 }))

/-- GETDATA at the completion table (R217, R218). -/
def execGetdata (p : Packet) (s : State) : Host.Outcome State Fault Refusal := .next (accepting s p (completeData · p))

/-- ACK at the completion table (R204, R217, R218). -/
def execAck (p : Packet) (s : State) : Host.Outcome State Fault Refusal := .next (accepting s p (completeAck · p))

/-- 64 ticks after a retry notice the same attempt is resent (R204). -/
def execRetryResend (tag : BitVec 15) (s : State) : Host.Outcome State Fault Refusal := .next (resendNoticed s tag)

/-- A waiting packet is injected (R211, R215, R221). -/
def execPacketSend (idx : Nat) (s : State) : Host.Outcome State Fault Refusal := .next (sendOne s idx)

/-- A transaction timer expires (R219). -/
def execTxnTimeout (tag : BitVec 15) (elapsed : W32) (s : State) : Host.Outcome State Fault Refusal := .next (timerExpires s tag elapsed)

/-- A fence notice arrives (R218, R221). -/
def execFenceNotice (p : Packet) (s : State) : Host.Outcome State Fault Refusal := .next (accepting s p (fenceNotice · p))

/-- A port sends its BEAT (R222). -/
def execBeat (port : PortId) (s : State) : Host.Outcome State Fault Refusal := .next (beatOn s port)

/-- A port has received nothing for 10,000 ticks (R222). -/
def execPortSilent (port : PortId) (s : State) : Host.Outcome State Fault Refusal := .next (silentOn s port)

/-- An input virtual channel above 75 % for 100 ticks becomes congested (R213). -/
def execCongestionOnset (port : PortId) (vc : Fin 8) (s : State) : Host.Outcome State Fault Refusal :=
  .next (if vc.val < 6 && above75 s.fab.ports[port] vc then updPort s port.val fun q => { q with congested := q.congested.set vc true } else s)

/-- A congested channel found at or below 75 % (R213). -/
def execCongestionClear (port : PortId) (vc : Fin 8) (s : State) : Host.Outcome State Fault Refusal :=
  .next (if above75 s.fab.ports[port] vc then s else updPort s port.val fun q => { q with congested := q.congested.set vc false })

/-- A runtime write of a route entry (R208). -/
def execRouteWrite (chip : Chip) (value : W32) (s : State) : Host.Outcome State Fault Refusal := .next (s.onRails fun t => writeRoute t chip value)

/-- A write of virtual-channel shares (R210). -/
def execVcbufWrite (port : PortId) (high : Bool) (value : W64) (s : State) : Host.Outcome State Fault Refusal :=
  .next (s.onRails fun t => updPort t port.val fun q => writeShares q high value)

end Sys2Proof.Machine
end

