-- ==== Sys2Proof/Machine/Segments.lean ====
section
/-! DEFINITION. Steps and segments: the step context (R45, R118, R120, R151), the dispatcher's choice (R45, R166, R337), the
start and the end of a segment (R36, R40, R45, R55, R71, R97). -/

namespace Sys2Proof.Machine

/-! ## The start of a step -/

/-- The 64 bytes of the step context record (R120); a replay's is that of the replayed step (R165). -/
def contextBytes (s : State) : List Byte :=
  leBytes 4 s.job.step.toNat ++ leBytes 1 (BitVec.ofInt 8 s.job.l).toNat ++ [0] ++ leBytes 2 s.job.clean ++
    leBytes 4 (pow2 s.job.l).toNat ++ leBytes 4 (pow2 (-s.job.l)).toNat ++ leBytes 4 (if s.job.replay.isSome then s.job.freqKept else s.pwr.fJob).toNat ++
    List.replicate 44 0

/-- Every block counter and window partial of a group to zero (R151). -/
def clearGroup (s : State) (g : Group) : State :=
  if g.rule = 0 then s else (List.range g.windows).foldl (fun t k => storeHbm t (g.headerAt k) (List.replicate 536 0) false) s

/-- The step context is written and the step's records are cleared (R45, R118, R120, R151, R367); dispatch begins. -/
def beginStep (s : State) : State :=
  let s1 := match s.job.manifest with | some m => storeHbm s m.ctx (contextBytes s) false | none => s
  let s2 := s1.upd.groups.foldl clearGroup s1
  { s2 with
    upd := { s2.upd with parked := [], parkUsed := Vector.replicate 12 0, queue := [], second := [], dones := [], census := [],
                          fingers := [], touch := [], touchOver := false },
    mem := { s2.mem with fwUncorrectable := false },
    cores := s2.cores.map fun (k : Core) => { k with overflow := false, finished := [], heldCounted := [], held3 := false },
    job := { s2.job with events := [], overflow := false, consumedNow := false, entered := false, deferred := false, firstEntry := true,
                          dispatching := true } }

/-! ## Readiness (R45) -/

/-- Segments of the image that name an event among their outbound events. -/
def namers (s : State) (e : W16) : Nat := (s.cores.toList.map fun k => (k.segments.filter fun g => g.outbound.contains e).length).sum

def signals (s : State) (e : W16) : Nat := ((s.job.events.find? (·.1 == e)).map (·.2)).getD 0

def arrived (s : State) (e : W16) : Bool := namers s e ≤ signals s e

/-- The ready segments of a core, ascending: not yet run in this step, every inbound event arrived. -/
def readySegments (s : State) (c : CoreId) : List (Nat × Segment) :=
  let k := s.core c
  (k.segments.zipIdx.map fun g => (g.2, g.1)).filter fun g => !k.finished.contains g.1 && g.2.inbound.all (arrived s)

/-- The update segments of the S64 on a core (R166). -/
def readyUpdates (s : State) (c : CoreId) : List Pass :=
  if s.glb.variant == .s64 then
    s.upd.queue.filter fun p => match passPlace s p with | some (k, ch) => (16 * k + ch) % 64 == c.val | none => false
  else []

/-! ## Start (R36, R40, R55, R71, R97) -/

def slotCount (m n : Nat) (acc : BitVec 4) : Nat := min 32 (262144 / (m * n * if acc = 0xC then 8 else 4))

def engineOf (sh : Nat × Nat × BitVec 4) : Engine :=
  { m := sh.1, n := sh.2.1, acc := sh.2.2, slots := List.replicate (slotCount sh.1 sh.2.1 sh.2.2) Slot.reset }

def blankLane : AwlLane := { seeded := false, tid := 0, idx := 0 }

/-- What every segment starts from: empty queues, invalid registers, unseeded lanes, the default budget. -/
def Core.fresh (k : Core) (budget : W32) : Core :=
  { k with status := 1, faulted := false, faultDue := none, secondaryNow := 0, aq := Vector.replicate 4 [], eq := Vector.replicate 4 [],
           lanes := Vector.replicate 4 blankLane, halves := Vector.replicate 2 Half.reset, taccs := [],
           access := { Access.reset with budget := budget, nextSeq := k.access.nextSeq }, exec := Execute.reset }

def Core.startSegment (k : Core) (i : Nat) (g : Segment) (budget : W32) : Core :=
  { k.fresh budget with running := some i, segment := BitVec.ofNat 16 i, held3 := false,
                        engines := Vector.ofFn fun e => engineOf (g.shapes.getD e.val (32, 16, 0)) }

def defaultBudget (s : State) : W32 := (s.job.manifest.map (·.budget)).getD 0

/-- The first dispatch of a job completes START, and the state becomes RUNNING (R307). -/
def jobStarts (s : State) : State :=
  match s.job.startRing with
  | some (r, i) =>
    let s1 := finishDesc s r i 0 0 0 0
    { s1 with hlk := { s1.hlk with state := .running }, job := { s1.job with startRing := none } }
  | none => s

def startSegment (s : State) (c : CoreId) (i : Nat) (g : Segment) : State :=
  jobStarts (s.updCore c fun k => k.startSegment i g (defaultBudget s))

/-- An update segment starts. Its index in the image is the loader's and is not given: the register takes a free value. -/
def startUpdate (s : State) (c : CoreId) (p : Pass) : State :=
  let f := s.draw
  let s1 := f.2.updCore c fun k => { k.fresh (defaultBudget s) with running := some 16384, segment := f.1.setWidth 16, updating := some p }
  { s1 with upd := { s1.upd with queue := s1.upd.queue.filter (· ≠ p) } }

/-- A core can take a segment: the job runs and dispatches, the core is present and free (R45, R347, R356). -/
def coreFree (s : State) (c : CoreId) : Bool :=
  let k := s.core c
  (s.hlk.state == .running || (s.hlk.state == .loaded && s.job.startRing.isSome)) && s.job.dispatching && s.jobSide && k.present && k.running.isNone && !k.sliceOn

/-- Count a class-3 segment held for the first time in the step (R337, R341). -/
def hold3 (s : State) (c : CoreId) (i : Nat) : State :=
  let s1 := s.updCore c fun k => { k with held3 := true }
  if (s.core c).heldCounted.contains i then s1
  else { (s1.updCore c fun k => { k with heldCounted := i :: k.heldCounted }) with pwr := { s1.pwr with class3Held := bump s1.pwr.class3Held } }

/-- The dispatcher's choice (R337); an update segment comes first of class 0 (R166, log entry 16). -/
def dispatch (s : State) (c : CoreId) : State :=
  let rs := readySegments s c
  let low := rs.find? fun g => g.2.cls.toNat ≤ 1
  let two := rs.find? fun g => g.2.cls.toNat ≤ 2
  match firstPass (readyUpdates s c) with
  | some p => startUpdate s c p
  | none =>
    if headroom s = 0 then
      match rs.head? with | some g => startSegment s c g.1 g.2 | none => s
    else
      match low, two, rs.head? with
      | some g, _, _ => startSegment s c g.1 g.2
      | none, some g, _ => startSegment s c g.1 g.2
      | none, none, some g => if headroom s = 1 then startSegment s c g.1 g.2 else hold3 s c g.1
      | none, none, none => s

/-! ## End (R36, R45) -/

/-- The last execute cycle that an instruction of the block still occupies. -/
def Execute.endCycle (x : Execute) : Nat :=
  (x.windows.map fun w => max (max w.freeAt w.readyAt) ((w.accesses.map (·.2.2 + 1)).foldl max 0)).foldl max x.cycle

def Execute.beatEnd (x : Execute) : Nat := (x.beats.map (·.1 + 1)).foldl max 0

/-- Both blocks have issued all their instructions. -/
def Core.issued (k : Core) (g : Segment) : Bool :=
  k.access.waiting.isEmpty && k.exec.waiting.isEmpty && k.access.index == g.alen && k.exec.index == g.xlen

/-- A slot is Free once every window has ended. -/
def Slot.freed (v : Slot) : Bool := match v.st with | .free => true | .draining _ (some _) => true | _ => false

/-- The conditions of R45 for the end of a segment. -/
def Core.retired (k : Core) (g : Segment) : Bool :=
  k.issued g && k.access.flights.isEmpty && k.taccs.isEmpty && k.engines.toList.all (fun e => e.slots.all Slot.freed) &&
    k.halves.toList.all fun h => !h.busy && !h.pushDue

def queued (k : Core) : Nat := ((k.aq.toList ++ k.eq.toList).map (·.length)).sum

/-- Leftover entries are discarded and counted (R36); the core is idle. -/
def Core.finish (k : Core) (i : Nat) : Core :=
  let t := k.exec.endCycle
  let k1 := k.flushBeats (max (k.exec.beatEnd) t)
  { k1 with running := none, status := 0, finished := i :: k1.finished, leftover := k1.leftover + BitVec.ofNat 64 (queued k),
            execCycles := k1.execCycles + BitVec.ofNat 64 (t - k.exec.cycle), aq := Vector.replicate 4 [], eq := Vector.replicate 4 [],
            exec := { k1.exec with windows := [], trains := [], cycle := t } }

/-- An ended segment counts once for an event, however often its header names it (R45). -/
def addSignal (l : List (W16 × Nat)) (e : W16) : List (W16 × Nat) :=
  if l.any (·.1 == e) then l.map fun x => if x.1 == e then (e, x.2 + 1) else x else l ++ [(e, 1)]

def signalEvents (s : State) (es : List W16) : State := { s with job := { s.job with events := es.eraseDups.foldl addSignal s.job.events } }

/-- The first slip of a block whose instructions have all issued (R38). -/
def strandedBeat (k : Core) : Option Slip :=
  lateSlip k (k.exec.due.foldl (fun m x => max m (x.cycle + 1)) (k.exec.trains.foldl (fun m q => max m (q.first + 1)) 0))

def endSegment (s : State) (c : CoreId) : State :=
  let k := s.core c
  match k.running, k.updating with
  | some _, some p => (completePass s p).updCore c fun k => { k with running := none, updating := none, status := 0 }
  | some i, none =>
    match k.segments[i]? with
    | none => s
    | some g =>
      match (if k.issued g then strandedBeat k else none) with
      | some x => slipFault s c x
      | none => if k.retired g then signalEvents (s.updCore c fun q => q.finish i) g.outbound else s
  | none, _ => s

/-! ## The meanings -/

/-- A cluster dispatcher starts a ready segment on a free core (R45, R337). -/
def execSegmentDispatch (core : CoreId) (s : State) : Host.Outcome State Fault Refusal :=
  .next (if coreFree s core then dispatch s core else s)

/-- A segment ends and signals its events (R45). -/
def execSegmentEnd (core : CoreId) (s : State) : Host.Outcome State Fault Refusal := .next (endSegment s core)

/-- A held class-3 segment starts after 100 µs without lower-class work (R337). -/
def execClass3HoldExpiry (core : CoreId) (s : State) : Host.Outcome State Fault Refusal :=
  .next <|
    let rs := readySegments s core
    match rs.head? with
    | some g =>
      if coreFree s core && (s.core core).held3 && rs.all (fun x => x.2.cls == 3) && (readyUpdates s core).isEmpty then
        let s1 := startSegment s core g.1 g.2
        { s1 with pwr := { s1.pwr with holdExpired := bump s1.pwr.holdExpired } }
      else s
    | none => s

end Sys2Proof.Machine
end

