-- ==== Sys2Proof/Machine/Power.lean ====
section
/-! DEFINITION. Power, thermal and frequency (R321–R341): caps and power messages, estimate, telemetry, headroom, limiters,
temperatures, trips, governors. -/

namespace Sys2Proof.Machine

def updPwr (s : State) (f : Pwr → Pwr) : State := { s with pwr := f s.pwr }

/-- The effective cap C (R321). -/
def capOf (s : State) : Nat := min s.pwr.capRack.toNat s.pwr.hcap.toNat

/-- A host cap outside 600–2,400 W is refused (R321). -/
def setHcap (s : State) (value : W16) : State :=
  updPwr s fun p => if 600 ≤ value.toNat && value.toNat ≤ 2400 then { p with hcap := value, hcapErr := false } else { p with hcapErr := true }

/-- A ceiling off the 25 MHz grid or outside 900–1,750 MHz is refused (R334). -/
def setFceil (s : State) (value : BitVec 11) : State :=
  updPwr s fun p =>
    if 900 ≤ value.toNat && value.toNat ≤ 1750 && value.toNat % 25 = 0 then { p with fceil := value, fceilErr := false } else { p with fceilErr := true }

/-! ## Halving (R327) -/

/-- Halving is engaged while any of fast rise, RED and the peak limiter requires it. -/
def rehalve (s : State) : State := updPwr s fun p => { p with halving := p.fastRise || p.peak || headroom s == 2 }

/-! ## Power messages (R322, R340, R403) -/

def iana : List Byte := [0x00, 0x01, 0xC6, 0xE5]

/-- A power message for this endpoint: vendor type, Nerzor's number, an EID assigned, the service side powered (R402, R403). -/
def powerMessage (s : State) (body : List Byte) : Bool :=
  s.inp.aux && s.inp.eid ≠ 0 && (byteAt body 0).toNat == 0x7F && (body.drop 1).take 4 == iana

def respondMsg (s : State) (cmd : Byte) (code : Byte) (data : List Byte) : State := s.say (.mctp ([0x7F] ++ iana ++ [cmd, code] ++ data))

/-- Readings in steps of 50 W in confidential mode, rounded down as R225 rounds (R340). -/
def coarse (s : State) (w : Nat) : Nat := if s.sec.conf then w / 50 * 50 else w

def setCap (s : State) (body : List Byte) : State :=
  if powerMessage s body then
    let cap := leAt body 6 2
    if body.length = 8 && 600 ≤ cap && cap ≤ 2400 then
      let s1 := updPwr s fun p => { p with capRack := BitVec.ofNat 16 cap }
      respondMsg s1 1 0 (leBytes 2 (capOf s1))
    else respondMsg s 1 2 (leBytes 2 (capOf s))
  else s

def statusData (s : State) : List Byte :=
  leBytes 2 (capOf s) ++ leBytes 2 (coarse s s.pwr.pAvg.toNat) ++ leBytes 2 (coarse s s.pwr.demand.toNat) ++ leBytes 1 (headroom s) ++
    leBytes 2 s.pwr.fJob.toNat ++ leBytes 2 s.pwr.tDie.toNat ++ leBytes 2 s.pwr.tStack.toNat ++ leBytes 2 s.pwr.tOpt.toNat

/-- GET_STATUS and GET_LIMITS take no request bytes; another length is answered with code 2 (R403). -/
def answerQuery (s : State) (cmd : Byte) (body data : List Byte) : State :=
  if powerMessage s body then (if body.length = 6 then respondMsg s cmd 0 data else respondMsg s cmd 2 []) else s

def limitsData : List Byte := leBytes 2 2400 ++ leBytes 2 3000 ++ leBytes 2 5 ++ leBytes 2 600

/-! ## Estimate, peak limiter, telemetry (R323, R324, R326, R393) -/

/-- P_lim in 0.1 W (R323). -/
def limOf (p : Pwr) : Nat := if p.telemetryBad then 11 * p.pEst.toNat else 10 * max p.pEst.toNat p.pMeas.toNat

/-- The clocks of the unit classes of R323 in MHz (R412, log entry 117): only CMP follows the job frequency; it runs at 900 MHz before one
is set (R418). -/
def classMhz (s : State) : List Nat :=
  let cmp := if s.pwr.fJob = 0 then 900 else s.pwr.fJob.toNat
  [cmp, cmp, 2000, 1200, 1200, 1750, 2000]

/-- P_est in W: the static term at the die temperature and, for each unit class, coefficient × activity count × clock (R323). -/
def estimate (s : State) (activity : List W32) : Nat :=
  Config.staticPower s.pwr.tDie +
    ((List.finRange 7).map fun i =>
      (s.pwr.coeffs[i]).coeff.toNat * (activity.getD i.val 0).toNat * (classMhz s).getD i.val 0).sum / 10 ^ 12

/-- The estimate of the last microsecond, which the averages of R324 and R325 take in. -/
def estimateStep (s : State) (activity : List W32) : State :=
  updPwr s fun p =>
    let q := { p with pEst := BitVec.ofNat 16 (estimate s activity) }
    { q with limSum := q.limSum + limOf q, limN := q.limN + 1, estSum := q.estSum + q.pEst.toNat, estN := q.estN + 1 }

/-- The peak limiter's bucket after one update, in units of 0.1 µJ (R326). -/
def bucketAfter (s : State) : Nat := s.pwr.bucket + limOf s.pwr - 24000

/-- The peak limiter over one microsecond at P_lim; the bucket is in 0.1 µJ (R326). -/
def peakStep (s : State) : State :=
  let p := limOf s.pwr
  let b := bucketAfter s
  let on := 25000000 ≤ b || 29500 < p
  let off := b ≤ 5000000 && p < 28000
  let peak := if on then true else if off then false else s.pwr.peak
  rehalve (updPwr s fun q => { q with bucket := b, peak := peak, peakEngaged := if peak && !q.peak then bump q.peakEngaged else q.peakEngaged })

/-- A reading that by itself makes the telemetry implausible (R324). -/
def badReading (r : PowerReading) : Bool := 3600 < r.watts.toNat || r.decivolts.toNat < 450 || 650 < r.decivolts.toNat || r.fault

/-- Plausibility after one 50 µs reading slot: entered at once or after 200 µs without a fresh reading, left after 10 ms of plausible
readings; each raises event 0x09 (R324). -/
def judgeTelemetry (s : State) (r : PowerReading) : State :=
  let stale := if r.fresh then 0 else s.pwr.staleReads + 1
  let bad := (r.fresh && badReading r) || 4 ≤ stale
  let good := if bad || !r.fresh then 0 else s.pwr.goodReadings + 1
  let s1 := updPwr s fun p => { p with staleReads := stale, goodReadings := good,
                                       pMeas := (if r.fresh then r.watts else p.pMeas),
                                       measSum := p.measSum + (if r.fresh then r.watts else p.pMeas).toNat, measN := p.measN + 1 }
  if bad && !s.pwr.telemetryBad then
    raiseOpen (updPwr s1 fun p => { p with telemetryBad := true, telemetryEvents := bump p.telemetryEvents }) 0x09
  else if s.pwr.telemetryBad && !bad && 200 ≤ good then raiseOpen (updPwr s1 fun p => { p with telemetryBad := false }) 0x09
  else s1

/-- The voltage rating, one event an episode, ended by 10 ms of readings within it (R393). -/
def judgeVoltage (s : State) (r : PowerReading) : State :=
  if !r.fresh then s
  else
    let out := r.decivolts.toNat < 500 || 620 < r.decivolts.toNat
    let s1 := { s with inp := { s.inp with inputDv := r.decivolts } }
    if out then
      (if s.pwr.inputBad then updPwr s1 fun p => { p with inputGood := 0 }
       else raiseOpen (updPwr s1 fun p => { p with inputBad := true, inputGood := 0 }) 0x09)
    else if s.pwr.inputBad then
      updPwr s1 fun p => { p with inputGood := p.inputGood + 1, inputBad := !(199 ≤ p.inputGood) }
    else s1

/-- The sum and number of the values of a millisecond, or the value itself where none came. -/
def msMean (sum n : Nat) (v : W16) : Nat × Nat := if n = 0 then (v.toNat, 1) else (sum, n)

/-- The averages of the millisecond differ by more than 15 % of the measurement (R324). -/
def divergent (p : Pwr) : Bool :=
  let e := msMean p.estSum p.estN p.pEst
  let m := msMean p.measSum p.measN p.pMeas
  15 * (m.1 * e.2) < 100 * ((e.1 * m.2 : Nat) - (m.1 * e.2 : Nat) : Int).natAbs

/-- The comparison of a millisecond while the telemetry is plausible; the eleventh divergent one in a row is logged (R324). -/
def divergence (s : State) : State :=
  let s1 := updPwr s fun p => { p with estSum := 0, estN := 0, measSum := 0, measN := 0 }
  if s.pwr.telemetryBad then s1
  else if divergent s.pwr then
    let n := s.pwr.divergentMs + 1
    if n = 11 then raiseCode (updPwr s1 fun p => { p with divergentMs := n, diverging := true, divergence := bump p.divergence }) 0x09 codeDivergence
    else updPwr s1 fun p => { p with divergentMs := n }
  else updPwr s1 fun p => { p with divergentMs := 0, diverging := false }

/-! ## Headroom (R325, R328) -/

/-- The state of a sensor group by its AMBER and RED thresholds, in 0.25 °C. -/
def bandOf (t : Temp) (amber red : Int) : Nat := if red < t.toInt then 2 else if amber < t.toInt then 1 else 0

def thermalState (s : State) : Nat := max (bandOf s.pwr.tDie 400 432) (max (bandOf s.pwr.tStack 360 380) (bandOf s.pwr.tOpt 320 340))

/-- The power state of a sum of n samples, in 0.01 W, against the cap in W (R325). -/
def powerState (sum n cap : Nat) : Nat := if sum ≤ 95 * cap * n then 0 else if sum ≤ 100 * cap * n then 1 else 2

/-- S: the mean of P_lim over the interval, in 0.01 W; P_lim as it stands where no value came in it (R325). -/
def limMean (p : Pwr) : Nat := if p.limN = 0 then 10 * limOf p else 10 * p.limSum / p.limN

/-- The cap_unmet watch: RED under halving with no class-3 segment running for 1 ms, which has passed at the 101st sample (R325). -/
def capWatch (s : State) (ov : Bool) : State :=
  if headroom s = 0 then updPwr s fun p => { p with capUnmet := false, redHalved := 0 }
  else if headroom s = 2 && ov && !class3Runs s then
    let n := s.pwr.redHalved + 1
    if 101 ≤ n && !s.pwr.capUnmet then raiseOpen (updPwr s fun p => { p with redHalved := n, capUnmet := true }) 0x09
    else updPwr s fun p => { p with redHalved := n }
  else updPwr s fun p => { p with redHalved := 0 }

/-- The highest of some temperatures; 0 of none. -/
def hottest : List Temp → Temp
  | [] => 0
  | [t] => t
  | t :: l => if (hottest l).slt t then t else hottest l

/-- The highest reading of the stacks and of the optical engines (R168, R253, R341). -/
def hottestStack (s : State) : Temp := hottest ((s.mem.hbmStacks.toList.filter (·.present)).map (·.temp))
def hottestEngine (s : State) : Temp := hottest (((List.finRange 4).filter fun e => enginePresent s e.val).map fun e => s.opt.temps[e])

/-- The 10 µs sample (R325). The average is over the samples taken so far while fewer than 10,000 exist (log entry 18). -/
def headroomStep (s : State) : State :=
  let l := (limMean s.pwr :: s.pwr.samples).take 10000
  let sum := l.sum
  let ps := powerState sum l.length (capOf s)
  let s1 := updPwr s fun p => { p with samples := l, limSum := 0, limN := 0, pAvg := BitVec.ofNat 16 (sum / l.length / 100), views := ((p.pEst, p.pMeas) :: p.views).take 10000,
                                       tStack := hottestStack s, tOpt := hottestEngine s,
                                       pstate := BitVec.ofNat 2 ps, demand := Config.demand s.free }
  let s2 := updPwr { s1 with free := s1.free + 1 } fun p => { p with tstate := BitVec.ofNat 2 (thermalState s1) }
  let h := headroom s2
  let s3 := updPwr s2 fun p => { p with
    amberSamples := if h = 1 then bump p.amberSamples else p.amberSamples, redSamples := if h = 2 then bump p.redSamples else p.redSamples,
    nSamples := p.nSamples + 1, nRed := p.nRed + if ps = 2 then 1 else 0, nAmber := p.nAmber + if ps = 1 then 1 else 0 }
  rehalve (capWatch s3 (ps == 2))

/-! ## Die temperature and fast rise (R267, R329) -/

/-- A heater set point from its ring's record and an engine temperature, with what the lock loop has added (R267). -/
def heaterAt (r : RingRecord) (t : Temp) (trim : W16) : W16 :=
  BitVec.ofInt 16 (r.heater.toInt + r.coeff.toInt * (t.toInt - r.engTemp.toInt) / 4) + trim

/-- The record of ring `i` (R267). -/
def ringRecord (s : State) (i : Nat) : RingRecord := s.opt.records[(Fin.ofNat 128 i : Fin 128)]

/-- A heater after the feed-forward for a rise. -/
def heaterRise (h : W16) (r : RingRecord) (rise : Int) : W16 := BitVec.ofInt 16 (h.toInt + r.coeff.toInt * rise / 4)

/-- Every heater takes the full feed-forward for a rise at once (R267, R329). -/
def heatersRise (s : State) (rise : Int) : State :=
  { s with opt := { s.opt with lanes := s.opt.lanes.mapFinIdx fun i l _ =>
      { l with heatRx := heaterRise l.heatRx (ringRecord s (2 * i)) rise, heatTx := heaterRise l.heatTx (ringRecord s (2 * i + 1)) rise } } }

/-- The rise over the 100 µs, 10 samples, before a sample (R329). -/
def riseOf (t : Temp) (earlier : List Temp) : Option Int := earlier[9]?.map fun o => t.toInt - o.toInt

/-- The last sample kept already showed a rise of more than 5 °C: a rise that goes on is one fast rise, as the example of R329 shows
(log entry 30). -/
def wasSteep : List Temp → Bool
  | [] => false
  | t :: l => match riseOf t l with | some r => decide (20 < r) | none => false

/-- The 10 µs die sample (R329). Halving is in effect 1 µs after the decision, so the 1 ms has passed at the 101st sample after it. -/
def dieStep (s : State) (t : Temp) : State :=
  let s1 := updPwr s fun p => { p with dies := (t :: p.dies).take 11, tDie := t, tMax := if p.tMax.slt t then t else p.tMax,
                                       fastFor := p.fastFor + 1 }
  match riseOf t s.pwr.dies with
  | some r =>
    if 20 < r && !wasSteep s.pwr.dies then
      rehalve (heatersRise (updPwr s1 fun p => { p with fastRise := true, fastSeen := true, fastFor := 0, fastRises := bump p.fastRises }) r)
    else if s.pwr.fastRise && 101 ≤ s1.pwr.fastFor && r < 4 && t.toInt ≤ 420 then rehalve (updPwr s1 fun p => { p with fastRise := false })
    else s1
  | none => s1

/-! ## Droop (R327) -/

/-- A droop doubles the core's period for at least 8 periods, each a hold cycle. -/
def droopOn (s : State) (c : CoreId) : State :=
  if (s.core c).droop then s else s.updCore c fun k => { k with droop := true, droopPeriods := 8, holdDroop := k.holdDroop + 8 }

/-- The supply recovers; the doubled periods beyond the eighth are free in number. -/
def droopOff (s : State) (c : CoreId) : State :=
  if (s.core c).droop then
    let f := s.draw
    f.2.updCore c fun k => { k with droop := false, droopPeriods := 0, holdDroop := k.holdDroop + (f.1.setWidth 16).zeroExtend 64 }
  else s

/-! ## Trips (R330) -/

/-- Stop the job side: clocks stop, combs go dark, the stacks enter self-refresh, TRIP_N is asserted, every cinch is left (R330, R396). -/
def darken (s : State) : State :=
  { (s.say .tripN) with
    inp := { s.inp with clocksStopped := true, tripN := true },
    mem := { s.mem with selfRefresh := true },
    opt := { s.opt with spareLit := false, lanes := s.opt.lanes.map fun (l : Lane) => { l with txActive := false, rxActive := false, pilotX := 0, pilotY := 0 } },
    fab := { s.fab with ports := s.fab.ports.map fun (q : Port) => { q with up := false } },
    coll := { s.coll with cinches := [], owed := [] } }

def trip (s : State) (group : BitVec 3) : State :=
  let s1 := updPwr (darken s) fun p => { p with trip := group, tripPending := true }
  raiseOpen (fatal s1 codeThermalTrip (group.zeroExtend 8) false) 0x09

/-! ## Governors and the offer (R333, R334) -/

def clampF (f hi : Int) : Int := max 900 (min hi f)

def thermGovernor (p : Pwr) : Int :=
  let f : Int := p.fTherm.toNat
  let g := if p.fastSeen then min (f - 25) ((p.fJob.toNat : Int) - 100)
    else if 400 < p.tMax.toInt then f - 25
    else if p.tMax.toInt < 380 then min p.fChar.toNat (f + 25) else f
  clampF g p.fChar.toNat

def powerGovernor (p : Pwr) (cap : Nat) : Int :=
  let f : Int := p.fPwr.toNat
  let sum := p.samples.sum
  let g := if p.nSamples < 100 * p.nRed then f - 50
    else if p.nSamples < 10 * (p.nRed + p.nAmber) then f - 25
    else if p.nRed + p.nAmber = 0 && sum ≤ 90 * cap * p.samples.length then min p.fChar.toNat (f + 25) else f
  clampF g p.fChar.toNat

def offerOf (p : Pwr) : BitVec 11 := BitVec.ofNat 11 (max 900 (min (min p.fChar.toNat p.fceil.toNat) (min p.fTherm.toNat p.fPwr.toNat)))

/-- At the first entry of a step the governors move, and the step's records start again (R333). -/
def govern (s : State) : State :=
  updPwr s fun p =>
    let q := { p with fTherm := BitVec.ofInt 11 (thermGovernor p), fPwr := BitVec.ofInt 11 (powerGovernor p (capOf s)) }
    { q with fOffer := offerOf q, nSamples := 0, nRed := 0, nAmber := 0, fastSeen := false, tMax := q.tDie }

/-- The reduced frequency on the 25 MHz grid (R21, R335, R336). -/
def applyFreq (s : State) (minw : W64) : State := updPwr s fun p => { p with fJob := BitVec.ofNat 11 (minw.toNat / 25 * 25) }

/-! ## The meanings -/

/-- SET_CAP (R321, R322). -/
def execSetCap (body : List Byte) (s : State) : Host.Outcome State Fault Refusal := .next (setCap s body)

/-- GET_STATUS (R322). -/
def execGetStatus (body : List Byte) (s : State) : Host.Outcome State Fault Refusal := .next (answerQuery s 2 body (statusData s))

/-- GET_LIMITS (R322). -/
def execGetLimits (body : List Byte) (s : State) : Host.Outcome State Fault Refusal := .next (answerQuery s 3 body limitsData)

/-- A message with an unlisted command: the completion code 0x01 only (R322). -/
def execUnknownCommand (body : List Byte) (s : State) : Host.Outcome State Fault Refusal :=
  .next (if powerMessage s body && !((byteAt body 5).toNat == 1 || (byteAt body 5).toNat == 2 || (byteAt body 5).toNat == 3)
    then respondMsg s (byteAt body 5) 1 [] else s)

/-- A write of the host cap (R321, R341). -/
def execHcapWrite (value : W16) (s : State) : Host.Outcome State Fault Refusal :=
  .next (s.onRails fun t => setHcap t value)

/-- A write of the frequency ceiling (R334). -/
def execFceilWrite (value : BitVec 11) (s : State) : Host.Outcome State Fault Refusal :=
  .next (s.onRails fun t => setFceil t value)

/-- The power estimate of the last microsecond, from the activity counts of the unit classes (R323). -/
def execEstimateUpdate (activity : List W32) (s : State) : Host.Outcome State Fault Refusal := .next (estimateStep s activity)

/-- The peak limiter with P_lim of the last microsecond (R326). -/
def execPeakUpdate (s : State) : Host.Outcome State Fault Refusal := .next (peakStep s)

/-- The 50 µs power reading (R323, R324, R393). -/
def execPMeasRead (r : PowerReading) (s : State) : Host.Outcome State Fault Refusal := .next (judgeVoltage (judgeTelemetry s r) r)

/-- The millisecond comparison of estimate and measurement (R324). -/
def execDivergenceCheck (s : State) : Host.Outcome State Fault Refusal := .next (divergence s)

/-- The 10 µs headroom sample (R325). -/
def execHeadroomSample (s : State) : Host.Outcome State Fault Refusal := .next (headroomStep s)

/-- The 10 µs die sample: T_j is the highest of the junction sensors (R328, R329). -/
def execDieSample (sensors : List Temp) (s : State) : Host.Outcome State Fault Refusal :=
  .next (if sensors.isEmpty then s else dieStep s (hottest sensors))

/-- A core's supply droops (R327). -/
def execDroopDetect (core : CoreId) (s : State) : Host.Outcome State Fault Refusal := .next (droopOn s core)

/-- A core's supply recovers (R327). -/
def execDroopRecovery (core : CoreId) (s : State) : Host.Outcome State Fault Refusal := .next (droopOff s core)

/-- A sensor group trips (R330). -/
def execThermalTrip (group : BitVec 3) (s : State) : Host.Outcome State Fault Refusal := .next (trip s group)

end Sys2Proof.Machine
end

