-- ==== Sys2Proof/Machine/Commit.lean ====
section
/-! DEFINITION. The commit of a step (R21, R120, R121, R165, R250–R252, R369): outcomes, holds, replays, and what a finished
cinch brings about by its kind (R248, R335). -/

namespace Sys2Proof.Machine

/-! ## L and the clean-step count (R121) -/

def flipLoss (m : Manifest) (l : Int) (c : Nat) : Int × Nat :=
  if c + 1 < m.n then (l, c + 1) else if l < m.lc then (l + 1, 0) else (l, 0)

/-- L and c after a discard, and whether it was a discard at the floor. -/
def discardLoss (m : Manifest) (l : Int) : Int × Nat × Bool := if m.lf < l then (l - 1, 0, false) else (l, 0, true)

/-! ## The replay report (R369) -/

def fingerAt (fs : List Finger) (u : Nat) : W64 × W32 := ((fs.find? (·.unit == u)).map fun x => (x.f, x.n)).getD (0, 0)

/-- The units that either step wrote, ascending (log entry 19). -/
def fingerUnits (a b : List Finger) : List Nat := (a ++ b).foldl (fun l f => setPut f.unit l) []

def fingerDiff (a b : List Finger) (u : Nat) : List Byte :=
  let x := fingerAt a u
  let y := fingerAt b u
  leBytes 2 (if u < 4096 then 0 else 1) ++ leBytes 2 (if u < 4096 then u else u - 4096) ++ [0, 0, 0, 0] ++
    leBytes 8 x.1.toNat ++ leBytes 8 y.1.toNat ++ leBytes 4 x.2.toNat ++ leBytes 4 y.2.toNat

def touchBytes (t : List Touch) : List Byte :=
  t.flatMap fun e => [e.region] ++ leBytes 4 e.first ++ leBytes 3 (e.last - e.first)

/-- The replay report: original F and n from the retained table, the replay's from the step in progress. -/
def reportBytes (s : State) : List Byte :=
  let u := s.upd
  let units := fingerUnits u.fingersKept u.fingers
  let diff := units.filter fun x => fingerAt u.fingersKept x != fingerAt u.fingers x
  leBytes 4 s.job.step.toNat ++ leBytes 4 units.length ++ leBytes 4 diff.length ++
    leBytes 1 (bit u.touchOverKept 0 + bit (overflowFlag s) 1) ++ List.replicate 51 0 ++
    diff.flatMap (fingerDiff u.fingersKept u.fingers) ++ touchBytes u.touchKept

/-! ## Outcomes (R21) -/

/-- The result is written over the commit record (R250). -/
def writeResult (s : State) (r : CinchRec) : State :=
  match s.job.manifest with
  | some m => storeHbm s m.crec r.bytes false
  | none => s

/-- A hold of the same tick applies to the following commit, and its descriptor names the step that it withholds (R308). -/
def holdLater (s : State) : State :=
  match s.job.holdAt with
  | none => s
  | some (ring, idx, _) =>
    let name (d : Inflight) : Inflight := if d.idx == idx && isOpcode d 0x20 then { d with detailB := (s.job.step + 1).zeroExtend 64 } else d
    { s with hlk := { s.hlk with rings := vmod s.hlk.rings ring fun r => { r with inflight := r.inflight.map name } },
             job := { s.job with holdAt := none } }

/-- The next step begins, or a pending hold takes effect and is reported (R308). -/
def nextStep (s : State) : State :=
  if s.job.hold = .pending && s.job.holdAt.any (·.2.2 == s.now) then beginStep (holdLater s)
  else if s.job.hold = .pending then raiseOpen { s with job := { s.job with hold := .inEffect, dispatching := false, entered := false } } 0x08
  else beginStep s

/-- Flip (R21, R121, R367): the other side becomes the one read; the step's context and tables are retained. -/
def flip (s : State) : State :=
  let m := s.job.manifest
  let x := match m with | some m => flipLoss m s.job.l s.job.clean | none => (s.job.l, s.job.clean)
  { s with mem := { s.mem with side := !s.mem.side },
           upd := { s.upd with fingersKept := s.upd.fingers, touchKept := s.upd.touch, touchOverKept := s.upd.touchOver, fingers := [],
                                touch := [], touchOver := false },
           job := { s.job with ctxKept := some (s.job.step, s.job.l, s.job.clean), freqKept := s.pwr.fJob, step := s.job.step + 1, l := x.1, clean := x.2 } }

/-- Discard (R21, R121, R367). -/
def discard (s : State) : State :=
  let x := match s.job.manifest with | some m => discardLoss m s.job.l | none => (s.job.l, 0, false)
  { s with upd := { s.upd with fingers := [], touch := [], touchOver := false },
           job := { s.job with step := s.job.step + 1, l := x.1, clean := x.2.1,
                               floorHits := if x.2.2 then bump s.job.floorHits else s.job.floorHits } }

/-- The commit is deferred: this module enters again when its drain-pending bit reads 0 (R250). -/
def defer (s : State) : State := { s with job := { s.job with entered := false, deferred := true } }

/-- The replay ends (R165, R308, R369): the report is written, STEP REPLAY completes, step context and aliases return. -/
def endReplay (s : State) : State :=
  match s.job.replay with
  | none => s
  | some (ring, idx) =>
    let back := s.job.replayBack.getD (s.job.step, s.job.l, s.job.clean)
    let s1 := finishDesc { s with job := { s.job with report := reportBytes s } } ring idx 0 0 (s.job.step.zeroExtend 64) 0
    { s1 with job := { s1.job with replay := none, replayBack := none, step := back.1, l := back.2.1, clean := back.2.2, entered := false,
                                    dispatching := false },
              upd := { s1.upd with fingers := [], touch := [], touchOver := false } }

/-- Dispatch resumes where no hold is in effect; one that is pending waits for the commit of the step that resumes (R308). -/
def resume (s : State) : State := if s.job.hold = .inEffect then s else beginStep s

/-- Reduced word bits of R250. -/
def CinchRec.overflow (r : CinchRec) : Bool := r.orw.getLsbD 0
def CinchRec.poison (r : CinchRec) : Bool := r.orw.getLsbD 1
def CinchRec.drains (r : CinchRec) : Bool := r.orw.getLsbD 2

/-- A commit cinch has completed (R21, R165, R251). A FENCED or mismatched result applies no row; a poisoned one kills the job; a
replay's changes nothing else. -/
def applyCommit (s : State) (r : CinchRec) : State :=
  let s1 := writeResult { s with job := { s.job with entered := false } } r
  if r.status ≠ 0 then raiseOpen (stopJob (endReplay s1)) 0x07
  else if r.poison then raiseOpen (stopJob (endReplay s1)) 0x0B
  else if s.job.replay.isSome then resume (endReplay s1)
  else
    if r.overflow then nextStep (applyFreq (discard s1) r.minw)
    else if r.drains then applyFreq (defer s1) r.minw
    else nextStep (applyFreq (flip s1) r.minw)

/-! ## The start cinch (R335) -/

/-- The first job frequency is set and plan 0 is switched in (R261, R307, R335). -/
def startGo (s : State) (ring : RingId) (idx : W16) (r : CinchRec) : State :=
  let s1 := applyFreq s r.minw
  { s1 with opt := { s1.opt with switching := true, target := 0, phase := 0 },
            job := { s1.job with startRing := some (ring, idx), switchThenRun := true } }

def startFails (s : State) (ring : RingId) (idx : W16) (n : Cinch) (elapsed : W32) (missing : List Nat) : State :=
  let s1 := logRecord s { Record.blank with
    code := codeStreamStall, cause := 6, source := 3, step := s.job.step, cycle := elapsed, comm := n.comm.zeroExtend 16,
    value := n.cseq, missing := (missing.map (BitVec.ofNat 16)).take 7, missingN := BitVec.ofNat 16 missing.length }
  stopJob (finishDesc s1 ring idx 0x000C 0 0 codeTimeout)

/-! ## What a cinch brings about when it completes here (R248) -/

def finishCinch (x : State × Option (Cinch × CinchRec)) : State :=
  match x.2 with
  | none => x.1
  | some (n, r) =>
    match n.kind with
    | .coll _ _ => finishCollCinch x.1 n r
    | .commit => applyCommit x.1 r
    | .start ring idx =>
      if r.status = 0 then startGo x.1 ring idx r
      else let f := x.1.draw; startFails f.2 ring idx n (f.1.setWidth 32) []

/-! ## Entry (R250) -/

/-- Every segment of the step has run on every core. -/
def stepRan (s : State) : Bool :=
  s.cores.toList.all fun k => k.running.isNone && (List.range k.segments.length).all (k.finished.contains ·)

/-- No remote or collective operation is outstanding. -/
def quietFabric (s : State) : Bool :=
  s.fab.tags.isEmpty && s.fab.sendQ.isEmpty && s.coll.runs.isEmpty && s.cores.toList.all (·.access.flights.isEmpty)

/-- The drain-pending bit as the tick before left it (R437). -/
def drainBefore (s : State) : Bool := if s.mem.drainTick = some s.now then s.mem.drainPrev else s.mem.drainPending

/-- The conditions of R250, waived for a step abort (R347). -/
def mayEnter (s : State) : Bool :=
  s.hlk.state == .running && !s.job.entered &&
    (s.job.aborting ||
      (if s.job.deferred then !drainBefore s else s.job.dispatching && stepRan s && updatesDone s && quietFabric s))

/-- The part's contribution (R250). A poisoned commit record is a consumption before the flags are taken (R350, R351). -/
def commitWords (s : State) : CinchRec :=
  let a := (s.job.manifest.map (·.crec)).getD 0
  let low := bit (overflowFlag s) 0 + bit s.job.poison 1 + bit (drainBefore s) 2
  { CinchRec.blank with
    orw := BitVec.ofNat 64 (readLe s a 8 / 256 * 256 + low), minw := s.pwr.fOffer.zeroExtend 64, sumw := BitVec.ofNat 64 (readLe s (a + 16) 8) }

def commitComm (s : State) : Option Comm := s.job.manifest.bind fun m => commOf s m.commit

def enterCommit (s : State) : State :=
  match s.job.manifest, commitComm s with
  | some m, some c =>
    if mayEnter s then
      let s1 := if hbmPoisoned s m.crec 64 then consume s 3 none m.crec else s
      let s2 := if s.job.firstEntry then govern s1 else s1
      let s3 := { s2 with job := { s2.job with entered := true, firstEntry := false, deferred := false, dispatching := false } }
      finishCinch (cinchEnter s3 c .commit (commitWords s3) none 0)
    else s
  | _, _ => s

/-! ## Expiry (R251, R252, R335) -/

def commitExpires (s : State) (i : BitVec 10) (elapsed : W32) : State :=
  match commOf s i, findCinch s i with
  | some c, some n =>
    let lost := cinchMissing s c n
    let s1 := { s with coll := { s.coll with cinches := s.coll.cinches.filter (·.comm ≠ i) } }
    match n.kind with
    | .coll _ _ => s
    | .commit =>
      let s2 := logRecord s1 { Record.blank with
        code := codeStreamStall, cause := 5, source := 3, step := s.job.step, cycle := elapsed, comm := i.zeroExtend 16, value := n.cseq,
        missing := (lost.map (BitVec.ofNat 16)).take 7, missingN := BitVec.ofNat 16 lost.length }
      raiseOpen (stopJob (endReplay { s2 with job := { s2.job with entered := false } })) 0x07
    | .start ring idx => startFails s1 ring idx n elapsed lost
  | _, _ => s

/-! ## The meanings -/

/-- The part enters the commit cinch (R250, R333, R350, R351). -/
def execCommitCinchEntry (s : State) : Host.Outcome State Fault Refusal := .next (enterCommit s)

/-- The wait of a commit or start cinch runs out of the commit budget (R251, R252, R335). -/
def execCinchBudgetExpiry (comm : BitVec 10) (elapsed : W32) (s : State) : Host.Outcome State Fault Refusal :=
  .next (commitExpires s comm elapsed)

end Sys2Proof.Machine
end

