-- ==== Sys2Proof/Machine/Collectives.lean ====
section
/-! DEFINITION. The collective engine's commands (R232–R249): packets, early arrivals, phases, completion, and the packets of a
cinch. -/

namespace Sys2Proof.Machine

/-- A fenced, quiescing or fatally stopped module's collective engine takes no part any more (R221, R359). -/
def collStopped (s : State) : Bool := s.fab.fenced || s.job.quiescing

/-! ## Which step of an operation a packet belongs to -/

def pktPhase (p : Packet) : Nat := (collId p).phase.toNat
def pktGather (p : Packet) : Bool := (collId p).kind == 1
def pktChunk (p : Packet) : Nat := (collId p).chunk.toNat
def pktOffset (p : Packet) : Nat := (collId p).offset.toNat

def isReduce (op : BitVec 4) : Bool := op.toNat ≤ 2

/-- The step the operation is in. -/
def curStep (c : Comm) (r : CollRun) : Option (Nat × Bool) := (phaseSteps c r.op)[r.phase]?

/-- The operation can use the packet at once (R241). -/
def usable (c : Comm) (r : CollRun) (p : Packet) : Bool :=
  r.carries c.idx (collOp p) (pktChunk p) && r.started &&
    (!isReduce r.op || curStep c r == some (pktPhase p, pktGather p))

def runFor (s : State) (c : Comm) (p : Packet) : Option CollRun :=
  if p.step = s.job.step then s.coll.runs.find? (usable c · p) else none

/-- The packet's step lies behind this module's, modulo 2^32 (R121, R240). -/
def staleStep (s : State) (p : Packet) : Bool := p.step ≠ s.job.step && (s.job.step - p.step).toNat < 2 ^ 31

/-! ## Using a packet (R235–R237, R243) -/

def pktElems (r : CollRun) (p : Packet) : List PElem := unpackP (eltBits r.fmt) (8 * p.payload.length / eltBits r.fmt) p.bytes

def ropOf (r : CollRun) : BitVec 4 := BitVec.ofNat 4 (r.param.toNat % 4)

/-- A ring partial: this member applies its own term, then keeps the result or sends it on (R235). -/
def useRing (s : State) (c : Comm) (r : CollRun) (k : Nat) (last : Bool) (j off : Nat) (es : List PElem) : State × CollRun :=
  let x := ropAll r.fmt (ropOf r) es (slice (r.buf.getD j []) off es.length)
  let s1 := orOverflow s x.2
  if c.ownerCoord k off = c.coord k then (s1, r.settle last j off x.1)
  else
    (sendElems s1 c r (c.lineMember k ((c.coord k + 1) % c.len k)) (r.chunk + j) k 0 off 0 0 x.1, { r with left := r.left - es.length })

/-- A gathered piece: kept, and passed on until the last coordinate before its owner has it (R237), past fenced ones (R244). -/
def useGather (s : State) (c : Comm) (r : CollRun) (k j off : Nat) (es : List PElem) : State × CollRun :=
  let r1 := { r with buf := modifyAt r.buf j (setSlice · off es), left := r.left - es.length }.keep j off es
  match gatherNext s c k (c.ownerCoord k off) with
  | none => (s, r1)
  | some x => (sendElems s c r1 (c.lineMember k x) (r.chunk + j) k 1 off 0 0 es, r1)

/-- A tree partial T(lo, n) (R236). -/
def useTree (s : State) (c : Comm) (r : CollRun) (k : Nat) (last : Bool) (p : Packet) (j off : Nat) (es : List PElem) : State × CollRun :=
  treeFlow c k (c.ownerCoord k off) last 40 s r
    { chunk := j, offset := off, lo := leAt p.cls 12 2, n := leAt p.cls 14 2 + 1, elems := es }

/-- A multicast piece: kept, forwarded to the heap children, its acknowledgement owed until theirs have come (R243). -/
def useHeap (s : State) (c : Comm) (r : CollRun) (p : Packet) (j off : Nat) (es : List PElem) : State × CollRun :=
  let h := heapOf c r.op r.param
  let kids := heapSends s c h c.self
  let r1 := ({ r with left := r.left - es.length }.noteCut kids.2).keep j off es
  let s1 := kids.1.foldl (fun t m => sendElems t c r1 m (r.chunk + j) (pktPhase p) (if pktGather p then 1 else 0) off 0 0 es) s
  ({ s1 with coll := { s1.coll with acksOwed := s1.coll.acksOwed ++ [(p, kids.1)] } }, r1)

/-- Use a packet: the operation's own effect, then its next step if this one is over. -/
def usePacket (s : State) (c : Comm) (r : CollRun) (p : Packet) : State :=
  let j := pktChunk p - r.chunk
  let off := pktOffset p
  let es := pktElems r p
  let k := pktPhase p
  let last := r.op == 0 && r.phase + 1 == (phaseSteps c r.op).length
  let x :=
    if isReduce r.op then
      (if pktGather p then useGather s c r k j off es
       else if c.tree then useTree s c r k last p j off es
       else useRing s c r k last j off es)
    else if isHeapOp r.op then useHeap s c r p j off es
    else (s, r.keep (collId p).sender.toNat off es)
  putRun x.1 (if isReduce r.op then x.2.advance x.1 c else x.2)

/-! ## Arrival (R239–R241) -/

def noteSeen (s : State) (p : Packet) : State := { s with coll := { s.coll with seen := collId p :: s.coll.seen } }

/-- The bytes of tree partials that wait for their turn; a member's own term is no arrival. -/
def termBytes (s : State) (r : CollRun) : Nat :=
  match commOf s r.comm with
  | none => 0
  | some c =>
    match (phaseSteps c r.op)[r.phase]? with
    | some (k, _) => ((r.terms.filter fun t => t.lo ≠ c.coord k || t.n ≠ 1).map fun t => t.elems.length * eltBits r.fmt / 8).sum
    | none => 0

/-- The arrival store of R241: 8 MiB on the die and 64 MiB spilled, in payload bytes. -/
def storeBytes (s : State) : Nat :=
  ((s.coll.early ++ s.coll.earlyUps).map (·.payload.length)).sum + (s.coll.runs.map (termBytes s)).sum

/-- A tree partial that can neither be combined nor sent on yet: it waits for its sibling (R236, R241). -/
def treeWaits (c : Comm) (r : CollRun) (p : Packet) : Bool :=
  let k := pktPhase p
  let lo := leAt p.cls 12 2
  let n := leAt p.cls 14 2 + 1
  let len := (pktElems r p).length
  c.tree && isReduce r.op && !pktGather p && n ≠ c.len k &&
    match treeParent 40 0 (c.len k) lo n with
    | none => false
    | some (plo, pn, left) =>
      treeFormer (c.ownerCoord k (pktOffset p)) plo pn = c.coord k && !r.terms.any fun u =>
        u.chunk == pktChunk p - r.chunk && u.offset == pktOffset p && u.elems.length == len &&
          (if left then u.lo == lo + n && u.n == plo + pn - (lo + n) else u.lo == plo && u.n == lo - plo)
def storeLimit : Nat := 72 * 2 ^ 20

/-- The acknowledgement of a stored or used packet: at once, but along a heap only after the forwards (R240, R243). -/
def ackStored (s : State) (p : Packet) : State := if isHeapOp (collOp p) then settleAcks s else inject s (ackOf s p 0)

/-- A packet already stored or applied: acknowledged, or, while its acknowledgement is owed, remembered with its latest attempt. -/
def duplicate (s : State) (p : Packet) : State :=
  let same (q : Packet) : Bool := collId q == collId p
  if isHeapOp (collOp p) && (s.coll.acksOwed.any (same ·.1) || s.coll.early.any same) then
    { s with coll := { s.coll with acksOwed := s.coll.acksOwed.map (fun x => if same x.1 then (p, x.2) else x),
                                    early := s.coll.early.map fun q => if same q then p else q } }
  else inject s (if isHeapOp (collOp p) then ackFencedOf s p else ackOf s p 0)

def collArrives (s : State) (p : Packet) : State :=
  match commOf s (collId p).comm with
  | none => s
  | some c =>
    if collStopped s then s
    else if staleStep s p then inject { s with coll := { s.coll with stale := bump s.coll.stale } } (ackOf s p 0)
    else if s.coll.seen.contains (collId p) then duplicate s p
    else
      match runFor s c p with
      | some r =>
        if treeWaits c r p && storeLimit < storeBytes s + p.payload.length then inject s (ackOf s p 1)
        else ackStored (usePacket (noteSeen s p) c r p) p
      | none =>
        if storeLimit < storeBytes s + p.payload.length then inject s (ackOf s p 1)
        else
          let s1 := noteSeen { s with coll := { s.coll with early := s.coll.early ++ [p] } } p
          if isHeapOp (collOp p) then s1 else inject s1 (ackOf s1 p 0)

/-- A packet of the arrival store whose turn has come. -/
def earlyApplies (s : State) (i : Nat) : State :=
  match s.coll.early[i]? with
  | none => s
  | some p =>
    match commOf s (collId p).comm with
    | none => s
    | some c =>
      match runFor s c p with
      | none => s
      | some r =>
        let s1 := usePacket { s with coll := { s.coll with early := s.coll.early.eraseIdx i } } c r p
        if isHeapOp (collOp p) then settleAcks s1 else s1

/-! ## Phases (R242) -/

def planAllows (s : State) (c : Comm) (k : Nat) : Bool :=
  match stepPlan c k with
  | none => true
  | some p => p.toNat == s.opt.plan.toNat && !s.opt.switching

/-- Begin an operation that has no phases: A2AV sends every member its segment, a multicast's root sends to its heap children
(R233, R243). -/
def startDirect (s : State) (c : Comm) (r : CollRun) : State × CollRun :=
  if r.op = 3 then
    let mine := r.buf.getD c.self []
    let s1 := (List.range c.size).foldl (fun t m => if m = c.self then t else sendElems t c r m r.chunk 0 0 0 0 0 (r.buf.getD m [])) s
    (s1, { r.keep c.self 0 mine with started := true, left := 0 })
  else
    let h := heapOf c r.op r.param
    if h.head? == some c.self then
      let kids := heapSends s c h c.self
      let r1 := { r with started := true, left := 0 }.noteCut kids.2
      overChunks r1 (fun x j =>
        let es := x.2.buf.getD j []
        (kids.1.foldl (fun t m => sendElems t c x.2 m (r.chunk + j) 0 0 0 0 0 es) x.1, x.2.keep j 0 es)) (s, r1)
    else (s, { r with started := true, left := r.nchunks * c.chunkElems })

def startPhase (s : State) (id : Nat) : State :=
  match s.coll.runs.find? (·.id == id) with
  | none => s
  | some r =>
    match commOf s r.comm with
    | none => s
    | some c =>
      if r.started || collStopped s then s
      else if isReduce r.op then
        match curStep c r with
        | none => s
        | some (k, gather) =>
          if planAllows s c k then
            let r1 := { r with started := true }
            let x := if gather then startGather s c r1 k (r.op == 1 && r.phase == 0 || r.op == 2 && r.phase == c.phases.length)
              else startScatter s c r1 k (r.op == 0 && r.phase + 1 == (phaseSteps c r.op).length)
            putRun x.1 (x.2.advance x.1 c)
          else s
      else let x := startDirect s c r; putRun x.1 x.2

/-! ## Completion (R230, R232–R234, R243, R244) -/

/-- Write elements from index `at_` of an operand on, over its rows. -/
def writeFrom (s : State) (d : Desc) (at_ : Nat) (es : List PElem) : State :=
  let bits := eltBits d.format
  (d.rows.zipIdx).foldl (fun t r =>
    let lo := r.2 * d.n0
    let a := max lo at_
    let b := min (lo + d.n0) (at_ + es.length)
    if a < b then hbmPut t (d.start.toNat + r.1 + (a - lo) * bits / 8) (packP bits (slice es (a - at_) (b - a))) else t) s

/-- How many elements member m sends to this one in an A2AV, at most K (R233). -/
def a2avSent (s : State) (c : Comm) (r : CollRun) (m : Nat) : Nat :=
  min (r.param.toNat + 1) (Config.a2avCount c.idx.toNat s.job.step.toNat r.chunk m)

/-- Elements that have come from a member. -/
def CollRun.received (r : CollRun) (m : Nat) : Nat := ((r.got.filter (·.1 == m)).map (·.2.2.length)).sum

/-- The operation has seen all that unfenced members send it. -/
def CollRun.over (r : CollRun) (s : State) (c : Comm) : Bool :=
  if isReduce r.op then (phaseSteps c r.op).length ≤ r.phase
  else if r.op = 3 then
    r.started && (List.range c.size).all fun m => m == c.self || chipFenced s (c.chip m) || r.received m == a2avSent s c r m
  else r.started && r.left = 0

/-- Fenced members of a communicator as this module's own routes know them. -/
def fencedMembers (s : State) (c : Comm) : List Nat := (List.range c.size).filter fun m => chipFenced s (c.chip m)

/-- A multicast completes as FENCED at its root, and at a member that pruned a branch (R243). -/
def pruned (c : Comm) (r : CollRun) : Bool :=
  !r.cut.isEmpty || ((heapOf c r.op r.param).head? == some c.self && r.fencedTotal ≠ 0)

/-- A gather lacks elements of a fenced member (R244). -/
def gatherLacks (c : Comm) (r : CollRun) (gone : List Nat) : Bool :=
  r.op ≠ 0 && gone.any fun m => (List.range r.nchunks).any fun j => let g := c.segment m; r.haveIn j g.1 g.2 < g.2 - g.1

/-- Nothing of the operation is on its way. -/
def runQuiet (s : State) (id : Nat) : Bool :=
  !(s.fab.tags.any fun t => t.issuer == .coll id) && !(s.fab.sendQ.any fun q => q.issuer == .coll id)

def owesAck (s : State) (r : CollRun) : Bool := s.coll.acksOwed.any fun x => r.carries (collId x.1).comm (collOp x.1) (pktChunk x.1)

/-- The status the operation completes with, how many fenced members it found and which; none while it cannot (R234, R243, R244): 0 done,
1 FENCED. With a fenced member every element of a reduction that has not come lacks a term; a gather and an A2AV go on until all that
unfenced members give is here. -/
def completion (s : State) (c : Comm) (r : CollRun) : Option (Nat × Nat × List Nat) :=
  let gone := addFenced r.fenced (fencedMembers s c)
  let fenced : Nat × Nat × List Nat := (1, gone.length, gone)
  if !runQuiet s r.id || owesAck s r then none
  else if isHeapOp r.op then (if r.over s c then some (if pruned c r then (1, r.fencedTotal, r.fenced) else (0, 0, [])) else none)
  else if r.over s c then
    some (if r.op = 3 then (if gone.isEmpty then (0, 0, []) else fenced) else if gatherLacks c r gone then fenced else (0, 0, []))
  else match curStep c r with
    | some (_, false) => if gone.isEmpty then none else some fenced
    | _ => none

/-- The pieces go to the destination operand (R232, R233). -/
def writePieces (s : State) (c : Comm) (r : CollRun) : State :=
  let own := c.counts.getD c.self 0
  let seg := c.before (c.rankOf c.self)
  match r.op.toNat with
  | 0 => r.got.foldl (fun t g => writeFrom t r.dst (g.1 * own + (g.2.1 - seg)) g.2.2) s
  | 3 =>
    let base := r.dst.start.toNat
    let bits := eltBits r.fmt
    let pitch := (r.param.toNat + 1) * bits / 8
    let count (m : Nat) : Nat := if m = c.self || chipFenced s (c.chip m) then r.received m else a2avSent s c r m
    let s1 := hbmPut s base (((List.range c.size).flatMap fun m => leBytes 4 (count m)).map fun b => (b, false))
    r.got.foldl (fun t g => hbmPut t (base + a2avHead c + g.1 * pitch + g.2.1 * bits / 8) (packP bits g.2.2)) s1
  | 5 => if (heapOf c r.op r.param).head? == some c.self then s else r.got.foldl (fun t g => writeFrom t r.dst (g.1 * c.chunkElems + g.2.1) g.2.2) s
  | _ => r.got.foldl (fun t g => writeFrom t r.dst (g.1 * c.chunkElems + g.2.1) g.2.2) s

/-- The landings of a reduce-scatter on a landing communicator (R230): one for a whole chunk, else one for each piece. -/
def landPieces (c : Comm) (r : CollRun) : List Landing :=
  let own := c.counts.getD c.self 0
  let seg := c.before (c.rankOf c.self)
  (List.range r.nchunks).flatMap fun j =>
    let chunk := r.chunk + j
    let mine := r.got.filter (·.1 == j)
    match c.landMap.find? fun e => e.first ≤ chunk && chunk < e.first + e.chunks with
    | none => []
    | some e =>
      let make (off : Nat) (es : List PElem) : Landing :=
        { source := if r.drain then .chunk r.core r.comm (BitVec.ofNat 16 chunk) else .land r.core r.seq, group := e.group, mb := e.mb,
          first := e.obase + (chunk - e.first) * own + (off - seg), data := es, refused := false }
      if own = 0 then []
      else if (mine.map (·.2.2.length)).sum = own then
        [make seg (mine.foldl (fun l g => setSlice l (g.2.1 - seg) g.2.2) (List.replicate own (0, false)))]
      else mine.map fun g => make g.2.1 g.2.2

/-- An operation that cannot complete goes on past members fenced meanwhile: their lines are served, and a gather step that has all it can
see ends (R244). -/
def goOn (s : State) (c : Comm) (r : CollRun) : State :=
  let steps := ((phaseSteps c r.op).take (r.phase + if r.started then 1 else 0)).filter (·.2)
  let x := if collStopped s then (s, r) else steps.foldl (fun y k => detours y.1 c y.2 k.1) (s, r)
  putRun x.1 (x.2.advance x.1 c)

/-- The operation completes: results written or landed, then the status slot, then the flight closes once its landings are accepted
(R150, R234). A drain has no flight, and writes the slot only when FENCED (R244). -/
def completeRun (s : State) (id : Nat) : State :=
  match s.coll.runs.find? (·.id == id) with
  | none => s
  | some r =>
    match commOf s r.comm with
    | none => s
    | some c =>
      match completion s c r with
      | none => goOn s c r
      | some (st, total, fenced) =>
        let lands := if r.op = 0 && c.land then landPieces c r else []
        let s1 := if r.op = 0 && c.land then { s with upd := { s.upd with landings := s.upd.landings ++ lands } } else writePieces s c r
        let s2 := if r.drain && st = 0 then s1 else writeStatus s1 c st r.op r.chunk total fenced
        let s3 := dropRun s2 id
        if r.drain then s3
        else if lands.isEmpty then closeFlight s3 r.core r.seq
        else updAccess s3 r.core fun a =>
          { a with flights := a.flights.map fun f => if f.seq = r.seq then { f with open_ := f.open_ + lands.length - 1 } else f }

/-! ## The packets of a cinch (R246–R249) -/

/-- Every UP and DOWN is answered with a CACK (R246). -/
def sendCack (s : State) (c : Comm) (p : Packet) : State :=
  inject s { packetTo s 0x18 p.src with cls := cinchCls c.idx (cinchSeq p) 2 0 c.self }

/-- An UP (R246): answered, and used once by the cinch it names, or held for a later one while the arrival store has room (R241). -/
def cinchUp (s : State) (p : Packet) : State :=
  match commOf s (cinchComm p) with
  | none => s
  | some c =>
    if collStopped s then s
    else
      let s1 := sendCack s c p
      let m := cinchSender p
      match findCinch s c.idx with
      | some n =>
        if n.cseq = cinchSeq p then
          (if n.ups.any (·.1 == m) then s1
           else finishCinch (cinchFlow (updCinch s1 c.idx fun x => { x with ups := x.ups ++ [(m, cinchOf p)] }) c.idx))
        else holdUp s c p
      | none => holdUp s c p
where
  /-- An UP for a cinch this member has not entered waits in the arrival store, first copy only; one that finds the store full is not
  answered, and its sender sends it again. -/
  holdUp (s : State) (c : Comm) (p : Packet) : State :=
    let same (q : Packet) : Bool := cinchComm q == cinchComm p && cinchSeq q == cinchSeq p && cinchSender q == cinchSender p
    if (cinchSeq p - c.cseq).toNat < 2 ^ 31 && !s.coll.earlyUps.any same then
      (if storeLimit < storeBytes s + p.payload.length then s
       else let t := sendCack s c p; { t with coll := { t.coll with earlyUps := t.coll.earlyUps ++ [p] } })
    else sendCack s c p

/-- A DOWN (R246, R248); it waits in the router while this module's own plan switch runs (R275). -/
def cinchDownArrives (s : State) (p : Packet) : State :=
  match commOf s (cinchComm p) with
  | none => s
  | some c =>
    if collStopped s then s
    else if s.opt.switching then { s with coll := { s.coll with heldDowns := s.coll.heldDowns ++ [p] } }
    else
      let s1 := sendCack s c p
      match findCinch s c.idx with
      | some n => if n.cseq = cinchSeq p then finishCinch (cinchDown s1 c n (cinchOf p), some (n, cinchOf p)) else s1
      | none => s1

/-- A CACK ends the resending of the UP or the DOWN it answers. -/
def cinchCack (s : State) (p : Packet) : State :=
  match commOf s (cinchComm p) with
  | none => s
  | some c =>
    let m := cinchSender p
    let q := cinchSeq p
    let owed (o : CinchOwed) : Bool := o.comm == c.idx && o.cseq == q && o.member == m
    if s.coll.owed.any owed then { s with coll := { s.coll with owed := s.coll.owed.filter fun o => !owed o } }
    else updCinch s c.idx fun n => if n.cseq = q && n.upSent && m = cinchUpTo s c then { n with upAcked := true } else n

/-- What has gone unanswered for FAB_TXN.timeout ticks goes again: the UP, and the DOWNs; a cinch that waited for a child fenced
meanwhile adopts its children (R246, R249). -/
def cinchResend (s : State) (i : BitVec 10) : State :=
  match commOf s i with
  | none => s
  | some c =>
    if collStopped s then s
    else
      let s1 := (s.coll.owed.filter (·.comm == i)).foldl (fun t o => sendCinch t c o.cseq 1 o.member o.record) s
      match findCinch s1 i with
      | none => s1
      | some n =>
        if n.upSent then
          match cinchGathered s1 c n with
          | some r =>
            if !n.upAcked || chipFenced s (c.chip (cinchParentRaw c c.self)) then sendCinch s1 c n.cseq 0 (cinchUpTo s1 c) r else s1
          | none => s1
        else finishCinch (cinchFlow s1 i)

/-! ## The meanings -/

/-- A collective packet arrives (R239–R241). -/
def execColldata (p : Packet) (s : State) : Host.Outcome State Fault Refusal := .next (accepting s p (collArrives · p))

/-- An early arrival is used (R235, R236, R241). -/
def execEarlyArrivalApply (idx : Nat) (s : State) : Host.Outcome State Fault Refusal := .next (earlyApplies s idx)

/-- An operation starts its next phase (R242). -/
def execPhaseStart (op : Nat) (s : State) : Host.Outcome State Fault Refusal := .next (startPhase s op)

/-- An operation completes (R234, R243, R244). -/
def execCollComplete (op : Nat) (s : State) : Host.Outcome State Fault Refusal := .next (completeRun s op)

/-- CINCH UP (R246, R248, R249). -/
def execCinchUp (p : Packet) (s : State) : Host.Outcome State Fault Refusal := .next (accepting s p (cinchUp · p))

/-- CINCH DOWN (R246, R248, R21, R335). -/
def execCinchDown (p : Packet) (s : State) : Host.Outcome State Fault Refusal := .next (accepting s p (cinchDownArrives · p))

/-- CINCH CACK (R246). -/
def execCinchCack (p : Packet) (s : State) : Host.Outcome State Fault Refusal := .next (accepting s p (cinchCack · p))

/-- Unanswered UPs and DOWNs are resent (R246). -/
def execCinchResend (comm : BitVec 10) (s : State) : Host.Outcome State Fault Refusal := .next (cinchResend s comm)

end Sys2Proof.Machine
end

