-- ==== Sys2Proof/Machine/Optics.lean ====
section
/-! DEFINITION. The optical engines (R254–R277): lanes and straps, frames and replay, rings, combs, plan switches. -/

namespace Sys2Proof.Machine

/-! ## Lanes, fibre ports and straps (R253, R271) -/

def engOf (g : LaneId) : Nat := g.val / 16
def lineOf (g : LaneId) : Nat := g.val % 16

def updLane (s : State) (g : LaneId) (f : Lane → Lane) : State := { s with opt := { s.opt with lanes := vmod s.opt.lanes g f } }
def updStrap (s : State) (n : PortId) (f : Strap → Strap) : State := { s with opt := { s.opt with straps := vmod s.opt.straps n f } }

/-- The fibre port of a lane direction. -/
def fibrePort (g : LaneId) (p : Option (Fin 4)) : Option (Fin 16) := p.map fun q => Fin.ofNat 16 (4 * engOf g + q.val)

/-- The network port that a fibre port serves (R271). -/
def netPort (s : State) (f : Option (Fin 16)) : Option PortId :=
  match f with
  | some f => let b := (s.opt.portMap.getD f.val 0xFF).toNat; if h : b < 8 then some ⟨b, h⟩ else none
  | none => none

def txNet (s : State) (g : LaneId) : Option PortId := netPort s (fibrePort g s.opt.lanes[g].txPort)
def rxNet (s : State) (g : LaneId) : Option PortId := netPort s (fibrePort g s.opt.lanes[g].rxPort)

/-- The active transmit lanes of a strap, ascending. -/
def strapLanes (s : State) (n : PortId) : List LaneId := (List.finRange 64).filter fun g => s.opt.lanes[g].txActive && txNet s g == some n

/-- The far transmit lane that a receive lane expects: its own channel of the engine named in HELLO (R259, R265). -/
def farLane (s : State) (g : LaneId) : Option Nat :=
  (fibrePort g s.opt.lanes[g].rxPort).bind fun f => (s.disc.links[f].farEngine).map fun e => 16 * e.val + lineOf g

/-- The active receive lanes of a strap. -/
def strapReceives (s : State) (n : PortId) : List LaneId := (List.finRange 64).filter fun g => s.opt.lanes[g].rxActive && rxNet s g == some n

/-- up and lanes of every network port (R224, R269); a strap that has lost every lane of a direction is down (R270, R291). -/
def recount (s : State) : State :=
  (List.finRange 8).foldl (fun t n =>
    let k := (strapLanes s n).length
    updPort t n.val fun q => { q with up := k ≠ 0 && !(strapReceives s n).isEmpty, lanes := BitVec.ofNat 7 k }) s

/-! ## Leaving and rejoining a strap (R269, R270) -/

def queueSvc (s : State) (n : Option PortId) (type : BitVec 4) (payload : Nat) : State :=
  match n with
  | some n => updStrap s n fun q => { q with svcQ := q.svcQ ++ [(type, BitVec.ofNat 8 payload)] }
  | none => s

def countRemoved (s : State) : State := { s with opt := { s.opt with lanesRemoved := bump s.opt.lanesRemoved } }
def countRejoined (s : State) : State := { s with opt := { s.opt with lanesRejoined := bump s.opt.lanesRejoined } }

/-- A transmit lane leaves its strap. -/
def takeOutTx (s : State) (g : LaneId) : State :=
  if s.opt.lanes[g].txOut then s
  else recount (countRemoved (updLane s g fun l => { l with txOut := true, txReady := false, txDue := false, txActive := false }))

/-- A receive lane leaves its strap: its receiver sends Stop for the far lane. -/
def takeOutRx (s : State) (g : LaneId) : State :=
  if s.opt.lanes[g].rxOut then s
  else
    let s1 := recount (countRemoved (updLane s g fun l => { l with rxOut := true, rxReady := false, rxDue := false, rxActive := false }))
    queueSvc s1 (rxNet s g) 1 ((farLane s g).getD g.val)

def takeOut (s : State) (g : LaneId) (tx : Bool) : State := if tx then takeOutTx s g else takeOutRx s g

/-- The lanes of an engine whose comb has failed beyond the spare stay out for the rest of the job (R254). -/
def keptOut (s : State) (g : LaneId) : Bool := s.opt.combsOut.contains (engOf g)

/-- A Ready lane direction rejoins. -/
def rejoinTx (s : State) (g : LaneId) : State :=
  let l := s.opt.lanes[g]
  if l.txOut && l.txReady && !keptOut s g then
    recount (countRejoined (updLane s g fun l => { l with txOut := false, txReady := false, txActive := l.txMod ≠ 0 && l.txPort.isSome }))
  else s

def rejoinRx (s : State) (g : LaneId) : State :=
  let l := s.opt.lanes[g]
  if l.rxOut && l.rxReady && !keptOut s g then
    recount (countRejoined (updLane s g fun l => { l with rxOut := false, rxReady := false, rxActive := l.rxMod ≠ 0 && l.rxPort.isSome }))
  else s

def rejoin (s : State) (g : LaneId) : State := rejoinRx (rejoinTx s g) g

/-- Once 200 µs have passed since its detection a lane direction rejoins as soon as it is Ready. -/
def rejoinIfDue (s : State) (g : LaneId) (tx : Bool) : State :=
  if tx then (if s.opt.lanes[g].txDue then rejoinTx s g else s) else if s.opt.lanes[g].rxDue then rejoinRx s g else s

/-- A direction that was taken out has locked again: Ready; a receiver says so. -/
def becomeReady (s : State) (g : LaneId) (tx : Bool) : State :=
  let l := s.opt.lanes[g]
  if tx then (if l.txOut then rejoinIfDue (updLane s g fun l => { l with txReady := true }) g true else s)
  else if l.rxOut then
    rejoinIfDue (queueSvc (updLane s g fun l => { l with rxReady := true }) (rxNet s g) 2 ((farLane s g).getD g.val)) g false
  else s

/-! ## Frames (R200, R258–R260) -/

def replayShare : Nat := 96
def slotsPerFrame (s : State) : Nat := if s.sec.conf then 18 else 19

/-- The next active lane, in ascending g from the last one used, with room in its share. -/
def nextLane (s : State) (n : PortId) : Option LaneId :=
  let q := s.opt.straps[n]
  let l := (strapLanes s n).filter fun g => (q.kept.filter (·.1 == g)).length < replayShare
  match l.find? fun g => q.nextLane ≤ g.val with
  | some g => some g
  | none => l.head?

/-- Up to three channels with credits to return, ascending. -/
def creditsOf (q : Port) : List (Fin 8 × BitVec 13) :=
  ((List.finRange 8).filter fun v => q.owed[v] ≠ 0).take 3 |>.map fun v => (v, BitVec.ofNat 13 (min q.owed[v] 8191))

def payCredits (q : Port) (cs : List (Fin 8 × BitVec 13)) : Port :=
  { q with owed := cs.foldl (fun o c => vmod o c.1 (· - c.2.toNat)) q.owed }

/-- A frame of a strap on a lane. -/
def makeFrame (s : State) (n : PortId) (g : LaneId) (svc : BitVec 4 × Byte) (cs : List (Fin 8 × BitVec 13)) (flits : List Flit) : Frame :=
  let q := s.opt.straps[n]
  { lid := BitVec.ofNat 6 g.val, seq := q.txSeq, ack := q.rxSeq, nack := q.gap, svcType := svc.1, svcPayload := svc.2, credits := cs,
    flits := flits, secCounter := if s.sec.conf then s.opt.lanes[g].txCounter else 0 }

/-- The lane's counter of confidential mode never repeats (R385). -/
def spendCounter (s : State) (g : LaneId) : State := if s.sec.conf then updLane s g fun l => { l with txCounter := l.txCounter + 1 } else s

/-- A frame on the line: its bits as R258 and R385 lay them out, in two codewords. -/
def sayFrame (s : State) (n : PortId) (g : LaneId) (f : Frame) : State :=
  (spendCounter s g).say (.frame n g f (lineSymbols (frameBits s.sec.conf s.glb.moduleId.toNat s.sec.epoch.toNat f)))

/-- Send a new frame, kept until acknowledged: the oldest service message, credits, and the flits the router gives while the strap is `open`
to it. A Done that leaves is noted (R275). -/
def sendFrame (s0 : State) (n : PortId) (open_ : Bool) : State :=
  match nextLane s0 n with
  | none => s0
  | some g =>
    let x := takeFlits (if open_ then slotsPerFrame s0 else 0) s0 n
    let s := x.1
    let q := s.opt.straps[n]
    let svc := q.svcQ.headD (0, 0)
    let cs := creditsOf s.fab.ports[n]
    let f := makeFrame s n g svc cs x.2
    let s1 := updStrap s n fun q => { q with txSeq := q.txSeq + 1, svcQ := q.svcQ.tail, kept := q.kept ++ [(g, f)], nextLane := g.val + 1,
                                             doneSent := q.doneSent || svc.1 == 4 }
    sayFrame (updPort s1 n.val fun q => payCredits q cs) n g f

/-- Resend every kept frame in order; a lane no longer in the strap gives its frames to the first active one. -/
def resendKept (s : State) (n : PortId) : State :=
  let lanes := strapLanes s n
  s.opt.straps[n].kept.foldl (fun t x =>
    match (if lanes.contains x.1 then some x.1 else lanes.head?) with
    | none => t
    | some g =>
      let f := { x.2 with lid := BitVec.ofNat 6 g.val, ack := t.opt.straps[n].rxSeq, nack := t.opt.straps[n].gap,
                          secCounter := if t.sec.conf then t.opt.lanes[g].txCounter else 0 }
      let t1 := sayFrame t n g f
      { t1 with opt := { t1.opt with framesResent := bump t1.opt.framesResent } }) s

/-- seq a comes after seq b, modulo 2^24. -/
def seqAfter (a b : BitVec 24) : Bool := a ≠ b && (a - b).toNat < 2 ^ 23

def acknowledge (s : State) (n : PortId) (ack : BitVec 24) (nack : Bool) : State :=
  let s1 := updStrap s n fun q => { q with kept := q.kept.filter fun x => seqAfter x.2.seq ack }
  if nack then resendKept s1 n else s1

/-- One flit enters its input buffer (R210, R220): a bad header discards its packet, a bad payload flit is stomped. -/
def takeFlit (q : Port) (f : Flit) : Port :=
  if !f.valid then q
  else
    let bad := f.fcheck ≠ flitCheck f
    if bad && f.head then { q with headerDiscard := bump q.headerDiscard, discarding := q.discarding.set f.vc (!f.tail), owed := vmod q.owed f.vc (· + 1) }
    else if q.discarding[f.vc] && !f.head then { q with discarding := q.discarding.set f.vc (!f.tail), owed := vmod q.owed f.vc (· + 1) }
    else
      let o := q.occupancy[f.vc] + 1
      { q with occupancy := q.occupancy.set f.vc o, stomped := if bad then bump q.stomped else q.stomped,
               discarding := q.discarding.set f.vc false,
               watermark := vmod q.watermark f.vc fun w => if w.toNat < o then BitVec.ofNat 14 o else w }

/-- A frame in sequence: its flits go to the router, reserved service types are counted (R260). -/
def deliver (s : State) (n : PortId) (f : Frame) : State :=
  let s1 := updPort s n.val fun q => f.flits.foldl takeFlit { q with credits := f.credits.foldl (fun c x => vmod c x.1 (· + x.2.toNat)) q.credits }
  let s2 := updStrap s1 n fun q => { q with rxSeq := f.seq, doneAt := if q.doneAt = some f.seq then none else q.doneAt }
  if 5 ≤ f.svcType.toNat then { s2 with opt := { s2.opt with svcReserved := bump s2.opt.svcReserved } } else s2

/-- The next number is one of the marker frames just before a Done: they are sequenced and not replayed, so one that was lost is passed over
(R275; log entry 113). -/
def markerGap (q : Strap) : Bool :=
  match q.doneAt with
  | some x => let d := (x - (q.rxSeq + 1)).toNat; 1 ≤ d && d ≤ q.markers
  | none => false

/-- Deliver from the reorder buffer as long as the next frame is there. -/
def deliverNext : Nat → State → PortId → State
  | 0, s, _ => s
  | fuel + 1, s, n =>
    let q := s.opt.straps[n]
    match q.buffer.find? fun f => f.seq == q.rxSeq + 1 with
    | some f => deliverNext fuel (deliver (updStrap s n fun q => { q with buffer := q.buffer.filter (· ≠ f) }) n f) n
    | none => if markerGap q then deliverNext fuel (updStrap s n fun q => { q with rxSeq := q.rxSeq + 1 }) n else s

def frameLost (s : State) (g : LaneId) : State :=
  updLane { s with opt := { s.opt with framesLost := bump s.opt.framesLost } } g fun l => { l with lost := bump l.lost }

/-- The counter accepted last from a transmit lane on a port (R385). -/
def staleCounter (q : Strap) (f : Frame) : Bool := q.rxCounters.any fun x => x.1 == f.lid.toNat && f.secCounter ≤ x.2

def noteCounter (q : Strap) (f : Frame) : Strap :=
  { q with rxCounters := q.rxCounters.filter (·.1 ≠ f.lid.toNat) ++ [(f.lid.toNat, f.secCounter)] }

/-- Symbols corrected in a codeword: up to 15 errors (R259). -/
def symbolsFixed (errors : Nat) : Nat := if 15 < errors then 0 else errors

/-- A frame that has decoded on its strap (R258, R260): acknowledgements are used, and it is delivered in sequence. -/
def useFrame (s : State) (n : PortId) (f : Frame) : State :=
  let s1 := acknowledge (heard s n.val) n f.ack f.nack
  let s2 := if f.svcType = 4 then updStrap s1 n fun q => { q with doneAt := some f.seq } else s1
  let q := s2.opt.straps[n]
  let s3 := if seqAfter f.seq q.rxSeq && !q.buffer.any (·.seq == f.seq) then updStrap s2 n fun q => { q with buffer := q.buffer ++ [f] } else s2
  updStrap (deliverNext (q.buffer.length + 1 + q.markers) s3 n) n fun q => { q with gap := !q.buffer.isEmpty }

/-- A frame arrives on a receive lane (R259, R385): lost, or used. -/
def receiveFrame (s0 : State) (n : PortId) (g : LaneId) (bits : BitVec 10280) (rx : FrameRx) : State :=
  if rxNet s0 g ≠ some n then s0
  else
    let fixed := BitVec.ofNat 64 (symbolsFixed rx.errors0 + symbolsFixed rx.errors1)
    let s := updLane { s0 with opt := { s0.opt with fecSymbols := s0.opt.fecSymbols + fixed } } g fun l => { l with fec := l.fec + fixed }
    let f := frameOf s.sec.conf bits.toNat
    let wrong := match farLane s g with | some x => x ≠ f.lid.toNat | none => false
    if 15 < rx.errors0 || 15 < rx.errors1 || wrong || rx.late || s.opt.phase = 2 then frameLost s g
    else if s.sec.conf then
      match clearBits true bits.toNat with
      | some b =>
        if staleCounter s.opt.straps[n] f then frameLost { s with sec := { s.sec with fibreAuthFail := bump s.sec.fibreAuthFail } } g
        else useFrame (updStrap s n (noteCounter · f)) n (frameOf true b)
      | none => frameLost { s with sec := { s.sec with fibreAuthFail := bump s.sec.fibreAuthFail } } g
    else useFrame s n f

/-! ## Rings (R265, R268, R269) -/

/-- The identity word of transmit lane `l` of engine `e` (R265). -/
def identityWord (l e : Nat) : W16 := BitVec.ofNat 16 (0xB + 16 * l + 256 * e + 4096 * crc4 (l + 16 * e))

/-- A lane's light is on: the X polarisation carries its identity word, the Y polarisation the complement (R265). -/
def lightLane (i : Nat) (l : Lane) : Lane := { l with pilotX := identityWord (i % 16) (i / 16), pilotY := ~~~identityWord (i % 16) (i / 16) }

def lightEngine (s : State) (e : Nat) (on : Bool) : State :=
  { s with opt := { s.opt with lanes := s.opt.lanes.mapFinIdx fun i l _ =>
      if i / 16 = e then (if on then lightLane i l else { l with pilotX := 0, pilotY := 0 }) else l } }

/-- A word is valid when its sync and CRC match (R265). -/
def wordValid (w : W16) : Bool := w.toNat % 16 == 0xB && w.toNat / 4096 == crc4 (w.toNat / 16 % 256)

/-- The word names the identity expected: channel and far engine for a demux ring, the comb line for a mux ring. -/
def wordMatches (s : State) (g : LaneId) (tx : Bool) (w : W16) : Bool :=
  w.toNat / 16 % 16 == lineOf g &&
    (tx || (match farLane s g with | some x => w.toNat / 256 % 4 == x / 16 | none => true))

def ringState (l : Lane) (tx : Bool) : Nat := if tx then l.txState.toNat else l.rxState.toNat

/-- Put a ring in a state, its counts of words at 0. -/
def setRing (s : State) (g : LaneId) (tx : Bool) (st : Nat) : State :=
  updLane s g fun l =>
    if tx then { l with txState := BitVec.ofNat 3 st, txGood := 0, txOther := 0 } else { l with rxState := BitVec.ofNat 3 st, rxGood := 0, rxOther := 0 }

/-- Start a new series of sweeps; FAILED is never left within the job (R268). -/
def startSweep (s : State) (g : LaneId) (tx : Bool) : State :=
  if ringState s.opt.lanes[g] tx = 4 then s
  else updLane (setRing s g tx 1) g fun l => if tx then { l with txSweeps := 0 } else { l with rxSweeps := 0 }

def setWords (s : State) (g : LaneId) (tx : Bool) (good other : Nat) : State :=
  updLane s g fun l => if tx then { l with txGood := good, txOther := other } else { l with rxGood := good, rxOther := other }

/-- The identity a ring expects as a word; without the far engine's name, of engine 0 (R265). -/
def expectedWord (s : State) (g : LaneId) (tx : Bool) : W16 :=
  identityWord (lineOf g) (if tx then engOf g else match farLane s g with | some x => x / 16 | none => 0)

/-- LANE_MISLOCK (R269): reported with the lane, the identity expected and the one received, and counted; the lane leaves its strap, a sweep
starts. The places of the three in the event are the model's choice (log entry 111). -/
def mislock (s : State) (g : LaneId) (tx : Bool) (w : W16) : State :=
  let s1 := updLane { s with opt := { s.opt with mislock := bump s.opt.mislock } } g fun l => { l with mislock := bump l.mislock }
  let detail := leBytes 2 codeMislock.toNat ++ leBytes 1 g.val ++ leBytes 1 tx.toNat ++ leBytes 2 (expectedWord s g tx).toNat ++ leBytes 2 w.toNat
  let s2 := raiseEvent { s1 with free := s1.free + 8 } 0x04 (detail ++ freeBytes s1.free 8)
  startSweep (takeOut s2 g tx) g tx

def pilotWord (s : State) (g : LaneId) (tx : Bool) (w : W16) : State :=
  let l := s.opt.lanes[g]
  let good := if tx then l.txGood else l.rxGood
  let other := if tx then l.txOther else l.rxOther
  let ok := wordValid w && wordMatches s g tx w
  let wrong := wordValid w && !wordMatches s g tx w
  match ringState l tx with
  | 2 =>
    if ok then (if good = 1 then becomeReady (setRing s g tx 3) g tx else setWords s g tx (good + 1) 0)
    else if wrong then setRing s g tx 1
    else setWords s g tx 0 0
  | 3 => if wrong then (if other = 2 then mislock s g tx w else setWords s g tx 0 (other + 1)) else setWords s g tx 0 0
  | _ => s

/-- Six word periods without a valid word (R268): the ring is lost and sweeps; its lane leaves the strap (log entry 20). A receive lane
without a port is idle: its ring stays locked to its stored set point (R257). -/
def pilotGone (s : State) (g : LaneId) (tx : Bool) : State :=
  if ringState s.opt.lanes[g] tx = 3 && (tx || s.opt.lanes[g].rxPort.isSome) then
    startSweep (takeOut { s with opt := { s.opt with pilotLost := bump s.opt.pilotLost } } g tx) g tx
  else s

/-- A ring is in FAILED: counted and reported (R268, R302). -/
def ringFails (s : State) (g : LaneId) (tx : Bool) : State :=
  raiseOpen { setRing s g tx 4 with opt := { (setRing s g tx 4).opt with sweepFailed := bump s.opt.sweepFailed } } 0x06

def sweepEnds (s : State) (g : LaneId) (tx : Bool) (found : Bool) : State :=
  let l := s.opt.lanes[g]
  if ringState l tx ≠ 1 then s
  else if found then updLane (setRing s g tx 2) g fun l => if tx then { l with txSweeps := 0 } else { l with rxSweeps := 0 }
  else
    let n := (if tx then l.txSweeps else l.rxSweeps) + 1
    if 3 ≤ n then ringFails s g tx else updLane s g fun l => if tx then { l with txSweeps := n } else { l with rxSweeps := n }

/-! ## Training and calibration (R261, R262, R267) -/

/-- The modulation of a margin in 0.1 dB (R262). -/
def modOf (snr : BitVec 10) : BitVec 2 := if 180 ≤ snr.toNat then 2 else if 110 ≤ snr.toNat then 1 else 0

/-- A modulation is chosen once for the job: a direction that has one keeps it (R262). -/
def chosenMod (trained : Bool) (old : BitVec 2) (snr : BitVec 10) : BitVec 2 := if trained then old else modOf snr

/-- One lane direction pair of a fibre port is trained: lock, margin, modulation. The record of the demux ring is that of the mux ring of its
channel with the heater offset found at lock (R420). A failed lane is reported (R262, R302). -/
def trainLane (fport : Fin 16) (s : State) (t : LaneTrain) : State :=
  let g := t.lane
  let l := s.opt.lanes[g]
  if fibrePort g l.rxPort ≠ some fport || l.rxState = 4 || keptOut s g then s
  else if !t.locked then ringFails s g false
  else
    let rx := chosenMod l.rxTrained l.rxMod t.snrRx
    let tx := chosenMod l.txTrained l.txMod t.snrTx
    let mux := ringRecord s (2 * g.val + 1)
    let r := { mux with heater := mux.heater + t.heater }
    let s1 := updLane (setRing { s with opt := { s.opt with records := s.opt.records.set (2 * g.val) r } } g false 3) g fun l =>
      { l with snr := if l.rxTrained then l.snr else t.snrRx, rxMod := rx, txMod := tx, rxTrained := true, txTrained := true,
               heatRx := r.heater, trimRx := 0, rxActive := rx ≠ 0 && !l.rxOut, txActive := tx ≠ 0 && !l.txOut && l.txState = 3 && l.txPort.isSome }
    let s2 := becomeReady s1 g false
    if rx = 0 && !l.rxTrained then raiseOpen s2 0x06 else s2

/-- Lanes whose transmit direction has passed its first training: the capability field counts them (R420, R431, R432). -/
def newlyTrained (s t : State) : Nat :=
  ((List.finRange 64).filter fun g => s.opt.lanes[g].txMod = 0 && t.opt.lanes[g].txMod ≠ 0).length

def farLight (s : State) (fport : Fin 16) (lanes : List LaneTrain) : State :=
  let t := recount (lanes.foldl (trainLane fport) s)
  { t with glb := { t.glb with lanes := t.glb.lanes + BitVec.ofNat 7 (newlyTrained s t) } }

/-- The 10 µs feed-forward (R267): every tuned ring's set point from its record, with what its lock loop has added. -/
def feedForward (s : State) (temps : List Temp) : State :=
  let t (e : Nat) : Temp := if enginePresent s e then temps.getD e 0 else 0
  { s with opt := { s.opt with
      temps := Vector.ofFn fun e => t e.val,
      lanes := s.opt.lanes.mapFinIdx fun i l _ =>
        { l with heatRx := if l.rxState = 0 then l.heatRx else heaterAt (ringRecord s (2 * i)) (t (i / 16)) l.trimRx,
                 heatTx := if l.txState = 0 then l.heatTx else heaterAt (ringRecord s (2 * i + 1)) (t (i / 16)) l.trimTx } } }

/-- One microsecond of the loops of R266 on a lane: each locked ring's heater is trimmed, a receiver's polarisation and carrier corrections
move. What the loops measure comes from outside: the four steps are parts of one free value (log entry 17). -/
def loopLane (f : W64) (l : Lane) : Lane :=
  let rx := l.rxState == 3
  let tx := l.txState == 3
  { l with trimRx := if rx then l.trimRx + f.setWidth 16 else l.trimRx, heatRx := if rx then l.heatRx + f.setWidth 16 else l.heatRx,
           trimTx := if tx then l.trimTx + (f >>> 16).setWidth 16 else l.trimTx, heatTx := if tx then l.heatTx + (f >>> 16).setWidth 16 else l.heatTx,
           polar := if rx then l.polar + (f >>> 32).setWidth 16 else l.polar, carrier := if rx then l.carrier + (f >>> 48).setWidth 16 else l.carrier }

/-- The loops of R266 on every lane; they never pause traffic. -/
def ringLoops (s : State) : State :=
  { s with free := s.free + 64, opt := { s.opt with lanes := s.opt.lanes.mapFinIdx fun i l _ => loopLane (Config.freeValue (s.free + i)) l } }

/-- One reference tick passes (R414); the loops of R266 run every microsecond while the job side is powered. -/
def passTick (s : State) : State :=
  let s1 := { s with glb := { s.glb with ticks := s.glb.ticks + 1 } }
  if s1.glb.ticks.toNat % 100 = 0 && s1.jobSide then ringLoops s1 else s1

/-! ## Combs (R254) -/

def engineLanes (e : Nat) : List LaneId := (List.finRange 64).filter fun g => engOf g == e

def engineOut (s : State) (e : Nat) : State := (engineLanes e).foldl (fun t g => takeOutRx (takeOutTx t g) g) s

def combDark (s : State) (c : Fin 5) : State :=
  { s with opt := { s.opt with combs := BitVec.ofNat 5 (s.opt.combs.toNat - if s.opt.combs.getLsbD c.val then 2 ^ c.val else 0) } }

/-- A comb event is counted and reported (R254). -/
def combEvent (s : State) : State := raiseOpen { s with opt := { s.opt with combEvents := bump s.opt.combEvents } } 0x05

/-- The engine's light goes, and every lane leaves its strap at once. -/
def engineDark (s : State) (e : Nat) : State := lightEngine (engineOut s e) e false

/-- A comb fails (R254); the M48 has no L3 (R253). -/
def combFails (s : State) (c : Fin 5) : State :=
  if !s.opt.combs.getLsbD c.val || (c.val < 4 && !enginePresent s c.val) then s
  else
    let s1 := combEvent (combDark s c)
    if c = 4 then
      (if s.opt.spareUsed then
        let e := s.opt.spareEngine.toNat
        engineDark { s1 with opt := { s1.opt with combsOut := setPut e s1.opt.combsOut, spareLit := false } } e
       else s1)
    else
      let s2 := engineDark s1 c.val
      if !s.opt.spareUsed && s.opt.combs.getLsbD 4 then
        combEvent { s2 with opt := { s2.opt with spareUsed := true, spareEngine := BitVec.ofNat 2 c.val, spareLit := true } }
      else { s2 with opt := { s2.opt with combsOut := setPut c.val s2.opt.combsOut } }

/-- A lane is trained again, and measured again, unless R262 has failed it (R254, R262). -/
def retrainLane (s : State) (g : LaneId) : State :=
  updLane (startSweep (startSweep s g false) g true) g fun l =>
    { l with rxTrained := l.rxTrained && l.rxMod = 0, txTrained := l.txTrained && l.txMod = 0 }

/-- L4 has locked: the engine's lanes are trained again (R254, R261). -/
def spareLocks (s : State) : State :=
  if s.opt.spareLit then
    (engineLanes s.opt.spareEngine.toNat).foldl retrainLane (lightEngine { s with opt := { s.opt with spareLit := false } } s.opt.spareEngine.toNat true)
  else s

/-! ## Plan switches (R271, R274, R275) -/

/-- The lane entry of a plan (R271): transmit and receive fibre ports. -/
def planEntry (s : State) (k : BitVec 3) (g : LaneId) : Option (Fin 4) × Option (Fin 4) :=
  let b := ((s.opt.plans.getD k.toNat []).getD g.val 0).toNat
  (if b.testBit 2 then some (Fin.ofNat 4 b) else none, if b.testBit 5 then some (Fin.ofNat 4 (b / 8)) else none)

/-- A strap at the start of a switch: closed to the router; a Done of an earlier switch is dropped. The far end will send four markers on each
lane that this end receives on. -/
def Strap.pause (q : Strap) (receives : Nat) : Strap :=
  { q with paused := true, doneSent := false, doneSeen := false, doneAt := none, markers := 4 * receives, svcQ := q.svcQ.filter (·.1 ≠ 4) }

/-- A marker frame: sequenced and not kept. -/
def sendMarker (s : State) (n : PortId) (g : LaneId) (k : Fin 8) : State :=
  let f := makeFrame s n g (3, BitVec.ofNat 8 k.val) [] []
  sayFrame (updStrap s n fun q => { q with txSeq := q.txSeq + 1 }) n g f

/-- The switch begins: straps stop taking flits and send four marker frames on every active lane. -/
def beginSwitch (s : State) (k : Fin 8) : State :=
  if s.opt.switching && s.opt.target.toNat = k.val && s.opt.phase = 0 then
    let s1 := { s with opt := { s.opt with phase := 1, straps := s.opt.straps.mapFinIdx fun i q h => q.pause (strapReceives s ⟨i, h⟩).length } }
    (List.finRange 8).foldl (fun t n => (strapLanes t n).foldl (fun u g => (List.range 4).foldl (fun v _ => sendMarker v n g k) u) t) s1
  else s

/-- Every buckle takes the new plan; no lane carries frames while it settles (R257). -/
def reprogram (s : State) : State :=
  if s.opt.switching && s.opt.phase = 1 then
    { s with opt := { s.opt with
        phase := 2,
        lanes := s.opt.lanes.mapFinIdx fun i l h =>
          let e := planEntry s s.opt.target ⟨i, h⟩
          { l with txPort := e.1, rxPort := e.2, txActive := false, rxActive := false } } }
  else s

/-- A strap that has sent and received Done resumes, first resending what the far end has not acknowledged. -/
def resumeIfDone (s : State) (n : PortId) : State :=
  let q := s.opt.straps[n]
  if q.paused && q.doneSent && q.doneSeen then
    resendKept (updStrap s n fun q => { q with paused := false, doneSent := false, doneSeen := false }) n
  else s

/-- Done goes out on a strap in a frame of its own, ahead of other service messages; with no lane to take it, it waits for one. -/
def sendDone (s : State) (n : PortId) (k : BitVec 3) : State :=
  sendFrame (updStrap s n fun q => { q with svcQ := (4#4, k.zeroExtend 8) :: q.svcQ }) n false

/-- A lane after reacquisition: lanes that failed are swept, Ready ones join, the others carry on. -/
def reacquired (failed : List LaneId) (s : State) (g : LaneId) : State :=
  let s1 :=
    if failed.contains g then
      startSweep (updLane { s with opt := { s.opt with reacquireFailed := bump s.opt.reacquireFailed } } g fun l => { l with rxOut := true, rxReady := false, rxDue := false }) g false
    else rejoin s g
  updLane s1 g fun l =>
    { l with txActive := l.txPort.isSome && !l.txOut && l.txMod ≠ 0, rxActive := l.rxPort.isSome && !l.rxOut && l.rxMod ≠ 0 }

/-- Shares accepted earlier come into force at a switch (R210). -/
def enforceShares (s : State) : State :=
  { s with fab := { s.fab with ports := s.fab.ports.map fun (q : Port) => { q with inForce := q.shares } } }

/-- Cinches whose result waited at this root while its switch ran (R275). -/
def cinchesGo (s : State) : State := s.coll.cinches.foldl (fun t n => if n.upSent then t else finishCinch (cinchFlow t n.comm)) s

/-- The DOWNs that waited in the router arrive (R275). -/
def downsGo (s : State) : State := s.coll.heldDowns.foldl cinchDownArrives { s with coll := { s.coll with heldDowns := [] } }

/-- The markers that waited trigger their switches, in the order they came (R274). -/
def markersGo (s : State) : State :=
  s.opt.markersHeld.foldl (fun t m => triggerSwitch t (BitVec.ofNat 3 m.val)) { s with opt := { s.opt with markersHeld := [] } }

/-- Reacquisition ends: the plan is current, Done is sent, markers that waited trigger their own switch, a cinch that waited completes; after
START's switch the first step begins (R274, R275, R307, R120). -/
def switchEnds (s : State) (failed : List LaneId) : State :=
  if s.opt.switching && s.opt.phase = 2 then
    let k := s.opt.target
    let s1 := recount ((List.finRange 64).foldl (reacquired failed) s)
    let s2 := enforceShares { s1 with opt := { s1.opt with plan := k, switching := false, phase := 0, switches := bump s1.opt.switches } }
    let s3 := (List.finRange 8).foldl (fun t n => resumeIfDone (sendDone t n k) n) s2
    let s4 := downsGo (cinchesGo (markersGo s3))
    if s4.job.switchThenRun then
      let s5 := { s4 with job := { s4.job with switchThenRun := false } }
      if s5.hlk.state == .loaded && s5.job.startRing.isSome then beginStep s5 else s5
    else s4
  else s

/-! ## The meanings -/

/-- A comb fails (R254). -/
def execCombFailure (comb : Fin 5) (s : State) : Host.Outcome State Fault Refusal := .next (combFails s comb)

/-- The spare comb locks (R254). -/
def execSpareCombLock (s : State) : Host.Outcome State Fault Refusal := .next (spareLocks s)

/-- A new frame is placed on the next active lane with room (R258, R260); on a paused strap only a Done that waits (R275). -/
def execFrameSend (port : PortId) (s : State) : Host.Outcome State Fault Refusal :=
  .next (if s.opt.straps[port].paused then
      (if (s.opt.straps[port].svcQ.headD (0, 0)).1 = 4 then resumeIfDone (sendFrame s port false) port else s)
    else countStalls (sendFrame s port true) port)

/-- A frame arrives on a receive lane (R259, R260, R385). -/
def execFrameReceive (port : PortId) (g : LaneId) (bits : BitVec 10280) (rx : FrameRx) (s : State) : Host.Outcome State Fault Refusal :=
  .next (receiveFrame s port g bits rx)

/-- Stop: the far receiver asks for transmit lane g to leave the strap (R260, R269). -/
def execStop (port : PortId) (g : LaneId) (s : State) : Host.Outcome State Fault Refusal :=
  .next (if txNet s g = some port then takeOutTx s g else s)

/-- Ready: the far receiver has locked transmit lane g again (R260, R270). -/
def execReady (port : PortId) (g : LaneId) (s : State) : Host.Outcome State Fault Refusal :=
  .next (if txNet s g = some port && s.opt.lanes[g].txOut && s.opt.lanes[g].txState = 3 then
    rejoinIfDue (updLane s g fun l => { l with txReady := true }) g true else s)

/-- A switch marker arrives (R274). -/
def execSwitchMarker (plan : Fin 8) (s : State) : Host.Outcome State Fault Refusal := .next (triggerSwitch s (BitVec.ofNat 3 plan.val))

/-- Done arrives on a strap (R275). -/
def execSwitchDone (port : PortId) (plan : Fin 8) (s : State) : Host.Outcome State Fault Refusal :=
  .next (
    let k := if s.opt.switching then s.opt.target else s.opt.plan
    if k.toNat = plan.val && s.opt.straps[port].paused then resumeIfDone (updStrap s port fun q => { q with doneSeen := true }) port else s)

/-- The triggered switch begins (R275). -/
def execPlanSwitch (plan : Fin 8) (s : State) : Host.Outcome State Fault Refusal := .next (beginSwitch s plan)

/-- The buckles are reprogrammed (R257, R275). -/
def execBuckleReprogram (s : State) : Host.Outcome State Fault Refusal := .next (reprogram s)

/-- Reacquisition ends (R275). -/
def execReacquireEnd (failed : List LaneId) (s : State) : Host.Outcome State Fault Refusal := .next (switchEnds s failed)

/-- A pilot identity word has been decided (R265, R268, R269). -/
def execPilotWord (g : LaneId) (tx : Bool) (word : W16) (s : State) : Host.Outcome State Fault Refusal := .next (pilotWord s g tx word)

/-- Six word periods without a valid word (R268). -/
def execPilotLost (g : LaneId) (tx : Bool) (s : State) : Host.Outcome State Fault Refusal := .next (pilotGone s g tx)

/-- A sweep ends (R268). -/
def execRingSweepEnd (g : LaneId) (tx : Bool) (found : Bool) (s : State) : Host.Outcome State Fault Refusal := .next (sweepEnds s g tx found)

/-- 200 µs after the detection on one direction of a lane (R270). -/
def execLaneRejoin (g : LaneId) (tx : Bool) (s : State) : Host.Outcome State Fault Refusal :=
  .next (
    if tx then (if s.opt.lanes[g].txOut then rejoinTx (updLane s g fun l => { l with txDue := true }) g else s)
    else if s.opt.lanes[g].rxOut then rejoinRx (updLane s g fun l => { l with rxDue := true }) g else s)

/-- The heaters' feed-forward (R266, R267). -/
def execHeaterFeedforward (temps : List Temp) (s : State) : Host.Outcome State Fault Refusal := .next (feedForward s temps)

/-- Light arrives on a fibre port (R261, R262). -/
def execFarLightArrival (fport : Fin 16) (lanes : List LaneTrain) (s : State) : Host.Outcome State Fault Refusal :=
  .next (farLight s fport lanes)

end Sys2Proof.Machine
end

