-- ==== Sys2Proof/Machine/Discovery.lean ====
section
/-! DEFINITION. Topology and discovery (R278–R288), the default routes (R208), PLAN packets (R273). -/

namespace Sys2Proof.Machine

/-! ## The declaration (R278, R280) -/

def declOf (b : List Byte) : Decl :=
  { axes := leAt b 0 1 % 4 + 1, lens := (List.range 4).map fun a => leAt b (1 + a) 1 + 1, tag := BitVec.ofNat 64 (leAt b 8 8),
    seed := BitVec.ofNat 64 (leAt b 16 8), budget := BitVec.ofNat 32 (leAt b 24 4), pmap := (b.drop 28).take 16,
    dcrc := BitVec.ofNat 32 (leAt b 44 4) }

/-- The checks of R280. -/
def declBad (s : State) (b : List Byte) : Bool :=
  let d := declOf b
  prodOf d.lens > 65536 || (List.range 4).any (fun a => d.axes ≤ a && d.lens.getD a 1 ≠ 1) ||
    4 ≤ leAt b 0 1 || leAt b 5 3 ≠ 0 || (b.drop 48).any (· ≠ 0) || d.tag = 0 || d.dcrc ≠ crc32 (b.take 44) ||
    d.pmap.any (fun p => p ≠ 0xFF && (8 ≤ p.toNat || d.axes ≤ p.toNat / 2)) ||
    (List.range 8).any (fun n => 4 < (d.pmap.filter fun p => p.toNat == n).length) ||
    (List.range 16).any (fun f => d.pmap.getD f 0xFF ≠ 0xFF && !enginePresent s (f / 4))

/-! ## Ports and shapes -/

/-- The network port of a fibre port, none where it is not mapped (R281). -/
def Decl.net (d : Decl) (f : Fin 16) : Option Nat := let b := (d.pmap.getD f.val 0xFF).toNat; if b < 8 then some b else none

def Decl.mapped (d : Decl) : List (Fin 16) := (List.finRange 16).filter fun f => (d.net f).isSome

/-- The fibre ports of a network port, ascending. -/
def Decl.fibres (d : Decl) (n : Nat) : List (Fin 16) := (List.finRange 16).filter fun f => d.net f == some n

def Decl.netPorts (d : Decl) : List Nat := (List.range 8).filter fun n => !(d.fibres n).isEmpty

def lenAt (lens : List Nat) (a : Nat) : Nat := lens.getD a 1

/-- The chip identifier of coordinates (R279). -/
def chipOf (lens cs : List Nat) : Nat := (cs.zip lens).reverse.foldl (fun n x => n * x.2 + x.1) 0

/-- Coordinates through a network port: + on the even ports. -/
def stepOver (lens cs : List Nat) (n : Nat) : List Nat :=
  let a := n / 2
  let L := lenAt lens a
  cs.set a ((cs.getD a 0 + if n % 2 = 0 then 1 else L - 1) % L)

/-- The default port toward a chip (R208). -/
def defaultPort (lens me cs : List Nat) : Nat :=
  match (List.range 4).find? fun a => me.getD a 0 ≠ cs.getD a 0 with
  | none => 8
  | some a =>
    let L := lenAt lens a
    let plus := (cs.getD a 0 + L - me.getD a 0) % L
    if plus ≤ L - plus then 2 * a else 2 * a + 1

/-- The default table (R208). -/
def defaultRoutes (lens me : List Nat) : List (Nat × W32) :=
  (List.range (prodOf lens)).map fun d => (d, BitVec.ofNat 32 (defaultPort lens me (coordsOf lens d) + 16))

/-! ## Messages (R282, R283) -/

def updDisc (s : State) (f : Disc → Disc) : State := { s with disc := f s.disc }
def updLink (s : State) (p : Fin 16) (f : DiscLink → DiscLink) : State := updDisc s fun d => { d with links := vmod d.links p f }

/-- A DISC packet as its fields (R282): the class bytes and the payload of its kind; a field that the kind does not carry is 0. -/
structure DiscMsg where
  kind : Fin 4
  ack : Bool
  src : Chip
  fport : Fin 16
  nport : Fin 8
  tseq : W32
  echo : W32
  turnaround : W32
  tag : W64
  identity : W64
  dcrc : W32
  engine : Fin 4
  coords : List Byte
  lens : List Byte
  count : W32
  flags : W16
  result : BitVec 4
deriving DecidableEq, Repr

/-- Class bytes 24–47. -/
def discCls (m : DiscMsg) : List Byte :=
  leBytes 1 (m.kind.val + bit m.ack 7) ++ leBytes 1 (m.fport.val + 16 * m.nport.val) ++ leBytes 4 m.tseq.toNat ++ leBytes 4 m.echo.toNat ++
    leBytes 4 m.turnaround.toNat ++ leBytes 8 m.tag.toNat ++ [0, 0]

/-- The payload of a kind. -/
def discPayload (m : DiscMsg) : List Byte :=
  match m.kind with
  | 0 => leBytes 8 m.identity.toNat ++ leBytes 4 m.dcrc.toNat ++ leBytes 1 m.engine.val
  | 1 => padTo 4 0 m.coords ++ padTo 4 0 m.lens
  | 2 => leBytes 4 m.count.toNat ++ leBytes 2 m.flags.toNat
  | 3 => leBytes 4 m.count.toNat ++ leBytes 1 m.result.toNat

/-- The DISC packet of a message; dst is ignored, and is 0 (R282). -/
def discPacket (s : State) (m : DiscMsg) (payload : List Byte) : Packet :=
  ({ packetTo s 0x1B 0 with src := m.src, cls := discCls m }.load (payload.map fun b => (b, false))).sealed

/-- The message of a packet; none for another type or a reserved kind. -/
def discOf (p : Packet) : Option DiscMsg :=
  let c := p.cls
  let b := p.payload
  let kind := leAt c 0 1 % 8
  if p.type ≠ 0x1B || 4 ≤ kind then none
  else
    let at_ (k i n : Nat) : Nat := if kind = k then leAt b i n else 0
    some { kind := Fin.ofNat 4 kind, ack := bitOf (leAt c 0 1) 7, src := p.src, fport := Fin.ofNat 16 (leAt c 1 1), nport := Fin.ofNat 8 (leAt c 1 1 / 16),
           tseq := BitVec.ofNat 32 (leAt c 2 4), echo := BitVec.ofNat 32 (leAt c 6 4), turnaround := BitVec.ofNat 32 (leAt c 10 4),
           tag := BitVec.ofNat 64 (leAt c 14 8), identity := BitVec.ofNat 64 (at_ 0 0 8), dcrc := BitVec.ofNat 32 (at_ 0 8 4),
           engine := Fin.ofNat 4 (at_ 0 12 1), coords := if kind = 1 then padTo 4 0 b else [], lens := if kind = 1 then padTo 4 0 (b.drop 4) else [],
           count := BitVec.ofNat 32 (at_ 2 0 4 + at_ 3 0 4), flags := BitVec.ofNat 16 (at_ 2 4 2), result := BitVec.ofNat 4 (at_ 3 4 1) }

/-- A message of this module on a fibre port. -/
def message (s : State) (d : Decl) (p : Fin 16) (kind : Fin 4) : DiscMsg :=
  { kind := kind, ack := false, src := s.fab.chip, fport := p, nport := Fin.ofNat 8 ((d.net p).getD 0), tseq := s.now.setWidth 32, echo := 0,
    turnaround := 0, tag := d.tag, identity := s.glb.moduleId, dcrc := d.dcrc, engine := Fin.ofNat 4 (p.val / 4),
    coords := (s.disc.coords.getD [0, 0, 0, 0]).map (BitVec.ofNat 8), lens := d.lens.map fun l => BitVec.ofNat 8 (l - 1), count := 0, flags := 0,
    result := 0 }

/-- Send a message of this module; its tick count is what the acknowledgement echoes. -/
def sendMsg (s : State) (p : Fin 16) (m : DiscMsg) : State :=
  updLink (s.say (.disc p (discPacket s m (discPayload m)))) p fun l => { l with tseqs := l.tseqs ++ [(m.kind, m.tseq)] }

/-- The acknowledgement carries the payload of the message it answers (R282); this model answers in the tick of receipt. -/
def ackMsg (s : State) (d : Decl) (p : Fin 16) (pk : Packet) (m : DiscMsg) : State :=
  s.say (.disc p (discPacket s { message s d p m.kind with ack := true, echo := m.tseq } pk.payload))

/-- The declaration under which a message on a port is answered: none for an unmapped port, an old tag, or a module that has none, or
that has ended without a DOWN (R281, R283, R288). -/
def answering (s : State) (p : Fin 16) (m : DiscMsg) : Option Decl :=
  match s.disc.decl with
  | some d =>
    if (d.net p).isSome && !s.disc.oldTags.contains m.tag && (s.disc.running || s.disc.downResult.isSome) then some d else none
  | none => none

/-! ## Flags -/

/-- Set a result code as a flag, noting where it was first seen. -/
def flagCode (s : State) (code : Nat) (p : Option (Fin 16)) : State :=
  updDisc s fun d =>
    { d with flags := d.flags ||| BitVec.ofNat 16 (2 ^ code),
             flagged := match p with | some p => if d.flagged.any (·.1 == code) then d.flagged else d.flagged ++ [(code, p)] | none => d.flagged }

def firstCode (flags : W16) : Option Nat := (List.range 16).find? fun i => flags.getLsbD i

/-! ## The spanning tree (R286) -/

def highAxis (cs : List Nat) : Option Nat := (List.range 4).reverse.find? fun a => cs.getD a 0 ≠ 0

/-- The network port to the parent, none at the seed. -/
def parentPort (cs : List Nat) : Option Nat := (highAxis cs).map fun h => 2 * h + 1

def childPorts (d : Decl) (cs : List Nat) : List Nat :=
  ((List.range 4).filter fun a => (match highAxis cs with | some h => decide (h ≤ a) | none => true) && decide (cs.getD a 0 + 2 ≤ lenAt d.lens a)).map (2 * ·)

/-- The lowest mapped fibre port of a network port. -/
def lowest (d : Decl) (n : Nat) : Option (Fin 16) := (d.fibres n).head?

/-- The UP a network port has received. -/
def upOn (s : State) (d : Decl) (n : Nat) : Option (W32 × W16) := (d.fibres n).findSome? fun f => s.disc.links[f].upFrom

def coordOn (s : State) (d : Decl) (n : Nat) : Bool := (d.fibres n).any fun f => s.disc.links[f].coordSeen

def hellosDone (s : State) (d : Decl) : Bool := d.mapped.all fun f => s.disc.links[f].helloChecked && s.disc.links[f].helloAcked

/-- Send a message of a kind on the lowest fibre port of a network port. -/
def sendOn (s : State) (d : Decl) (n : Nat) (kind : Fin 4) (g : DiscMsg → DiscMsg) : State :=
  match lowest d n with
  | none => s
  | some p =>
    updLink (sendMsg s p (g (message s d p kind))) p fun l =>
      match kind with
      | 1 => { l with coordSent := true }
      | 2 => { l with upSent := true }
      | 3 => { l with downSent := true }
      | _ => l

def sendCoords (s : State) (d : Decl) : State := d.netPorts.foldl (fun t n => sendOn t d n 1 id) s

/-! ## The end (R287, R442) -/

/-- The strap-plan masks a PLAN packet carries for a fibre port (R273). -/
def txMask (s : State) (k : Nat) (f : Fin 16) : Nat :=
  ((List.finRange 64).filter fun g => engOf g == f.val / 4 && (planEntry s (BitVec.ofNat 3 k) g).1 == some (Fin.ofNat 4 f.val)).foldl (fun m g => m + 2 ^ lineOf g) 0

def rxMask (s : State) (k : Nat) (f : Fin 16) : Nat :=
  ((List.finRange 64).filter fun g => engOf g == f.val / 4 && (planEntry s (BitVec.ofNat 3 k) g).2 == some (Fin.ofNat 4 f.val)).foldl (fun m g => m + 2 ^ lineOf g) 0

def planBytes (s : State) (d : Decl) (n : Nat) : List Byte :=
  let fs := d.fibres n
  [BitVec.ofNat 8 fs.length, s.opt.validMask] ++ List.replicate 6 0 ++
    fs.flatMap fun f => [BitVec.ofNat 8 f.val, 0] ++ (List.range 8).flatMap fun k => leBytes 2 (txMask s k f)

/-- One PLAN packet on every network port (R273). -/
def sendPlans (s : State) (d : Decl) : State :=
  d.netPorts.foldl (fun t n =>
    let far := if h : n < 8 then (t.fab.ports[(⟨n, h⟩ : Fin 8)]).neighbour else 0xFFFF
    emit t n 6 8 0 ((packetTo t 0x1C far).load ((planBytes t d n).map fun b => (b, false))).sealed) s

/-- The module takes its place: chip identifier, datelines, neighbours, routes (R205, R208, R224, R279). -/
def takePlace (s : State) (d : Decl) (cs : List Nat) : State :=
  let port (n : Nat) (q : Port) : Port :=
    let a := n / 2
    { q with dateline := cs.getD a 0 == (if n % 2 = 0 then lenAt d.lens a - 1 else 0),
             neighbour := if (d.fibres n).isEmpty then 0xFFFF else BitVec.ofNat 16 (chipOf d.lens (stepOver d.lens cs n)) }
  { s with fab := { s.fab with chip := BitVec.ofNat 16 (chipOf d.lens cs), routes := defaultRoutes d.lens cs,
                                ports := s.fab.ports.mapFinIdx fun i q _ => port i q } }

def bytesWord (bs : List Nat) : W32 := BitVec.ofNat 32 (leNat (bs.map (BitVec.ofNat 8)))

/-- Discovery ends with a result: the outcome registers are written, the command completes, the state follows (R287, R307, R442). -/
def endDiscovery (s : State) (d : Decl) (result total : Nat) : State :=
  let cs := s.disc.coords.getD [0, 0, 0, 0]
  let at_ := s.disc.flagged.find? (·.1 == result)
  let flagPort := match at_ with | some x => x.2.val | none => 0x1F
  let far := match at_ with | some x => (s.disc.links[x.2].farIdentity).getD 0 | none => 0
  let s1 := updDisc s fun x =>
    { x with running := false, ended := true, result := BitVec.ofNat 4 result, flagPort := BitVec.ofNat 5 flagPort, total := BitVec.ofNat 17 total,
             farId := far, coordsReg := bytesWord cs, lensReg := bytesWord (d.lens.map (· - 1)), tagReg := d.tag, owner := none }
  let s2 := if result = 0 then takePlace s1 d cs else s1
  let s3 := { s2 with hlk := { s2.hlk with state := if s2.hlk.state == .discovering then (if result = 0 then .ready else .nodisc) else s2.hlk.state },
                      boot := { s2.boot with stage := 0xB0 } }
  let s4 := match s.disc.owner with
    | some (r, i) =>
      if result = 0 then finishDesc s3 r i 0 0 0 0
      else finishDesc s3 r i 0x0008 (BitVec.ofNat 48 (result + 256 * (if flagPort = 0x1F then 0xFF else flagPort))) far 0
    | none => s3
  if result = 0 then sendPlans s4 d else s4

/-! ## Progress (R285, R286) -/

def upsIn (s : State) (d : Decl) (cs : List Nat) : Option (Nat × W16) :=
  (childPorts d cs).foldl (fun acc n =>
    match acc, upOn s d n with
    | some (c, f), some u => some (c + u.1.toNat, f ||| u.2)
    | _, _ => none) (some (1, s.disc.flags))

/-- DOWN goes to the children before the module acts on it. -/
def downAndAct (s : State) (d : Decl) (cs : List Nat) (result total : Nat) : State :=
  let s1 := (childPorts d cs).foldl (fun t n => sendOn t d n 3 fun m => { m with count := BitVec.ofNat 32 total, result := BitVec.ofNat 4 result }) s
  endDiscovery (updDisc s1 fun x => { x with downResult := some (BitVec.ofNat 4 result), total := BitVec.ofNat 17 total }) d result total

/-- UP when everything it needs has come; the seed decides when it holds every child's UP (R286). -/
def progress (s : State) : State :=
  match s.disc.decl, s.disc.coords with
  | some d, some cs =>
    if !s.disc.running then s
    else
      match upsIn s d cs with
      | none => s
      | some (total, flags) =>
        match parentPort cs with
        | none =>
          let s1 := if total ≠ prodOf d.lens then flagCode s 6 none else s
          downAndAct s1 d cs ((firstCode (flags ||| s1.disc.flags)).getD 0) total
        | some n =>
          if !hellosDone s d || !(d.netPorts.all (coordOn s d)) || (d.fibres n).any (fun f => s.disc.links[f].upSent) then s
          else sendOn s d n 2 fun m => { m with count := BitVec.ofNat 32 total, flags := flags }
  | _, _ => s

/-- The module takes coordinates and floods them (R285). -/
def takeCoords (s : State) (d : Decl) (cs : List Nat) : State := sendCoords (updDisc s fun x => { x with coords := some cs }) d

/-! ## DISCOVER (R280, R288, R307) -/

def supersede (s : State) : State :=
  match s.disc.running, s.disc.owner, s.disc.decl with
  | true, some (r, i), some d =>
    updDisc (finishDesc s r i 0x0008 (BitVec.ofNat 48 (9 + 256 * 0xFF)) 0 0) fun x => { x with oldTags := d.tag :: x.oldTags, owner := none }
  | _, _, _ => s

/-- The training map again (R261, R281): each fibre port carries its own four lanes, as far as they are in their straps. -/
def trainingMap (s : State) : State :=
  let map (i : Nat) (l : Lane) : Lane :=
    if s.glb.engines.getLsbD (i / 16) then
      { l with txPort := some (Fin.ofNat 4 (i % 4)), rxPort := some (Fin.ofNat 4 ((i % 4).xor 1)), txActive := !l.txOut && l.txMod ≠ 0,
               rxActive := !l.rxOut && l.rxMod ≠ 0 }
    else l
  recount { s with opt := { s.opt with lanes := s.opt.lanes.mapFinIdx fun i l _ => map i l } }

def startDiscovery (s : State) (ring : RingId) (idx : W16) (data : List Byte) : State :=
  let s0 := supersede s
  let d := declOf data
  let s1 := updDisc s0 fun x => { x with coords := none, links := Vector.replicate 16 DiscLink.reset, flags := 0, flagged := [], downResult := none,
                                          owner := some (ring, idx) }
  let s2 := { s1 with hlk := { s1.hlk with state := .discovering } }
  if declBad s data then endDiscovery (updDisc s2 fun x => { x with decl := none }) d 8 0
  else
    let s3 := updDisc { s2 with opt := { s2.opt with portMap := d.pmap, planPkts := [], planFailed := false },
                                boot := { s2.boot with stage := 0xC0, highest := 0xC0 } } fun x =>
      { x with running := true, ended := false, decl := some d, oldTags := x.oldTags.filter (· ≠ d.tag) }
    let s4 := d.mapped.foldl (fun t p => sendMsg t p (message t d p 0)) (trainingMap s3)
    if d.seed = s.glb.moduleId then progress (takeCoords s4 d [0, 0, 0, 0]) else s4

/-! ## HELLO, COORD, UP, DOWN (R284–R287) -/

/-- Two fibre ports serve the same network port. -/
def sameNet (d : Decl) (p q : Fin 16) : Bool := p != q && (d.net p).isSome && d.net p == d.net q

/-- The first failing check of a HELLO or its acknowledgement (R284). The identity of an acknowledgement is this module's own, as it
carries the payload it answers. -/
def helloFlag (s : State) (d : Decl) (p : Fin 16) (m : DiscMsg) : Option Nat :=
  if m.tag ≠ d.tag || m.dcrc ≠ d.dcrc then some 1
  else if m.fport.val ≠ p.val.xor 1 || some (m.nport.val.xor 1) ≠ d.net p then some 2
  else if !m.ack && (List.finRange 16).any (fun q => sameNet d p q && (match s.disc.links[q].farIdentity with | some x => x != m.identity | none => false)) then some 3
  else if (List.finRange 16).any (fun q => sameNet d p q &&
      (match s.disc.links[p].roundTrip, s.disc.links[q].roundTrip with | some x, some y => 100 < x - y + (y - x) | _, _ => false)) then some 4
  else none

def helloArrives (s : State) (p : Fin 16) (pk : Packet) (m : DiscMsg) : State :=
  match answering s p m with
  | none => s
  | some d =>
    let s1 := ackMsg s d p pk m
    if s.disc.links[p].helloChecked then s1
    else
      let s2 := updLink s1 p fun l => { l with helloChecked := true, farIdentity := some m.identity, farEngine := some m.engine }
      progress (match helloFlag s2 d p m with | some c => flagCode s2 c (some p) | none => s2)

/-- A COORD's coordinates for this module through the receiving port (R285). -/
def coordFrom (d : Decl) (p : Fin 16) (m : DiscMsg) : List Nat :=
  let n := (d.net p).getD 0
  stepOver d.lens (m.coords.map BitVec.toNat) (if n % 2 = 1 then 2 * (n / 2) else 2 * (n / 2) + 1)

/-- The first COORD among those of one tick: that on the lowest network port (R285). The ones behind in the queue are of the same tick. -/
def firstCoord (s : State) (d : Decl) (p : Fin 16) (m : DiscMsg) : Fin 16 × DiscMsg :=
  s.pending.foldl (fun b c =>
    match c with
    | .coord q k =>
      match (if k.intact then discOf k else none) with
      | some x => if x.kind = 1 && !x.ack && (answering s q x).isSome && (d.net q).getD 8 < (d.net b.1).getD 8 then (q, x) else b
      | none => b
    | _ => b) (p, m)

/-- A COORD: the module takes its coordinates from the first, and checks every other against what it holds (R285). -/
def coordArrives (s : State) (p : Fin 16) (pk : Packet) (m : DiscMsg) : State :=
  match answering s p m with
  | none => s
  | some d =>
    let s1 := ackMsg s d p pk m
    if s.disc.links[p].coordSeen || !s.disc.running then s1
    else
      let s2 := updLink s1 p fun l => { l with coordSeen := true }
      let b := firstCoord s d p m
      let s3 := match s.disc.coords with | none => takeCoords s2 d (coordFrom d b.1 b.2) | some _ => s2
      let clash := s3.disc.coords ≠ some (coordFrom d p m) || m.lens ≠ d.lens.map fun l => BitVec.ofNat 8 (l - 1)
      progress (if clash then flagCode s3 5 (some p) else s3)

/-- An UP: its count and flags are kept once (R286). -/
def upArrives (s : State) (p : Fin 16) (pk : Packet) (m : DiscMsg) : State :=
  match answering s p m with
  | none => s
  | some d =>
    let s1 := ackMsg s d p pk m
    if s.disc.links[p].upFrom.isSome || !s.disc.running then s1
    else progress (updDisc (updLink s1 p fun l => { l with upFrom := some (m.count, m.flags) }) fun x => { x with flags := x.flags ||| m.flags })

/-- A DOWN: forwarded to the children, then acted on (R286, R287). -/
def downArrives (s : State) (p : Fin 16) (pk : Packet) (m : DiscMsg) : State :=
  match answering s p m with
  | none => s
  | some d =>
    let s1 := ackMsg s d p pk m
    match s.disc.coords with
    | some cs => if s.disc.running then downAndAct s1 d cs m.result.toNat m.count.toNat else s1
    | none => s1

/-- The acknowledgement that echoes a message sent on the port ends its repeating; a HELLO's is checked and gives the round trip (R282–R284). -/
def discAcked (s : State) (p : Fin 16) (m : DiscMsg) : State :=
  match answering s p m with
  | none => s
  | some d =>
    if !s.disc.links[p].tseqs.contains (m.kind, m.echo) then s
    else match m.kind with
      | 0 =>
        if s.disc.links[p].helloAcked then s
        else
          let rt := ((s.now.setWidth 32 : W32) - m.echo - m.turnaround).toNat
          let s1 := updLink s p fun l => { l with helloAcked := true, roundTrip := some rt }
          progress (match helloFlag s1 d p m with | some c => flagCode s1 c (some p) | none => s1)
      | 1 => updLink s p fun l => { l with coordAcked := true }
      | 2 => updLink s p fun l => { l with upAcked := true }
      | 3 => updLink s p fun l => { l with downAcked := true }

/-- Messages on a link still without their acknowledgement go again (R283). -/
def discRepeats (s : State) (p : Fin 16) : State :=
  match s.disc.decl with
  | none => s
  | some d =>
    if !(d.net p).isSome || !(s.disc.running || s.disc.downResult.isSome) then s
    else
      let l := s.disc.links[p]
      let cs := s.disc.coords.getD [0, 0, 0, 0]
      let s1 := if l.helloAcked then s else sendMsg s p (message s d p 0)
      let s2 := if l.coordSent && !l.coordAcked then sendMsg s1 p (message s1 d p 1) else s1
      let s3 := match (if l.upSent && !l.upAcked then upsIn s2 d cs else none) with
        | some (total, flags) => sendMsg s2 p { message s2 d p 2 with count := BitVec.ofNat 32 total, flags := flags }
        | none => s2
      match (if l.downSent && !l.downAcked then s3.disc.downResult else none) with
      | some r => sendMsg s3 p { message s3 d p 3 with count := s3.disc.total.zeroExtend 32, result := r }
      | none => s3

/-- A DISC packet of a kind, delivered whole (R220, R282). -/
def discArrives (s : State) (p : Packet) (kind : Fin 4) (ack : Bool) (f : DiscMsg → State → State) : State :=
  accepting s p fun t => match discOf p with | some m => if m.kind = kind && m.ack = ack then f m t else t | none => t

/-- A DOWN that this module acts on comes in this tick: it wins over the budget's expiry (R288). -/
def downNow (s : State) : Bool :=
  s.disc.coords.isSome && s.pending.any fun c =>
    match c with
    | .down q k => (match (if k.intact then discOf k else none) with | some m => m.kind == 3 && !m.ack && (answering s q m).isSome | none => false)
    | _ => false

/-! ## PLAN (R273) -/

/-- Where a PLAN packet differs from this module's receive lanes: plan, own fibre port, the sender's mask and the own one (R273). Compared are
the plans that either end defines; a sender whose valid mask is 0 holds no table yet, and its packet says nothing (log entry 21). Fibre ports
of the network port that the packet does not name are compared with no lanes. -/
def planDiffs (s : State) (port : PortId) (p : Packet) : List (Fin 8 × Fin 16 × W16 × W16) :=
  let b := p.payload
  let sent := (List.range (leAt b 0 1)).map fun i => (Fin.ofNat 16 ((leAt b (8 + 18 * i) 1).xor 1), i)
  let mine := (List.finRange 16).filter fun f => netPort s (some f) == some port && !sent.any (·.1 == f)
  if leAt b 1 1 = 0 then []
  else (List.finRange 8).flatMap fun k =>
    if (leAt b 1 1 ||| s.opt.validMask.toNat).testBit k.val then
      (sent.map (fun (x : Fin 16 × Nat) => (x.1, leAt b (10 + 18 * x.2 + 2 * k.val) 2)) ++ mine.map (fun f => (f, 0))).filterMap fun (x : Fin 16 × Nat) =>
        if x.2 = rxMask s k.val x.1 then none else some (k, x.1, BitVec.ofNat 16 x.2, BitVec.ofNat 16 (rxMask s k.val x.1))
    else []

/-- The differing plans. -/
def planMismatches (s : State) (port : PortId) (p : Packet) : List Nat := ((planDiffs s port p).map (·.1.val)).eraseDups

/-- Every difference is counted and reported with both masks; the manual does not say where it is reported (log entry 112). -/
def reportPlans (s : State) (port : PortId) (p : Packet) : State :=
  (planDiffs s port p).foldl (fun t x =>
    { t.say (.planMismatch port x.1 x.2.1 x.2.2.1 x.2.2.2) with opt := { t.opt with planMismatch := bump t.opt.planMismatch } }) s

/-- A PLAN packet is kept for the load; once an image is loaded a difference fails the load (R273). -/
def planArrives (s : State) (port : PortId) (p : Packet) : State :=
  let s1 := { s with opt := { s.opt with planPkts := s.opt.planPkts.filter (·.1 ≠ port) ++ [(port, p)] } }
  if s.hlk.state == .loaded && !(planDiffs s port p).isEmpty then
    let s2 := reportPlans s1 port p
    { s2 with opt := { s2.opt with planFailed := true }, hlk := { s2.hlk with state := .ready } }
  else s1

/-! ## The meanings -/

/-- PLAN (R273). -/
def execPlan (port : PortId) (p : Packet) (s : State) : Host.Outcome State Fault Refusal := .next (accepting s p (planArrives · port p))

/-- HELLO (R284). -/
def execHello (port : Fin 16) (p : Packet) (s : State) : Host.Outcome State Fault Refusal :=
  .next (discArrives s p 0 false fun m t => helloArrives t port p m)

/-- COORD (R285). -/
def execCoord (port : Fin 16) (p : Packet) (s : State) : Host.Outcome State Fault Refusal :=
  .next (discArrives s p 1 false fun m t => coordArrives t port p m)

/-- UP (R286). -/
def execUp (port : Fin 16) (p : Packet) (s : State) : Host.Outcome State Fault Refusal :=
  .next (discArrives s p 2 false fun m t => upArrives t port p m)

/-- DOWN (R287). -/
def execDown (port : Fin 16) (p : Packet) (s : State) : Host.Outcome State Fault Refusal :=
  .next (discArrives s p 3 false fun m t => downArrives t port p m)

/-- An acknowledgement of a DISC message (R283, R284). -/
def execDiscAck (port : Fin 16) (p : Packet) (s : State) : Host.Outcome State Fault Refusal :=
  .next (accepting s p fun t => match discOf p with | some m => if m.ack then discAcked t port m else t | none => t)

/-- Unanswered messages are repeated (R283). -/
def execDiscRepeat (port : Fin 16) (s : State) : Host.Outcome State Fault Refusal := .next (discRepeats s port)

/-- The discovery budget expires (R288). -/
def execDiscoveryTimeout (s : State) : Host.Outcome State Fault Refusal :=
  .next (match s.disc.decl with
    | some d => if s.disc.running && !downNow s then endDiscovery s d ((firstCode s.disc.flags).getD 7) 0 else s
    | none => s)

end Sys2Proof.Machine
end

