-- ==== Sys2Proof/Machine/HostLink.lean ====
section
/-! DEFINITION. The host link (R293–R306, R311): the link, rings, doorbells, the checks of a descriptor, completions, interrupts,
sealed host data (R387), host transfers. -/

namespace Sys2Proof.Machine

def updHlk (s : State) (f : Hlk → Hlk) : State := { s with hlk := f s.hlk }
def updRing (s : State) (r : RingId) (f : Ring → Ring) : State := updHlk s fun h => { h with rings := vmod h.rings r f }

/-- A host access has succeeded: a run of failed link frames ends (R386). -/
def linkGood (s : State) : State := updHlk s fun h => { h with authRun := 0 }

/-! ## Descriptors (R298, R303, R306, R309) -/

def Inflight.op (d : Inflight) : Nat := leAt d.bytes 0 1
def Inflight.irq (d : Inflight) : Bool := (leAt d.bytes 1 1).testBit 0
def Inflight.barrier (d : Inflight) : Bool := (leAt d.bytes 1 1).testBit 1
def Inflight.seal (d : Inflight) : Bool := (leAt d.bytes 1 1).testBit 2
def Inflight.hostAddr (d : Inflight) : Nat := leAt d.bytes 16 8
def Inflight.len (d : Inflight) : Nat := leAt d.bytes 24 4 + 1
def Inflight.buffer (d : Inflight) : Nat := leAt d.bytes 28 4 + 1
def Inflight.localAddr (d : Inflight) : Nat := leAt d.bytes 32 5
def Inflight.action (d : Inflight) : Nat := leAt d.bytes 16 1
def Inflight.sub (d : Inflight) : Nat := leAt d.bytes 16 2

/-- The bytes of sealed data that n plaintext bytes need on the host (R304). -/
def sealedLen (n : Nat) : Nat := n + 32 * ((n + 4095) / 4096)

/-- Host data is sealed: confidential mode with its keys (R304, R422, R423). -/
def sealing (s : State) : Bool := s.sec.conf && s.sec.unlocked

def hostLen (s : State) (n : Nat) : Nat := if sealing s then sealedLen n else n

/-! ## The checks of R299 -/

def knownOp (op : Nat) : Bool := [0x01, 0x02, 0x10, 0x11, 0x20, 0x30, 0x40, 0x41, 0x42, 0x43].contains op
def adminOp (op : Nat) : Bool := 0x40 ≤ op && op ≤ 0x43

/-- Bytes of a descriptor that are zero. -/
def zeros (d : Inflight) (i n : Nat) : Bool := ((d.bytes.drop i).take n).all (· == 0)

/-- A reserved field is set or an operand is illegal. -/
def fieldBad (d : Inflight) : Bool :=
  8 ≤ leAt d.bytes 1 1 || !zeros d 2 6 ||
    match d.op with
    | 0x02 => 16 ≤ leAt d.bytes 16 1 || !zeros d 17 7 || !zeros d 36 28
    | 0x10 | 0x11 => !zeros d 37 27
    | 0x20 => 5 ≤ d.action || !zeros d 17 47
    | 0x30 => d.sub = 0 || 6 ≤ d.sub || !zeros d 18 6 || !zeros d 36 4 || !zeros d 52 12
    | 0x40 => !zeros d 24 4 || !zeros d 32 32
    | 0x41 => !zeros d 32 32
    | _ => !zeros d 16 48

/-- A START has entered its cinch or its switch (R307, R335). -/
def starting (s : State) : Bool :=
  s.job.startRing.isSome || s.coll.cinches.any fun n => match n.kind with | .start _ _ => true | _ => false

/-- A LOAD ahead of this descriptor is still in progress (R313). -/
def loadAhead (s : State) (d : Inflight) : Bool :=
  (s.hlk.rings[(0 : RingId)].inflight.takeWhile (·.idx != d.idx)).any fun e => e.status.isNone && e.op == 0x41

/-- The opcode or action is accepted in the present state (R307, R308, R313). -/
def accepted (s : State) (d : Inflight) : Bool :=
  let st := s.hlk.state
  match d.op with
  | 0x30 => true
  | 0x01 | 0x02 => st != .minimal && st != .wedged
  | 0x40 => (st == .nodisc || st == .discovering || st == .ready) && !loadAhead s d
  | 0x41 => st == .ready && !loadAhead s d
  | 0x42 => st == .loaded && !starting s
  | 0x43 => st == .loaded || st == .running || st == .stopped
  | 0x10 | 0x11 => st == .loaded || st == .running || st == .stopped
  | 0x20 =>
    match d.action with
    | 0 => st == .running && s.job.hold == .none
    | 1 => st == .running && s.job.hold == .inEffect
    | 2 => st == .running && s.job.hold == .inEffect && s.job.replay.isNone && s.job.ctxKept.isSome
    | _ => st == .loaded || st == .running || st == .stopped
  | _ => false

/-- What a descriptor needs of its host buffer, and the buffer (R304, R307). -/
def lengthNeed (s : State) (d : Inflight) : Option Nat :=
  let need := match d.op with
    | 0x10 | 0x11 | 0x41 => hostLen s d.len
    | 0x40 => hostLen s 64
    | _ => 0
  if (d.op = 0x10 || d.op = 0x11 || d.op = 0x40 || d.op = 0x41) && d.buffer < need then some need else none

/-- A transfer's local extent under R74; until START both aliases are writable (R303). -/
def transferCause (s : State) (d : Inflight) (a n : Nat) : Option Nat :=
  match hbmCause s a n (d.op == 0x10) true with
  | some 0x14 => if s.hlk.state == .loaded then none else some 0x14
  | x => x

/-- The first byte of an extent that fails: the extent's start, or the first boundary in it that does. -/
def firstBad (s : State) (d : Inflight) (a n : Nat) : Nat :=
  let marks := a :: dumpBase s :: installed s :: s.mem.regions.flatMap fun r => [r.base, r.base + r.size, r.wbase, r.wbase + r.size]
  ((marks.filter fun x => a ≤ x && x < a + n && (transferCause s d x 1).isSome).foldl (fun m x => match m with
    | none => some x | some y => some (min x y)) (none : Option Nat)).getD a

/-- The first check of R299 that fails: status, details A and B, fault code. -/
def descCheck (s : State) (ring : RingId) (d : Inflight) : Option (W16 × BitVec 48 × W64 × W16) :=
  if !knownOp d.op || (adminOp d.op && ring ≠ 0) then some (0x0003, 0, 0, 0)
  else if fieldBad d then some (0x0002, 0, 0, 0)
  else if !accepted s d then some (0x0004, 0, 0, 0)
  else if d.seal ≠ sealing s then some (0x0009, 0, 0, 0)
  else
    match lengthNeed s d with
    | some need => some (0x0001, 0, BitVec.ofNat 64 need, codeLength)
    | none =>
      if d.op = 0x10 || d.op = 0x11 then
        match transferCause s d d.localAddr d.len with
        | some x => some (0x0005, BitVec.ofNat 48 x, BitVec.ofNat 64 (firstBad s d d.localAddr d.len), codeHbmRange)
        | none => none
      else none

/-! ## Starting (R306) -/

/-- A descriptor that holds later ones of its ring until it has completed. -/
def Inflight.fence (d : Inflight) : Bool := d.barrier || d.op == 0x02

/-- The descriptor may start: no barrier before it, and nothing before it if it is one. -/
def startable (s : State) (ring : RingId) (d : Inflight) : Bool :=
  let before := s.hlk.rings[ring].inflight.takeWhile (·.idx != d.idx)
  before.all (fun e => !e.fence) && (!d.fence || before.isEmpty)

/-- Opcodes whose action accesses host memory, which needs the link (R293). -/
def hostOp (op : Nat) : Bool := [0x10, 0x11, 0x30, 0x40, 0x41].contains op

/-- Run a descriptor's action: it is in progress, its own command, may start, and passes its checks; a failed check completes it
with that status and changes nothing. -/
def runDesc (s : State) (ring : RingId) (idx : W16) (op : Nat) (f : Inflight → State → State) : State :=
  match s.hlk.rings[ring].inflight.find? fun d => d.idx == idx && d.status.isNone && !d.acted && isOpcode d op with
  | none => s
  | some d =>
    if (hostOp op && !s.hlk.up) || !startable s ring d then s
    else
      match descCheck s ring d with
      | some (st, a, b, code) => finishDesc s ring idx st a b code
      | none => f d (if hostOp op then linkGood s else s)

/-- The action of a descriptor has begun and ends later. -/
def begun (s : State) (ring : RingId) (idx : W16) : State :=
  updRing s ring fun r => { r with inflight := r.inflight.map fun d => if d.idx == idx then { d with acted := true } else d }

def doneDesc (s : State) (ring : RingId) (idx : W16) (b : Nat) : State := finishDesc s ring idx 0 0 (BitVec.ofNat 64 b) 0

/-! ## The link (R293, R386) -/

/-- A descriptor whose host access has begun and has not ended: it has started and passed its checks. -/
def usesHost (s : State) (r : RingId) (d : Inflight) : Bool :=
  d.status.isNone && !d.acted && hostOp d.op && startable s r d && (descCheck s r d).isNone

def goDown (s : State) : State :=
  let cut := (List.finRange 16).flatMap fun r => (s.hlk.rings[r].inflight.filter (usesHost s r)).map fun d => (r, d.idx)
  updHlk s fun h => { h with up := false, width := 0, cutOff := h.cutOff ++ cut, authRun := 0 }

/-- Events kept while the link was down are written in order (R293, R302). -/
def flushEvents (s : State) : State := s.hlk.buffered.foldl writeEvent (updHlk s fun h => { h with buffered := [] })

/-- The link trains to 8 lanes, or to 4 where at least 4 pass; descriptors cut off complete with HOSTERR. The first training after a
reset is no retraining. -/
def comeUp (s : State) (lanes : Nat) : State :=
  if s.hlk.up || lanes < 4 then s
  else
    let s1 := updHlk s fun h => { h with up := true, width := if 8 ≤ lanes then 8 else 4, linkRetrains := (if h.trained then bump h.linkRetrains else h.linkRetrains), trained := true, cutOff := [], authRun := 0 }
    flushEvents (s.hlk.cutOff.foldl (fun t x => finishDesc t x.1 x.2 0x000B 0 0 0) s1)

/-! ## Ring registers (R295, R296, R311) -/

def ringIdle (r : Ring) : Bool := r.inflight.isEmpty

/-- A write of a ring pair's control register at offset 0x10. -/
def writeRing (r : Ring) (v : W64) : Ring :=
  let size : BitVec 5 := v.setWidth 5
  let vec : BitVec 5 := (v >>> 8).setWidth 5
  let r1 := { r with weight := (v >>> 6).setWidth 2, ccount := (v >>> 16).setWidth 8, cticks := (v >>> 32).setWidth 16 }
  if r.enable then (if v.getLsbD 5 then r1 else { r1 with enable := false })
  else
    let r2 := { r1 with size := size, vector := vec }
    if !v.getLsbD 5 then r2
    else if 4 ≤ size.toNat && size.toNat ≤ 16 && vec.toNat ≤ 16 && ringIdle r then
      { r2 with enable := true, runBase := r.cqbase, runSize := size, runVector := vec, cfgErr := false, sqhead := 0, cqtail := 0, completed := 0, sqtail := 0, cqhead := 0, unreleased := 0, phase := true, unsent := 0 }
    else { r2 with cfgErr := true }

def writeEventCtl (h : Hlk) (v : W32) : Hlk :=
  if h.evenable then (if v.getLsbD 5 then h else { h with evenable := false })
  else
    let size : BitVec 5 := v.setWidth 5
    let h1 := { h with evsize := size }
    if !v.getLsbD 5 then h1
    else if 4 ≤ size.toNat && size.toNat ≤ 16 then { h1 with evenable := true, everr := false, evtail := 0, evhead := 0, evused := 0, evphase := true }
    else { h1 with everr := true }

def badDoorbell (s : State) : State := updHlk s fun h => { h with doorbellBad := bump h.doorbellBad }

/-- A doorbell that is not ignored. -/
def doorbellOk (enabled : Bool) (size : BitVec 5) (v : W16) (width32 : Bool) : Bool :=
  width32 && enabled && decide (v.toNat < ringEntries size.toNat)

/-- Entries from index a up to index b of a ring. -/
def distance (size : BitVec 5) (a b : W16) : Nat := (b.toNat + ringEntries size.toNat - a.toNat) % ringEntries size.toNat

def sqDoorbell (s : State) (ring : RingId) (value : W16) (width32 : Bool) : State :=
  let r := s.hlk.rings[ring]
  if doorbellOk r.enable r.size value width32 then updRing s ring fun r => { r with sqtail := value } else badDoorbell s

def cqDoorbell (s : State) (ring : RingId) (value : W16) (width32 : Bool) : State :=
  let r := s.hlk.rings[ring]
  if doorbellOk r.enable r.size value width32 then
    updRing s ring fun r => { r with cqhead := value, unreleased := distance r.size value r.cqtail }
  else badDoorbell s

def eventDoorbell (s : State) (value : W16) (width32 : Bool) : State :=
  if doorbellOk s.hlk.evenable s.hlk.evsize value width32 then
    updHlk s fun h => { h with evhead := value, evused := distance h.evsize value h.evtail }
  else badDoorbell s

/-- The doorbell page of a ring pair (R296). -/
def ringDoorbell (s : State) (ring : RingId) (o : Nat) (value : W16) (width32 : Bool) : State :=
  match o with
  | 0 => sqDoorbell s ring value width32
  | 4 => cqDoorbell s ring value width32
  | _ => s

/-! ## Fetching (R297) -/

def inProgress (s : State) : Nat := (s.hlk.rings.toList.map (·.inflight.length)).sum

def fetchable (s : State) (r : Ring) : Bool :=
  r.enable && r.sqhead ≠ r.sqtail && r.inflight.length + r.unreleased < ringEntries r.size.toNat && r.inflight.length < 16 && inProgress s < 128

/-- Ring pair 0 first; the others in round robin, weight + 1 descriptors a turn. -/
def nextRing (s : State) : Option RingId :=
  if fetchable s s.hlk.rings[(0 : RingId)] then some 0
  else
    let cur := s.hlk.lastRing
    let order := (List.range 15).map fun i => (cur + i + 14) % 15 + 1
    let again := if 0 < s.hlk.turn then order.head? else none
    match (again.toList ++ order.drop 1 ++ order.take 1).find? fun i => fetchable s (s.hlk.rings[(Fin.ofNat 16 i : RingId)]) with
    | some i => some (Fin.ofNat 16 i)
    | none => none

/-- The checks of R299 on a descriptor that may start and has neither acted nor completed. -/
def checkDesc (ring : RingId) (s : State) (d : Inflight) : State :=
  if startable s ring d && d.status.isNone && !d.acted then
    match descCheck s ring d with
    | some (st, a, b, code) => finishDesc s ring d.idx st a b code
    | none => s
  else s

/-- The checks on descriptors that have waited behind one of their ring (R299, R306). -/
def checkAll (ring : RingId) (ds : List Inflight) (s : State) : State := ds.foldl (checkDesc ring) s

/-- An admin descriptor fetched while a LOAD is in progress completes with STATE, also behind a barrier (R313). -/
def checkAhead (s : State) (ring : RingId) (d : Inflight) : State :=
  if ring = 0 && adminOp d.op && loadAhead s d then finishDesc s ring d.idx 0x0004 0 0 0 else s

/-- Fetch one descriptor of the ring whose turn it is, and check it if it may start. -/
def fetch (s : State) (ring : RingId) (data : List Byte) : State :=
  if !s.hlk.up || nextRing s ≠ some ring then s
  else
    let r := s.hlk.rings[ring]
    let d : Inflight := { idx := r.sqhead, bytes := padTo 64 0 data, status := none, detailA := 0, detailB := 0, code := 0, acted := false }
    let s1 := updRing (linkGood s) ring fun r =>
      { r with sqhead := BitVec.ofNat 16 ((r.sqhead.toNat + 1) % ringEntries r.size.toNat), inflight := r.inflight ++ [d] }
    let s2 := if ring = 0 then s1 else updHlk s1 fun h =>
      { h with lastRing := ring.val, turn := if h.lastRing = ring.val && 0 < h.turn then h.turn - 1 else r.weight.toNat }
    checkDesc ring (checkAhead s2 ring d) d

/-! ## Completions (R300, R301) -/

def completionBytes (d : Inflight) (phase : Bool) : List Byte :=
  (d.bytes.drop 8).take 8 ++ leBytes 2 d.idx.toNat ++ leBytes 2 (d.status.getD 0).toNat ++ [if phase then 1 else 0, 0, 0, 0] ++
    leBytes 2 d.code.toNat ++ leBytes 6 d.detailA.toNat ++ leBytes 8 d.detailB.toNat

/-- One message for the completions since the last one. -/
def interruptNow (s : State) (ring : RingId) : State :=
  updRing (s.say (.interrupt s.hlk.rings[ring].runVector)) ring fun r => { r with unsent := 0 }

def complete (s : State) (ring : RingId) (idx : W16) : State :=
  let r := s.hlk.rings[ring]
  match r.inflight.find? fun d => d.idx == idx && d.status.isSome with
  | none => s
  | some d =>
    if !s.hlk.up then s
    else
      let t := r.cqtail.toNat
      let wrap := t + 1 == ringEntries r.runSize.toNat
      let s1 := s.say (.hostWrite (r.runBase + BitVec.ofNat 64 (32 * t)) (completionBytes d r.phase))
      let s2 := updRing s1 ring fun r =>
        { r with inflight := r.inflight.filter (·.idx != idx), cqtail := if wrap then 0 else r.cqtail + 1, phase := (if wrap then !r.phase else r.phase),
                 completed := bump r.completed, unreleased := r.unreleased + 1, unsent := r.unsent + 1 }
      checkAll ring (r.inflight.filter fun d => !startable s ring d) (if d.irq || r.ccount.toNat + 1 ≤ r.unsent + 1 then interruptNow s2 ring else s2)

/-! ## Sealed host data (R374, R376, R387) -/

/-- I ‖ E, the context of keys that depend on the boot (R376). -/
def bootContext (s : State) : List Byte := leBytes 8 s.glb.moduleId.toNat ++ leBytes 8 s.sec.epoch.toNat

def hostKey (s : State) : BitVec 256 := kdf Config.fleetKey (ascii "HXF") (bootContext s)

def sealNonce (dir : Nat) (counter : Nat) : List Byte := leBytes 1 dir ++ [0, 0, 0] ++ leBytes 8 counter

def sealAad (addr len op : Nat) : List Byte := leBytes 8 addr ++ leBytes 4 len ++ leBytes 1 op ++ [0, 0, 0]

/-- Seal one block; the part numbers its blocks from 1, once per epoch. -/
def sealBlock (s : State) (addr op : Nat) (pt : List Byte) : State × List Byte :=
  let c := s.sec.hostNext.toNat
  let x := gcmSeal (hostKey s) (sealNonce 1 c) (sealAad addr pt.length op) pt
  ({ s with sec := { s.sec with hostNext := bump s.sec.hostNext } }, x.1 ++ x.2 ++ leBytes 8 c ++ [1] ++ List.replicate 7 0)

/-- Data on its way to the host: sealed block by block in confidential mode. `addr` is its HBM address, none without one. -/
def toHost (s : State) (addr : Option Nat) (op : Nat) (data : List Byte) : State × List Byte :=
  if sealing s then
    ((chunksOf 4096 data.length data).zipIdx).foldl (fun x c =>
      let y := sealBlock x.1 (match addr with | some a => a + 4096 * c.2 | none => 0) op c.1
      (y.1, x.2 ++ y.2)) (s, [])
  else (s, data)

/-- The counter of a block from the host is fresh. -/
def counterFresh (s : State) (c : Nat) : Bool := c ≠ 0 && s.sec.hostHigh.toNat < c + 4096 && !s.sec.hostSeen.contains (BitVec.ofNat 64 c)

/-- Open one block of `n` plaintext bytes from the host: none where it fails, which is counted (R390). -/
def openBlock (s : State) (addr op n : Nat) (blk : List Byte) : State × Option (List Byte) :=
  let ct := blk.take n
  let tr := padTo 32 0 (blk.drop n)
  let c := leAt tr 16 8
  let fail := ({ s with sec := { s.sec with hostAuthFail := bump s.sec.hostAuthFail } }, none)
  if byteAt tr 24 ≠ 2 || (tr.drop 25).any (· ≠ 0) || !counterFresh s c then fail
  else
    match gcmOpen (hostKey s) (sealNonce 2 c) (sealAad addr n op) ct (tr.take 16) with
    | none => fail
    | some pt =>
      ({ s with sec := { s.sec with hostHigh := if s.sec.hostHigh.toNat < c then BitVec.ofNat 64 c else s.sec.hostHigh,
                                    hostSeen := BitVec.ofNat 64 c :: s.sec.hostSeen.filter fun x => c < x.toNat + 4096 } }, some pt)

/-- Open data of `n` plaintext bytes: the bytes before the first failing block, and that block's index. -/
def fromHostAux (addr : Option Nat) (op : Nat) : Nat → Nat → State → Nat → List Byte → List Byte → State × List Byte × Option Nat
  | 0, _, s, _, _, acc => (s, acc, none)
  | fuel + 1, i, s, n, data, acc =>
    if n = 0 then (s, acc, none)
    else
      let m := min n 4096
      match openBlock s (match addr with | some a => a + 4096 * i | none => 0) op m (data.take (m + 32)) with
      | (s1, none) => (s1, acc, some i)
      | (s1, some pt) => fromHostAux addr op fuel (i + 1) s1 (n - m) (data.drop (m + 32)) (acc ++ pt)

def fromHost (s : State) (addr : Option Nat) (op n : Nat) (data : List Byte) : State × List Byte × Option Nat :=
  if sealing s then fromHostAux addr op (n / 4096 + 1) 0 s n data [] else (s, padTo n 0 data, none)

/-! ## Host transfers (R303–R305) -/

def clean (bs : List Byte) : List PByte := bs.map fun b => (b, false)

/-- HTOD: `data` are the host's bytes; after a failed host access the earlier bytes, which stay moved. -/
def htod (s : State) (ring : RingId) (idx : W16) (d : Inflight) (data : List Byte) (hostErr : Bool) : State :=
  let a := d.localAddr
  if hostErr then
    let x := fromHost s (some a) 0x10 (min d.len data.length) data
    finishDesc (hbmPut x.1 a (clean (if sealing s then x.2.1 else data.take d.len))) ring idx 0x000B 0 0 0
  else
    let x := fromHost s (some a) 0x10 d.len data
    let s1 := hbmPut x.1 a (clean x.2.1)
    match x.2.2 with
    | some i => finishDesc s1 ring idx 0x000A 0 (BitVec.ofNat 64 i) 0
    | none => doneDesc s1 ring idx d.len

/-- The poisoned lines of an extent, ascending. -/
def badLines (s : State) (a n : Nat) : List Nat := (linesOf a n).filter fun l => linePoison s (keyOf s (64 * l) / 64)

/-- DTOH: zeros stand for poisoned lines, whose reading is a consumption (R305, R350). -/
def dtoh (s : State) (ring : RingId) (idx : W16) (d : Inflight) (hostErr : Bool) : State :=
  let a := d.localAddr
  let bad := badLines s a d.len
  let data := (readHbm s a d.len).zipIdx.map fun b => if bad.contains ((a + b.2) / 64) then 0 else b.1
  let s1 := if bad.isEmpty || s.job.manifest.isNone then s else consume s 2 none (64 * bad.headD 0)
  if hostErr then finishDesc s1 ring idx 0x000B 0 0 0
  else
    let x := toHost s1 (some a) 0x11 data
    let s2 := x.1.say (.hostWrite (BitVec.ofNat 64 d.hostAddr) x.2)
    if bad.isEmpty then doneDesc s2 ring idx d.len
    else finishDesc s2 ring idx 0x0006 (BitVec.ofNat 48 bad.length) (BitVec.ofNat 64 (64 * bad.headD 0)) codePoison

/-- The ring, value and state of a WAITR (R306). -/
def waitMet (s : State) (d : Inflight) : Bool :=
  let r := s.hlk.rings[(Fin.ofNat 16 (leAt d.bytes 16 1) : RingId)]
  r.enable && decide (leAt d.bytes 24 8 ≤ r.completed.toNat)

/-! ## The meanings -/

/-- The host link goes down (R293). -/
def execLinkDown (s : State) : Host.Outcome State Fault Refusal := .next (if s.hlk.up then goDown s else s)

/-- The link retrains (R293). -/
def execLinkRetrain (lanes : Nat) (s : State) : Host.Outcome State Fault Refusal := .next (comeUp s lanes)

/-- A link frame fails authentication (R386). -/
def execLinkFrameAuthFail (s : State) : Host.Outcome State Fault Refusal :=
  .next (if sealing s && s.hlk.up then
      let s1 := { s with sec := { s.sec with linkAuthFail := bump s.sec.linkAuthFail } }
      if 1000 ≤ s.hlk.authRun + 1 then goDown s1 else updHlk s1 fun h => { h with authRun := h.authRun + 1 }
    else s)

/-- A write of enable = 1 (R295). -/
def execRingEnable (ring : RingId) (value : W64) (s : State) : Host.Outcome State Fault Refusal :=
  .next (updRing s.unlatch ring fun r => writeRing r (value ||| 0x20))

/-- A write of enable = 0 (R295). -/
def execRingDisable (ring : RingId) (s : State) : Host.Outcome State Fault Refusal := .next (updRing s.unlatch ring fun r => { r with enable := false })

/-- A submission-tail doorbell (R296). -/
def execSqTailDoorbell (ring : RingId) (value : W16) (width32 : Bool) (s : State) : Host.Outcome State Fault Refusal :=
  .next (sqDoorbell s.unlatch ring value width32)

/-- A completion-head doorbell (R296, R297). -/
def execCqHeadDoorbell (ring : RingId) (value : W16) (width32 : Bool) (s : State) : Host.Outcome State Fault Refusal :=
  .next (cqDoorbell s.unlatch ring value width32)

/-- An event-head doorbell (R296, R302). -/
def execEventHeadDoorbell (value : W16) (width32 : Bool) (s : State) : Host.Outcome State Fault Refusal :=
  .next (eventDoorbell s.unlatch value width32)

/-- A descriptor is fetched (R297, R299). -/
def execDescriptorFetch (ring : RingId) (data : List Byte) (s : State) : Host.Outcome State Fault Refusal := .next (fetch s ring data)

/-- A completion entry is written (R300, R301). -/
def execDescriptorComplete (ring : RingId) (idx : W16) (s : State) : Host.Outcome State Fault Refusal := .next (complete s ring idx)

/-- The coalescing time has passed since the oldest unannounced completion (R301). -/
def execCoalesceTimeout (ring : RingId) (s : State) : Host.Outcome State Fault Refusal :=
  .next (let r := s.hlk.rings[ring]
    if s.hlk.up && r.cticks ≠ 0 && 0 < r.unsent then interruptNow s ring else s)

/-- A write of evenable = 1 (R311). -/
def execEventRingEnable (value : W32) (s : State) : Host.Outcome State Fault Refusal := .next (updHlk s.unlatch fun h => writeEventCtl h (value ||| 0x20))

/-- A write of evenable = 0 (R311). -/
def execEventRingDisable (s : State) : Host.Outcome State Fault Refusal := .next (updHlk s.unlatch fun h => { h with evenable := false })

/-- NOP (R298). -/
def execNop (ring : RingId) (idx : W16) (s : State) : Host.Outcome State Fault Refusal :=
  .next (runDesc s ring idx 0x01 fun _ t => doneDesc t ring idx 0)

/-- WAITR sees its count reached (R306). -/
def execWaitr (ring : RingId) (idx : W16) (s : State) : Host.Outcome State Fault Refusal :=
  .next (runDesc s ring idx 0x02 fun d t => if waitMet t d then doneDesc t ring idx 0 else t)

/-- WAITR's budget expires; a count reached in the same tick wins (R306). -/
def execWaitrTimeout (ring : RingId) (idx : W16) (s : State) : Host.Outcome State Fault Refusal :=
  .next (runDesc s ring idx 0x02 fun d t => if waitMet t d then doneDesc t ring idx 0 else finishDesc t ring idx 0x000C 0 0 codeTimeout)

/-- HTOD (R303, R304). -/
def execHtod (ring : RingId) (idx : W16) (data : List Byte) (hostErr : Bool) (s : State) : Host.Outcome State Fault Refusal :=
  .next (runDesc s ring idx 0x10 fun d t => htod t ring idx d data hostErr)

/-- DTOH (R303, R305). -/
def execDtoh (ring : RingId) (idx : W16) (hostErr : Bool) (s : State) : Host.Outcome State Fault Refusal :=
  .next (runDesc s ring idx 0x11 fun d t => dtoh t ring idx d hostErr)

end Sys2Proof.Machine
end

