-- ==== Sys2Proof/Machine/RegRead.lean ====
section
/-! DEFINITION. Reading the set-up window (R426–R442): every register block's 64-bit words, as the live state gives them and as
confidential mode presents them (R225, R277, R340, R384, R441). -/

namespace Sys2Proof.Machine

/-! ## Words from fields -/

/-- A word from its fields: value, lowest bit, width. -/
def packW (fs : List (Nat × Nat × Nat)) : W64 := BitVec.ofNat 64 (fs.foldl (fun n f => n + f.1 % 2 ^ f.2.2 * 2 ^ f.2.1) 0)

def flagAt (b : Bool) (i : Nat) : Nat × Nat × Nat := (b.toNat, i, 1)

/-- How confidential mode presents a word: as it is, as a published copy, as 0, as another word. -/
inductive Conf where
  | live
  | copied
  | hidden
  | shown (v : W64)
deriving DecidableEq, Repr

def plain (fs : List (Nat × Nat × Nat)) : W64 × Conf := (packW fs, .live)
def countReg (v : W64) : W64 × Conf := (v, .copied)
def unmapped : W64 × Conf := (0, .live)

/-- The job state codes (R307). -/
def JobState.code : JobState → Nat
  | .nodisc => 0
  | .discovering => 1
  | .ready => 2
  | .loaded => 3
  | .running => 4
  | .stopped => 5
  | .minimal => 6
  | .wedged => 7

def Variant.code : Variant → Nat
  | .f64 => 0
  | .m48 => 1
  | .s64 => 2

/-! ## The blocks that answer in every state (R430) -/

/-- GLB (R431). -/
def regGlb (s : State) (o : Nat) : W64 × Conf :=
  let g := s.glb
  match o with
  | 0x00 => plain [(g.moduleId.toNat, 0, 64)]
  | 0x08 => plain [(g.variant.code, 0, 2), (g.dieStep.toNat, 8, 8), (g.boardIssue.toNat, 16, 8), (1, 32, 16)]
  | 0x10 => plain [(g.cores.toNat, 0, 7), (g.clusters.toNat, 8, 8), (g.hbmStacks.toNat, 16, 12), (g.engines.toNat, 28, 4), flagAt g.chanEng 32,
      (g.lanes.toNat, 40, 7)]
  | 0x18 => plain [(g.members.toNat, 0, 32), (g.mappedOut.toNat, 32, 8)]
  | 0x20 => plain [(g.jobCapacity.toNat, 0, 40)]
  | 0x40 => plain [(g.ticks.toNat, 0, 64)]
  | 0x48 => plain [(g.regBad.toNat, 0, 64)]
  | 0x50 => plain [(g.slotId.toNat, 0, 4)]
  | _ => unmapped

/-- A ring pair's registers (R295). -/
def regRing (r : Ring) (o : Nat) : W64 × Conf :=
  match o with
  | 0x00 => plain [(r.sqbase.toNat, 0, 64)]
  | 0x08 => plain [(r.cqbase.toNat, 0, 64)]
  | 0x10 => plain [(r.size.toNat, 0, 5), flagAt r.enable 5, (r.weight.toNat, 6, 2), (r.vector.toNat, 8, 5), (r.ccount.toNat, 16, 8),
      (r.cticks.toNat, 32, 16)]
  | 0x18 => plain [(r.sqhead.toNat, 0, 16), (r.cqtail.toNat, 16, 16), flagAt (ringIdle r) 32, flagAt r.cfgErr 33]
  | 0x20 => plain [(r.completed.toNat, 0, 64)]
  | _ => unmapped

/-- HLK (R295, R311). -/
def regHlk (s : State) (o : Nat) : W64 × Conf :=
  let h := s.hlk
  match o with
  | 0x00 => plain [(h.width.toNat, 0, 4), flagAt h.up 4, flagAt s.sec.conf 5, (h.state.code, 8, 3)]
  | 0x08 => plain [(h.evbase.toNat, 0, 64)]
  | 0x10 => plain [(h.evsize.toNat, 0, 5), flagAt h.evenable 5, flagAt h.everr 6]
  | 0x18 => plain [(h.evtail.toNat, 0, 16)]
  | 0x20 => countReg h.doorbellBad
  | 0x28 => countReg h.eventLost
  | 0x30 => countReg h.linkRetrains
  | _ =>
    if 0x1000 ≤ o && o < 0x1400 then regRing (h.rings[(Fin.ofNat 16 ((o - 0x1000) / 0x40) : RingId)]) (o % 0x40) else unmapped

/-- MGT (R364, R425, R434). -/
def regMgt (s : State) (o : Nat) : W64 × Conf :=
  let f := s.flt
  let b := s.boot
  match o with
  | 0x00 => plain [(b.mbType.toNat, 0, 3), flagAt b.mbSlot 3]
  | 0x08 => plain [(b.mbHost.toNat, 0, 64)]
  | 0x10 => plain [(b.mbLength.toNat, 0, 32)]
  | 0x18 => plain [flagAt b.mbRun.isSome 0, (b.mbResult.toNat, 8, 4), (b.mbDone.toNat, 32, 32)]
  | 0x20 => plain ((List.finRange 10).map fun i => flagAt b.fw[i].valid i.val)
  | 0x80 => plain [(b.stage.toNat, 0, 8), (b.reason.toNat, 8, 8), (b.failedStarts.toNat, 16, 2), (b.cause.toNat, 18, 3), flagAt b.minimal 21,
      flagAt b.romMonitor 22]
  | 0x88 => plain [(b.detail.toNat, 0, 32)]
  | 0x100 => plain [(f.dumpHostBase.toNat, 0, 64)]
  | 0x108 => plain [(f.dumpHostSize.toNat, 0, 16)]
  | 0x110 => plain [flagAt f.dumpValid 0, (f.dumpDest.toNat, 1, 2), (f.dumpCode.toNat, 16, 16)]
  | 0x118 => plain [flagAt f.burnishEn 0]
  | 0x120 => countReg f.logWritten
  | 0x128 => countReg f.logOverwritten
  | 0x130 => countReg f.dataParity
  | 0x138 => countReg f.consumptions
  | 0x140 => countReg f.slices
  | 0x148 => countReg f.transients
  | 0x150 => countReg f.burnishDelay
  | 0x158 => countReg f.fatalDropped
  | _ =>
    if 0x200 ≤ o && o < 0x250 then
      let w := b.fw[(Fin.ofNat 10 ((o - 0x200) / 8) : Fin 10)]
      plain [(w.version.toNat, 0, 32), (w.svn.toNat, 32, 32)]
    else unmapped

/-- A measurement register's bytes in order, as words (R390). -/
def measureWord (m : BitVec 256) (i : Nat) : Nat := leAt (bytes256 m) (8 * i) 8

/-- SEC (R390). -/
def regSec (s : State) (o : Nat) : W64 × Conf :=
  let c := s.sec
  match o with
  | 0x00 => plain [flagAt c.conf 0, flagAt c.keyed 1, flagAt c.unlocked 2, flagAt c.modeBusy 3, flagAt c.modeErr 4]
  | 0x08 => plain [(c.epoch.toNat, 0, 64)]
  | 0x10 => plain [(c.fleet.toNat % 2 ^ 64, 0, 64)]
  | 0x18 => plain [(c.fleet.toNat / 2 ^ 64, 0, 64)]
  | 0x20 => plain [(c.arc[0].toNat, 0, 32), (c.arc[1].toNat, 32, 32)]
  | 0x28 => plain [(c.arc[2].toNat, 0, 32), (c.arc[3].toNat, 32, 32)]
  | 0x30 => plain [(c.arc[4].toNat, 0, 32)]
  | 0x38 => plain [(c.slots.toNat, 0, 5)]
  | 0x40 => plain [flagAt c.modeTarget 0, (c.modeSeq.toNat, 16, 16)]
  | 0x48 => plain [(c.token[0].toNat, 0, 64)]
  | 0x50 => plain [(c.token[1].toNat, 0, 64)]
  | 0x58 => plain [(c.token[2].toNat, 0, 64)]
  | 0x60 => plain [(c.token[3].toNat, 0, 64)]
  | 0x70 => plain [(c.leafNext, 0, 31)]
  | 0x78 => plain [(c.quotes.toNat, 0, 64)]
  | 0x80 => plain [(c.fibreAuthFail.toNat, 0, 64)]
  | 0x88 => plain [(c.linkAuthFail.toNat, 0, 64)]
  | 0x90 => plain [(c.hostAuthFail.toNat, 0, 64)]
  | 0x160 => plain [(c.log.length, 0, 7)]
  | _ =>
    if 0x100 ≤ o && o < 0x160 then
      let r : Fin 3 := Fin.ofNat 3 ((o - 0x100) / 32)
      plain [(measureWord c.m[r] (o % 32 / 8), 0, 64)]
    else unmapped

/-! ## The blocks on the job rails -/

/-- A core's PWR word (R331, R340). -/
def regPwrCore (s : State) (n : Nat) : W64 × Conf :=
  let k := s.cores[(Fin.ofNat 64 n : CoreId)]
  if k.present then (packW [(k.fcore.toNat, 0, 11), (k.fmeas.toNat, 16, 11), (k.tchar.toNat, 32, 8), (k.load.toNat, 40, 2)], .hidden) else unmapped

/-- The mean of one of the two views of power over the last 100 ms. -/
def viewMean (p : Pwr) (f : W16 × W16 → W16) : Nat := (p.views.map fun v => (f v).toNat).sum / max 1 p.views.length

/-- The power readings in confidential mode: averages over 100 ms in steps of 50 W (R340). -/
def powerShown (p : Pwr) : W64 :=
  let step (w : Nat) : Nat := w / 50 * 50
  packW [(step (viewMean p (·.1)), 0, 16), (step (viewMean p (·.2)), 16, 16), (step p.pAvg.toNat, 32, 16), (step p.demand.toNat, 48, 16)]

/-- PWR (R341). -/
def regPwr (s : State) (o : Nat) : W64 × Conf :=
  let p := s.pwr
  match o with
  | 0x00 => plain [(capOf s, 0, 16), (p.capRack.toNat, 16, 16)]
  | 0x08 => plain [(p.hcap.toNat, 0, 16), flagAt p.hcapErr 16, flagAt p.fceilErr 17]
  | 0x10 => plain [(headroom s, 0, 2), flagAt p.halving 4, flagAt p.peak 5, flagAt p.fastRise 6, flagAt p.telemetryBad 7, flagAt p.diverging 8,
      flagAt p.capUnmet 9, (p.pstate.toNat, 10, 2), (p.tstate.toNat, 12, 2)]
  | 0x18 => (packW [(p.pEst.toNat, 0, 16), (p.pMeas.toNat, 16, 16), (p.pAvg.toNat, 32, 16), (p.demand.toNat, 48, 16)], .shown (powerShown p))
  | 0x20 => plain [(p.fJob.toNat, 0, 11), (p.fOffer.toNat, 16, 11), (p.fChar.toNat, 32, 11), (p.fceil.toNat, 48, 11)]
  | 0x28 => plain [(p.fTherm.toNat, 0, 11), (p.fPwr.toNat, 16, 11)]
  | 0x30 => plain [(p.tDie.toNat, 0, 16), (p.tStack.toNat, 16, 16), (p.tOpt.toNat, 32, 16), (p.trip.toNat, 48, 3), flagAt p.tripPending 51]
  | 0x100 => countReg p.divergence
  | 0x108 => countReg p.telemetryEvents
  | 0x110 => countReg p.fastRises
  | 0x118 => countReg p.peakEngaged
  | 0x120 => countReg p.amberSamples
  | 0x128 => countReg p.redSamples
  | 0x130 => countReg p.class3Held
  | 0x138 => countReg p.holdExpired
  | _ => if 0x1000 ≤ o && o < 0x1200 then regPwrCore s ((o - 0x1000) / 8) else unmapped

/-- A virtual channel's counters (R224). -/
def regChan (q : Port) (v : Fin 8) (o : Nat) : W64 × Conf :=
  match o with
  | 0x00 => countReg q.flitsTx[v]
  | 0x08 => countReg q.packetsTx[v]
  | 0x10 => countReg q.stall[v]
  | 0x18 => countReg q.ecnMarks[v]
  | 0x20 => (packW [(q.watermark[v].toNat, 0, 14)], .hidden)
  | _ => unmapped

/-- A port's registers (R224). -/
def regPort (q : Port) (o : Nat) : W64 × Conf :=
  match o with
  | 0x00 => plain [flagAt q.up 0, flagAt q.silent 1, flagAt q.dateline 2, (q.lanes.toNat, 3, 7), (q.neighbour.toNat, 16, 16)]
  | 0x10 => plain [(q.shares[0].toNat, 0, 16), (q.shares[1].toNat, 16, 16), (q.shares[2].toNat, 32, 16), (q.shares[3].toNat, 48, 16)]
  | 0x18 => plain [(q.shares[4].toNat, 0, 16), (q.shares[5].toNat, 16, 16), (q.shares[6].toNat, 32, 16), (q.shares[7].toNat, 48, 16)]
  | 0x20 => countReg q.malformed
  | 0x28 => countReg q.misrouted
  | 0x30 => countReg q.stomped
  | 0x38 => countReg q.headerDiscard
  | _ => if 0x100 ≤ o && o < 0x300 then regChan q (Fin.ofNat 8 ((o - 0x100) / 0x40)) (o % 0x40) else unmapped

/-- FAB (R223, R224, R442). -/
def regFab (s : State) (o : Nat) : W64 × Conf :=
  let f := s.fab
  let d := s.disc
  match o with
  | 0x00 => plain [(f.timeout.toNat, 0, 20), (f.retries.toNat, 20, 3)]
  | 0x08 => plain [(f.chip.toNat, 0, 16), flagAt f.fenced 16]
  | 0x10 => plain [(d.result.toNat, 0, 4), flagAt d.running 4, flagAt d.ended 5, (d.flagPort.toNat, 8, 5), (d.total.toNat, 32, 17)]
  | 0x18 => plain [(d.farId.toNat, 0, 64)]
  | 0x20 => plain [(d.coordsReg.toNat, 0, 32), (d.lensReg.toNat, 32, 32)]
  | 0x28 => plain [(d.tagReg.toNat, 0, 64)]
  | 0x100 => countReg f.lateCompletion
  | 0x108 => countReg f.lateFence
  | 0x110 => countReg f.timeouts
  | 0x118 => countReg f.retriesSent
  | 0x120 => countReg f.crcDiscard
  | 0x128 => countReg f.stompDiscard
  | 0x130 => countReg f.fenceTx
  | 0x138 => countReg f.fenceRx
  | 0x140 => countReg f.windowWait
  | 0x148 => countReg f.fenceClearRefused
  | _ =>
    if 0x10000 ≤ o && o < 0x18000 then regPort (f.ports[(Fin.ofNat 8 ((o - 0x10000) / 0x1000) : PortId)]) (o % 0x1000)
    else if 0x80000 ≤ o && o < 0xC0000 then
      let c := (o - 0x80000) / 4
      plain [((routeOf s (BitVec.ofNat 16 c)).toNat, 0, 32), ((routeOf s (BitVec.ofNat 16 (c + 1))).toNat, 32, 32)]
    else unmapped

/-- A lane's registers (R276, R277). -/
def regLane (l : Lane) (o : Nat) : W64 × Conf :=
  match o with
  | 0x00 => plain [(l.rxState.toNat, 0, 3), (l.txState.toNat, 3, 3), (l.txMod.toNat, 6, 2), (l.rxMod.toNat, 8, 2), flagAt l.txActive 10,
      flagAt l.rxActive 11]
  | 0x08 => (packW [(l.snr.toNat, 0, 10)], .hidden)
  | 0x10 => (packW [(l.heatRx.toNat, 0, 16), (l.heatTx.toNat, 16, 16)], .hidden)
  | 0x18 => countReg l.mislock
  | 0x20 => countReg l.fec
  | 0x28 => countReg l.lost
  | _ => unmapped

/-- OPT (R276). The lanes of an absent engine read 0 (R430). -/
def regOpt (s : State) (o : Nat) : W64 × Conf :=
  let p := s.opt
  match o with
  | 0x00 => plain [(if s.glb.variant == .m48 then 7 else 15, 0, 4), (p.plan.toNat, 4, 3), flagAt p.switching 7, (p.target.toNat, 8, 3),
      (if s.glb.variant == .m48 then p.combs.toNat - p.combs.toNat / 8 % 2 * 8 else p.combs.toNat, 11, 5), flagAt p.spareUsed 16, (p.spareEngine.toNat, 17, 2)]
  | 0x08 => countReg p.switches
  | 0x10 => countReg p.mislock
  | 0x18 => countReg p.pilotLost
  | 0x20 => countReg p.lanesRemoved
  | 0x28 => countReg p.lanesRejoined
  | 0x30 => countReg p.sweepFailed
  | 0x38 => countReg p.reacquireFailed
  | 0x40 => countReg p.framesLost
  | 0x48 => countReg p.framesResent
  | 0x50 => countReg p.fecSymbols
  | 0x58 => countReg p.planMismatch
  | 0x60 => countReg p.svcReserved
  | _ =>
    if 0x100 ≤ o && o < 0x120 then
      let e : Fin 4 := Fin.ofNat 4 ((o - 0x100) / 8)
      if enginePresent s e.val then (packW [(p.temps[e].toNat, 0, 16)], .hidden) else unmapped
    else if 0x10000 ≤ o && o < 0x11000 then
      let g : LaneId := Fin.ofNat 64 ((o - 0x10000) / 0x40)
      if enginePresent s (engOf g) then regLane p.lanes[g] (o % 0x40) else unmapped
    else unmapped

/-- A channel's registers (R438). -/
def regChannel (c : Chan) (o : Nat) : W64 × Conf :=
  match o with
  | 0x00 => plain [flagAt c.live 0, (c.tLoad.toNat, 1, 2), (c.repaired.toNat, 8, 8), (c.tTemp.toNat, 16, 16)]
  | 0x08 => plain [(c.settings.toNat, 0, 64)]
  | 0x10 => countReg c.corrected
  | 0x18 => countReg c.uncorrectable
  | _ => unmapped

/-- Mapped-out channels of a trained stack. -/
def mappedMask (t : Stack) : Nat := if t.present then ((List.finRange 16).map fun c => if t.chans[c].live then 0 else 2 ^ c.val).sum else 0

/-- A stack's registers (R438). In confidential mode `temp` and `t_temp` read 0. -/
def regStack (conf : Bool) (t : Stack) (o : Nat) : W64 × Conf :=
  match o with
  | 0x00 => plain [flagAt t.present 0, flagAt t.xen 1, (mappedMask t, 16, 16), (if conf then 0 else t.temp.toNat, 32, 16)]
  | 0x08 => countReg t.leases
  | 0x10 => countReg t.leaseOverrun
  | 0x18 => countReg t.retrains
  | 0x20 => countReg t.retrainFail
  | _ =>
    if 0x100 ≤ o && o < 0x500 then
      let c := t.chans[(Fin.ofNat 16 ((o - 0x100) / 0x40) : ChanId)]
      regChannel (if conf then { c with tTemp := 0 } else c) (o % 0x40)
    else unmapped

/-- MEM (R436, R438). -/
def regMem (s : State) (o : Nat) : W64 × Conf :=
  let m := s.mem
  match o with
  | 0x00 => plain [flagAt m.side 0, flagAt m.drainPending 1, flagAt m.compat 2, flagAt (if m.flashBusy then m.compatPending else m.compatNext) 3, flagAt m.flashBusy 4]
  | 0x100 => countReg m.corrected
  | 0x108 => countReg m.uncorrectable
  | 0x110 => countReg m.poisonedReads
  | 0x118 => countReg m.parked
  | 0x120 => countReg m.parkRefused
  | 0x128 => countReg m.scrubPasses
  | _ =>
    if 0x10000 ≤ o && o < 0x1C000 && (o - 0x10000) / 0x1000 < stacksOf s.glb.variant then
      regStack s.sec.conf (m.hbmStacks[(Fin.ofNat 12 ((o - 0x10000) / 0x1000) : StackId)]) (o % 0x1000)
    else unmapped

/-- A logical core's registers (R440, R441). -/
def regCore (k : Core) (o : Nat) : W64 × Conf :=
  match o with
  | 0x00 => plain [(k.status.toNat, 0, 2), flagAt k.overflow 2, (k.phys.toNat, 4, 4), (k.segment.toNat, 16, 16)]
  | 0x08 => plain [flagAt k.faultValid 0]
  | 0x100 => (k.holdConflict, .hidden)
  | 0x108 => (k.holdToken, .hidden)
  | 0x110 => (k.holdDroop, .hidden)
  | 0x118 => (k.holdHalving, .hidden)
  | 0x120 => countReg k.leftover
  | 0x128 => countReg k.secondary
  | 0x140 => (k.execCycles, .hidden)
  | 0x148 => (k.mmaBusy[0], .hidden)
  | 0x150 => (k.mmaBusy[1], .hidden)
  | 0x158 => (k.mmaBusy[2], .hidden)
  | 0x160 => (k.accessBytes, .hidden)
  | _ => if 0x80 ≤ o && o < 0x100 then (BitVec.ofNat 64 (leAt (if k.faultSlot ≠ Record.blank then k.faultSlot.bytes else []) (o - 0x80) 8), .hidden) else unmapped

/-- CORE status (R439, R440). -/
def regCores (s : State) (o : Nat) : W64 × Conf :=
  if o < 0x40 then
    let c : Fin 8 := Fin.ofNat 8 (o / 8)
    if s.glb.variant == .m48 && 6 ≤ c.val then unmapped
    else
      let k := s.clusters[c]
      plain [(k.physMap.toNat, 0, 32), (k.spare.toNat, 32, 4), (k.count.toNat, 36, 4), (k.failed.toNat, 40, 9), (k.suspect.toNat, 49, 9)]
  else if 0x10000 ≤ o && o < 0x50000 then
    let k := s.cores[(Fin.ofNat 64 ((o - 0x10000) / 0x1000) : CoreId)]
    if k.present then regCore k (o % 0x1000) else unmapped
  else unmapped

/-! ## The window (R426) -/

/-- The word at an aligned offset of the window, and how confidential mode presents it. Doorbells read 0 (R296). -/
def regLive (s : State) (a : Nat) : W64 × Conf :=
  if a < 0x100000 then regGlb s a
  else if a < 0x200000 then regHlk s (a - 0x100000)
  else if a < 0x400000 then regMgt s (a - 0x200000)
  else if a < 0x800000 then (if s.inp.rails then regPwr s (a - 0x400000) else unmapped)
  else if a < 0x1000000 then regSec s (a - 0x800000)
  else if !s.inp.rails then unmapped
  else if a < 0x1400000 then regFab s (a - 0x1000000)
  else if a < 0x1800000 then regOpt s (a - 0x1400000)
  else if a < 0x2000000 then regMem s (a - 0x1800000)
  else if a < 0x3000000 then regCores s (a - 0x2000000)
  else unmapped

/-- The published copy of a counter; none yet published reads 0. -/
def publishedAt (s : State) (a : Nat) : W64 := ((s.fab.published.find? (·.1 == a)).map (·.2)).getD 0

/-- A 64-bit read of an aligned offset. -/
def regRead (s : State) (a : Nat) : W64 :=
  let x := regLive s a
  if s.sec.conf then
    match x.2 with
    | .live => x.1
    | .copied => publishedAt s a
    | .hidden => 0
    | .shown v => v
  else x.1

/-- `n` bytes of the window from an aligned offset, as 64-bit reads give them. -/
def regBytes (s : State) (a n : Nat) : List Byte := ((List.range (n / 8)).flatMap fun i => leBytes 8 (regRead s (a + 8 * i)).toNat)

/-! ## Published copies (R225) -/

/-- Every offset of the window that can hold a counter, ascending. -/
def counterOffsets : List Nat :=
  [0x100020, 0x100028, 0x100030] ++ ((List.range 8).map fun i => 0x200120 + 8 * i) ++ ((List.range 8).map fun i => 0x400100 + 8 * i) ++
    ((List.range 10).map fun i => 0x1000100 + 8 * i) ++
    ((List.range 8).flatMap fun p => ((List.range 4).map fun i => 0x1010020 + 0x1000 * p + 8 * i) ++
      (List.range 8).flatMap fun v => (List.range 4).map fun i => 0x1010100 + 0x1000 * p + 0x40 * v + 8 * i) ++
    ((List.range 12).map fun i => 0x1400008 + 8 * i) ++
    ((List.range 64).flatMap fun g => (List.range 3).map fun i => 0x1410018 + 0x40 * g + 8 * i) ++
    ((List.range 6).map fun i => 0x1800100 + 8 * i) ++
    ((List.range 12).flatMap fun k => ((List.range 4).map fun i => 0x1810008 + 0x1000 * k + 8 * i) ++
      (List.range 16).flatMap fun c => [0x1810110 + 0x1000 * k + 0x40 * c, 0x1810118 + 0x1000 * k + 0x40 * c]) ++
    ((List.range 64).flatMap fun n => [0x2010120 + 0x1000 * n, 0x2010128 + 0x1000 * n])

def roundDown (v k : Nat) : Nat := v / k * k

/-- A copy as published: a multiple of 2¹⁶. -/
def publishAt (s : State) (a : Nat) : W64 := BitVec.ofNat 64 (roundDown (regLive s a).1.toNat 65536)

def publish (s : State) : State :=
  if s.sec.conf then
    { s with fab := { s.fab with published := counterOffsets.map fun a => (a, publishAt s a) } }
  else s

/-- The published copies of confidential mode are refreshed (R225, R277, R340). -/
def execCounterPublish (s : State) : Host.Outcome State Fault Refusal := .next (publish s)

end Sys2Proof.Machine
end

