-- ==== Sys2Proof/Machine/Job.lean ====
section
/-! DEFINITION. The job's commands (R307–R309, R335): DISCOVER, STEP, START, TEARDOWN; measurements (R379); MGMT and its responses
(R361–R364, R367–R369, R380–R383, R423, R433). -/

namespace Sys2Proof.Machine

def updSec (s : State) (f : Sec → Sec) : State := { s with sec := f s.sec }
def updJob (s : State) (f : Job → Job) : State := { s with job := f s.job }

/-! ## Measurements (R379) -/

/-- Append an entry for an object to the log and extend its register. -/
def measure (s : State) (r : Fin 3) (type : Nat) (object : List Byte) : State :=
  let e := leBytes 1 r.val ++ leBytes 1 type ++ [0, 0] ++ leBytes 4 s.sec.logSeq ++ leBytes 8 s.now.toNat ++ bytes256 (sha256 object)
  updSec s fun c => { c with log := c.log ++ [e], logSeq := c.logSeq + 1, m := vmod c.m r fun m => sha256 (bytes256 m ++ e) }

/-- A teardown zeroes M2 and removes its entries. -/
def dropM2 (c : Sec) : Sec := { c with m := c.m.set (2 : Fin 3) 0, log := c.log.filter fun e => byteAt e 0 ≠ 2 }

/-! ## DISCOVER (R280, R307, R379, R387) -/

def discoverCmd (s : State) (ring : RingId) (idx : W16) (data : List Byte) (hostErr : Bool) : State :=
  if hostErr then finishDesc s ring idx 0x000B 0 0 0 else
  let x := fromHost s none 0x40 64 data
  match x.2.2 with
  | some i => finishDesc x.1 ring idx 0x000A 0 (BitVec.ofNat 64 i) 0
  | none =>
    let s1 := begun x.1 ring idx
    startDiscovery (if declBad s1 x.2.1 then s1 else measure s1 2 0x20 x.2.1) ring idx x.2.1

/-! ## STEP (R308, R165) -/

/-- The step that waits behind a hold, while a replay runs or not. -/
def heldStep (s : State) : W32 := match s.job.replayBack with | some b => b.1 | none => s.job.step

/-- A hold withholds the step after the one that runs, or after the one that waits for a replay to end. -/
def holdStep (s : State) (ring : RingId) (idx : W16) : State :=
  doneDesc (updJob s fun j => { j with hold := .pending, holdAt := some (ring, idx, s.now) }) ring idx (heldStep s + 1).toNat

/-- Dispatch resumes at once, or after the replay that runs. -/
def releaseStep (s : State) (ring : RingId) (idx : W16) : State :=
  let s1 := doneDesc (updJob s fun j => { j with hold := .none }) ring idx (heldStep s).toNat
  if s.job.replay.isSome then s1 else beginStep s1

/-- The context of the last committed step returns, alias R shows the side it read, and it runs again (R165). Under a hold that took
effect at a discard the step runs on the side as the discarded step has left it: R165 does not say what happens there (log entry 101). -/
def replayStep (s : State) (ring : RingId) (idx : W16) : State :=
  match s.job.ctxKept with
  | none => s
  | some (t, l, c) =>
    let s1 := updJob (begun s ring idx) fun j =>
      { j with replayBack := some (j.step, j.l, j.clean), replay := some (ring, idx), replaySide := !s.mem.side, step := t, l := l, clean := c }
    beginStep s1

/-- A write of the drain-pending bit by a STEP action or through the register (R437). Within a tick register writes come first: one that
follows a STEP action of its tick has been overwritten by it. The value at the end of the tick before is kept for the tick. -/
def setDrain (s : State) (b step : Bool) : State :=
  let m := s.mem
  let first := m.drainTick ≠ some s.now
  let after := !first && m.drainStep
  { s with mem := { m with
      drainPrev := (if first then m.drainPending else m.drainPrev), drainTick := some s.now, drainStep := step || after,
      drainPending := if !step && after then m.drainPending else b } }

/-- A STEP descriptor with its action. -/
def stepDesc (s : State) (ring : RingId) (idx : W16) (action : Nat) (f : State → State) : State :=
  runDesc s ring idx 0x20 fun d t => if d.action = action then f t else t

/-! ## START (R307, R335) -/

/-- The start cinch on the commit context: f_offer in the MIN word, zeros in the others. -/
def startCmd (s : State) (ring : RingId) (idx : W16) : State :=
  match commitComm s with
  | none => s
  | some c =>
    let s1 := updPwr (begun s ring idx) fun p => { p with fOffer := offerOf p }
    finishCinch (cinchEnter s1 c (.start ring idx) { CinchRec.blank with minw := s1.pwr.fOffer.zeroExtend 64 } none 0)

/-! ## TEARDOWN (R307) -/

/-- Every descriptor of the other rings has finished. -/
def othersDone (s : State) (ring : RingId) : Bool :=
  (List.finRange 16).all fun r => r == ring || s.hlk.rings[r].inflight.all (·.status.isSome)

/-- A core without its job: its status and counters stay. -/
def Core.release (k : Core) : Core :=
  { k with status := 0, running := none, updating := none, finished := [], held3 := false, heldCounted := [], faulted := false, segments := [],
           aq := Vector.replicate 4 [], eq := Vector.replicate 4 [], engines := Vector.replicate 3 Engine.reset,
           lanes := Vector.replicate 4 blankLane, census := Vector.replicate 16 Census.reset, halves := Vector.replicate 2 Half.reset, taccs := [],
           access := { Access.reset with nextSeq := k.access.nextSeq }, exec := Execute.reset }

/-- The job's regions and everything that the job brought are released (R307). -/
def releaseJob (s : State) : State :=
  { s with
    cores := s.cores.map Core.release, clusters := s.clusters.map fun (k : Cluster) => { k with trees := [] },
    mem := { s.mem with regions := [], drainPending := false, drainTick := none, held := [], fwUncorrectable := false },
    upd := { Update.reset with leaseId := s.upd.leaseId },
    fab := { s.fab with tags := [], sendQ := [], wins := [], fenced := false },
    coll := { Coll.reset with stale := s.coll.stale, nextId := s.coll.nextId },
    job := Job.reset, pwr := { s.pwr with fJob := 0 }, opt := { s.opt with validMask := 0 },
    hlk := { s.hlk with rings := s.hlk.rings.map Ring.endActed } }

/-- TEARDOWN: the module quiesces; once the other rings' descriptors have finished, the job is released. Until then the command may
come again. -/
def teardownCmd (s : State) (ring : RingId) (idx : W16) : State :=
  let s1 := quiesce s
  if othersDone s1 ring then
    let s2 := updSec (releaseJob (doneDesc s1 ring idx 0)) dropM2
    { s2 with hlk := { s2.hlk with state := .nodisc } }
  else s1

/-! ## MGMT (R309) -/

def Inflight.reqLen (d : Inflight) : Nat := leAt d.bytes 32 4 + 1
def Inflight.respAddr (d : Inflight) : Nat := leAt d.bytes 40 8
def Inflight.respRoom (d : Inflight) : Nat := leAt d.bytes 48 4 + 1

/-- In minimal mode some subcommands are served; without keys only what may travel in the clear (R422). -/
def mgmtServed (s : State) (sub : Nat) : Bool :=
  if s.hlk.state == .minimal then sub = 1 || sub = 5 || (sub = 4 && (s.sec.unlocked || !s.sec.conf)) else true

/-- What a subcommand answers: a status, a wait, or a response of `n` bytes made by `f` once it fits. -/
inductive Answer where
  | refuse (status : W16)
  | wait
  | give (n : Nat) (f : State → State × List Byte)

/-- Send a response, or complete with LENGTH and the needed size. -/
def respondMgmt (s : State) (ring : RingId) (idx : W16) (d : Inflight) (hostErr : Bool) (n : Nat) (f : State → State × List Byte) : State :=
  if d.respRoom < hostLen s n then finishDesc s ring idx 0x0001 0 (BitVec.ofNat 64 (hostLen s n)) codeLength
  else
    let x := f s
    let y := toHost x.1 none 0x30 x.2
    if hostErr then finishDesc y.1 ring idx 0x000B 0 0 0
    else doneDesc (y.1.say (.hostWrite (BitVec.ofNat 64 d.respAddr) y.2)) ring idx 0

/-- A MGMT descriptor of one subcommand: its request is read and opened, then answered. `failed` is the first of its host accesses that
fails: the read of the request or the write of the response. -/
def mgmt (s : State) (ring : RingId) (idx : W16) (sub : Nat) (request : List Byte) (failed : Option HostAccess) (f : State → List Byte → Answer) : State :=
  runDesc s ring idx 0x30 fun d t =>
    if d.sub ≠ sub then t
    else if !mgmtServed t sub then finishDesc t ring idx 0x0004 0 0 0
    else if failed = some .request then finishDesc t ring idx 0x000B 0 0 0
    else
      let x := fromHost t none 0x30 d.reqLen request
      match x.2.2 with
      | some i => finishDesc x.1 ring idx 0x000A 0 (BitVec.ofNat 64 i) 0
      | none =>
        match f x.1 x.2.1 with
        | .refuse st => finishDesc x.1 ring idx st 0 0 0
        | .wait => t
        | .give n g => respondMgmt x.1 ring idx d (failed == some .response) n g

/-- A request of exactly 8 zero bytes. -/
def zeroRequest (q : List Byte) : Bool := q == List.replicate 8 0

/-- The identity and capability snapshot (R433). -/
def identityBytes (s : State) : List Byte :=
  regBytes s 0x0 64 ++ regBytes s 0x40 8 ++ regBytes s 0x800000 8 ++ regBytes s 0x800010 16 ++ regBytes s 0x1000008 16 ++ List.replicate 16 0

/-- The boot report (R423). -/
def bootBytes (s : State) : List Byte :=
  let b := s.boot
  [b.highest, b.reason] ++ leBytes 1 b.failedStarts.toNat ++ leBytes 1 b.cause.toNat ++ leBytes 4 b.detail.toNat ++ leBytes 8 b.startTick.toNat ++
    (padTo 12 0 b.durations).flatMap (fun w => leBytes 4 w.toNat) ++ padTo 32 0 b.powerRecord ++ leBytes 1 s.glb.cores.toNat ++
    leBytes 1 (s.mem.hbmStacks.toList.filter (·.present)).length ++ [s.glb.mappedOut, b.lanesRepaired] ++ leBytes 1 s.opt.combs.toNat ++
    leBytes 1 (b.postTrip.toNat + 2 * s.opt.spareUsed.toNat + 4 * b.noLibrary.toNat) ++ List.replicate 26 0

/-! ### Quote (R379–R383) -/

/-- The device certificate (R380): its clear fields; key and signature are the device's. -/
def certificateBytes (s : State) : List Byte :=
  leBytes 8 s.glb.moduleId.toNat ++ leBytes 1 s.glb.variant.code ++ leBytes 1 s.sec.fleetInstalled.toNat ++ List.replicate 6 0 ++
    leBytes 16 s.sec.fleet.toNat ++ padTo 60 0 Config.certificate ++ [0, 0, 0, 0] ++ padTo 1772 0 (Config.certificate.drop 60)

/-- Bytes 0–255 of a quote (R382). -/
def quoteHead (s : State) (q : Nat) (nonce : List Byte) : List Byte :=
  leBytes 4 0x544F5551 ++ leBytes 2 1 ++ leBytes 1 s.sec.conf.toNat ++ leBytes 1 s.glb.variant.code ++ leBytes 8 s.glb.moduleId.toNat ++
    leBytes 8 s.sec.epoch.toNat ++ leBytes 4 q ++ leBytes 4 s.sec.log.length ++ nonce ++ s.sec.m.toList.flatMap bytes256 ++
    bytes256 (sha256 (s.sec.log.flatMap id)) ++ leBytes 16 (if s.sec.keyed then s.sec.fleet.toNat else 0) ++ List.replicate 48 0

/-- The reservation mark is moved before an index at or above it is used; then the index signs (R381). -/
def signQuote (nonce : List Byte) (s : State) : State × List Byte :=
  let q := s.sec.leafNext
  let head := quoteHead s q nonce
  (updSec s fun c => { c with leafNext := q + 1, mark := if c.mark ≤ q then c.mark + 64 else c.mark, quotes := bump c.quotes },
   head ++ padTo 3284 0 (Config.hssSign q head) ++ certificateBytes s ++ s.sec.log.flatMap id)

/-- A quote request: exactly a nonce; STATE when no index remains; the first quote of a tree waits for its build. -/
def quoteAnswer (s : State) (nonce : List Byte) : Answer :=
  if nonce.length ≠ 32 then .refuse 0x0002
  else if 2 ^ 30 ≤ s.sec.leafNext then .refuse 0x0004
  else if s.sec.treeBuilt ≤ s.sec.leafNext / 2 ^ 15 then .wait
  else .give (5408 + 48 * s.sec.log.length) (signQuote nonce)

/-! ### Fault data (R361–R364, R367–R369) -/

/-- Offsets and lengths of the dump's sections (R361). -/
def dumpSections : List (Nat × Nat) :=
  [(0x1000, 0x80000), (0x100000, 72 * 0x10000), (0x600000, 216 * 0x40000), (0x3C00000, 8 * 0x40000), (0x3E00000, 0x400000), (0x4200000, 0xC00000),
   (0x4E00000, 24 * 0x40000), (0x5400000, 0x100000), (0x5500000, 0x100000), (0x5600000, 0x100000), (0x5700000, 0x100000)]

/-- The fault log as 512 KiB (R364). -/
def logBytes (log : List Record) : List Byte := padTo 524288 0 (log.flatMap Record.bytes)

/-- The plaintext of a section; the layout within the sections after the log is not given, so their bytes are free (log entry 23). -/
def dumpPlain (s : State) (i : Nat) (len : Nat) : List Byte :=
  if i = 0 then logBytes s.flt.dumpLog else (List.range len).map fun j => Config.dumpByte s.flt.dumpSeq.toNat (2 ^ 24 * i + j)

def dumpKey (s : State) : BitVec 256 := kdf Config.fleetKey (ascii "DMP") (leBytes 8 s.glb.moduleId.toNat)

/-- A section as stored and its tag: encrypted in confidential mode (R363). -/
def dumpStored (s : State) (i : Nat) (len : Nat) : List Byte × List Byte :=
  let p := dumpPlain s i len
  if s.sec.conf then gcmSeal (dumpKey s) (leBytes 8 s.flt.dumpSeq.toNat ++ leBytes 4 i) (s.flt.dumpHead.take 64) p else (p, List.replicate 16 0)

/-- The sections that the destination keeps (R360). -/
def dumpKept (s : State) : List (Nat × (Nat × Nat)) :=
  let l := dumpSections.zipIdx.map fun x => (x.2, x.1)
  if s.flt.dumpDest = 2 then l.take 1 else l

/-- The header's 4 KiB (R362). -/
def dumpHeader (s : State) : List Byte :=
  padTo 4096 0 (s.flt.dumpHead ++ (dumpKept s).flatMap fun x =>
    let y := dumpStored s x.1 x.2.2
    leBytes 8 x.2.1 ++ leBytes 4 x.2.2 ++ leBytes 4 (crc32 y.1).toNat ++ y.2)

def dumpSize (s : State) : Nat := if s.flt.dumpValid then (if s.flt.dumpDest = 2 then 0x81000 else 2 ^ 28) else 0

/-- A piece of the dump: header, sections, zeros where nothing is written. -/
def dumpRead (s : State) (o n : Nat) : List Byte :=
  let base := (dumpHeader s).drop o
  (dumpKept s).foldl (fun acc x =>
    let lo := max o x.2.1
    let hi := min (o + n) (x.2.1 + x.2.2)
    if lo < hi then setSlice acc (lo - o) (slice (dumpStored s x.1 x.2.2).1 (lo - x.2.1) (hi - lo)) else acc) (padTo n 0 base)

/-- A fingerprint table (R367): 4,096 groups, then 12 regions. -/
def fingerTable (fs : List Finger) : List Byte :=
  (List.range 4108).flatMap fun u => let x := fingerAt fs u; leBytes 8 x.1.toNat ++ leBytes 4 x.2.toNat ++ [0, 0, 0, 0]

/-- Size and contents of an object of MGMT 0x0004; the fingerprint tables are the retained one, then the one being built (log entry 24). -/
def faultObject (s : State) (o : Nat) : Option (Nat × (Nat → Nat → List Byte)) :=
  let of (bs : List Byte) : Nat × (Nat → Nat → List Byte) := (bs.length, fun a n => slice bs a n)
  match o with
  | 0 => some (dumpSize s, dumpRead s)
  | 1 => some (of (logBytes s.flt.log))
  | 2 => some (of (fingerTable s.upd.fingersKept ++ fingerTable s.upd.fingers))
  | 3 => some (of s.job.report)
  | 4 => some (of (touchBytes s.upd.touchKept))
  | _ => none

def dumpAnswer (s : State) (q : List Byte) : Answer :=
  let o := leAt q 8 8
  let n := leAt q 16 4 + 1
  if q.length ≠ 20 || (q.drop 1).take 7 ≠ List.replicate 7 0 then .refuse 0x0002
  else
    match faultObject s (leAt q 0 1) with
    | none => .refuse 0x0002
    | some (size, read) => if size < o + n then .refuse 0x0002 else .give n fun t => (t, read o n)

/-! ## The meanings -/

/-- DISCOVER (R280, R288, R307). -/
def execDiscover (ring : RingId) (idx : W16) (data : List Byte) (hostErr : Bool) (s : State) : Host.Outcome State Fault Refusal :=
  .next (runDesc s ring idx 0x40 fun _ t => discoverCmd t ring idx data hostErr)

/-- STEP HOLD (R308). -/
def execStepHold (ring : RingId) (idx : W16) (s : State) : Host.Outcome State Fault Refusal :=
  .next (stepDesc s ring idx 0 fun t => holdStep t ring idx)

/-- STEP RELEASE (R308). -/
def execStepRelease (ring : RingId) (idx : W16) (s : State) : Host.Outcome State Fault Refusal :=
  .next (stepDesc s ring idx 1 fun t => releaseStep t ring idx)

/-- STEP REPLAY (R165, R308). -/
def execStepReplay (ring : RingId) (idx : W16) (s : State) : Host.Outcome State Fault Refusal :=
  .next (stepDesc s ring idx 2 fun t => replayStep t ring idx)

/-- STEP DRAIN_SET (R308, R437). -/
def execDrainSet (ring : RingId) (idx : W16) (s : State) : Host.Outcome State Fault Refusal :=
  .next (stepDesc s ring idx 3 fun t => doneDesc (setDrain t true true) ring idx t.job.step.toNat)

/-- STEP DRAIN_CLEAR (R308, R437). -/
def execDrainClear (ring : RingId) (idx : W16) (s : State) : Host.Outcome State Fault Refusal :=
  .next (stepDesc s ring idx 4 fun t => doneDesc (setDrain t false true) ring idx t.job.step.toNat)

/-- MGMT 0x0001 (R433). -/
def execMgmtIdentitySnapshot (ring : RingId) (idx : W16) (request : List Byte) (failed : Option HostAccess) (s : State) : Host.Outcome State Fault Refusal :=
  .next (mgmt s ring idx 1 request failed fun _ q => if zeroRequest q then .give 128 fun t => (t, identityBytes t) else .refuse 0x0002)

/-- MGMT 0x0002 (R309). No chapter gives the request or the response: length and bytes are free (log entry 25). -/
def execMgmtTelemetrySnapshot (ring : RingId) (idx : W16) (request : List Byte) (failed : Option HostAccess) (s : State) : Host.Outcome State Fault Refusal :=
  .next (mgmt s ring idx 2 request failed fun _ _ =>
    .give Config.telemetryLength fun t => ({ t with free := t.free + Config.telemetryLength }, freeBytes t.free Config.telemetryLength))

/-- MGMT 0x0003 (R381–R383). -/
def execMgmtAttestationQuote (ring : RingId) (idx : W16) (request : List Byte) (failed : Option HostAccess) (s : State) : Host.Outcome State Fault Refusal :=
  .next (mgmt s ring idx 3 request failed quoteAnswer)

/-- MGMT 0x0004 (R364). -/
def execMgmtDumpRead (ring : RingId) (idx : W16) (request : List Byte) (failed : Option HostAccess) (s : State) : Host.Outcome State Fault Refusal :=
  .next (mgmt s ring idx 4 request failed dumpAnswer)

/-- MGMT 0x0005 (R423). -/
def execMgmtBootReport (ring : RingId) (idx : W16) (request : List Byte) (failed : Option HostAccess) (s : State) : Host.Outcome State Fault Refusal :=
  .next (mgmt s ring idx 5 request failed fun _ q => if zeroRequest q then .give 128 fun t => (t, bootBytes t) else .refuse 0x0002)

/-- START (R307, R335). -/
def execStart (ring : RingId) (idx : W16) (s : State) : Host.Outcome State Fault Refusal :=
  .next (runDesc s ring idx 0x42 fun _ t => startCmd t ring idx)

/-- TEARDOWN (R307, R379, R437). -/
def execTeardown (ring : RingId) (idx : W16) (s : State) : Host.Outcome State Fault Refusal :=
  .next (runDesc s ring idx 0x43 fun _ t => teardownCmd t ring idx)

end Sys2Proof.Machine
end

