-- ==== Sys2Proof/Machine/Faults.lean ====
section
/-! DEFINITION. Parity (R348), the watchdog and wedging (R355, R359), burnish slices (R356–R358), the end of a dump (R359–R362),
the flag clears of R364 and R441. -/

namespace Sys2Proof.Machine

def updFlt (s : State) (f : Flt → Flt) : State := { s with flt := f s.flt }

/-! ## Parity (R348) -/

/-- The oldest beats on a link that nothing has sampled become poisoned. -/
def poisonLink (link : Fin 4) : List Train → List Train
  | [] => []
  | t :: ts => if t.link == link && !t.sampled then { t with poison := true } :: ts else t :: poisonLink link ts

def Engine.poisonSlot (e : Engine) (slot : Nat) : Engine := { e with slots := modifyAt e.slots slot fun v => { v with poison := true } }

/-- A line of a write-combining entry or an atomic unit becomes poisoned. -/
def poisonBuffer (s : State) (a : Nat) : State :=
  let line := keyOf s a / 64
  let k := ctrlOf s a
  if s.mem.wcb[k].any (·.line == line) then
    { s with mem := { s.mem with wcb := vmod s.mem.wcb k (·.map fun e => if e.line == line then { e with poison := true } else e) } }
  else { s with mem := { s.mem with poison := setPut line s.mem.poison } }

/-- Pipeline registers of a unit: what its operations in progress have not yet written becomes poisoned, in scratchpad, on links and in
slots. -/
def Core.poisonPipe (k : Core) (u : Nat) : Core :=
  let ws := k.exec.windows.filter (·.unit == u)
  let left := ws.flatMap fun w => w.writes.filter fun x => k.exec.cycle ≤ x.cycle
  { k with
    spadPoison := left.foldl (fun l x => (linesOf x.addr x.old.length).foldl (fun l n => setPut n l) l) k.spadPoison,
    exec := { k.exec with trains := k.exec.trains.map fun t => if !t.sampled && ws.any (·.index == t.producer) then { t with poison := true } else t },
    engines := ws.foldl (fun es w => match w.slot with | some (e, v) => vmod es e (·.poisonSlot v) | none => es) k.engines }

/-- A line of a packet's payload becomes poisoned (R202). -/
def poisonPacket (line : Fin 64) (p : Packet) : Packet :=
  Packet.sealed { p with pz := true, pmask := p.pmask ||| BitVec.ofNat 64 (2 ^ line.val) }

/-- The counter of a place's class, in the order of R348. -/
def parityUnit : ParityPlace → Option (Fin 9)
  | .spadLine _ _ => some 0
  | .slotRow _ _ _ => some 1
  | .linkBeat _ _ => some 2
  | .treeHalf _ _ _ => some 3
  | .pipeline _ _ => some 4
  | .nocData _ _ => some 5
  | .arrival _ _ => some 6
  | .hbmBuffer _ => some 7
  | .control _ _ => none

/-- Data becomes poisoned where it stands. -/
def poisonPlace (s : State) (place : ParityPlace) : State :=
  match place with
  | .spadLine c a => s.updCore c fun k => { k with spadPoison := setPut (a.toNat / 64) k.spadPoison }
  | .slotRow c e v => s.updCore c fun k => { k with engines := vmod k.engines e (·.poisonSlot v.toNat) }
  | .linkBeat c l => s.updCore c fun k => { k with exec := { k.exec with trains := poisonLink l k.exec.trains } }
  | .treeHalf c h line => s.updCore c fun k =>
    { k with halves := vmod k.halves (if h then 1 else 0) fun x => { x with poison := setPut line.toNat x.poison } }
  | .pipeline c u => s.updCore c (·.poisonPipe u.val)
  | .nocData i l => { s with fab := { s.fab with sendQ := modifyAt s.fab.sendQ i fun q => { q with p := poisonPacket l q.p } } }
  | .arrival i l => { s with coll := { s.coll with early := modifyAt s.coll.early i (poisonPacket l) } }
  | .hbmBuffer a => poisonBuffer s a.toNat
  | .control _ _ => s

/-- Data is poisoned and counted for its unit, and moves on; control is fatal and names its unit. A fatal router forwards nothing more
(R359). -/
def parity (s : State) (place : ParityPlace) : State :=
  match place with
  | .control unit p =>
    fatal (if p = .router then { s with fab := { s.fab with routerDead := true } } else s) codeControlParity unit (p == .memoryController)
  | _ => poisonPlace (updFlt s fun f =>
      { f with dataParity := bump f.dataParity, parityUnits := match parityUnit place with | some i => vmod f.parityUnits i bump | none => f.parityUnits }) place

/-! ## Wedging (R355, R359) -/

/-- In WEDGED only MGMT acts: a TEARDOWN in progress has completed with WEDGED, other admin commands and a
STEP REPLAY with STATE. -/
def wedge (s : State) : State :=
  let tear (d : Inflight) : Inflight := if d.status.isNone && isOpcode d 0x43 then d.finish 0x000D 0 0 0 else d
  let s1 := updRing s 0 fun r => { r with inflight := r.inflight.map tear }
  let s2 := endAdmin s1
  { s2 with hlk := { s2.hlk with state := .wedged, rings := s2.hlk.rings.map Ring.endActed }, job := { s2.job with dispatching := false } }

/-- A step abort that has not reached its commit cinch, or a quiesce, has not ended in time (R355). -/
def quiesceFails (s : State) : State :=
  if (s.job.aborting && s.hlk.state == .running && !s.job.entered) || s.job.quiescing then
    wedge (logRecord s { Record.blank with code := codeFirmware, cause := 0xFF, source := 5, step := s.job.step })
  else s

/-- A FIRMWARE fatal of the management processors: step 1 of the fatal path, then WEDGED. -/
def watchdog (s : State) : State :=
  let s1 := if s.flt.dumping then updFlt s fun f => { f with fatalDropped := bump f.fatalDropped, dumping := false } else s
  wedge (fatalStop s1)

/-! ## Burnish slices (R356–R358) -/

/-- What R356 asks of a core; a rerun does not wait for the 100 ms (R358). -/
def sliceMay (s : State) (c : CoreId) : Bool :=
  let k := s.core c
  s.hlk.state == .running && !s.job.aborting && s.flt.burnishEn && !s.boot.noLibrary && headroom s ≤ 1 && s.cores.toList.all (fun q => !q.sliceOn) &&
    k.present && !k.suspect && k.running.isNone && (readySegments s c).isEmpty && (readyUpdates s c).isEmpty &&
    (k.sliceRerun || k.sliceAt.all fun t => 10000000 ≤ (s.now - t).toNat)

/-- The cores from the one after the last served on, in ascending order and round. -/
def sliceOrder (s : State) : List CoreId := (List.range 64).map fun i => Fin.ofNat 64 (s.flt.lastBurnish + 1 + i)

/-- A slice starts on the core whose turn it is. -/
def sliceStart (s : State) (c : CoreId) : State :=
  if (sliceOrder s).find? (sliceMay s) = some c then
    updFlt (s.updCore c fun k => { k with sliceOn := true, status := 2, sliceAt := some s.now }) fun f => { f with slices := bump f.slices, lastBurnish := c.val }
  else s

/-- The core is marked suspect in module flash with its pattern, and in the core map at once (R358, R439). -/
def markSuspect (s : State) (c : CoreId) : State :=
  let p := (s.core c).phys.toNat
  let cl : Fin 8 := Fin.ofNat 8 (c.val / 8)
  let s1 := s.updCore c fun k => { k with suspect := true, sliceRerun := false }
  let s2 : State := { s1 with clusters := vmod s1.clusters cl fun k => { k with suspect := k.suspect ||| BitVec.ofNat 9 (2 ^ p) },
                              boot := { s1.boot with coreSuspect := s1.boot.coreSuspect ++ [(cl, Fin.ofNat 9 p)], suspectPattern := s1.boot.suspectPattern ++ [(cl, Fin.ofNat 9 p, (s.core c).slicePattern)] } }
  raiseCode (logRecord s2 { Record.blank with
    code := codeSuspect, source := 5, core := some c, phys := (s.core c).phys, step := s.job.step }) 0x0A codeSuspect

/-- A slice ends; a segment that became ready during it has been delayed. -/
def sliceEnd (s : State) (c : CoreId) (mismatch : Bool) : State :=
  let k := s.core c
  if k.sliceOn then
    let s1 := s.updCore c fun k => { k with sliceOn := false, status := 0 }
    let waits := (readySegments s c).length + (readyUpdates s c).length
    let s2 := updFlt s1 fun f => { f with burnishDelay := f.burnishDelay + BitVec.ofNat 64 waits }
    if mismatch then (if k.sliceRerun then markSuspect s2 c else s2.updCore c fun k => { k with sliceRerun := true })
    else
      let s3 := s2.updCore c fun k => { k with sliceRerun := false, slicePattern := (k.slicePattern + 1) % 1024 }
      if k.sliceRerun then updFlt s3 fun f => { f with transients := bump f.transients } else s3
  else s

/-! ## The dump (R359–R363) -/

/-- The dump is complete: a dump for the host has been written to its buffer; the state becomes STOPPED. -/
def dumpEnds (s : State) : State :=
  if s.flt.dumping then
    let s1 := updFlt s fun f => { f with dumping := false, dumpValid := true }
    let s2 := if s.flt.dumpDest = 1 then s1.say (.hostWrite s.flt.dumpHostBase (dumpRead s1 0 0x5800000)) else s1
    { s2 with hlk := { s2.hlk with state := if s2.hlk.state == .minimal || s2.hlk.state == .wedged then s2.hlk.state else .stopped },
              job := { s2.job with quiescing := false } }
  else s

/-! ## The meanings -/

/-- A parity error (R348, R359). -/
def execParityError (place : ParityPlace) (s : State) : Host.Outcome State Fault Refusal := .next (parity s place)

/-- The management watchdog expires (R342, R359). -/
def execWatchdogExpiry (s : State) : Host.Outcome State Fault Refusal := .next (watchdog s)

/-- A step abort, quiesce or teardown has not ended within 1,000,000 ticks (R307, R355). -/
def execQuiesceTimeout (s : State) : Host.Outcome State Fault Refusal := .next (quiesceFails s)

/-- A burnish slice starts (R356). -/
def execBurnishSliceStart (core : CoreId) (s : State) : Host.Outcome State Fault Refusal := .next (sliceStart s core)

/-- A burnish slice ends (R356, R358). -/
def execBurnishSliceEnd (core : CoreId) (mismatch : Bool) (s : State) : Host.Outcome State Fault Refusal := .next (sliceEnd s core mismatch)

/-- The dump has been written (R359). -/
def execDumpWritten (s : State) : Host.Outcome State Fault Refusal := .next (dumpEnds s)

/-- A write of 1 to fault_valid; a record of the same cycle keeps the bit (R11, R441). -/
def execFaultValidClear (core : CoreId) (recordNow : Bool) (s : State) : Host.Outcome State Fault Refusal :=
  .next (s.onRails fun t => if recordNow then t else t.updCore core fun k => { k with faultValid := false })

/-- A write of 1 to dump_valid (R364). -/
def execDumpValidClear (s : State) : Host.Outcome State Fault Refusal := .next (updFlt s.unlatch fun f => { f with dumpValid := false })

end Sys2Proof.Machine
end

