-- ==== Sys2Proof/Machine/Memory.lean ====
section
/-! DEFINITION. The memory controllers' own events (R177–R181, R187, R191–R196): requests as they reach a controller,
write-backs, refresh, scrubbing, stack temperatures and retraining. The sided-access release stands in `Fabric`. -/

namespace Sys2Proof.Machine

/-! ## Data at the DRAM boundary (R188, R191, R192, R197) -/

/-- The 64-byte key of a stack: derived in confidential mode, else drawn at each boot and mode change (R188, R376, R388). -/
def memoryKey (s : State) (k : StackId) : List Byte :=
  if s.sec.conf then
    let ctx := leBytes 8 s.glb.moduleId.toNat ++ leBytes 8 s.sec.epoch.toNat ++ [BitVec.ofNat 8 k.val]
    bytes256 (kdfBlock Config.fleetKey (ascii "MEM") ctx 512 1) ++ bytes256 (kdfBlock Config.fleetKey (ascii "MEM") ctx 512 2)
  else (List.range 8).flatMap fun i => leBytes 8 (Config.freeValue (s.mem.keyDraw + 8 * k.val + i)).toNat

/-- A fresh key on every stack that is present: the base dies are given theirs by XKEY, the S64's controllers keep it (R182, R188, R197). -/
def loadKeys (s : State) : State :=
  let s1 : State := { s with mem := { s.mem with keyDraw := s.free }, free := s.free + 96 }
  (List.finRange 12).foldl (fun t k => if t.mem.hbmStacks[k].xen then t.say (.xkey k (memoryKey s1 k)) else t) s1

/-- The tweak of a line: (stack << 32) | (channel << 26) | (c >> 6) (R188). -/
def lineTweak (s : State) (a : Nat) : Nat :=
  let p := spotOf s a
  p.1.1 * 2 ^ 32 + p.1.2 * 2 ^ 26 + p.2 / 64

/-- The stored form of a line: its ciphertext under AES-256-XTS, which the base die or the S64's controller produces, and the check
symbols over it, masked when the line is poisoned (R188, R191, R192, R197). -/
def storedLine (s : State) (a : Nat) : List Byte × List Byte :=
  let base := 64 * (a / 64)
  let key := memoryKey s (stackIx (placeOf s base).1)
  let ct := xtsSeal (beNat (key.take 32)) (beNat (key.drop 32)) (lineTweak s base) (readHbm s base 64)
  (ct, (Config.checkSymbols ct).map fun b => if s.mem.poison.contains (keyOf s base / 64) then b ^^^ 0x5A else b)

/-! ## Reading a line (R191, R192) -/

/-- An activation at a controller: whether the bank's count now demands a refresh-management command is free (R168; log entry 105). -/
def activate (s : State) (a : Nat) : State :=
  let p := spotOf s a
  let f := s.draw
  if f.1.getLsbD 0 then f.2.say (.refreshManage (stackIx p.1.1) (Fin.ofNat 16 p.1.2) (cellOf p.2).bankNo) else f.2

/-- A read of the line of an address: data and poison as delivered, after the counts and rewrites of R192. -/
def readLineAt (s : State) (a errs : Nat) : State :=
  let base := 64 * (a / 64)
  let line := keyOf s base / 64
  let s1 := classRead s base line errs true
  let p := linePoison s1 line
  let s2 := if p then { s1 with mem := { s1.mem with poisonedReads := bump s1.mem.poisonedReads } } else s1
  s2.say (.memData (readHbm s1 base 64) p)

/-! ## Write-backs (R178, R181) -/

/-- A buffer entry is written back; an uncorrectable read leaves the merged line poisoned (R178). -/
def wcbBack (s : State) (k : Fin 24) (line errs : Nat) : State :=
  match s.mem.wcb[k].find? (·.line == line) with
  | none => s
  | some e =>
    wcbWriteback (classRead s (64 * (line % 2 ^ 34)) line errs true) k e

/-! ## Scrubbing (R193) -/

def leaseOn (s : State) (stack chan : Nat) : Bool := s.upd.leases.any fun l => l.stack.val == stack && l.chan.val == chan

def scrubLine (s : State) (a errs : Nat) (writtenSince lastOfPass : Bool) : State :=
  let base := 64 * (a / 64)
  let line := keyOf s base / 64
  let p := placeOf s base
  if leaseOn s p.1 p.2 then s
  else
    let s1 := classRead s base line errs (!writtenSince)
    if lastOfPass then { s1 with mem := { s1.mem with scrubPasses := bump s1.mem.scrubPasses } } else s1

/-! ## Temperature and retraining (R194, R196, R332) -/

/-- The highest energy class now running: 0 when nothing above class-0 work runs (R332). -/
def loadClass (s : State) : BitVec 2 :=
  s.cores.toList.foldl (fun m k => match k.running with
    | some i => let c := ((k.segments[i]?).map (·.cls)).getD 0
                if m < c then c else m
    | none => m) 0

def tempGap (a b : Temp) : Nat := (a.toInt - b.toInt).natAbs

/-- A stack reading; more than 8 °C from the reference starts a retraining of every live channel (R196). -/
def stackTemp (s : State) (k : StackId) (t : Temp) : State :=
  let st := s.mem.hbmStacks[k]
  if !st.present then s
  else
    let st1 := { st with temp := t }
    let st2 := if 32 < tempGap t st.tRef then
        { st1 with tRef := t, retrains := bump st1.retrains, retrainLoad := loadClass s,
                   chans := st1.chans.map fun c => if c.live then { c with slicesLeft := 24 } else c }
      else st1
    { s with mem := { s.mem with hbmStacks := s.mem.hbmStacks.set k st2 } }

/-- One retraining slice (R196): it waits for a lease to close; the last one's check decides. -/
def retrainSliceAt (s : State) (k : StackId) (c : ChanId) (ok : Bool) (settings : W64) : State :=
  let st := s.mem.hbmStacks[k]
  let ch := st.chans[c]
  if ch.slicesLeft = 0 || leaseOn s k.val c.val then s
  else
    let load := if st.retrainLoad < loadClass s then loadClass s else st.retrainLoad
    let left := ch.slicesLeft - 1
    let pass := left = 0 && ok
    let ch1 : Chan := if pass then { ch with slicesLeft := left, tTemp := st.tRef, tLoad := load, settings := settings } else { ch with slicesLeft := left }
    let st1 := { st with retrainLoad := load, chans := st.chans.set c ch1,
                         retrainFail := if left = 0 && !ok then bump st.retrainFail else st.retrainFail }
    let s1 : State := { s with mem := { s.mem with hbmStacks := s.mem.hbmStacks.set k st1 } }
    s1.say (.refreshAll k c)

/-! ## Requests and leases (R184–R186) -/

/-- A request at its controller (R74, R177, R180, R191). -/
def serve (s : State) (r : MemReq) : State :=
  match r with
  | .write addr data poison =>
    match hbmCause s addr.toNat data.length true true with
    | none => storeHbm (activate s addr.toNat) addr.toNat data poison
    | some _ => s
  | .read addr errs =>
    match hbmCause s (64 * (addr.toNat / 64)) 64 false true with
    | none => readLineAt (activate s addr.toNat) addr.toNat errs
    | some _ => s
  | .atomic addr fmt op data poison =>
    let n := atomBytes fmt
    match hbmCause s addr.toNat data.length true (n ≠ 0 && addr.toNat % n == 0) with
    | none => if n = 0 then s else atomicMany (activate s addr.toNat) fmt op (elemsAt n addr.toNat (data.map fun b => (b, poison)))
    | some _ => s

/-- The bytes a request names. -/
def MemReq.span : MemReq → Nat × Nat
  | .write a d _ => (a.toNat, d.length)
  | .read a _ => (64 * (a.toNat / 64), 64)
  | .atomic a _ _ d _ => (a.toNat, d.length)

/-- The leased channel that one of a request's lines lies in. -/
def leasedAt (s : State) (r : MemReq) : Option (StackId × ChanId) :=
  (linesOf r.span.1 r.span.2).findSome? fun l =>
    let p := placeOf s (64 * l)
    if leaseOn s p.1 p.2 then some (stackIx p.1, Fin.ofNat 16 p.2) else none

/-- A request arrives: one for a leased channel waits (R184). -/
def requestAt (s : State) (r : MemReq) : State :=
  match leasedAt s r with
  | some p => { s with mem := { s.mem with waiting := s.mem.waiting ++ [(p.1, p.2, r)] } }
  | none => serve s r

/-- A channel is back: the requests that waited for it are served in order of arrival (R179, R184, R186). -/
def serveWaiting (s : State) (stack : StackId) (chan : ChanId) : State :=
  let mine := s.mem.waiting.filter fun w => w.1 == stack && w.2.1 == chan
  let s1 : State := { s with mem := { s.mem with waiting := s.mem.waiting.filter fun w => !(w.1 == stack && w.2.1 == chan) } }
  mine.foldl (fun t w => requestAt t w.2.2) (updChan s1 (stack.val, chan.val) fun c => { c with regained := if mine.isEmpty then none else some s.now })

/-- LDONE (R183, R185): a completed pass takes effect, an abandoned one is requeued, an engine error is fatal, also of a
reclaimed lease; the requests that waited are served. -/
def leaseDone (s : State) (stack : StackId) (chan : ChanId) (status : BitVec 2) : State :=
  match findLease s stack chan with
  | none => s
  | some l =>
    let s1 := (serveWaiting (dropLease s l) stack chan).say (.xstat stack chan)
    if status = 3 then fatal s1 codeStackFatal (BitVec.ofNat 8 stack.val) false
    else if l.reclaimed then s1
    else if status = 1 then abandonPass s1 stack l.pass
    else completePass s1 l.pass

/-! ## The meanings -/

/-- LDONE returns a channel (R183, R185, R186). -/
def execLdone (stack : StackId) (chan : ChanId) (status : BitVec 2) (s : State) : Host.Outcome State Fault Refusal :=
  .next (leaseDone s stack chan status)

/-- A write reaches a memory controller (R177); an address the region table refuses is not written (R74). -/
def execMemWrite (addr : Addr) (data : List Byte) (poison : Bool) (s : State) : Host.Outcome State Fault Refusal :=
  .next (requestAt s (.write addr data poison))

/-- A read of a line reaches a controller (R178, R191, R192). A line whose parity error came again on the retry (R168) counts more than
two symbols in error. -/
def execMemRead (addr : Addr) (symbolErrors : Nat) (s : State) : Host.Outcome State Fault Refusal :=
  .next (requestAt s (.read addr symbolErrors))

/-- An atomic unit applies an update (R179–R181). -/
def execAtomicUpdate (addr : Addr) (fmt : BitVec 4) (op : BitVec 4) (data : List Byte) (poison : Bool) (s : State) :
    Host.Outcome State Fault Refusal := .next (requestAt s (.atomic addr fmt op data poison))

/-- A buffer entry idle for 100 ticks is written back (R178). -/
def execWcbIdleWriteback (ctrl : Fin 24) (line : Nat) (symbolErrors : Nat) (s : State) : Host.Outcome State Fault Refusal :=
  .next (wcbBack s ctrl line symbolErrors)

/-- An atomic-unit line idle for 100 ticks is written back (R181): its data is already what every read sees. -/
def execAtomicLineWriteback (ctrl : Fin 24) (line : Nat) (s : State) : Host.Outcome State Fault Refusal :=
  .next { s with mem := { s.mem with atomics := vmod s.mem.atomics ctrl (·.filter (· ≠ line)) } }

/-- A per-bank refresh falls due and is issued; never inside a lease (R168, R187). -/
def execRefresh (stack : StackId) (chan : ChanId) (bank : Fin 128) (s : State) : Host.Outcome State Fault Refusal :=
  .next (if leaseOn s stack.val chan.val || s.mem.selfRefresh || !s.mem.hbmStacks[stack].present then s else s.say (.refresh stack chan bank))

/-- The patrol scrubber reads a line (R193). -/
def execScrubRead (addr : Addr) (symbolErrors : Nat) (writtenSince : Bool) (lastOfPass : Bool) (s : State) :
    Host.Outcome State Fault Refusal := .next (scrubLine s addr.toNat symbolErrors writtenSince lastOfPass)

/-- A stack temperature reading (R168, R196). -/
def execStackTempRead (stack : StackId) (temp : Temp) (s : State) : Host.Outcome State Fault Refusal := .next (stackTemp s stack temp)

/-- A retraining slice (R196). -/
def execRetrainSlice (stack : StackId) (chan : ChanId) (checkOk : Bool) (settings : W64) (s : State) : Host.Outcome State Fault Refusal :=
  .next (retrainSliceAt s stack chan checkOk settings)

end Sys2Proof.Machine
end

