-- ==== Sys2Proof/Machine/Boot.lean ====
section
/-! DEFINITION. Resets and boot (R415–R425, R49–R50, R194–R195, R254, R261, R331, R373–R379): what a reset keeps, the boot stages, failed
starts, minimal mode. -/

namespace Sys2Proof.Machine

def updBoot (s : State) (f : Boot → Boot) : State := { s with boot := f s.boot }
def updInp (s : State) (f : Inp → Inp) : State := { s with inp := f s.inp }

/-! ## What a reset keeps (R415) -/

/-- The index of an image slot: 2(k − 1) + s (R434). -/
def slotIndex (type : Nat) (slotB : Bool) : Fin 10 := Fin.ofNat 10 (2 * (type - 1) + slotB.toNat)

/-- The mailbox's target is a slot that a transfer may write (R435). -/
def mailboxTarget (s : State) (r : MbRun) : Option (Fin 10) :=
  let k := r.type.toNat
  if 1 ≤ k && k ≤ 5 && s.sec.slots.getLsbD (k - 1) ≠ r.slot then some (slotIndex k r.slot) else none

/-- A reset during a transfer leaves the target slot invalid. -/
def flashSlots (s : State) : Vector FwSlot 10 :=
  match s.boot.mbRun.bind (mailboxTarget s) with
  | some i => vmod s.boot.fw i fun w => { w with valid := false }
  | none => s.boot.fw

/-- A reset during a mode transition completes it where step 3 has been reached, which is open (R388, log entry 27). -/
def modeAfter (s : State) : Bool × W16 :=
  if s.sec.modeBusy && (Config.freeValue s.free).getLsbD 0 then (s.sec.modeTarget, s.sec.modeSeq + 1) else (s.sec.conf, s.sec.modeSeq)

/-- Security flash across a reset: reserved leaf indices are never used again (R381). -/
def keepSec (s : State) : Sec :=
  let m := modeAfter s
  { Sec.reset with conf := m.1, modeTarget := m.1, modeSeq := m.2, epoch := s.sec.epoch, fleetInstalled := s.sec.fleetInstalled, arc := s.sec.arc,
                   leafNext := s.sec.mark, mark := s.sec.mark, treeBuilt := s.sec.mark / 2 ^ 15 }

def keepBoot (s : State) (cause : BitVec 3) : Boot :=
  { Boot.reset with reason := s.boot.reason, detail := s.boot.detail, failStage := s.boot.failStage, failedStarts := s.boot.failedStarts, cause := cause,
                    powerRecord := s.boot.powerRecord, coreFailed := s.boot.coreFailed, coreSuspect := s.boot.coreSuspect,
                    suspectPattern := s.boot.suspectPattern, fw := flashSlots s }

def keepGlb (s : State) (powerOn : Bool) : Glb :=
  { Glb.reset with moduleId := s.glb.moduleId, variant := s.glb.variant, dieStep := s.glb.dieStep, boardIssue := s.glb.boardIssue,
                   ticks := if powerOn then 0 else s.glb.ticks, slotId := s.glb.slotId }

/-- The pins and the input stage run on; rails are off, TRIP_N is released, the management endpoint starts again. -/
def keepInp (s : State) : Inp :=
  { s.inp with aux := true, rails := false, railMask := 0, clocksStopped := false, tripN := false, pg := false, powerFail := false, resetWaits := none, dynAddr := none,
               eid := 0 }

/-- The module held in reset (stage 0x00): everything that R415 does not keep has its reset value. -/
def holdReset (s : State) (cause : BitVec 3) (powerOn : Bool) : State :=
  { State.reset with
    glb := keepGlb s powerOn, boot := keepBoot s cause, sec := keepSec s, inp := keepInp s,
    mem := { Mem.reset with compat := s.mem.compatNext, compatNext := s.mem.compatNext },
    pwr := { Pwr.reset with trip := (if powerOn then 0 else s.pwr.trip), tripPending := !powerOn && s.pwr.tripPending, coeffs := s.pwr.coeffs },
    opt := { Optics.reset with records := s.opt.records }, flt := { Flt.reset with dumpSeq := s.flt.dumpSeq }, out := s.out, free := s.free + 1, pending := s.pending }

/-! ## Stages and their ends (R418, R421, R422) -/

def stageNo (code : Byte) : Nat := code.toNat / 16 - 1

def enterStage (s : State) (env : BootEnv) (code : Byte) : State :=
  updBoot s fun b =>
    { b with stage := code, highest := if b.highest.toNat < code.toNat then code else b.highest,
             durations := b.durations.set (stageNo code) (env.durations.getD (stageNo code) 0) }

/-- Minimal mode (R422). -/
def goMinimal (s : State) (rom : Bool) : State :=
  { updBoot s fun b => { b with minimal := true, romMonitor := rom } with hlk := { s.hlk with state := .minimal } }

def minimalReason (r : Byte) : Bool := r == 0x21 || r == 0x31 || r == 0x32 || r == 0x33

/-- A start fails: the boot record and the counter are written; minimal mode, or a reset 100 ms later. -/
def failStart (s : State) (reason : Byte) (detail : Nat) : State :=
  let s1 := updBoot s fun b =>
    { b with reason := reason, detail := BitVec.ofNat 32 detail, failStage := b.stage, failedStarts := if b.failedStarts = 3 then 3 else b.failedStarts + 1 }
  if minimalReason reason then goMinimal s1 (reason == 0x21) else updBoot s1 fun b => { b with awaitingRestart := true }

/-- Run one stage: its actions, its own failure, a failure that the environment reports (reason 0: the stage has not ended), the rest. -/
def stage (env : BootEnv) (code : Byte) (act : State → State × Option (Nat × Nat)) (rest : State → State) (s : State) : State :=
  let x := act (enterStage s env code)
  match x.2 with
  | some r => failStart x.1 (BitVec.ofNat 8 r.1) r.2
  | none =>
    match env.fail with
    | some (c, r, d) => if c ≠ code then rest x.1 else if r = 0 then x.1 else failStart x.1 r d.toNat
    | none => rest x.1

/-- Stage 0x10 reads the failed-start counter, which reads 3 where its HMAC fails (R376, R422). -/
def stageService (env : BootEnv) (s : State) : State × Option (Nat × Nat) :=
  (updBoot s fun b => { b with failedStarts := if env.records.failedStarts then 3 else b.failedStarts }, none)

/-! ## 0x20 FW_VERIFY (R377, R379) -/

/-- A slot qualifies: its image verifies and its SVN is not below the counter. -/
def qualifies (s : State) (k : Fin 5) (b : Bool) : Bool :=
  let w := s.boot.fw[slotIndex (k.val + 1) b]
  w.valid && s.sec.arc[k].toNat ≤ w.svn.toNat

/-- The slot an image type runs from: the higher version, slot A when they are equal. -/
def selectSlot (s : State) (k : Fin 5) : Option Bool :=
  let v (b : Bool) : Nat := s.boot.fw[slotIndex (k.val + 1) b].version.toNat
  match qualifies s k false, qualifies s k true with
  | true, true => some (decide (v false < v true))
  | true, false => some false
  | false, true => some true
  | false, false => none

/-- Bytes 0–63 of an image header (R377). -/
def imageHeader (s : State) (k : Fin 5) (b : Bool) : List Byte :=
  let w := s.boot.fw[slotIndex (k.val + 1) b]
  leBytes 4 0x57464B4E ++ leBytes 1 (k.val + 1) ++ [0, 0, 0] ++ leBytes 4 w.version.toNat ++ leBytes 4 w.svn.toNat ++ leBytes 4 w.length.toNat ++
    bytes256 w.hash ++ List.replicate 12 0

/-- Select and measure one image type. -/
def takeImage (s : State) (k : Fin 5) : State :=
  match selectSlot s k with
  | none => s
  | some b =>
    let s1 := measure s 0 (2 + k.val) (imageHeader s k b)
    updSec s1 fun c => { c with slots := c.slots ||| BitVec.ofNat 5 (if b then 2 ^ k.val else 0) }

def arcBytes (s : State) : List Byte := s.sec.arc.toList.flatMap fun w => leBytes 4 w.toNat

def stageVerify (s : State) : State × Option (Nat × Nat) :=
  if (selectSlot s 0).isNone then (s, some (0x21, 0))
  else
    let s1 := (List.finRange 5).foldl takeImage s
    let s2 := measure s1 0 0x07 (arcBytes s1)
    let s3 := updBoot s2 fun b => { b with noLibrary := (selectSlot s 4).isNone }
    if (selectSlot s 1).isNone then (s3, some (0x22, 2))
    else if (selectSlot s 2).isNone then (s3, some (0x22, 3))
    else if s.glb.variant == .s64 && (selectSlot s 3).isNone then (s3, some (0x22, 4))
    else (s3, none)

/-! ## 0x30 KEY_UNLOCK (R373–R376, R379) -/

def modeBytes (s : State) : List Byte := leBytes 1 s.sec.conf.toNat ++ leBytes 1 s.glb.variant.code ++ leBytes 16 s.sec.fleet.toNat

/-- The fleet identifier (R375). -/
def fleetId : BitVec 128 := BitVec.ofNat 128 (leAt (bytes256 (kdf Config.fleetKey (ascii "FID") [])) 0 16)

/-- Records whose HMAC fails: a suspect mark counts as one, characterisation is absent, the dump sequence number is refused (R376). -/
def checkRecords (env : BootEnv) (s : State) : State :=
  let r := env.records
  { s with
    boot := { s.boot with coreSuspect := s.boot.coreSuspect ++ r.suspects.filter (fun x => !s.boot.coreSuspect.contains x),
                          coreFailed := if r.characterisation then [] else s.boot.coreFailed },
    pwr := { s.pwr with coeffs := if r.characterisation then Pwr.reset.coeffs else s.pwr.coeffs },
    opt := { s.opt with records := if r.characterisation then Optics.reset.records else s.opt.records },
    flt := { s.flt with seqRefused := r.dumpSeq } }

/-- Key unlock: the device root in at most three readings (R373), the fleet key, security flash, the records. -/
def stageUnlock (env : BootEnv) (s : State) : State × Option (Nat × Nat) :=
  if !(env.pufReads.take 3).any id then (s, some (0x31, 0))
  else if s.sec.fleetInstalled && !env.fleetOk then (s, some (0x32, 0))
  else if !env.secFlashOk then (s, some (0x33, 0))
  else
    let s1 := updSec s fun c =>
      { c with epoch := bump c.epoch, keyed := c.fleetInstalled, unlocked := true, fleet := if c.fleetInstalled then fleetId else 0 }
    let s2 := measure (checkRecords env s1) 0 0x01 Config.bootRom
    (measure s2 1 0x10 (modeBytes s2), none)

/-! ## 0x40–0x60 -/

/-- The nine rails in their order, each only after the one before reports power good; PG is released when all are in regulation (R417). -/
def stageRails (env : BootEnv) (s : State) : State × Option (Nat × Nat) :=
  match env.rail with
  | some i => (updInp s fun p => { p with railMask := BitVec.ofNat 9 (2 ^ i.val - 1) }, some (0x41, i.val))
  | none => (updInp s fun p => { p with rails := true, railMask := 511, pg := true }, none)

def stageClocks (env : BootEnv) (s : State) : State × Option (Nat × Nat) := (s, env.pll.map fun i => (0x51, i.val))

/-- The physical cores a variant enables (R2). -/
def enabledCluster (s : State) (c : Fin 8) : Bool := !(s.glb.variant == .m48 && 6 ≤ c.val)

/-- Cores whose stores fail are recorded as failed in module flash and stay so (R49, R418, log entry 119). -/
def stageDie (env : BootEnv) (s : State) : State × Option (Nat × Nat) :=
  (updBoot s fun b => { b with coreFailed := b.coreFailed ++ env.coresBad.filter fun x => enabledCluster s x.1 && !b.coreFailed.contains x }, none)

/-! ## 0x70 HBM_TRAIN (R182, R188, R194, R195) -/

def lanesOf (env : BootEnv) (k : StackId) (c : ChanId) : LaneFail :=
  ((env.laneFails.find? fun x => x.1 == k && x.2.1 == c).map (·.2.2)).getD { data0 := 0, data1 := 0, row := 0, col := 0 }

/-- More lanes have failed than the spares repair (R195). -/
def lanesBeyond (f : LaneFail) : Bool := 2 < f.data0 || 2 < f.data1 || 1 < f.row || 1 < f.col

def lanesFailed (f : LaneFail) : Nat := f.data0 + f.data1 + f.row + f.col

/-- The channels that lane repair does not save. -/
def chansBad (env : BootEnv) : List (StackId × ChanId) := (env.laneFails.filter fun x => lanesBeyond x.2.2).map fun x => (x.1, x.2.1)

def settingsOf (env : BootEnv) (k : StackId) (c : ChanId) : W64 :=
  ((env.settings.find? fun x => x.1 == k && x.2.1 == c).map (·.2.2)).getD 0

/-- A stack after its training: each channel with its own record (R194), mapped out beyond repair (R195), XEN on a Nerzor base die (R182). -/
def trainedStack (env : BootEnv) (ext : Bool) (k : StackId) (t : Stack) : Stack :=
  let temp : Temp := env.stackTemps.getD k.val 0
  { t with present := true, xen := ext && !env.plainBase.contains k, temp := temp, tRef := temp,
           chans := t.chans.mapFinIdx fun i c h =>
             let f := lanesOf env k ⟨i, h⟩
             { c with live := !lanesBeyond f, tLoad := 3, repaired := if lanesBeyond f then 0 else BitVec.ofNat 8 (lanesFailed f), tTemp := temp,
                      settings := settingsOf env k ⟨i, h⟩ } }

def stageHbm (env : BootEnv) (s : State) : State × Option (Nat × Nat) :=
  let n := stacksOf s.glb.variant
  let silent := env.stackSilent.filter fun k => decide (k.val < n)
  let bad := (chansBad env).filter fun x => decide (x.1.val < n)
  match silent, (if s.mem.compat then none else bad.head?) with
  | some k, _ => (s, some (0x72, k.val))
  | none, some x => (s, some (0x71, x.1.val + 256 * x.2.val))
  | none, none =>
    let stks := s.mem.hbmStacks.mapFinIdx fun i t h => if i < n then trainedStack env (s.glb.variant != .s64) ⟨i, h⟩ t else t
    let out := (stks.toList.map fun t => if t.present then (t.chans.toList.filter fun c => !c.live).length else 0).sum
    let fixed := (env.laneFails.map fun x => if x.1.val < n && !lanesBeyond x.2.2 then lanesFailed x.2.2 else 0).sum
    let s1 : State := { s with mem := { s.mem with hbmStacks := stks },
                               glb := { s.glb with hbmStacks := BitVec.ofNat 12 (2 ^ n - 1), mappedOut := BitVec.ofNat 8 out },
                               boot := { s.boot with lanesRepaired := BitVec.ofNat 8 (min 255 fixed) } }
    (loadKeys { s1 with glb := { s1.glb with jobCapacity := BitVec.ofNat 40 (jobCap s1) } }, none)

/-! ## 0x80 CHARACTERISE (R330, R331) -/

def fmeasOf (env : BootEnv) (c : Fin 8) (p : Fin 9) : Nat :=
  ((env.fmeas.find? fun x => x.1 == c && x.2.1 == p).map (·.2.2.toNat)).getD 0

/-- The usable maximum of a measured frequency (R331). -/
def usableFreq (f : Nat) : Nat := min 1750 (97 * f / 100 / 25 * 25)

/-- The estimator's coefficients as this stage measured them, under the full-load pattern (R323, R332); one that it did not measure stays. -/
def measuredCoeffs (env : BootEnv) (old : Vector CoeffRec 7) : Vector CoeffRec 7 :=
  old.mapFinIdx fun i r _ => match env.coeffs[i]? with | some c => { coeff := c, temp := env.tchar, load := 3 } | none => r

/-- Every physical core with its cluster. -/
def physCores (s : State) : List (Fin 8 × Fin 9) :=
  ((List.finRange 8).filter (enabledCluster s)).flatMap fun c => (List.finRange 9).map fun p => (c, p)

/-- Usable cores of a cluster: neither failed nor suspect, ascending (R49). -/
def usableCores (s : State) (c : Fin 8) : List (Fin 9) :=
  (List.finRange 9).filter fun p => !s.boot.coreFailed.contains (c, p) && !s.boot.coreSuspect.contains (c, p)

def stageCharacterise (env : BootEnv) (s : State) : State × Option (Nat × Nat) :=
  if s.pwr.tripPending && !env.postTripOk then (s, some (0x81, 0))
  else
    let s1 := { updPwr s fun p => { p with tripPending := false } with boot := { s.boot with postTrip := s.pwr.tripPending } }
    match env.tripIn80 with
    | some g => (updPwr (darken s1) fun p => { p with trip := g, tripPending := true }, some (0x82, g.toNat))
    | none =>
      let slow := (physCores s1).filter fun x => usableFreq (fmeasOf env x.1 x.2) < 900
      let s2 := updBoot (updPwr s1 fun p => { p with coeffs := measuredCoeffs env p.coeffs }) fun b => { b with coreFailed := b.coreFailed ++ slow.filter fun x => !b.coreFailed.contains x }
      (s2, ((List.finRange 8).find? fun c => enabledCluster s2 c && (usableCores s2 c).isEmpty).map fun c => (0x83, c.val))

/-! ## 0x90 OPTICS (R254, R261, R267, R420) -/

/-- The engine that L4 feeds from boot on: the first whose comb failed its check. -/
def spareFor (env : BootEnv) (s : State) : Option Nat :=
  if env.combsBad.getLsbD 4 then none else (List.range 4).find? fun e => enginePresent s e && env.combsBad.getLsbD e

def litEngine (env : BootEnv) (s : State) (e : Nat) : Bool :=
  enginePresent s e && (!env.combsBad.getLsbD e || spareFor env s == some e)

/-- The training map, the mux rings locked on the local comb (R261), their light on. -/
def bootLane (env : BootEnv) (s : State) (i : Nat) (l : Lane) : Lane :=
  if litEngine env s (i / 16) then
    { lightLane i l with txPort := some (Fin.ofNat 4 (i % 16 % 4)), rxPort := some (Fin.ofNat 4 ((i % 16 % 4).xor 1)),
                         txState := if env.muxFailed.any (fun g => g.val == i) then 4 else 3, heatTx := (Config.freeValue (s.free + i)).setWidth 16 }
  else l

/-- The record of a mux ring, measured at boot under the full-load pattern (R267, R332); what was measured is free. -/
def bootRecord (env : BootEnv) (s : State) (i : Nat) (r : RingRecord) : RingRecord :=
  if i % 2 = 1 && litEngine env s (i / 32) then
    let f := Config.freeValue (s.free + i / 2)
    { heater := f.setWidth 16, coeff := Config.ringCoeff i, engTemp := (f >>> 16).setWidth 16, dieTemp := (f >>> 32).setWidth 16, load := 3 }
  else r

def stageOptics (env : BootEnv) (s : State) : State × Option (Nat × Nat) :=
  match env.engineBad with
  | some e => (s, some (0x91, e.val))
  | none =>
    let sp := spareFor env s
    let lit := (List.range 4).filter (litEngine env s)
    let bad := (List.range 5).filter fun c => env.combsBad.getLsbD c && (c = 4 || enginePresent s c)
    let failed := ((List.finRange 64).filter fun g => litEngine env s (engOf g) && env.muxFailed.contains g).length
    let o := { s.opt with combs := BitVec.ofNat 5 (((List.range 5).filter fun c => !env.combsBad.getLsbD c && (c = 4 || enginePresent s c)).map (2 ^ ·)).sum,
                          spareUsed := sp.isSome, spareEngine := BitVec.ofNat 2 (sp.getD 0),
                          combsOut := (List.range 4).filter fun e => enginePresent s e && !lit.contains e,
                          lanes := s.opt.lanes.mapFinIdx fun i l _ => bootLane env s i l,
                          records := s.opt.records.mapFinIdx fun i r _ => bootRecord env s i r, sweepFailed := BitVec.ofNat 64 failed }
    let s1 := { s with opt := o, free := s.free + 64, glb := { s.glb with engines := BitVec.ofNat 4 ((lit.map (2 ^ ·)).sum) } }
    let events := bad.length + if sp.isSome then 1 else 0
    (Nat.repeat (fun t => raiseOpen t 0x06) failed (Nat.repeat combEvent events s1), none)

/-! ## 0xA0 CORE_MAP (R49, R50, R379, R432, R439) -/

/-- The spare of a cluster in which all nine are usable: the slowest, of equals the higher index. -/
def spareCore (env : BootEnv) (s : State) (c : Fin 8) : Option (Fin 9) :=
  let u := usableCores s c
  if u.length = 9 then
    u.foldl (fun m p => match m with | none => some p | some q => if fmeasOf env c p ≤ fmeasOf env c q then some p else some q) none
  else none

def membersOf (env : BootEnv) (s : State) (c : Fin 8) : List (Fin 9) :=
  if enabledCluster s c then (usableCores s c).filter fun p => some p ≠ spareCore env s c else []

def coreMask (l : List (Fin 8 × Fin 9)) (c : Fin 8) : BitVec 9 := BitVec.ofNat 9 (((l.filter (·.1 == c)).map fun x => 2 ^ x.2.val).eraseDups.sum)

def mappedCluster (env : BootEnv) (s : State) (c : Fin 8) (k : Cluster) : Cluster :=
  let m := membersOf env s c
  { k with physMap := BitVec.ofNat 32 (leNat ((List.range 4).map fun i =>
             let at_ (j : Nat) : Nat := match m[j]? with | some p => p.val | none => 15
             BitVec.ofNat 8 (at_ (2 * i) + 16 * at_ (2 * i + 1)))),
           spare := match (if enabledCluster s c then spareCore env s c else none) with | some p => BitVec.ofNat 4 p.val | none => 0xF,
           count := BitVec.ofNat 4 m.length, failed := coreMask s.boot.coreFailed c, suspect := coreMask s.boot.coreSuspect c }

def mappedCore (env : BootEnv) (s : State) (n : Nat) (k : Core) : Core :=
  let c : Fin 8 := Fin.ofNat 8 (n / 8)
  match (membersOf env s c)[n % 8]? with
  | none => k
  | some p =>
    let f := fmeasOf env c p
    { k with present := true, phys := BitVec.ofNat 4 p.val, fmeas := BitVec.ofNat 11 f, fcore := BitVec.ofNat 11 (usableFreq f), tchar := env.tchar, load := 3 }

def stageMap (env : BootEnv) (s : State) : State × Option (Nat × Nat) :=
  let ms := (List.finRange 8).map fun c => (membersOf env s c).length
  let s1 := { s with clusters := s.clusters.mapFinIdx fun i k h => mappedCluster env s ⟨i, h⟩ k, cores := s.cores.mapFinIdx fun i k _ => mappedCore env s i k }
  let fmin := (s1.cores.toList.filter (·.present)).foldl (fun m k => min m k.fcore.toNat) 1750
  let s2 := { s1 with
    glb := { s1.glb with cores := BitVec.ofNat 7 ms.sum, clusters := BitVec.ofNat 8 ((ms.zipIdx.map fun x => if x.1 = 0 then 0 else 2 ^ x.2).sum),
                         members := BitVec.ofNat 32 ((ms.zipIdx.map fun x => x.1 * 16 ^ x.2).sum),
                         chanEng := s1.mem.hbmStacks.toList.all fun t => !t.present || t.xen },
    pwr := { s1.pwr with fChar := BitVec.ofNat 11 fmin } }
  (measure s2 1 0x11 (regBytes s2 0x2000000 64), none)

/-! ## 0xB0 NODISC (R378, R418) -/

/-- Counters follow the running images' SVN; the failed-start counter is cleared. -/
def bootDone (env : BootEnv) (s : State) : State :=
  let up (i : Nat) (a : W32) : W32 :=
    let k : Fin 5 := Fin.ofNat 5 i
    match selectSlot s k with
    | some b => let v := s.boot.fw[slotIndex (i + 1) b].svn; if a.toNat < v.toNat then v else a
    | none => a
  let s1 := enterStage s env 0xB0
  { s1 with sec := { s1.sec with arc := s1.sec.arc.mapFinIdx fun i a _ => up i a }, boot := { s1.boot with failedStarts := 0 },
            hlk := { s1.hlk with state := .nodisc } }

/-! ## Boot (R418) -/

def bootRails (env : BootEnv) (s : State) : State :=
  (stage env 0x40 (stageRails env) <| stage env 0x50 (stageClocks env) <| stage env 0x60 (stageDie env) <| stage env 0x70 (stageHbm env) <|
    stage env 0x80 (stageCharacterise env) <| stage env 0x90 (stageOptics env) <| stage env 0xA0 (stageMap env) <| bootDone env) s

/-- Boot from stage 0x10: with the counter at 3, stages 0x20 and 0x30 only, then minimal mode. -/
def boot (env : BootEnv) (s : State) : State :=
  let s0 : State := { s with glb := { s.glb with slotId := env.slotId }, inp := { s.inp with staticAddr := 0x30 + env.slotId.zeroExtend 7 },
                             boot := { s.boot with startTick := s.now } }
  let last (t : State) : State := if t.boot.failedStarts = 3 then goMinimal t false else bootRails env t
  (stage env 0x10 (stageService env) <| stage env 0x20 stageVerify <| stage env 0x30 (stageUnlock env) last) s0

/-! ## Resets (R401, R415, R416) -/

/-- A reset that must wait for the power record, the lower cause kept. -/
def waitReset (s : State) (cause : BitVec 3) : State :=
  updInp s fun p => { p with resetWaits := some (match p.resetWaits with | some c => if c.toNat < cause.toNat then c else cause | none => cause) }

/-- A full reset as a whole: it waits for a power record, and is held while another source is active. -/
def fullReset (s : State) (cause : BitVec 3) (env : BootEnv) : State :=
  if !s.inp.aux then s
  else if s.inp.powerFail then waitReset s cause
  else if s.inp.resetLow then
    (if s.boot.stage = 0 then updBoot s fun b => { b with cause := if b.cause.toNat < cause.toNat then b.cause else cause }
     else holdReset s cause false)
  else boot env (holdReset s cause false)

/-! ## The meanings -/

/-- AUX comes up (R415, R418). -/
def execPowerOn (env : BootEnv) (s : State) : Host.Outcome State Fault Refusal :=
  .next (let t := holdReset s 0 true
    if s.inp.resetLow then t else boot env t)

/-- A full reset with its boot (R415–R422); boot_retry's waits for flash_busy (R437). -/
def execFullReset (cause : BitVec 3) (env : BootEnv) (s : State) : Host.Outcome State Fault Refusal :=
  .next (if cause = 4 && s.mem.flashBusy then s else fullReset s cause env)

/-- The link reset request acts as RESET_N (R310). -/
def execLinkReset (env : BootEnv) (s : State) : Host.Outcome State Fault Refusal := .next (fullReset s 2 env)

/-- A stage beyond twice its limit (R418). -/
def execStageOverrun (stage : Byte) (s : State) : Host.Outcome State Fault Refusal :=
  .next (if s.boot.stage = stage && 0x10 ≤ stage.toNat && stage.toNat ≤ 0xA0 && !s.boot.awaitingRestart && !s.boot.minimal then failStart s 0x01 stage.toNat else s)

/-- The restart after a failed start (R421). -/
def execFailedStartRestart (env : BootEnv) (s : State) : Host.Outcome State Fault Refusal :=
  .next (if s.boot.awaitingRestart then fullReset s 3 env else s)

/-- A write of 1 to boot_retry (R424, R437). -/
def execBootRetry (env : BootEnv) (s : State) : Host.Outcome State Fault Refusal :=
  .next (if s.boot.minimal then
      let s1 := updBoot s.unlatch fun b => { b with failedStarts := 0, retryWaits := s.mem.flashBusy }
      if s.mem.flashBusy then s1 else fullReset s1 4 env
    else s.unlatch)

end Sys2Proof.Machine
end

