-- ==== Sys2Proof/Machine/Image.lean ====
section
/-! DEFINITION. The job image (R314–R316): its header, directory and sections, the checks of IMAGE_FORMAT, and the encodings
of the instructions in its core programs (R52–R72, R79–R98). -/

namespace Sys2Proof.Machine

/-! ## Header and directory (R314) -/

/-- A directory entry: where it stands, its fields decoded. -/
structure Dir where
  pos : Nat
  kind : Nat
  index : Nat
  len : Nat
  off : Nat
  dest : Nat
deriving DecidableEq, Repr

def dirAt (img : List Byte) (i : Nat) : Dir :=
  let o := 128 + 24 * i
  { pos := o, kind := leAt img o 1, index := leAt img (o + 2) 1, len := leAt img (o + 4) 4 + 1, off := leAt img (o + 8) 8, dest := leAt img (o + 16) 5 }

def dirCount (img : List Byte) : Nat := leAt img 6 2 % 128 + 1

def dirs (img : List Byte) : List Dir := (List.range (dirCount img)).map (dirAt img)

def imageCores (img : List Byte) : Nat := leAt img 9 1 % 64 + 1

/-- Runs of equal mask bytes. -/
def masks (l : List (Nat × Byte)) : List Byte := l.flatMap fun x => List.replicate x.1 x.2

/-- Positions of bytes that set a bit outside their mask, the first at `base`. -/
def outside (base : Nat) (ms bs : List Byte) : List Nat :=
  (bs.zip ms).zipIdx.filterMap fun x => if x.1.1 &&& ~~~x.1.2 ≠ 0 then some (base + x.2) else none

/-- The defined bits of the header. -/
def headerMask : List Byte :=
  masks [(6, 0xFF), (1, 0x7F), (1, 0), (1, 0x0F), (1, 0x3F), (6, 0), (8, 0x0F), (1, 0x03), (4, 0xFF), (3, 0), (12, 0xFF), (1, 0x01), (3, 0xFF),
    (3, 0xFF), (1, 0x03), (8, 0xFF), (1, 0xFF), (1, 0x01), (2, 0), (5, 0xFF), (3, 0), (5, 0xFF), (3, 0), (5, 0xFF), (3, 0), (4, 0xFF), (36, 0)]

def dirMask : List Byte := masks [(1, 0xFF), (1, 0), (1, 0x3F), (1, 0), (17, 0xFF), (3, 0)]

/-- The CRC of R314: the image with its crc field taken as 0. -/
def imageCrc (img : List Byte) : W32 := crc32 (img.take 88 ++ [0, 0, 0, 0] ++ img.drop 92)

def headerBad (img : List Byte) : List Nat :=
  (if leAt img 0 4 ≠ 0x33444B53 then [0] else []) ++ (if leAt img 4 2 ≠ 1 then [4] else []) ++ outside 0 headerMask (img.take 128) ++
    ((List.range 8).filter fun c => 8 < leAt img (16 + c) 1 % 16).map (16 + ·) ++
    (if leAt img 88 4 ≠ (imageCrc img).toNat then [88] else [])

/-- The length a kind must have. -/
def kindLen (k : Nat) : Option Nat :=
  match k with | 1 => some 2048 | 2 => some 544 | 4 => some 524288 | 5 => some 131072 | _ => none

def overlap (a n b m : Nat) : Bool := a < b + m && b < a + n

/-- Logical core n may be a required one: its cluster's pop counts its member (R49, R314, R317, log entry 118). -/
def coreNeeded (img : List Byte) (n : Nat) : Bool := n < 64 && n % 8 < leAt img (16 + n / 8) 1 % 16

/-- Positions in one directory entry that break R314; `before` are the entries ahead of it. -/
def dirBad (img : List Byte) (before : List Dir) (d : Dir) : List Nat :=
  outside d.pos dirMask (slice img d.pos 24) ++
    (if d.kind = 0 || 6 < d.kind then [d.pos] else []) ++
    (if d.kind ≠ 3 && d.index ≠ 0 then [d.pos + 2] else []) ++
    (if d.kind = 3 && (!(coreNeeded img d.index) || before.any fun e => e.kind == 3 && e.index == d.index) then [d.pos + 2] else []) ++
    (if (kindLen d.kind).any (· ≠ d.len) then [d.pos + 4] else []) ++
    (if d.off % 64 ≠ 0 || img.length < d.off + d.len || d.off < 128 + 24 * dirCount img ||
        before.any (fun e => overlap e.off e.len d.off d.len) then [d.pos + 8] else []) ++
    (if d.kind < 4 && d.dest ≠ 0 then [d.pos + 16] else []) ++
    (if (kindLen d.kind).isSome && before.any (·.kind == d.kind) then [d.pos] else [])

def dirsBad (img : List Byte) : List Nat :=
  let ds := dirs img
  ds.zipIdx.flatMap (fun x => dirBad img (ds.take x.2) x.1) ++
    (if [1, 2, 4, 5].all fun k => ds.any (·.kind == k) then [] else [6]) ++
    (if ds.countP (·.kind == 3) = imageCores img then [] else [9])

/-! ## Sections -/

def bytesOf (img : List Byte) (d : Dir) : List Byte := slice img d.off d.len

/-- The first section of a kind. -/
def sectionOf (img : List Byte) (k : Nat) : List Byte :=
  match (dirs img).find? (·.kind == k) with | some d => bytesOf img d | none => []

def destOf (img : List Byte) (k : Nat) : Nat := (((dirs img).find? (·.kind == k)).map (·.dest)).getD 0

/-- Data sections: destination and bytes. -/
def dataSections (img : List Byte) : List (Nat × List Byte) := ((dirs img).filter (·.kind == 6)).map fun d => (d.dest, bytesOf img d)

/-! ## Core programs (R316) -/

/-- A segment of the image: its header decoded, its blocks as 32-byte instructions. Block lengths use their whole 16-bit
fields, so that one above 1,024 can be refused as BLOCK_SIZE (log entry 31). -/
structure ImgSeg where
  core : Nat
  idx : Nat
  cls : Nat
  shapes : List (Nat × Nat × BitVec 4)
  nin : Nat
  nout : Nat
  inbound : List W16
  outbound : List W16
  alen : Nat
  xlen : Nat
  aoff : Nat
  access : List (List Byte)
  execute : List (List Byte)
deriving DecidableEq, Repr

def shapeOf (b : Nat) : Nat × Nat × BitVec 4 := (32 * 2 ^ (b % 4), 16 * 2 ^ (b / 4 % 4), BitVec.ofNat 4 (b / 16))

def instrsAt (sec : List Byte) (off n : Nat) : List (List Byte) := (List.range n).map fun k => slice sec (off + 32 * k) 32

def segAt (sec : List Byte) (core i : Nat) : ImgSeg :=
  let o := 4 + 64 * i
  let nin := leAt sec (o + 4) 1 % 16
  let nout := leAt sec (o + 5) 1 % 16
  let alen := leAt sec (o + 6) 2 + 1
  let xlen := leAt sec (o + 8) 2 + 1
  let aoff := leAt sec (o + 12) 4
  { core := core, idx := i, cls := leAt sec o 1 % 4, shapes := (List.range 3).map fun e => shapeOf (leAt sec (o + 1 + e) 1), nin := nin, nout := nout,
    inbound := (List.range (min nin 8)).map fun j => BitVec.ofNat 16 (leAt sec (o + 16 + 2 * j) 2),
    outbound := (List.range (min nout 8)).map fun j => BitVec.ofNat 16 (leAt sec (o + 32 + 2 * j) 2),
    alen := alen, xlen := xlen, aoff := aoff, access := instrsAt sec aoff alen, execute := instrsAt sec (aoff + 32 * alen) xlen }

def segCount (sec : List Byte) : Nat := leAt sec 0 4 + 1

/-- Core programs by logical core. -/
def programs (img : List Byte) : List Dir := (dirs img).filter (·.kind == 3)

/-- The segments of one core program. -/
def segsOf (img : List Byte) (d : Dir) : List ImgSeg :=
  let sec := bytesOf img d
  if sec.length < 4 + 64 * segCount sec then [] else (List.range (segCount sec)).map (segAt sec d.index)

def imageSegs (img : List Byte) : List ImgSeg := (programs img).flatMap (segsOf img)

def segHeadMask : List Byte := masks [(1, 0x03), (3, 0xFF), (2, 0x0F), (4, 0xFF), (2, 0), (36, 0xFF), (16, 0)]

/-- Positions in a segment header that break R316. -/
def segHeadBad (base : Nat) (sec : List Byte) (n : Nat) (g : ImgSeg) : List Nat :=
  let o := 4 + 64 * g.idx
  outside (base + o) segHeadMask (slice sec o 64) ++
    ((List.range 8).filter fun j => g.nin ≤ j && leAt sec (o + 16 + 2 * j) 2 ≠ 0).map (fun j => base + o + 16 + 2 * j) ++
    ((List.range 8).filter fun j => g.nout ≤ j && leAt sec (o + 32 + 2 * j) 2 ≠ 0).map (fun j => base + o + 32 + 2 * j) ++
    (if g.aoff % 32 ≠ 0 || g.aoff < 4 + 64 * n || sec.length < g.aoff + 32 * (g.alen + g.xlen) then [base + o + 12] else [])

def programBad (img : List Byte) (d : Dir) : List Nat :=
  let sec := bytesOf img d
  if sec.length < 4 + 64 * segCount sec then [d.off]
  else (segsOf img d).flatMap (segHeadBad d.off sec (segCount sec))

/-- Every image offset at which the layout breaks R314–R316 (IMAGE_FORMAT, R319). -/
def formatBad (img : List Byte) : List Nat :=
  if img.length < 128 then [0]
  else if img.length < 128 + 24 * dirCount img then headerBad img ++ [6]
  else headerBad img ++ dirsBad img ++ (programs img).flatMap (programBad img)

/-! ## Encodings of the access stream (R53–R72) -/

def byteOf (b : List Byte) (i : Nat) : Nat := (byteAt b i).toNat
def field (b : List Byte) (i lo len : Nat) : Nat := bitsOf (byteOf b i) lo len
def flag (b : List Byte) (i k : Nat) : Bool := (byteOf b i).testBit k
def w16 (b : List Byte) (i : Nat) : W16 := BitVec.ofNat 16 (leAt b i 2)
def w32 (b : List Byte) (i : Nat) : W32 := BitVec.ofNat 32 (leAt b i 4)

/-- The defined bits of an access instruction, by opcode: none for an opcode that R53 does not list. -/
def accessMask (op : Nat) : Option (List Byte) :=
  let move := [(1, (0xFF : Byte)), (1, 0x7F), (6, 0xFF)]
  match op with
  | 0x01 => some (masks [(2, 0xFF), (1, 0x0F), (7, 0xFF), (2, 0), (20, 0xFF)])
  | 0x02 => some (masks [(1, 0xFF), (1, 0x1F), (2, 0), (4, 0xFF), (24, 0)])
  | 0x03 => some (masks [(1, 0xFF), (1, 0), (3, 0xFF), (1, 0x03), (26, 0)])
  | 0x04 => some (masks [(1, 0xFF), (3, 0), (4, 0xFF), (24, 0)])
  | 0x05 => some (masks [(1, 0xFF), (31, 0)])
  | 0x08 => some (masks [(1, 0xFF), (1, 0x07), (2, 0xFF), (2, 0), (1, 0x0F), (1, 0), (2, 0xFF), (1, 0x7F), (1, 0), (2, 0xFF), (1, 0x7F), (17, 0)])
  | 0x09 => some (masks [(1, 0xFF), (1, 0x03), (2, 0xFF), (28, 0)])
  | 0x0A => some (masks [(1, 0xFF), (1, 0x01), (4, 0), (1, 0x0F), (1, 0), (4, 0xFF), (20, 0)])
  | 0x10 | 0x11 | 0x12 | 0x13 | 0x14 | 0x18 | 0x19 | 0x1A => some (masks (move ++ [(24, 0)]))
  | 0x1C => some (masks (move ++ [(1, 0xFF), (1, 0x0F), (6, 0xFF), (16, 0)]))
  | 0x1D => some (masks (move ++ [(1, 0xFF), (1, 0x03), (6, 0xFF), (16, 0)]))
  | _ => none

def setdOf (b : List Byte) : SetdOp :=
  { d := Fin.ofNat 16 (field b 1 0 4), space := BitVec.ofNat 2 (field b 1 4 2), ndim := BitVec.ofNat 2 (field b 1 6 2),
    format := BitVec.ofNat 4 (field b 2 0 4), chip := w16 b 3, base := BitVec.ofNat 40 (leAt b 5 5), size0 := w16 b 12, size1 := w16 b 14,
    size2 := w16 b 16, size3 := w16 b 18, stride1 := w32 b 20, stride2 := w32 b 24, stride3 := w32 b 28 }

def moveOf (b : List Byte) : MoveOp :=
  { wq := Fin.ofNat 4 (field b 1 0 2), we := flag b 1 2, dq := Fin.ofNat 4 (field b 1 3 2), de := flag b 1 5, ix := flag b 1 6, wtok := w16 b 2,
    dtok := w16 b 4, src := Fin.ofNat 16 (field b 6 0 4), dst := Fin.ofNat 16 (field b 6 4 4), aux := Fin.ofNat 16 (field b 7 0 4) }

def pushOf (b : List Byte) : PushOp :=
  { q := Fin.ofNat 4 (field b 1 0 2), form1 := flag b 1 2, token := w16 b 2, reg := Fin.ofNat 16 (field b 6 0 4),
    base := BitVec.ofNat 23 (leAt b 8 3), length := BitVec.ofNat 23 (leAt b 12 3) }

/-- An access instruction from its 32 bytes. -/
def decodeAccess (b : List Byte) : Option AInstr :=
  let mv (k : MoveKind) : Option AInstr := some (.move k (moveOf b))
  match byteOf b 0 with
  | 0x01 => some (.setd (setdOf b))
  | 0x02 => some (.advd (Fin.ofNat 16 (field b 1 0 4)) (flag b 1 4) (w32 b 4))
  | 0x03 => some (.loop (w16 b 2) (BitVec.ofNat 10 (leAt b 4 2)))
  | 0x04 => some (.budg (w32 b 4))
  | 0x05 => some .fence
  | 0x08 => some (.push (pushOf b))
  | 0x09 => some (.pop (Fin.ofNat 4 (field b 1 0 2)) (w16 b 2))
  | 0x0A => some (.waitf (flag b 1 0) (Fin.ofNat 16 (field b 6 0 4)) (w32 b 8))
  | 0x10 => mv .ldh
  | 0x11 => mv .sth
  | 0x12 => mv .movs
  | 0x13 => mv .gath
  | 0x14 => mv .scat
  | 0x18 => mv .rget
  | 0x19 => mv .rput
  | 0x1A => mv (.atom (BitVec.ofNat 4 (field b 7 4 4)))
  | 0x1C => mv (.land { group := BitVec.ofNat 12 (leAt b 8 2), mb := w16 b 10, offset := w32 b 12 })
  | 0x1D => mv (.coll (BitVec.ofNat 4 (field b 7 4 4)) { comm := BitVec.ofNat 10 (leAt b 8 2), chunk := w16 b 10, param := w32 b 12 })
  | _ => none

/-! ## Encodings of the execute stream (R79–R98) -/

def executeMask (op : Nat) : Option (List Byte) :=
  match op with
  | 0x01 => some (masks [(3, 0xFF), (1, 0xCF), (1, 0x0F), (2, 0xFF), (1, 0x7F), (4, 0), (20, 0xFF)])
  | 0x02 => some (masks [(3, 0xFF), (1, 0x1F), (4, 0xFF), (24, 0)])
  | 0x03 => some (masks [(3, 0xFF), (1, 0), (3, 0xFF), (1, 0x03), (24, 0)])
  | 0x04 => some (masks [(3, 0xFF), (1, 0), (4, 0xFF), (24, 0)])
  | 0x08 => some (masks [(3, 0xFF), (1, 0x07), (1, 0x0F), (1, 0), (4, 0xFF), (1, 0x7F), (1, 0), (2, 0xFF), (1, 0x7F), (17, 0)])
  | 0x09 => some (masks [(3, 0xFF), (1, 0x03), (2, 0), (2, 0xFF), (24, 0)])
  | 0x10 => some (masks [(3, 0xFF), (6, 0x1F), (5, 0xFF), (18, 0)])
  | 0x18 => some (masks [(4, 0xFF), (2, 0x1F), (1, 0x3F), (2, 0xFF), (1, 0x3F), (5, 0xFF), (1, 0), (1, 0xFF), (1, 0x0F), (6, 0xFF), (8, 0)])
  | 0x19 => some (masks [(3, 0xFF), (2, 0x1F), (1, 0xFF), (2, 0), (4, 0xFF), (20, 0)])
  | 0x20 => some (masks [(5, 0xFF), (3, 0x1F), (1, 0xFF), (1, 0x0F), (1, 0x3F), (1, 0), (4, 0xFF), (16, 0)])
  | 0x28 => some (masks [(3, 0xFF), (1, 0x0F), (4, 0x1F), (1, 0xFF), (1, 0x3F), (4, 0xFF), (2, 0), (4, 0xFF), (12, 0)])
  | 0x30 => some (masks [(3, 0xFF), (2, 0x1F), (1, 0x0F), (4, 0xFF), (22, 0)])
  | 0x38 => some (masks [(3, 0xFF), (1, 0x03), (3, 0xFF), (1, 0), (5, 0xFF), (19, 0)])
  | 0x39 => some (masks [(3, 0xFF), (1, 0x0F), (1, 0x1F), (3, 0xFF), (24, 0)])
  | _ => none

def f5 (b : List Byte) (i : Nat) : BitVec 5 := BitVec.ofNat 5 (byteOf b i)

def setxOf (b : List Byte) : SetxOp :=
  { x := Fin.ofNat 16 (field b 3 0 4), ndim := BitVec.ofNat 2 (field b 3 6 2), format := BitVec.ofNat 4 (field b 4 0 4),
    base := BitVec.ofNat 23 (leAt b 5 3), size0 := w16 b 12, size1 := w16 b 14, size2 := w16 b 16, size3 := w16 b 18, stride1 := w32 b 20,
    stride2 := w32 b 24, stride3 := w32 b 28 }

def pusheOf (b : List Byte) : PushOp :=
  { q := Fin.ofNat 4 (field b 3 0 2), form1 := flag b 3 2, token := w16 b 6, reg := Fin.ofNat 16 (field b 4 0 4),
    base := BitVec.ofNat 23 (leAt b 8 3), length := BitVec.ofNat 23 (leAt b 12 3) }

def mmaOf (b : List Byte) : MmaOp :=
  { eng := Fin.ofNat 3 (field b 3 0 2), cont := flag b 3 2, ta := flag b 3 3, tb := flag b 3 4, slot := f5 b 4, a := f5 b 5, b := f5 b 6,
    as := f5 b 7, bs := f5 b 8, fa := BitVec.ofNat 4 (field b 9 0 4), fb := BitVec.ofNat 4 (field b 9 4 4), own := w16 b 10, k := w16 b 12 }

def drnOf (b : List Byte) : DrnOp :=
  { eng := Fin.ofNat 3 (field b 3 0 2), rel := flag b 3 2, dest := BitVec.ofNat 3 (field b 3 3 3), rnd := flag b 3 6, cen := flag b 3 7,
    slot := f5 b 4, out := f5 b 5, sc := f5 b 6, axis := flag b 6 5, fmt := BitVec.ofNat 4 (field b 7 0 4), set := Fin.ofNat 16 (field b 7 4 4),
    exp := byteAt b 8, half := flag b 9 0, q := Fin.ofNat 4 (field b 9 1 2), recv := Fin.ofNat 8 (field b 9 3 3), rtok := w16 b 10,
    mmask := byteAt b 12, cmask := byteAt b 13, op := byteAt b 14, commGroup := BitVec.ofNat 12 (leAt b 16 2), chunkMb := w16 b 18,
    offset := w32 b 20 }

def taccOf (b : List Byte) : TaccOp :=
  { eng := Fin.ofNat 3 (field b 3 0 2), cont := flag b 3 2, q := Fin.ofNat 4 (field b 3 3 2), slot := f5 b 4, op := byteAt b 5, own := w16 b 8,
    atok := w16 b 10 }

def vopOf (b : List Byte) : VopOp :=
  { op := f5 b 3, bc := BitVec.ofNat 3 (field b 3 5 3), dst := f5 b 4, conv := flag b 4 5, rnd := flag b 4 6, cen := flag b 4 7, src0 := f5 b 5,
    src1 := f5 b 6, src2 := f5 b 7, fmt := BitVec.ofNat 4 (field b 8 0 4), set := Fin.ofNat 16 (field b 8 4 4),
    lfmt := BitVec.ofNat 4 (field b 9 0 4), sc := f5 b 10, axis := flag b 10 5, imm := w32 b 12 }

def rstOf (b : List Byte) : RstOp :=
  { mode := BitVec.ofNat 3 (field b 3 0 3), start := flag b 3 3, src0 := f5 b 4, src1 := f5 b 5, st := f5 b 6, dst := f5 b 7,
    fmt := BitVec.ofNat 4 (field b 8 0 4), set := Fin.ofNat 16 (field b 8 4 4), lfmt := BitVec.ofNat 4 (field b 9 0 4), rnd := flag b 9 4,
    cen := flag b 9 5, rows := w16 b 10, cols := w16 b 12, imm := w32 b 16 }

def xpsOf (b : List Byte) : XpsOp :=
  { src := f5 b 3, dst := f5 b 4, fmt := BitVec.ofNat 4 (field b 5 0 4), rows := w16 b 6, cols := w16 b 8 }

/-- An execute instruction from its 32 bytes, with its delta. -/
def decodeExecute (b : List Byte) : Option (W16 × XInstr) :=
  (match byteOf b 0 with
  | 0x01 => some (XInstr.setx (setxOf b))
  | 0x02 => some (.advx (Fin.ofNat 16 (field b 3 0 4)) (flag b 3 4) (w32 b 4))
  | 0x03 => some (.loopx (w16 b 4) (BitVec.ofNat 10 (leAt b 6 2)))
  | 0x04 => some (.waitc (w32 b 4))
  | 0x08 => some (.pushe (pusheOf b))
  | 0x09 => some (.pope (Fin.ofNat 4 (field b 3 0 2)) (w16 b 6))
  | 0x10 => some (.mma (mmaOf b))
  | 0x18 => some (.drn (drnOf b))
  | 0x19 => some (.tacc (taccOf b))
  | 0x20 => some (.vop (vopOf b))
  | 0x28 => some (.rst (rstOf b))
  | 0x30 => some (.xps (xpsOf b))
  | 0x38 => some (.awls (Fin.ofNat 4 (field b 3 0 2)) (BitVec.ofNat 24 (leAt b 4 3)) (BitVec.ofNat 40 (leAt b 8 5)))
  | 0x39 => some (.cenf (Fin.ofNat 16 (field b 3 0 4)) (Fin.ofNat 16 (field b 4 0 4)) (BitVec.ofNat 24 (leAt b 5 3)))
  | _ => none).map fun i => (w16 b 1, i)

/-! ## Items (R319) -/

/-- An image byte offset as an item. -/
def offsetItem (o : Nat) : Nat := 2 ^ 30 + o / 4

/-- An instruction as an item: `kind` 2 access, 3 execute. -/
def instrItem (kind core seg idx : Nat) : Nat := kind * 2 ^ 30 + core % 64 * 2 ^ 24 + seg % 16384 * 2 ^ 10 + idx % 1024

/-- A whole segment as an item. -/
def segItem (g : ImgSeg) : Nat := instrItem 2 g.core g.idx 0

end Sys2Proof.Machine
end

