-- ==== Sys2Proof/Machine/Tables.lean ====
section
/-! DEFINITION. The tables of a job image (R144, R171, R226–R231, R271, R314, R315) and the loader's checks on them (R317–R319):
the capability of the part, regions, extents, groups, communicators, straps, loss scale, manifest. -/

namespace Sys2Proof.Machine

/-! ## The tables decoded -/

/-- The entries of a table of `n` entries of `w` bytes. -/
def entries (sec : List Byte) (w n : Nat) : List (Nat × List Byte) := (chunksOf w n sec).zipIdx.map fun x => (x.2, x.1)

/-- Region entries in use, by number (R315). -/
def regionEntries (img : List Byte) : List (Nat × List Byte) :=
  (entries (sectionOf img 1) 32 64).filter fun e => leAt e.2 8 4 % 2 ^ 28 ≠ 0 || leAt e.2 12 1 ≠ 0

def regionOfEntry (b : List Byte) : Region :=
  { base := leAt b 0 5, size := (leAt b 8 4 % 2 ^ 28 + 1) * 4096, stackLocal := flag b 12 0, ro := flag b 12 1, sided := flag b 12 2,
    stack := Fin.ofNat 12 (field b 13 0 4), wbase := leAt b 16 5, g0 := 0, bands := (0, 0) }

/-- The physical place the loader assigns to a region by its place in the table, given the live-channel count (R172, R173; log entry 102). -/
def Region.placed (r : Region) (live i : Nat) : Region :=
  { r with g0 := live * Config.granuleBase i, bands := (Config.bandBase i false, Config.bandBase i true) }

def imageRegions (img : List Byte) : List Region := (regionEntries img).map fun e => regionOfEntry e.2

/-- Group entries (R144). -/
def groupEntries (img : List Byte) : List (Nat × List Byte) := entries (sectionOf img 4) 128 4096

def groupOfEntry (i : Nat) (b : List Byte) : Group :=
  { idx := BitVec.ofNat 12 i, rule := BitVec.ofNat 2 (field b 0 0 2), held := flag b 0 2, clip := flag b 0 3, mom := flag b 0 4, cen := flag b 0 5,
    wfmt := BitVec.ofNat 4 (field b 1 0 4), stack := field b 3 0 4, chan0 := field b 3 4 4, elements := leAt b 4 4 % 2 ^ 28 + 1,
    mbcount := leAt b 8 2 % 2 ^ 15 + 1, tidW := BitVec.ofNat 24 (leAt b 12 3), tidM := BitVec.ofNat 24 (leAt b 16 3),
    tidV := BitVec.ofNat 24 (leAt b 20 3), ibase := leAt b 24 5, soff := leAt b 32 5, lbase := leAt b 40 5, cbase := leAt b 48 5, eta := w32 b 56,
    lambda := w32 b 60, b1 := w32 b 64, ob1 := w32 b 68, b2 := w32 b 72, ob2 := w32 b 76, eps := w32 b 80, gm := w32 b 84, tmax := w32 b 88,
    cmax := w32 b 92 }

/-- The active groups. -/
def imageGroups (img : List Byte) : List Group :=
  ((groupEntries img).filter fun e => field e.2 0 0 2 ≠ 0).map fun e => groupOfEntry e.1 e.2

/-- An array of `n` bytes at a local address, from the data section that covers it (R319). -/
def arrayAt (img : List Byte) (a n : Nat) : Option (List Byte) :=
  ((dataSections img).find? fun d => d.1 ≤ a && a + n ≤ d.1 + d.2.length).map fun d => slice d.2 (a - d.1) n

def arrayOr (img : List Byte) (a n : Nat) : List Byte := (arrayAt img a n).getD []

/-- Communicator entries in use (R227). -/
def commEntries (img : List Byte) : List (Nat × List Byte) := (entries (sectionOf img 5) 128 1024).filter fun e => field e.2 0 0 2 ≠ 0

def landMapOf (b : List Byte) : LandMap :=
  { first := leAt b 0 2, chunks := leAt b 2 2 + 1, group := BitVec.ofNat 12 (leAt b 4 2), mb := leAt b 6 2 % 2 ^ 15, obase := leAt b 8 4 }

def commP (b : List Byte) : Nat := leAt b 2 2 + 1

/-- Size and address of the list of multicast group j (R231). -/
def mcGroup (img : List Byte) (b : List Byte) (j : Nat) : Nat × Nat :=
  let e := arrayOr img (leAt b 32 5 + 8 * j) 8
  (leAt e 0 2 + 1, leAt b 32 5 + leAt e 4 4)

def commOfEntry (img : List Byte) (i : Nat) (b : List Byte) : Comm :=
  let P := commP b
  let land := flag b 0 2
  let ml := arrayOr img (leAt b 16 5) (2 * P)
  let cn := arrayOr img (leAt b 24 5) (4 * P)
  let lmN := leAt b 10 1 + 1
  let lm := arrayOr img (leAt b 40 5) (16 * lmN)
  { idx := BitVec.ofNat 10 i, tree := field b 0 0 2 = 2, land := land, jobwide := flag b 0 3, self := leAt b 4 2, fmt := BitVec.ofNat 4 (field b 6 0 4),
    chunkElems := leAt b 8 2 + 1, members := (List.range P).map fun j => w16 ml (2 * j), counts := (List.range P).map fun j => leAt cn (4 * j) 4,
    phases := (List.range (field b 1 0 2 + 1)).map fun k => (Fin.ofNat 4 (field b (56 + 4 * k) 0 2), byteAt b (57 + 4 * k), leAt b (58 + 4 * k) 2 + 1),
    landMap := if land then (List.range lmN).map fun j => landMapOf (slice lm (16 * j) 16) else [],
    groups := (List.range (leAt b 7 1)).map fun j =>
      let g := mcGroup img b j
      (List.range g.1).map fun k => leAt (arrayOr img (g.2 + 2 * k) 2) 0 2,
    stat := leAt b 48 5, cseq := 0 }

def imageComms (img : List Byte) : List Comm := (commEntries img).map fun e => commOfEntry img e.1 e.2

def commitOf (img : List Byte) : Nat := leAt img 50 2 % 1024

def signed8 (n : Nat) : Int := (BitVec.ofNat 8 n).toInt

/-- The manifest (R314), decoded. -/
def manifestOf (img : List Byte) : Manifest :=
  { units := BitVec.ofNat 4 (leAt img 8 1), cores := imageCores img, pop := (List.range 8).map fun c => leAt img (16 + c) 1 % 16,
    lens := (List.range 4).map fun a => leAt img (25 + a) 1 + 1, seed := BitVec.ofNat 64 (leAt img 32 8), step0 := w32 img 40, side0 := flag img 44 0,
    l0 := signed8 (leAt img 45 1), lf := signed8 (leAt img 46 1), lc := signed8 (leAt img 47 1), n := leAt img 48 2 + 1,
    commit := BitVec.ofNat 10 (commitOf img), budget := w32 img 52, cbudget := w32 img 56, park := leAt img 60 2 % 512 + 1, ctx := leAt img 64 5,
    crec := leAt img 72 5, ntab := leAt img 80 5 }

/-- The state with the image's tables in place, against which addresses and contexts are checked. -/
def tabled (s : State) (img : List Byte) : State :=
  let st := sectionOf img 2
  { s with
    mem := { s.mem with regions := (imageRegions img).zipIdx.map fun r => r.1.placed (liveChannels s).length r.2 },
    upd := { s.upd with groups := imageGroups img },
    coll := { s.coll with comms := imageComms img },
    opt := { s.opt with portMap := slice st 0 16, validMask := byteAt st 16, plans := (List.range 8).map fun k => slice st (32 + 64 * k) 64 } }

/-! ## Tying the image to the part (R317, R318) -/

/-- The units required that the part lacks. -/
def unitsAbsent (s : State) (img : List Byte) : List Nat :=
  let u := leAt img 8 1
  let has (b : Nat) : Bool := match b with
    | 0 => s.glb.chanEng
    | 1 => s.glb.hbmStacks.toNat / 256 == 15
    | 2 => s.glb.engines.toNat / 8 == 1
    | _ => s.glb.clusters.toNat / 64 == 3
  (List.range 4).filter fun b => u.testBit b && !has b

def clusterShort (s : State) (img : List Byte) : List Nat :=
  (List.range 8).filter fun c => bitsOf s.glb.members.toNat (4 * c) 4 < leAt img (16 + c) 1 % 16

def shapeBad (s : State) (img : List Byte) : Bool :=
  match s.disc.decl with
  | some d => leAt img 24 1 % 4 + 1 ≠ d.axes || (List.range 4).any fun a => leAt img (25 + a) 1 + 1 ≠ d.lens.getD a 1
  | none => true

def portMapBad (s : State) (img : List Byte) : List Nat :=
  match s.disc.decl with
  | some d => (List.range 16).filter fun f => byteAt (sectionOf img 2) f ≠ d.pmap.getD f 0xFF
  | none => []

/-! ## Regions (R171, R175, R176, R195, R315) -/

def regionMask : List Byte := masks [(5, 0xFF), (3, 0), (3, 0xFF), (1, 0x0F), (1, 0x07), (1, 0x0F), (2, 0), (5, 0xFF), (11, 0)]

/-- The local ranges an entry presents: itself, or both aliases. -/
def spans (r : Region) : List (Nat × Nat) := (r.base, r.size) :: if r.sided then [(r.wbase, r.size)] else []

/-- A stack of the part with every channel live, which native mode makes of every stack present (R195). -/
def stackWhole (s : State) (k : Nat) : Bool :=
  if h : k < 12 then s.glb.hbmStacks.getLsbD k && (s.mem.hbmStacks[(⟨k, h⟩ : Fin 12)].chans.toList.all (·.live)) else false

/-- The height of a region's band (R173): its share of the channels, and room for the sub-bands of its extents. -/
def bandHeight (gs : List Group) (r : Region) : Nat := max (r.size / 16) ((gs.flatMap (·.extents r)).map Extent.height).sum

/-- Bytes a list of regions takes in every channel of a stack: its own bands, and its share of the interleaved granules, each region's
in whole rows of the live channels (R172, R173, R176). -/
def channelBytes (s : State) (gs : List Group) (rs : List Region) (k : Nat) : Nat :=
  let C := 4096 * max 1 (liveChannels s).length
  let rows (n : Nat) : Nat := (n + C - 1) / C * 4096
  rows (3 * 2 ^ 28) + (rs.map fun r =>
    if r.stackLocal then (if r.stack.val = k then (if r.sided then 2 else 1) * bandHeight gs r else 0) else rows r.size).sum

/-- An entry that breaks R171, R175, R176, R195 or R315, given the entries before it. -/
def regionBad (s : State) (gs : List Group) (before : List Region) (b : List Byte) : Bool :=
  let r := regionOfEntry b
  let all := before ++ [r]
  let ps := spans r
  !(outside 0 regionMask b).isEmpty || ps.any (fun p => p.1 % 65536 ≠ 0 || jobCap s < p.1 + p.2) ||
    (r.stackLocal && (r.size % 65536 ≠ 0 || !stackWhole s (field b 13 0 4))) || (r.sided && !r.stackLocal) || (!r.sided && r.wbase ≠ 0) ||
    (before.flatMap spans).any (fun q => ps.any fun p => overlap p.1 p.2 q.1 q.2) || (r.sided && overlap r.base r.size r.wbase r.size) ||
    64 < (all.flatMap spans).length || jobCap s < (all.map fun x => x.size * (spans x).length).sum ||
    (List.range 12).any fun k => 3 * gib < channelBytes s gs all k

def regionsBad (s : State) (img : List Byte) : List Nat :=
  let es := regionEntries img
  es.zipIdx.filterMap fun x => if regionBad s (imageGroups img) ((es.take x.2).map fun e => regionOfEntry e.2) x.1.2 then some x.1.1 else none

/-! ## Extents (R145, R174) -/

def sidedRegion (rs : List Region) (k : Nat) : Option Region := rs.find? fun r => r.sided && r.stack.val == k

/-- The state image lies in the stack's sided region, the landing in an unsided region of the stack. -/
def extentInside (rs : List Region) (g : Group) : Bool :=
  (match sidedRegion rs g.stack with | some r => g.soff + g.windows * g.pitch ≤ r.size | none => false) &&
    rs.any fun r => r.stackLocal && !r.sided && r.stack.val == g.stack && r.base ≤ g.lbase && g.lbase + g.landBytes ≤ r.base + r.size

def extentsClash (g h : Group) : Bool :=
  (g.stack == h.stack && overlap g.soff (g.windows * g.pitch) h.soff (h.windows * h.pitch)) || overlap g.lbase g.landBytes h.lbase h.landBytes

def extentsBad (rs : List Region) (gs : List Group) : List Nat :=
  gs.zipIdx.filterMap fun x =>
    if 12288 < 3 * (x.2 + 1) || !extentInside rs x.1 || (gs.take x.2).any (extentsClash x.1) then some x.1.idx.toNat else none

/-! ## Groups (R144, R145) -/

def groupMask : List Byte :=
  masks [(1, 0x3F), (1, 0xFF), (1, 0x0F), (1, 0xFF), (3, 0xFF), (1, 0x0F), (1, 0xFF), (1, 0x7F), (2, 0), (3, 0xFF), (1, 0), (3, 0xFF), (1, 0), (3, 0xFF),
    (1, 0), (5, 0xFF), (3, 0), (5, 0xFF), (3, 0), (5, 0xFF), (3, 0), (5, 0xFF), (3, 0), (40, 0xFF), (32, 0)]

/-- An FP32 coefficient's tests: finite, zero of either sign, negative, above 0, below 1, at most 1. -/
def fFinite (w : W32) : Bool := w.toNat / 2 ^ 23 % 256 ≠ 255
def fZero (w : W32) : Bool := w.toNat % 2 ^ 31 = 0
def fNeg (w : W32) : Bool := 2 ^ 31 ≤ w.toNat && !fZero w
def fPos (w : W32) : Bool := w.toNat < 2 ^ 31 && !fZero w
def fBeta (w : W32) : Bool := !fNeg w && w.toNat % 2 ^ 31 < 0x3F800000
def fFactor (w : W32) : Bool := fPos w && w.toNat ≤ 0x3F800000

/-- A coefficient an entry uses passes its test; one it does not use is zero (R145). -/
def coeffOk (used : Bool) (w : W32) (test : W32 → Bool) : Bool := if used then fFinite w && test w else fZero w

def groupOk (s : State) (b : List Byte) (g : Group) : Bool :=
  let block := g.rule = 2
  (outside 0 groupMask b).isEmpty && g.rule ≠ 3 && (!g.held || g.rule = 1) && (!block || g.mom) && (g.wfmt = 1 || g.wfmt = 9) &&
    field b 1 4 4 = (if g.mom then 5 else 0) && field b 2 0 4 = (if block then 0xA else 0) && g.stack < 12 && s.glb.hbmStacks.getLsbD g.stack &&
    g.elements % 64 = 0 && (g.mom || g.tidM = 0) && (block || g.tidV = 0) && g.soff % 4096 = 0 && g.lbase % 4096 = 0 && g.cbase % 32 = 0 &&
    coeffOk true g.eta (!fNeg ·) && coeffOk true g.lambda (!fNeg ·) && coeffOk true g.gm fPos && coeffOk g.mom g.b1 fBeta &&
    coeffOk g.mom g.ob1 fFactor && coeffOk block g.b2 fBeta && coeffOk block g.ob2 fFactor && coeffOk block g.eps fPos &&
    coeffOk (!block) g.tmax fPos && coeffOk g.clip g.cmax fPos

def groupsBad (s : State) (img : List Byte) : List Nat :=
  ((groupEntries img).filter fun e =>
    if field e.2 0 0 2 = 0 then e.2.any (· ≠ 0) else !groupOk s e.2 (groupOfEntry e.1 e.2)).map (·.1)

/-! ## Communicators (R227–R231) -/

def commMask : List Byte :=
  masks ([(1, 0x0F), (1, 0x03), (4, 0xFF), (1, 0x0F), (4, 0xFF), (1, 0), (4, 0), (5, 0xFF), (3, 0), (5, 0xFF), (3, 0), (5, 0xFF), (3, 0), (5, 0xFF), (3, 0),
    (5, 0xFF), (3, 0)] ++ (List.replicate 4 [(1, (0x03 : Byte)), (3, 0xFF)]).flatten ++ [(56, 0)])

/-- Bytes that lie within the job's regions; `write`: in regions that are not read-only. -/
def inRegions (rs : List Region) (a n : Nat) (ok : Region → Bool) : Bool :=
  match regionWalk rs (2 * rs.length + 1) a n with | some l => l.all fun r => ok r.1 | none => false

/-- An array lies in the job's regions and a data section covers it (R229, R319). -/
def arrayOk (rs : List Region) (img : List Byte) (a n : Nat) : Bool := inRegions rs a n (fun _ => true) && (arrayAt img a n).isSome

/-- Modules of the job. -/
def jobSize (s : State) : Nat := match s.disc.decl with | some d => prodOf d.lens | none => 1

def noRepeat {α : Type} [BEq α] : List α → Bool
  | [] => true
  | a :: t => !t.contains a && noRepeat t

/-- A multicast group's list (R231). -/
def mcBad (rs : List Region) (img : List Byte) (b : List Byte) (P j : Nat) : Bool :=
  let e := arrayOr img (leAt b 32 5 + 8 * j) 8
  let g := mcGroup img b j
  let l := (List.range g.1).map fun k => leAt (arrayOr img (g.2 + 2 * k) 2) 0 2
  g.1 < 2 || P < g.1 || leAt e 2 2 ≠ 0 || !arrayOk rs img g.2 (2 * g.1) || !noRepeat l || l.any (P ≤ ·)

/-- Landing-map entries that overlap in chunks (R230). -/
def mapsClash : List LandMap → Bool
  | [] => false
  | e :: t => t.any (fun f => overlap e.first e.chunks f.first f.chunks) || mapsClash t

/-- A context that breaks R227–R231. -/
def commBad (t : State) (img : List Byte) (b : List Byte) (c : Comm) : Bool :=
  let rs := t.mem.regions
  let P := commP b
  let nph := field b 1 0 2 + 1
  let ng := leAt b 7 1
  !(outside 0 commMask b).isEmpty || field b 0 0 2 = 3 || P ≤ c.self || !(c.fmt = 0 || c.fmt = 1 || c.fmt = 0xB) ||
    (!c.land && (leAt b 10 2 ≠ 0 || leAt b 40 5 ≠ 0)) || (ng = 0 && leAt b 32 5 ≠ 0) ||
    leAt b 16 5 % 64 ≠ 0 || leAt b 24 5 % 64 ≠ 0 || c.stat % 64 ≠ 0 || !inRegions rs c.stat 64 (fun r => !r.ro) ||
    c.phases.any (fun p => 8 ≤ p.2.1.toNat && p.2.1 ≠ 0xFF) || (List.range 4).any (fun k => nph ≤ k && leAt b (56 + 4 * k) 4 ≠ 0) ||
    prodOf c.lens ≠ P || !arrayOk rs img (leAt b 16 5) (2 * P) || !arrayOk rs img (leAt b 24 5) (4 * P) || c.counts.sum ≠ c.chunkElems ||
    131072 < c.chunkElems * (eltBits c.fmt / 8) || !noRepeat c.members || c.members.any (fun m => jobSize t ≤ m.toNat) ||
    c.members.getD c.self 0 ≠ t.fab.chip || (c.jobwide && P ≠ jobSize t) ||
    (0 < ng && (!arrayOk rs img (leAt b 32 5) (8 * ng) || (List.range ng).any (mcBad rs img b P))) ||
    (c.land && (!arrayOk rs img (leAt b 40 5) (16 * (leAt b 10 1 + 1)) || c.fmt ≠ 0 || c.counts.any (· % 64 ≠ 0) || mapsClash c.landMap ||
      (List.range (leAt b 10 1 + 1)).any fun j =>
        let e := arrayOr img (leAt b 40 5 + 16 * j) 16
        16 ≤ leAt e 5 1 || 128 ≤ leAt e 7 1 || leAt e 12 4 ≠ 0))

def commsBad (t : State) (img : List Byte) : List Nat :=
  ((commEntries img).filter fun e => commBad t img e.2 (commOfEntry img e.1 e.2)).map (·.1) ++
    (match t.coll.comms.find? (·.idx.toNat == commitOf img) with
     | some c => if c.jobwide then [] else [commitOf img]
     | none => [commitOf img])

/-- Groups that a landing map names without a landing buffer, where this module owns elements (R230). -/
def mapGroupsBad (t : State) : List Nat :=
  t.coll.comms.flatMap fun c =>
    if c.counts.getD c.self 0 = 0 then []
    else (c.landMap.filter fun e => t.upd.groups.all (·.idx != e.group)).map (·.group.toNat)

/-! ## Straps (R271–R273) -/

/-- The table as a whole breaks R272. -/
def strapTableBad (st : List Byte) : Bool :=
  let pm := slice st 0 16
  !flag st 16 0 || pm.any (fun p => 8 ≤ p.toNat && p ≠ 0xFF) || (slice st 17 15).any (· ≠ 0) ||
    (List.range 8).any fun n => 4 < (pm.filter fun p => p.toNat == n).length

/-- A lane entry of engine e breaks R272. -/
def laneEntryBad (s : State) (pm : List Byte) (e : Nat) (b : Nat) : Bool :=
  64 ≤ b || (b.testBit 2 && pm.getD (4 * e + b % 4) 0xFF = 0xFF) || (b.testBit 5 && pm.getD (4 * e + b / 8 % 4) 0xFF = 0xFF) ||
    ((b.testBit 2 || b.testBit 5) && !s.glb.engines.getLsbD e)

def strapBad (s : State) (img : List Byte) : List Nat :=
  let st := sectionOf img 2
  (if strapTableBad st then [0] else []) ++
    (List.range 8).filter fun k => (List.range 64).any fun g => laneEntryBad s (slice st 0 16) (g / 16) (leAt st (32 + 64 * k + g) 1)

/-- Plans in which a neighbour's PLAN packet differs (R273). -/
def plansDiffer (t : State) : List Nat := t.opt.planPkts.flatMap fun x => planMismatches t x.1 x.2

/-! ## Loss scale and manifest (R120, R150, R319) -/

def lossBad (m : Manifest) : Bool := !(-126 ≤ m.lf && m.lf ≤ m.l0 && m.l0 ≤ m.lc && m.lc ≤ 126 && m.n ≤ 65535)

/-- Bytes of the norm table (R146). -/
def normBytes (gs : List Group) : Nat := 64 + 32 * (gs.foldl (fun n g => max n (g.idx.toNat + 1)) 0)

def normBad (t : State) (m : Manifest) : Bool :=
  !t.upd.groups.isEmpty &&
    match sidedRegion t.mem.regions 0 with | some r => r.ro || r.size < m.ntab + normBytes t.upd.groups | none => true

/-- Image offsets of what breaks MANIFEST. -/
def manifestBad (t : State) (img : List Byte) : List Nat :=
  let m := manifestOf img
  let rs := t.mem.regions
  let slotBad (a : Nat) : Bool := a % 64 ≠ 0 || !inRegions rs a 64 (fun r => !r.ro)
  (if 256 < m.park then [60] else []) ++ (if slotBad m.ctx then [64] else []) ++ (if slotBad m.crec then [72] else []) ++
    (if normBad t m then [80] else []) ++
    ((dirs img).filter fun d => 4 ≤ d.kind && !inRegions rs d.dest d.len (fun r => if d.kind = 6 then !r.ro else r.ro)).map (·.pos + 16)

end Sys2Proof.Machine
end

