-- ==== Sys2Proof/Machine/Trace.lean ====
section
/-! DEFINITION. The loader's trace of a block (R55, R58–R60, R80, R97), and the checks of single instructions (R319, codes
0x0020–0x002B). -/

namespace Sys2Proof.Machine

/-! ## The trace -/

/-- What an instruction does to the trace. -/
inductive Act where
  | set (r : Fin 16) (d : Desc)
  | adv (r : Fin 16) (restore : Bool) (disp : W32)
  | loop (count : W16) (body : BitVec 10)
  | wait (n : W32)
  | seed (lane : Fin 4)
  | other
deriving DecidableEq, Repr

def AInstr.act : AInstr → Act
  | .setd f => .set f.d (Desc.ofSetd f)
  | .advd d r disp => .adv d r disp
  | .loop n b => .loop n b
  | _ => .other

def XInstr.act : XInstr → Act
  | .setx f => .set f.x (Desc.ofSetx f)
  | .advx x r disp => .adv x r disp
  | .loopx n b => .loop n b
  | .waitc n => .wait n
  | .awls lane _ _ => .seed lane
  | _ => .other

/-- One execution of an instruction: the registers and seeded lanes before it, its issue cycle (R80), whether a loop body holds it. -/
structure Visit where
  idx : Nat
  regs : Vector Desc 16
  lanes : List (Fin 4)
  cycle : Nat
  looped : Bool
deriving DecidableEq, Repr

structure Tracer where
  idx : Nat
  loops : List LoopFrame
  regs : Vector Desc 16
  lanes : List (Fin 4)
  base : Nat
deriving DecidableEq, Repr

def Tracer.start : Tracer := { idx := 0, loops := [], regs := Vector.replicate 16 Desc.reset, lanes := [], base := 0 }

/-- The tracer after an instruction issued at cycle `t`. -/
def Tracer.after (x : Tracer) (t : Nat) (a : Act) : Tracer :=
  let n := loopNext x.idx x.loops
  let y := { x with idx := n.1, loops := n.2, base := t }
  match a with
  | .set r d => { y with regs := y.regs.set r d }
  | .adv r restore disp => { y with regs := vmod y.regs r (·.advance restore disp) }
  | .loop count body =>
    { x with idx := x.idx + 1, base := t, loops := { first := x.idx + 1, last := x.idx + 1 + body.toNat, left := count.toNat } :: x.loops }
  | .wait k => { y with base := t + k.toNat + 1 }
  | .seed lane => { y with lanes := if y.lanes.contains lane then y.lanes else lane :: y.lanes }
  | .other => y

def traceFrom (acts : List (Nat × Act)) : Nat → Tracer → List Visit
  | 0, _ => []
  | fuel + 1, x =>
    match acts[x.idx]? with
    | none => []
    | some (delta, a) =>
      let t := x.base + delta
      { idx := x.idx, regs := x.regs, lanes := x.lanes, cycle := t, looped := !x.loops.isEmpty } :: traceFrom acts fuel (x.after t a)

/-- At least the executions of a block, loops counted in full. -/
def traceFuel (acts : List (Nat × Act)) : Nat :=
  acts.foldl (fun n a => match a.2 with | .loop c _ => n * (c.toNat + 1) | _ => n) (acts.length + 1)

def trace (acts : List (Nat × Act)) : List Visit := traceFrom acts (traceFuel acts) Tracer.start

/-- A segment with its decoded blocks and their traces. An undecodable instruction is none. -/
structure Traced where
  seg : ImgSeg
  access : List (Option AInstr)
  execute : List (Option (W16 × XInstr))
  avisits : List Visit
  xvisits : List Visit
deriving DecidableEq, Repr

def traced (g : ImgSeg) : Traced :=
  let a := g.access.map decodeAccess
  let x := g.execute.map decodeExecute
  { seg := g, access := a, execute := x,
    avisits := trace (a.map fun i => (0, match i with | some i => i.act | none => .other)),
    xvisits := trace (x.map fun i => match i with | some i => (i.1.toNat, i.2.act) | none => (0, .other)) }

/-- An instruction with its bytes and its first execution. -/
def firsts {α : Type} (is : List (Option α)) (raw : List (List Byte)) (vs : List Visit) : List (Nat × List Byte × α × Visit) :=
  (is.zip raw).zipIdx.filterMap fun x =>
    match x.1.1, vs.find? (·.idx == x.2) with
    | some i, some v => some (x.2, x.1.2, i, v)
    | _, _ => none

/-- Every execution of every instruction with its bytes: loops can bring an instruction back with other descriptors. -/
def everies {α : Type} (is : List (Option α)) (raw : List (List Byte)) (vs : List Visit) : List (Nat × List Byte × α × Visit) :=
  vs.filterMap fun v =>
    match is[v.idx]?, raw[v.idx]? with
    | some (some i), some b => some (v.idx, b, i, v)
    | _, _ => none

/-! ## Both streams -/

/-- Loop bodies that break R60. -/
def loopsBad (acts : List Act) : List Nat :=
  (acts.zipIdx.foldl (fun (x : List Nat × List Nat) a =>
    let open_ := x.1.filter (a.2 ≤ ·)
    match a.1 with
    | .loop _ body =>
      let e := a.2 + 1 + body.toNat
      (e :: open_, if 4 ≤ open_.length || acts.length ≤ e || (open_.head?).any (· < e) then a.2 :: x.2 else x.2)
    | _ => (open_, x.2)) ([], [])).2

/-- A descriptor that R56 or R57 refuses (R82 for the execute stream). -/
def Desc.fieldBad (d : Desc) : Bool :=
  12 ≤ d.format.toNat || d.space = 3 || (d.space ≠ 2 && d.chip ≠ 0) || (d.space = 0 && 2 ^ 23 ≤ d.base0.toNat) ||
    (d.ndim.toNat < 1 && (d.size1 ≠ 0 || d.stride1 ≠ 0)) || (d.ndim.toNat < 2 && (d.size2 ≠ 0 || d.stride2 ≠ 0)) ||
    (d.ndim.toNat < 3 && (d.size3 ≠ 0 || d.stride3 ≠ 0)) || (d.format = 6 && d.n0 % 4 ≠ 0) || (d.format = 7 && d.n0 % 2 ≠ 0) ||
    (d.space = 0 && (2 ^ 23 ≤ d.stride1.toNat || 2 ^ 23 ≤ d.stride2.toNat || 2 ^ 23 ≤ d.stride3.toNat))

/-- A static region of a push that reaches beyond the scratchpad (R33). -/
def pushBeyond (lim : Nat) (f : PushOp) : Bool := f.form1 && lim < f.base.toNat + f.length.toNat + 1

/-- Codes with their conditions. -/
def codes (l : List (Nat × Bool)) : List Nat := (l.filter (·.2)).map (·.1)

/-! ## The access stream (R52–R72) -/

/-- The sides of a COLL that are read and written at this module (R232). -/
def sidesOf (t : State) (op : BitVec 4) (c : CollOp) : Bool × Bool :=
  match commOf t c.comm with | some m => collSides m op c.param | none => (true, true)

def AInstr.named (t : State) : AInstr → List (Fin 16)
  | .advd d _ _ => [d]
  | .push f => if f.form1 then [] else [f.reg]
  | .waitf _ r _ => [r]
  | .move (.coll op c) m => (if (sidesOf t op c).1 then [m.src] else []) ++ if (sidesOf t op c).2 then [m.dst] else []
  | .move (.land _) m => [m.src]
  | .move _ m => [m.src, m.dst] ++ if m.ix then [m.aux] else []
  | _ => []

/-- The spaces of the operands (R63). -/
def spacesOk (k : MoveKind) (src dst : Desc) : Bool :=
  let s := src.space
  let d := dst.space
  match k with
  | .ldh | .gath => s = 1 && d = 0
  | .sth | .scat => s = 0 && d = 1
  | .movs => s = 0 && d = 0
  | .rget => s = 2 && (d = 0 || d = 1)
  | .rput => (s = 0 || s = 1) && d = 2
  | .atom _ => s = 0 && (d = 1 || d = 2)
  | .land _ => s = 0
  | .coll _ _ => true

/-- Index lists (R63). -/
def ixOk (k : MoveKind) (ix : Bool) : Bool := match k with | .gath | .scat => ix | .atom _ => true | _ => !ix

def atomFormatOk (op fmt : BitVec 4) : Bool := fmt = 0xB || (op ≠ 3 && (fmt = 0 || fmt = 1))

/-- An index list over a table, with the dense side holding its rows (R65). -/
def indexedOk (table dense aux : Desc) : Bool :=
  table.ndim = (1 : BitVec 2) && aux.ndim = (0 : BitVec 2) && aux.space = (0 : BitVec 2) && aux.format = (0xB : BitVec 4) &&
    dense.count = aux.count * table.n0

/-- Formats, counts and shapes of the operands of a move (R57, R64–R67). -/
def shapesOk (k : MoveKind) (m : MoveOp) (src dst aux : Desc) : Bool :=
  let same := src.format = dst.format
  match k with
  | .land _ => src.format = 0
  | .coll _ _ => true
  | .gath => same && indexedOk src dst aux
  | .scat => same && indexedOk dst src aux
  | .atom op => atomFormatOk op src.format && same && (if m.ix then indexedOk dst src aux else src.count = dst.count)
  | _ => same && src.count = dst.count

/-- What R68 and R57 refuse of a COLL. -/
def collFieldBad (t : State) (op : BitVec 4) (c : CollOp) (src dst : Desc) : Bool :=
  let sd := sidesOf t op c
  7 ≤ op.toNat || (commOf t c.comm).isNone || (sd.1 && src.valid && src.space ≠ 1) || (sd.2 && dst.valid && dst.space ≠ 1) ||
    ((op = 1 || 3 ≤ op.toNat) && op ≠ 6 && sd.1 && sd.2 && src.valid && dst.valid && src.format ≠ dst.format)

def accessFieldBad (t : State) (b : List Byte) (i : AInstr) (v : Visit) : Bool :=
  match i with
  | .setd f => (Desc.ofSetd f).fieldBad
  | .push f => !f.form1 && v.regs[f.reg].valid && v.regs[f.reg].space ≠ 0
  | .waitf _ r _ => v.regs[r].valid && (v.regs[r].space ≠ 1 || v.regs[r].format ≠ 0xB)
  | .move k m =>
    let src := v.regs[m.src]
    let dst := v.regs[m.dst]
    let aux := v.regs[m.aux]
    let set := src.valid && (match k with | .land _ => true | _ => dst.valid) && (!m.ix || aux.valid)
    (m.wtok ≠ 0 && !m.we) || (m.dtok ≠ 0 && !m.de) || !ixOk k m.ix || (m.aux ≠ 0 && !m.ix) ||
      (match k with
       | .atom op => 4 ≤ op.toNat
       | .coll op c => collFieldBad t op c src dst
       | .land _ => m.dst ≠ 0 || field b 7 4 4 ≠ 0
       | _ => field b 7 4 4 ≠ 0) ||
      (set && (!spacesOk k src dst || !shapesOk k m src dst aux))
  | _ => false

/-- A static scratchpad range that R27, R33 or R64 refuses. -/
def accessSpadBad (lim : Nat) (i : AInstr) (v : Visit) : Bool :=
  match i with
  | .push f => pushBeyond lim f
  | .move k m =>
    let src := v.regs[m.src]
    let dst := v.regs[m.dst]
    (spadChecks lim ((moveSpad k m src dst v.regs[m.aux]).filter (·.valid))).isSome ||
      (match k with
       | .movs => src.valid && dst.valid && overlap src.start.toNat src.extent dst.start.toNat dst.extent
       | _ => false)
  | _ => false

/-- A static HBM range that R58 refuses: the checks of R74 in space 1, the width in space 2. -/
def operandBad (t : State) (d : Desc) (write align : Bool) : Bool :=
  if !d.valid then false
  else if d.space = 1 then (hbmCheck t d write align).isSome
  else d.space = 2 && decide ((2 ^ 40 : Int) < d.start + d.extent)

def staticAligned (m : MoveOp) (dst : Desc) : Bool :=
  m.ix || dst.rows.all fun o => atomBytes dst.format = 0 || (dst.start.toNat + o) % atomBytes dst.format = 0

def accessHbmBad (t : State) (i : AInstr) (v : Visit) : Bool :=
  match i with
  | .waitf _ r _ =>
    let d := v.regs[r]
    d.valid && d.space = 1 && (d.start < 0 || (hbmCause t d.start.toNat 4 false (d.start.toNat % 4 == 0)).isSome)
  | .move k m =>
    let src := v.regs[m.src]
    let dst := v.regs[m.dst]
    match k with
    | .land _ => false
    | .coll op c => ((sidesOf t op c).1 && operandBad t src false true) || ((sidesOf t op c).2 && operandBad t dst true true)
    | .atom _ => operandBad t dst true (staticAligned m dst)
    | _ => operandBad t src false true || operandBad t dst true true
  | _ => false

def accessTokenBad (i : AInstr) : Bool :=
  match i with
  | .push f => f.token = 0
  | .move _ m => (m.we && m.wtok = 0) || (m.de && m.dtok = 0)
  | _ => false

/-- The codes under which an access instruction is refused at its first execution; its fields are checked at every execution. -/
def accessCodes (t : State) (i : AInstr) (v : Visit) : List Nat :=
  codes [(0x23, (i.named t).any fun r => !v.regs[r].valid), (0x24, accessSpadBad (spadOpen t) i v),
    (0x25, accessHbmBad t i v), (0x2B, accessTokenBad i)]

/-! ## The execute stream (R79–R98) -/

/-- A core with the shapes of a segment and the registers of a visit, to ask the stream's own operations. -/
def coreAt (g : ImgSeg) (v : Visit) : Core :=
  { Core.reset with engines := Vector.ofFn fun e => engineOf (g.shapes.getD e.val (32, 16, 0)), exec := { Execute.reset with desc := v.regs } }

def isReg (f : BitVec 5) : Bool := f.toNat < 16
def isLink (f : BitVec 5) : Bool := 16 ≤ f.toNat && f.toNat < 20
def isNone (f : BitVec 5) : Bool := f = 0x1F

/-- A field accepts what it names. -/
def accepts (f : BitVec 5) (reg link none : Bool) : Bool := (reg && isReg f) || (link && isLink f) || (none && isNone f)

/-- Conversion targets of float values and of INT32 slots (R111). -/
def floatTarget (fmt : BitVec 4) : Bool := fmt.toNat ≤ 7 || fmt = 9 || fmt = 0xA
def intTarget (fmt : BitVec 4) : Bool := fmt = 0xB || fmt = 8 || fmt = 0

/-- Operand pairs and their accumulators (R105). -/
def pairOk (fa fb acc : BitVec 4) : Bool :=
  if fa = 8 && fb = 8 then acc = 0xB
  else (acc = 0 || acc = 0xC) &&
    ((fa = fb && (fa = 1 || fa = 2 || fa = 7 || fa = 9)) || ((fa = 3 || fa = 4) && (fb = 3 || fb = 4)) || ((fa = 5 || fa = 6) && (fb = 5 || fb = 6)))

def XInstr.named : XInstr → List (Fin 16)
  | .advx x _ _ => [x]
  | .pushe f => if f.form1 then [] else [f.reg]
  | .mma f => regs [f.a, f.b, f.as, f.bs]
  | .drn f => regs ((if f.dest = 0 then [f.out] else []) ++ if blockSize f.fmt = 0 then [] else [f.sc])
  | .vop f => regs (f.dst :: (if f.conv && blockSize f.fmt ≠ 0 then [f.sc] else []) ++ vopInputs f)
  | .rst f => regs (rstInputs f ++ f.st :: if f.mode = 2 then [f.dst] else [])
  | .xps f => regs [f.src, f.dst]
  | .cenf _ d _ => [d]
  | _ => []
where
  regs (fs : List (BitVec 5)) : List (Fin 16) := fs.filterMap fun f => match opnd f with | .reg r => some r | _ => none

/-- The register a field names, if it has been set. -/
def setReg (v : Visit) (f : BitVec 5) : Option Desc :=
  match opnd f with | .reg r => if v.regs[r].valid then some v.regs[r] else none | _ => none

/-- A field names a set register that fails a test. -/
def regBadIf (v : Visit) (f : BitVec 5) (p : Desc → Bool) : Bool := (setReg v f).any p

def mmaFieldBad (b : List Byte) (f : MmaOp) : Bool :=
  field b 3 0 2 = 3 || (f.ta && f.eng ≠ 2) || (f.tb && f.eng ≠ 1) || !accepts f.a true true false || !accepts f.b true true false ||
    !accepts f.as (blockSize f.fa ≠ 0) false (blockSize f.fa = 0) || !accepts f.bs (blockSize f.fb ≠ 0) false (blockSize f.fb = 0)

/-- Fields a destination does not use are zero (R87). -/
def drnUnusedBad (f : DrnOp) : Bool :=
  let tree := 2 ≤ f.dest.toNat
  let chip := 3 ≤ f.dest.toNat
  (!tree && (f.half || f.q ≠ 0 || f.rtok ≠ 0 || f.mmask ≠ 0 || f.op ≠ 0)) || (f.dest ≠ 2 && f.recv ≠ 0) ||
    (!chip && (f.cmask ≠ 0 || f.commGroup ≠ 0 || f.chunkMb ≠ 0)) || (f.dest ≠ 4 && f.offset ≠ 0)

def drnFieldBad (b : List Byte) (e : Engine) (v : Visit) (f : DrnOp) : Bool :=
  let n := e.m * e.n
  field b 3 0 2 = 3 || 5 ≤ f.dest.toNat || (3 ≤ f.dest.toNat && f.eng ≠ 2) || (2 ≤ f.dest.toNat && f.fmt ≠ 0) || drnUnusedBad f ||
    !(match f.dest.toNat with | 0 => isReg f.out | 1 => isLink f.out | _ => isNone f.out || f.out = 0) ||
    !(if blockSize f.fmt = 0 then isNone f.sc || f.sc = 0 else isReg f.sc) ||
    (f.dest = 0 && regBadIf v f.out fun d => d.format ≠ f.fmt || d.count ≠ n) ||
    (blockSize f.fmt ≠ 0 && regBadIf v f.sc fun d => d.count * blockSize f.fmt ≠ n)

/-- Element counts of a VOP whose first source is a register do not fit together (R92, log entry 33). -/
def vopCountsBad (v : Visit) (f : VopOp) : Bool :=
  match setReg v f.src0 with
  | none => false
  | some a =>
    let n := a.count
    let rows := n / a.n0
    let fit := match f.bc.toNat with | 1 => rows | 2 => a.n0 | _ => n
    (vopNeeds1 f && regBadIf v f.src1 (·.count ≠ fit)) || (vopNeeds2 f && regBadIf v f.src2 (·.count ≠ if f.op = 0x10 then rows else fit)) ||
      regBadIf v f.dst (·.count ≠ if isRowOp f then rows else n)

def blockOrReserved (fmt : BitVec 4) : Bool := blockSize fmt ≠ 0 || 12 ≤ fmt.toNat

/-- Elements of a VOP's output, where a register gives them. -/
def vopOut (v : Visit) (f : VopOp) : Option Nat :=
  match setReg v f.dst, setReg v f.src0 with | some d, _ => some d.count | none, some a => some a.count | none, none => none

def vopFieldBad (v : Visit) (f : VopOp) : Bool :=
  let srcs := vopInputs f
  let block := f.conv && blockSize f.fmt ≠ 0
  0x11 ≤ f.op.toNat || 4 ≤ f.bc.toNat || !accepts f.src0 true true false ||
    !accepts f.src1 true (vopNeeds1 f) (!vopNeeds1 f) || !accepts f.src2 true (vopNeeds2 f) (!vopNeeds2 f) || !accepts f.dst true true false ||
    1 < (srcs.filter isLink).length || (srcs.any isLink && blockOrReserved f.lfmt) || srcs.any (fun x => regBadIf v x fun d => blockSize d.format ≠ 0) ||
    regBadIf v f.dst (·.format ≠ f.fmt) || vopCountsBad v f ||
    (if f.conv then false else !(f.fmt = 0 || f.fmt = 1 || f.fmt = 2) || f.rnd || f.cen) ||
    (if block then !isReg f.sc || (f.axis && isLink f.dst) ||
        regBadIf v f.sc fun d => d.format ≠ 8 || (vopOut v f).any fun n => d.count ≠ (n + blockSize f.fmt - 1) / blockSize f.fmt
     else !isNone f.sc)

def rstFieldBad (v : Visit) (f : RstOp) : Bool :=
  let smp := f.mode = 2
  let two := f.mode = 5
  let srcs := rstInputs f
  6 ≤ f.mode.toNat || !accepts f.src0 true true (f.mode = 1) || !accepts f.src1 true two (!two) || !isReg f.st || !accepts f.dst true smp (!smp) ||
    (srcs.any isLink && (blockOrReserved f.lfmt || 8 * 65536 < rstN f * eltBits f.lfmt)) ||
    srcs.any (fun x => regBadIf v x fun d => blockSize d.format ≠ 0 || d.count ≠ rstN f) ||
    regBadIf v f.st (fun d => d.format ≠ 0 || d.n0 ≠ 2 || d.size1 ≠ f.rows || d.size2 ≠ 0 || d.size3 ≠ 0 || d.stride1.toNat < 8) ||
    (smp && (blockSize f.fmt ≠ 0 || regBadIf v f.dst fun d => d.format ≠ f.fmt || d.count ≠ rstN f))

def xpsFieldBad (v : Visit) (f : XpsOp) : Bool :=
  let n := (f.rows.toNat + 1) * (f.cols.toNat + 1)
  eltBits f.fmt < 8 || !accepts f.src true true false || !accepts f.dst true true false ||
    [f.src, f.dst].any fun x => regBadIf v x fun d => d.format ≠ f.fmt || d.count ≠ n

def executeFieldBad (b : List Byte) (g : ImgSeg) (i : XInstr) (v : Visit) : Bool :=
  match i with
  | .setx f => (Desc.ofSetx f).fieldBad
  | .mma f => mmaFieldBad b f
  | .drn f => drnFieldBad b ((coreAt g v).engines[f.eng]) v f
  | .tacc _ => field b 3 0 2 = 3
  | .vop f => vopFieldBad v f
  | .rst f => rstFieldBad v f
  | .xps f => xpsFieldBad v f
  | .cenf _ d _ => 16 ≤ field b 4 0 5 || (v.regs[d].valid && v.regs[d].extent ≠ 32)
  | _ => false

/-- A lane that rounds stochastically before any AWLS of the block (R97). -/
def laneUnset (i : XInstr) (v : Visit) : Bool :=
  let bad (l : Nat) : Bool := !v.lanes.any (·.val == l)
  match i with
  | .drn f => f.rnd && bad f.eng.val
  | .vop f => f.rnd && bad 3
  | .rst f => f.rnd && bad 3
  | _ => false

def executeSpadBad (lim : Nat) (g : ImgSeg) (i : XInstr) (v : Visit) : Bool :=
  match i with
  | .pushe f => pushBeyond lim f
  | _ => (spadChecks lim ((xPlan (coreAt g v) i 0).regs.filter (·.valid))).isSome

/-- One operand of a product that R86 refuses: `d0`, `d1` the shape its orientation needs. A register counts as two-dimensional by its
counts: further dimensions of one element, or K = 1 without a second dimension, are not refused (log entry 97). -/
def feedBad (v : Visit) (x sc : BitVec 5) (fmt : BitVec 4) (k d0 d1 : Nat) : Bool :=
  let blk := blockSize fmt
  regBadIf v x (fun d => d.format ≠ fmt || d.n0 ≠ d0 || d.n1 ≠ d1 || d.size2 ≠ 0 || d.size3 ≠ 0) || (blk ≠ 0 && k % blk ≠ 0) ||
    (isLink x && 8 * 65536 < d0 * d1 * eltBits fmt) || (blk ≠ 0 && regBadIf v sc fun d => d.count * blk ≠ d0 * d1)

def formatPairBad (g : ImgSeg) (i : XInstr) (v : Visit) : Bool :=
  match i with
  | .mma f =>
    let e := (coreAt g v).engines[f.eng]
    let k := f.k.toNat + 1
    !pairOk f.fa f.fb e.acc || feedBad v f.a f.as f.fa k (if f.ta then e.m else k) (if f.ta then k else e.m) ||
      feedBad v f.b f.bs f.fb k (if f.tb then k else e.n) (if f.tb then e.n else k)
  | .drn f => if (coreAt g v).engines[f.eng].acc = 0xB then !intTarget f.fmt else !floatTarget f.fmt
  | .vop f => f.conv && !floatTarget f.fmt
  | .rst f => f.mode = 2 && !floatTarget f.fmt
  | _ => false

/-- A slot at or above the engine's count, or owner token 0 (R41, R42). -/
def tileBad (g : ImgSeg) (i : XInstr) : Bool :=
  let ov (e : Fin 3) (n : BitVec 5) : Bool :=
    let sh := g.shapes.getD e.val (32, 16, 0)
    slotCount sh.1 sh.2.1 sh.2.2 ≤ n.toNat
  match i with
  | .mma f => ov f.eng f.slot || f.own = 0
  | .drn f => ov f.eng f.slot
  | .tacc f => ov f.eng f.slot || f.own = 0
  | _ => false

def treeInLoop (i : XInstr) (v : Visit) : Bool := match i with | .drn f => 3 ≤ f.dest.toNat && v.looped | _ => false

def executeTokenBad (i : XInstr) : Bool :=
  match i with
  | .pushe f => f.token = 0
  | .drn f => 2 ≤ f.dest.toNat && f.rtok = 0
  | .tacc f => f.atok = 0
  | _ => false

/-- A communicator number has ten bits (R87). -/
def commReserved (i : XInstr) : Bool := match i with | .drn f => f.dest = 3 && 1024 ≤ f.commGroup.toNat | _ => false

/-- A reserved code in a format field, used or not (R10, R14); a descriptor's is R57's. -/
def formatReserved (i : XInstr) : Bool :=
  let res (f : BitVec 4) : Bool := 13 ≤ f.toNat
  match i with
  | .mma f => res f.fa || res f.fb
  | .drn f => res f.fmt
  | .vop f => res f.fmt || res f.lfmt
  | .rst f => res f.fmt || res f.lfmt
  | .xps f => res f.fmt
  | _ => false

/-- The codes under which an execute instruction is refused at its first execution. -/
def executeCodes (lim : Nat) (g : ImgSeg) (i : XInstr) (v : Visit) : List Nat :=
  codes [(0x21, commReserved i || formatReserved i), (0x23, i.named.any (fun r => !v.regs[r].valid) || laneUnset i v), (0x24, executeSpadBad lim g i v),
    (0x29, tileBad g i), (0x2A, treeInLoop i v), (0x2B, executeTokenBad i)]

/-- The codes under which an execute instruction is refused at any of its executions: its descriptors may have changed. -/
def executeFormCodes (b : List Byte) (g : ImgSeg) (i : XInstr) (v : Visit) : List Nat :=
  codes [(0x22, executeFieldBad b g i v), (0x28, formatPairBad g i v)]

/-! ## Whole execute blocks (R42, R80, R89, R131) -/

def visitInstrs (x : Traced) : List (Visit × XInstr) :=
  x.xvisits.filterMap fun v => match x.execute[v.idx]? with | some (some i) => some (v, i.2) | _ => none

/-- Executions that break the issue limits of R80; the units already issued in the cycle are carried along. -/
def issueBad (l : List (Visit × XInstr)) : List Nat :=
  (l.foldl (fun (x : Nat × List Nat × List Nat) e =>
    let units := if x.1 = e.1.cycle then x.2.1 else []
    let u := e.2.port
    (e.1.cycle, u :: units, if 4 ≤ units.length || units.contains u then e.1.idx :: x.2.2 else x.2.2)) (0, [], [])).2.2

/-- Tree drains whose half or identifier is still waiting for the POPE of its release token (R89, R131). -/
def treeReuseBad (l : List (Visit × XInstr)) : List Nat :=
  (l.foldl (fun (x : List ((Bool ⊕ Byte) × Fin 4 × Token) × List Nat) e =>
    match e.2 with
    | .pope q t => (x.1.filter fun p => !(p.2.1 == q && p.2.2 == t), x.2)
    | .drn f =>
      if 2 ≤ f.dest.toNat then
        let keys : List (Bool ⊕ Byte) := [.inl f.half, .inr f.op]
        (keys.map (fun k => (k, f.q, f.rtok)) ++ x.1.filter (fun p => !keys.contains p.1),
         if x.1.any fun p => keys.contains p.1 then e.1.idx :: x.2 else x.2)
      else x
    | _ => x) ([], [])).2

/-- A slot is started and not released at the end of the block (R42). -/
def slotsLeft (l : List (Visit × XInstr)) : Bool :=
  !(l.foldl (fun (x : List (Fin 3 × BitVec 5)) e =>
    match e.2 with
    | .mma f => if f.cont then x else (f.eng, f.slot) :: x.filter (· ≠ (f.eng, f.slot))
    | .tacc f => if f.cont then x else (f.eng, f.slot) :: x.filter (· ≠ (f.eng, f.slot))
    | .drn f => if f.rel then x.filter (· ≠ (f.eng, f.slot)) else x
    | _ => x) []).isEmpty

/-- The link and block format of a matrix operand taken from a link. -/
def blockLink (x : BitVec 5) (fmt : BitVec 4) : Option (Fin 4) :=
  match opnd x with | .link l => if blockSize fmt = 0 then none else some l | _ => none

/-- Products that take a block-format VOP's beats from a link and do not name its scale register (R92). -/
def linkScalesBad (l : List (Visit × XInstr)) : List Nat :=
  l.filterMap fun e =>
    let wrong (x sc : BitVec 5) (fmt : BitVec 4) : Bool := match blockLink x fmt with
      | none => false
      | some k => l.any fun p => match p.2 with
        | .vop f => f.conv && blockLink f.dst f.fmt == some k && p.1.cycle + vopLat f == e.1.cycle && f.sc ≠ sc
        | _ => false
    match e.2 with
    | .mma f => if wrong f.a f.as f.fa || wrong f.b f.bs f.fb then some e.1.idx else none
    | _ => none

def shapesBad (g : ImgSeg) : Bool := g.shapes.any fun sh => !(sh.2.2 = 0 || sh.2.2 = 0xB || sh.2.2 = 0xC)

/-- The failures of one segment's instructions: code and item. -/
def segmentFails (t : State) (x : Traced) : List (Nat × Nat) :=
  let g := x.seg
  let at_ (kind i : Nat) : Nat := instrItem kind g.core g.idx i
  let raws (kind : Nat) (m : Nat → Option (List Byte)) (l : List (List Byte)) : List (Nat × Nat) :=
    l.zipIdx.flatMap fun b => match m (byteOf b.1 0) with
      | none => [(0x20, at_ kind b.2)]
      | some k => if (outside 0 k b.1).isEmpty then [] else [(0x21, at_ kind b.2)]
  let vi := visitInstrs x
  raws 2 accessMask g.access ++ raws 3 executeMask g.execute ++
    (firsts x.access g.access x.avisits).flatMap (fun e => (accessCodes t e.2.2.1 e.2.2.2).map fun c => (c, at_ 2 e.1)) ++
    (everies x.access g.access x.avisits).flatMap (fun e => if accessFieldBad t e.2.1 e.2.2.1 e.2.2.2 then [(0x22, at_ 2 e.1)] else []) ++
    (firsts x.execute g.execute x.xvisits).flatMap (fun e => (executeCodes (spadOpen t) g e.2.2.1.2 e.2.2.2).map fun c => (c, at_ 3 e.1)) ++
    (everies x.execute g.execute x.xvisits).flatMap (fun e => (executeFormCodes e.2.1 g e.2.2.1.2 e.2.2.2).map fun c => (c, at_ 3 e.1)) ++
    (linkScalesBad vi).map (fun i => (0x22, at_ 3 i)) ++
    (loopsBad (x.access.map fun i => match i with | some i => i.act | none => .other)).map (fun i => (0x26, at_ 2 i)) ++
    (loopsBad (x.execute.map fun i => match i with | some i => i.2.act | none => .other)).map (fun i => (0x26, at_ 3 i)) ++
    (issueBad vi).map (fun i => (0x27, at_ 3 i)) ++ (treeReuseBad vi).map (fun i => (0x2A, at_ 3 i)) ++
    (if shapesBad g || slotsLeft vi then [(0x29, segItem g)] else [])

end Sys2Proof.Machine
end

