-- ==== Sys2Proof/Machine/Check.lean ====
section
/-! DEFINITION. The loader's checks across instructions and segments (R35, R36, R44–R46, R67, R89, R129, R229–R232, R272; R319,
codes 0x002A and 0x0030–0x0045). -/

namespace Sys2Proof.Machine

/-! ## Tokens (R35, R36) -/

/-- What an instruction does to the queues of its core, numbered AQ0–AQ3, EQ0–EQ3: `push` takes place at completion, `hold`
holds its stream for room, `part` is a token of the part's own. -/
inductive TokOp where
  | pop (q : Fin 8) (t : Token)
  | push (q : Fin 8) (t : Token)
  | hold (q : Fin 8) (t : Token)
  | part (q : Fin 8) (t : Token)
  | fence
deriving DecidableEq, Repr

def aqNo (q : Fin 4) : Fin 8 := ⟨q.val, by omega⟩
def eqNo (q : Fin 4) : Fin 8 := ⟨q.val + 4, by omega⟩

def AInstr.tokens : AInstr → List TokOp
  | .pop q t => [.pop (eqNo q) t]
  | .push f => [.push (aqNo f.q) f.token]
  | .fence => [.fence]
  | .move k m =>
    (if m.we then [.pop (eqNo m.wq) m.wtok] else []) ++ (match k with | .coll op _ => if op = 6 then [.fence] else [] | _ => []) ++
      if m.de then [.push (aqNo m.dq) m.dtok] else []
  | _ => []

def XInstr.tokens : XInstr → List TokOp
  | .pushe f => [.hold (eqNo f.q) f.token]
  | .pope q t => [.pop (aqNo q) t]
  | .drn f => if 2 ≤ f.dest.toNat then [.part (aqNo f.q) f.rtok] else []
  | .tacc f => [.part (aqNo f.q) f.atok]
  | _ => []

def visitAccess (x : Traced) : List (Visit × AInstr) :=
  x.avisits.filterMap fun v => match x.access[v.idx]? with | some (some i) => some (v, i) | _ => none

/-- Both streams' token operations over every iteration of every loop. -/
def accessTokens (x : Traced) : List TokOp := (visitAccess x).flatMap (·.2.tokens)
def executeTokens (x : Traced) : List TokOp := (visitInstrs x).flatMap (·.2.tokens)

def isPop (q : Fin 8) (t : Token) (o : TokOp) : Bool := o = .pop q t
def isOwn (q : Fin 8) (t : Token) (o : TokOp) : Bool := o = .push q t || o = .hold q t
def isPart (q : Fin 8) (t : Token) (o : TokOp) : Bool := o = .part q t

def TokOp.key : TokOp → Option (Fin 8 × Token)
  | .pop q t | .push q t | .hold q t | .part q t => some (q, t)
  | .fence => none

/-- R36: pops exceed all pushes, or fall short of the program's own. -/
def unbalanced (l : List TokOp) : Bool :=
  (l.filterMap TokOp.key).any fun k =>
    let pops := l.countP (isPop k.1 k.2)
    let own := l.countP (isOwn k.1 k.2)
    own + l.countP (isPart k.1 k.2) < pops || pops < own

/-- The walk of R35: both streams, the queues, the done pushes not yet made in program order, the part's own not yet made. -/
structure Walk where
  a : List TokOp
  x : List TokOp
  queues : Vector (List Token) 8
  moves : List (Fin 8 × Token)
  parts : List (Fin 8 × Token)
deriving DecidableEq, Repr

def Walk.room (w : Walk) (q : Fin 8) : Bool := w.queues[q].length < 16

def Walk.put (w : Walk) (q : Fin 8) (t : Token) : Walk := { w with queues := vmod w.queues q (· ++ [t]) }

/-- One move of the execute stream; none when it waits. -/
def Walk.stepX (w : Walk) : Option Walk :=
  match w.x with
  | .pop q _ :: rest => match w.queues[q] with | [] => none | _ :: l => some { w with x := rest, queues := w.queues.set q l }
  | .hold q t :: rest => if w.room q then some { w.put q t with x := rest } else none
  | .part q t :: rest => some { w with x := rest, parts := w.parts ++ [(q, t)] }
  | _ :: rest => some { w with x := rest }
  | [] => none

/-- One issue of the access stream; a 33rd instruction in flight waits (R54). -/
def Walk.stepA (w : Walk) : Option Walk :=
  if 32 ≤ w.moves.length then none
  else
    match w.a with
    | .pop q _ :: rest => match w.queues[q] with | [] => none | _ :: l => some { w with a := rest, queues := w.queues.set q l }
    | .push q t :: rest => some { w with a := rest, moves := w.moves ++ [(q, t)] }
    | .fence :: rest => if w.moves.isEmpty then some { w with a := rest } else none
    | _ :: rest => some { w with a := rest }
    | [] => none

/-- The access stream's pending pushes that may come next: the first of each queue that has room (R62). -/
def Walk.moveChoices (w : Walk) : List (Fin 8 × Token) :=
  (w.moves.zipIdx.filter fun p => w.room p.1.1 && !(w.moves.take p.2).any (·.1 == p.1.1)).map (·.1)

/-- The part's own pending pushes that may come next: the trees finish in any order (R89, R90). -/
def Walk.partChoices (w : Walk) : List (Fin 8 × Token) := (w.parts.filter fun p => w.room p.1).eraseDups

/-- The part itself pushes, now or later, onto a queue. -/
def Walk.contested (w : Walk) (q : Fin 8) : Bool :=
  w.parts.any (·.1 == q) || w.x.any fun o => match o with | .part p _ => p == q | _ => false

/-- The pushes that may come next: the access stream's alone where nothing else pushes onto the queue, and else every one. -/
def Walk.pushes (w : Walk) : List Walk :=
  let ms := w.moveChoices
  let move (p : Fin 8 × Token) : Walk := { w.put p.1 p.2 with moves := w.moves.erase p }
  match ms.find? fun p => !w.contested p.1 with
  | some p => [move p]
  | none => ms.map move ++ w.partChoices.map fun p => { w.put p.1 p.2 with parts := w.parts.erase p }

/-- The head entry carries another token than a stream expects: a fault at run time, not a cycle (R35). -/
def Walk.order (w : Walk) : Bool :=
  let wrong (l : List TokOp) : Bool := match l with
    | .pop q t :: _ => (w.queues[q].head?).any (· ≠ t)
    | _ => false
  wrong w.a || wrong w.x

/-- A state is reachable in which both streams wait for each other. Waits across cores and modules end at any time, so every order of
the pushes onto a queue is walked; a stream that can go on goes on, which takes no order away (log entry 32). A wrong head is a fault at
run time and ends its own order only. -/
def Walk.stuck : Nat → Walk → Bool
  | 0, _ => false
  | fuel + 1, w =>
    if w.order then false
    else match w.stepX.orElse fun _ => w.stepA with
      | some v => Walk.stuck fuel v
      | none => match w.pushes with
        | [] => !w.a.isEmpty && !w.x.isEmpty
        | l => l.any (Walk.stuck fuel)

/-- R35: the segment can reach a state in which each stream waits for the other. -/
def tokenCycle (x : Traced) : Bool :=
  let a := accessTokens x
  let e := executeTokens x
  Walk.stuck (3 * (a.length + e.length) + 1) { a := a, x := e, queues := Vector.replicate 8 [], moves := [], parts := [] }

/-! ## Events (R44–R46) -/

def segKey (g : ImgSeg) : Nat × Nat := (g.core, g.idx)

def nextSegs (gs : List ImgSeg) (g : ImgSeg) : List ImgSeg := gs.filter fun h => g.outbound.any (h.inbound.contains ·)

/-- Segments that event paths reach from those in front. -/
def reachFrom (gs : List ImgSeg) : Nat → List ImgSeg → List (Nat × Nat) → List (Nat × Nat)
  | 0, _, seen => seen
  | _ + 1, [], seen => seen
  | fuel + 1, g :: rest, seen =>
    let new := (nextSegs gs g).filter fun h => !seen.contains (segKey h)
    reachFrom gs fuel (rest ++ new) (seen ++ new.map segKey)

def reaches (gs : List ImgSeg) (g h : ImgSeg) : Bool := (reachFrom gs (gs.length + 2) [g] []).contains (segKey h)

/-- An event path orders two segments. -/
def ordered (gs : List ImgSeg) (g h : ImgSeg) : Bool := reaches gs g h || reaches gs h g

/-- Events on a cycle of the event graph. -/
def eventCycles (gs : List ImgSeg) : List Nat :=
  (gs.flatMap fun g => g.outbound.filter fun e => gs.any fun h => h.inbound.contains e && (segKey h = segKey g || reaches gs h g)).map (·.toNat)

def eventOverflow (gs : List ImgSeg) : List Nat :=
  (List.range 8).filter fun c => 2048 < ((gs.filter fun g => g.core / 8 == c).flatMap (·.inbound)).eraseDups.length

/-! ## Ranges (R46) -/

/-- A range that a segment touches: HBM or scratchpad, first and last byte, 0 read, 1 written, 2 updated by an ATOM. -/
structure Touched where
  hbm : Bool
  lo : Nat
  hi : Nat
  kind : Nat
deriving DecidableEq, Repr

def Touched.clash (a b : Touched) : Bool :=
  a.hbm == b.hbm && a.lo ≤ b.hi && b.lo ≤ a.hi && !(a.kind == 0 && b.kind == 0) && !(a.kind == 2 && b.kind == 2)

def spadTouched (r : Range) : Touched := { hbm := false, lo := r.lo, hi := r.hi, kind := if r.write then 1 else 0 }

def hbmTouched (d : Desc) (kind : Nat) : List Touched :=
  if d.space = 1 then [{ hbm := true, lo := d.start.toNat, hi := d.start.toNat + d.extent - 1, kind := kind }] else []

def accessTouched (t : State) (e : Visit × AInstr) : List Touched :=
  match e.2 with
  | .move k m =>
    let src := e.1.regs[m.src]
    let dst := e.1.regs[m.dst]
    (moveRanges k m src dst e.1.regs[m.aux]).map spadTouched ++
      (match k with
       | .land _ => []
       | .coll op c => (if (sidesOf t op c).1 then hbmTouched src 0 else []) ++ if (sidesOf t op c).2 then hbmTouched dst 1 else []
       | .atom _ => hbmTouched dst 2
       | _ => hbmTouched src 0 ++ hbmTouched dst 1)
  | _ => []

/-- The scale register written beside beats on a link (R88, R92). -/
def linkScales (k : Core) (i : XInstr) : List Desc :=
  match i with
  | .drn f => if f.dest = 1 && blockSize f.fmt ≠ 0 then regsOf k [f.sc] else []
  | .vop f => if f.conv && (blockLink f.dst f.fmt).isSome then regsOf k [f.sc] else []
  | _ => []

def executeTouched (g : ImgSeg) (e : Visit × XInstr) : List Touched :=
  match e.2 with
  | .pushe _ => []
  | i => ((xPlan (coreAt g e.1) i 0).accesses.map (·.1) ++ (linkScales (coreAt g e.1) i).map (·.range true)).map spadTouched

def touchedBy (t : State) (x : Traced) : List Touched :=
  ((visitAccess x).flatMap (accessTouched t) ++ (visitInstrs x).flatMap (executeTouched x.seg)).eraseDups

/-- Two segments touch a common range, one writing: scratchpad on one core, HBM on any. -/
def segsClash (c d : Nat) (a b : List Touched) : Bool := a.any fun p => (p.hbm || c == d) && b.any p.clash

/-- Segments that clash with one before them (by item) without an event path. -/
def unorderedSegs (t : State) (gs : List ImgSeg) (xs : List Traced) : List Nat :=
  let rs := xs.map fun x => (x.seg, touchedBy t x)
  (rs.filter fun b => rs.any fun a =>
    segItem a.1 < segItem b.1 && segsClash a.1.core b.1.core a.2 b.2 && !ordered gs a.1 b.1).map fun b => segItem b.1

/-! ## Trees across segments (R89, R129) -/

/-- A tree drain with its segment, its instruction and how many uses of its identifier stand before it in the segment. -/
structure TreeUse where
  seg : ImgSeg
  idx : Nat
  nth : Nat
  drn : DrnOp
deriving DecidableEq, Repr

def treeUses (x : Traced) : List TreeUse :=
  (visitInstrs x).foldl (fun l e => match e.2 with
    | .drn f => if 2 ≤ f.dest.toNat then l ++ [{ seg := x.seg, idx := e.1.idx, nth := l.countP (·.drn.op == f.op), drn := f }] else l
    | _ => l) []

def TreeUse.item (u : TreeUse) : Nat := instrItem 3 u.seg.core u.seg.idx u.idx

/-- Uses of one identifier in one scope: a cluster, or the die for the chip tree. -/
def TreeUse.related (u w : TreeUse) : Bool :=
  u.drn.op == w.drn.op && (u.seg.core / 8 == w.seg.core / 8 || (3 ≤ u.drn.dest.toNat && 3 ≤ w.drn.dest.toNat))

/-- The uses form one tree operation: on different cores, not ordered apart (log entry 34). -/
def TreeUse.together (gs : List ImgSeg) (u w : TreeUse) : Bool :=
  u.related w && u.seg.core ≠ w.seg.core && u.nth == w.nth && !ordered gs u.seg w.seg

def TreeUse.agree (u w : TreeUse) : Bool :=
  u.drn.mmask == w.drn.mmask && u.drn.cmask == w.drn.cmask && u.drn.dest == w.drn.dest && u.drn.recv == w.drn.recv

/-- A second use that R89 or R129 refuses beside an earlier one. -/
def TreeUse.refused (gs : List ImgSeg) (u w : TreeUse) : Bool :=
  (u.together gs w && !u.agree w) ||
    (u.related w && u.seg.core == w.seg.core && u.seg.idx ≠ w.seg.idx && !ordered gs u.seg w.seg) ||
    (u.drn.dest = 3 && w.drn.dest = 3 && u.drn.commGroup == w.drn.commGroup && u.drn.chunkMb == w.drn.chunkMb && !u.together gs w)

def treesBad (gs : List ImgSeg) (us : List TreeUse) : List Nat :=
  (us.filter fun w => us.any fun u => u.item < w.item && u.refused gs w).map TreeUse.item

/-! ## Instructions against the tables (R67, R88, R229–R232, R272) -/

/-- A COLL with the descriptors of one execution. -/
structure CollUse where
  op : BitVec 4
  c : CollOp
  src : Desc
  dst : Desc
deriving DecidableEq, Repr

def collUsesIn (l : List (Nat × List Byte × AInstr × Visit)) : List CollUse :=
  l.filterMap fun e => match e.2.2.1 with
    | .move (.coll op c) m => some { op := op, c := c, src := e.2.2.2.regs[m.src], dst := e.2.2.2.regs[m.dst] }
    | _ => none

/-- Every COLL at its first execution, and at every execution. -/
def collUses (x : Traced) : List CollUse := collUsesIn (firsts x.access x.seg.access x.avisits)
def collEvery (x : Traced) : List CollUse := collUsesIn (everies x.access x.seg.access x.avisits)

/-- Per-chunk counts of source and destination (R232). -/
def collPer (c : Comm) (op : BitVec 4) : Nat × Nat :=
  let own := c.counts.getD c.self 0
  match op.toNat with
  | 0 => (c.chunkElems, own)
  | 1 => (own, c.chunkElems)
  | _ => (c.chunkElems, c.chunkElems)

/-- Chunks a COLL covers: from the sides it reads or writes here. -/
def collN (c : Comm) (u : CollUse) : Nat :=
  if u.op = 3 || u.op = 6 then 1
  else
    let sd := collSides c u.op u.c.param
    let per := collPer c u.op
    if sd.1 then u.src.count / max 1 per.1 else if sd.2 then u.dst.count / max 1 per.2 else 1

/-- The params of R232. -/
def collParamBad (c : Comm) (op : BitVec 4) (p : Nat) : Bool :=
  match op.toNat with
  | 0 | 2 => 4 ≤ p || (p = 3 && c.fmt ≠ 0xB)
  | 1 => p ≠ 0
  | 3 => false
  | 4 => c.size ≤ p
  | 5 => c.groups.length ≤ p
  | 6 => 9 ≤ p || (p ≠ 0 && !c.jobwide)
  | _ => true

/-- Counts or formats of one side that R232 refuses. -/
def sideBad (c : Comm) (u : CollUse) (n : Nat) (d : Desc) (per : Nat) : Bool :=
  d.count ≠ n * per || ((u.op = 0 || u.op = 2) && d.format ≠ c.fmt)

/-- Packed elements whose segments would start or end inside a byte (R232). -/
def packedBad (fmt : BitVec 4) (ns : List Nat) : Bool :=
  (fmt = 6 && ns.any (· % 4 ≠ 0)) || (fmt = 7 && ns.any (· % 2 ≠ 0))

def collBad (c : Comm) (u : CollUse) : Bool :=
  let p := u.c.param.toNat
  let n := collN c u
  let sd := collSides c u.op u.c.param
  let per := collPer c u.op
  (c.land && u.op ≠ 0 && u.op ≠ 6) || collParamBad c u.op p || n = 0 || 65536 < u.c.chunk.toNat + n ||
    (if u.op = 6 then u.src.extent ≠ 64 || u.dst.extent ≠ 64
     else if u.op = 3 then
       let need (d : Desc) : Nat := a2avHead c + (c.size * (p + 1) * eltBits d.format + 7) / 8
       u.src.extent < need u.src || u.dst.extent < need u.dst || packedBad u.src.format [p + 1]
     else
       (sd.1 && sideBad c u n u.src per.1) || (sd.2 && sideBad c u n u.dst per.2) ||
         ((u.op = 1 || u.op = 4 || u.op = 5) &&
           let fmt := if sd.2 then u.dst.format else u.src.format
           packedBad fmt (c.chunkElems :: c.counts) || 8 * 131072 < c.chunkElems * eltBits fmt)) ||
    (u.op = 0 && c.land && (List.range n).any fun k => !c.landMap.any fun e => e.first ≤ u.c.chunk.toNat + k && u.c.chunk.toNat + k < e.first + e.chunks)

/-- A destination-3 drain on a context that R88 or R230 does not allow. -/
def drainCommBad (t : State) (u : TreeUse) : Bool :=
  match commOf t (u.drn.commGroup.setWidth 10) with
  | none => true
  | some c =>
    let sh := u.seg.shapes.getD u.drn.eng.val (32, 16, 0)
    let k := u.drn.chunkMb.toNat
    !c.land || !c.landMap.any (fun e => e.first ≤ k && k < e.first + e.chunks) || sh.1 * sh.2.1 ≠ c.chunkElems

/-- Chunk ranges on contexts: of every COLL, and of the destination-3 drains, one for each chunk. -/
def chunkRanges (t : State) (cs : List CollUse) (us : List TreeUse) : List (Nat × Nat × Nat) :=
  (cs.filterMap fun u => (commOf t u.c.comm).map fun c => (u.c.comm.toNat, u.c.chunk.toNat, collN c u)) ++
    ((us.filter fun u => u.drn.dest = 3).map fun u => (u.drn.commGroup.toNat, u.drn.chunkMb.toNat, 1)).eraseDups

def rangesClash : List (Nat × Nat × Nat) → List Nat
  | [] => []
  | r :: t => (if t.any fun q => q.1 == r.1 && overlap r.2.1 r.2.2 q.2.1 q.2.2 then [r.1] else []) ++ rangesClash t

def commInstrBad (t : State) (cs every : List CollUse) (us : List TreeUse) : List Nat :=
  (every.filter fun u => match commOf t u.c.comm with | some c => collBad c u | none => false).map (·.c.comm.toNat) ++
    (us.filter fun u => u.drn.dest = 3 && drainCommBad t u).map (·.drn.commGroup.toNat) ++ rangesClash (chunkRanges t cs us)

/-- Groups without a landing buffer that a LAND or a destination-4 drain names (R67). -/
def landGroups (t : State) (xs : List Traced) (us : List TreeUse) : List Nat :=
  let lands := xs.flatMap fun x => x.access.filterMap fun i => match i with | some (.move (.land l) _) => some l.group | _ => none
  ((lands ++ (us.filter fun u => u.drn.dest = 4).map (·.drn.commGroup)).filter fun g => t.upd.groups.all (·.idx != g)).map (·.toNat)

/-- Plans that a CINCH requests and the image does not define (R272). -/
def cinchPlans (t : State) (cs : List CollUse) : List Nat :=
  cs.filterMap fun u =>
    let p := u.c.param.toNat
    if u.op = 6 && 1 ≤ p && p ≤ 8 && !t.opt.validMask.getLsbD (p - 1) then some (p - 1) else none

/-! ## The whole list (R312, R319) -/

/-- Codes 0x0020–0x0036: instructions and segments. -/
def programFails (t : State) (img : List Byte) (xs : List Traced) : List (Nat × Nat) :=
  let gs := xs.map (·.seg)
  xs.flatMap (segmentFails t) ++ (treesBad gs (xs.flatMap treeUses)).map (fun i => (0x2A, i)) ++
    gs.flatMap (fun g =>
      (if 1024 < g.alen then [(0x30, segItem g)] else []) ++ (if 1024 < g.xlen then [(0x30, instrItem 3 g.core g.idx 0)] else []) ++
        (if 8 < g.nin || 8 < g.nout then [(0x31, segItem g)] else [])) ++
    ((programs img).filter fun d => 16384 < segCount (bytesOf img d)).map (fun d => (0x31, instrItem 2 d.index 16384 0)) ++
    (xs.filter tokenCycle).map (fun x => (0x32, segItem x.seg)) ++
    (xs.filter fun x => unbalanced (accessTokens x ++ executeTokens x)).map (fun x => (0x33, segItem x.seg)) ++
    (eventCycles gs).map (fun e => (0x34, e)) ++ (eventOverflow gs).map (fun c => (0x35, c)) ++ (unorderedSegs t gs xs).map fun i => (0x36, i)

/-- Codes 0x0040–0x0047: the tables. -/
def tableFails (s t : State) (img : List Byte) (xs : List Traced) : List (Nat × Nat) :=
  let us := xs.flatMap treeUses
  let cs := xs.flatMap collUses
  (regionsBad s img).map (fun i => (0x40, i)) ++ (extentsBad t.mem.regions t.upd.groups).map (fun i => (0x41, i)) ++
    (groupsBad s img).map (fun i => (0x42, i)) ++ (mapGroupsBad t ++ landGroups t xs us).map (fun i => (0x43, i)) ++
    (commsBad t img ++ commInstrBad t cs (xs.flatMap collEvery) us).map (fun i => (0x44, i)) ++
    (strapBad s img ++ cinchPlans t cs ++ plansDiffer t).map (fun i => (0x45, i)) ++
    (if lossBad (manifestOf img) then [(0x46, 0)] else []) ++ (manifestBad t img).map fun o => (0x47, offsetItem o)

/-- Every check of R319 that a well-sealed image fails: code and item. -/
def loadFails (s : State) (img : List Byte) : List (Nat × Nat) :=
  match formatBad img with
  | [] =>
    let t := tabled s img
    let xs := (imageSegs img).map traced
    (unitsAbsent s img).map (fun b => (0x10, b)) ++ (if s.glb.cores.toNat < imageCores img then [(0x11, s.glb.cores.toNat)] else []) ++
      (clusterShort s img).map (fun c => (0x12, c)) ++ (if shapeBad s img then [(0x13, 0)] else []) ++ (portMapBad s img).map (fun f => (0x14, f)) ++
      programFails t img xs ++ tableFails s t img xs
  | l => l.map fun o => (1, offsetItem o)

/-- The first in ascending order of code, then item (R312). -/
def firstFail : List (Nat × Nat) → Option (Nat × Nat)
  | [] => none
  | x :: t =>
    match firstFail t with
    | none => some x
    | some y => if x.1 < y.1 || (x.1 = y.1 && x.2 ≤ y.2) then some x else some y

end Sys2Proof.Machine
end

