-- ==== Sys2Proof/Machine/Loader.lean ====
section
/-! DEFINITION. LOAD (R307, R312): the checks of a job image and its placing (R120, R143, R146, R148, R208, R226, R271, R316, R333,
R379), or LOAD_REFUSED (R319). -/

namespace Sys2Proof.Machine

/-- Put a job image's bytes at an address. -/
def putAt (s : State) (x : Nat × List Byte) : State := storeHbm s x.1 x.2 false

/-- The segments of a logical core (R316). -/
def coreSegments (img : List Byte) (c : Nat) : List Segment :=
  ((programs img).filter (·.index == c)).flatMap fun d => (segsOf img d).map fun g =>
    { cls := BitVec.ofNat 2 g.cls, shapes := g.shapes, inbound := g.inbound, outbound := g.outbound, alen := g.alen, xlen := g.xlen }

/-- The job of a manifest before its first step (R120). -/
def freshJob (m : Manifest) : Job := { Job.reset with manifest := some m, step := m.step0, l := m.l0 }

/-- Contexts, tables and regions of an image that has passed every check; HBM is as before. -/
def configure (s : State) (img : List Byte) : State :=
  let t := tabled s img
  let m := manifestOf img
  { t with
    cores := Vector.ofFn fun c => { Core.release s.cores[c] with segments := coreSegments img c.val },
    clusters := s.clusters.map fun (k : Cluster) => { k with trees := [] },
    mem := { t.mem with side := m.side0, held := [] },
    upd := { Update.reset with leaseId := s.upd.leaseId, groups := t.upd.groups },
    coll := { Coll.reset with stale := s.coll.stale, nextId := s.coll.nextId, comms := t.coll.comms },
    fab := match s.disc.decl with
      | some d => { s.fab with routes := defaultRoutes d.lens (s.disc.coords.getD []) }
      | none => s.fab,
    pwr := { s.pwr with fTherm := s.pwr.fChar, fPwr := s.pwr.fChar },
    job := freshJob m }

/-- The values of a fresh norm table: the side header, and the record of each active group (R146). -/
def normStart (s : State) : List (Nat × List Byte) :=
  if s.upd.groups.isEmpty then []
  else (normTable s false, List.replicate 64 0) ::
    s.upd.groups.map fun g => (normRecord s g false, List.replicate 8 0 ++ leBytes 4 0x3F800000 ++ leBytes 4 0x3F800000 ++ List.replicate 16 0)

/-- done, release and pass1 of each group (R148). -/
def controlStart (s : State) : List (Nat × List Byte) :=
  let b := leBytes 4 (s.job.step - 1).toNat
  s.upd.groups.map fun g => (g.lbase, b ++ b ++ b)

/-- The group and communicator tables at their places, then the data sections (R314). -/
def sectionsStart (img : List Byte) : List (Nat × List Byte) :=
  [(destOf img 4, sectionOf img 4), (destOf img 5, sectionOf img 5)] ++ dataSections img

/-- Place an image that has passed every check. -/
def place (s : State) (img : List Byte) : State :=
  let t := configure s img
  let u := (normStart t ++ controlStart t ++ sectionsStart img).foldl putAt t
  { u with upd := { u.upd with fingers := [] }, hlk := { u.hlk with state := .loaded } }

/-- LOAD_REFUSED with its reason code and item (R300, R319). -/
def refuseLoad (s : State) (ring : RingId) (idx : W16) (code item : Nat) : State :=
  finishDesc s ring idx 0x0007 (BitVec.ofNat 48 (code + item * 2 ^ 16)) 0 codeLoadRefused

/-- Plans that differ from a neighbour's are counted and reported when they fail the load (R273). -/
def countPlans (s : State) (img : List Byte) (code item : Nat) : State :=
  let t := tabled s img
  if code = 0x45 && (plansDiffer t).contains item then
    let u := s.opt.planPkts.foldl (fun u x => reportPlans u x.1 x.2) t
    { s with out := u.out, opt := { s.opt with planMismatch := u.opt.planMismatch } }
  else s

/-- LOAD: `image` are the host's bytes, sealed in confidential mode (R304, R387). -/
def load (s : State) (ring : RingId) (idx : W16) (d : Inflight) (image : List Byte) (hostErr : Bool) : State :=
  if hostErr then finishDesc s ring idx 0x000B 0 0 0 else
  let x := fromHost s none 0x41 d.len image
  match x.2.2 with
  | some i => refuseLoad x.1 ring idx 2 (offsetItem (4096 * i))
  | none =>
    match firstFail (loadFails x.1 x.2.1) with
    | some e => refuseLoad (countPlans x.1 x.2.1 e.1 e.2) ring idx e.1 e.2
    | none => doneDesc (measure (place x.1 x.2.1) 2 0x21 x.2.1) ring idx 0

/-- LOAD (R307, R312). -/
def execLoad (ring : RingId) (idx : W16) (image : List Byte) (hostErr : Bool) (s : State) : Host.Outcome State Fault Refusal :=
  .next (runDesc s ring idx 0x41 fun d t => load t ring idx d image hostErr)

end Sys2Proof.Machine
end

