-- ==== Sys2Proof/Machine/Module.lean ====
section
/-! DEFINITION. The module's pins, its input stage and monitors, the power-fail sequence, RESET_N, the management endpoint (R394–R402). -/

namespace Sys2Proof.Machine

/-! ## The switch (R394, R395) -/

/-- The switch opens, and the cause of a later power fail is noted (R395, R396). -/
def openSwitch (p : Inp) (cause : Byte) : Inp := if p.switchOn then { p with switchOn := false, lastOpen := cause } else p

/-- The states that a death of the job or a fatal error turns into STOPPED (R307). -/
def stopState (st : JobState) : JobState := if st == .minimal || st == .wedged then st else .stopped

/-! ## The power-fail sequence (R396) -/

def powerFails (s : State) (withinMs : Bool) : State :=
  if !s.inp.aux || s.inp.powerFail then s
  else
    let s1 := raiseOpen (endAdmin (darken (stopCores s))) 0x09
    { s1 with hlk := { s1.hlk with state := stopState s1.hlk.state }, job := { s1.job with dispatching := false },
              boot := { s1.boot with powerCause := if withinMs then s.inp.lastOpen else 1 }, inp := { s1.inp with powerFail := true } }

/-- The record is in module flash; a reset that waited for it takes effect. -/
def recordWritten (s : State) (env : BootEnv) : State :=
  if s.inp.powerFail then
    let rec_ := padTo 32 0 (Config.powerRecord s.boot.powerCause.toNat s.job.step.toNat s.now.toNat s.inp.inputDv.toNat)
    let s1 := updInp (updBoot s fun b => { b with powerRecord := rec_ }) fun p => { p with powerFail := false, resetWaits := none }
    match s.inp.resetWaits with
    | some c => fullReset s1 c env
    | none => s1
  else s

/-- Every stage stops: the module is off, and only its flash keeps anything. -/
def moduleOff (s : State) : State := updInp (holdReset s s.boot.cause true) fun p => { p with aux := false }

/-! ## RESET_N (R401) -/

def resetAsserted (s : State) : State :=
  if !s.inp.aux || s.inp.resetLow then s
  else
    let s1 := updInp s fun p => { p with resetLow := true }
    if s.inp.powerFail then waitReset s1 1 else holdReset s1 1 false

def resetReleased (s : State) (env : BootEnv) : State :=
  if s.inp.resetLow then
    let s1 := updInp s fun p => { p with resetLow := false }
    if s.inp.aux && !s.inp.powerFail && s.boot.stage = 0 then boot env s1 else s1
  else s

/-! ## The meanings -/

/-- Blades, PRSNT_N, PWR_EN and 48.0 V are present (R394). -/
def execInputStageOn (s : State) : Host.Outcome State Fault Refusal :=
  .next (updInp s fun p => { p with mated := true, prsnt := true, pwrEn := true, overvolt := false, switchOn := true })

/-- The input exceeds 64.0 V (R395). -/
def execInputOvervoltage (s : State) : Host.Outcome State Fault Refusal := .next (updInp s fun p => { openSwitch p 2 with overvolt := true })

/-- The input has fallen to 63.0 V (R395). -/
def execInputOvervoltageClear (s : State) : Host.Outcome State Fault Refusal :=
  .next (updInp s fun p => if p.overvolt then { p with overvolt := false, switchOn := p.mated && p.prsnt && p.pwrEn } else p)

/-- PWR_EN is low (R395). -/
def execPwrEnLow (s : State) : Host.Outcome State Fault Refusal := .next (updInp s fun p => { openSwitch p 3 with pwrEn := false })

/-- PRSNT_N is open (R395, R398). -/
def execPrsntNOpen (s : State) : Host.Outcome State Fault Refusal := .next (updInp s fun p => { openSwitch p 4 with prsnt := false })

/-- The bulk node is below 44.0 V; `withinMs` that the switch opened within the preceding 1 ms (R395, R396). -/
def execBulkUndervoltage (withinMs : Bool) (s : State) : Host.Outcome State Fault Refusal := .next (powerFails s withinMs)

/-- The bulk node is below 40.0 V (R391, R395, R396). -/
def execConverterStop (s : State) : Host.Outcome State Fault Refusal := .next (moduleOff s)

/-- The power record is written (R396, R401). -/
def execPowerRecordWritten (env : BootEnv) (s : State) : Host.Outcome State Fault Refusal := .next (recordWritten s env)

/-- RESET_N has read low in 50 samples (R401). -/
def execResetNAssert (s : State) : Host.Outcome State Fault Refusal := .next (resetAsserted s)

/-- RESET_N reads high (R401, R415). -/
def execResetNRelease (env : BootEnv) (s : State) : Host.Outcome State Fault Refusal := .next (resetReleased s env)

/-- SETDASA to the endpoint's static address (R402). -/
def execSetdasa (static : BitVec 7) (dynamic : BitVec 7) (s : State) : Host.Outcome State Fault Refusal :=
  .next (if s.inp.aux && static = s.inp.staticAddr then updInp s fun p => { p with dynAddr := some dynamic } else s)

/-- ENTDAA (R402). -/
def execEntdaa (dynamic : BitVec 7) (s : State) : Host.Outcome State Fault Refusal :=
  .next (if s.inp.aux then updInp s fun p => { p with dynAddr := some dynamic } else s)

/-- Set Endpoint ID (R402). -/
def execSetEndpointId (eid : Byte) (s : State) : Host.Outcome State Fault Refusal :=
  .next (if s.inp.aux then updInp s fun p => { p with eid := eid } else s)

end Sys2Proof.Machine
end

