-- ==== Sys2Proof/Machine/Security.lean ====
section
/-! DEFINITION. Confidential mode transitions (R388, R389) and the attestation trees (R381). -/

namespace Sys2Proof.Machine

/-! ## The leave token (R376, R389) -/

def modeKey (s : State) : BitVec 256 := kdf Config.fleetKey (ascii "MOD") (leBytes 8 s.glb.moduleId.toNat)

def goodToken (s : State) : List Byte := bytes256 (hmac256 (modeKey s) (bootContext s ++ leBytes 2 s.sec.modeSeq.toNat ++ [0]))

def tokenBytes (s : State) : List Byte := s.sec.token.toList.flatMap fun w => leBytes 8 w.toNat

/-! ## Transitions (R388) -/

/-- Entries of M0 and M1 in the log. -/
def bootEntries (s : State) : Nat := (s.sec.log.filter fun e => byteAt e 0 ≠ 2).length

/-- A LOAD in progress leaves its ring not idle. -/
def modeRefused (s : State) (target : Bool) : Bool :=
  !(s.hlk.state == .nodisc || s.hlk.state == .ready) || s.hlk.rings.toList.any (fun r => !ringIdle r) ||
    (target && !s.sec.keyed) || (!target && tokenBytes s != goodToken s) || 62 ≤ bootEntries s

/-- Step 2 on a core: scratchpad, accumulators, tree buffers. -/
def Core.wipe (k : Core) : Core :=
  { k with spad := [], spadPoison := [], engines := Vector.replicate 3 Engine.reset, halves := Vector.replicate 2 Half.reset }

/-- Steps 1 and 2: new memory keys, derived on entering the mode and drawn on leaving it, leave nothing readable in HBM; the stores of
R388 are cleared. -/
def rekey (s0 : State) (target : Bool) : State :=
  let s := updSec (loadKeys (updSec s0 fun c => { c with conf := target })) fun c => { c with conf := s0.sec.conf }
  { s with
    cores := s.cores.map Core.wipe, clusters := s.clusters.map fun (k : Cluster) => { k with trees := [] },
    mem := { s.mem with cells := [], poison := [], wcb := Vector.replicate 24 [], atomics := Vector.replicate 24 [] },
    coll := { s.coll with early := [], earlyUps := [] },
    upd := { s.upd with fingers := [], fingersKept := [] },
    flt := { s.flt with log := [], dumpValid := s.flt.dumpValid && s.flt.dumpDest = 1 } }

/-- A write of mode_target, which keeps the value written (R11). While a transition runs, another request is ignored (log entry 28). -/
def writeTarget (s : State) (target : Bool) : State :=
  let s1 := updSec s fun c => { c with modeTarget := target }
  if target = s.sec.conf || s.sec.modeBusy then s1
  else if modeRefused s target then updSec s1 fun c => { c with modeErr := true }
  else updSec (rekey s1 target) fun c => { c with modeErr := false, modeBusy := true }

/-- Steps 3 to 5: the mode is in force, measured, links and lanes retrained, the job tag and the route tables discarded. -/
def transitionDone (s : State) : State :=
  if s.sec.modeBusy then
    let s1 := updSec s fun c => { c with conf := !c.conf, modeSeq := c.modeSeq + 1, modeBusy := false }
    let s2 := measure s1 1 0x10 (modeBytes s1)
    { s2 with
      hlk := { s2.hlk with state := .nodisc, linkRetrains := bump s2.hlk.linkRetrains, authRun := 0 },
      opt := { s2.opt with straps := s2.opt.straps.map fun (x : Strap) => { Strap.reset with rxCounters := x.rxCounters } },
      disc := { s2.disc with running := false, owner := none, decl := none, coords := none, tagReg := 0, downResult := none,
                             links := Vector.replicate 16 DiscLink.reset },
      fab := { s2.fab with routes := [], published := [] } }
  else s

/-! ## The meanings -/

/-- A write of mode_target (R388–R390). -/
def execModeTargetWrite (target : Bool) (s : State) : Host.Outcome State Fault Refusal := .next (writeTarget s.unlatch target)

/-- A transition ends (R388). -/
def execModeTransitionDone (s : State) : Host.Outcome State Fault Refusal := .next (transitionDone s)

/-- The next level-1 tree is built: at most the one after the tree in use (R381). -/
def execLevel1TreeBuilt (s : State) : Host.Outcome State Fault Refusal :=
  .next (if s.sec.treeBuilt ≤ s.sec.leafNext / 2 ^ 15 + 1 then updSec s fun c => { c with treeBuilt := c.treeBuilt + 1 } else s)

end Sys2Proof.Machine
end

