-- ==== Sys2Proof/Machine/Registers.lean ====
section
/-! DEFINITION. Accesses to the set-up window (R10, R11, R427–R430), the mailbox (R434, R435), the MEM bits (R436, R437). -/

namespace Sys2Proof.Machine

/-! ## The mailbox (R435) -/

/-- A go: type and slot take the values written; a running transfer goes on with its own. -/
def mailboxGo (s : State) (type : BitVec 3) (slot reserved : Bool) : State :=
  updBoot s fun b =>
    if b.mbRun.isSome then { b with mbType := type, mbSlot := slot, mbAgain := true }
    else { b with mbType := type, mbSlot := slot, mbAgain := false,
                  mbRun := some { type := type, slot := slot, reserved := reserved, host := b.mbHost, length := b.mbLength } }

/-- The header of an image of a type, the length of its body and its signature are those of R377. -/
def headerGood (type : Nat) (image : List Byte) (n : Nat) : Bool :=
  leAt image 0 4 == 0x57464B4E && leAt image 4 1 == type && (slice image 5 3 ++ slice image 52 12).all (· == 0) &&
    leAt image 16 4 + 1 + 2048 == n && lmsGood Config.firmwareKey (image.take 64) (slice image 64 1772)

/-- The body's hash is the header's. -/
def bodyGood (image : List Byte) : Bool := slice image 20 32 == bytes256 (sha256 (image.drop 2048))

/-- The first check that fails (R435). `image` are the bytes that the host has delivered: fewer than asked for where an access failed. -/
def mailboxResult (s : State) (r : MbRun) (image : List Byte) (flashErr : Bool) : Nat :=
  let k := r.type.toNat
  let n := r.length.toNat + 1
  if k = 0 || 5 < k || r.reserved then 2
  else if (mailboxTarget s r).isNone then 3
  else if n < 2048 || 16777216 < n then 4
  else if image.length < 2048 then 7
  else if !headerGood k image n || (n ≤ image.length && !bodyGood (image.take n)) then 5
  else if leAt image 12 4 < (s.sec.arc[(Fin.ofNat 5 (k - 1) : Fin 5)]).toNat then 6
  else if image.length < n then 7
  else if flashErr then 8
  else 0

/-- The slot after a transfer: valid with its new image, invalid, or as it was. -/
def slotAfter (w : FwSlot) (r : Nat) (image : List Byte) : FwSlot :=
  if r = 0 then
    { valid := true, version := BitVec.ofNat 32 (leAt image 8 4), svn := BitVec.ofNat 32 (leAt image 12 4), length := BitVec.ofNat 32 (leAt image 16 4),
      hash := BitVec.ofNat 256 (beNat (slice image 20 32)) }
  else if r = 7 || r = 8 then { w with valid := false } else w

def mailboxEnds (s : State) (image : List Byte) (flashErr : Bool) : State :=
  match s.boot.mbRun with
  | none => s
  | some m =>
    let r := mailboxResult s m image flashErr
    updBoot s fun b =>
      { b with fw := (match mailboxTarget s m with | some i => vmod b.fw i fun w => slotAfter w r image | none => b.fw),
               mbRun := none, mbAgain := false, mbDone := b.mbDone + 1, mbResult := if b.mbAgain then 1 else BitVec.ofNat 4 r }

/-! ## compat_next (R437) -/

def writeCompat (s : State) (v : Bool) : State := { s with mem := { s.mem with compatPending := v, flashBusy := true } }

def flashStored (s : State) : State :=
  if s.mem.flashBusy then { s with mem := { s.mem with compatNext := s.mem.compatPending, flashBusy := false } } else s

/-! ## Reads (R427, R428) -/

def readOut (s : State) (v : W64) : State := s.say (.readData v)

def countBad (s : State) : State := { s with glb := { s.glb with regBad := bump s.glb.regBad } }

/-- The watermark of a virtual channel clears on its read. -/
def clearWatermark (s : State) (port : PortId) (vc : Fin 8) : State :=
  { s with fab := { s.fab with ports := vmod s.fab.ports port fun q => { q with watermark := vmod q.watermark vc fun _ => 0 } } }

/-- The port and channel of an RC register (R224). -/
def watermarkAt (a : Nat) : Option (PortId × Fin 8) :=
  if 0x1010000 ≤ a && a < 0x1018000 then
    let o := (a - 0x1010000) % 0x1000
    if 0x100 ≤ o && o < 0x300 && o % 0x40 = 0x20 then some (Fin.ofNat 8 ((a - 0x1010000) / 0x1000), Fin.ofNat 8 ((o - 0x100) / 0x40)) else none
  else none

/-- A read of an RC register clears it. -/
def readEffect (s : State) (a : Nat) : State :=
  match watermarkAt a with
  | some x => if s.inp.rails then clearWatermark s x.1 x.2 else s
  | none => s

/-- A 32-bit read: of a low half, which latches the high half; of a high half, from the latch or live. -/
def halfRead (s : State) (a : BitVec 26) : State :=
  let n := a.toNat
  if n % 4 ≠ 0 then readOut (countBad s.unlatch) 0
  else if n % 8 = 0 then
    let v := regRead s n
    let s1 := readOut (readEffect s n) ((v.setWidth 32).zeroExtend 64)
    { s1 with glb := { s1.glb with latch := some (a, (v >>> 32).setWidth 32) } }
  else
    let v : W32 := match s.glb.latch with
      | some (b, h) => if b.toNat = n - 4 then h else (regRead s (n - 4) >>> 32).setWidth 32
      | none => (regRead s (n - 4) >>> 32).setWidth 32
    (readOut s (v.zeroExtend 64)).unlatch

/-! ## Writes to plain fields (R10, R11, R429) -/

/-- The word after a write: a 32-bit write changes only its half (R428). -/
def mergeWord (old value : W64) (high wide : Bool) : W64 :=
  if wide then value
  else if high then (old.setWidth 32).zeroExtend 64 ||| (value.setWidth 32).zeroExtend 64 <<< 32
  else (value.setWidth 32).zeroExtend 64 ||| (old >>> 32 <<< 32)

/-- The bits a write carries in their places; a half that is not written carries none. -/
def writtenBits (value : W64) (high wide : Bool) : W64 :=
  if wide then value else if high then (value.setWidth 32).zeroExtend 64 <<< 32 else (value.setWidth 32).zeroExtend 64

/-- A base register keeps bits [63:12]. -/
def page (v : W64) : W64 := v >>> 12 <<< 12

def writeRingField (r : Ring) (o : Nat) (v : W64) : Ring :=
  match o with
  | 0x00 => if r.enable then r else { r with sqbase := page v }
  | 0x08 => if r.enable then r else { r with cqbase := page v }
  | 0x10 => writeRing r v
  | _ => r

def writeHlk (s : State) (o : Nat) (v : W64) : State :=
  match o with
  | 0x08 => updHlk s fun h => if h.evenable then h else { h with evbase := page v }
  | 0x10 => updHlk s fun h => writeEventCtl h (v.setWidth 32)
  | _ => if 0x1000 ≤ o && o < 0x1400 then updRing s (Fin.ofNat 16 ((o - 0x1000) / 0x40)) fun r => writeRingField r (o % 0x40) v else s

/-- `v` is the whole word after the write, `ones` the bits written, which a W1C flag looks at. -/
def writeMgt (s : State) (o : Nat) (v ones : W64) : State :=
  match o with
  | 0x00 => if ones.getLsbD 4 then mailboxGo s (v.setWidth 3) (v.getLsbD 3) (ones >>> 5 != 0) else updBoot s fun b => { b with mbType := v.setWidth 3, mbSlot := v.getLsbD 3 }
  | 0x08 => updBoot s fun b => { b with mbHost := page v }
  | 0x10 => updBoot s fun b => { b with mbLength := v.setWidth 32 }
  | 0x100 => updFlt s fun f => { f with dumpHostBase := page v }
  | 0x108 => updFlt s fun f => { f with dumpHostSize := v.setWidth 16 }
  | 0x110 => if ones.getLsbD 0 then updFlt s fun f => { f with dumpValid := false } else s
  | 0x118 => updFlt s fun f => { f with burnishEn := v.getLsbD 0 }
  | _ => s

def writeSec (s : State) (o : Nat) (v : W64) : State :=
  if 0x48 ≤ o && o < 0x68 then updSec s fun c => { c with token := vmod c.token (Fin.ofNat 4 ((o - 0x48) / 8)) fun _ => v } else s

/-- FAB_TXN, port shares and route entries (R208, R210, R223). -/
def writeFab (s : State) (a : Nat) (wide : Bool) (v raw : W64) : State :=
  let o := a / 8 * 8
  if o = 0 then { s with fab := { s.fab with timeout := v.setWidth 20, retries := (v >>> 20).setWidth 3 } }
  else if 0x10000 ≤ o && o < 0x18000 then
    let port : PortId := Fin.ofNat 8 ((o - 0x10000) / 0x1000)
    if o % 0x1000 = 0x10 then updPort s port.val fun q => writeShares q false v
    else if o % 0x1000 = 0x18 then updPort s port.val fun q => writeShares q true v
    else s
  else if 0x80000 ≤ o && o < 0xC0000 then
    let s1 := writeRoute s (BitVec.ofNat 16 ((a - 0x80000) / 4)) (raw.setWidth 32)
    if wide then writeRoute s1 (BitVec.ofNat 16 ((a - 0x80000) / 4 + 1)) ((raw >>> 32).setWidth 32) else s1
  else s

/-- fault_valid of a logical core clears (R440). -/
def writeCore (s : State) (o : Nat) (ones : W64) : State :=
  if o < 0x50000 && 0x10000 ≤ o && o % 0x1000 = 8 && ones.getLsbD 0 then
    s.updCore (Fin.ofNat 64 ((o - 0x10000) / 0x1000)) fun k => { k with faultValid := false }
  else s

/-- Fields of PWR: the host cap and the frequency ceiling, each by a write of its half. -/
def writePwr (s : State) (o : Nat) (low high : Bool) (v : W64) : State :=
  match o with
  | 0x08 => if low then setHcap s (v.setWidth 16) else s
  | 0x20 => if high then setFceil s ((v >>> 48).setWidth 11) else s
  | _ => s

/-- The MEM word: drain_pending while the rails are up, compat_next in every state (log entry 29). -/
def writeMem (s : State) (o : Nat) (low : Bool) (v : W64) : State :=
  if o = 0 && low then writeCompat (if s.inp.rails then setDrain s (v.getLsbD 1) false else s) (v.getLsbD 3) else s

/-- An aligned write of a mapped field; everything else is ignored. `v` is the whole word after it, `ones` the bits written in their
places, `raw` the value as written. boot_retry has a command of its own, which brings the boot that it starts. -/
def writeWord (s : State) (a : Nat) (wide : Bool) (v ones raw : W64) : State :=
  let o := a / 8 * 8
  let low := wide || a % 8 = 0
  let high := wide || a % 8 = 4
  if a < 0x100000 then s
  else if a < 0x200000 then writeHlk s (o - 0x100000) v
  else if a < 0x400000 then writeMgt s (o - 0x200000) v ones
  else if a < 0x800000 then (if s.inp.rails then writePwr s (o - 0x400000) low high v else s)
  else if a < 0x1000000 then (if o = 0x800040 then (if low then writeTarget s (v.getLsbD 0) else s) else writeSec s (o - 0x800000) v)
  else if a < 0x1400000 then (if s.inp.rails then writeFab s (a - 0x1000000) wide v raw else s)
  else if a < 0x1800000 then s
  else if a < 0x2000000 then writeMem s (o - 0x1800000) low v
  else if a < 0x3000000 then (if s.inp.rails && a < 0x2100000 then writeCore s (o - 0x2000000) ones else s)
  else if a < 0x3010000 then ringDoorbell s (Fin.ofNat 16 ((a - 0x3000000) / 0x1000)) (a % 0x1000) (raw.setWidth 16) !wide
  else if a = 0x3010000 then eventDoorbell s (raw.setWidth 16) !wide
  else s

/-- A write to the window (R11, R427, R428). -/
def writeReg (s : State) (a : BitVec 26) (wide : Bool) (value : W64) : State :=
  let n := a.toNat
  let s0 := s.unlatch
  if n % (if wide then 8 else 4) ≠ 0 then countBad s0
  else writeWord s0 n wide (mergeWord (regLive s0 (n / 8 * 8)).1 value (n % 8 = 4) wide) (writtenBits value (n % 8 = 4) wide) value

/-! ## The meanings -/

/-- A write of go = 1 (R434, R435). -/
def execMailboxGo (type : BitVec 3) (slot reserved : Bool) (s : State) : Host.Outcome State Fault Refusal :=
  .next (mailboxGo s.unlatch type slot reserved)

/-- A firmware transfer ends (R435). -/
def execMailboxDone (image : List Byte) (flashErr : Bool) (s : State) : Host.Outcome State Fault Refusal := .next (mailboxEnds s image flashErr)

/-- A register write of drain_pending (R436, R437). -/
def execDrainPendingWrite (value : Bool) (s : State) : Host.Outcome State Fault Refusal := .next (s.onRails fun t => setDrain t value false)

/-- A write of compat_next, which the management processors take in minimal mode too (R424, R437, log entry 29). -/
def execCompatNextWrite (value : Bool) (s : State) : Host.Outcome State Fault Refusal := .next (writeCompat s.unlatch value)

/-- compat_next is stored (R437). -/
def execFlashStoreDone (s : State) : Host.Outcome State Fault Refusal := .next (flashStored s)

/-- A read of a watermark (R11, R224, R225). -/
def execWatermarkRead (port : PortId) (vc : Fin 8) (s : State) : Host.Outcome State Fault Refusal :=
  .next (let v := regRead s (0x1010120 + 0x1000 * port.val + 0x40 * vc.val)
    readOut (s.onRails fun t => clearWatermark t port vc) v)

/-- A 32-bit read of the window (R428). -/
def execHalfReadLatch (addr : BitVec 26) (s : State) : Host.Outcome State Fault Refusal := .next (halfRead s addr)

/-- An access of the wrong width or alignment (R427). -/
def execRegBadAccess (addr : BitVec 26) (write : Bool) (s : State) : Host.Outcome State Fault Refusal :=
  .next (let s1 := countBad s.unlatch
    if write then (if 0x3000000 ≤ addr.toNat then badDoorbell s1 else s1) else readOut s1 0)

/-- A write to a register field (R10, R11, R429, R430). -/
def execRegisterWrite (addr : BitVec 26) (width64 : Bool) (value : W64) (s : State) : Host.Outcome State Fault Refusal :=
  .next (writeReg s addr width64 value)

end Sys2Proof.Machine
end

