-- ==== Sys2Proof/Machine/Dispatch.lean ====
section
/-! DEFINITION. One arm per command: a direct call of its meaning. -/

namespace Sys2Proof.Machine

def exec (i : Instr) (s : State) : Host.Outcome State Fault Refusal :=
  match i with
  | .setd core f => Sys2Proof.Machine.execSetd core f s
  | .advd core d restore disp => Sys2Proof.Machine.execAdvd core d restore disp s
  | .loop core count body => Sys2Proof.Machine.execLoop core count body s
  | .budg core budget => Sys2Proof.Machine.execBudg core budget s
  | .fence core => Sys2Proof.Machine.execFence core s
  | .push core f => Sys2Proof.Machine.execPush core f s
  | .pop core q token => Sys2Proof.Machine.execPop core q token s
  | .waitf core eq src value => Sys2Proof.Machine.execWaitf core eq src value s
  | .waitfPoll core => Sys2Proof.Machine.execWaitfPoll core s
  | .ldh core m => Sys2Proof.Machine.execLdh core m s
  | .sth core m => Sys2Proof.Machine.execSth core m s
  | .movs core m => Sys2Proof.Machine.execMovs core m s
  | .gath core m => Sys2Proof.Machine.execGath core m s
  | .scat core m => Sys2Proof.Machine.execScat core m s
  | .rget core m => Sys2Proof.Machine.execRget core m s
  | .rput core m => Sys2Proof.Machine.execRput core m s
  | .atom core m op => Sys2Proof.Machine.execAtom core m op s
  | .land core m l => Sys2Proof.Machine.execLand core m l s
  | .collRs core m c => Sys2Proof.Machine.execCollRs core m c s
  | .collAg core m c => Sys2Proof.Machine.execCollAg core m c s
  | .collAr core m c => Sys2Proof.Machine.execCollAr core m c s
  | .collA2av core m c => Sys2Proof.Machine.execCollA2av core m c s
  | .collBcast core m c => Sys2Proof.Machine.execCollBcast core m c s
  | .collMcast core m c => Sys2Proof.Machine.execCollMcast core m c s
  | .collCinch core m c => Sys2Proof.Machine.execCollCinch core m c s
  | .accessCompletion core seq => Sys2Proof.Machine.execAccessCompletion core seq s
  | .queueWaitResume core stream => Sys2Proof.Machine.execQueueWaitResume core stream s
  | .budgetExpiry core seq elapsed => Sys2Proof.Machine.execBudgetExpiry core seq elapsed s
  | .setx core delta f => Sys2Proof.Machine.execSetx core delta f s
  | .advx core delta x restore disp => Sys2Proof.Machine.execAdvx core delta x restore disp s
  | .loopx core delta count body => Sys2Proof.Machine.execLoopx core delta count body s
  | .waitc core delta n => Sys2Proof.Machine.execWaitc core delta n s
  | .pushe core delta f => Sys2Proof.Machine.execPushe core delta f s
  | .pope core delta q token => Sys2Proof.Machine.execPope core delta q token s
  | .mma core delta f => Sys2Proof.Machine.execMma core delta f s
  | .drn core delta f => Sys2Proof.Machine.execDrn core delta f s
  | .tacc core delta f => Sys2Proof.Machine.execTacc core delta f s
  | .vop core delta f => Sys2Proof.Machine.execVop core delta f s
  | .rst core delta f => Sys2Proof.Machine.execRst core delta f s
  | .xps core delta f => Sys2Proof.Machine.execXps core delta f s
  | .awls core delta lane tid base => Sys2Proof.Machine.execAwls core delta lane tid base s
  | .cenf core delta set dst tid => Sys2Proof.Machine.execCenf core delta set dst tid s
  | .treeHalfTaken core half => Sys2Proof.Machine.execTreeHalfTaken core half s
  | .treeSumArrival core op => Sys2Proof.Machine.execTreeSumArrival core op s
  | .treeBudgetExpiry core op chip elapsed => Sys2Proof.Machine.execTreeBudgetExpiry core op chip elapsed s
  | .segmentDispatch core => Sys2Proof.Machine.execSegmentDispatch core s
  | .segmentEnd core => Sys2Proof.Machine.execSegmentEnd core s
  | .class3HoldExpiry core => Sys2Proof.Machine.execClass3HoldExpiry core s
  | .landingArrival idx => Sys2Proof.Machine.execLandingArrival idx s
  | .parkedLandingApply idx => Sys2Proof.Machine.execParkedLandingApply idx s
  | .landingResend idx => Sys2Proof.Machine.execLandingResend idx s
  | .secondPassReady group => Sys2Proof.Machine.execSecondPassReady group s
  | .leaseOpen stack chan => Sys2Proof.Machine.execLeaseOpen stack chan s
  | .ldone stack chan status => Sys2Proof.Machine.execLdone stack chan status s
  | .leaseOverrun stack chan => Sys2Proof.Machine.execLeaseOverrun stack chan s
  | .memWrite addr data poison => Sys2Proof.Machine.execMemWrite addr data poison s
  | .memRead addr symbolErrors => Sys2Proof.Machine.execMemRead addr symbolErrors s
  | .atomicUpdate addr fmt op data poison => Sys2Proof.Machine.execAtomicUpdate addr fmt op data poison s
  | .wcbIdleWriteback ctrl line symbolErrors => Sys2Proof.Machine.execWcbIdleWriteback ctrl line symbolErrors s
  | .atomicLineWriteback ctrl line => Sys2Proof.Machine.execAtomicLineWriteback ctrl line s
  | .sidedAccessRelease idx => Sys2Proof.Machine.execSidedAccessRelease idx s
  | .refresh stack chan bank => Sys2Proof.Machine.execRefresh stack chan bank s
  | .scrubRead addr symbolErrors writtenSince lastOfPass => Sys2Proof.Machine.execScrubRead addr symbolErrors writtenSince lastOfPass s
  | .stackTempRead stack temp => Sys2Proof.Machine.execStackTempRead stack temp s
  | .retrainSlice stack chan checkOk settings => Sys2Proof.Machine.execRetrainSlice stack chan checkOk settings s
  | .routeLookup port vc p => Sys2Proof.Machine.execRouteLookup port vc p s
  | .packetIngress p => Sys2Proof.Machine.execPacketIngress p s
  | .getreq p => Sys2Proof.Machine.execGetreq p s
  | .put p => Sys2Proof.Machine.execPut p s
  | .atomic p => Sys2Proof.Machine.execAtomic p s
  | .getdata p => Sys2Proof.Machine.execGetdata p s
  | .ack p => Sys2Proof.Machine.execAck p s
  | .retryResend tag => Sys2Proof.Machine.execRetryResend tag s
  | .packetSend idx => Sys2Proof.Machine.execPacketSend idx s
  | .txnTimeout tag elapsed => Sys2Proof.Machine.execTxnTimeout tag elapsed s
  | .fenceNotice p => Sys2Proof.Machine.execFenceNotice p s
  | .beat port => Sys2Proof.Machine.execBeat port s
  | .portSilent port => Sys2Proof.Machine.execPortSilent port s
  | .congestionOnset port vc => Sys2Proof.Machine.execCongestionOnset port vc s
  | .routeWrite chip value => Sys2Proof.Machine.execRouteWrite chip value s
  | .vcbufWrite port high value => Sys2Proof.Machine.execVcbufWrite port high value s
  | .counterPublish => Sys2Proof.Machine.execCounterPublish s
  | .colldata p => Sys2Proof.Machine.execColldata p s
  | .earlyArrivalApply idx => Sys2Proof.Machine.execEarlyArrivalApply idx s
  | .phaseStart op => Sys2Proof.Machine.execPhaseStart op s
  | .collComplete op => Sys2Proof.Machine.execCollComplete op s
  | .cinchUp p => Sys2Proof.Machine.execCinchUp p s
  | .cinchDown p => Sys2Proof.Machine.execCinchDown p s
  | .cinchCack p => Sys2Proof.Machine.execCinchCack p s
  | .cinchResend comm => Sys2Proof.Machine.execCinchResend comm s
  | .commitCinchEntry => Sys2Proof.Machine.execCommitCinchEntry s
  | .cinchBudgetExpiry comm elapsed => Sys2Proof.Machine.execCinchBudgetExpiry comm elapsed s
  | .combFailure comb => Sys2Proof.Machine.execCombFailure comb s
  | .frameSend port => Sys2Proof.Machine.execFrameSend port s
  | .frameReceive port g bits rx => Sys2Proof.Machine.execFrameReceive port g bits rx s
  | .stop port g => Sys2Proof.Machine.execStop port g s
  | .ready port g => Sys2Proof.Machine.execReady port g s
  | .switchMarker plan => Sys2Proof.Machine.execSwitchMarker plan s
  | .switchDone port plan => Sys2Proof.Machine.execSwitchDone port plan s
  | .planSwitch plan => Sys2Proof.Machine.execPlanSwitch plan s
  | .buckleReprogram => Sys2Proof.Machine.execBuckleReprogram s
  | .reacquireEnd failed => Sys2Proof.Machine.execReacquireEnd failed s
  | .pilotWord g tx word => Sys2Proof.Machine.execPilotWord g tx word s
  | .pilotLost g tx => Sys2Proof.Machine.execPilotLost g tx s
  | .ringSweepEnd g tx found => Sys2Proof.Machine.execRingSweepEnd g tx found s
  | .laneRejoin g tx => Sys2Proof.Machine.execLaneRejoin g tx s
  | .heaterFeedforward temps => Sys2Proof.Machine.execHeaterFeedforward temps s
  | .farLightArrival fport lanes => Sys2Proof.Machine.execFarLightArrival fport lanes s
  | .plan port p => Sys2Proof.Machine.execPlan port p s
  | .discover ring idx data hostErr => Sys2Proof.Machine.execDiscover ring idx data hostErr s
  | .hello port p => Sys2Proof.Machine.execHello port p s
  | .coord port p => Sys2Proof.Machine.execCoord port p s
  | .up port p => Sys2Proof.Machine.execUp port p s
  | .down port p => Sys2Proof.Machine.execDown port p s
  | .discAck port p => Sys2Proof.Machine.execDiscAck port p s
  | .discRepeat port => Sys2Proof.Machine.execDiscRepeat port s
  | .discoveryTimeout => Sys2Proof.Machine.execDiscoveryTimeout s
  | .linkDown => Sys2Proof.Machine.execLinkDown s
  | .linkRetrain lanes => Sys2Proof.Machine.execLinkRetrain lanes s
  | .linkFrameAuthFail => Sys2Proof.Machine.execLinkFrameAuthFail s
  | .ringEnable ring value => Sys2Proof.Machine.execRingEnable ring value s
  | .ringDisable ring => Sys2Proof.Machine.execRingDisable ring s
  | .sqTailDoorbell ring value width32 => Sys2Proof.Machine.execSqTailDoorbell ring value width32 s
  | .cqHeadDoorbell ring value width32 => Sys2Proof.Machine.execCqHeadDoorbell ring value width32 s
  | .eventHeadDoorbell value width32 => Sys2Proof.Machine.execEventHeadDoorbell value width32 s
  | .descriptorFetch ring data => Sys2Proof.Machine.execDescriptorFetch ring data s
  | .descriptorComplete ring idx => Sys2Proof.Machine.execDescriptorComplete ring idx s
  | .coalesceTimeout ring => Sys2Proof.Machine.execCoalesceTimeout ring s
  | .eventRingEnable value => Sys2Proof.Machine.execEventRingEnable value s
  | .eventRingDisable => Sys2Proof.Machine.execEventRingDisable s
  | .nop ring idx => Sys2Proof.Machine.execNop ring idx s
  | .waitr ring idx => Sys2Proof.Machine.execWaitr ring idx s
  | .waitrTimeout ring idx => Sys2Proof.Machine.execWaitrTimeout ring idx s
  | .htod ring idx data hostErr => Sys2Proof.Machine.execHtod ring idx data hostErr s
  | .dtoh ring idx hostErr => Sys2Proof.Machine.execDtoh ring idx hostErr s
  | .stepHold ring idx => Sys2Proof.Machine.execStepHold ring idx s
  | .stepRelease ring idx => Sys2Proof.Machine.execStepRelease ring idx s
  | .stepReplay ring idx => Sys2Proof.Machine.execStepReplay ring idx s
  | .drainSet ring idx => Sys2Proof.Machine.execDrainSet ring idx s
  | .drainClear ring idx => Sys2Proof.Machine.execDrainClear ring idx s
  | .mgmtIdentitySnapshot ring idx request failed => Sys2Proof.Machine.execMgmtIdentitySnapshot ring idx request failed s
  | .mgmtTelemetrySnapshot ring idx request failed => Sys2Proof.Machine.execMgmtTelemetrySnapshot ring idx request failed s
  | .mgmtAttestationQuote ring idx request failed => Sys2Proof.Machine.execMgmtAttestationQuote ring idx request failed s
  | .mgmtDumpRead ring idx request failed => Sys2Proof.Machine.execMgmtDumpRead ring idx request failed s
  | .mgmtBootReport ring idx request failed => Sys2Proof.Machine.execMgmtBootReport ring idx request failed s
  | .load ring idx image hostErr => Sys2Proof.Machine.execLoad ring idx image hostErr s
  | .start ring idx => Sys2Proof.Machine.execStart ring idx s
  | .teardown ring idx => Sys2Proof.Machine.execTeardown ring idx s
  | .linkReset env => Sys2Proof.Machine.execLinkReset env s
  | .setCap body => Sys2Proof.Machine.execSetCap body s
  | .getStatus body => Sys2Proof.Machine.execGetStatus body s
  | .getLimits body => Sys2Proof.Machine.execGetLimits body s
  | .hcapWrite value => Sys2Proof.Machine.execHcapWrite value s
  | .fceilWrite value => Sys2Proof.Machine.execFceilWrite value s
  | .estimateUpdate activity => Sys2Proof.Machine.execEstimateUpdate activity s
  | .peakUpdate => Sys2Proof.Machine.execPeakUpdate s
  | .pMeasRead r => Sys2Proof.Machine.execPMeasRead r s
  | .divergenceCheck => Sys2Proof.Machine.execDivergenceCheck s
  | .headroomSample => Sys2Proof.Machine.execHeadroomSample s
  | .dieSample sensors => Sys2Proof.Machine.execDieSample sensors s
  | .droopDetect core => Sys2Proof.Machine.execDroopDetect core s
  | .thermalTrip group => Sys2Proof.Machine.execThermalTrip group s
  | .parityError place => Sys2Proof.Machine.execParityError place s
  | .watchdogExpiry => Sys2Proof.Machine.execWatchdogExpiry s
  | .quiesceTimeout => Sys2Proof.Machine.execQuiesceTimeout s
  | .burnishSliceStart core => Sys2Proof.Machine.execBurnishSliceStart core s
  | .burnishSliceEnd core mismatch => Sys2Proof.Machine.execBurnishSliceEnd core mismatch s
  | .level1TreeBuilt => Sys2Proof.Machine.execLevel1TreeBuilt s
  | .modeTargetWrite target => Sys2Proof.Machine.execModeTargetWrite target s
  | .inputStageOn => Sys2Proof.Machine.execInputStageOn s
  | .inputOvervoltage => Sys2Proof.Machine.execInputOvervoltage s
  | .inputOvervoltageClear => Sys2Proof.Machine.execInputOvervoltageClear s
  | .pwrEnLow => Sys2Proof.Machine.execPwrEnLow s
  | .prsntNOpen => Sys2Proof.Machine.execPrsntNOpen s
  | .bulkUndervoltage withinMs => Sys2Proof.Machine.execBulkUndervoltage withinMs s
  | .converterStop => Sys2Proof.Machine.execConverterStop s
  | .resetNAssert => Sys2Proof.Machine.execResetNAssert s
  | .resetNRelease env => Sys2Proof.Machine.execResetNRelease env s
  | .setdasa static dynamic => Sys2Proof.Machine.execSetdasa static dynamic s
  | .entdaa dynamic => Sys2Proof.Machine.execEntdaa dynamic s
  | .setEndpointId eid => Sys2Proof.Machine.execSetEndpointId eid s
  | .powerOn env => Sys2Proof.Machine.execPowerOn env s
  | .fullReset cause env => Sys2Proof.Machine.execFullReset cause env s
  | .stageOverrun stage => Sys2Proof.Machine.execStageOverrun stage s
  | .failedStartRestart env => Sys2Proof.Machine.execFailedStartRestart env s
  | .bootRetry env => Sys2Proof.Machine.execBootRetry env s
  | .mailboxGo type slot reserved => Sys2Proof.Machine.execMailboxGo type slot reserved s
  | .mailboxDone image flashErr => Sys2Proof.Machine.execMailboxDone image flashErr s
  | .drainPendingWrite value => Sys2Proof.Machine.execDrainPendingWrite value s
  | .compatNextWrite value => Sys2Proof.Machine.execCompatNextWrite value s
  | .flashStoreDone => Sys2Proof.Machine.execFlashStoreDone s
  | .faultValidClear core recordNow => Sys2Proof.Machine.execFaultValidClear core recordNow s
  | .dumpValidClear => Sys2Proof.Machine.execDumpValidClear s
  | .watermarkRead port vc => Sys2Proof.Machine.execWatermarkRead port vc s
  | .halfReadLatch addr => Sys2Proof.Machine.execHalfReadLatch addr s
  | .regBadAccess addr write => Sys2Proof.Machine.execRegBadAccess addr write s
  | .registerWrite addr width64 value => Sys2Proof.Machine.execRegisterWrite addr width64 value s
  | .congestionClear port vc => Sys2Proof.Machine.execCongestionClear port vc s
  | .spareCombLock => Sys2Proof.Machine.execSpareCombLock s
  | .droopRecovery core => Sys2Proof.Machine.execDroopRecovery core s
  | .modeTransitionDone => Sys2Proof.Machine.execModeTransitionDone s
  | .powerRecordWritten env => Sys2Proof.Machine.execPowerRecordWritten env s
  | .dumpWritten => Sys2Proof.Machine.execDumpWritten s
  | .unknownCommand body => Sys2Proof.Machine.execUnknownCommand body s

end Sys2Proof.Machine
end

