-- ==== Sys2Proof/Safety.lean ====
section
/-! DEFINITION. What counts as a sound state and a safe run of the module. -/

namespace Sys2Proof.Machine

/-- The byte stores are in canonical form: HBM and every scratchpad (R25, R171). -/
def State.memWf (s : State) : Bool := cellsWf s.mem.cells && s.cores.toList.all fun c => cellsWf c.spad

/-- A core's scratchpad is in canonical form, and each of its token queues holds at most 16 entries (R34). -/
def Core.sound (k : Core) : Bool := cellsWf k.spad && k.aq.toList.all (·.length ≤ 16) && k.eq.toList.all (·.length ≤ 16)

/-- The byte store of HBM is in canonical form, every core is sound, and the fault log holds at most 4,096 records (R346). -/
def State.sound (s : State) : Bool := cellsWf s.mem.cells && s.cores.toList.all Core.sound && decide (s.flt.log.length ≤ 4096)

/-! ## When a command finds its unit free -/

/-- The access stream of a core runs a segment with nothing waiting at issue and nothing in flight (R54). -/
structure State.accessReady (s : State) (c : CoreId) : Prop where
  running : (s.core c).running.isSome = true
  going : (s.core c).access.stopped = false
  waiting : (s.core c).access.waiting = []
  flights : (s.core c).access.flights = []
  popped : (s.core c).access.popped = false

/-- The flag word of a WAITF is clean and meets its condition (R70, R352). -/
def State.flagMet (s : State) (a : Nat) (equal : Bool) (value : W32) : Bool :=
  !hbmPoisoned s a 4 && (if equal then read32 s a = value else value ≤ read32 s a)

/-- A read of a flag word: a poisoned one is counted (R352). -/
def State.noteFlag (s : State) (a : Nat) : State :=
  if hbmPoisoned s a 4 then { s with flt := { s.flt with badFlagReads := s.flt.badFlagReads + 1 } } else s

/-- A core at an execute cycle: census beats that left their lanes before it are counted, and what can no longer matter is
dropped from its windows and beats (R83, R98). -/
def Core.settled (k : Core) (t : Nat) : Core := { k.flushBeats t with exec := (k.flushBeats t).exec.prune t }

/-- The cycle in which an instruction with a delta issues (R80). -/
def State.issueCycle (s : State) (c : CoreId) (delta : W16) : Nat := (s.core c).exec.base + delta.toNat

/-- The execute stream of a core runs a segment, nothing waits at issue, and the instruction passes the checks of R84 and R95
in its cycle: no beat went unsampled, its scratchpad operands lie in range, and unit, overlap, slot and links agree. -/
structure State.mayIssue (s : State) (c : CoreId) (delta : W16) (i : XInstr) : Prop where
  running : (s.core c).running.isSome = true
  going : (s.core c).exec.stopped = false
  waiting : (s.core c).exec.waiting = []
  sampled : lateSlip (s.core c) (s.issueCycle c delta) = none
  free : drnHeld ((s.core c).settled (s.issueCycle c delta)) i = false
  spad : xSpadCause s ((s.core c).settled (s.issueCycle c delta)) i
    (xPlan ((s.core c).settled (s.issueCycle c delta)) i (s.issueCycle c delta)) = none
  timed : timingSlip ((s.core c).settled (s.issueCycle c delta)) i
    (xPlan ((s.core c).settled (s.issueCycle c delta)) i (s.issueCycle c delta)) (s.issueCycle c delta) = none

/-- A core once a move has taken its wait: itself where the move waits for nothing, and with the head entry taken where that
carries the awaited token (R34, R35, R61). -/
def Core.afterWait (k : Core) (m : MoveOp) : Option Core :=
  if m.we then (match k.popEq m.wq m.wtok with | .taken k1 => some k1 | _ => none) else some k

/-- The operands a move names (R61). -/
def Core.src (k : Core) (m : MoveOp) : Desc := k.access.desc[m.src]
def Core.dst (k : Core) (m : MoveOp) : Desc := k.access.desc[m.dst]
def Core.aux (k : Core) (m : MoveOp) : Desc := k.access.desc[m.aux]

/-- A move finds its stream free, its wait satisfied, its scratchpad operands in range and, where it needs one, a tag (R54,
R61, R73, R75). -/
structure State.moveReady (s : State) (c : CoreId) (k : MoveKind) (m : MoveOp) (k1 : Core) : Prop where
  ready : s.accessReady c
  wait : (s.core c).afterWait m = some k1
  spad : spadChecks (spadOpen s) (moveSpad k m ((s.core c).src m) ((s.core c).dst m) ((s.core c).aux m)) = none
  tag : needsTag k ((s.core c).dst m) = true → coreTags s c < 384

/-- The constructor of a collective operation and its code (R68). -/
def collInstr (c : CoreId) (m : MoveOp) (l : CollOp) : List (BitVec 4 × Instr) :=
  [(0, .collRs c m l), (1, .collAg c m l), (2, .collAr c m l), (3, .collA2av c m l), (4, .collBcast c m l), (5, .collMcast c m l)]

/-- Every moving instruction on given operands (R53). -/
def moveInstrs (c : CoreId) (m : MoveOp) (op : BitVec 4) (l : LandOp) (l1 : CollOp) : List (MoveKind × Instr) :=
  [(.ldh, .ldh c m), (.sth, .sth c m), (.movs, .movs c m), (.gath, .gath c m), (.scat, .scat c m), (.rget, .rget c m),
   (.rput, .rput c m), (.atom op, .atom c m op), (.land l, .land c m l), (.coll 6 l1, .collCinch c m l1)] ++
    (collInstr c m l1).map fun x => (.coll x.1 l1, x.2)

/-- The access stream once a move has issued: past it, with the move in flight (R54, R62). -/
def Access.issued (a : Access) (k : MoveKind) (m : MoveOp) (armed : Bool) (parts : Nat) : Access :=
  let src := a.desc[m.src]
  let dst := a.desc[m.dst]
  { a.passed with
    flights := a.flights ++ [newFlight a (.move k m) m (doneEntry m k src dst) (moveRanges k m src dst a.desc[m.aux]) armed parts],
    nextSeq := a.nextSeq + 1 }

/-- The bytes of an operand: its rows times its row bytes (R64). -/
def Desc.bytes (d : Desc) : Nat := d.n1 * d.n2 * d.n3 * d.rowBytes

/-- Count moved bytes. -/
def Core.moved (k : Core) (n : Nat) : Core := { k with accessBytes := k.accessBytes + BitVec.ofNat 64 n }

/-- The command of an execute instruction (R79). -/
def XInstr.command (c : CoreId) (d : W16) : XInstr → Instr
  | .setx f => .setx c d f
  | .advx x r p => .advx c d x r p
  | .loopx n b => .loopx c d n b
  | .waitc n => .waitc c d n
  | .pushe f => .pushe c d f
  | .pope q t => .pope c d q t
  | .mma f => .mma c d f
  | .drn f => .drn c d f
  | .tacc f => .tacc c d f
  | .vop f => .vop c d f
  | .rst f => .rst c d f
  | .xps f => .xps c d f
  | .awls l t b => .awls c d l t b
  | .cenf s x t => .cenf c d s x t

/-! ## HBM -/

/-- The stacks of two memories differ at most in their channels' counts of errors. -/
def Mem.counted (m n : Mem) : Prop :=
  ∀ k : StackId, { n.hbmStacks[k] with chans := m.hbmStacks[k].chans } = m.hbmStacks[k] ∧
    ∀ c : ChanId, { n.hbmStacks[k].chans[c] with corrected := m.hbmStacks[k].chans[c].corrected, uncorrectable := m.hbmStacks[k].chans[c].uncorrectable } =
      m.hbmStacks[k].chans[c]

/-- From `s` to `t` HBM has been written: bytes, poison, write-combining entries and fingerprints, what a consumption of poison
writes, and what the reads count by which full buffers write entries back (R177, R178, R192); nothing else. -/
def HbmStep (s t : State) : Prop :=
  (∃ c po w k co un el fw F p q fl h o f, t =
    { s with mem := { s.mem with cells := c, poison := po, wcb := w, hbmStacks := k, corrected := co, uncorrectable := un, errorLog := el, fwUncorrectable := fw },
             upd := { s.upd with fingers := F }, job := { s.job with poison := p, consumedNow := q }, flt := fl, hlk := h, out := o, free := f }) ∧
    s.mem.counted t.mem

/-- Lines lie whole in their regions (R171). -/
def State.aligned (s : State) : Prop := ∀ r ∈ s.mem.regions, r.base % 64 = 0 ∧ r.size % 64 = 0 ∧ r.wbase % 64 = 0

/-- Nothing of HBM, but for a consumption of poison (R350), and nothing outside HBM's own state, the update's lists and the flags changes. -/
def MemoryStep (s t : State) : Prop := t = { s with mem := t.mem, upd := t.upd, job := t.job, flt := t.flt, hlk := t.hlk, out := t.out, free := t.free }

/-- The bytes [a, a + n) lie at keys of their own: no two of them at one place (R141, R171). -/
def State.apart (s : State) (a n : Nat) : Prop := ∀ i j, i < n → j < n → keyOf s (a + i) = keyOf s (a + j) → i = j

/-- No byte outside [a, a + n) reads otherwise in `t` than in `s`. -/
def State.keeps (s t : State) (a n : Nat) : Prop :=
  ∀ b, (∀ i < n, keyOf s b ≠ keyOf s (a + i)) → readHbm t b 1 = readHbm s b 1

/-! ## Segments (R36, R40, R45, R55, R71, R97, R337) -/

/-- From `s` to `t` core `c` has started segment `i`: its queues are empty, its descriptor registers invalid, its lanes unseeded, the
budget is the job's, its slots are Free in the shapes of the header; scratchpad and census sets stay. -/
structure State.segmentStarts (s t : State) (c : CoreId) (i : Nat) (g : Segment) : Prop where
  running : (t.core c).running = some i ∧ (t.core c).status = 1 ∧ (t.core c).faulted = false
  queues : ∀ q : Fin 4, (t.core c).aq[q] = [] ∧ (t.core c).eq[q] = []
  registers : ∀ x : Fin 16, (t.core c).access.desc[x].valid = false ∧ (t.core c).exec.desc[x].valid = false
  lanes : ∀ l : Fin 4, (t.core c).lanes[l].seeded = false
  budget : (t.core c).access.budget = ((s.job.manifest.map (·.budget)).getD 0)
  slots : ∀ e : Fin 3, let sh := g.shapes.getD e.val (32, 16, 0)
    (t.core c).engines[e] =
      { m := sh.1, n := sh.2.1, acc := sh.2.2,
        slots := List.replicate (min 32 (262144 / (sh.1 * sh.2.1 * if sh.2.2 = 0xC then 8 else 4))) Slot.reset }
  kept : (t.core c).spad = (s.core c).spad ∧ (t.core c).spadPoison = (s.core c).spadPoison ∧ (t.core c).census = (s.core c).census
  started : t.job.startRing = none ∧ (s.job.startRing.isSome = true → t.hlk.state = .running)
  others : ∀ d, d ≠ c → t.core d = s.core d
  rest : ∃ k r h p, t = { s with cores := k, job := { s.job with startRing := r }, hlk := h, pwr := p }

/-! ## Trees (R47, R89) -/

/-- The tile that a core put into one of its halves counts as taken by its tree (R89), with the poison that the half's lines have (R47). -/
def State.tookHalf (s : State) (c : CoreId) (half : Bool) : State :=
  { s with clusters := vmod s.clusters (clusterOf c) fun q => { q with trees := q.trees.map fun (x : Contribution) =>
      if x.core = c && x.half = half && !x.taken then { x with taken := true, poison := (s.core c).halves[(if half then 1 else 0 : Fin 2)].poison } else x } }

/-- A half released: its token is at the tail of the queue that the drain names, and the half is free (R89). -/
def Core.released (k : Core) (h : Fin 2) (f : DrnOp) : Core :=
  { k with aq := k.aq.set f.q (k.aq[f.q] ++ [{ token := f.rtok, base := 0, length := 0 }]), halves := k.halves.set h Half.reset }

/-! ## The fault log and the first fault of a core's segment -/

/-- From `s` to `t` one record has entered the fault log, with the tick (R344, R346): before the records of the same tick that name a
higher core, or none, and after all others; a full log has lost its oldest. -/
structure State.logs (s t : State) (r : Record) : Prop where
  placed : ∃ a b, a ++ b = (if 4096 ≤ s.flt.log.length then s.flt.log.tail else s.flt.log) ∧
    t.flt.log = a ++ { r with tick := s.now } :: b ∧ ∀ x ∈ b, Record.follows s.now r x = true
  counted : t.flt.logWritten = s.flt.logWritten + 1

/-- No core has faulted yet in this segment of `c`, and no abort and no quiesce runs, in which a stream raises nothing (R347). -/
structure State.unfaulted (s : State) (c : CoreId) : Prop where
  core : (s.core c).faulted = false
  aborting : s.job.aborting = false
  quiescing : s.job.quiescing = false

/-- A record with the fields that say which core raised it (R344). -/
def State.coreRecord (s : State) (c : CoreId) (r : Record) : Record :=
  { r with core := some c, phys := (s.core c).phys, step := s.job.step, segment := (s.core c).segment, heads := queueHeads (s.core c), secondary := 0 }

/-- From `s` to `t` core `c` has recorded a fault (R77, R346, R347, R441): the record enters the fault log and stands in the core's
fault slot, the core is stopped with status 3, and the step is aborted with the poison flag set. -/
structure State.recorded (s t : State) (c : CoreId) (r : Record) : Prop where
  faulted : (t.core c).faulted = true
  valid : (t.core c).faultValid = true
  slot : (t.core c).faultSlot = r
  status : (t.core c).status = 3
  stopped : (t.core c).running = none ∧ (t.core c).access.stopped = true ∧ (t.core c).exec.stopped = true
  logged : s.logs t r
  abort : t.job.abort = true ∧ t.job.poison = true ∧ t.job.dispatching = false

/-- From `s` to `t` core `c` has raised its segment's first fault (R77), with the fields that say which core raised it. -/
abbrev State.faultOf (s t : State) (c : CoreId) (r : Record) : Prop := s.recorded t c (s.coreRecord c r)

/-! ## The fatal path -/

/-- From `s` to `t` a fatal error has been taken (R359–R362): its record enters the fault log, every stream and burnishing slice is
stopped, no segment starts, every lease is reclaimed and every cinch left, no pass and no request of HBM waits, and a dump of this code has
begun. -/
structure State.fatalOf (s t : State) (code : W16) (cause : Byte) : Prop where
  logged : s.logs t { Record.blank with code := code, cause := cause, source := 5, step := s.job.step }
  dump : t.flt.dumping = true ∧ t.flt.dumpCode = code ∧ t.flt.dumpCause = cause ∧ t.flt.dumpSeq = s.flt.dumpSeq + 1
  stopped : ∀ c, (t.core c).running = none ∧ (t.core c).access.stopped = true ∧ (t.core c).exec.stopped = true ∧ (t.core c).sliceOn = false
  halted : t.job.dispatching = false
  leases : t.upd.leases = [] ∧ t.upd.queue = [] ∧ t.mem.waiting = [] ∧ ∀ l ∈ s.upd.leases, Out.xreclaim l.stack l.chan l.id ∈ t.out
  cinches : t.coll.cinches = [] ∧ t.coll.owed = []

/-! ## Descriptors (R298, R299, R306) -/

/-- A descriptor of an opcode is in progress on a ring, has not acted yet, and may start: nothing before it holds it, and the link is up where
the descriptor uses it (R293, R306). -/
structure State.descReady (s : State) (ring : RingId) (idx : W16) (op : Nat) (d : Inflight) : Prop where
  found : (s.hlk.rings[ring].inflight.find? fun d => d.idx == idx && d.status.isNone && !d.acted && isOpcode d op) = some d
  up : hostOp op = true → s.hlk.up = true
  starts : startable s ring d = true

/-- A descriptor may have been given a status, when it had none; nothing else of it changes. -/
def Inflight.stamped (d e : Inflight) : Prop := e = d ∨ (d.status = none ∧ ∃ st a b c, e = d.finish st a b c)

/-- The commands by which a descriptor acts, with their opcodes. -/
def descCommands (ring : RingId) (idx : W16) (data : List Byte) (err : Bool) (failed : Option HostAccess) : List (Nat × Instr) :=
  [(0x01, .nop ring idx), (0x02, .waitr ring idx), (0x02, .waitrTimeout ring idx), (0x10, .htod ring idx data err), (0x11, .dtoh ring idx err),
   (0x20, .stepHold ring idx), (0x20, .stepRelease ring idx), (0x20, .stepReplay ring idx), (0x20, .drainSet ring idx), (0x20, .drainClear ring idx),
   (0x30, .mgmtIdentitySnapshot ring idx data failed), (0x30, .mgmtTelemetrySnapshot ring idx data failed), (0x30, .mgmtAttestationQuote ring idx data failed),
   (0x30, .mgmtDumpRead ring idx data failed), (0x30, .mgmtBootReport ring idx data failed), (0x40, .discover ring idx data err), (0x41, .load ring idx data err),
   (0x42, .start ring idx), (0x43, .teardown ring idx)]

/-! ## Boot (R331, R374–R377, R418–R421) -/

/-- A boot of this state in this environment finds nothing wrong: fewer than three failed starts, an image of every type the variant needs,
keys, supplies, clocks, stacks, temperatures and optics good, and in every enabled cluster a core fast enough that neither this boot's
tests nor the records of module flash find failed or suspect. -/
structure State.bootClean (s : State) (env : BootEnv) : Prop where
  starts : s.boot.failedStarts ≠ 3 ∧ env.records.failedStarts = false
  stages : env.fail = none
  images : ∀ k : Fin 5, k.val < 3 ∨ (k.val = 3 ∧ s.glb.variant = .s64) → (selectSlot s k).isSome = true
  keys : (∃ i : Fin 3, env.pufReads[i.val]? = some true) ∧ (s.sec.fleetInstalled = true → env.fleetOk = true) ∧ env.secFlashOk = true
  supplies : env.rail = none ∧ env.pll = none
  hbm : env.stackSilent = none ∧ chansBad env = []
  trips : (s.pwr.tripPending = true → env.postTripOk = true) ∧ env.tripIn80 = none
  cores : ∀ c : Fin 8, enabledCluster s c = true →
    ∃ p : Fin 9, (c, p) ∉ env.coresBad ∧ ((c, p) ∉ s.boot.coreFailed ∨ env.records.characterisation = true) ∧
      (c, p) ∉ s.boot.coreSuspect ∧ (c, p) ∉ env.records.suspects ∧ 900 ≤ usableFreq (fmeasOf env c p)
  optics : env.engineBad = none

/-- Nothing outside the cores differs, but for the counter from which free values are drawn. -/
def State.onlyCores (s t : State) : Prop := t = { s with cores := t.cores, free := t.free }

/-- Nothing outside one core differs. -/
def State.onlyCore (s t : State) (c : CoreId) : Prop := s.onlyCores t ∧ ∀ d, d ≠ c → t.core d = s.core d

/-- A step goes on: it answers a next state. -/
def State.goesOn (s : State) : Prop := ∃ t, step s = .next t

end Sys2Proof.Machine
end

