-- ==== Sys2Proof/Certificates/Slice0/Obligations.lean ====
section
/-! DEFINITION. The statements about the model: whole-machine rules and invariants first, then each family of commands in the
order of the opcode table. A docstring names the rules a statement rests on. -/

open Sys2Proof Sys2Proof.Machine

/-! ## The whole machine -/

/-- A step is the command at the front of the queue, run on the state with the queue's rest. With no command waiting, one reference tick
passes, which is the model's choice (log entry 1); at each microsecond of a powered job side the loops of R266 run: the set point of each
locked ring moves with its trim, by what its loop finds, the receivers' polarisation and carrier corrections move, an unlocked ring's set
point stays, and nothing else changes (what the loops find is free, log entry 17). -/
def Obligations.StepRunsFront : Prop :=
  ∀ s : State,
    (∀ (c : Instr) (rest : List Instr), s.pending = c :: rest → step s = exec c { s with pending := rest }) ∧
    (s.pending = [] → let u : State := { s with glb := { s.glb with ticks := s.glb.ticks + 1 } }
      let loops : Prop := u.glb.ticks.toNat % 100 = 0 ∧ s.jobSide = true
      (¬ loops → step s = .next u) ∧
      (loops → ∃ t, step s = .next t ∧ t = { u with free := s.free + 64, opt := { s.opt with lanes := t.opt.lanes } } ∧
        ∀ g : LaneId, let l := s.opt.lanes[g]
          ∃ dRx dTx dPolar dCarrier : W16, t.opt.lanes[g] = { l with
            trimRx := if l.rxState = 3 then l.trimRx + dRx else l.trimRx, heatRx := if l.rxState = 3 then l.heatRx + dRx else l.heatRx,
            trimTx := if l.txState = 3 then l.trimTx + dTx else l.trimTx, heatTx := if l.txState = 3 then l.heatTx + dTx else l.heatTx,
            polar := if l.rxState = 3 then l.polar + dPolar else l.polar, carrier := if l.rxState = 3 then l.carrier + dCarrier else l.carrier }))
/-- Every step from a sound state gives a sound state: the byte stores of HBM and of every scratchpad stay in canonical form
(R25, R171), no token queue ever holds more than 16 entries (R32, R34), and the fault log holds at most 4,096 records (R346). -/
def Obligations.StepKeepsSound : Prop := ∀ s t : State, s.sound = true → step s = .next t → t.sound = true

/-- The state after reset is sound. -/
def Obligations.ResetSound : Prop := State.reset.sound = true

/-- Every command goes on, and leaves the queue of waiting commands as it found it. -/
def Obligations.ExecKeepsQueue : Prop :=
  ∀ (c : Instr) (s : State), ∃ t, exec c s = .next t ∧ (s.sound = true → t.pending = s.pending)

/-! ## Access stream (R52–R72) -/

/-- SETD, ADVD, LOOP, BUDG and FENCE on a free stream (R56, R59, R60, R71, R72): the register, the loop or the budget is
written, the stream passes on, and nothing else of the machine changes. -/
def Obligations.AccessControlCompletes : Prop :=
  ∀ (s : State) (c : CoreId), s.accessReady c →
    (∀ f : SetdOp, exec (.setd c f) s = .next (updAccess s c fun a => { a.passed with desc := a.desc.set f.d (Desc.ofSetd f) })) ∧
    (∀ (d : Fin 16) (restore : Bool) (disp : W32), exec (.advd c d restore disp) s =
      .next (updAccess s c fun a => { a.passed with desc := a.desc.set d (a.desc[d].advance restore disp) })) ∧
    (∀ (count : W16) (body : BitVec 10), exec (.loop c count body) s = .next (updAccess s c fun a =>
      { a with index := a.index + 1,
               loops := { first := a.index + 1, last := a.index + 1 + body.toNat, left := count.toNat } :: a.loops })) ∧
    (∀ n : W32, exec (.budg c n) s = .next (updAccess s c fun a => { a.passed with budget := n })) ∧
    exec (.fence c) s = .next (updAccess s c Access.passed)

/-- PUSH adds its entry, POP takes the head entry that carries its token, and a WAITF whose flag meets its condition passes
(R33, R34, R69, R70). -/
def Obligations.QueueAndFlagComplete : Prop :=
  ∀ (s : State) (c : CoreId), s.accessReady c →
    (∀ f : PushOp, f.token ≠ 0 → (s.core c).aq[f.q].length < 16 →
      (if f.form1 then pushCause (spadOpen s) f.base.toNat (f.length.toNat + 1)
       else spadCause (spadOpen s) (s.core c).access.desc[f.reg]) = none →
      exec (.push c f) s = .next (s.updCore c fun k =>
        { k with aq := k.aq.set f.q (k.aq[f.q] ++ [if f.form1 then { token := f.token, base := f.base, length := f.length }
                                                   else k.access.desc[f.reg].entry f.token]),
                 access := { k.access.passed with nextSeq := k.access.nextSeq + 1 } })) ∧
    (∀ (q : Fin 4) (token : Token) (e : Entry) (rest : List Entry), (s.core c).eq[q] = e :: rest → e.token = token →
      exec (.pop c q token) s = .next (s.updCore c fun k => { k with eq := k.eq.set q rest, access := k.access.passed })) ∧
    (∀ (equal : Bool) (src : Fin 16) (value : W32), let d := (s.core c).access.desc[src]
      0 ≤ d.start → hbmCause s d.start.toNat 4 false (d.start.toNat % 4 == 0) = none → hbmPoisoned s d.start.toNat 4 = false →
      (if equal then read32 s d.start.toNat = value else value ≤ read32 s d.start.toNat) →
      exec (.waitf c equal src value) s = .next (updAccess s c Access.passed))

/-- LDH, STH, MOVS, GATH and SCAT whose operands pass the checks move their bytes and are in flight (R54, R62–R65): where the
destination is scratchpad, nothing outside the core changes; where it is HBM, the bytes are stored at the addresses of the
destination's rows. -/
def Obligations.LocalMovesComplete : Prop :=
  ∀ (s : State) (c : CoreId) (m : MoveOp) (k : Core),
    (s.moveReady c .ldh m k → hbmCheck s (k.src m) false true = none →
      exec (.ldh c m) s = .next (s.updCore c fun _ =>
        { (scatterSpad k (k.dst m) (gatherHbm s (k.src m))).moved (k.src m).bytes with access := k.access.issued .ldh m false 0 })) ∧
    (s.moveReady c .sth m k → hbmCheck s (k.dst m) true true = none →
      exec (.sth c m) s = .next ((scatterHbm s (k.dst m) (gatherSpad k (k.src m))).updCore c fun _ =>
        { k.moved (k.dst m).bytes with access := k.access.issued .sth m false 0 })) ∧
    (s.moveReady c .movs m k →
      ((k.dst m).start.toNat + (k.dst m).extent - 1 < (k.src m).start.toNat ∨
        (k.src m).start.toNat + (k.src m).extent - 1 < (k.dst m).start.toNat) →
      exec (.movs c m) s = .next (s.updCore c fun _ =>
        { (scatterSpad k (k.dst m) (gatherSpad k (k.src m))).moved (k.src m).bytes with access := k.access.issued .movs m false 0 })) ∧
    (s.moveReady c .gath m k → hbmCheck s (k.src m) false true = none → badIndex (k.src m) (indexList k (k.aux m)) = none →
      let bs := gatherRows s (k.src m) (indexList k (k.aux m))
      exec (.gath c m) s = .next (s.updCore c fun _ =>
        { (scatterSpad k (k.dst m) bs).moved bs.length with access := k.access.issued .gath m false 0 })) ∧
    (s.moveReady c .scat m k → hbmCheck s (k.dst m) true true = none → badIndex (k.dst m) (indexList k (k.aux m)) = none →
      let bs := gatherSpad k (k.src m)
      exec (.scat c m) s = .next ((storeRows s (k.dst m) (indexList k (k.aux m)) bs).updCore c fun _ => { k.moved bs.length with access := k.access.issued .scat m false 0 }))

/-- RGET, RPUT, ATOM and LAND whose operands pass the checks (R63, R66, R67, R75): the packets of a remote operation are queued
for the fabric, a local ATOM updates memory, and a LAND goes to its landing unit; the instruction is in flight. -/
def Obligations.RemoteMovesComplete : Prop :=
  ∀ (s : State) (c : CoreId) (m : MoveOp) (k : Core),
    (s.moveReady c .rget m k → 0 ≤ (k.src m).start → (k.src m).start.toNat + (k.src m).extent ≤ 2 ^ 40 →
      ((k.dst m).space = 1 → hbmCheck s (k.dst m) true true = none) →
      let ps := pieces (k.src m).runs (k.dst m).runs
      exec (.rget c m) s = .next ((ps.foldl (queueGet c k.access.nextSeq (k.src m).chip ((k.dst m).space == 0)) s).updCore c fun _ =>
        { k.moved (ps.map (·.2.2)).sum with access := k.access.issued .rget m true ps.length })) ∧
    (s.moveReady c .rput m k → 0 ≤ (k.dst m).start → (k.dst m).start.toNat + (k.dst m).extent ≤ 2 ^ 40 →
      ((k.src m).space = 1 → hbmCheck s (k.src m) false true = none) →
      let ps := pieces (k.dst m).runs (k.src m).runs
      exec (.rput c m) s = .next ((ps.foldl (queuePut c k.access.nextSeq (k.dst m).chip ((k.src m).space == 0)) s).updCore c fun _ =>
        { k.moved (ps.map (·.2.2)).sum with access := k.access.issued .rput m true ps.length })) ∧
    (∀ op : BitVec 4, s.moveReady c (.atom op) m k → (k.dst m).space = 1 →
      hbmCheck s (k.dst m) true (atomAligned k m (k.dst m) (k.aux m)) = none →
      badIndex (k.dst m) (if m.ix then indexList k (k.aux m) else []) = none →
      let es := atomElems k m (k.src m) (k.dst m) (k.aux m)
      exec (.atom c m op) s = .next ((atomicMany s (k.src m).format op es).updCore c fun _ =>
        { k.moved (es.map (·.2.length)).sum with access := k.access.issued (.atom op) m false 0 })) ∧
    (∀ op : BitVec 4, s.moveReady c (.atom op) m k → (k.dst m).space ≠ 1 → 0 ≤ (k.dst m).start → (k.dst m).start.toNat + (k.dst m).extent ≤ 2 ^ 40 →
      badIndex (k.dst m) (if m.ix then indexList k (k.aux m) else []) = none →
      let ps := atomSends m k (k.src m) (k.dst m) (k.aux m)
      exec (.atom c m op) s = .next
        ((ps.foldl (queueAtom c k.access.nextSeq (k.dst m).chip (k.src m).format op (gatherSpad k (k.src m))) s).updCore c fun _ =>
          { k.moved (ps.map (·.2.2)).sum with access := k.access.issued (.atom op) m true ps.length })) ∧
    (∀ (l : LandOp) (g : Group), s.moveReady c (.land l) m k → s.upd.groups.find? (·.idx == l.group) = some g →
      l.offset.toNat + (k.src m).count ≤ g.elements →
      exec (.land c m l) s = .next
        ({ s with upd := { s.upd with landings := s.upd.landings ++ [landingOf k c k.access.nextSeq l (k.src m)] } }.updCore c fun _ =>
          { k.moved (4 * (k.src m).count) with access := k.access.issued (.land l) m true 1 }))

/-- COLL RS, AG, AR, A2AV, BCAST and MCAST whose operands pass the checks enter their operation, and COLL CINCH enters its cinch
(R68, R232, R233, R247). -/
def Obligations.CollectivesEnter : Prop :=
  ∀ (s : State) (c : CoreId) (m : MoveOp) (k : Core) (l : CollOp) (cm : Comm), commOf s l.comm = some cm →
    (∀ x ∈ collInstr c m l, s.moveReady c (.coll x.1 l) m k → collCause s cm x.1 l (k.src m) (k.dst m) = none →
      exec x.2 s = .next ((collStart s c k.access.nextSeq cm x.1 l (k.src m) (k.dst m)).updCore c fun _ =>
        { k with access := k.access.issued (.coll x.1 l) m true 1 })) ∧
    (s.moveReady c (.coll 6 l) m k → collCause s cm 6 l (k.src m) (k.dst m) = none →
      exec (.collCinch c m l) s = .next
        (collCinch (s.updCore c fun _ => { k with access := k.access.issued (.coll 6 l) m true 1 }) c k.access.nextSeq cm l (k.src m) (k.dst m)))

/-- An instruction in flight that reaches completion leaves the stream's flights. Where it pushes, its entry goes to the tail of its
queue, or waits while that holds 16 entries; after a stop its push is dropped (R34, R53, R62, R77). What waited at a queue takes effect once it can (R34): a push whose queue has room, a POPE whose token is at the head. -/
def Obligations.FlightsComplete : Prop :=
  (∀ (s : State) (c : CoreId) (f : Flight), (s.core c).access.flights = [f] → (s.core c).access.waiting = [] →
      (s.core c).access.stopped = false → f.done = false → f.open_ = 0 →
      (f.pushes = false → exec (.accessCompletion c f.seq) s = .next (updAccess s c fun a => { a with flights := [] })) ∧
      (f.pushes = true → (s.core c).aq[f.queue].length < 16 → exec (.accessCompletion c f.seq) s = .next (s.updCore c fun k =>
        { k with aq := k.aq.set f.queue (k.aq[f.queue] ++ [f.entry]), access := { k.access with flights := [] } })) ∧
      (f.pushes = true → 16 ≤ (s.core c).aq[f.queue].length → exec (.accessCompletion c f.seq) s = .next (updAccess s c fun a =>
        { a with flights := [{ f with moved := true, done := true, pushDue := true }] }))) ∧
  (∀ (s : State) (c : CoreId) (f : Flight), (s.core c).access.flights = [f] → (s.core c).access.stopped = true → (s.core c).faultDue = none →
      f.done = false → f.open_ = 0 → exec (.accessCompletion c f.seq) s = .next (updAccess s c fun a => { a with flights := [] })) ∧
  (∀ (s : State) (c : CoreId), (s.core c).running.isSome = true →
      (∀ f : Flight, (s.core c).access.flights = [f] → (s.core c).access.waiting = [] → (s.core c).access.stopped = false →
        f.pushes = true → f.pushDue = true → (s.core c).aq[f.queue].length < 16 →
        (s.core c).halves[(0 : Fin 2)].pushDue = false → (s.core c).halves[(1 : Fin 2)].pushDue = false →
        (∀ w ∈ (s.core c).taccs, w.pushDue = false) →
        exec (.queueWaitResume c .access) s = .next (s.updCore c fun k =>
          { k with aq := k.aq.set f.queue (k.aq[f.queue] ++ [f.entry]), access := { k.access with flights := [] } })) ∧
      (∀ (delta : W16) (q : Fin 4) (token : Token) (e : Entry) (rest : List Entry), (s.core c).exec.waiting = [(delta, .pope q token)] →
        (s.core c).exec.stopped = false → lateSlip (s.core c) (s.issueCycle c delta) = none →
        (s.core c).aq[q] = e :: rest → e.token = token →
        exec (.queueWaitResume c .execute) s = .next (s.passes c (fun k => { k.settled (s.issueCycle c delta) with aq := k.aq.set q rest })
          (s.issueCycle c delta) (s.issueCycle c delta))))

/-- A WAITF whose flag word is poisoned or does not meet its condition waits in flight, and holds the stream until a poll finds the
word clean and met, or its budget expires; every poisoned read is counted (R70, R71, R352). -/
def Obligations.FlagIsPolled : Prop :=
  ∀ (s : State) (c : CoreId) (equal : Bool) (src : Fin 16) (value : W32), let d := (s.core c).access.desc[src]
    let a := d.start.toNat
    (s.accessReady c → 0 ≤ d.start → hbmCause s a 4 false (a % 4 == 0) = none → s.flagMet a equal value = false →
      exec (.waitf c equal src value) s = .next (updAccess (s.noteFlag a) c fun x =>
        { x.passed with flights := [newFlight x (.waitf equal src value) noMove { token := 0, base := 0, length := 0 } [] true 1],
                        nextSeq := x.nextSeq + 1 })) ∧
    (∀ f : Flight, (s.core c).access.flights = [f] → f.instr = .waitf equal src value → (s.core c).access.waiting = [] →
      (s.core c).access.stopped = false →
      exec (.waitfPoll c) s = .next (if s.flagMet a equal value then updAccess s c fun x => { x with flights := [] } else s.noteFlag a)) ∧
    (∀ (f : Flight) (elapsed : W32), (s.core c).access.flights = [f] → f.instr = .waitf equal src value → f.armed = true → f.done = false →
      f.open_ ≠ 0 → s.unfaulted c → outcomeNow s c f.seq = false →
      ∃ t r, exec (.budgetExpiry c f.seq elapsed) s = .next t ∧ (t.core c).access.flights = [] ∧ s.faultOf t c r ∧ r.code = codeStreamStall)

/-- The budget of an armed instruction in flight expires (R71, R75, R77): it leaves the stream's flights, and the core raises STREAM_STALL
with the cause and the fields of its wait; where another outcome of the instruction comes in the same tick, the expiry does nothing. The budget
of a remote instruction that waits for a tag at issue expires so too. -/
def Obligations.BudgetStalls : Prop :=
  ∀ (s : State) (c : CoreId) (elapsed : W32),
    (∀ f : Flight, (s.core c).access.flights = [f] → f.armed = true → f.done = false → f.open_ ≠ 0 →
      (outcomeNow s c f.seq = true → exec (.budgetExpiry c f.seq elapsed) s = .next s) ∧
      (outcomeNow s c f.seq = false → s.unfaulted c →
        ∃ t, exec (.budgetExpiry c f.seq elapsed) s = .next t ∧ (t.core c).access.flights = [] ∧ t.mem = s.mem ∧
          s.faultOf t c ((stallRecord s c f elapsed).2 (accessRecord f.index f.instr codeStreamStall (stallRecord s c f elapsed).1)))) ∧
    (∀ (k : MoveKind) (m : MoveOp) (rest : List AInstr), s.unfaulted c → let a := (s.core c).access
      outcomeNow s c a.nextSeq = false → a.stopped = false → a.waiting = .move k m :: rest → a.flights = [] → needsTag k a.desc[m.dst] = true →
      384 ≤ coreTags s c →
      ∃ t, exec (.budgetExpiry c a.nextSeq elapsed) s = .next t ∧ t.mem = s.mem ∧
        s.faultOf t c { accessRecord a.index (.move k m) codeStreamStall 1 with
          cycle := elapsed, doneTok := if m.de then m.dtok else 0, chip := remoteChip a (.move k m) })
/-- A wait that finds another token at the head of its queue is a STREAM_STALL of cause 7 at once (R35): a POP, the wait of every
moving instruction, and a POPE. -/
def Obligations.TokenOrderStalls : Prop :=
  ∀ (s : State) (c : CoreId) (e : Entry) (rest : List Entry), s.unfaulted c →
    (∀ (q : Fin 4) (token : Token), s.accessReady c → (s.core c).eq[q] = e :: rest → e.token ≠ token →
      ∃ t, exec (.pop c q token) s = .next t ∧
        s.faultOf t c { accessRecord (s.core c).access.index (.pop q token) codeStreamStall 7 with carried := token }) ∧
    (∀ (m : MoveOp) (op : BitVec 4) (l : LandOp) (l1 : CollOp), ∀ x ∈ moveInstrs c m op l l1, s.accessReady c → m.we = true →
      (s.core c).eq[m.wq] = e :: rest → e.token ≠ m.wtok →
      ∃ t, exec x.2 s = .next t ∧
        s.faultOf t c { accessRecord (s.core c).access.index (.move x.1 m) codeStreamStall 7 with
          carried := m.wtok, doneTok := if m.de then m.dtok else 0 }) ∧
    (∀ (delta : W16) (q : Fin 4) (token : Token), s.mayIssue c delta (.pope q token) → (s.core c).aq[q] = e :: rest → e.token ≠ token →
      ∃ t, exec (.pope c delta q token) s = .next t ∧
        s.faultOf t c { execRecord (s.core c).exec (.pope q token) codeStreamStall 7 with carried := token })

/-- A move with a scratchpad operand out of range raises SPAD_RANGE, and one with an HBM operand that fails a check of R74 raises
HBM_RANGE, as does a DRN whose landing leaves its parameter; the fault stops the core and moves no byte of HBM (R67, R73, R74, R77). -/
def Obligations.RangeFaults : Prop :=
  ∀ (s : State) (c : CoreId) (m : MoveOp) (op : BitVec 4) (l : LandOp) (l1 : CollOp), s.unfaulted c →
    (s.accessReady c → m.we = false → ∀ x ∈ moveInstrs c m op l l1, ∀ cause addr : Nat, (needsTag x.1 ((s.core c).dst m) = true → coreTags s c < 384) →
      spadChecks (spadOpen s) (moveSpad x.1 m ((s.core c).src m) ((s.core c).dst m) ((s.core c).aux m)) = some (cause, addr) →
      ∃ t, exec x.2 s = .next t ∧ t.mem = s.mem ∧
        s.faultOf t c { accessRecord (s.core c).access.index (.move x.1 m) codeSpadRange cause with addr := BitVec.ofNat 40 addr }) ∧
    (s.accessReady c → m.we = false → ∀ cause : Nat, spadChecks (spadOpen s) (moveSpad .ldh m ((s.core c).src m) ((s.core c).dst m) ((s.core c).aux m)) = none →
      hbmCheck s ((s.core c).src m) false true = some cause →
      ∃ t, exec (.ldh c m) s = .next t ∧ t.mem = s.mem ∧
        s.faultOf t c { accessRecord (s.core c).access.index (.move .ldh m) codeHbmRange cause with
          addr := BitVec.ofNat 40 (((s.core c).src m).base.toNat % 2 ^ 40) }) ∧
    (s.accessReady c → m.we = false → ∀ cause : Nat, spadChecks (spadOpen s) (moveSpad .sth m ((s.core c).src m) ((s.core c).dst m) ((s.core c).aux m)) = none →
      hbmCheck s ((s.core c).dst m) true true = some cause →
      ∃ t, exec (.sth c m) s = .next t ∧ t.mem = s.mem ∧
        s.faultOf t c { accessRecord (s.core c).access.index (.move .sth m) codeHbmRange cause with
          addr := BitVec.ofNat 40 (((s.core c).dst m).base.toNat % 2 ^ 40) }) ∧
    (∀ (delta : W16) (f : DrnOp) (own : Token) (cause : Nat), let t := s.issueCycle c delta
      let k := (s.core c).settled t
      s.mayIssue c delta (.drn f) → (k.slotAt f.eng f.slot.toNat).stateAt t = .owned own → f.dest = 4 →
      drnLandBad s f (k.engines[f.eng].m * k.engines[f.eng].n) = some cause →
      ∃ t', exec (.drn c delta f) s = .next t' ∧ t'.mem = s.mem ∧
        s.faultOf t' c { execRecord k.exec (.drn f) codeHbmRange cause with addr := BitVec.ofNat 40 f.offset.toNat })
/-! ## Execute stream (R79–R99) -/

/-- SETX, ADVX, LOOPX, WAITC, PUSHE, POPE and AWLS that pass the checks of their cycle (R80, R82, R96, R97): each has its one effect,
the stream's cycle is the issue cycle, and nothing outside the core changes. -/
def Obligations.ExecuteControlCompletes : Prop :=
  ∀ (s : State) (c : CoreId) (delta : W16), let t := s.issueCycle c delta
    let k := (s.core c).settled t
    let runs (f : Core → Core) : State := s.passes c (fun k => f (k.settled t)) t t
    (∀ f : SetxOp, s.mayIssue c delta (.setx f) → exec (.setx c delta f) s =
      .next (runs fun k => { k with exec := { k.exec with desc := k.exec.desc.set f.x (Desc.ofSetx f) } })) ∧
    (∀ (x : Fin 16) (restore : Bool) (disp : W32), s.mayIssue c delta (.advx x restore disp) → exec (.advx c delta x restore disp) s =
      .next (runs fun k => { k with exec := { k.exec with desc := k.exec.desc.set x (k.exec.desc[x].advance restore disp) } })) ∧
    (∀ (count : W16) (body : BitVec 10), s.mayIssue c delta (.loopx count body) →
      exec (.loopx c delta count body) s = .next { s.updCore c (fun _ =>
        { k.countCycles s.free s.pwr.halving t with
          exec := { k.exec with
            cycle := t, base := t, index := k.exec.index + 1, held := false,
            loops := { first := k.exec.index + 1, last := k.exec.index + 1 + body.toNat, left := count.toNat } :: k.exec.loops } })
        with free := s.free + 3 }) ∧
    (∀ n : W32, s.mayIssue c delta (.waitc n) →
      exec (.waitc c delta n) s = .next (s.passes c (fun k => k.settled t) t (t + n.toNat + 1))) ∧
    (∀ f : PushOp, s.mayIssue c delta (.pushe f) → (s.core c).eq[f.q].length < 16 → exec (.pushe c delta f) s =
      .next (runs fun k => { k with eq := k.eq.set f.q (k.eq[f.q] ++ [pusheEntry k f]) })) ∧
    (∀ (q : Fin 4) (token : Token) (e : Entry) (rest : List Entry), s.mayIssue c delta (.pope q token) →
      (s.core c).aq[q] = e :: rest → e.token = token →
      exec (.pope c delta q token) s = .next (runs fun k => { k with aq := k.aq.set q rest })) ∧
    (∀ (lane : Fin 4) (tid : BitVec 24) (base : BitVec 40), s.mayIssue c delta (.awls lane tid base) → exec (.awls c delta lane tid base) s =
      .next (runs fun k => { k with lanes := k.lanes.set lane { seeded := true, tid := tid, idx := base } }))
/-- An MMA whose slot is Free for a start, or Owned by its token for a continuation, runs (R42, R83, R85): the slot is Owned by the token
and holds the product, its unit is busy for the product's cycles, and nothing outside the core changes. -/
def Obligations.MmaCompletes : Prop :=
  ∀ (s : State) (c : CoreId) (delta : W16) (f : MmaOp), let t := s.issueCycle c delta
    let k := (s.core c).settled t
    let i := XInstr.mma f
    let v := k.slotAt f.eng f.slot.toNat
    let busy := mmaLoad k f t + mmaDepth k f
    let ready := t + busy + (if halfRate k f then 12 else 6)
    s.mayIssue c delta i → v.stateAt t = (if f.cont then .owned f.own else .free) →
    exec (.mma c delta f) s = .next (s.passes c (fun _ => { (k.openWindow i (mmaPlan k f t) t ready (some (f.eng, f.slot.toNat)) (halfRate k f)).setSlot
      f.eng f.slot.toNat
        { st := .owned f.own,
          acc := product k.engines[f.eng] f v.acc (k.operand i t f.a).1 (k.operand i t f.b).1 (k.operand i t f.as).1 (k.operand i t f.bs).1,
          poison := (k.operand i t f.a).2 || (k.operand i t f.b).2 || (k.operand i t f.as).2 || (k.operand i t f.bs).2 || (f.cont && v.poison),
          readyAt := ready }
      with mmaBusy := k.mmaBusy.set f.eng (k.mmaBusy[f.eng] + BitVec.ofNat 64 busy) }) t t)

/-- TILE_CONFLICT is precise (R42, R43): an MMA that starts on a slot that is not Free, or continues on one that is not Owned by its token, a
DRN on a slot that is not Owned, and a TACC that fails the test of its mode raise it at issue, and leave every slot's tile, the scratchpad
and the queues as they were before the abort. An instruction that fails a timing check of R84 in its issue cycle as well raises CHAIN_SLIP instead (R43). -/
def Obligations.TileConflicts : Prop :=
  ∀ (s : State) (c : CoreId) (delta : W16), s.unfaulted c → let t := s.issueCycle c delta
    let k := (s.core c).settled t
    let faults (i : XInstr) (slot : BitVec 5) (st : SlotState) (cause : Nat) (own : Token) : Record :=
      { execRecord k.exec i codeTileConflict cause with
        slot := slot, cycle := BitVec.ofNat 32 t, slotState := slotCode st, owner := slotOwner st, carried := own }
    (∀ f : MmaOp, s.mayIssue c delta (.mma f) → let st := (k.slotAt f.eng f.slot.toNat).stateAt t
      st ≠ (if f.cont then .owned f.own else .free) →
      ∃ t', exec (.mma c delta f) s = .next t' ∧ t'.mem = s.mem ∧
        s.faultOf t' c (faults (.mma f) f.slot st (if f.cont then 1 else 0) f.own)) ∧
    (∀ f : DrnOp, s.mayIssue c delta (.drn f) → let st := (k.slotAt f.eng f.slot.toNat).stateAt t
      (∀ own, st ≠ .owned own) →
      ∃ t', exec (.drn c delta f) s = .next t' ∧ t'.mem = s.mem ∧ s.faultOf t' c (faults (.drn f) f.slot st 2 0)) ∧
    (∀ f : TaccOp, s.mayIssue c delta (.tacc f) → let st := (k.slotAt f.eng f.slot.toNat).stateAt t
      st ≠ (if f.cont then .owned f.own else .free) →
      ∃ t', exec (.tacc c delta f) s = .next t' ∧ t'.mem = s.mem ∧ s.faultOf t' c (faults (.tacc f) f.slot st 3 f.own)) ∧
    (∀ (f : MmaOp) (g : DrnOp) (h : TaccOp) (p : Slip), ∀ i ∈ [XInstr.mma f, .drn g, .tacc h], (s.core c).running.isSome = true →
      (s.core c).exec.stopped = false → (s.core c).exec.waiting = [] → lateSlip (s.core c) t = none → drnHeld k i = false →
      xSpadCause s k i (xPlan k i t) = none → timingSlip k i (xPlan k i t) t = some p → p.cycle ≤ t →
      ∃ t' r, exec (i.command c delta) s = .next t' ∧ s.faultOf t' c r ∧ r.code = codeChainSlip)

/-- CHAIN_SLIP (R38, R84, R95): an instruction that comes too early, overlaps a range still in use, or fails a check of its links whose cycle
has come raises it in its issue cycle; so does the stream when a beat went by unsampled. A mismatch whose cycle is still to come is
kept, and the instruction runs on until then. -/
def Obligations.ChainSlips : Prop :=
  ∀ (s : State) (c : CoreId) (delta : W16) (i : XInstr) (p : Slip),
    (s.core c).running.isSome = true → (s.core c).exec.stopped = false → (s.core c).exec.waiting = [] →
    let t := s.issueCycle c delta
    let k := (s.core c).settled t
    let slips : Prop := lateSlip (s.core c) t = none ∧ drnHeld k i = false ∧ xSpadCause s k i (xPlan k i t) = none ∧
      timingSlip k i (xPlan k i t) t = some p
    (s.unfaulted c → (slips ∧ p.cycle ≤ t) ∨ lateSlip (s.core c) t = some p →
      ∃ t' r, exec (i.command c delta) s = .next t' ∧ t'.mem = s.mem ∧ s.faultOf t' c r ∧ r.code = codeChainSlip ∧
        r.cause = BitVec.ofNat 8 p.cause ∧ r.source = 1 ∧ r.instr = BitVec.ofNat 16 p.index ∧ r.opcode = BitVec.ofNat 8 p.opcode ∧
        r.offset = BitVec.ofInt 8 (max (-128) (min 127 p.offset)) ∧ r.cycle = BitVec.ofNat 32 p.cycle ∧
        r.other = BitVec.ofNat 16 p.other) ∧
    (slips → t < p.cycle → ∀ t' : State,
      runX (s.updCore c fun _ => { k with exec := { k.exec with waiting := [(delta, i)], due := k.exec.due ++ [p] } }) c i t = some t' →
      (t'.core c).exec.waiting = [] ∨ (t'.core c).exec.stopped = true → exec (i.command c delta) s = .next t')
/-- DRN of an Owned slot (R42, R87, R88, R89): the tile, scaled and converted by its engine's lane, goes to the scratchpad, a chain link or a
tree half; the slot keeps its tile, Owned or Draining until its last element has left; the lane's stream advances. -/
def Obligations.DrnCompletes : Prop :=
  ∀ (s : State) (c : CoreId) (delta : W16) (f : DrnOp) (own : Token), let t := s.issueCycle c delta
    let k := (s.core c).settled t
    let e := k.engines[f.eng]
    let v := k.slotAt f.eng f.slot.toNat
    let lane : Fin 4 := ⟨f.eng.val, by omega⟩
    let L := drnLat k f t
    let B := drnBeats k f
    let cv := skive f.fmt f.axis e.m e.n f.rnd (stepSeed s) s.job.step k.lanes[lane] (v.acc.map fun x => (slotValue e.acc x).scale f.exp.toInt)
    let bits := cv.1.map (·.bits)
    s.mayIssue c delta (.drn f) → f.slot.toNat < e.slots.length → v.stateAt t = .owned own →
    (f.dest = 4 → drnLandBad s f (e.m * e.n) = none) →
    ∃ t', exec (.drn c delta f) s = .next t' ∧ (t'.core c).aq = k.aq ∧ (t'.core c).eq = k.eq ∧
      (t'.core c).slotAt f.eng f.slot.toNat =
        { v with st := if f.rel then .draining own (some (if 2 ≤ f.dest.toNat then t + B else t + L + B)) else .owned own } ∧
      (t'.core c).lanes = k.lanes.set lane (k.lanes[lane].advance f.rnd (e.m * e.n)) ∧
      (f.dest.toNat < 2 → s.onlyCore t' c) ∧
      (∀ r, f.dest = 0 → opnd f.out = .reg r →
        (t'.core c).spad = (writeElems (k.writeScales f.sc cv.2 v.poison) k.exec.desc[r] bits v.poison).spad ∧
        (t'.core c).spadPoison = (writeElems (k.writeScales f.sc cv.2 v.poison) k.exec.desc[r] bits v.poison).spadPoison) ∧
      (∀ l, f.dest = 1 → opnd f.out = .link l → (t'.core c).exec.trains = k.exec.trains ++
        [{ link := l, first := t + L, count := B, per := 256, fmt := f.fmt, elems := bits, poison := v.poison,
           early := if drnHalf k f t then 2 else 1, producer := k.exec.index, sampled := false }]) ∧
      (2 ≤ f.dest.toNat →
        (t'.core c).halves[(if f.half then 1 else 0 : Fin 2)] =
          { busy := true, drn := some f, data := bits, poison := if v.poison then List.range ((e.m * e.n + 15) / 16) else [],
            pushDue := false, index := k.exec.index } ∧
        t'.clusters[clusterOf c].trees = s.clusters[clusterOf c].trees ++
          [{ core := c, drn := f, index := k.exec.index, order := s.coll.treeSeq, half := f.half, taken := false, data := bits, poison := [] }])

/-- TACC whose slot meets the test of its mode (R90): the slot counts as Draining by the token until the sum arrives, and the core waits
for that sum. -/
def Obligations.TaccCompletes : Prop :=
  ∀ (s : State) (c : CoreId) (delta : W16) (f : TaccOp), let t := s.issueCycle c delta
    let k := (s.core c).settled t
    let v := k.slotAt f.eng f.slot.toNat
    s.mayIssue c delta (.tacc f) → v.stateAt t = (if f.cont then .owned f.own else .free) →
    exec (.tacc c delta f) s = .next (s.passes c (fun _ =>
      { k.setSlot f.eng f.slot.toNat { v with st := .draining f.own none } with
         taccs := k.taccs ++ [{ f := f, index := k.exec.index, pushDue := false }] }) t t)

/-- VOP (R83, R92): the results of the operation, converted by the vector lane or rounded to nearest even, go to the scratchpad or to a chain
link; the queues, the slots and everything outside the core keep their contents. -/
def Obligations.VopCompletes : Prop :=
  ∀ (s : State) (c : CoreId) (delta : W16) (f : VopOp), let t := s.issueCycle c delta
    let k := (s.core c).settled t
    let i := XInstr.vop f
    let a := k.operand i t f.src0
    let b := k.operand i t (if vopNeeds1 f then f.src1 else 0x1F)
    let d := k.operand i t (if vopNeeds2 f then f.src2 else 0x1F)
    let poison := a.2 || b.2 || d.2
    let r := vopAll f.op.toNat f.bc.toNat f.imm (vopCols k f a.1.length) (vopN k f t) (widen (k.formatOf i t f.src0) a.1)
      (widen (k.formatOf i t f.src1) b.1) (widen (k.formatOf i t f.src2) d.1)
    let oc := match k.xdesc f.dst with | some x => (x.n1, x.n0) | none => (1, r.length)
    let cv := skive f.fmt f.axis oc.1 oc.2 f.rnd (stepSeed s) s.job.step k.lanes[(3 : Fin 4)] (r.map f32)
    let bits := if f.conv then cv.1.map (·.bits) else r.map (plainOut f.fmt)
    let w := if f.conv then k.writeScales f.sc cv.2 poison else k
    s.mayIssue c delta i →
    ∃ t', exec (.vop c delta f) s = .next t' ∧ s.onlyCore t' c ∧ (t'.core c).aq = k.aq ∧ (t'.core c).eq = k.eq ∧
      (t'.core c).engines = k.engines ∧
      (t'.core c).lanes = (if f.conv then k.lanes.set 3 (k.lanes[(3 : Fin 4)].advance f.rnd r.length) else k.lanes) ∧
      (∀ x, opnd f.dst = .reg x → (t'.core c).spad = (writeElems w k.exec.desc[x] bits poison).spad ∧
        (t'.core c).spadPoison = (writeElems w k.exec.desc[x] bits poison).spadPoison) ∧
      (∀ l, opnd f.dst = .link l → (t'.core c).spad = w.spad ∧ (t'.core c).exec.trains.getLast? = some
        { link := l, first := t + vopLat f, count := (vopOutBeats k f t).1, per := (vopOutBeats k f t).2, fmt := f.fmt, elems := bits,
          poison := poison, early := 0, producer := k.exec.index, sampled := false })

/-- RST (R83, R93): SMP writes its probabilities to the scratchpad or to a link through the vector lane, every other mode the statistics of
each row to its statistics region; the queues, the slots and everything outside the core keep their contents. -/
def Obligations.RstCompletes : Prop :=
  ∀ (s : State) (c : CoreId) (delta : W16) (f : RstOp), let t := s.issueCycle c delta
    let k := (s.core c).settled t
    let i := XInstr.rst f
    let rows := f.rows.toNat + 1
    let cols := f.cols.toNat + 1
    let a := k.operand i t (if f.mode = 1 then 0x1F else f.src0)
    let b := k.operand i t (if f.mode = 5 then f.src1 else 0x1F)
    let av := rowsOfN rows cols (widen (k.formatOf i t f.src0) a.1)
    let bv := rowsOfN rows cols (widen (k.formatOf i t f.src1) b.1)
    let st := (k.xdesc f.st).getD Desc.reset
    let poison := a.2 || b.2 || (rstReads f && (st.rows.any fun o => spadPoisoned k (st.start.toNat + o) 8))
    s.mayIssue c delta i →
    ∃ t', exec (.rst c delta f) s = .next t' ∧ s.onlyCore t' c ∧ (t'.core c).aq = k.aq ∧ (t'.core c).eq = k.eq ∧
      (t'.core c).engines = k.engines ∧
      (f.mode ≠ 2 → (t'.core c).lanes = k.lanes ∧ (t'.core c).spad = ((List.range rows).foldl (fun z j =>
        spadWrite z (st.start.toNat + j * st.stride1.toNat)
          (leBytes 4 (rstStat f (statAt k st j) (av.getD j []) (bv.getD j [])).1.toNat ++
           leBytes 4 (rstStat f (statAt k st j) (av.getD j []) (bv.getD j [])).2.toNat) poison) k).spad) ∧
      (f.mode = 2 →
        let r := ((List.range rows).map fun j => rstSmp (statAt k st j).2 f.imm (av.getD j [])).flatten
        let bits := (skive f.fmt false rows cols f.rnd (stepSeed s) s.job.step k.lanes[(3 : Fin 4)] (r.map f32)).1.map (·.bits)
        (t'.core c).lanes = k.lanes.set 3 (k.lanes[(3 : Fin 4)].advance f.rnd r.length) ∧
        (∀ x, opnd f.dst = .reg x → (t'.core c).spad = (writeElems k k.exec.desc[x] bits poison).spad) ∧
        (∀ l, opnd f.dst = .link l → (t'.core c).spad = k.spad ∧ (t'.core c).exec.trains.getLast? = some
          { link := l, first := t + 3, count := rstBusy f, per := 64, fmt := f.fmt, elems := bits, poison := poison, early := 0,
            producer := k.exec.index, sampled := false }))

/-- XPS (R94) writes the transpose of its source, elements unchanged, with the source's poison; CENF (R98, R117) writes the record of
its census set to scratchpad and clears the set. -/
def Obligations.XpsAndCenfComplete : Prop :=
  ∀ (s : State) (c : CoreId) (delta : W16), let t := s.issueCycle c delta
    let k := (s.core c).settled t
    (∀ f : XpsOp, let a := k.operand (.xps f) t f.src
      let out := transpose (f.rows.toNat + 1) (f.cols.toNat + 1) 0 a.1
      s.mayIssue c delta (.xps f) →
      ∃ t', exec (.xps c delta f) s = .next t' ∧ s.onlyCore t' c ∧ (t'.core c).aq = k.aq ∧ (t'.core c).eq = k.eq ∧
        (t'.core c).engines = k.engines ∧
        (∀ x, opnd f.dst = .reg x → (t'.core c).spad = (writeElems k k.exec.desc[x] out a.2).spad ∧
          (t'.core c).spadPoison = (writeElems k k.exec.desc[x] out a.2).spadPoison) ∧
        (∀ l, opnd f.dst = .link l → (t'.core c).spad = k.spad ∧ (t'.core c).exec.trains.getLast? = some
          { link := l, first := t + 5, count := (xpsBytes f + 511) / 512, per := 4096 / max 1 (eltBits f.fmt), fmt := f.fmt, elems := out,
            poison := a.2, early := 0, producer := k.exec.index, sampled := false })) ∧
    (∀ (set dst : Fin 16) (tid : BitVec 24), s.mayIssue c delta (.cenf set dst tid) → let z := k.census[set]
      let bs := (censusBytes z tid set.val s.job.step).map fun b => (b, z.poison)
      ∃ t', exec (.cenf c delta set dst tid) s = .next t' ∧ (z.poison = false → s.onlyCore t' c) ∧
        (t'.core c).spad = (scatterSpad k k.exec.desc[dst] bs).spad ∧ (t'.core c).spadPoison = (scatterSpad k k.exec.desc[dst] bs).spadPoison ∧
        (t'.core c).census = k.census.set set Census.reset ∧ (t'.core c).aq = k.aq ∧ (t'.core c).eq = k.eq ∧
        (z.poison = true → t'.job.poison = true ∧ t'.flt.consumptions = s.flt.consumptions + 1))

/-! ## Trees (R47, R89–R91, R127, R130) -/

/-- A tree takes the last element of a half (R47, R89): the tile counts as taken, with the poison of the half's lines. A half of destination 2 or
3 is then free and its release token is pushed; one of destination 4 stays busy until its landing is accepted (R132). Where the half completes a
chip-tree operation, the tree's sum goes to a landing (destination 4) or to the collective engine (destination 3). -/
def Obligations.TreeHalvesTaken : Prop :=
  ∀ (s : State) (c : CoreId) (half : Bool) (f : DrnOp), let h : Fin 2 := if half then 1 else 0
    let u := if f.dest = 2 ∨ f.dest = 3 then (s.tookHalf c half).updCore c fun k => k.released h f else s.tookHalf c half
    (s.core c).halves[h].drn = some f → (s.core c).halves[h].busy = true → (f.dest = 2 ∨ f.dest = 3 → (s.core c).aq[f.q].length < 16) →
    (f.dest = 2 → exec (.treeHalfTaken c half) s = .next u) ∧
    (∀ x : Contribution, f.dest ≠ 2 → firstPart (chipParts u f.op) = some x → chipComplete u f.op x.drn = false →
      exec (.treeHalfTaken c half) s = .next u) ∧
    (∀ (x : Contribution) (data : List PElem) (ov : Bool), f.dest ≠ 2 → firstPart (chipParts u f.op) = some x →
      chipComplete u f.op x.drn = true → chipSum u f.op x.drn = (some data, ov) →
      let v := dropParts u (chipParts u f.op)
      (x.drn.dest = 4 → exec (.treeHalfTaken c half) s = .next
        { v with
          job := { v.job with overflow := v.job.overflow || ov },
          upd := { v.upd with landings := v.upd.landings ++
            [{ source := .drain x.core x.index f.op ((chipParts u f.op).map fun y => (y.core, y.half)), group := x.drn.commGroup,
               mb := x.drn.chunkMb.toNat, first := x.drn.offset.toNat, data := data, refused := false }] } }) ∧
      (x.drn.dest ≠ 4 → ∃ t r, exec (.treeHalfTaken c half) s = .next t ∧
        t = { v with job := { v.job with overflow := v.job.overflow || ov }, coll := t.coll } ∧
        t.coll.runs = v.coll.runs ++ [r] ∧ r.core = x.core ∧ r.comm = x.drn.commGroup.setWidth 10 ∧ r.chunk = x.drn.chunkMb.toNat ∧
        r.buf = [data] ∧ r.drain = true))
/-- The sum of a complete cluster-tree operation reaches the slot of the TACC that waits for it on the receiving member (R90): a start
stores it and a continue adds it, the slot is Owned by the TACC's token and poisoned where an element is (R47), and atok is pushed. -/
def Obligations.TreeSumsArrive : Prop :=
  ∀ (s : State) (c : CoreId) (w : TaccWait) (x : Contribution) (sum : List PElem) (ov : Bool),
    let ps := treeParts s (clusterOf c) w.f.op false
    let k := s.core c
    k.taccs = [w] → w.pushDue = false → k.aq[w.f.q].length < 16 → firstPart ps = some x → treeComplete ps x.drn.mmask = true →
    x.drn.recv.val = memberOf c → clusterSum ps = (some sum, ov) →
    let v := k.slotAt w.f.eng w.f.slot.toNat
    let u := dropTree s (clusterOf c) w.f.op false
    exec (.treeSumArrival c w.f.op) s = .next (({ u with job := { u.job with overflow := u.job.overflow || ov } } : State).updCore c fun _ =>
      { k.setSlot w.f.eng w.f.slot.toNat
          { v with st := .owned w.f.own, acc := acceptSum k.engines[w.f.eng].acc (!w.f.cont) v.acc (sum.map (·.1)),
                   poison := sum.any (·.2) || (w.f.cont && v.poison) }
        with aq := k.aq.set w.f.q (k.aq[w.f.q] ++ [{ token := w.f.atok, base := 0, length := 0 }]), taccs := [] })
/-- The budget of a tree's wait expires (R91): STREAM_STALL on the receiving core for a cluster tree, on the core that contributed
first for a chip tree, with the members whose partials are missing. -/
def Obligations.TreeBudgetStalls : Prop :=
  ∀ (s : State) (c : CoreId) (op : Byte) (elapsed : W32),
    (∀ w : TaccWait, (s.core c).taccs = [w] → w.f.op = op → w.pushDue = false → s.unfaulted c →
      let ps := treeParts s (clusterOf c) op false
      ∃ t, exec (.treeBudgetExpiry c op false elapsed) s = .next t ∧ s.faultOf t c
        { treeStall w.index 0x19 3 elapsed (match firstPart ps with | some x => treeMissing (clusterOf c).val x.drn.mmask ps | none => [])
          with doneTok := w.f.atok, slot := w.f.slot, carried := w.f.own }) ∧
    (∀ x : Contribution, firstPart (chipParts s op) = some x → s.unfaulted x.core →
      ∃ t, exec (.treeBudgetExpiry c op true elapsed) s = .next t ∧ s.faultOf t x.core
        { treeStall x.index 0x18 4 elapsed ((List.finRange 8).flatMap fun cl =>
            if x.drn.cmask.getLsbD cl.val then treeMissing cl.val x.drn.mmask (treeParts s cl op true) else [])
          with doneTok := x.drn.rtok, comm := if x.drn.dest = 3 then x.drn.commGroup.zeroExtend 16 else 0,
               value := x.drn.chunkMb.zeroExtend 32 }) ∧
    (∀ (l : Landing) (d : CoreId) (i : Nat) (hs : List (CoreId × Bool)), chipParts s op = [] → s.upd.landings = [l] → l.refused = true → l.source = .drain d i op hs →
      s.unfaulted d →
      ∃ t, exec (.treeBudgetExpiry c op true elapsed) s = .next t ∧ s.faultOf t d (treeStall i 0x18 8 elapsed []) ∧ t.upd.landings = [])

/-! ## Dispatch (R45, R166, R337) -/

/-- The dispatcher's choice on a free core (R337): in GREEN the lowest ready segment; otherwise the lowest of class 0 or 1, then of class 2,
then, in AMBER only, of class 3, which RED holds and counts once a step. A ready update segment comes first (R166). A held class-3 segment starts once the core has had no work of a lower class for 100 µs, and the start is counted (R337). -/
def Obligations.SegmentsDispatched : Prop :=
  (∀ (s : State) (c : CoreId), coreFree s c = true → let rs := readySegments s c
      (∀ g : Nat × Segment, readyUpdates s c = [] →
        ((headroom s = 0 ∧ rs.head? = some g) ∨ (headroom s ≠ 0 ∧ rs.find? (fun x => x.2.cls.toNat ≤ 1) = some g) ∨
          (headroom s ≠ 0 ∧ (∀ x ∈ rs, ¬ x.2.cls.toNat ≤ 1) ∧ rs.find? (fun x => x.2.cls = 2) = some g) ∨
          (headroom s = 1 ∧ (∀ x ∈ rs, ¬ x.2.cls.toNat ≤ 2) ∧ rs.head? = some g)) →
        ∃ t, exec (.segmentDispatch c) s = .next t ∧ s.segmentStarts t c g.1 g.2 ∧ t.pwr = s.pwr) ∧
      (∀ g : Nat × Segment, readyUpdates s c = [] → headroom s = 2 → (∀ x ∈ rs, ¬ x.2.cls.toNat ≤ 2) → rs.head? = some g →
        ∃ t, exec (.segmentDispatch c) s = .next t ∧ (t.core c).running = none ∧ (t.core c).held3 = true ∧ s.mem = t.mem ∧
          t.pwr.class3Held = s.pwr.class3Held + (if (s.core c).heldCounted.contains g.1 then 0 else 1) ∧ g.1 ∈ (t.core c).heldCounted ∧
          ∀ d, d ≠ c → t.core d = s.core d) ∧
      (∀ p : Pass, firstPass (readyUpdates s c) = some p →
        ∃ t, exec (.segmentDispatch c) s = .next t ∧ (t.core c).running.isSome = true ∧ (t.core c).updating = some p ∧
          t.upd.queue = s.upd.queue.filter (· ≠ p) ∧ t.mem = s.mem ∧ ∀ d, d ≠ c → t.core d = s.core d)) ∧
  (∀ (s : State) (c : CoreId) (g : Nat × Segment) (rest : List (Nat × Segment)), coreFree s c = true → (s.core c).held3 = true →
      readyUpdates s c = [] → readySegments s c = g :: rest → (∀ x ∈ g :: rest, x.2.cls = 3) →
      ∃ t, exec (.class3HoldExpiry c) s = .next t ∧ s.segmentStarts t c g.1 g.2 ∧
        t.pwr = { s.pwr with holdExpired := s.pwr.holdExpired + 1 })

/-- A segment ends once both blocks have retired, every slot is Free and both halves are taken (R45): the core is idle, what is left in
its queues is discarded and counted (R36), and each of its outbound events is signalled once. An update segment ends with its pass (R166). -/
def Obligations.SegmentsEnd : Prop :=
  ∀ (s : State) (c : CoreId) (i : Nat), (s.core c).running = some i →
    (∀ g : Segment, (s.core c).updating = none → (s.core c).segments[i]? = some g → (s.core c).retired g = true →
      strandedBeat (s.core c) = none →
      ∃ t, exec (.segmentEnd c) s = .next t ∧ (t.core c).running = none ∧ (t.core c).status = 0 ∧ (t.core c).finished = i :: (s.core c).finished ∧
        (∀ q : Fin 4, (t.core c).aq[q] = [] ∧ (t.core c).eq[q] = []) ∧
        (t.core c).leftover = (s.core c).leftover + BitVec.ofNat 64 (((s.core c).aq.toList ++ (s.core c).eq.toList).map (·.length)).sum ∧
        (t.core c).spad = (s.core c).spad ∧ (t.core c).engines = (s.core c).engines ∧
        (∀ e, signals t e = signals s e + if e ∈ g.outbound then 1 else 0) ∧
        (∀ d, d ≠ c → t.core d = s.core d) ∧ t = { s with cores := t.cores, job := { s.job with events := t.job.events } }) ∧
    (∀ p : Pass, (s.core c).updating = some p → exec (.segmentEnd c) s =
      .next ((completePass s p).updCore c fun k => { k with running := none, updating := none, status := 0 }))

/-! ## Landings and the update (R127, R149–R151, R160, R182–R185) -/

/-- A landing that passes the checks of R149 is applied when every counter it covers stands at its micro-batch, parked when its stack's
park store has room, and otherwise refused and counted, to be sent again (R149, R150); a parked landing is applied once its counters
have come. Acceptance completes a LAND's part of its flight, and frees the halves whose drain made the landing, with their release tokens (R132). -/
def Obligations.LandingsComplete : Prop :=
  ∀ (s : State) (i : Nat) (l : Landing) (g : Group), groupOf s l.group = some g →
    (s.upd.landings[i]? = some l → landingCause s g l = none →
      (landingReady s g l = true →
        exec (.landingArrival i) s = .next (landingAccepted (applyLanding (dropLanding s i) g l) l)) ∧
      (landingReady s g l = false → s.upd.parkUsed[stackIx g.stack] + 4 * l.data.length ≤ parkSize s →
        exec (.landingArrival i) s = .next (landingAccepted { s with
          upd := { s.upd with landings := s.upd.landings.eraseIdx i, parked := s.upd.parked ++ [l],
                              parkUsed := s.upd.parkUsed.set (stackIx g.stack) (s.upd.parkUsed[stackIx g.stack] + 4 * l.data.length) },
          mem := { s.mem with parked := s.mem.parked + 1 } } l)) ∧
      (landingReady s g l = false → parkSize s < s.upd.parkUsed[stackIx g.stack] + 4 * l.data.length →
        exec (.landingArrival i) s = .next { s with
          upd := { s.upd with landings := s.upd.landings.set i { l with refused := true } },
          mem := { s.mem with parkRefused := s.mem.parkRefused + 1 } })) ∧
    (s.upd.landings[i]? = some l → l.refused = true → exec (.landingResend i) s = exec (.landingArrival i) s) ∧
    (s.upd.parked[i]? = some l → landingReady s g l = true → exec (.parkedLandingApply i) s = .next (applyLanding (unpark s i g l) g l)) ∧
    (∀ (c : CoreId) (seq : Nat), l.source = .land c seq → landingAccepted s l = updAccess s c fun a =>
      { a with flights := a.flights.map fun f => if f.seq = seq then { f with open_ := f.open_ - 1 } else f }) ∧
    (∀ (c d : CoreId) (index : Nat) (op : Byte) (half : Bool) (f : DrnOp), let h : Fin 2 := if half then 1 else 0
      l.source = .drain c index op [(d, half)] → (s.core d).halves[h].drn = some f → (s.core d).aq[f.q].length < 16 →
      landingAccepted s l = s.updCore d fun k => k.released h f)
/-- A landing of no group of the job, or one that fails a check of R149, raises HBM_RANGE on the core that made it, writes nothing and waits no
longer (R67, R149); of a LAND with nothing earlier in flight at once (R77). -/
def Obligations.LandingsRefused : Prop :=
  ∀ (s : State) (i : Nat) (l : Landing) (cause : Nat), s.upd.landings[i]? = some l →
    (groupOf s l.group = none ∧ cause = 0x16) ∨ (∃ g, groupOf s l.group = some g ∧ landingCause s g l = some cause) →
    (∀ (c : CoreId) (seq : Nat) (f : Flight), l.source = .land c seq → (s.core c).access.flights.find? (·.seq == seq) = some f →
      s.unfaulted c → (∀ x ∈ (s.core c).access.flights, x.done = false → seq ≤ x.seq) →
      ∃ t, exec (.landingArrival i) s = .next t ∧ t.mem = s.mem ∧ t.upd.landings = s.upd.landings.eraseIdx i ∧
        s.faultOf t c { accessRecord f.index f.instr codeHbmRange cause with addr := BitVec.ofNat 40 l.first }) ∧
    (∀ (c : CoreId) (index : Nat) (op : Byte) (hs : List (CoreId × Bool)), l.source = .drain c index op hs → s.unfaulted c →
      ∃ t r, exec (.landingArrival i) s = .next t ∧ t.mem = s.mem ∧ t.upd.landings = s.upd.landings.eraseIdx i ∧ s.faultOf t c r ∧
        r.code = codeHbmRange ∧ r.cause = BitVec.ofNat 8 cause ∧ r.source = 1 ∧ r.instr = BitVec.ofNat 16 index ∧
        r.addr = BitVec.ofNat 40 l.first) ∧
    (∀ (c : CoreId) (comm : BitVec 10) (chunk : W16), l.source = .chunk c comm chunk → s.unfaulted c →
      ∃ t r, exec (.landingArrival i) s = .next t ∧ t.mem = s.mem ∧ t.upd.landings = s.upd.landings.eraseIdx i ∧ s.faultOf t c r ∧
        r.code = codeHbmRange ∧ r.cause = BitVec.ofNat 8 cause ∧ r.source = 3 ∧ r.chip = s.fab.chip ∧ r.comm = comm.zeroExtend 16)
/-- What an applied landing of one block leaves (R127, R149): the values themselves for micro-batch 0, one rounded sum each for a later
one; the block's counter stands at the next micro-batch; a non-finite sum of finite inputs sets the overflow flag (R128). -/
def Obligations.BlocksAccumulate : Prop :=
  ∀ (s : State) (g : Group) (l : Landing), s.sound = true → s.aligned → s.job.replay = none → l.data.length = 64 → l.first % 64 = 0 →
    l.mb + 1 < 65536 → let a := g.gradAt l.first
    let n := g.counterAt (l.first / 64)
    let old (i : Nat) : W32 := read32 s (a + 4 * i)
    let new (i : Nat) : W32 := (l.data.getD i (0, false)).1
    s.apart a 256 → s.apart n 2 → (∀ i < 256, ∀ j < 2, keyOf s (a + i) ≠ keyOf s (n + j)) →
    let t := applyLanding s g l
    (∀ i < 64, read32 t (a + 4 * i) = if l.mb = 0 then new i else fadd (old i) (new i)) ∧
    readLe t n 2 = l.mb + 1 ∧
    t.job.overflow = (s.job.overflow || (l.mb ≠ 0 && (List.range 64).any fun i => overflowed (old i) (new i) (fadd (old i) (new i)))) ∧
    (∀ b, (∀ i < 256, keyOf s b ≠ keyOf s (a + i)) → (∀ j < 2, keyOf s b ≠ keyOf s (n + j)) → readHbm t b 1 = readHbm s b 1)

/-- A lease opens on a channel whose next pass is due (R183, R184, R187): the channel's buffer entries and atomic lines have gone back, refreshes are
pulled in, its banks are precharged and XGRANT goes out with the pass, which leaves the queue. The second pass of a held group becomes ready once
pass1 and release name the step, and rec_w.un2 is read once (R160). How a lease ends (R182–R185): what waited for the channel is served and XSTAT
read; a completed pass takes effect; one abandoned for the first time is queued again; one abandoned twice in a row, or an error of the
channel engine, is a fatal error of the stack; a lease past tick 350 is reclaimed, counted and its pass abandoned; an LDONE after that
changes nothing but the lease, unless its status is the channel engine's error. -/
def Obligations.LeasesRun : Prop :=
  (∀ (s : State) (stack : StackId) (chan : ChanId) (p : Pass) (g : Group), groupOf s p.group = some g →
      (nextPass s stack chan = some p → (∀ l ∈ s.upd.leases, ¬ (l.stack = stack ∧ l.chan = chan)) →
        (headroom s = 0 → class3Runs s = true → leased s stack < 8) → servesStill s s.mem.hbmStacks[stack].chans[chan] = false → s.jobSide = true → s.glb.chanEng = true →
        s.mem.hbmStacks[stack].xen = true →
        let u := flushAtomics (drainChannel s stack.val chan.val) stack.val chan.val
        let v := pullRefresh u stack chan
        ∃ t, exec (.leaseOpen stack chan) s = .next t ∧
          t.upd.leases = u.upd.leases ++ [{ stack := stack, chan := chan, id := s.upd.leaseId, pass := p, reclaimed := false }] ∧
          t.upd.queue = u.upd.queue.filter (· ≠ p) ∧ t.out = v.out ++ [.precharge stack chan, .xgrant stack chan s.upd.leaseId (grantBytes v g p)] ∧
          (∃ rs, v.out = u.out ++ rs ∧ ∀ o ∈ rs, ∃ b, o = .refresh stack chan b) ∧
          t.mem = { u.mem with hbmStacks := u.mem.hbmStacks.set stack { u.mem.hbmStacks[stack] with leases := u.mem.hbmStacks[stack].leases + 1 } } ∧
          t.cores = s.cores) ∧
      (g.held = true → ctlPass1 s g = s.job.step → ctlRelease s g = s.job.step → s.upd.second.any (·.1 == g.idx) = false → s.job.aborting = false →
        groupOf s g.idx = some g →
        exec (.secondPassReady g.idx) s = .next { s with upd := { s.upd with
          second := s.upd.second ++ [(g.idx, read32 s (normRecord s g true + 4), hbmPoisoned s (normRecord s g true + 4) 4)],
          queue := s.upd.queue ++ (List.range g.windows).map fun k => { group := g.idx, window := k, kind := 2, abandoned := false } } })) ∧
  (∀ (s : State) (stack : StackId) (chan : ChanId) (l : Lease), findLease s stack chan = some l →
      let u := (serveWaiting { s with upd := { s.upd with leases := s.upd.leases.filter (· ≠ l) } } stack chan).say (.xstat stack chan)
      (l.reclaimed = false → exec (.ldone stack chan 0) s = .next (completePass u l.pass)) ∧
      (l.reclaimed = false → l.pass.abandoned = false → u.job.aborting = false →
        exec (.ldone stack chan 1) s = .next { u with upd := { u.upd with queue := u.upd.queue ++ [{ l.pass with abandoned := true }] } }) ∧
      (l.reclaimed = false → l.pass.abandoned = true → u.flt.dumping = false →
        ∃ t, exec (.ldone stack chan 1) s = .next t ∧ u.fatalOf t codeStackFatal (BitVec.ofNat 8 stack.val)) ∧
      (u.flt.dumping = false →
        ∃ t, exec (.ldone stack chan 3) s = .next t ∧ u.fatalOf t codeStackFatal (BitVec.ofNat 8 stack.val)) ∧
      (∀ st, st ≠ 3 → l.reclaimed = true → exec (.ldone stack chan st) s = .next u) ∧
      (l.reclaimed = false → l.pass.abandoned = false → s.job.aborting = false →
        exec (.leaseOverrun stack chan) s = .next { s with
          out := s.out ++ [.xreclaim stack chan l.id],
          mem := { s.mem with
            hbmStacks := s.mem.hbmStacks.set stack { s.mem.hbmStacks[stack] with leaseOverrun := s.mem.hbmStacks[stack].leaseOverrun + 1 } },
          upd := { s.upd with leases := s.upd.leases.map fun x => if x = l then { x with reclaimed := true } else x,
                              queue := s.upd.queue ++ [{ l.pass with abandoned := true }] } }) ∧
      (l.reclaimed = false → l.pass.abandoned = true → s.flt.dumping = false →
        ∃ t, exec (.leaseOverrun stack chan) s = .next t ∧ s.fatalOf t codeStackFatal (BitVec.ofNat 8 stack.val)))

/-! ## Memory (R74, R165, R177–R181, R187, R191–R196, R349) -/

/-- A write that passes R74 stores its bytes where its address leads and no other byte (R53, R177, R179); one that fails a check stores
nothing; a replay's write through alias W is discarded (R165). While a lease holds a channel it goes to, the write waits (R184). -/
def Obligations.HbmWritesComplete : Prop :=
  ∀ (s : State) (a : Addr) (data : List Byte) (poison : Bool), s.sound = true → s.aligned → let r := MemReq.write a data poison
    (leasedAt s r = none → hbmCause s a.toNat data.length true true = none →
      ∃ t, exec (.memWrite a data poison) s = .next t ∧ HbmStep s t ∧ s.keeps t a.toNat data.length ∧
        (s.job.replay = none → s.apart a.toNat data.length → readHbm t a.toNat data.length = data) ∧
        (s.job.replay.isSome = true → (∀ i < data.length, viaAliasW s (a.toNat + i) = true) → t.mem.cells = s.mem.cells)) ∧
    (∀ cause, leasedAt s r = none → hbmCause s a.toNat data.length true true = some cause → exec (.memWrite a data poison) s = .next s) ∧
    (∀ p, leasedAt s r = some p →
      exec (.memWrite a data poison) s = .next { s with mem := { s.mem with waiting := s.mem.waiting ++ [(p.1, p.2, r)] } })
/-- An atomic update of one element (R180, R181): the element becomes its format's operation of the old element and the new, nothing else
of HBM changes; a poisoned line, and a source with poison, take nothing, and the latter leaves its line poisoned. While a
lease holds its channel, it waits (R184). -/
def Obligations.AtomicsComplete : Prop :=
  ∀ (s : State) (a : Addr) (fmt op : BitVec 4) (data : List Byte) (poison : Bool), s.sound = true → s.aligned → s.job.replay = none →
    let n := atomBytes fmt
    let q := MemReq.atomic a fmt op data poison
    n = 2 ∨ n = 4 → data.length = n → hbmCause s a.toNat n true (a.toNat % n == 0) = none → a.toNat % n = 0 →
    let line := keyOf s a.toNat / 64
    (leasedAt s q = none → ∃ t, exec (.atomicUpdate a fmt op data poison) s = .next t ∧ MemoryStep s t ∧ s.keeps t a.toNat n ∧
      (poison = false → linePoison s line = false →
        let r := atomicValue fmt op (BitVec.ofNat 32 (readLe s a.toNat n)) (BitVec.ofNat 32 (leNat data))
        readHbm t a.toNat n = leBytes n r.1.toNat ∧ t.job.overflow = (s.job.overflow || r.2)) ∧
      (poison = false → s.mem.poison.contains line = true → t.mem.cells = s.mem.cells ∧ t.job.overflow = s.job.overflow) ∧
      (poison = true → t.mem.cells = s.mem.cells ∧ linePoison t line = true)) ∧
    (∀ p, leasedAt s q = some p →
      exec (.atomicUpdate a fmt op data poison) s = .next { s with mem := { s.mem with waiting := s.mem.waiting ++ [(p.1, p.2, q)] } })

/-- Reads, write-backs, refresh and scrubbing (R178, R181, R187, R191–R193): up to two symbol errors are corrected and counted, more leave
the line poisoned, counted and logged; no byte changes. A read waits while a lease holds its channel (R184); no refresh comes under a lease, nor while
the stacks refresh themselves (R187). -/
def Obligations.MemoryUpkeepCompletes : Prop :=
  ∀ (s : State) (a : Addr) (errs : Nat), let base := 64 * (a.toNat / 64)
    let line := keyOf s base / 64
    let fixed : W64 := if 0 < errs ∧ errs ≤ 2 ∧ s.mem.poison.contains line = false then 1 else 0
    let lost : W64 := if 2 < errs then 1 else 0
    (leasedAt s (.read a errs) = none → hbmCause s base 64 false true = none →
      ∃ t, exec (.memRead a errs) s = .next t ∧ MemoryStep s t ∧ t.mem.cells = s.mem.cells ∧
        t.out = (activate s a.toNat).out ++ [.memData (readHbm s base 64) (linePoison s line || decide (2 < errs))] ∧
        t.mem.corrected = s.mem.corrected + fixed ∧ t.mem.uncorrectable = s.mem.uncorrectable + lost ∧
        (2 < errs → t.mem.poison.contains line = true ∧ t.mem.errorLog = s.mem.errorLog ++ [((placeOf s base).1, (placeOf s base).2, base)]) ∧
        (errs ≤ 2 → t.mem.poison = s.mem.poison)) ∧
    (∀ p, leasedAt s (.read a errs) = some p →
      exec (.memRead a errs) s = .next { s with mem := { s.mem with waiting := s.mem.waiting ++ [(p.1, p.2, .read a errs)] } }) ∧
    (∀ (since last : Bool), leaseOn s (placeOf s base).1 (placeOf s base).2 = false →
      ∃ t, exec (.scrubRead a errs since last) s = .next t ∧ MemoryStep s t ∧ t.mem.cells = s.mem.cells ∧
        t.mem.corrected = s.mem.corrected + fixed ∧ t.mem.uncorrectable = s.mem.uncorrectable + lost ∧
        t.mem.scrubPasses = s.mem.scrubPasses + (if last then 1 else 0) ∧
        t.mem.poison = (if 2 < errs ∧ since = false then setPut line s.mem.poison else s.mem.poison)) ∧
    (∀ (k : Fin 24) (l : Nat) (e : Wcb), s.mem.wcb[k].find? (·.line == l) = some e →
      ∃ t, exec (.wcbIdleWriteback k l errs) s = .next t ∧ t.mem.cells = s.mem.cells ∧
        t.mem.wcb = s.mem.wcb.set k (s.mem.wcb[k].filter (·.line != l)) ∧
        (t.mem.poison.contains l = true ↔ e.poison = true ∨ s.mem.poison.contains l = true ∨ 2 < errs) ∧ MemoryStep s t) ∧
    (∀ (k : Fin 24) (l : Nat), exec (.atomicLineWriteback k l) s =
      .next { s with mem := { s.mem with atomics := s.mem.atomics.set k (s.mem.atomics[k].filter (· ≠ l)) } }) ∧
    (∀ (stack : StackId) (chan : ChanId) (bank : Fin 128), leaseOn s stack.val chan.val = false → s.mem.hbmStacks[stack].present = true →
      s.mem.selfRefresh = false →
      exec (.refresh stack chan bank) s = .next { s with out := s.out ++ [.refresh stack chan bank] })

/-- A stack reading more than 8 °C from the reference starts a retraining of 24 slices on every live channel, exactly 8.00 °C does not; the
last slice takes the new settings if its check passes, and is counted as a failure otherwise (R168, R196). -/
def Obligations.StacksRetrain : Prop :=
  ∀ (s : State) (k : StackId), let st := s.mem.hbmStacks[k]
    (∀ t : Temp, st.present = true → (t.toInt - st.tRef.toInt).natAbs ≤ 32 →
      exec (.stackTempRead k t) s = .next { s with mem := { s.mem with hbmStacks := s.mem.hbmStacks.set k { st with temp := t } } }) ∧
    (∀ t : Temp, st.present = true → 32 < (t.toInt - st.tRef.toInt).natAbs →
      let st1 := { st with temp := t, tRef := t, retrains := st.retrains + 1, retrainLoad := loadClass s,
                           chans := st.chans.map fun c => if c.live then { c with slicesLeft := 24 } else c }
      exec (.stackTempRead k t) s = .next { s with mem := { s.mem with hbmStacks := s.mem.hbmStacks.set k st1 } }) ∧
    (∀ (c : ChanId) (ok : Bool) (settings : W64), 0 < st.chans[c].slicesLeft → leaseOn s k.val c.val = false →
      let left := st.chans[c].slicesLeft - 1
      let load := if st.retrainLoad < loadClass s then loadClass s else st.retrainLoad
      ∃ t, exec (.retrainSlice k c ok settings) s = .next t ∧
        t = { s with mem := { s.mem with hbmStacks := t.mem.hbmStacks }, out := s.out ++ [.refreshAll k c] } ∧
        t.mem.hbmStacks = s.mem.hbmStacks.set k { st with
          retrainLoad := load, retrainFail := st.retrainFail + (if left = 0 ∧ ok = false then 1 else 0),
          chans := st.chans.set c (if left = 0 ∧ ok = true then { st.chans[c] with slicesLeft := 0, tTemp := st.tRef, tLoad := load, settings := settings }
                                   else { st.chans[c] with slicesLeft := left }) })

/-! ## Fabric (R201–R225) -/

/-- What the router does with a header that arrives on a port that is not silent (R202, R203, R205–R207, R213, R221, R282): it queues the
packet on the route's port with one hop more, its flits keeping their place in the input buffer until they go out; delivers it on port 8
or 9; delivers a DISC packet without a lookup; discards and counts it where it is malformed, has no usable route or has come too far; and
answers for a fenced destination or source. A dead router passes nothing on. A packet at its destination is discarded and counted when a
flit was stomped or its CRC fails, and has no other effect there (R220). -/
def Obligations.PacketsRouted : Prop :=
  ∀ (s : State) (p : Packet),
    (∀ (port : Fin 10) (vc : Fin 8), (∀ h : port.val < 8, (s.fab.ports[(⟨port.val, h⟩ : Fin 8)]).silent = false) → s.fab.routerDead = false →
      let marked := marking s port.val vc
      let q := if marked then { p with ce := true } else p
      let left := leaveBuffer s port.val vc p.flits marked
      let e := routeOf s p.dst
      let out := Fin.ofNat 8 (2 * (typeClass p.type).getD 3 + nextSet s e port.val vc)
      (p.formed = true → p.type ≠ 0x1B → (p.hops ≠ 1023 ∨ p.dst = s.fab.chip) → routeUsable e = true → routeFenced e = false → chipFenced s p.src = false →
        exec (.routeLookup port vc p) s = .next (if routePort e < 8 then
            updPort s (routePort e) fun x => { x with outQ := x.outQ ++ [{ vc := out, p := { p with hops := p.hops + 1 }, inPort := port, inVc := vc, sent := 0 }] }
          else left.say (.packet (Fin.ofNat 10 (routePort e)) q))) ∧
      (p.formed = true → p.type = 0x1B → exec (.routeLookup port vc p) s = .next (left.say (.packet 8 q))) ∧
      (p.formed = false → exec (.routeLookup port vc p) s = .next (updPort left port.val fun x => { x with malformed := x.malformed + 1 })) ∧
      (p.formed = true → p.type ≠ 0x1B →
        (p.hops = 1023 ∧ p.dst ≠ s.fab.chip) ∨ (routeUsable e = false ∧ routeFenced e = false ∧ chipFenced s p.src = false) →
        exec (.routeLookup port vc p) s = .next (countMisrouted left port.val)) ∧
      (p.formed = true → p.type ≠ 0x1B → p.hops ≠ 1023 → routeFenced e = true → exec (.routeLookup port vc p) s =
        .next (if p.type = 0x19 then left else fenceNoticeFor left p.dst q)) ∧
      (p.formed = true → p.type ≠ 0x1B → p.hops ≠ 1023 → routeFenced e = false → chipFenced s p.src = true →
        exec (.routeLookup port vc p) s = .next (fenceNoticeFor left p.src q))) ∧
    (∀ (port : Fin 10) (vc : Fin 8), s.fab.routerDead = true → exec (.routeLookup port vc p) s = .next s) ∧
    (p.stomps ≠ 0 → exec (.packetIngress p) s = .next { s with fab := { s.fab with stompDiscard := s.fab.stompDiscard + 1 } } ∧
      ∀ c ∈ [Instr.getdata p, .ack p, .fenceNotice p], exec c s = exec (.packetIngress p) s) ∧
    (p.stomps = 0 → exec (.packetIngress p) s =
      .next (if p.crc = p.check then s else { s with fab := { s.fab with crcDiscard := s.fab.crcDiscard + 1 } }))

/-- Requests at their responder (R74, R175, R180, R181, R201, R204, R220): a GETREQ is answered with the bytes, a PUT stores and an ATOMIC
updates and each is acknowledged; a request that fails a check of R74 changes no memory and its acknowledgement carries the cause; an access
that is a step ahead on a sided alias is held until this module's step reaches its own. A request that is not intact is discarded and
counted, and has no other effect. -/
def Obligations.RequestsAnswered : Prop :=
  ∀ (s : State) (p : Packet), let a := p.addr.toNat
    (mustHold s p = false →
      (({ p with type := 1 } : Packet).intact = true → hbmCause s a (p.length.toNat + 1) false true = none →
        exec (.getreq p) s = .next (inject s ({ packetTo s 0x08 p.src with tag := p.tag, attempt := p.attempt, ece := p.ce }.load
          (readHbmP s a (p.length.toNat + 1))))) ∧
      (({ p with type := 2 } : Packet).intact = true → hbmCause s a p.payload.length true true = none →
        exec (.put p) s = .next (inject (hbmPut s a p.bytes) (ackOf s { p with type := 2 } 0))) ∧
      (({ p with type := 3 } : Packet).intact = true → hbmCause s a p.payload.length true (atomBytes p.fmt ≠ 0 && a % atomBytes p.fmt == 0) = none →
        exec (.atomic p) s = .next (inject (atomicMany s p.fmt p.op (elemsAt (atomBytes p.fmt) a p.bytes)) (ackOf s { p with type := 3 } 0))) ∧
      (∀ x, ({ p with type := 1 } : Packet).intact = true → hbmCause s a (p.length.toNat + 1) false true = some x →
        exec (.getreq p) s = .next (inject s (ackOf s { p with type := 1 } x))) ∧
      (∀ x, ({ p with type := 2 } : Packet).intact = true → hbmCause s a p.payload.length true true = some x →
        exec (.put p) s = .next (inject s (ackOf s { p with type := 2 } x))) ∧
      (∀ x, ({ p with type := 3 } : Packet).intact = true → hbmCause s a p.payload.length true (atomBytes p.fmt ≠ 0 && a % atomBytes p.fmt == 0) = some x →
        exec (.atomic p) s = .next (inject s (ackOf s { p with type := 3 } x)))) ∧
    (∀ c ∈ [((0x01 : Byte), Instr.getreq p), (0x02, Instr.put p), (0x03, Instr.atomic p)],
      (mustHold s p = true → ({ p with type := c.1 } : Packet).intact = true →
        exec c.2 s = .next { s with mem := { s.mem with held := s.mem.held ++ [{ p := { p with type := c.1 } }] } }) ∧
      (({ p with type := c.1 } : Packet).intact = false → exec c.2 s = exec (.packetIngress { p with type := c.1 }) s)) ∧
    (∀ (i : Nat) (h : HeldAccess), s.mem.held[i]? = some h →
      (mustHold s h.p = false → exec (.sidedAccessRelease i) s = .next (respond { s with mem := { s.mem with held := s.mem.held.eraseIdx i } } h.p)) ∧
      (mustHold s h.p = true → exec (.sidedAccessRelease i) s = .next s))

/-- Completions that arrive intact (R75, R77, R204, R214, R217, R218): the tag is freed and the window updated; accepted data goes where it
belongs; a retry notice keeps the tag; an error is HBM_RANGE with the responder's cause and bit 7, and a reserved status is one with cause
0x91 that also counts as malformed; a fence notice is FENCED; an answer to no live attempt is dropped and counted, unless this tick has
already brought the attempt's end, which makes it void. A record is complete at once where no earlier instruction of the core is still
in flight. -/
def Obligations.CompletionsTaken : Prop :=
  ∀ (s : State) (p : Packet), p.intact = true →
    (findTag s p.tag p.attempt = none → let u : State := if s.fab.endedAt = s.now ∧ (p.tag, p.attempt) ∈ s.fab.ended then s
        else { s with fab := { s.fab with lateCompletion := s.fab.lateCompletion + 1 } }
      exec (.ack p) s = .next u ∧ exec (.getdata p) s = .next u) ∧
    (∀ (t : Tag) (c : CoreId) (seq : Nat), findTag s p.tag p.attempt = some t → t.issuer = .access c seq →
      let u := endTag (completeWin s t (p.ece || p.ce)) t
      (p.status = 0 → exec (.ack p) s = .next (closeFlight u c seq) ∧
        exec (.getdata p) s = .next (closeFlight (placeData u t.dest p.bytes) c seq)) ∧
      (p.status ≠ 0 → exec (.getdata p) s = exec (.ack p) s) ∧
      (p.status = 1 → exec (.ack p) s = .next (updTag s t.tag fun x => { x with noticed := true })) ∧
      (∀ f : Flight, (s.core c).access.flights.find? (·.seq == seq) = some f → s.unfaulted c →
        (∀ g ∈ (s.core c).access.flights, g.done = false → f.seq ≤ g.seq) →
        (2 ≤ p.status.toNat → let cause := if 0x10 ≤ p.status.toNat ∧ p.status.toNat ≤ 0x17 then 0x80 + p.status.toNat else 0x91
          ∃ v, exec (.ack p) s = .next v ∧ v.fab.tags = u.fab.tags ∧ v.fab.wins = u.fab.wins ∧ v.fab.ports =
            (if 0x10 ≤ p.status.toNat ∧ p.status.toNat ≤ 0x17 then s else countReserved s p).fab.ports ∧
          s.faultOf v c { accessRecord f.index f.instr codeHbmRange cause with chip := p.src, addr := t.p.addr }) ∧
        ((BitVec.ofNat 16 (leAt p.cls 0 2) ≠ s.fab.chip ∨ s.fab.fenced = true) → endsNow s p.tag p.attempt = false → endedNow s p.tag p.attempt = false →
          ∃ v, exec (.fenceNotice p) s = .next v ∧ v.fab.fenceRx = s.fab.fenceRx + 1 ∧ (∀ x ∈ v.fab.tags, x.tag ≠ t.tag) ∧
            s.faultOf v c { accessRecord f.index f.instr codeFenced 0 with chip := t.p.dst }))) ∧
    ((BitVec.ofNat 16 (leAt p.cls 0 2) ≠ s.fab.chip ∨ s.fab.fenced = true) →
      (endsNow s p.tag p.attempt = true ∨ endedNow s p.tag p.attempt = true →
        exec (.fenceNotice p) s = .next { s with fab := { s.fab with fenceRx := s.fab.fenceRx + 1 } }) ∧
      (findTag s p.tag p.attempt = none → endsNow s p.tag p.attempt = false → endedNow s p.tag p.attempt = false → exec (.fenceNotice p) s =
        .next { s with fab := { s.fab with fenceRx := s.fab.fenceRx + 1, lateFence := s.fab.lateFence + 1 } })) ∧
    (BitVec.ofNat 16 (leAt p.cls 0 2) = s.fab.chip → s.fab.fenced = false →
      ∃ v, exec (.fenceNotice p) s = .next v ∧ v.fab.fenced = true ∧ v.coll.cinches = [] ∧ v.fab.sendQ = [] ∧
        ∀ c, (v.core c).running = none ∧ (v.core c).access.stopped = true ∧ (v.core c).exec.stopped = true)

/-- A waiting packet is sent under a free tag of its issuer, its charge within the window and its timer armed with the settings of now
(R211, R215, R216, R223): it queues on its port, or is delivered. A timer's expiry retries a GETREQ, PUT or COLLDATA with the next attempt
number, and reports TIMEOUT for an ATOMIC or when no retry is left (R214, R219); a completion or a fence notice of the same tick makes it void
(R217). 64 ticks after a retry notice the same attempt goes again (R204). -/
def Obligations.SendsAndTimers : Prop :=
  ∀ (s : State),
    (∀ (i : Nat) (q : SendReq) (n : BitVec 15) (w : WinEntry) (rest : List WinEntry), s.fab.sendQ[i]? = some q → s.fab.fenced = false →
      s.job.quiescing = false → let e := routeOf s q.p.dst
      let vc := injectVc e ((typeClass q.p.type).getD 3)
      routeUsable e = true → routeFenced e = false → q.held = none → pickTag s q.issuer = some n → takeWin s q.p.dst = some (w, rest) →
      (windowed q.p = true → winRoom w q.p.charge = true) → hasCredit s (routePort e) vc = true →
      let p := ({ q.p with step := s.job.step, tag := n } : Packet).sealed
      ∃ t, exec (.packetSend i) s = .next t ∧ t.fab.sendQ = s.fab.sendQ.eraseIdx i ∧
        t.fab.tags = s.fab.tags.filter (·.tag != n) ++ [{ tag := n, issuer := q.issuer, p := q.p, dest := q.dest, used := 0, sent := true, sentTick := s.now,
                                                          resent := false, noticed := false, timeout := s.fab.timeout, retries := s.fab.retries }] ∧
        t.fab.wins = rest ++ [if windowed q.p then { w with outstanding := w.outstanding + q.p.charge } else w] ∧
        (∀ h : routePort e < 8, let o : PortId := ⟨routePort e, h⟩
          t.out = s.out ∧ (t.fab.ports[o]).outQ = (s.fab.ports[o]).outQ ++
            [{ vc := vc, p := { p with hops := 1 }, inPort := if q.p.type = 0x10 || q.p.type = 0x18 then 9 else 8, inVc := 0, sent := 0 }]) ∧
        (8 ≤ routePort e → t.fab.ports = s.fab.ports ∧ t.out = s.out ++ [.packet (Fin.ofNat 10 (routePort e)) p]) ∧ t.mem = s.mem ∧ t.cores = s.cores) ∧
    (∀ (t : Tag) (elapsed : W32), s.fab.tags.find? (·.tag == t.tag) = some t →
      (completesNow s t.tag t.p.attempt = true ∨ fencedNow s t.tag t.p.attempt = true → exec (.txnTimeout t.tag elapsed) s = .next s) ∧
      (t.sent = true → t.noticed = false → completesNow s t.tag t.p.attempt = false → fencedNow s t.tag t.p.attempt = false →
      let u := timeoutWin { s with fab := { s.fab with timeouts := s.fab.timeouts + 1 } } t
      (t.p.type = 0x01 ∨ t.p.type = 0x02 ∨ t.p.type = 0x10 → t.used.toNat < t.retries.toNat →
        let p := { t.p with attempt := t.p.attempt + 1 }
        let v : State := { u with fab := { u.fab with
          retriesSent := s.fab.retriesSent + 1,
          tags := s.fab.tags.map fun x => if x.tag == t.tag then { t with p := p, used := t.used + 1, sent := false, resent := false } else x,
          sendQ := s.fab.sendQ ++ [{ issuer := t.issuer, p := p, dest := t.dest, held := some t.tag, waited := false }] } }
        exec (.txnTimeout t.tag elapsed) s = exec (.packetSend s.fab.sendQ.length) v) ∧
      (∀ (c : CoreId) (seq : Nat) (f : Flight), t.p.type = 0x03 ∨ t.retries.toNat ≤ t.used.toNat → t.issuer = .access c seq →
        (s.core c).access.flights.find? (·.seq == seq) = some f → s.unfaulted c → (∀ g ∈ (s.core c).access.flights, g.done = false → f.seq ≤ g.seq) →
        ∃ v, exec (.txnTimeout t.tag elapsed) s = .next v ∧ v.fab.timeouts = s.fab.timeouts + 1 ∧ (∀ x ∈ v.fab.tags, x.tag ≠ t.tag) ∧
          s.faultOf v c { accessRecord f.index f.instr codeTimeout (t.p.type.toNat - 1) with chip := t.p.dst, cycle := elapsed }))) ∧
    (∀ t : Tag, s.fab.tags.find? (·.tag == t.tag) = some t → t.noticed = true → s.fab.fenced = false → s.job.quiescing = false →
      chipFenced s t.p.dst = false →
      exec (.retryResend t.tag) s = .next (inject { s with fab := { s.fab with
        tags := s.fab.tags.map fun x => if x.tag == t.tag then
          { x with noticed := false, sentTick := s.now, resent := true, timeout := s.fab.timeout, retries := s.fab.retries } else x } }
        { t.p with step := s.job.step, tag := t.tag }))

/-- Port upkeep and the fabric's registers (R208, R210, R213, R222, R225): beats, the silent bit, congestion, route entries whose fence bit
is sticky, shares that are accepted as eight or not at all, and the published counters. -/
def Obligations.PortEventsComplete : Prop :=
  ∀ (s : State) (port : PortId), let q := s.fab.ports[port]
    (q.up = true → ∃ t, exec (.beat port) s = .next t ∧ t = updPort s port.val fun x => { x with outQ := x.outQ ++
      [{ vc := 6, p := { (packetTo s 0x1A q.neighbour).sealed with hops := 1 }, inPort := 8, inVc := 0, sent := 0 }] }) ∧
    (q.up = false → exec (.beat port) s = .next s) ∧
    (q.silent = false → ∃ t, exec (.portSilent port) s = .next t ∧ (t.fab.ports[port]).silent = true ∧ t.mem = s.mem ∧ t.cores = s.cores) ∧
    (∀ vc : Fin 8, vc.val < 6 → above75 q vc = true → exec (.congestionOnset port vc) s =
      .next (updPort s port.val fun q => { q with congested := q.congested.set vc true })) ∧
    (∀ vc : Fin 8, above75 q vc = false → exec (.congestionClear port vc) s =
      .next (updPort s port.val fun q => { q with congested := q.congested.set vc false })) ∧
    (∀ (d : Chip) (v : W32), s.inp.rails = true → ∃ t, exec (.routeWrite d v) s = .next t ∧
      routePort (routeOf t d) = v.toNat % 16 ∧ routeValid (routeOf t d) = v.getLsbD 4 ∧
      routeFenced (routeOf t d) = (routeFenced (routeOf s d) || v.getLsbD 5) ∧ (routeOf t d).getLsbD 6 = true ∧
      t.fab.fenceClearRefused = s.fab.fenceClearRefused + (if routeFenced (routeOf s d) = true ∧ v.getLsbD 5 = false then 1 else 0) ∧
      ∀ x, x ≠ d → routeOf t x = routeOf s x) ∧
    (∀ (high : Bool) (v : W64), s.inp.rails = true → ∃ t, exec (.vcbufWrite port high v) s = .next t ∧
      (let l := if high then q.shares.toList.take 4 ++ shareWords v else shareWords v ++ q.shares.toList.drop 4
       (t.fab.ports[port]).shares.toList = if (∀ x ∈ l, 64 ≤ x.toNat) ∧ (l.map BitVec.toNat).sum ≤ 16384 then l else q.shares.toList) ∧
      ∀ o, o ≠ port → t.fab.ports[o] = s.fab.ports[o]) ∧
    (s.sec.conf = false → exec .counterPublish s = .next s) ∧
    (s.sec.conf = true → ∃ t, exec .counterPublish s = .next t ∧ t.fab.published.map (·.1) = counterOffsets ∧
      ∀ x ∈ t.fab.published, x.2 = BitVec.ofNat 64 ((regLive s x.1).1.toNat / 65536 * 65536))

/-! ## Collectives (R226–R252) -/

/-- A collective packet (R220, R235–R237, R239–R241): one that is not intact is discarded; one of an earlier step is acknowledged and
counted; one already stored or applied is acknowledged, and a broadcast's whose acknowledgement is still owed replaces the copy held. One
that the operation cannot use yet goes to the arrival store, or is answered with a retry notice where that is full; so is a tree partial that
would have to wait. One that the operation can use is used and acknowledged: an A2AV segment is kept under its sender; a ring partial takes
this member's own term, and is kept at its owner or sent on; a gathered piece is kept, and passed on to the next coordinate before its owner
whose member is not fenced. -/
def Obligations.CollectivePacketsTaken : Prop :=
  ∀ (s : State) (p : Packet), (p.intact = false → exec (.colldata p) s = exec (.packetIngress p) s) ∧
    ∀ c : Comm, p.intact = true → commOf s (collId p).comm = some c → s.fab.fenced = false → s.job.quiescing = false →
    let k := collId p
    let u : State := { s with coll := { s.coll with seen := k :: s.coll.seen } }
    (p.step ≠ s.job.step → (s.job.step - p.step).toNat < 2 ^ 31 → exec (.colldata p) s =
      .next (inject { s with coll := { s.coll with stale := s.coll.stale + 1 } } (ackOf s p 0))) ∧
    (staleStep s p = false → k ∈ s.coll.seen →
      (isHeapOp (collOp p) = false → exec (.colldata p) s = .next (inject s (ackOf s p 0))) ∧
      (isHeapOp (collOp p) = true → (∃ q ∈ s.coll.early, collId q = k) →
        exec (.colldata p) s = .next { s with coll := { s.coll with
          acksOwed := s.coll.acksOwed.map (fun x => if collId x.1 = k then (p, x.2) else x),
          early := s.coll.early.map fun q => if collId q = k then p else q } })) ∧
    (staleStep s p = false → k ∉ s.coll.seen → runFor s c p = none →
      (storeBytes s + p.payload.length ≤ 75497472 → exec (.colldata p) s =
        .next (let v : State := { s with coll := { s.coll with early := s.coll.early ++ [p], seen := k :: s.coll.seen } }
          if isHeapOp (collOp p) then v else inject v (ackOf s p 0))) ∧
      (75497472 < storeBytes s + p.payload.length → exec (.colldata p) s = .next (inject s (ackOf s p 1)))) ∧
    (∀ r : CollRun, staleStep s p = false → k ∉ s.coll.seen → runFor s c p = some r →
      (treeWaits c r p = true → 75497472 < storeBytes s + p.payload.length → exec (.colldata p) s = .next (inject s (ackOf s p 1))) ∧
      (treeWaits c r p = false ∨ storeBytes s + p.payload.length ≤ 75497472 →
      let j := k.chunk.toNat - r.chunk
      let off := k.offset.toNat
      let es := pktElems r p
      let ph := k.phase.toNat
      let last : Bool := r.op = 0 && r.phase + 1 = (phaseSteps c r.op).length
      let answer (v : State) : State := if isHeapOp (collOp p) then settleAcks v else inject v (ackOf v p 0)
      exec (.colldata p) s = .next (answer (usePacket u c r p)) ∧
      (r.op = 3 → exec (.colldata p) s = .next (answer (putRun u { r with got := r.got ++ [(k.sender.toNat, off, es)] }))) ∧
      (isReduce r.op = true → k.kind ≠ 1 → c.tree = false →
        let x := ropAll r.fmt (BitVec.ofNat 4 (r.param.toNat % 4)) es (slice (r.buf.getD j []) off es.length)
        let v := orOverflow u x.2
        exec (.colldata p) s = .next (answer (
          if c.ownerCoord ph off = c.coord ph then putRun v ((r.settle last j off x.1).advance v c)
          else
            let w := sendElems v c r (c.lineMember ph ((c.coord ph + 1) % c.len ph)) (r.chunk + j) ph 0 off 0 0 x.1
            putRun w (({ r with left := r.left - es.length } : CollRun).advance w c)))) ∧
      (isReduce r.op = true → k.kind = 1 →
        let r1 := { r with buf := modifyAt r.buf j (setSlice · off es), left := r.left - es.length, got := r.got ++ [(j, off, es)] }
        let v := match gatherNext u c ph (c.ownerCoord ph off) with
          | none => u
          | some x => sendElems u c r1 (c.lineMember ph x) (r.chunk + j) ph 1 off 0 0 es
        exec (.colldata p) s = .next (answer (putRun v (r1.advance v c)))))) ∧
    (∀ (i : Nat) (r : CollRun), s.coll.early[i]? = some p → runFor s c p = some r → exec (.earlyArrivalApply i) s =
      .next (let v := usePacket { s with coll := { s.coll with early := s.coll.early.eraseIdx i } } c r p
        if isHeapOp (collOp p) then settleAcks v else v))

/-- An operation's next phase starts under its plan (R242): a scatter or gather step sends its first blocks, A2AV sends every member its
segment, a multicast's root sends to its heap children. An operation that is over completes (R230, R234, R243, R244): its results are
written or landed, the status slot is written, and it leaves the engine; one whose result lacks a fenced member's part, or that waits in a
scatter step for a fenced member, completes with FENCED and names it; one that is not over goes on past the fenced members of its gather
steps. One that a tree drain started (R132) lands its sums, ends no instruction, and writes no status slot where its status is 0. -/
def Obligations.OperationsRun : Prop :=
  ∀ (s : State) (r : CollRun) (c : Comm), s.coll.runs.find? (·.id == r.id) = some r → commOf s r.comm = some c →
    (r.started = false → s.fab.fenced = false → s.job.quiescing = false →
      (∀ (k : Nat) (gather : Bool), isReduce r.op = true → (phaseSteps c r.op)[r.phase]? = some (k, gather) → planAllows s c k = true →
        let x := if gather then startGather s c { r with started := true } k (r.op = 1 && r.phase = 0 || r.op = 2 && r.phase = c.phases.length)
                 else startScatter s c { r with started := true } k (r.op = 0 && r.phase + 1 = (phaseSteps c r.op).length)
        exec (.phaseStart r.id) s = .next (putRun x.1 (x.2.advance x.1 c))) ∧
      (∀ (k : Nat) (gather : Bool), isReduce r.op = true → (phaseSteps c r.op)[r.phase]? = some (k, gather) → planAllows s c k = false →
        exec (.phaseStart r.id) s = .next s) ∧
      (isReduce r.op = false → exec (.phaseStart r.id) s = .next (putRun (startDirect s c r).1 (startDirect s c r).2))) ∧
    ((∀ t ∈ s.fab.tags, t.issuer ≠ .coll r.id) → (∀ q ∈ s.fab.sendQ, q.issuer ≠ .coll r.id) → owesAck s r = false →
      let gone := addFenced r.fenced (fencedMembers s c)
      let ends (st total : Nat) (fenced : List Nat) : Prop := exec (.collComplete r.id) s =
        .next (closeFlight (dropRun (writeStatus (writePieces s c r) c st r.op r.chunk total fenced) r.id) r.core r.seq)
      let scatter : Prop := ∃ k, (phaseSteps c r.op)[r.phase]? = some (k, false)
      (r.drain = false →
        (isReduce r.op = true → c.land = false ∨ r.op ≠ 0 →
          (r.over s c = true → gatherLacks c r gone = false → ends 0 0 []) ∧
          (r.over s c = true → gatherLacks c r gone = true → ends 1 gone.length gone) ∧
          (r.over s c = false → scatter → gone ≠ [] → ends 1 gone.length gone)) ∧
        (r.op = 3 → r.over s c = true → ends (if gone = [] then 0 else 1) gone.length gone) ∧
        (isHeapOp r.op = true → r.over s c = true →
          if pruned c r = true then ends 1 r.fencedTotal r.fenced else ends 0 0 []) ∧
        (r.op = 0 → c.land = true → r.over s c = true → landPieces c r ≠ [] → ∃ t, exec (.collComplete r.id) s = .next t ∧
          t.upd.landings = s.upd.landings ++ landPieces c r ∧ t.coll.runs = s.coll.runs.filter (·.id ≠ r.id))) ∧
      (r.drain = true → r.op = 0 → c.land = true → r.over s c = true → exec (.collComplete r.id) s =
        .next (dropRun { s with upd := { s.upd with landings := s.upd.landings ++ landPieces c r } } r.id)) ∧
      (isReduce r.op = true → r.over s c = false → ¬ scatter → exec (.collComplete r.id) s = .next (goOn s c r)) ∧
      (isReduce r.op = true → r.over s c = false → gone = [] → exec (.collComplete r.id) s = .next (goOn s c r)) ∧
      (isHeapOp r.op = true → r.over s c = false → exec (.collComplete r.id) s = .next (goOn s c r)))

/-- The packets of a cinch (R220, R246–R249, R275): an UP is answered with a CACK, and is taken once by the cinch it belongs to, or waits for
a cinch not entered yet; one that finds the arrival store full is not answered; a DOWN is answered with a CACK and ends the cinch here, but
waits while a plan switch runs here; a CACK ends the resending of what it answers; unanswered DOWNs, and an UP that was not answered or whose
parent is fenced, go again. A packet that is not intact is discarded and counted, and has no other effect. -/
def Obligations.CinchPacketsTaken : Prop :=
  ∀ (s : State) (p : Packet),
    (p.intact = false → ∀ x ∈ [Instr.cinchUp p, .cinchDown p, .cinchCack p], exec x s = exec (.packetIngress p) s) ∧
    ∀ c : Comm, p.intact = true → commOf s (cinchComm p) = some c → s.fab.fenced = false → s.job.quiescing = false →
    let cack := inject s { packetTo s 0x18 p.src with cls := cinchCls c.idx (cinchSeq p) 2 0 c.self }
    let owed (o : CinchOwed) : Bool := o.comm = c.idx && o.cseq = cinchSeq p && o.member = cinchSender p
    (s.opt.switching = true → exec (.cinchDown p) s = .next { s with coll := { s.coll with heldDowns := s.coll.heldDowns ++ [p] } }) ∧
    (∀ n : Cinch, findCinch s c.idx = some n → n.cseq = cinchSeq p →
      (s.opt.switching = false → exec (.cinchDown p) s = .next (finishCinch (cinchDown cack c n (cinchOf p), some (n, cinchOf p)))) ∧
      (exec (.cinchUp p) s = .next (if ∃ u ∈ n.ups, u.1 = cinchSender p then cack else
        finishCinch (cinchFlow (updCinch cack c.idx fun x => { x with ups := x.ups ++ [(cinchSender p, cinchOf p)] }) c.idx)))) ∧
    (findCinch s c.idx = none → (s.opt.switching = false → exec (.cinchDown p) s = .next cack) ∧
      ((cinchSeq p - c.cseq).toNat < 2147483648 →
        (∀ q ∈ s.coll.earlyUps, ¬ (cinchComm q = cinchComm p ∧ cinchSeq q = cinchSeq p ∧ cinchSender q = cinchSender p)) →
        exec (.cinchUp p) s = .next (if storeLimit < storeBytes s + p.payload.length then s
          else { cack with coll := { s.coll with earlyUps := s.coll.earlyUps ++ [p] } }))) ∧
    (∀ n : Cinch, findCinch s c.idx = none ∨ (findCinch s c.idx = some n ∧ n.upSent = true ∧ n.upAcked = true ∧
        chipFenced s (c.chip (cinchParentRaw c c.self)) = false) → exec (.cinchResend c.idx) s =
      .next ((s.coll.owed.filter (·.comm == c.idx)).foldl (fun t o => sendCinch t c o.cseq 1 o.member o.record) s)) ∧
    (∀ (n : Cinch) (r : CinchRec), (∀ o ∈ s.coll.owed, o.comm ≠ c.idx) → findCinch s c.idx = some n → n.upSent = true →
      n.upAcked = false ∨ chipFenced s (c.chip (cinchParentRaw c c.self)) = true →
      cinchGathered s c n = some r → exec (.cinchResend c.idx) s = .next (sendCinch s c n.cseq 0 (cinchUpTo s c) r)) ∧
    ((∃ o ∈ s.coll.owed, owed o = true) →
      exec (.cinchCack p) s = .next { s with coll := { s.coll with owed := s.coll.owed.filter fun o => !owed o } }) ∧
    ((∀ o ∈ s.coll.owed, owed o = false) → exec (.cinchCack p) s = .next (updCinch s c.idx fun n =>
      if n.cseq = cinchSeq p ∧ n.upSent = true ∧ cinchSender p = cinchUpTo s c then { n with upAcked := true } else n))

/-- The entry into the commit cinch (R250, R350): the part's words are its flags, the frequency it offers and the words of the commit
record; a poisoned record sets the poison flag before it is taken; no segment starts meanwhile. -/
def Obligations.CommitEntered : Prop :=
  ∀ (s : State) (m : Manifest) (c : Comm), s.job.manifest = some m → commOf s m.commit = some c → mayEnter s = true → findCinch s c.idx = none →
    (∃ x ∈ (cinchFamily s c).1, ∀ q ∈ s.coll.earlyUps, cinchComm q = c.idx → cinchSeq q = c.cseq → cinchSender q ≠ x) →
    ∃ (t : State) (n : Cinch), exec .commitCinchEntry s = .next t ∧ n ∈ t.coll.cinches ∧ n.comm = c.idx ∧ n.cseq = c.cseq ∧ n.kind = .commit ∧
      let poison := s.job.poison || hbmPoisoned s m.crec 64
      n.record = { CinchRec.blank with
        orw := BitVec.ofNat 64 (readLe s m.crec 8 / 256 * 256 + ((if overflowFlag s then 1 else 0) + (if poison then 2 else 0) + (if drainBefore s then 4 else 0))),
        minw := t.pwr.fOffer.zeroExtend 64, sumw := BitVec.ofNat 64 (readLe s (m.crec + 16) 8) } ∧
      t.job.entered = true ∧ t.job.dispatching = false ∧ t.job.poison = poison ∧ t.mem.side = s.mem.side ∧ t.job.step = s.job.step

/-- What the reduced words of a commit cinch decide, in their order of precedence (R21, R121, R251): a FENCED or mismatched result or a
poisoned one applies no row and the job stops; an overflow discards the step; a pending drain defers the commit; otherwise the sides flip.
A flip retains the context and the frequency of the step for a replay (R165), a discard
at the floor is counted (R121). An expired commit budget applies no row either, and is recorded (R251, R252). -/
def Obligations.CommitDecides : Prop :=
  ∀ (s : State) (c : Comm) (n : Cinch) (m : Manifest), findCinch s c.idx = some n → n.kind = .commit → s.job.manifest = some m →
    (∀ p : Packet, p.intact = true → commOf s (cinchComm p) = some c → n.cseq = cinchSeq p → s.fab.fenced = false → s.job.quiescing = false →
      s.opt.switching = false → s.job.replay = none →
      let r := cinchOf p
      let poison := r.orw.getLsbD 1
      let overflow := r.orw.getLsbD 0
      let drain := r.orw.getLsbD 2
      let freq := BitVec.ofNat 11 (r.minw.toNat / 25 * 25)
      ∃ t, exec (.cinchDown p) s = .next t ∧ (∀ x ∈ t.coll.cinches, x.comm ≠ c.idx) ∧
        (r.status ≠ 0 ∨ poison = true → t.mem.side = s.mem.side ∧ t.job.step = s.job.step ∧ t.job.l = s.job.l ∧ t.job.clean = s.job.clean ∧
          t.pwr.fJob = s.pwr.fJob ∧ t.job.dispatching = false ∧ t.hlk.state ≠ .running) ∧
        (r.status = 0 → poison = false → overflow = true → t.mem.side = s.mem.side ∧ t.job.step = s.job.step + 1 ∧
          t.job.l = (if m.lf < s.job.l then s.job.l - 1 else s.job.l) ∧ t.job.clean = 0 ∧
          t.job.floorHits = (if m.lf < s.job.l then s.job.floorHits else s.job.floorHits + 1) ∧ t.pwr.fJob = freq) ∧
        (r.status = 0 → poison = false → overflow = false → drain = true → t.mem.side = s.mem.side ∧ t.job.step = s.job.step ∧
          t.job.l = s.job.l ∧ t.job.clean = s.job.clean ∧ t.job.deferred = true ∧ t.job.entered = false ∧ t.pwr.fJob = freq) ∧
        (r.status = 0 → poison = false → overflow = false → drain = false → t.mem.side = !s.mem.side ∧ t.job.step = s.job.step + 1 ∧
          t.job.l = (if s.job.clean + 1 < m.n then s.job.l else if s.job.l < m.lc then s.job.l + 1 else s.job.l) ∧
          t.job.clean = (if s.job.clean + 1 < m.n then s.job.clean + 1 else 0) ∧ t.pwr.fJob = freq ∧
          t.job.ctxKept = some (s.job.step, s.job.l, s.job.clean) ∧ t.job.freqKept = s.pwr.fJob)) ∧
    (∀ elapsed : W32, commOf s c.idx = some c → ∃ t, exec (.cinchBudgetExpiry c.idx elapsed) s = .next t ∧ (∀ x ∈ t.coll.cinches, x.comm ≠ c.idx) ∧
      t.mem.side = s.mem.side ∧ t.job.dispatching = false ∧ t.hlk.state ≠ .running ∧
      s.logs t { Record.blank with
        code := codeStreamStall, cause := 5, source := 3, step := s.job.step, cycle := elapsed, comm := c.idx.zeroExtend 16, value := n.cseq,
        missing := ((cinchMissing s c n).map (BitVec.ofNat 16)).take 7, missingN := BitVec.ofNat 16 (cinchMissing s c n).length })

/-! ## Optics (R253–R277) -/

/-- Rings (R257, R265, R268–R270): two matching words in a row lock an acquiring ring, and a word that does not match or is not valid starts the count
anew; the third word in a row of another identity on a locked ring is reported with the lane, the identity expected and the one received, takes the
lane out of its strap and starts a sweep (the places of the three in the event are the model's choice, log entry 111); six periods without a word do
the same but for the report, except on a receive lane without a port, which stays locked; a sweep that finds a line acquires it, and the third that
finds none fails the ring, which no word and no sweep brings back. -/
def Obligations.RingsTrack : Prop :=
  ∀ (s : State) (g : LaneId) (tx : Bool) (w : W16), let l := s.opt.lanes[g]
    let good := if tx then l.txGood else l.rxGood
    let other := if tx then l.txOther else l.rxOther
    let isOut (t : State) : Prop := ringState t.opt.lanes[g] tx = 1 ∧ if tx then t.opt.lanes[g].txOut = true else t.opt.lanes[g].rxOut = true
    (ringState l tx = 2 → wordValid w = true → wordMatches s g tx w = true →
      (good = 1 → (if tx then l.txOut else l.rxOut) = false → exec (.pilotWord g tx w) s = .next (setRing s g tx 3)) ∧
      (good ≠ 1 → exec (.pilotWord g tx w) s = .next (setWords s g tx (good + 1) 0))) ∧
    (ringState l tx = 2 → wordValid w = true → wordMatches s g tx w = false → exec (.pilotWord g tx w) s = .next (setRing s g tx 1)) ∧
    (ringState l tx = 2 ∨ ringState l tx = 3 → wordValid w = false → exec (.pilotWord g tx w) s = .next (setWords s g tx 0 0)) ∧
    (ringState l tx = 3 → wordValid w = true → wordMatches s g tx w = true → exec (.pilotWord g tx w) s = .next (setWords s g tx 0 0)) ∧
    (ringState l tx = 3 → wordValid w = true → wordMatches s g tx w = false →
      (other ≠ 2 → exec (.pilotWord g tx w) s = .next (setWords s g tx 0 (other + 1))) ∧
      (other = 2 → ∃ t, exec (.pilotWord g tx w) s = .next t ∧ t.opt.mislock = s.opt.mislock + 1 ∧ t.opt.lanes[g].mislock = l.mislock + 1 ∧ isOut t ∧
        t.hlk = (raiseEvent s 0x04 (leBytes 2 0x0303 ++ [BitVec.ofNat 8 g.val, if tx then 1 else 0] ++ leBytes 2 (expectedWord s g tx).toNat ++
          leBytes 2 w.toNat ++ freeBytes s.free 8)).hlk ∧
        t.mem = s.mem ∧ t.cores = s.cores ∧ ∀ h, h ≠ g → t.opt.lanes[h] = s.opt.lanes[h])) ∧
    (ringState l tx = 3 → tx = true ∨ l.rxPort.isSome = true →
      ∃ t, exec (.pilotLost g tx) s = .next t ∧ t.opt.pilotLost = s.opt.pilotLost + 1 ∧ isOut t ∧ t.mem = s.mem ∧ t.cores = s.cores ∧
      ∀ h, h ≠ g → t.opt.lanes[h] = s.opt.lanes[h]) ∧
    (ringState l tx ≠ 3 ∨ (tx = false ∧ l.rxPort = none) → exec (.pilotLost g tx) s = .next s) ∧
    (ringState l tx = 1 → let n := if tx then l.txSweeps else l.rxSweeps
      (∃ t, exec (.ringSweepEnd g tx true) s = .next t ∧ ringState t.opt.lanes[g] tx = 2 ∧ t = { s with opt := { s.opt with lanes := t.opt.lanes } }) ∧
      (n < 2 → exec (.ringSweepEnd g tx false) s = .next (updLane s g fun l => if tx then { l with txSweeps := n + 1 } else { l with rxSweeps := n + 1 })) ∧
      (2 ≤ n → ∃ t, exec (.ringSweepEnd g tx false) s = .next t ∧ ringState t.opt.lanes[g] tx = 4 ∧ t.opt.sweepFailed = s.opt.sweepFailed + 1)) ∧
    (ringState l tx = 4 → ∀ found, exec (.pilotWord g tx w) s = .next s ∧ exec (.ringSweepEnd g tx found) s = .next s)

/-- Lanes and combs (R253, R254, R261, R262, R267, R269, R270): Stop takes a transmit lane out of its strap, Ready makes it ready, and a direction
that is ready rejoins 200 µs after its own detection, one that is not as soon as it becomes ready, and neither where its engine is out for the job;
the heaters follow the temperatures from the ring's record and its loop's trim; a lane trained on arriving light takes the modulation of its margin,
and keeps the one it has; a comb that fails is counted, takes its engine's light and every lane of it out, and the spare takes its place once, whose
lock trains every ring of the engine that has not failed. -/
def Obligations.LanesMove : Prop :=
  ∀ (s : State) (g : LaneId), let l := s.opt.lanes[g]
    (∀ port : PortId, txNet s g = some port →
      (l.txOut = false → ∃ t, exec (.stop port g) s = .next t ∧ t.opt.lanesRemoved = s.opt.lanesRemoved + 1 ∧
        t.opt.lanes = s.opt.lanes.set g { l with txOut := true, txReady := false, txDue := false, txActive := false } ∧ t.mem = s.mem ∧ t.cores = s.cores) ∧
      (l.txOut = true → l.txState = 3 → l.txDue = false → exec (.ready port g) s = .next (updLane s g fun l => { l with txReady := true })) ∧
      (l.txOut = true → l.txState = 3 → l.txDue = true → keptOut s g = false → ∃ t, exec (.ready port g) s = .next t ∧
        t.opt.lanesRejoined = s.opt.lanesRejoined + 1 ∧
        t.opt.lanes = s.opt.lanes.set g { l with txOut := false, txReady := false, txActive := l.txMod ≠ 0 && l.txPort.isSome })) ∧
    (∀ tx : Bool, (if tx then l.txOut else l.rxOut) = true → let due := if tx then { l with txDue := true } else { l with rxDue := true }
      ((if tx then l.txReady else l.rxReady) = false ∨ keptOut s g = true →
        exec (.laneRejoin g tx) s = .next { s with opt := { s.opt with lanes := s.opt.lanes.set g due } }) ∧
      ((if tx then l.txReady else l.rxReady) = true → keptOut s g = false → ∃ t, exec (.laneRejoin g tx) s = .next t ∧
        t.opt.lanesRejoined = s.opt.lanesRejoined + 1 ∧ t.mem = s.mem ∧ t.cores = s.cores ∧
        t.opt.lanes = s.opt.lanes.set g (if tx then { due with txOut := false, txReady := false, txActive := l.txMod ≠ 0 && l.txPort.isSome }
          else { due with rxOut := false, rxReady := false, rxActive := l.rxMod ≠ 0 && l.rxPort.isSome }))) ∧
    (∀ temps : List Temp, ∃ t, exec (.heaterFeedforward temps) s = .next t ∧ t = { s with opt := { s.opt with temps := t.opt.temps, lanes := t.opt.lanes } } ∧
      (∀ e : Fin 4, t.opt.temps[e] = if enginePresent s e.val then temps.getD e.val 0 else 0) ∧ ∀ h : LaneId, let x := s.opt.lanes[h]
        let temp := if enginePresent s (h.val / 16) then temps.getD (h.val / 16) 0 else 0
        t.opt.lanes[h] = { x with heatRx := if x.rxState = 0 then x.heatRx else heaterAt (ringRecord s (2 * h.val)) temp x.trimRx,
                                  heatTx := if x.txState = 0 then x.heatTx else heaterAt (ringRecord s (2 * h.val + 1)) temp x.trimTx }) ∧
    (∀ (fport : Fin 16) (x : LaneTrain), x.lane = g → fibrePort g l.rxPort = some fport → l.rxState ≠ 4 → keptOut s g = false → x.locked = true →
      l.rxOut = false → let mod (old : BitVec 2) (trained : Bool) (snr : BitVec 10) : BitVec 2 :=
        if trained then old else if 180 ≤ snr.toNat then 2 else if 110 ≤ snr.toNat then 1 else 0
      ∃ t, exec (.farLightArrival fport [x]) s = .next t ∧ let k := t.opt.lanes[g]
        k.rxState = 3 ∧ k.rxMod = mod l.rxMod l.rxTrained x.snrRx ∧ k.txMod = mod l.txMod l.txTrained x.snrTx ∧ k.rxTrained = true ∧ k.txTrained = true ∧
        (l.rxTrained = false → k.snr = x.snrRx) ∧ k.heatRx = (ringRecord s (2 * g.val + 1)).heater + x.heater ∧ k.trimRx = 0 ∧
        k.rxActive = decide (k.rxMod ≠ 0)) ∧
    (∀ c : Fin 5, c ≠ 4 → s.opt.combs.getLsbD c.val = true → enginePresent s c.val = true → ∃ t, exec (.combFailure c) s = .next t ∧
      t.opt.combs.getLsbD c.val = false ∧
      (∀ h : LaneId, h.val / 16 = c.val → let k := t.opt.lanes[h]
        k.txOut = true ∧ k.rxOut = true ∧ k.pilotX = 0 ∧ k.pilotY = 0) ∧
      (∀ h : LaneId, h.val / 16 ≠ c.val → t.opt.lanes[h] = s.opt.lanes[h]) ∧
      (s.opt.spareUsed = false → s.opt.combs.getLsbD 4 = true → t.opt.spareUsed = true ∧ t.opt.spareEngine.toNat = c.val ∧ t.opt.spareLit = true ∧
        t.opt.combEvents = s.opt.combEvents + 2) ∧
      (s.opt.spareUsed = true ∨ s.opt.combs.getLsbD 4 = false → t.opt.combsOut = setPut c.val s.opt.combsOut ∧
        t.opt.combEvents = s.opt.combEvents + 1)) ∧
    (s.opt.spareLit = true → ∃ t, exec .spareCombLock s = .next t ∧ t = { s with opt := { s.opt with spareLit := false, lanes := t.opt.lanes } } ∧
      ∀ h : LaneId, let x := s.opt.lanes[h]
        let k := t.opt.lanes[h]
        if h.val / 16 = s.opt.spareEngine.toNat then k.rxState = (if x.rxState = 4 then 4 else 1) ∧ k.txState = (if x.txState = 4 then 4 else 1) ∧
          k.pilotX = identityWord (h.val % 16) (h.val / 16) ∧ k.pilotY = ~~~identityWord (h.val % 16) (h.val / 16)
        else k = x)

/-- Frames of a strap (R206, R210, R258–R260, R275, R385): a new frame goes out on the next active lane with room, numbered, with the flits the router
gives it, as the 1,088 symbols of its two codewords, and is kept until it is acknowledged; each flit costs its channel a credit, and no other channel
sends while a control channel can; a paused strap sends only a Done that waits. A frame that arrives in sequence is delivered, one ahead of it waits
in the reorder buffer, one seen before changes nothing of the sequence, and one that cannot be decoded, names another lane, comes late or during a
plan switch's second phase is counted as lost; in confidential mode so is one whose tag fails, which counts as an authentication failure too. -/
def Obligations.FramesMove : Prop :=
  ∀ (s : State) (port : PortId), let q := s.opt.straps[port]
    let sent (x : State × List Flit) (g : LaneId) (t : State) : Prop := ∃ f, t.out = s.out ++ [.frame port g f (lineSymbols (frameBits s.sec.conf s.glb.moduleId.toNat s.sec.epoch.toNat f))] ∧
      f.lid.toNat = g.val ∧ f.seq = q.txSeq ∧ f.ack = q.rxSeq ∧ f.nack = q.gap ∧ f.flits = x.2 ∧ f.secCounter = (if s.sec.conf then s.opt.lanes[g].txCounter else 0) ∧
      f.credits = creditsOf x.1.fab.ports[port] ∧ (t.opt.straps[port]).txSeq = q.txSeq + 1 ∧ (t.opt.straps[port]).kept = q.kept ++ [(g, f)] ∧
      (f.svcType, f.svcPayload) = q.svcQ.headD (0, 0) ∧ (t.opt.straps[port]).svcQ = q.svcQ.tail ∧ t.mem = s.mem ∧ t.cores = s.cores
    (∀ g : LaneId, q.paused = false → nextLane s port = some g → ∃ t, exec (.frameSend port) s = .next t ∧ sent (takeFlits (slotsPerFrame s) s port) g t) ∧
    (q.paused = false → nextLane s port = none → ∃ t, exec (.frameSend port) s = .next t ∧ t = { s with fab := t.fab, free := t.free }) ∧
    (q.paused = true → (q.svcQ.headD (0, 0)).1 ≠ 4 → exec (.frameSend port) s = .next s) ∧
    (∀ g : LaneId, q.paused = true → (q.svcQ.headD (0, 0)).1 = 4 → nextLane s port = some g → q.doneSeen = false →
      ∃ t, exec (.frameSend port) s = .next t ∧ sent (s, []) g t ∧ (t.opt.straps[port]).doneSent = true ∧ (t.opt.straps[port]).paused = true) ∧
    (∀ (t : State) (f : Flit), nextFlit s port = some (t, f) → let a := s.fab.ports[port]
      ∃ vc : Fin 8, f.vc = vc ∧ 0 < a.credits[vc] ∧ (t.fab.ports[port]).credits[vc] = a.credits[vc] - 1 ∧ (t.fab.ports[port]).flitsTx[vc] = a.flitsTx[vc] + 1 ∧
        (vc.val < 6 → a.ready 6 = false ∧ a.ready 7 = false)) ∧
    (∀ (g : LaneId) (bits : BitVec 10280) (rx : FrameRx), rxNet s g = some port → let f0 := frameOf s.sec.conf bits.toNat
      (15 < rx.errors0 ∨ 15 < rx.errors1 ∨ rx.late = true ∨ s.opt.phase = 2 ∨ (∃ x, farLane s g = some x ∧ x ≠ f0.lid.toNat) →
        ∃ t, exec (.frameReceive port g bits rx) s = .next t ∧ t.opt.framesLost = s.opt.framesLost + 1 ∧ t.opt.straps = s.opt.straps ∧ t.fab = s.fab) ∧
      (rx.errors0 ≤ 15 → rx.errors1 ≤ 15 → rx.late = false → s.opt.phase ≠ 2 → (∀ x, farLane s g = some x → x = f0.lid.toNat) →
        (s.sec.conf = true → clearBits true bits.toNat = none ∨ staleCounter q f0 = true →
          ∃ t, exec (.frameReceive port g bits rx) s = .next t ∧ t.opt.framesLost = s.opt.framesLost + 1 ∧ t.sec.fibreAuthFail = s.sec.fibreAuthFail + 1 ∧
            t.opt.straps = s.opt.straps ∧ t.fab = s.fab) ∧
        ∀ f : Frame, (s.sec.conf = false ∧ f = f0) ∨ (s.sec.conf = true ∧ staleCounter q f0 = false ∧ ∃ b, clearBits true bits.toNat = some b ∧ f = frameOf true b) →
          s.fab.ports[port].silent = false → f.nack = false → f.svcType ≠ 4 → q.doneAt = none →
          (∀ b ∈ q.buffer, b.seq ≠ f.seq ∧ b.seq ≠ f.seq + 1 ∧ b.seq ≠ q.rxSeq + 1) →
          ∃ t, exec (.frameReceive port g bits rx) s = .next t ∧ (t.opt.straps[port]).kept = q.kept.filter (fun x => seqAfter x.2.seq f.ack) ∧
            (f.seq = q.rxSeq + 1 → (t.opt.straps[port]).rxSeq = f.seq ∧ t.fab.ports[port] = f.flits.foldl takeFlit
              { s.fab.ports[port] with credits := f.credits.foldl (fun c x => vmod c x.1 (· + x.2.toNat)) s.fab.ports[port].credits }) ∧
            (f.seq ≠ q.rxSeq + 1 → seqAfter f.seq q.rxSeq = true → (t.opt.straps[port]).rxSeq = q.rxSeq ∧
              (t.opt.straps[port]).buffer = q.buffer ++ [f] ∧ (t.opt.straps[port]).gap = true ∧ t.fab = s.fab) ∧
            (f.seq ≠ q.rxSeq + 1 → seqAfter f.seq q.rxSeq = false → (t.opt.straps[port]).rxSeq = q.rxSeq ∧
              (t.opt.straps[port]).buffer = q.buffer ∧ t.fab = s.fab)))

/-- Plan switches (R257, R271, R273–R275): a marker of another plan triggers the switch, and one that comes during a switch waits for its end, but
changes nothing where it names the plan in force or the one being taken; the switch pauses every strap and sends four marker frames on every active
lane; the buckles take the new plan's fibre ports; at the end of reacquisition the plan is current, and the first marker that waited for another plan
starts the next switch; a strap resumes once Done has been sent and seen. An intact PLAN packet is kept, and fails a load it contradicts, each
difference being reported with both masks. -/
def Obligations.PlansSwitch : Prop :=
  ∀ (s : State) (k : Fin 8),
    (s.opt.switching = false → s.opt.plan.toNat ≠ k.val → exec (.switchMarker k) s =
      .next { s with opt := { s.opt with switching := true, target := BitVec.ofNat 3 k.val, phase := 0 } }) ∧
    (s.opt.plan.toNat = k.val ∨ (s.opt.switching = true ∧ s.opt.target.toNat = k.val) → exec (.switchMarker k) s = .next s) ∧
    (s.opt.switching = true → s.opt.plan.toNat ≠ k.val → s.opt.target.toNat ≠ k.val →
      exec (.switchMarker k) s = .next { s with opt := { s.opt with markersHeld := s.opt.markersHeld ++ [k] } }) ∧
    (s.opt.switching = true → s.opt.target.toNat = k.val → s.opt.phase = 0 → ∃ t, exec (.planSwitch k) s = .next t ∧ t.opt.phase = 1 ∧
      (∀ n : PortId, (t.opt.straps[n]).paused = true ∧ (t.opt.straps[n]).doneSent = false ∧ (t.opt.straps[n]).doneSeen = false ∧
        (t.opt.straps[n]).markers = 4 * (strapReceives s n).length ∧ (t.opt.straps[n]).kept = (s.opt.straps[n]).kept) ∧
      (∃ new, t.out = s.out ++ new ∧ new.length = 4 * ((List.finRange 8).map fun n => (strapLanes s n).length).sum ∧
        ∀ x ∈ new, ∃ n g f y, x = .frame n g f y ∧ f.svcType = 3 ∧ f.svcPayload.toNat = k.val ∧ f.flits = []) ∧ t.mem = s.mem ∧ t.cores = s.cores) ∧
    (s.opt.switching = true → s.opt.phase = 1 → ∃ t, exec .buckleReprogram s = .next t ∧ t = { s with opt := { s.opt with phase := 2, lanes := t.opt.lanes } } ∧
      ∀ g : LaneId, t.opt.lanes[g] = { s.opt.lanes[g] with txPort := (planEntry s s.opt.target g).1, rxPort := (planEntry s s.opt.target g).2,
                                                            txActive := false, rxActive := false }) ∧
    (∀ failed : List LaneId, s.opt.switching = true → s.opt.phase = 2 → (∀ n ∈ s.coll.cinches, n.upSent = true) → s.coll.heldDowns = [] →
      ∃ t, exec (.reacquireEnd failed) s = .next t ∧ t.opt.plan = s.opt.target ∧ t.opt.phase = 0 ∧ t.opt.switches = s.opt.switches + 1 ∧
        t.job.switchThenRun = false ∧ (s.opt.markersHeld = [] → t.opt.switching = false) ∧
        ∀ m l, s.opt.markersHeld = m :: l → m.val ≠ s.opt.target.toNat → t.opt.switching = true ∧ t.opt.target.toNat = m.val) ∧
    (∀ port : PortId, (s.opt.straps[port]).paused = true → (if s.opt.switching then s.opt.target else s.opt.plan).toNat = k.val →
      (s.opt.straps[port].doneSent = false → exec (.switchDone port k) s = .next (updStrap s port fun q => { q with doneSeen := true })) ∧
      (s.opt.straps[port].doneSent = true → ∃ t, exec (.switchDone port k) s = .next t ∧ (t.opt.straps[port]).paused = false ∧
        (t.opt.straps[port]).kept = (s.opt.straps[port]).kept ∧ t.mem = s.mem ∧ t.cores = s.cores)) ∧
    (∀ (port : PortId) (p : Packet), p.intact = true → let o := { s.opt with planPkts := s.opt.planPkts.filter (·.1 ≠ port) ++ [(port, p)] }
      (s.hlk.state ≠ .loaded ∨ planDiffs s port p = [] → exec (.plan port p) s = .next { s with opt := o }) ∧
      (s.hlk.state = .loaded → planDiffs s port p ≠ [] → exec (.plan port p) s = .next { s with
        opt := { o with planMismatch := o.planMismatch + BitVec.ofNat 64 (planDiffs s port p).length, planFailed := true },
        out := s.out ++ (planDiffs s port p).map (fun x => .planMismatch port x.1 x.2.1 x.2.2.1 x.2.2.2),
        hlk := { s.hlk with state := .ready } })) ∧
    (∀ (port : PortId) (p : Packet), p.intact = false → ∃ t, exec (.plan port p) s = .next t ∧ t.opt = s.opt ∧ t.hlk = s.hlk)

/-! ## Discovery (R278–R288) -/

/-- Discovery (R220, R280–R288, R299): a declaration that fails a check ends with result 8, and a failed host access gives HOSTERR; a good one
puts every engine's lanes on the training map and sends HELLO on each mapped fibre port. HELLO, COORD, UP and DOWN packets are acknowledged with
their own payload, and the first of each is taken; a HELLO that disagrees sets its flag; a COORD gives the module its place, of several in one
tick the one on the lowest network port; an acknowledgement that echoes a message sent ends its repeating, and any other does nothing; what is
unanswered goes again; an expired budget ends with the lowest flag, or with result 7, unless a DOWN comes in the same tick. A packet that is not
intact is discarded and counted, and has no other effect. -/
def Obligations.DiscoveryRuns : Prop :=
  ∀ (s : State),
    (∀ (ring : RingId) (idx : W16) (data : List Byte) (x : Inflight), s.descReady ring idx 0x40 x → descCheck s ring x = none →
      exec (.discover ring idx data true) s = .next (finishDesc (linkGood s) ring idx 0x000B 0 0 0) ∧
      (sealing s = false → data.length = 64 → s.disc.running = false →
        (declBad s data = true → ∃ t, exec (.discover ring idx data false) s = .next t ∧ t.disc.result = 8 ∧ t.disc.ended = true ∧
          t.disc.running = false ∧ t.hlk.state = .nodisc ∧ t.mem = s.mem) ∧
        (declBad s data = false → (declOf data).seed ≠ s.glb.moduleId → ∃ t,
          exec (.discover ring idx data false) s = .next t ∧ t.disc.running = true ∧ t.disc.decl = some (declOf data) ∧ t.disc.coords = none ∧
            t.hlk.state = .discovering ∧ t.opt.portMap = (declOf data).pmap ∧ t.disc.owner = some (ring, idx) ∧
            (∀ g : LaneId, s.glb.engines.getLsbD (g.val / 16) = true →
              (t.opt.lanes[g]).txPort = some (Fin.ofNat 4 (g.val % 4)) ∧ (t.opt.lanes[g]).rxPort = some (Fin.ofNat 4 ((g.val % 4).xor 1))) ∧
            t.out = s.out ++ (declOf data).mapped.map (fun p => let m := message t (declOf data) p 0
              .disc p (discPacket t m (discPayload m)))))) ∧
    (∀ (p : Fin 16) (pk : Packet), pk.intact = false →
      ∀ x ∈ [Instr.hello p pk, .coord p pk, .up p pk, .down p pk, .discAck p pk], exec x s = exec (.packetIngress pk) s) ∧
    (∀ (p : Fin 16) (pk : Packet) (m : DiscMsg) (d : Decl), pk.intact = true → discOf pk = some m → answering s p m = some d →
      let l := s.disc.links[p]
      let acked : State := { s with out := s.out ++ [.disc p (discPacket s { message s d p m.kind with ack := true, echo := m.tseq } pk.payload)] }
      (m.kind = 0 → m.ack = false →
        (l.helloChecked = true → exec (.hello p pk) s = .next acked) ∧
        (l.helloChecked = false → ∃ t, exec (.hello p pk) s = .next t ∧ (t.disc.links[p]).helloChecked = true ∧
          (t.disc.links[p]).farIdentity = some m.identity ∧ (t.disc.links[p]).farEngine = some m.engine ∧
          ((m.tag ≠ d.tag ∨ m.dcrc ≠ d.dcrc) → t.disc.flags.getLsbD 1 = true))) ∧
      (m.kind = 1 → m.ack = false →
        (l.coordSeen = true ∨ s.disc.running = false → exec (.coord p pk) s = .next acked) ∧
        (l.coordSeen = false → s.disc.running = true → s.disc.coords = none → ∃ t, exec (.coord p pk) s = .next t ∧
          (t.disc.links[p]).coordSeen = true ∧ t.disc.coords = (let b := firstCoord s d p m
            some (coordFrom d b.1 b.2)) ∧
          (s.pending = [] → t.disc.coords = some (coordFrom d p m)))) ∧
      (m.kind = 2 → m.ack = false →
        (l.upFrom.isSome = true ∨ s.disc.running = false → exec (.up p pk) s = .next acked) ∧
        (l.upFrom = none → s.disc.running = true → ∃ t, exec (.up p pk) s = .next t ∧ (t.disc.links[p]).upFrom = some (m.count, m.flags) ∧
          t.disc.flags &&& m.flags = m.flags)) ∧
      (m.kind = 3 → m.ack = false →
        (s.disc.coords = none ∨ s.disc.running = false → exec (.down p pk) s = .next acked) ∧
        (∀ cs, s.disc.coords = some cs → s.disc.running = true → ∃ t, exec (.down p pk) s = .next t ∧ t.disc.running = false ∧ t.disc.ended = true ∧
          t.disc.result = m.result ∧ (m.result = 0 → t.fab.chip = BitVec.ofNat 16 (chipOf d.lens cs)) ∧ (m.result ≠ 0 → t.fab = s.fab))) ∧
      (m.ack = true → (m.kind, m.echo) ∉ l.tseqs → exec (.discAck p pk) s = .next s) ∧
      (m.ack = true → (m.kind, m.echo) ∈ l.tseqs →
        (m.kind = 0 → l.helloAcked = false → ∃ t, exec (.discAck p pk) s = .next t ∧ (t.disc.links[p]).helloAcked = true ∧
          (t.disc.links[p]).roundTrip = some ((s.now.setWidth 32 : W32) - m.echo - m.turnaround).toNat) ∧
        (m.kind = 0 → l.helloAcked = true → exec (.discAck p pk) s = .next s) ∧
        (m.kind = 1 → exec (.discAck p pk) s = .next (updLink s p fun l => { l with coordAcked := true })) ∧
        (m.kind = 2 → exec (.discAck p pk) s = .next (updLink s p fun l => { l with upAcked := true })) ∧
        (m.kind = 3 → exec (.discAck p pk) s = .next (updLink s p fun l => { l with downAcked := true })))) ∧
    (∀ (p : Fin 16) (d : Decl), s.disc.decl = some d → (d.net p).isSome = true → s.disc.running = true → let l := s.disc.links[p]
      let sent (kind : Fin 4) : State := let m := message s d p kind
        updLink { s with out := s.out ++ [.disc p (discPacket s m (discPayload m))] } p fun l => { l with tseqs := l.tseqs ++ [(kind, m.tseq)] }
      l.upSent = false → l.downSent = false →
      (l.helloAcked = true → l.coordSent = true → l.coordAcked = false → exec (.discRepeat p) s = .next (sent 1)) ∧
      (l.coordSent = false ∨ l.coordAcked = true → exec (.discRepeat p) s = .next (if l.helloAcked then s else sent 0))) ∧
    (∀ d, s.disc.decl = some d → s.disc.running = true → downNow s = false → ∃ t, exec .discoveryTimeout s = .next t ∧ t.disc.running = false ∧
      t.disc.ended = true ∧ t.disc.result = BitVec.ofNat 4 ((firstCode s.disc.flags).getD 7) ∧ t.mem = s.mem) ∧
    (s.disc.running = false ∨ downNow s = true → exec .discoveryTimeout s = .next s)
/-! ## Host link, rings and descriptors (R293–R313, R386) -/

/-- The host link going down cuts the host accesses of the descriptors that have begun one; retraining completes those with HOSTERR and
writes the events kept meanwhile; a frame that fails authentication is counted, and the 1,000th in a row takes the link down (R293,
R386). An enable, a disable and the doorbells of a ring (R295, R296, R311). A descriptor is fetched while the ring has one and room
for its completion (R297), and once nothing before it holds it, it is checked; a completion entry is written, and a message sent when irq or the coalescing count or time asks for it
(R300, R301). -/
def Obligations.HostRings : Prop :=
  ∀ (s : State),
    (s.hlk.up = true → ∃ cut, exec .linkDown s =
        .next { s with hlk := { s.hlk with up := false, width := 0, cutOff := s.hlk.cutOff ++ cut, authRun := 0 } } ∧
      ∀ (r : RingId), ∀ d ∈ s.hlk.rings[r].inflight, usesHost s r d = true → (r, d.idx) ∈ cut) ∧
    (s.hlk.up = false → exec .linkDown s = .next s) ∧
    (∀ lanes : Nat, s.hlk.up = false → 4 ≤ lanes → ∃ t, exec (.linkRetrain lanes) s = .next t ∧ t.hlk.up = true ∧
      t.hlk.width = (if 8 ≤ lanes then 8 else 4) ∧ t.hlk.buffered = [] ∧ t.hlk.cutOff = [] ∧
      t.hlk.linkRetrains = (if s.hlk.trained then s.hlk.linkRetrains + 1 else s.hlk.linkRetrains) ∧
      (∀ x ∈ s.hlk.cutOff, ∀ d ∈ s.hlk.rings[x.1].inflight, d.idx = x.2 → d.status = none →
        d.finish 0x000B 0 0 0 ∈ t.hlk.rings[x.1].inflight) ∧
      t = { s with hlk := t.hlk, out := t.out }) ∧
    (∀ lanes : Nat, s.hlk.up = true ∨ lanes < 4 → exec (.linkRetrain lanes) s = .next s) ∧
    (sealing s = true → s.hlk.up = true → s.hlk.authRun < 999 → exec .linkFrameAuthFail s =
      .next { s with sec := { s.sec with linkAuthFail := s.sec.linkAuthFail + 1 }, hlk := { s.hlk with authRun := s.hlk.authRun + 1 } }) ∧
    (sealing s = true → s.hlk.up = true → 999 ≤ s.hlk.authRun → ∃ t, exec .linkFrameAuthFail s = .next t ∧ t.hlk.up = false ∧
      t.hlk.width = 0 ∧ t.sec = { s.sec with linkAuthFail := s.sec.linkAuthFail + 1 }) ∧
    (sealing s = false → exec .linkFrameAuthFail s = .next s) ∧
    (∀ ring : RingId, let r := s.hlk.rings[ring]
      let put (q : Ring) : State := { s.unlatch with hlk := { s.hlk with rings := s.hlk.rings.set ring q } }
      (∀ (v : W64), r.enable = false → let q : Ring := { r with
          weight := (v >>> 6).setWidth 2, ccount := (v >>> 16).setWidth 8, cticks := (v >>> 32).setWidth 16,
          size := v.setWidth 5, vector := (v >>> 8).setWidth 5 }
        exec (.ringEnable ring v) s = .next (put
          (if 4 ≤ q.size.toNat ∧ q.size.toNat ≤ 16 ∧ q.vector.toNat ≤ 16 ∧ r.inflight = [] then
            { q with enable := true, runBase := r.cqbase, runSize := q.size, runVector := q.vector, cfgErr := false, sqhead := 0, cqtail := 0, completed := 0, sqtail := 0, cqhead := 0, unreleased := 0,
                     phase := true, unsent := 0 }
           else { q with cfgErr := true }))) ∧
      (∀ (v : W64), r.enable = true → exec (.ringEnable ring v) s = .next (put { r with
        weight := (v >>> 6).setWidth 2, ccount := (v >>> 16).setWidth 8, cticks := (v >>> 32).setWidth 16 })) ∧
      exec (.ringDisable ring) s = .next (put { r with enable := false }) ∧
      (∀ v : W16, r.enable = true → v.toNat < 2 ^ r.size.toNat →
        exec (.sqTailDoorbell ring v true) s = .next (put { r with sqtail := v }) ∧
        exec (.cqHeadDoorbell ring v true) s = .next (put { r with
          cqhead := v, unreleased := (r.cqtail.toNat + 2 ^ r.size.toNat - v.toNat) % 2 ^ r.size.toNat })) ∧
      (∀ (v : W16) (wide : Bool), r.enable = false ∨ 2 ^ r.size.toNat ≤ v.toNat ∨ wide = false →
        let ignored : State := { s.unlatch with hlk := { s.hlk with doorbellBad := s.hlk.doorbellBad + 1 } }
        exec (.sqTailDoorbell ring v wide) s = .next ignored ∧ exec (.cqHeadDoorbell ring v wide) s = .next ignored) ∧
      (∀ data : List Byte, s.hlk.up = true → nextRing s = some ring → ∃ t, exec (.descriptorFetch ring data) s = .next t ∧
        (t.hlk.rings[ring]).sqhead = BitVec.ofNat 16 ((r.sqhead.toNat + 1) % 2 ^ r.size.toNat) ∧
        (∃ d : Inflight, d.idx = r.sqhead ∧ d.bytes = padTo 64 0 data ∧ d.status = none ∧ d.acted = false ∧
          List.Forall₂ Inflight.stamped (r.inflight ++ [d]) (t.hlk.rings[ring]).inflight) ∧ t = { s with hlk := t.hlk }) ∧
      (∀ data : List Byte, s.hlk.up = false ∨ fetchable s r = false → exec (.descriptorFetch ring data) s = .next s) ∧
      (∀ (idx : W16) (d : Inflight), (r.inflight.find? fun d => d.idx == idx && d.status.isSome) = some d → s.hlk.up = true →
        ∃ t, exec (.descriptorComplete ring idx) s = .next t ∧ let q := t.hlk.rings[ring]
          let wrap := r.cqtail.toNat + 1 == 2 ^ r.runSize.toNat
          List.Forall₂ Inflight.stamped (r.inflight.filter (·.idx != idx)) q.inflight ∧
          ((∀ d ∈ r.inflight, startable s ring d = true) → q.inflight = r.inflight.filter (·.idx != idx)) ∧
          q.completed = r.completed + 1 ∧ q.unreleased = r.unreleased + 1 ∧
          q.cqtail = (if wrap then 0 else r.cqtail + 1) ∧ q.phase = (if wrap then !r.phase else r.phase) ∧
          (let e : Out := .hostWrite (r.runBase + BitVec.ofNat 64 (32 * r.cqtail.toNat)) (completionBytes d r.phase)
           if d.irq ∨ r.ccount.toNat ≤ r.unsent then t.out = s.out ++ [e, .interrupt r.runVector] ∧ q.unsent = 0
           else t.out = s.out ++ [e] ∧ q.unsent = r.unsent + 1) ∧
          t = { s with hlk := { s.hlk with rings := t.hlk.rings }, out := t.out } ∧ ∀ x : RingId, x ≠ ring → t.hlk.rings[x] = s.hlk.rings[x]) ∧
      (exec (.coalesceTimeout ring) s = .next
        (if s.hlk.up = true ∧ r.cticks ≠ 0 ∧ 0 < r.unsent then
          { s with hlk := { s.hlk with rings := s.hlk.rings.set ring { r with unsent := 0 } }, out := s.out ++ [.interrupt r.runVector] }
         else s))) ∧
    (∀ v : W16, s.hlk.evenable = true → v.toNat < 2 ^ s.hlk.evsize.toNat → exec (.eventHeadDoorbell v true) s =
      .next { s.unlatch with hlk := { s.hlk with
        evhead := v, evused := (s.hlk.evtail.toNat + 2 ^ s.hlk.evsize.toNat - v.toNat) % 2 ^ s.hlk.evsize.toNat } }) ∧
    (∀ (v : W16) (wide : Bool), s.hlk.evenable = false ∨ 2 ^ s.hlk.evsize.toNat ≤ v.toNat ∨ wide = false →
      exec (.eventHeadDoorbell v wide) s = .next { s.unlatch with hlk := { s.hlk with doorbellBad := s.hlk.doorbellBad + 1 } }) ∧
    (∀ v : W32, s.hlk.evenable = false → let z : BitVec 5 := v.setWidth 5
      exec (.eventRingEnable v) s = .next { s.unlatch with hlk :=
        if 4 ≤ z.toNat ∧ z.toNat ≤ 16 then
          { s.hlk with evsize := z, evenable := true, everr := false, evtail := 0, evhead := 0, evused := 0, evphase := true }
        else { s.hlk with evsize := z, everr := true } }) ∧
    (∀ v : W32, s.hlk.evenable = true → exec (.eventRingEnable v) s = .next s.unlatch) ∧
    exec .eventRingDisable s = .next { s.unlatch with hlk := { s.hlk with evenable := false } }

/-- What a descriptor does (R298, R299, R303–R306, R308, R165). One that fails a check of R299 completes with that status and changes
nothing else. NOP completes. WAITR completes once its ring's count is reached, with TIMEOUT when its budget expires first. HTOD stores the
host's bytes at its local address and nowhere else; DTOH writes the local bytes to the host, sealed in confidential mode, zeros for
poisoned lines, whose reading is a consumption; a failed host access gives HOSTERR, a sealed block that fails AUTH with its index. HOLD,
RELEASE, REPLAY and the DRAIN actions of STEP act on the job; a command of another action does nothing. -/
def Obligations.DescriptorsAct : Prop :=
  ∀ (s : State) (ring : RingId) (idx : W16) (d : Inflight),
    (∀ (st : W16) (a : BitVec 48) (b : W64) (code : W16), descCheck s ring d = some (st, a, b, code) →
      ∀ (data : List Byte) (err : Bool) (failed : Option HostAccess), ∀ x ∈ descCommands ring idx data err failed, s.descReady ring idx x.1 d →
        exec x.2 s = .next (finishDesc s ring idx st a b code) ∧
        d.finish st a b code ∈ ((finishDesc s ring idx st a b code).hlk.rings[ring]).inflight) ∧
    (descCheck s ring d = none → let g := linkGood s
      let done (t : State) (v : Nat) : State := finishDesc t ring idx 0 0 (BitVec.ofNat 64 v) 0
      (s.descReady ring idx 0x01 d → exec (.nop ring idx) s = .next (done s 0)) ∧
      (s.descReady ring idx 0x02 d → let r := s.hlk.rings[(Fin.ofNat 16 (leAt d.bytes 16 1) : RingId)]
        let met := r.enable = true ∧ leAt d.bytes 24 8 ≤ r.completed.toNat
        (met → exec (.waitr ring idx) s = .next (done s 0) ∧ exec (.waitrTimeout ring idx) s = .next (done s 0)) ∧
        (¬ met → exec (.waitr ring idx) s = .next s ∧
          exec (.waitrTimeout ring idx) s = .next (finishDesc s ring idx 0x000C 0 0 codeTimeout))) ∧
      (s.descReady ring idx 0x10 d → s.sound = true → s.aligned → let a := d.localAddr
        (∀ data : List Byte, sealing s = false → ∃ u, HbmStep g u ∧ exec (.htod ring idx data false) s = .next (done u d.len) ∧
          s.keeps u a d.len ∧ (s.job.replay = none → s.apart a d.len → readHbm u a d.len = padTo d.len 0 data)) ∧
        (∀ data : List Byte, sealing s = false → data.length ≤ d.len → ∃ u, HbmStep g u ∧
          exec (.htod ring idx data true) s = .next (finishDesc u ring idx 0x000B 0 0 0) ∧
          s.keeps u a data.length ∧ (s.job.replay = none → s.apart a data.length → readHbm u a data.length = data)) ∧
        (∀ (data : List Byte) (i : Nat), (fromHost g (some a) 0x10 d.len data).2.2 = some i → ∃ u,
          exec (.htod ring idx data false) s = .next (finishDesc u ring idx 0x000A 0 (BitVec.ofNat 64 i) 0) ∧
          (i = 0 → u.mem = s.mem))) ∧
      (s.descReady ring idx 0x11 d → let a := d.localAddr
        let bad := badLines s a d.len
        let put (u : State) (bs : List Byte) : State :=
          let x := toHost u (some a) 0x11 bs
          { x.1 with out := x.1.out ++ [.hostWrite (BitVec.ofNat 64 d.hostAddr) x.2] }
        (∀ (u : State) (bs : List Byte), sealing u = false → toHost u (some a) 0x11 bs = (u, bs)) ∧
        (bad = [] → exec (.dtoh ring idx false) s = .next (done (put g (readHbm s a d.len)) d.len)) ∧
        (∀ (l : Nat) (rest : List Nat), bad = l :: rest → ∃ (u : State) (bs : List Byte),
          exec (.dtoh ring idx false) s =
            .next (finishDesc (put u bs) ring idx 0x0006 (BitVec.ofNat 48 bad.length) (BitVec.ofNat 64 (64 * l)) codePoison) ∧
          exec (.dtoh ring idx true) s = .next (finishDesc u ring idx 0x000B 0 0 0) ∧
          bs.length = d.len ∧ (∀ i < d.len, bs[i]? = some (if (a + i) / 64 ∈ bad then 0 else cellsGet (keyOf s (a + i)) s.mem.cells)) ∧
          u.mem = s.mem ∧ (s.job.manifest = none → u = g) ∧
          (s.job.manifest.isSome = true → u.job.poison = true ∧ u.flt.consumptions = s.flt.consumptions + 1)) ∧
        (bad = [] → exec (.dtoh ring idx true) s = .next (finishDesc g ring idx 0x000B 0 0 0))) ∧
      (s.descReady ring idx 0x20 d →
        let held : W32 := match s.job.replayBack with | some b => b.1 | none => s.job.step
        let before : Bool := if s.mem.drainTick = some s.now then s.mem.drainPrev else s.mem.drainPending
        let drained (v : Bool) : State :=
          { s with mem := { s.mem with drainPending := v, drainStep := true, drainTick := some s.now, drainPrev := before } }
        (d.action = 0 → exec (.stepHold ring idx) s =
          .next (done { s with job := { s.job with hold := .pending, holdAt := some (ring, idx, s.now) } } (held + 1).toNat)) ∧
        (d.action = 1 → let u : State := done { s with job := { s.job with hold := .none } } held.toNat
          (s.job.replay.isSome = true → exec (.stepRelease ring idx) s = .next u) ∧
          (s.job.replay = none → ∃ t, exec (.stepRelease ring idx) s = .next t ∧ t = beginStep u ∧ t.job.hold = .none ∧
            t.job.dispatching = true ∧ t.job.step = s.job.step ∧ t.mem.side = s.mem.side)) ∧
        (∀ c, d.action = 2 → s.job.ctxKept = some c → ∃ t, exec (.stepReplay ring idx) s = .next t ∧ t.job.dispatching = true ∧
          t.job.replay = some (ring, idx) ∧ t.job.replaySide = (!s.mem.side) ∧ t.mem.side = s.mem.side ∧
          t.job.replayBack = some (s.job.step, s.job.l, s.job.clean) ∧ (t.job.step, t.job.l, t.job.clean) = c ∧
          t.job.freqKept = s.job.freqKept ∧ t.upd.fingersKept = s.upd.fingersKept) ∧
        (d.action = 3 → exec (.drainSet ring idx) s = .next (done (drained true) s.job.step.toNat)) ∧
        (d.action = 4 → exec (.drainClear ring idx) s = .next (done (drained false) s.job.step.toNat)) ∧
        (∀ x ∈ [(0, Instr.stepHold ring idx), (1, .stepRelease ring idx), (2, .stepReplay ring idx), (3, .drainSet ring idx),
          (4, .drainClear ring idx)], d.action ≠ x.1 → exec x.2 s = .next s)))
/-! ## Job management (R307–R323) -/

/-- LOAD, START and TEARDOWN (R299, R307, R312, R314, R319, R335, R379, R120). A failed host access gives HOSTERR. An image with a failing block or check is refused with the
lowest reason code, and the job state and HBM stay; an image that passes is placed and measured, and the module is LOADED with the
manifest's job. START enters its cinch with the offer of the module. TEARDOWN quiesces the module and, once the other rings have finished,
releases the job. -/
def Obligations.JobCommands : Prop :=
  ∀ (s : State) (ring : RingId) (idx : W16) (d : Inflight), descCheck s ring d = none → let g := linkGood s
    (s.descReady ring idx 0x41 d → ∀ image : List Byte,
      exec (.load ring idx image true) s = .next (finishDesc g ring idx 0x000B 0 0 0) ∧
      (∀ i, (fromHost g none 0x41 d.len image).2.2 = some i → ∃ u, exec (.load ring idx image false) s =
          .next (finishDesc u ring idx 0x0007 (BitVec.ofNat 48 (2 + offsetItem (4096 * i) * 2 ^ 16)) 0 codeLoadRefused) ∧
        u.hlk = g.hlk ∧ u.mem = s.mem ∧ u.job = s.job) ∧
      (sealing s = false → let img := padTo d.len 0 image
        (∀ code item : Nat, firstFail (loadFails g img) = some (code, item) → ∃ u, exec (.load ring idx image false) s =
            .next (finishDesc u ring idx 0x0007 (BitVec.ofNat 48 (code + item * 2 ^ 16)) 0 codeLoadRefused) ∧
          u.hlk = g.hlk ∧ u.mem = s.mem ∧ u.job = s.job ∧ (∀ x ∈ loadFails g img, code ≤ x.1 ∧ (x.1 = code → item ≤ x.2))) ∧
        (firstFail (loadFails g img) = none → ∃ u, exec (.load ring idx image false) s = .next (finishDesc u ring idx 0 0 0 0) ∧
          u.hlk.state = .loaded ∧ (let m := manifestOf img
            u.job.manifest = some m ∧ u.job.step = m.step0 ∧ u.job.l = m.l0 ∧ u.mem.side = m.side0) ∧
          u.mem.regions = (imageRegions img).zipIdx.map (fun r => r.1.placed (liveChannels s).length r.2) ∧ u.upd.groups = imageGroups img ∧ u.coll.comms = imageComms img ∧
          (∀ c : CoreId, (u.core c).segments = coreSegments img c.val ∧ (u.core c).running = none) ∧
          u.sec.logSeq = s.sec.logSeq + 1 ∧ u.sec.log.length = s.sec.log.length + 1 ∧
          u.sec.m[(0 : Fin 3)] = s.sec.m[(0 : Fin 3)] ∧ u.sec.m[(1 : Fin 3)] = s.sec.m[(1 : Fin 3)]))) ∧
    (s.descReady ring idx 0x42 d → ∀ c, commitComm s = some c → findCinch s c.idx = none →
      (∃ x ∈ (cinchFamily s c).1, ∀ q ∈ s.coll.earlyUps, cinchComm q = c.idx → cinchSeq q = c.cseq → cinchSender q ≠ x) →
      ∃ (t : State) (n : Cinch), exec (.start ring idx) s = .next t ∧ n ∈ t.coll.cinches ∧ n.comm = c.idx ∧ n.cseq = c.cseq ∧
        n.kind = .start ring idx ∧ n.record = { CinchRec.blank with minw := (offerOf s.pwr).zeroExtend 64 } ∧
        t.pwr = { s.pwr with fOffer := offerOf s.pwr } ∧ t.hlk.state = s.hlk.state ∧ t.mem = s.mem ∧ t.job = s.job) ∧
    (s.descReady ring idx 0x43 d →
      (othersDone s ring = false → ∃ t, exec (.teardown ring idx) s = .next t ∧ t.coll.cinches = [] ∧ t.fab.sendQ = [] ∧
        t.job.quiescing = true ∧ t.job.dispatching = false ∧ (∀ c, (t.core c).running = none) ∧ t.mem = s.mem) ∧
      (othersDone s ring = true → ∃ t, exec (.teardown ring idx) s = .next t ∧ t.hlk.state = .nodisc ∧ t.job = Job.reset ∧
        t.mem.regions = [] ∧ t.mem.cells = s.mem.cells ∧ t.mem.side = s.mem.side ∧ t.mem.drainPending = false ∧ t.upd.groups = [] ∧ t.coll.comms = [] ∧
        t.coll.cinches = [] ∧ t.fab.sendQ = [] ∧ t.fab.fenced = false ∧ t.fab.routes = s.fab.routes ∧
        (∀ c, (t.core c).running = none ∧ (t.core c).segments = []) ∧ d.finish 0 0 0 0 ∈ (t.hlk.rings[ring]).inflight ∧
        t.sec.m[(2 : Fin 3)] = 0 ∧ t.sec.log = s.sec.log.filter fun e => byteAt e 0 ≠ 2))

/-- Responses of MGMT (R299, R309, R364, R381–R383, R422, R423, R433), outside confidential mode: a request of the legal form gets its response
written at the response address, a response too long for its buffer gives LENGTH with the needed size, any other request FIELD; in
MINIMAL a subcommand that is not served there gives STATE. A host access that fails, of the request or of the response, gives HOSTERR.
A quote moves the leaf index and the reservation mark on; one that finds no
index gives STATE, and one whose tree is not built waits. A command of another subcommand does nothing. -/
def Obligations.ManagementAnswers : Prop :=
  ∀ (s : State) (ring : RingId) (idx : W16) (d : Inflight) (request : List Byte) (failed : Option HostAccess), descCheck s ring d = none → sealing s = false →
    s.descReady ring idx 0x30 d → let g := linkGood s
    let q := padTo d.reqLen 0 request
    let reply (u : State) (bs : List Byte) : State :=
      if failed = some .response then finishDesc u ring idx 0x000B 0 0 0
      else finishDesc { u with out := u.out ++ [.hostWrite (BitVec.ofNat 64 d.respAddr) bs] } ring idx 0 0 0 0
    let read (t : State) : State := if failed = some .request then finishDesc g ring idx 0x000B 0 0 0 else t
    let tooLong (n : Nat) : State := finishDesc g ring idx 0x0001 0 (BitVec.ofNat 64 n) codeLength
    let field : State := finishDesc g ring idx 0x0002 0 0 0
    (d.sub = 1 → exec (.mgmtIdentitySnapshot ring idx request failed) s = .next
      (read (if q ≠ List.replicate 8 0 then field else if d.respRoom < 128 then tooLong 128 else reply g (identityBytes g)))) ∧
    (d.sub = 5 → exec (.mgmtBootReport ring idx request failed) s = .next
      (read (if q ≠ List.replicate 8 0 then field else if d.respRoom < 128 then tooLong 128 else reply g (bootBytes g)))) ∧
    (d.sub = 2 → s.hlk.state ≠ .minimal → ∃ bs : List Byte, bs.length = Config.telemetryLength ∧
      exec (.mgmtTelemetrySnapshot ring idx request failed) s = .next (read (if d.respRoom < bs.length then tooLong bs.length
        else reply { g with free := s.free + bs.length } bs))) ∧
    (d.sub = 3 → s.hlk.state ≠ .minimal → let n := 5408 + 48 * s.sec.log.length
      let x := s.sec.leafNext
      exec (.mgmtAttestationQuote ring idx request failed) s = .next
        (read (if q.length ≠ 32 then field else if 2 ^ 30 ≤ x then finishDesc g ring idx 0x0004 0 0 0 else if s.sec.treeBuilt ≤ x / 2 ^ 15 then g
         else if d.respRoom < n then tooLong n
         else reply { g with sec := { s.sec with leafNext := x + 1, mark := if s.sec.mark ≤ x then s.sec.mark + 64 else s.sec.mark,
                                                  quotes := s.sec.quotes + 1 } } (signQuote q g).2))) ∧
    (d.sub = 4 → (s.hlk.state = .minimal → s.sec.unlocked = true ∨ s.sec.conf = false) → let o := leAt q 8 8
      let n := leAt q 16 4 + 1
      exec (.mgmtDumpRead ring idx request failed) s = .next
        (read (if q.length ≠ 20 ∨ (q.drop 1).take 7 ≠ List.replicate 7 0 then field
         else match faultObject s (leAt q 0 1) with
           | none => field
           | some (size, bytes) => if size < o + n then field else if d.respRoom < n then tooLong n else reply g (bytes o n)))) ∧
    (∀ x ∈ [(2, Instr.mgmtTelemetrySnapshot ring idx request failed), (3, .mgmtAttestationQuote ring idx request failed)],
      d.sub = x.1 → s.hlk.state = .minimal → exec x.2 s = .next (finishDesc g ring idx 0x0004 0 0 0)) ∧
    (d.sub = 4 → s.hlk.state = .minimal → s.sec.unlocked = false → s.sec.conf = true →
      exec (.mgmtDumpRead ring idx request failed) s = .next (finishDesc g ring idx 0x0004 0 0 0)) ∧
    (∀ x ∈ [(1, Instr.mgmtIdentitySnapshot ring idx request failed), (2, .mgmtTelemetrySnapshot ring idx request failed),
      (3, .mgmtAttestationQuote ring idx request failed), (4, .mgmtDumpRead ring idx request failed), (5, .mgmtBootReport ring idx request failed)],
      d.sub ≠ x.1 → exec x.2 s = .next g)

/-! ## Power, temperature and frequency (R321–R334, R341, R403) -/

/-- Power messages (R321, R322, R403): a legal cap is taken and answered with the effective cap, an illegal one with code 2 and the cap in
force; status and limits are answered, an unknown command with code 1; what is no power message changes nothing. The host cap and the
frequency ceiling take legal values and flag others, and an offer takes the ceiling in force (R321, R334). Estimate, peak limiter, telemetry, divergence, headroom and the die's
fast rise follow their rules (R323–R329); a droop holds one core (R327). -/
def Obligations.PowerLimits : Prop :=
  ∀ (s : State), let cap := min s.pwr.capRack.toNat s.pwr.hcap.toNat
    let headState := max s.pwr.pstate.toNat s.pwr.tstate.toNat
    let answer (t : State) (cmd code : Byte) (data : List Byte) : State :=
      { t with out := t.out ++ [.mctp ([0x7F, 0x00, 0x01, 0xC6, 0xE5, cmd, code] ++ data)] }
    (∀ body : List Byte, powerMessage s body = true →
      (let c := leAt body 6 2
       (body.length = 8 → 600 ≤ c → c ≤ 2400 → exec (.setCap body) s =
          .next (answer { s with pwr := { s.pwr with capRack := BitVec.ofNat 16 c } } 1 0 (leBytes 2 (min c s.pwr.hcap.toNat)))) ∧
       (body.length ≠ 8 ∨ c < 600 ∨ 2400 < c → exec (.setCap body) s = .next (answer s 1 2 (leBytes 2 cap)))) ∧
      (body.length = 6 → exec (.getStatus body) s = .next (answer s 2 0 (statusData s)) ∧
        exec (.getLimits body) s = .next (answer s 3 0 (leBytes 2 2400 ++ leBytes 2 3000 ++ leBytes 2 5 ++ leBytes 2 600))) ∧
      (body.length ≠ 6 → exec (.getStatus body) s = .next (answer s 2 2 []) ∧ exec (.getLimits body) s = .next (answer s 3 2 [])) ∧
      ((byteAt body 5).toNat ∉ [1, 2, 3] → exec (.unknownCommand body) s = .next (answer s (byteAt body 5) 1 []))) ∧
    (∀ body : List Byte, powerMessage s body = false → ∀ i ∈ [Instr.setCap body, .getStatus body, .getLimits body, .unknownCommand body],
      exec i s = .next s) ∧
    (∀ v : W16, exec (.hcapWrite v) s = .next (if s.inp.rails then
        { s.unlatch with pwr := if 600 ≤ v.toNat ∧ v.toNat ≤ 2400 then { s.pwr with hcap := v, hcapErr := false } else { s.pwr with hcapErr := true } }
      else s.unlatch)) ∧
    (∀ v : BitVec 11, exec (.fceilWrite v) s = .next (if s.inp.rails then
        { s.unlatch with pwr := if 900 ≤ v.toNat ∧ v.toNat ≤ 1750 ∧ v.toNat % 25 = 0 then { s.pwr with fceil := v, fceilErr := false }
                                else { s.pwr with fceilErr := true } }
      else s.unlatch)) ∧
    (State.reset.pwr.fceil = 1750 ∧ ∀ v : BitVec 11, offerOf { s.pwr with fceil := v } =
      BitVec.ofNat 11 (max 900 (min (min s.pwr.fChar.toNat v.toNat) (min s.pwr.fTherm.toNat s.pwr.fPwr.toNat)))) ∧
    (let lim (p : Pwr) : Nat := if p.telemetryBad then 11 * p.pEst.toNat else 10 * max p.pEst.toNat p.pMeas.toNat
     (∀ activity : List W32, let q := { s.pwr with pEst := BitVec.ofNat 16 (Config.staticPower s.pwr.tDie + ((List.finRange 7).map fun (i : Fin 7) =>
          (s.pwr.coeffs[i]).coeff.toNat * (activity.getD i.val 0).toNat * (classMhz s).getD i.val 0).sum / 10 ^ 12) }
        exec (.estimateUpdate activity) s = .next { s with
          pwr := { q with limSum := q.limSum + lim q, limN := q.limN + 1, estSum := q.estSum + q.pEst.toNat, estN := q.estN + 1 } }) ∧
     (∃ t, exec .peakUpdate s = .next t ∧ let p := lim s.pwr; let b := s.pwr.bucket + p - 24000
        t.pwr.bucket = b ∧ (25000000 ≤ b ∨ 29500 < p → t.pwr.peak = true) ∧
        (b ≤ 5000000 → p < 28000 → t.pwr.peak = false) ∧
        (5000000 < b ∨ 28000 ≤ p → b < 25000000 → p ≤ 29500 → t.pwr.peak = s.pwr.peak) ∧
        t.pwr.halving = (s.pwr.fastRise || t.pwr.peak || headState == 2) ∧
        t.pwr.peakEngaged = s.pwr.peakEngaged + (if t.pwr.peak = true ∧ s.pwr.peak = false then 1 else 0) ∧
        t = { s with pwr := { s.pwr with bucket := b, peak := t.pwr.peak, halving := t.pwr.halving, peakEngaged := t.pwr.peakEngaged } }) ∧
     (∃ t, exec .headroomSample s = .next t ∧
        let v := if s.pwr.limN = 0 then 10 * lim s.pwr else 10 * s.pwr.limSum / s.pwr.limN
        let l := (v :: s.pwr.samples).take 10000
        t.pwr.samples = l ∧ t.pwr.limSum = 0 ∧ t.pwr.limN = 0 ∧ t.pwr.tStack = hottestStack s ∧ t.pwr.tOpt = hottestEngine s ∧
        t.pwr.pstate.toNat = (if l.sum ≤ 95 * cap * l.length then 0 else if l.sum ≤ 100 * cap * l.length then 1 else 2) ∧
        (t.pwr.tstate = 2 ↔ 432 < s.pwr.tDie.toInt ∨ 380 < (hottestStack s).toInt ∨ 340 < (hottestEngine s).toInt) ∧
        (t.pwr.tstate = 0 ↔ s.pwr.tDie.toInt ≤ 400 ∧ (hottestStack s).toInt ≤ 360 ∧ (hottestEngine s).toInt ≤ 320) ∧
        t.pwr.halving = (s.pwr.fastRise || s.pwr.peak || max t.pwr.pstate.toNat t.pwr.tstate.toNat == 2) ∧
        t.job = s.job ∧ t.mem = s.mem ∧ t.cores = s.cores)) ∧
    (∀ r : PowerReading, ∃ t, exec (.pMeasRead r) s = .next t ∧
      let bad := (r.fresh = true ∧ (3600 < r.watts.toNat ∨ r.decivolts.toNat < 450 ∨ 650 < r.decivolts.toNat ∨ r.fault = true)) ∨
        (r.fresh = false ∧ 3 ≤ s.pwr.staleReads)
      (bad → t.pwr.telemetryBad = true ∧ t.pwr.goodReadings = 0) ∧
      (bad → s.pwr.telemetryBad = false → t.pwr.telemetryEvents = s.pwr.telemetryEvents + 1) ∧
      (¬ bad → s.pwr.telemetryBad = false → t.pwr.telemetryBad = false) ∧
      (¬ bad → s.pwr.telemetryBad = true → (t.pwr.telemetryBad = false ↔ r.fresh = true ∧ 199 ≤ s.pwr.goodReadings)) ∧
      t.pwr.pMeas = (if r.fresh then r.watts else s.pwr.pMeas) ∧ t.pwr.measSum = s.pwr.measSum + t.pwr.pMeas.toNat ∧ t.pwr.measN = s.pwr.measN + 1 ∧
      (r.fresh = true → (r.decivolts.toNat < 500 ∨ 620 < r.decivolts.toNat) → t.pwr.inputBad = true) ∧
      t.inp.inputDv = (if r.fresh then r.decivolts else s.inp.inputDv) ∧
      t = { s with pwr := t.pwr, inp := t.inp, hlk := t.hlk, out := t.out, free := t.free }) ∧
    (let e := if s.pwr.estN = 0 then (s.pwr.pEst.toNat, 1) else (s.pwr.estSum, s.pwr.estN)
     let m := if s.pwr.measN = 0 then (s.pwr.pMeas.toNat, 1) else (s.pwr.measSum, s.pwr.measN)
     let apart := 15 * (m.1 * e.2) < 100 * (((e.1 * m.2 : Nat) : Int) - (m.1 * e.2 : Nat)).natAbs
     let p := { s.pwr with estSum := 0, estN := 0, measSum := 0, measN := 0 }
     (s.pwr.telemetryBad = true → exec .divergenceCheck s = .next { s with pwr := p }) ∧
     (s.pwr.telemetryBad = false → ¬ apart → exec .divergenceCheck s = .next { s with pwr := { p with divergentMs := 0, diverging := false } }) ∧
     (s.pwr.telemetryBad = false → apart → s.pwr.divergentMs ≠ 10 → exec .divergenceCheck s =
        .next { s with pwr := { p with divergentMs := s.pwr.divergentMs + 1 } }) ∧
     (s.pwr.telemetryBad = false → apart → s.pwr.divergentMs = 10 → ∃ t, exec .divergenceCheck s = .next t ∧
        t.pwr = { p with divergentMs := 11, diverging := true, divergence := s.pwr.divergence + 1 } ∧ t.job = s.job ∧ t.mem = s.mem)) ∧
    (∀ (sensors : List Temp), sensors ≠ [] → let tj := hottest sensors
      (tj ∈ sensors ∧ ∀ x ∈ sensors, x.toInt ≤ tj.toInt) ∧
      (∀ rise : Int, riseOf tj s.pwr.dies = some rise → wasSteep s.pwr.dies = false →
        (20 < rise → ∃ t, exec (.dieSample sensors) s = .next t ∧ t.pwr.fastRise = true ∧ t.pwr.halving = true ∧ t.pwr.tDie = tj ∧ t.pwr.fastFor = 0 ∧
          t.pwr.fastSeen = true ∧ t.pwr.fastRises = s.pwr.fastRises + 1 ∧
          (∀ g : LaneId, (t.opt.lanes[g]).heatRx =
            BitVec.ofInt 16 ((s.opt.lanes[g]).heatRx.toInt + (ringRecord s (2 * g.val)).coeff.toInt * rise / 4)) ∧ t.mem = s.mem ∧ t.job = s.job) ∧
        (rise ≤ 20 → ∃ t, exec (.dieSample sensors) s = .next t ∧ t = { s with pwr := t.pwr } ∧ t.pwr.tDie = tj ∧ t.pwr.fastRises = s.pwr.fastRises ∧
          (t.pwr.fastRise = false ↔ s.pwr.fastRise = false ∨ (100 ≤ s.pwr.fastFor ∧ rise < 4 ∧ tj.toInt ≤ 420)))) ∧
      (riseOf tj s.pwr.dies = none → ∃ t, exec (.dieSample sensors) s = .next t ∧ t = { s with pwr := t.pwr } ∧ t.pwr.tDie = tj)) ∧
    exec (.dieSample []) s = .next s ∧
    (∀ c : CoreId,
      ((s.core c).droop = false → exec (.droopDetect c) s =
        .next (s.updCore c fun k => { k with droop := true, droopPeriods := 8, holdDroop := k.holdDroop + 8 })) ∧
      ((s.core c).droop = true → exec (.droopDetect c) s = .next s ∧ ∃ n : W64, exec (.droopRecovery c) s =
        .next { (s.updCore c fun k => { k with droop := false, droopPeriods := 0, holdDroop := k.holdDroop + n }) with free := s.free + 1 }) ∧
      ((s.core c).droop = false → exec (.droopRecovery c) s = .next s))

/-! ## Faults and burnish slices (R330, R348, R355–R364, R441) -/

/-- A trip stops clocks, combs and the job side and takes the fatal path (R330). A parity error in data poisons the place and is counted
for its unit, in control it is fatal, names the unit and stops a router (R348). A quiesce that has not ended, and a dead management processor, leave the module WEDGED,
where a TEARDOWN in progress has completed, and what else had begun with STATE (R307, R355, R359). The dump's end makes the module STOPPED (R359, R364). A burnish slice marks
its core busy; a mismatch is run again, and the second in a row makes the core suspect (R356, R358). The W1C flags clear (R364, R441). -/
def Obligations.FaultsContained : Prop :=
  ∀ (s : State),
    (∀ g : BitVec 3, s.flt.dumping = false → ∃ t, exec (.thermalTrip g) s = .next t ∧ s.fatalOf t codeThermalTrip (g.zeroExtend 8) ∧
      t.pwr = { s.pwr with trip := g, tripPending := true } ∧ t.inp = { s.inp with clocksStopped := true, tripN := true } ∧ t.opt.spareLit = false ∧
      (∀ l : LaneId, (t.opt.lanes[l]).txActive = false ∧ (t.opt.lanes[l]).rxActive = false) ∧ (∀ p : PortId, (t.fab.ports[p]).up = false) ∧
      t.mem = { s.mem with selfRefresh := true, waiting := [] }) ∧
    (let u (n : Fin 9) : State :=
       { s with flt := { s.flt with dataParity := s.flt.dataParity + 1, parityUnits := s.flt.parityUnits.set n (s.flt.parityUnits[n] + 1) } }
     (∀ (c : CoreId) (a : SAddr), exec (.parityError (.spadLine c a)) s =
        .next ((u 0).updCore c fun k => { k with spadPoison := setPut (a.toNat / 64) k.spadPoison })) ∧
     (∀ (c : CoreId) (e : Fin 3) (v : BitVec 5), exec (.parityError (.slotRow c e v)) s =
        .next ((u 1).updCore c fun k => { k with engines := k.engines.set e (k.engines[e].poisonSlot v.toNat) })) ∧
     (∀ (c : CoreId) (l : Fin 4), exec (.parityError (.linkBeat c l)) s =
        .next ((u 2).updCore c fun k => { k with exec := { k.exec with trains := poisonLink l k.exec.trains } })) ∧
     (∀ (c : CoreId) (h : Bool) (line : BitVec 11), let i : Fin 2 := if h then 1 else 0
        exec (.parityError (.treeHalf c h line)) s = .next ((u 3).updCore c fun k =>
          { k with halves := k.halves.set i { k.halves[i] with poison := setPut line.toNat k.halves[i].poison } })) ∧
     (∀ (c : CoreId) (n : Fin 6), let k := s.core c
        ∃ t, exec (.parityError (.pipeline c n)) s = .next t ∧ t = { u 4 with cores := t.cores } ∧
          ∀ w ∈ k.exec.windows, w.unit = n.val →
            (∀ x ∈ w.writes, k.exec.cycle ≤ x.cycle → ∀ line ∈ linesOf x.addr x.old.length, line ∈ (t.core c).spadPoison) ∧
            (∀ b ∈ k.exec.trains, b.sampled = false → b.producer = w.index → { b with poison := true } ∈ (t.core c).exec.trains)) ∧
     (∀ (i : Nat) (l : Fin 64) (q : SendReq), s.fab.sendQ[i]? = some q → ∃ t, exec (.parityError (.nocData i l)) s = .next t ∧
        t.fab.sendQ[i]? = some { q with p := Packet.sealed { q.p with pz := true, pmask := q.p.pmask ||| BitVec.ofNat 64 (2 ^ l.val) } } ∧
        t = { u 5 with fab := { s.fab with sendQ := t.fab.sendQ } }) ∧
     (∀ (i : Nat) (l : Fin 64) (p : Packet), s.coll.early[i]? = some p → ∃ t, exec (.parityError (.arrival i l)) s = .next t ∧
        t.coll.early[i]? = some (Packet.sealed { p with pz := true, pmask := p.pmask ||| BitVec.ofNat 64 (2 ^ l.val) }) ∧
        t = { u 6 with coll := { s.coll with early := t.coll.early } }) ∧
     (∀ a : Addr, let line := keyOf s a.toNat / 64
        ∃ t, exec (.parityError (.hbmBuffer a)) s = .next t ∧ t.flt = (u 7).flt ∧ linePoison t line = true ∧ t.mem.cells = s.mem.cells ∧
          t = { s with flt := (u 7).flt, mem := t.mem })) ∧
    (∀ (unit : Byte) (place : ControlPlace), s.flt.dumping = false →
      ∃ t, exec (.parityError (.control unit place)) s = .next t ∧ s.fatalOf t codeControlParity unit ∧ t.flt.dataParity = s.flt.dataParity ∧
        t.flt.parityUnits = s.flt.parityUnits ∧ t.fab = (if place = .router then { s.fab with routerDead := true } else s.fab)) ∧
    (∃ t, exec .watchdogExpiry s = .next t ∧ t.hlk.state = .wedged ∧ t.coll.cinches = [] ∧ t.upd.leases = [] ∧ t.job.dispatching = false ∧
      t.flt.dumping = false ∧ t.flt.log = s.flt.log ∧ (∀ c, (t.core c).running = none) ∧ t.mem = { s.mem with waiting := [] } ∧
      (∀ d ∈ (s.hlk.rings[(0 : RingId)]).inflight, d.status = none → isOpcode d 0x43 = true →
        d.finish 0x000D 0 0 0 ∈ (t.hlk.rings[(0 : RingId)]).inflight) ∧
      (∀ (ring : RingId), ∀ d ∈ (s.hlk.rings[ring]).inflight, d.status = none → d.acted = true → isOpcode d 0x42 = true ∨ isOpcode d 0x20 = true →
        d.finish 0x0004 0 0 0 ∈ (t.hlk.rings[ring]).inflight)) ∧
    ((s.job.aborting = true ∧ s.hlk.state = .running ∧ s.job.entered = false) ∨ s.job.quiescing = true → ∃ t, exec .quiesceTimeout s = .next t ∧ t.hlk.state = .wedged ∧
      t.job.dispatching = false ∧ s.logs t { Record.blank with code := codeFirmware, cause := 0xFF, source := 5, step := s.job.step } ∧
      t.mem = s.mem ∧ t.cores = s.cores) ∧
    (s.job.aborting = false ∨ s.hlk.state ≠ .running ∨ s.job.entered = true → s.job.quiescing = false → exec .quiesceTimeout s = .next s) ∧
    (s.flt.dumping = true → ∃ t, exec .dumpWritten s = .next t ∧ t.flt = { s.flt with dumping := false, dumpValid := true } ∧
      (s.hlk.state ≠ .minimal → s.hlk.state ≠ .wedged → t.hlk.state = .stopped) ∧ t.job = { s.job with quiescing := false } ∧ t.mem = s.mem ∧
      (s.flt.dumpDest ≠ 1 → t.out = s.out) ∧ (s.flt.dumpDest = 1 → ∃ bs, t.out = s.out ++ [.hostWrite s.flt.dumpHostBase bs])) ∧
    (s.flt.dumping = false → exec .dumpWritten s = .next s) ∧
    (∀ c : CoreId, let k := s.core c
      let waits := (readySegments s c).length + (readyUpdates s c).length
      let u : State := { s.updCore c (fun k => { k with sliceOn := false, status := 0 }) with
        flt := { s.flt with burnishDelay := s.flt.burnishDelay + BitVec.ofNat 64 waits } }
      ((sliceOrder s).find? (sliceMay s) = some c → exec (.burnishSliceStart c) s = .next
        { s.updCore c (fun k => { k with sliceOn := true, status := 2, sliceAt := some s.now }) with
          flt := { s.flt with slices := s.flt.slices + 1, lastBurnish := c.val } }) ∧
      ((sliceOrder s).find? (sliceMay s) ≠ some c → exec (.burnishSliceStart c) s = .next s) ∧
      (∀ b : Bool, k.sliceOn = false → exec (.burnishSliceEnd c b) s = .next s) ∧
      (k.sliceOn = true → k.sliceRerun = false →
        exec (.burnishSliceEnd c true) s = .next (u.updCore c fun k => { k with sliceRerun := true }) ∧
        exec (.burnishSliceEnd c false) s =
          .next (u.updCore c fun k => { k with sliceRerun := false, slicePattern := (k.slicePattern + 1) % 1024 })) ∧
      (k.sliceOn = true → k.sliceRerun = true →
        (∃ t, exec (.burnishSliceEnd c false) s = .next t ∧ t.flt.transients = s.flt.transients + 1 ∧ (t.core c).suspect = k.suspect ∧
          (t.core c).sliceRerun = false ∧ t.mem = s.mem ∧ t.job = s.job) ∧
        ∃ t, exec (.burnishSliceEnd c true) s = .next t ∧ (t.core c).suspect = true ∧ (t.core c).sliceOn = false ∧
          t.boot.coreSuspect = s.boot.coreSuspect ++ [(Fin.ofNat 8 (c.val / 8), Fin.ofNat 9 k.phys.toNat)] ∧
          t.boot.suspectPattern = s.boot.suspectPattern ++ [(Fin.ofNat 8 (c.val / 8), Fin.ofNat 9 k.phys.toNat, k.slicePattern)] ∧
          s.logs t { Record.blank with code := codeSuspect, source := 5, core := some c, phys := k.phys, step := s.job.step } ∧ t.mem = s.mem ∧ t.job = s.job)) ∧
    (∀ c : CoreId, s.inp.rails = true →
      exec (.faultValidClear c false) s = .next (s.unlatch.updCore c fun k => { k with faultValid := false }) ∧
      exec (.faultValidClear c true) s = .next s.unlatch) ∧
    (∀ (c : CoreId) (b : Bool), s.inp.rails = false → exec (.faultValidClear c b) s = .next s.unlatch) ∧
    exec .dumpValidClear s = .next { s.unlatch with flt := { s.flt with dumpValid := false } }

/-! ## Module hardware (R391, R394–R402) -/

/-- The input switch closes with everything present and opens on overvoltage, PWR_EN and PRSNT_N, which note their cause (R394, R395). A low
bulk node stops the job side once, with the cause of the last opening within the millisecond or 1; the record goes to flash, and a reset
that waited follows (R396, R401). The converter stop leaves only flash (R391, R395). RESET_N holds the module in reset (R401). The
management endpoint takes its addresses while its side is powered (R402). -/
def Obligations.ModuleEvents : Prop :=
  ∀ (s : State), let i := s.inp
    let opened (cause : Byte) : Inp := if i.switchOn then { i with switchOn := false, lastOpen := cause } else i
    exec .inputStageOn s = .next { s with inp := { i with mated := true, prsnt := true, pwrEn := true, overvolt := false, switchOn := true } } ∧
    exec .inputOvervoltage s = .next { s with inp := { opened 2 with overvolt := true } } ∧
    exec .pwrEnLow s = .next { s with inp := { opened 3 with pwrEn := false } } ∧
    exec .prsntNOpen s = .next { s with inp := { opened 4 with prsnt := false } } ∧
    exec .inputOvervoltageClear s = .next
      (if i.overvolt then { s with inp := { i with overvolt := false, switchOn := i.mated && i.prsnt && i.pwrEn } } else s) ∧
    (∀ within : Bool, i.aux = true → i.powerFail = false → ∃ t, exec (.bulkUndervoltage within) s = .next t ∧
      t.inp = { i with clocksStopped := true, tripN := true, powerFail := true } ∧ t.boot.powerCause = (if within then i.lastOpen else 1) ∧
      (s.hlk.state ≠ .minimal → s.hlk.state ≠ .wedged → t.hlk.state = .stopped) ∧ t.job.dispatching = false ∧
      (∀ c, (t.core c).running = none) ∧ t.coll.cinches = [] ∧ t.opt.spareLit = false ∧
      (∀ l : LaneId, (t.opt.lanes[l]).txActive = false ∧ (t.opt.lanes[l]).rxActive = false) ∧
      Out.tripN ∈ t.out ∧ t.flt = s.flt ∧ t.mem = { s.mem with selfRefresh := true }) ∧
    (∀ within : Bool, i.aux = false ∨ i.powerFail = true → exec (.bulkUndervoltage within) s = .next s) ∧
    (i.powerFail = true → ∀ env : BootEnv,
      let w := padTo 32 0 (Config.powerRecord s.boot.powerCause.toNat s.job.step.toNat s.now.toNat i.inputDv.toNat)
      let u : State := { s with boot := { s.boot with powerRecord := w }, inp := { i with powerFail := false, resetWaits := none } }
      exec (.powerRecordWritten env) s = .next (match i.resetWaits with | some c => fullReset u c env | none => u)) ∧
    (i.powerFail = false → ∀ env : BootEnv, exec (.powerRecordWritten env) s = .next s) ∧
    (∃ t, exec .converterStop s = .next t ∧ t.inp.aux = false ∧ t.inp.rails = false ∧ t.boot.stage = 0 ∧ t.mem.cells = [] ∧
      t.mem.compat = s.mem.compatNext ∧ t.job = Job.reset ∧ t.cores = State.reset.cores ∧ t.hlk = State.reset.hlk ∧ t.glb.ticks = 0 ∧ t.pwr.trip = 0 ∧
      t.boot.powerRecord = s.boot.powerRecord ∧ t.sec.arc = s.sec.arc ∧ t.sec.epoch = s.sec.epoch ∧ t.flt.dumpSeq = s.flt.dumpSeq) ∧
    (i.aux = true → i.resetLow = false → i.powerFail = false → ∃ t, exec .resetNAssert s = .next t ∧ t.inp.resetLow = true ∧ t.inp.rails = false ∧
      t.boot.stage = 0 ∧ t.boot.cause = 1 ∧ t.mem.cells = [] ∧ t.job = Job.reset ∧ t.glb.ticks = s.glb.ticks ∧ t.pwr.trip = s.pwr.trip ∧
      t.pwr.tripPending = s.pwr.tripPending ∧ t.boot.powerRecord = s.boot.powerRecord ∧ t.sec.arc = s.sec.arc) ∧
    (i.aux = true → i.resetLow = false → i.powerFail = true → exec .resetNAssert s = .next { s with inp := { i with
      resetLow := true, resetWaits := some (match i.resetWaits with | some c => if c.toNat < 1 then c else 1 | none => 1) } }) ∧
    (i.aux = false ∨ i.resetLow = true → exec .resetNAssert s = .next s) ∧
    (∀ env : BootEnv, i.resetLow = true → let u : State := { s with inp := { i with resetLow := false } }
      (i.aux = true → i.powerFail = false → s.boot.stage = 0 → exec (.resetNRelease env) s = .next (boot env u)) ∧
      (i.aux = false ∨ i.powerFail = true ∨ s.boot.stage ≠ 0 → exec (.resetNRelease env) s = .next u)) ∧
    (∀ env : BootEnv, i.resetLow = false → exec (.resetNRelease env) s = .next s) ∧
    (∀ (a d : BitVec 7) (eid : Byte),
      (i.aux = true → exec (.setdasa i.staticAddr d) s = .next { s with inp := { i with dynAddr := some d } } ∧
        exec (.entdaa d) s = .next { s with inp := { i with dynAddr := some d } } ∧
        exec (.setEndpointId eid) s = .next { s with inp := { i with eid := eid } }) ∧
      (a ≠ i.staticAddr → exec (.setdasa a d) s = .next s) ∧
      (i.aux = false → exec (.setdasa a d) s = .next s ∧ exec (.entdaa d) s = .next s ∧ exec (.setEndpointId eid) s = .next s))

/-! ## Reset and boot (R377–R378, R410–R425, R434–R437) -/

/-- What a reset keeps (R415, R416): flash, the trip field, the power record, and the tick counter unless power was off. A boot that finds
nothing wrong ends in NODISC with the failed-start counter cleared, rails on, keys unlocked and the anti-rollback counters at the running
images' numbers (R377, R378, R418); a rail that fails ends the start and counts it, and a missing key leads to minimal mode (R421, R422).
Every source of a reset boots from what the reset keeps, or waits for the power record (R401, R415, R424). The mailbox, the MEM bits and
their flash store act as their rules say (R434–R437). -/
def Obligations.BootRuns : Prop :=
  ∀ (s : State), let b := s.boot
    (∀ (cause : BitVec 3) (on : Bool), let t := holdReset s cause on
      t.boot.cause = cause ∧ t.boot.stage = 0 ∧ t.glb.ticks = (if on then 0 else s.glb.ticks) ∧ t.pwr.trip = (if on then 0 else s.pwr.trip) ∧
      t.pwr.tripPending = (!on && s.pwr.tripPending) ∧ t.boot.powerRecord = b.powerRecord ∧ t.boot.failedStarts = b.failedStarts ∧
      t.boot.coreSuspect = b.coreSuspect ∧ t.sec.arc = s.sec.arc ∧ t.sec.epoch = s.sec.epoch ∧ t.sec.leafNext = s.sec.mark ∧
      t.mem.cells = [] ∧ t.mem.compat = s.mem.compatNext ∧ t.job = Job.reset ∧ t.cores = State.reset.cores ∧ t.inp.rails = false ∧
      t.flt.dumpSeq = s.flt.dumpSeq ∧ t.flt.log = [] ∧ t.boot.coreFailed = b.coreFailed ∧ t.pwr.coeffs = s.pwr.coeffs ∧ t.opt.records = s.opt.records) ∧
    (∀ env : BootEnv, s.bootClean env → let t := boot env s
      t.hlk.state = .nodisc ∧ t.boot.stage = 0xB0 ∧ t.boot.failedStarts = 0 ∧ t.boot.minimal = b.minimal ∧ t.inp.rails = true ∧
      t.sec.unlocked = true ∧ t.sec.epoch = s.sec.epoch + 1 ∧ t.pwr.tripPending = false ∧
      (∀ k : StackId, k.val < stacksOf s.glb.variant → (t.mem.hbmStacks[k]).present = true) ∧
      (∀ (k : Fin 5) (v : Bool), selectSlot s k = some v →
        let svn := (b.fw[slotIndex (k.val + 1) v]).svn
        t.sec.arc[k] = if (s.sec.arc[k]).toNat < svn.toNat then svn else s.sec.arc[k])) ∧
    (∀ (env : BootEnv) (r : Fin 9), s.bootClean { env with rail := none } → env.rail = some r → let t := boot env s
      t.boot.awaitingRestart = true ∧ t.boot.reason = 0x41 ∧ t.boot.detail.toNat = r.val ∧ t.boot.stage = 0x40 ∧
      t.boot.failedStarts = b.failedStarts + 1 ∧ t.hlk.state = s.hlk.state) ∧
    (∀ (env : BootEnv) (reads : List Bool), s.bootClean { env with pufReads := reads } → (∀ i : Fin 3, env.pufReads[i.val]? ≠ some true) → let t := boot env s
      t.boot.minimal = true ∧ t.hlk.state = .minimal ∧ t.boot.reason = 0x31 ∧ t.boot.failedStarts = b.failedStarts + 1 ∧
      t.sec.unlocked = s.sec.unlocked) ∧
    (∀ env : BootEnv, exec (.powerOn env) s = .next
      (if s.inp.resetLow then holdReset s 0 true else boot env (holdReset s 0 true))) ∧
    (s.inp.aux = true → s.inp.powerFail = false → s.inp.resetLow = false → ∀ env : BootEnv,
      (∀ cause : BitVec 3, ¬ (cause = 4 ∧ s.mem.flashBusy = true) →
        exec (.fullReset cause env) s = .next (boot env (holdReset s cause false))) ∧
      exec (.linkReset env) s = .next (boot env (holdReset s 2 false)) ∧
      (b.awaitingRestart = true → exec (.failedStartRestart env) s = .next (boot env (holdReset s 3 false))) ∧
      (b.minimal = true → s.mem.flashBusy = false → let u : State := { s.unlatch with boot := { b with failedStarts := 0, retryWaits := false } }
        exec (.bootRetry env) s = .next (boot env (holdReset u 4 false)))) ∧
    (∀ env : BootEnv, s.mem.flashBusy = true → exec (.fullReset 4 env) s = .next s ∧
      (b.minimal = true → exec (.bootRetry env) s = .next { s.unlatch with boot := { b with failedStarts := 0, retryWaits := true } })) ∧
    (∀ env : BootEnv, s.inp.aux = true → s.inp.powerFail = true → exec (.linkReset env) s = .next { s with inp := { s.inp with
      resetWaits := some (match s.inp.resetWaits with | some c => if c.toNat < 2 then c else 2 | none => 2) } }) ∧
    (∀ env : BootEnv, s.inp.aux = false → exec (.linkReset env) s = .next s) ∧
    (∀ env : BootEnv, b.awaitingRestart = false → exec (.failedStartRestart env) s = .next s) ∧
    (∀ env : BootEnv, b.minimal = false → exec (.bootRetry env) s = .next s.unlatch) ∧
    (∀ x : Byte, let runs := b.stage = x ∧ 0x10 ≤ x.toNat ∧ x.toNat ≤ 0xA0 ∧ b.awaitingRestart = false ∧ b.minimal = false
      (runs → exec (.stageOverrun x) s = .next { s with boot := { b with
        reason := 0x01, detail := BitVec.ofNat 32 x.toNat, failStage := x, failedStarts := if b.failedStarts = 3 then 3 else b.failedStarts + 1,
        awaitingRestart := true } }) ∧
      (¬ runs → exec (.stageOverrun x) s = .next s)) ∧
    (∀ (type : BitVec 3) (slot reserved : Bool), exec (.mailboxGo type slot reserved) s = .next { s.unlatch with boot :=
      if b.mbRun.isSome then { b with mbType := type, mbSlot := slot, mbAgain := true }
      else { b with mbType := type, mbSlot := slot, mbAgain := false,
                    mbRun := some { type := type, slot := slot, reserved := reserved, host := b.mbHost, length := b.mbLength } } }) ∧
    (∀ (image : List Byte) (flashErr : Bool) (m : MbRun), b.mbRun = some m →
      let k := m.type.toNat; let n := m.length.toNat + 1; let spare := k ≠ 0 ∧ k ≤ 5 ∧ s.sec.slots.getLsbD (k - 1) ≠ m.slot
      ∃ t r, exec (.mailboxDone image flashErr) s = .next t ∧ t.boot.mbRun = none ∧ t.boot.mbDone = b.mbDone + 1 ∧
        t.boot.mbResult = (if b.mbAgain then 1 else BitVec.ofNat 4 r) ∧ t = { s with boot := t.boot } ∧
        (k = 0 ∨ 5 < k ∨ m.reserved = true → r = 2) ∧
        (spare → m.reserved = false → (n < 2048 ∨ 16777216 < n → r = 4) ∧ (2048 ≤ n → n ≤ 16777216 →
          (image.length < 2048 → r = 7) ∧ (2048 ≤ image.length →
            (headerGood k image n = false ∨ (n ≤ image.length ∧ bodyGood (image.take n) = false) → r = 5) ∧
            (headerGood k image n = true → (n ≤ image.length → bodyGood (image.take n) = true) →
              r = if leAt image 12 4 < (s.sec.arc[(Fin.ofNat 5 (k - 1) : Fin 5)]).toNat then 6 else if image.length < n then 7 else if flashErr then 8 else 0)))) ∧
        (spare → let i := slotIndex k m.slot
          t.boot.fw[i] = (if r = 0 then { valid := true, version := BitVec.ofNat 32 (leAt image 8 4), svn := BitVec.ofNat 32 (leAt image 12 4),
                                          length := BitVec.ofNat 32 (leAt image 16 4), hash := BitVec.ofNat 256 (beNat (slice image 20 32)) }
                          else if r = 7 ∨ r = 8 then { b.fw[i] with valid := false } else b.fw[i]) ∧
          ∀ j, j ≠ i → t.boot.fw[j] = b.fw[j]) ∧
        (¬ spare → t.boot.fw = b.fw ∧ (r = 2 ∨ r = 3))) ∧
    (∀ (image : List Byte) (flashErr : Bool), b.mbRun = none → exec (.mailboxDone image flashErr) s = .next s) ∧
    (∀ v : Bool, let late := s.mem.drainTick = some s.now ∧ s.mem.drainStep = true
      exec (.drainPendingWrite v) s = .next (if s.inp.rails then { s.unlatch with mem := { s.mem with
          drainPrev := (if s.mem.drainTick = some s.now then s.mem.drainPrev else s.mem.drainPending), drainTick := some s.now, drainStep := decide late,
          drainPending := if late then s.mem.drainPending else v } } else s.unlatch) ∧
      exec (.compatNextWrite v) s = .next { s.unlatch with mem := { s.mem with compatPending := v, flashBusy := true } }) ∧
    exec .flashStoreDone s = .next
      (if s.mem.flashBusy then { s with mem := { s.mem with compatNext := s.mem.compatPending, flashBusy := false } } else s)

/-! ## Registers and confidential mode (R376–R390, R426–R442) -/

/-- The set-up window answers as R11, R427 and R428 say: a watermark clears on its read, a 32-bit read of a low half latches the high half for
the next read, a misaligned access is counted and does nothing else. A register write changes the blocks that hold its fields and nothing
else, and one that names a doorbell, the MEM bits or mode_target is that command; a base field is closed while its ring pair is enabled (R295), a half write leaves the other half, and a block on dark rails ignores it
(R430). A write of mode_target starts a transition, sets mode_err, or changes nothing; the transition discards what R388 names. The next
level-1 tree is built at most one ahead (R381). That a second request is ignored while a transition runs is the model's (log entry 28). -/
def Obligations.RegistersAnswer : Prop :=
  ∀ (s : State), let c := s.sec
    (∀ (port : PortId) (vc : Fin 8), ∃ t, exec (.watermarkRead port vc) s = .next t ∧
      t = { s.unlatch with out := t.out, fab := { s.fab with ports := t.fab.ports } } ∧
      (s.inp.rails = true → (t.fab.ports[port]).watermark[vc] = 0 ∧
        t.out = s.out ++ [.readData (if c.conf then 0 else ((s.fab.ports[port]).watermark[vc]).zeroExtend 64)]) ∧
      (s.inp.rails = false → t.fab = s.fab ∧ t.out = s.out ++ [.readData 0]) ∧
      ∀ p, t.fab.ports[p] = { s.fab.ports[p] with watermark := (t.fab.ports[p]).watermark } ∧
        ∀ v, ¬ (p = port ∧ v = vc) → (t.fab.ports[p]).watermark[v] = (s.fab.ports[p]).watermark[v]) ∧
    (∀ (a b : BitVec 26) (n : Nat), a.toNat = 8 * n → b.toNat = 8 * n + 4 → let v := regRead s (8 * n)
      (∃ t u, exec (.halfReadLatch a) s = .next t ∧ exec (.halfReadLatch b) t = .next u ∧
        t.out = s.out ++ [.readData (v &&& (0xFFFFFFFF : W64))] ∧ u.out = t.out ++ [.readData (v >>> 32)] ∧ u.glb.latch = none ∧
        t = { s with out := t.out, glb := t.glb, fab := { s.fab with ports := t.fab.ports } } ∧ u = { t with out := u.out, glb := u.glb }) ∧
      (s.glb.latch = none → exec (.halfReadLatch b) s = .next { s with out := s.out ++ [.readData (v >>> 32)] })) ∧
    (∀ a : BitVec 26, a.toNat % 4 ≠ 0 → exec (.halfReadLatch a) s =
      .next { s with glb := { s.glb with latch := none, regBad := bump s.glb.regBad }, out := s.out ++ [.readData 0] }) ∧
    (∀ a : BitVec 26, let g := { s.glb with latch := none, regBad := bump s.glb.regBad }
      exec (.regBadAccess a false) s = .next { s with glb := g, out := s.out ++ [.readData 0] } ∧
      exec (.regBadAccess a true) s = .next
        { s with glb := g, hlk := if 0x3000000 ≤ a.toNat then { s.hlk with doorbellBad := bump s.hlk.doorbellBad } else s.hlk }) ∧
    (∀ (a : BitVec 26) (wide : Bool) (v : W64),
      (a.toNat % (if wide then 8 else 4) ≠ 0 →
        exec (.registerWrite a wide v) s = .next { s with glb := { s.glb with latch := none, regBad := bump s.glb.regBad } }) ∧
      (a.toNat % (if wide then 8 else 4) = 0 → ¬ (a.toNat / 8 * 8 = 0x800040 ∧ (wide = true ∨ a.toNat % 8 = 0)) →
        ∃ t, exec (.registerWrite a wide v) s = .next t ∧
        t = { s.unlatch with hlk := t.hlk, boot := t.boot, flt := t.flt, pwr := t.pwr, sec := t.sec, fab := t.fab, mem := t.mem, cores := t.cores } ∧
        (¬ (0x100000 ≤ a.toNat ∧ a.toNat < 0x200000 ∨ 0x3000000 ≤ a.toNat) → t.hlk = s.hlk) ∧
        (¬ (0x200000 ≤ a.toNat ∧ a.toNat < 0x400000) → t.boot = s.boot ∧ t.flt = s.flt) ∧
        (¬ (s.inp.rails = true ∧ 0x400000 ≤ a.toNat ∧ a.toNat < 0x800000) → t.pwr = s.pwr) ∧
        (¬ (0x800000 ≤ a.toNat ∧ a.toNat < 0x1000000) → t.sec = s.sec) ∧
        (¬ (s.inp.rails = true ∧ 0x1000000 ≤ a.toNat ∧ a.toNat < 0x1400000) → t.fab = s.fab) ∧
        (¬ (0x1800000 ≤ a.toNat ∧ a.toNat < 0x2000000) → t.mem = s.mem) ∧
        (¬ (s.inp.rails = true ∧ 0x2000000 ≤ a.toNat ∧ a.toNat < 0x2100000) → t.cores = s.cores)) ∧
      (a.toNat = 0x800040 → exec (.registerWrite a wide v) s = exec (.modeTargetWrite (v.getLsbD 0)) s) ∧
      (a.toNat = 0x1800000 → ∃ t, exec (.drainPendingWrite (v.getLsbD 1)) s = .next t ∧
        exec (.registerWrite a wide v) s = exec (.compatNextWrite (v.getLsbD 3)) t) ∧
      (∀ ring : RingId, a.toNat = 0x3000000 + 0x1000 * ring.val → exec (.registerWrite a wide v) s = exec (.sqTailDoorbell ring (v.setWidth 16) (!wide)) s) ∧
      (∀ ring : RingId, a.toNat = 0x3000004 + 0x1000 * ring.val → wide = false →
        exec (.registerWrite a wide v) s = exec (.cqHeadDoorbell ring (v.setWidth 16) true) s) ∧
      (a.toNat = 0x3010000 → exec (.registerWrite a wide v) s = exec (.eventHeadDoorbell (v.setWidth 16) (!wide)) s)) ∧
    (∀ (ring : RingId) (a : BitVec 26) (v : W64), let r := s.hlk.rings[ring]
      ∃ t, exec (.registerWrite a true v) s = .next t ∧
      (a.toNat = 0x101000 + 0x40 * ring.val → t = { s.unlatch with hlk := t.hlk } ∧ t.hlk.rings[ring] =
        (if r.enable then r else { r with sqbase := v &&& ~~~(0xFFF) })) ∧
      (a.toNat = 0x101008 + 0x40 * ring.val → t = { s.unlatch with hlk := t.hlk } ∧ t.hlk.rings[ring] =
        (if r.enable then r else { r with cqbase := v &&& ~~~(0xFFF) }))) ∧
    (∀ (j : Fin 4) (a : BitVec 26) (v : W64), ∃ t u, exec (.registerWrite a true v) s = .next t ∧ exec (.registerWrite a false v) s = .next u ∧
      (a.toNat = 0x800048 + 8 * j.val → t = { s.unlatch with sec := { c with token := t.sec.token } } ∧ t.sec.token[j] = v ∧
        u.sec.token[j] = (c.token[j] >>> 32 <<< 32) ||| (v &&& (0xFFFFFFFF : W64)) ∧ (∀ k, k ≠ j → t.sec.token[k] = c.token[k] ∧ u.sec.token[k] = c.token[k])) ∧
      (a.toNat = 0x800048 + 8 * j.val + 4 → u.sec.token[j] = (c.token[j] &&& (0xFFFFFFFF : W64)) ||| (v <<< 32) ∧ (∀ k, k ≠ j → u.sec.token[k] = c.token[k]))) ∧
    (∀ target : Bool,
      let refused := ¬ (s.hlk.state = .nodisc ∨ s.hlk.state = .ready) ∨ (∃ n : RingId, (s.hlk.rings[n]).inflight ≠ []) ∨ (target = true ∧ c.keyed = false) ∨
        (target = false ∧ tokenBytes s ≠ goodToken s) ∨ 62 ≤ bootEntries s
      (target = c.conf ∨ c.modeBusy = true → exec (.modeTargetWrite target) s = .next { s.unlatch with sec := { c with modeTarget := target } }) ∧
      (target ≠ c.conf → c.modeBusy = false → refused →
        exec (.modeTargetWrite target) s = .next { s.unlatch with sec := { c with modeTarget := target, modeErr := true } }) ∧
      (target ≠ c.conf → c.modeBusy = false → ¬ refused → ∃ t, exec (.modeTargetWrite target) s = .next t ∧
        t.sec = { c with modeErr := false, modeBusy := true, modeTarget := target } ∧ t.mem.cells = [] ∧ t.mem.poison = [] ∧ t.coll.early = [] ∧ t.upd.fingers = [] ∧
        t.flt = { s.flt with log := [], dumpValid := t.flt.dumpValid } ∧ (t.flt.dumpValid = true ↔ s.flt.dumpValid = true ∧ s.flt.dumpDest = 1) ∧
        t.hlk = s.hlk ∧ t.opt = s.opt ∧ t.fab = s.fab ∧ t.job = s.job ∧ t.inp = s.inp ∧
        (∀ i : CoreId, (t.cores[i]).spad = [] ∧ (t.cores[i]).engines = Vector.replicate 3 Engine.reset) ∧ ∀ i : Fin 8, (t.clusters[i]).trees = [])) ∧
    (c.modeBusy = true → ∃ t e, exec .modeTransitionDone s = .next t ∧ t.sec.conf = !c.conf ∧ t.sec.modeSeq = c.modeSeq + 1 ∧
      t.sec.modeBusy = false ∧ t.sec.log = c.log ++ [e] ∧ byteAt e 0 = 1 ∧ byteAt e 1 = 0x10 ∧ t.sec.m[0] = c.m[0] ∧ t.sec.m[2] = c.m[2] ∧
      t.hlk.state = .nodisc ∧ t.disc.tagReg = 0 ∧ t.fab = { s.fab with routes := [], published := [] } ∧ t.mem = s.mem ∧ t.cores = s.cores) ∧
    (c.modeBusy = false → exec .modeTransitionDone s = .next s) ∧
    exec .level1TreeBuilt s = .next
      (if c.treeBuilt ≤ c.leafNext / 2 ^ 15 + 1 then { s with sec := { c with treeBuilt := c.treeBuilt + 1 } } else s)
end

