-- ==== Sys2Proof/Laws/State.lean ====
section
/-! SUPPORT. One lemma per field of the state per named update of it, so that no later proof unfolds a record
update. -/

namespace Sys2Proof.Machine

/-! ## Vectors -/

@[simp] theorem vmod_same {α : Type} {n : Nat} (v : Vector α n) (i : Fin n) (f : α → α) : (vmod v i f)[i] = f v[i] := by
  simp [vmod]

theorem vmod_other {α : Type} {n : Nat} (v : Vector α n) (i j : Fin n) (f : α → α) (h : i ≠ j) : (vmod v i f)[j] = v[j] := by
  have : i.val ≠ j.val := fun e => h (Fin.ext e)
  simp [vmod, this]

/-! ## Cores -/

@[simp] theorem core_updCore_same (s : State) (c : CoreId) (f : Core → Core) : (s.updCore c f).core c = f (s.core c) := by
  exact vmod_same s.cores c f

theorem core_updCore_other (s : State) (c d : CoreId) (f : Core → Core) (h : c ≠ d) : (s.updCore c f).core d = s.core d :=
  vmod_other s.cores c d f h

/-! ## updCore changes cores -/

@[simp] theorem updCore_clusters (s : State) (c : CoreId) (f : Core → Core) : (s.updCore c f).clusters = s.clusters := rfl
@[simp] theorem updCore_mem (s : State) (c : CoreId) (f : Core → Core) : (s.updCore c f).mem = s.mem := rfl
@[simp] theorem updCore_upd (s : State) (c : CoreId) (f : Core → Core) : (s.updCore c f).upd = s.upd := rfl
@[simp] theorem updCore_fab (s : State) (c : CoreId) (f : Core → Core) : (s.updCore c f).fab = s.fab := rfl
@[simp] theorem updCore_coll (s : State) (c : CoreId) (f : Core → Core) : (s.updCore c f).coll = s.coll := rfl
@[simp] theorem updCore_opt (s : State) (c : CoreId) (f : Core → Core) : (s.updCore c f).opt = s.opt := rfl
@[simp] theorem updCore_disc (s : State) (c : CoreId) (f : Core → Core) : (s.updCore c f).disc = s.disc := rfl
@[simp] theorem updCore_hlk (s : State) (c : CoreId) (f : Core → Core) : (s.updCore c f).hlk = s.hlk := rfl
@[simp] theorem updCore_job (s : State) (c : CoreId) (f : Core → Core) : (s.updCore c f).job = s.job := rfl
@[simp] theorem updCore_pwr (s : State) (c : CoreId) (f : Core → Core) : (s.updCore c f).pwr = s.pwr := rfl
@[simp] theorem updCore_flt (s : State) (c : CoreId) (f : Core → Core) : (s.updCore c f).flt = s.flt := rfl
@[simp] theorem updCore_sec (s : State) (c : CoreId) (f : Core → Core) : (s.updCore c f).sec = s.sec := rfl
@[simp] theorem updCore_boot (s : State) (c : CoreId) (f : Core → Core) : (s.updCore c f).boot = s.boot := rfl
@[simp] theorem updCore_inp (s : State) (c : CoreId) (f : Core → Core) : (s.updCore c f).inp = s.inp := rfl
@[simp] theorem updCore_glb (s : State) (c : CoreId) (f : Core → Core) : (s.updCore c f).glb = s.glb := rfl
@[simp] theorem updCore_out (s : State) (c : CoreId) (f : Core → Core) : (s.updCore c f).out = s.out := rfl
@[simp] theorem updCore_free (s : State) (c : CoreId) (f : Core → Core) : (s.updCore c f).free = s.free := rfl
@[simp] theorem updCore_pending (s : State) (c : CoreId) (f : Core → Core) : (s.updCore c f).pending = s.pending := rfl

/-! ## say changes out -/

@[simp] theorem say_cores (s : State) (o : Out) : (s.say o).cores = s.cores := rfl
@[simp] theorem say_clusters (s : State) (o : Out) : (s.say o).clusters = s.clusters := rfl
@[simp] theorem say_mem (s : State) (o : Out) : (s.say o).mem = s.mem := rfl
@[simp] theorem say_upd (s : State) (o : Out) : (s.say o).upd = s.upd := rfl
@[simp] theorem say_fab (s : State) (o : Out) : (s.say o).fab = s.fab := rfl
@[simp] theorem say_coll (s : State) (o : Out) : (s.say o).coll = s.coll := rfl
@[simp] theorem say_opt (s : State) (o : Out) : (s.say o).opt = s.opt := rfl
@[simp] theorem say_disc (s : State) (o : Out) : (s.say o).disc = s.disc := rfl
@[simp] theorem say_hlk (s : State) (o : Out) : (s.say o).hlk = s.hlk := rfl
@[simp] theorem say_job (s : State) (o : Out) : (s.say o).job = s.job := rfl
@[simp] theorem say_pwr (s : State) (o : Out) : (s.say o).pwr = s.pwr := rfl
@[simp] theorem say_flt (s : State) (o : Out) : (s.say o).flt = s.flt := rfl
@[simp] theorem say_sec (s : State) (o : Out) : (s.say o).sec = s.sec := rfl
@[simp] theorem say_boot (s : State) (o : Out) : (s.say o).boot = s.boot := rfl
@[simp] theorem say_inp (s : State) (o : Out) : (s.say o).inp = s.inp := rfl
@[simp] theorem say_glb (s : State) (o : Out) : (s.say o).glb = s.glb := rfl
@[simp] theorem say_free (s : State) (o : Out) : (s.say o).free = s.free := rfl
@[simp] theorem say_pending (s : State) (o : Out) : (s.say o).pending = s.pending := rfl

/-! ## unlatch changes glb -/

@[simp] theorem unlatch_cores (s : State) : (s.unlatch).cores = s.cores := rfl
@[simp] theorem unlatch_clusters (s : State) : (s.unlatch).clusters = s.clusters := rfl
@[simp] theorem unlatch_mem (s : State) : (s.unlatch).mem = s.mem := rfl
@[simp] theorem unlatch_upd (s : State) : (s.unlatch).upd = s.upd := rfl
@[simp] theorem unlatch_fab (s : State) : (s.unlatch).fab = s.fab := rfl
@[simp] theorem unlatch_coll (s : State) : (s.unlatch).coll = s.coll := rfl
@[simp] theorem unlatch_opt (s : State) : (s.unlatch).opt = s.opt := rfl
@[simp] theorem unlatch_disc (s : State) : (s.unlatch).disc = s.disc := rfl
@[simp] theorem unlatch_hlk (s : State) : (s.unlatch).hlk = s.hlk := rfl
@[simp] theorem unlatch_job (s : State) : (s.unlatch).job = s.job := rfl
@[simp] theorem unlatch_pwr (s : State) : (s.unlatch).pwr = s.pwr := rfl
@[simp] theorem unlatch_flt (s : State) : (s.unlatch).flt = s.flt := rfl
@[simp] theorem unlatch_sec (s : State) : (s.unlatch).sec = s.sec := rfl
@[simp] theorem unlatch_boot (s : State) : (s.unlatch).boot = s.boot := rfl
@[simp] theorem unlatch_inp (s : State) : (s.unlatch).inp = s.inp := rfl
@[simp] theorem unlatch_out (s : State) : (s.unlatch).out = s.out := rfl
@[simp] theorem unlatch_free (s : State) : (s.unlatch).free = s.free := rfl
@[simp] theorem unlatch_pending (s : State) : (s.unlatch).pending = s.pending := rfl

/-! ## updAccess changes cores -/

@[simp] theorem updAccess_clusters (s : State) (c : CoreId) (f : Access → Access) : (updAccess s c f).clusters = s.clusters := rfl
@[simp] theorem updAccess_mem (s : State) (c : CoreId) (f : Access → Access) : (updAccess s c f).mem = s.mem := rfl
@[simp] theorem updAccess_upd (s : State) (c : CoreId) (f : Access → Access) : (updAccess s c f).upd = s.upd := rfl
@[simp] theorem updAccess_fab (s : State) (c : CoreId) (f : Access → Access) : (updAccess s c f).fab = s.fab := rfl
@[simp] theorem updAccess_coll (s : State) (c : CoreId) (f : Access → Access) : (updAccess s c f).coll = s.coll := rfl
@[simp] theorem updAccess_opt (s : State) (c : CoreId) (f : Access → Access) : (updAccess s c f).opt = s.opt := rfl
@[simp] theorem updAccess_disc (s : State) (c : CoreId) (f : Access → Access) : (updAccess s c f).disc = s.disc := rfl
@[simp] theorem updAccess_hlk (s : State) (c : CoreId) (f : Access → Access) : (updAccess s c f).hlk = s.hlk := rfl
@[simp] theorem updAccess_job (s : State) (c : CoreId) (f : Access → Access) : (updAccess s c f).job = s.job := rfl
@[simp] theorem updAccess_pwr (s : State) (c : CoreId) (f : Access → Access) : (updAccess s c f).pwr = s.pwr := rfl
@[simp] theorem updAccess_flt (s : State) (c : CoreId) (f : Access → Access) : (updAccess s c f).flt = s.flt := rfl
@[simp] theorem updAccess_sec (s : State) (c : CoreId) (f : Access → Access) : (updAccess s c f).sec = s.sec := rfl
@[simp] theorem updAccess_boot (s : State) (c : CoreId) (f : Access → Access) : (updAccess s c f).boot = s.boot := rfl
@[simp] theorem updAccess_inp (s : State) (c : CoreId) (f : Access → Access) : (updAccess s c f).inp = s.inp := rfl
@[simp] theorem updAccess_glb (s : State) (c : CoreId) (f : Access → Access) : (updAccess s c f).glb = s.glb := rfl
@[simp] theorem updAccess_out (s : State) (c : CoreId) (f : Access → Access) : (updAccess s c f).out = s.out := rfl
@[simp] theorem updAccess_free (s : State) (c : CoreId) (f : Access → Access) : (updAccess s c f).free = s.free := rfl
@[simp] theorem updAccess_pending (s : State) (c : CoreId) (f : Access → Access) : (updAccess s c f).pending = s.pending := rfl

/-! ## updExec changes cores -/

@[simp] theorem updExec_clusters (s : State) (c : CoreId) (f : Execute → Execute) : (updExec s c f).clusters = s.clusters := rfl
@[simp] theorem updExec_mem (s : State) (c : CoreId) (f : Execute → Execute) : (updExec s c f).mem = s.mem := rfl
@[simp] theorem updExec_upd (s : State) (c : CoreId) (f : Execute → Execute) : (updExec s c f).upd = s.upd := rfl
@[simp] theorem updExec_fab (s : State) (c : CoreId) (f : Execute → Execute) : (updExec s c f).fab = s.fab := rfl
@[simp] theorem updExec_coll (s : State) (c : CoreId) (f : Execute → Execute) : (updExec s c f).coll = s.coll := rfl
@[simp] theorem updExec_opt (s : State) (c : CoreId) (f : Execute → Execute) : (updExec s c f).opt = s.opt := rfl
@[simp] theorem updExec_disc (s : State) (c : CoreId) (f : Execute → Execute) : (updExec s c f).disc = s.disc := rfl
@[simp] theorem updExec_hlk (s : State) (c : CoreId) (f : Execute → Execute) : (updExec s c f).hlk = s.hlk := rfl
@[simp] theorem updExec_job (s : State) (c : CoreId) (f : Execute → Execute) : (updExec s c f).job = s.job := rfl
@[simp] theorem updExec_pwr (s : State) (c : CoreId) (f : Execute → Execute) : (updExec s c f).pwr = s.pwr := rfl
@[simp] theorem updExec_flt (s : State) (c : CoreId) (f : Execute → Execute) : (updExec s c f).flt = s.flt := rfl
@[simp] theorem updExec_sec (s : State) (c : CoreId) (f : Execute → Execute) : (updExec s c f).sec = s.sec := rfl
@[simp] theorem updExec_boot (s : State) (c : CoreId) (f : Execute → Execute) : (updExec s c f).boot = s.boot := rfl
@[simp] theorem updExec_inp (s : State) (c : CoreId) (f : Execute → Execute) : (updExec s c f).inp = s.inp := rfl
@[simp] theorem updExec_glb (s : State) (c : CoreId) (f : Execute → Execute) : (updExec s c f).glb = s.glb := rfl
@[simp] theorem updExec_out (s : State) (c : CoreId) (f : Execute → Execute) : (updExec s c f).out = s.out := rfl
@[simp] theorem updExec_free (s : State) (c : CoreId) (f : Execute → Execute) : (updExec s c f).free = s.free := rfl
@[simp] theorem updExec_pending (s : State) (c : CoreId) (f : Execute → Execute) : (updExec s c f).pending = s.pending := rfl

/-! ## countBytes changes cores -/

@[simp] theorem countBytes_clusters (s : State) (c : CoreId) (n : Nat) : (countBytes s c n).clusters = s.clusters := rfl
@[simp] theorem countBytes_mem (s : State) (c : CoreId) (n : Nat) : (countBytes s c n).mem = s.mem := rfl
@[simp] theorem countBytes_upd (s : State) (c : CoreId) (n : Nat) : (countBytes s c n).upd = s.upd := rfl
@[simp] theorem countBytes_fab (s : State) (c : CoreId) (n : Nat) : (countBytes s c n).fab = s.fab := rfl
@[simp] theorem countBytes_coll (s : State) (c : CoreId) (n : Nat) : (countBytes s c n).coll = s.coll := rfl
@[simp] theorem countBytes_opt (s : State) (c : CoreId) (n : Nat) : (countBytes s c n).opt = s.opt := rfl
@[simp] theorem countBytes_disc (s : State) (c : CoreId) (n : Nat) : (countBytes s c n).disc = s.disc := rfl
@[simp] theorem countBytes_hlk (s : State) (c : CoreId) (n : Nat) : (countBytes s c n).hlk = s.hlk := rfl
@[simp] theorem countBytes_job (s : State) (c : CoreId) (n : Nat) : (countBytes s c n).job = s.job := rfl
@[simp] theorem countBytes_pwr (s : State) (c : CoreId) (n : Nat) : (countBytes s c n).pwr = s.pwr := rfl
@[simp] theorem countBytes_flt (s : State) (c : CoreId) (n : Nat) : (countBytes s c n).flt = s.flt := rfl
@[simp] theorem countBytes_sec (s : State) (c : CoreId) (n : Nat) : (countBytes s c n).sec = s.sec := rfl
@[simp] theorem countBytes_boot (s : State) (c : CoreId) (n : Nat) : (countBytes s c n).boot = s.boot := rfl
@[simp] theorem countBytes_inp (s : State) (c : CoreId) (n : Nat) : (countBytes s c n).inp = s.inp := rfl
@[simp] theorem countBytes_glb (s : State) (c : CoreId) (n : Nat) : (countBytes s c n).glb = s.glb := rfl
@[simp] theorem countBytes_out (s : State) (c : CoreId) (n : Nat) : (countBytes s c n).out = s.out := rfl
@[simp] theorem countBytes_free (s : State) (c : CoreId) (n : Nat) : (countBytes s c n).free = s.free := rfl
@[simp] theorem countBytes_pending (s : State) (c : CoreId) (n : Nat) : (countBytes s c n).pending = s.pending := rfl

/-! ## closeFlight changes cores -/

@[simp] theorem closeFlight_clusters (s : State) (c : CoreId) (q : Nat) : (closeFlight s c q).clusters = s.clusters := rfl
@[simp] theorem closeFlight_mem (s : State) (c : CoreId) (q : Nat) : (closeFlight s c q).mem = s.mem := rfl
@[simp] theorem closeFlight_upd (s : State) (c : CoreId) (q : Nat) : (closeFlight s c q).upd = s.upd := rfl
@[simp] theorem closeFlight_fab (s : State) (c : CoreId) (q : Nat) : (closeFlight s c q).fab = s.fab := rfl
@[simp] theorem closeFlight_coll (s : State) (c : CoreId) (q : Nat) : (closeFlight s c q).coll = s.coll := rfl
@[simp] theorem closeFlight_opt (s : State) (c : CoreId) (q : Nat) : (closeFlight s c q).opt = s.opt := rfl
@[simp] theorem closeFlight_disc (s : State) (c : CoreId) (q : Nat) : (closeFlight s c q).disc = s.disc := rfl
@[simp] theorem closeFlight_hlk (s : State) (c : CoreId) (q : Nat) : (closeFlight s c q).hlk = s.hlk := rfl
@[simp] theorem closeFlight_job (s : State) (c : CoreId) (q : Nat) : (closeFlight s c q).job = s.job := rfl
@[simp] theorem closeFlight_pwr (s : State) (c : CoreId) (q : Nat) : (closeFlight s c q).pwr = s.pwr := rfl
@[simp] theorem closeFlight_flt (s : State) (c : CoreId) (q : Nat) : (closeFlight s c q).flt = s.flt := rfl
@[simp] theorem closeFlight_sec (s : State) (c : CoreId) (q : Nat) : (closeFlight s c q).sec = s.sec := rfl
@[simp] theorem closeFlight_boot (s : State) (c : CoreId) (q : Nat) : (closeFlight s c q).boot = s.boot := rfl
@[simp] theorem closeFlight_inp (s : State) (c : CoreId) (q : Nat) : (closeFlight s c q).inp = s.inp := rfl
@[simp] theorem closeFlight_glb (s : State) (c : CoreId) (q : Nat) : (closeFlight s c q).glb = s.glb := rfl
@[simp] theorem closeFlight_out (s : State) (c : CoreId) (q : Nat) : (closeFlight s c q).out = s.out := rfl
@[simp] theorem closeFlight_free (s : State) (c : CoreId) (q : Nat) : (closeFlight s c q).free = s.free := rfl
@[simp] theorem closeFlight_pending (s : State) (c : CoreId) (q : Nat) : (closeFlight s c q).pending = s.pending := rfl

/-! ## dropEvent changes hlk -/

@[simp] theorem dropEvent_cores (s : State) : (dropEvent s).cores = s.cores := rfl
@[simp] theorem dropEvent_clusters (s : State) : (dropEvent s).clusters = s.clusters := rfl
@[simp] theorem dropEvent_mem (s : State) : (dropEvent s).mem = s.mem := rfl
@[simp] theorem dropEvent_upd (s : State) : (dropEvent s).upd = s.upd := rfl
@[simp] theorem dropEvent_fab (s : State) : (dropEvent s).fab = s.fab := rfl
@[simp] theorem dropEvent_coll (s : State) : (dropEvent s).coll = s.coll := rfl
@[simp] theorem dropEvent_opt (s : State) : (dropEvent s).opt = s.opt := rfl
@[simp] theorem dropEvent_disc (s : State) : (dropEvent s).disc = s.disc := rfl
@[simp] theorem dropEvent_job (s : State) : (dropEvent s).job = s.job := rfl
@[simp] theorem dropEvent_pwr (s : State) : (dropEvent s).pwr = s.pwr := rfl
@[simp] theorem dropEvent_flt (s : State) : (dropEvent s).flt = s.flt := rfl
@[simp] theorem dropEvent_sec (s : State) : (dropEvent s).sec = s.sec := rfl
@[simp] theorem dropEvent_boot (s : State) : (dropEvent s).boot = s.boot := rfl
@[simp] theorem dropEvent_inp (s : State) : (dropEvent s).inp = s.inp := rfl
@[simp] theorem dropEvent_glb (s : State) : (dropEvent s).glb = s.glb := rfl
@[simp] theorem dropEvent_out (s : State) : (dropEvent s).out = s.out := rfl
@[simp] theorem dropEvent_free (s : State) : (dropEvent s).free = s.free := rfl
@[simp] theorem dropEvent_pending (s : State) : (dropEvent s).pending = s.pending := rfl

/-! ## stopJob changes hlk, job -/

@[simp] theorem stopJob_cores (s : State) : (stopJob s).cores = s.cores := rfl
@[simp] theorem stopJob_clusters (s : State) : (stopJob s).clusters = s.clusters := rfl
@[simp] theorem stopJob_mem (s : State) : (stopJob s).mem = s.mem := rfl
@[simp] theorem stopJob_upd (s : State) : (stopJob s).upd = s.upd := rfl
@[simp] theorem stopJob_fab (s : State) : (stopJob s).fab = s.fab := rfl
@[simp] theorem stopJob_coll (s : State) : (stopJob s).coll = s.coll := rfl
@[simp] theorem stopJob_opt (s : State) : (stopJob s).opt = s.opt := rfl
@[simp] theorem stopJob_disc (s : State) : (stopJob s).disc = s.disc := rfl
@[simp] theorem stopJob_pwr (s : State) : (stopJob s).pwr = s.pwr := rfl
@[simp] theorem stopJob_flt (s : State) : (stopJob s).flt = s.flt := rfl
@[simp] theorem stopJob_sec (s : State) : (stopJob s).sec = s.sec := rfl
@[simp] theorem stopJob_boot (s : State) : (stopJob s).boot = s.boot := rfl
@[simp] theorem stopJob_inp (s : State) : (stopJob s).inp = s.inp := rfl
@[simp] theorem stopJob_glb (s : State) : (stopJob s).glb = s.glb := rfl
@[simp] theorem stopJob_out (s : State) : (stopJob s).out = s.out := rfl
@[simp] theorem stopJob_free (s : State) : (stopJob s).free = s.free := rfl
@[simp] theorem stopJob_pending (s : State) : (stopJob s).pending = s.pending := rfl

/-! ## poisonLine changes mem -/

@[simp] theorem poisonLine_cores (s : State) (l : Nat) : (poisonLine s l).cores = s.cores := rfl
@[simp] theorem poisonLine_clusters (s : State) (l : Nat) : (poisonLine s l).clusters = s.clusters := rfl
@[simp] theorem poisonLine_upd (s : State) (l : Nat) : (poisonLine s l).upd = s.upd := rfl
@[simp] theorem poisonLine_fab (s : State) (l : Nat) : (poisonLine s l).fab = s.fab := rfl
@[simp] theorem poisonLine_coll (s : State) (l : Nat) : (poisonLine s l).coll = s.coll := rfl
@[simp] theorem poisonLine_opt (s : State) (l : Nat) : (poisonLine s l).opt = s.opt := rfl
@[simp] theorem poisonLine_disc (s : State) (l : Nat) : (poisonLine s l).disc = s.disc := rfl
@[simp] theorem poisonLine_hlk (s : State) (l : Nat) : (poisonLine s l).hlk = s.hlk := rfl
@[simp] theorem poisonLine_job (s : State) (l : Nat) : (poisonLine s l).job = s.job := rfl
@[simp] theorem poisonLine_pwr (s : State) (l : Nat) : (poisonLine s l).pwr = s.pwr := rfl
@[simp] theorem poisonLine_flt (s : State) (l : Nat) : (poisonLine s l).flt = s.flt := rfl
@[simp] theorem poisonLine_sec (s : State) (l : Nat) : (poisonLine s l).sec = s.sec := rfl
@[simp] theorem poisonLine_boot (s : State) (l : Nat) : (poisonLine s l).boot = s.boot := rfl
@[simp] theorem poisonLine_inp (s : State) (l : Nat) : (poisonLine s l).inp = s.inp := rfl
@[simp] theorem poisonLine_glb (s : State) (l : Nat) : (poisonLine s l).glb = s.glb := rfl
@[simp] theorem poisonLine_out (s : State) (l : Nat) : (poisonLine s l).out = s.out := rfl
@[simp] theorem poisonLine_free (s : State) (l : Nat) : (poisonLine s l).free = s.free := rfl
@[simp] theorem poisonLine_pending (s : State) (l : Nat) : (poisonLine s l).pending = s.pending := rfl

/-! ## The fields a named update writes -/

theorem updAccess_access (s : State) (c : CoreId) (f : Access → Access) :
    ((updAccess s c f).core c).access = f (s.core c).access := by simp [updAccess]

theorem updExec_exec (s : State) (c : CoreId) (f : Execute → Execute) : ((updExec s c f).core c).exec = f (s.core c).exec := by
  simp [updExec]

@[simp] theorem say_out (s : State) (o : Out) : (s.say o).out = s.out ++ [o] := rfl

@[simp] theorem unlatch_latch (s : State) : s.unlatch.glb.latch = none := rfl

end Sys2Proof.Machine
end

