-- ==== Sys2Proof/Laws/Memory.lean ====
section
/-! SUPPORT. The byte stores: every write keeps the canonical form, a byte written is the byte read, and no other byte
changes (R25, R171). -/

namespace Sys2Proof.Machine

/-! ## The canonical form, cell by cell -/

theorem cellsWf_nil : cellsWf [] = true := rfl

theorem cellsWf_tail {x : Host.Cell} {t : List Host.Cell} (h : cellsWf (x :: t) = true) : cellsWf t = true := by
  obtain ⟨a, b⟩ := x; cases t <;> simp_all [cellsWf]

/-- Every listed key of a canonical list lies above the key before it. -/
theorem cellsWf_lt {x : Host.Cell} {t : List Host.Cell} (h : cellsWf (x :: t) = true) : ∀ y ∈ t, x.1 < y.1 := by
  induction t generalizing x with
  | nil => simp
  | cons z t ih =>
    obtain ⟨a, b⟩ := x; obtain ⟨a', b'⟩ := z
    have h1 : a < a' := by simp [cellsWf] at h; exact h.1.2
    intro y hy
    rcases List.mem_cons.1 hy with rfl | hy
    · exact h1
    · exact lt_trans h1 (ih (cellsWf_tail h) y hy)

theorem cellsWf_cons {a : Nat} {b : Byte} {t : List Host.Cell} (hb : b ≠ 0) (hl : ∀ y ∈ t, a < y.1)
    (h : cellsWf t = true) : cellsWf ((a, b) :: t) = true := by
  cases t with
  | nil => simpa [cellsWf] using hb
  | cons y t => obtain ⟨a', b'⟩ := y; have := hl _ (List.mem_cons_self ..); simp_all [cellsWf]

/-- A key that a write leaves in the list is the written key or was there before. -/
theorem mem_cellsPut {a : Nat} {b : Byte} {m : List Host.Cell} {y : Host.Cell} (hy : y ∈ cellsPut a b m) : y.1 = a ∨ y ∈ m := by
  induction m with
  | nil => simp only [cellsPut] at hy; split at hy <;> simp_all
  | cons x t ih =>
    obtain ⟨a', b'⟩ := x
    simp only [cellsPut] at hy
    split at hy
    · split at hy
      · exact Or.inr hy
      · rcases List.mem_cons.1 hy with rfl | hy <;> simp_all
    · split at hy
      · split at hy
        · exact Or.inr (List.mem_cons_of_mem _ hy)
        · rcases List.mem_cons.1 hy with rfl | hy <;> simp_all
      · rcases List.mem_cons.1 hy with rfl | hy
        · simp
        · rcases ih hy with h | h <;> simp_all

/-- A write keeps the canonical form. -/
theorem cellsPut_wf (a : Nat) (b : Byte) (m : List Host.Cell) (h : cellsWf m = true) : cellsWf (cellsPut a b m) = true := by
  induction m with
  | nil => simp only [cellsPut]; split <;> simp_all [cellsWf]
  | cons x t ih =>
    obtain ⟨a', b'⟩ := x
    have hb' : b' ≠ 0 := by cases t <;> simp_all [cellsWf]
    have ht := cellsWf_tail h
    have hl := cellsWf_lt h
    simp only [cellsPut]
    split
    · split
      · exact h
      · refine cellsWf_cons ‹_› ?_ h
        intro y hy
        rcases List.mem_cons.1 hy with rfl | hy
        · assumption
        · exact lt_trans ‹_› (hl y hy)
    · split
      · split
        · exact ht
        · subst a; exact cellsWf_cons ‹_› hl ht
      · refine cellsWf_cons hb' ?_ (ih ht)
        intro y hy
        rcases mem_cellsPut hy with e | hy
        · omega
        · exact hl y hy

/-- Successive writes keep the canonical form. -/
theorem cellsWrite_wf (a : Nat) (bs : List Byte) (m : List Host.Cell) (h : cellsWf m = true) : cellsWf (cellsWrite a bs m) = true := by
  induction bs generalizing a m with
  | nil => exact h
  | cons b bs ih => exact ih _ _ (cellsPut_wf a b m h)

/-! ## Reading after writing -/

theorem cellsGet_below {a : Nat} {m : List Host.Cell} (hl : ∀ y ∈ m, a < y.1) : cellsGet a m = 0 := by
  induction m with
  | nil => rfl
  | cons x t ih =>
    obtain ⟨a', b'⟩ := x
    have := hl _ (List.mem_cons_self ..)
    have hne : a ≠ a' := by simp at this; omega
    simp only [cellsGet, hne, if_false]
    exact ih fun y hy => hl y (List.mem_cons_of_mem _ hy)

/-- A byte written is the byte read. -/
theorem cellsGet_put_same (a : Nat) (b : Byte) (m : List Host.Cell) (h : cellsWf m = true) : cellsGet a (cellsPut a b m) = b := by
  induction m with
  | nil => simp only [cellsPut]; split <;> simp_all [cellsGet]
  | cons x t ih =>
    obtain ⟨a', b'⟩ := x
    simp only [cellsPut]
    split
    · split
      · rename_i hlt hb; subst hb
        exact cellsGet_below fun y hy => by
          rcases List.mem_cons.1 hy with rfl | hy
          · exact hlt
          · exact lt_trans hlt (cellsWf_lt h y hy)
      · simp [cellsGet]
    · split
      · split
        · subst a b; exact cellsGet_below (cellsWf_lt h)
        · simp [cellsGet]
      · rename_i h1 h2; simp only [cellsGet, h2, if_false]; exact ih (cellsWf_tail h)

/-- A write changes no other byte. -/
theorem cellsGet_put_other (a c : Nat) (b : Byte) (m : List Host.Cell) (hne : c ≠ a) : cellsGet c (cellsPut a b m) = cellsGet c m := by
  induction m with
  | nil => simp only [cellsPut]; split <;> simp [cellsGet, hne]
  | cons x t ih =>
    obtain ⟨a', b'⟩ := x
    simp only [cellsPut]
    split
    · split <;> simp [cellsGet, hne]
    · split
      · rename_i e; subst e; split <;> simp [cellsGet, hne]
      · simp only [cellsGet]; rw [ih]

/-- Successive writes change no byte outside their range. -/
theorem cellsGet_write_other (a c : Nat) (bs : List Byte) (m : List Host.Cell) (h : c < a ∨ a + bs.length ≤ c) :
    cellsGet c (cellsWrite a bs m) = cellsGet c m := by
  induction bs generalizing a m with
  | nil => rfl
  | cons b bs ih =>
    simp only [List.length_cons] at h
    rw [cellsWrite, ih (a + 1) _ (by omega), cellsGet_put_other _ _ _ _ (by omega)]

/-- Successive bytes written are the bytes read. -/
theorem cellsGet_write_same (a : Nat) (bs : List Byte) (m : List Host.Cell) (h : cellsWf m = true) (i : Nat) (hi : i < bs.length) :
    cellsGet (a + i) (cellsWrite a bs m) = bs[i] := by
  induction bs generalizing a m i with
  | nil => simp at hi
  | cons b bs ih =>
    cases i with
    | zero => rw [cellsWrite, cellsGet_write_other _ _ _ _ (by omega)]; exact cellsGet_put_same a b m h
    | succ i =>
      have := ih (a + 1) (cellsPut a b m) (cellsPut_wf a b m h) i (by simpa using hi)
      simpa [cellsWrite, Nat.add_assoc, Nat.add_comm 1 i] using this

/-- Reading back a range just written gives the bytes written. -/
theorem cellsRead_write (a : Nat) (bs : List Byte) (m : List Host.Cell) (h : cellsWf m = true) :
    cellsRead a bs.length (cellsWrite a bs m) = bs := by
  apply List.ext_getElem
  · simp [cellsRead]
  · intro i h1 h2
    simp only [cellsRead, List.getElem_map, List.getElem_range]
    exact cellsGet_write_same a bs m h i h2

/-! ## The scratchpad (R25, R28) -/

theorem spadWrite_wf (c : Core) (a : Nat) (bs : List Byte) (p : Bool) (h : cellsWf c.spad = true) :
    cellsWf (spadWrite c a bs p).spad = true := cellsWrite_wf _ _ _ h

theorem spadWriteP_wf (fuel : Nat) (c : Core) (a : Nat) (bs : List PByte) (h : cellsWf c.spad = true) :
    cellsWf (spadWriteP fuel c a bs).spad = true := by
  induction fuel generalizing c a bs with
  | zero => exact h
  | succ n ih =>
    simp only [spadWriteP]
    split
    · exact h
    · exact ih _ _ _ (spadWrite_wf _ _ _ _ h)

theorem spadPut_wf (c : Core) (a : Nat) (bs : List PByte) (h : cellsWf c.spad = true) : cellsWf (spadPut c a bs).spad = true :=
  spadWriteP_wf _ _ _ _ h

theorem scatterRows_spad_wf (n b : Nat) (c : Core) (os : List Nat) (bs : List PByte) (h : cellsWf c.spad = true) :
    cellsWf (scatterRows (fun (k : Core) o x => spadPut k (b + o) x) n c os bs).spad = true := by
  induction os generalizing c bs with
  | nil => exact h
  | cons o os ih => exact ih _ _ (spadPut_wf _ _ _ h)

theorem scatterSpad_wf (c : Core) (d : Desc) (bs : List PByte) (h : cellsWf c.spad = true) : cellsWf (scatterSpad c d bs).spad = true :=
  scatterRows_spad_wf _ _ _ _ _ h

theorem writeElems_wf (c : Core) (d : Desc) (es : List W32) (p : Bool) (h : cellsWf c.spad = true) :
    cellsWf (writeElems c d es p).spad = true := scatterSpad_wf _ _ _ h

/-- The scratchpad bytes outside a write read as before. -/
theorem spadWrite_other (c : Core) (a x : Nat) (bs : List Byte) (p : Bool) (h : x < a ∨ a + bs.length ≤ x) :
    cellsGet x (spadWrite c a bs p).spad = cellsGet x c.spad := cellsGet_write_other _ _ _ _ h

/-! ## Reset -/

theorem memWf_reset : State.reset.memWf = true := by
  simp [State.memWf, State.reset, Mem.reset, Core.reset, cellsWf]

end Sys2Proof.Machine
end

