-- ==== Sys2Proof/Laws/Sound.lean ====
section
/-! SUPPORT. Every operation keeps the byte stores in canonical form (R25, R171), the token queues within 16 entries (R34)
and the fault log within 4,096 records (R346), and leaves the queue of waiting commands alone: the general lemmas. -/

namespace Sys2Proof.Machine

variable {Q : List Instr}

/-- A core's scratchpad is in canonical form and no token queue of it holds more than 16 entries (R34). -/
structure Core.Sound (k : Core) : Prop where
  spad : cellsWf k.spad = true
  aq : ∀ q : Fin 4, k.aq[q].length ≤ 16
  eq : ∀ q : Fin 4, k.eq[q].length ≤ 16

/-- `State.sound` as a proposition over cores, with the queue of waiting commands. -/
structure Sound (Q : List Instr) (s : State) : Prop where
  hbm : cellsWf s.mem.cells = true
  cores : ∀ c : CoreId, (s.core c).Sound
  log : s.flt.log.length ≤ 4096
  queue : s.pending = Q

/-- If there is a state, it is sound. -/
def optOk (Q : List Instr) (o : Option State) : Prop := ∀ t, o = some t → Sound Q t

/-- If a command answers a next state, it is sound. -/
def outOk (Q : List Instr) (o : Host.Outcome State Fault Refusal) : Prop := ∀ t, o = .next t → Sound Q t

theorem Core.sound_iff (k : Core) : k.sound = true ↔ k.Sound := by
  have key : ∀ v : Vector (List Entry) 4, v.toList.all (·.length ≤ 16) = true ↔ ∀ q : Fin 4, v[q].length ≤ 16 := by
    intro v
    rw [List.all_eq_true]
    constructor
    · intro h q
      have := h v[q] (by simp)
      simpa using this
    · intro h x hx
      obtain ⟨i, hi, rfl⟩ := List.mem_iff_getElem.1 hx
      have := h ⟨i, by simpa using hi⟩
      simpa using this
  simp only [Core.sound, Bool.and_eq_true, key]
  exact ⟨fun h => ⟨h.1.1, h.1.2, h.2⟩, fun h => ⟨⟨h.spad, h.aq⟩, h.eq⟩⟩

theorem sound_iff (s : State) : s.sound = true ↔ Sound s.pending s := by
  have key : s.cores.toList.all Core.sound = true ↔ ∀ c : CoreId, (s.core c).Sound := by
    rw [List.all_eq_true]
    constructor
    · intro h c
      exact (Core.sound_iff _).1 (h _ (by simp [State.core]))
    · intro h k hk
      obtain ⟨i, hi, rfl⟩ := List.mem_iff_getElem.1 hk
      have := h ⟨i, by simpa using hi⟩
      rw [← Core.sound_iff] at this
      simpa [State.core] using this
  simp only [State.sound, Bool.and_eq_true, key, decide_eq_true_eq]
  exact ⟨fun h => ⟨h.1.1, h.1.2, h.2, rfl⟩, fun h => ⟨⟨h.hbm, h.cores⟩, h.log⟩⟩

/-- A record update of the state that leaves the cores, the cells of HBM, the fault log and the queue. -/
theorem Sound.lit {s : State}
    {clusters : Vector Cluster 8} {mem : Mem} {upd : Update} {fab : Fabric} {coll : Coll} {opt : Optics}
    {disc : Disc} {hlk : Hlk} {job : Job} {pwr : Pwr} {flt : Flt} {sec : Sec} {boot : Boot} {inp : Inp} {glb : Glb}
    {out : List Out} {free : Nat}
    (h : Sound Q s) (e : mem.cells = s.mem.cells) (e2 : flt.log = s.flt.log) :
    Sound Q
     ⟨s.cores, clusters, mem, upd, fab, coll, opt, disc, hlk, job, pwr, flt, sec, boot, inp, glb, out, free,
     s.pending⟩ :=
  ⟨e ▸ h.hbm, h.cores, e2 ▸ h.log, h.queue⟩

/-- A record update of the state that leaves the cells of HBM, the fault log and the queue, and gives sound cores. -/
theorem Sound.litCores {s : State} {cores : Vector Core 64}
    {clusters : Vector Cluster 8} {mem : Mem} {upd : Update} {fab : Fabric} {coll : Coll} {opt : Optics}
    {disc : Disc} {hlk : Hlk} {job : Job} {pwr : Pwr} {flt : Flt} {sec : Sec} {boot : Boot} {inp : Inp} {glb : Glb}
    {out : List Out} {free : Nat}
    (h : Sound Q s) (e : mem.cells = s.mem.cells) (e2 : flt.log = s.flt.log) (hc : ∀ c : CoreId, cores[c].Sound) :
    Sound Q
     ⟨cores, clusters, mem, upd, fab, coll, opt, disc, hlk, job, pwr, flt, sec, boot, inp, glb, out, free, s.pending⟩ :=
  ⟨e ▸ h.hbm, hc, e2 ▸ h.log, h.queue⟩

/-- A record update of a core that leaves its scratchpad and its token queues. -/
theorem Core.Sound.lit {k : Core}
    {present : Bool} {status : BitVec 2} {phys : BitVec 4} {overflow : Bool} {segment : W16} {faultValid : Bool}
    {faultSlot : Record} {faulted : Bool} {faultDue : Option (Nat × Record)} {holdConflict : W64}
    {holdToken : W64} {holdDroop : W64} {holdHalving : W64} {leftover : W64} {secondary : W64}
    {execCycles : W64} {mmaBusy : Vector W64 3} {accessBytes : W64} {spadPoison : List Nat}
    {engines : Vector Engine 3} {lanes : Vector AwlLane 4} {census : Vector Census 16} {halves : Vector Half 2}
    {taccs : List TaccWait} {access : Access} {exec : Execute} {running : Option Nat} {updating : Option Pass}
    {finished : List Nat} {held3 : Bool} {heldCounted : List Nat} {secondaryNow : Byte} {droop : Bool}
    {droopPeriods : Nat} {suspect : Bool} {sliceOn : Bool} {sliceAt : Option W64} {slicePattern : Nat}
    {sliceRerun : Bool} {segments : List Segment} {fcore : BitVec 11} {fmeas : BitVec 11} {tchar : Byte}
    {load : BitVec 2}
    (h : k.Sound) :
    Core.Sound
     ⟨present, status, phys, overflow, segment, faultValid, faultSlot, faulted, faultDue, holdConflict,
     holdToken, holdDroop, holdHalving, leftover, secondary, execCycles, mmaBusy, accessBytes, k.spad,
     spadPoison, k.aq, k.eq, engines, lanes, census, halves, taccs, access, exec, running, updating, finished,
     held3, heldCounted, secondaryNow, droop, droopPeriods, suspect, sliceOn, sliceAt, slicePattern, sliceRerun,
     segments, fcore, fmeas, tchar, load⟩ :=
  ⟨h.spad, h.aq, h.eq⟩

theorem Sound.updCore {s : State} (h : Sound Q s) {c : CoreId} {f : Core → Core} (hf : (s.core c).Sound → (f (s.core c)).Sound) :
    Sound Q (s.updCore c f) :=
  ⟨h.hbm, fun d => by
    by_cases e : c = d
    · subst e; rw [core_updCore_same]; exact hf (h.cores c)
    · rw [core_updCore_other _ _ _ _ e]; exact h.cores d, h.log, h.queue⟩

theorem Sound.mapCores {s : State} {f : Core → Core} (h : Sound Q s) (hf : ∀ k : Core, k.Sound → (f k).Sound) :
    Sound Q { s with cores := s.cores.map f } := by
  refine h.litCores rfl rfl fun c => ?_
  have := h.cores c
  simp only [State.core, Fin.getElem_fin, Vector.getElem_map] at this ⊢
  exact hf _ this

theorem Sound.putCells {s : State} (h : Sound Q s) (a : Nat) (bs : List Byte) :
    Sound Q { s with mem := { s.mem with cells := cellsWrite a bs s.mem.cells } } :=
  ⟨cellsWrite_wf _ _ _ h.hbm, h.cores, h.log, h.queue⟩

/-- Empty token queues are within their bound. -/
theorem Core.Sound.emptied {k k' : Core} (h : k.Sound) (e : k'.spad = k.spad) (ea : k'.aq = Vector.replicate 4 [])
    (ee : k'.eq = Vector.replicate 4 []) : k'.Sound :=
  ⟨e ▸ h.spad, fun q => by rw [ea]; simp, fun q => by rw [ee]; simp⟩

theorem vset_le {v : Vector (List Entry) 4} (h : ∀ q : Fin 4, v[q].length ≤ 16) (i : Fin 4) {x : List Entry} (hx : x.length ≤ 16) :
    ∀ q : Fin 4, (v.set i x)[q].length ≤ 16 := by
  intro q
  by_cases e : i = q
  · subst e; simpa using hx
  · have e' : i.val ≠ q.val := fun z => e (Fin.ext z)
    have := h q
    simpa [Vector.getElem_set, e'] using this

theorem foldl_sound {α : Type} {f : State → α → State} {l : List α} {s : State} (h : Sound Q s)
    (hf : ∀ t x, Sound Q t → Sound Q (f t x)) : Sound Q (l.foldl f s) := by
  induction l generalizing s with
  | nil => exact h
  | cons x l ih => exact ih (hf s x h)

theorem foldl_fst_sound {α β : Type} {f : State × β → α → State × β} {l : List α} {s : State × β} (h : Sound Q s.1)
    (hf : ∀ t x, Sound Q t.1 → Sound Q (f t x).1) : Sound Q (l.foldl f s).1 := by
  induction l generalizing s with
  | nil => exact h
  | cons x l ih => exact ih (hf s x h)

theorem foldl_coreSound {α : Type} {f : Core → α → Core} {l : List α} {k : Core} (h : k.Sound)
    (hf : ∀ t x, t.Sound → (f t x).Sound) : (l.foldl f k).Sound := by
  induction l generalizing k with
  | nil => exact h
  | cons x l ih => exact ih (hf k x h)

theorem foldl_fst_coreSound {α β : Type} {f : Core × β → α → Core × β} {l : List α} {k : Core × β} (h : k.1.Sound)
    (hf : ∀ t x, t.1.Sound → (f t x).1.Sound) : (l.foldl f k).1.Sound := by
  induction l generalizing k with
  | nil => exact h
  | cons x l ih => exact ih (hf k x h)

theorem repeat_sound {f : State → State} (hf : ∀ t, Sound Q t → Sound Q (f t)) (n : Nat) {s : State} (h : Sound Q s) :
    Sound Q (Nat.repeat f n s) := by
  induction n with
  | zero => exact h
  | succ n ih => exact hf _ ih

theorem optOk_none : optOk Q none := by intro t h; cases h
theorem optOk_some {s : State} (h : Sound Q s) : optOk Q (some s) := by intro t e; cases e; exact h
theorem outOk_next {s : State} (h : Sound Q s) : outOk Q (.next s) := by intro t e; cases e; exact h

/-- A state taken out of an option. -/
theorem optOk.get {o : Option State} (h : optOk Q o) {t : State} (e : o = some t) : Sound Q t := h t e

theorem Core.sound_reset : Core.reset.Sound := ⟨cellsWf_nil, fun q => by simp [Core.reset], fun q => by simp [Core.reset]⟩

theorem sound_reset : Sound [] State.reset :=
  ⟨cellsWf_nil, fun c => by simpa [State.core, State.reset] using Core.sound_reset, by simp [State.reset, Flt.reset], rfl⟩

end Sys2Proof.Machine
end

