-- ==== Sys2Proof/Laws/SoundOps.lean ====
section
/-! SUPPORT. Every operation keeps the byte stores in canonical form: the shared operations over memory, scratchpads, records and stops. -/

namespace Sys2Proof.Machine

variable {Q : List Instr}

/-! ## Ops -/

theorem Core.undefine_ok (k : Core) (u : Undo) (n : Nat) (h : k.Sound) : (k.undefine u n).Sound :=
  ⟨cellsWrite_wf _ _ _ h.spad, h.aq, h.eq⟩

theorem State.say_ok (s : State) (o : Out) (h : Sound Q s) : Sound Q (State.say s o) := by
  unfold State.say
  repeat' first
    | assumption
    | rfl
    | with_reducible refine Sound.lit ?_ ?_ ?_

theorem dropEvent_ok (s : State) (h : Sound Q s) : Sound Q (dropEvent s) := by
  unfold dropEvent
  repeat' first
    | assumption
    | rfl
    | dsimp only
    | with_reducible refine Sound.lit ?_ ?_ ?_

theorem writeEvent_ok (s : State) (e : Event) (h : Sound Q s) : Sound Q (writeEvent s e) := by
  unfold writeEvent
  repeat' first
    | assumption
    | rfl
    | with_reducible apply State.say_ok
    | with_reducible apply dropEvent_ok
    | dsimp only
    | split
    | with_reducible refine Sound.lit ?_ ?_ ?_

theorem raiseEvent_ok (s : State) (type : ℕ) (detail : List Byte) (h : Sound Q s) : Sound Q (raiseEvent s type detail) := by
  unfold raiseEvent
  repeat' first
    | assumption
    | rfl
    | with_reducible apply writeEvent_ok
    | with_reducible apply dropEvent_ok
    | dsimp only
    | split
    | with_reducible refine Sound.lit ?_ ?_ ?_

theorem logRecord_ok (s : State) (r : Record) (h : Sound Q s) : Sound Q (logRecord s r) := by
  unfold logRecord
  refine raiseEvent_ok _ _ _ ⟨h.hbm, h.cores, ?_, h.queue⟩
  have := h.log
  by_cases f : 4096 ≤ s.flt.log.length
  · simp only [f, if_true, List.length_append, List.length_take, List.length_drop, List.length_tail, List.length_singleton]; omega
  · simp only [f, if_false, List.length_append, List.length_take, List.length_drop, List.length_singleton]; omega

theorem Core.putBack_ok (k : Core) (u : Undo) (h : k.Sound) : (k.putBack u).Sound :=
  ⟨cellsWrite_wf _ _ _ h.spad, h.aq, h.eq⟩

theorem consume_ok (s : State) (cause : ℕ) (core : Option CoreId) (a : ℕ) (h : Sound Q s) : Sound Q (consume s cause core a) := by
  unfold consume
  repeat' first
    | assumption
    | rfl
    | with_reducible apply logRecord_ok
    | dsimp only
    | split
    | with_reducible refine Sound.lit ?_ ?_ ?_

theorem settleLine_ok (s : State) (line : ℕ) (p viaW : Bool) (h : Sound Q s) : Sound Q (settleLine s line p viaW) := by
  unfold settleLine
  repeat' first
    | assumption
    | rfl
    | with_reducible apply consume_ok
    | dsimp only
    | split
    | with_reducible refine Sound.lit ?_ ?_ ?_

theorem wcbWriteback_ok (s : State) (k : Fin 24) (e : Wcb) (h : Sound Q s) : Sound Q (wcbWriteback s k e) := by
  unfold wcbWriteback
  repeat' first
    | assumption
    | rfl
    | with_reducible apply settleLine_ok
    | dsimp only
    | with_reducible refine Sound.lit ?_ ?_ ?_

theorem State.unlatch_ok (s : State) (h : Sound Q s) : Sound Q (State.unlatch s) := by
  unfold State.unlatch
  repeat' first
    | assumption
    | rfl
    | dsimp only
    | with_reducible refine Sound.lit ?_ ?_ ?_

theorem State.onRails_ok (s : State) (f : State → State) (h : Sound Q s) (hf : ∀ t, Sound Q t → Sound Q (f t)) : Sound Q (s.onRails f) := by
  unfold State.onRails
  split
  · exact hf _ (State.unlatch_ok s h)
  · exact State.unlatch_ok s h

theorem cutOutput_ok (s : State) (c : CoreId) (n : Nat) (h : Sound Q s) : Sound Q (cutOutput s c n) := by
  unfold cutOutput
  extract_lets k us k0 x
  have h0 : k0.Sound := foldl_coreSound (h.cores c) fun t u ht => Core.putBack_ok _ _ ht
  clear_value k0
  have hx : x.1.Sound := foldl_fst_coreSound (k := (k0, s.free)) h0 fun t u ht => Core.undefine_ok _ _ _ ht
  clear_value x
  exact (h.updCore (f := fun _ => { x.1 with engines := x.1.engines.mapFinIdx fun i e _ => e.undefine n (x.2 + 2097152 * i) }) fun _ => hx.lit).lit rfl rfl

theorem Core.stop_ok (c : Core) (h : c.Sound) : (Core.stop c).Sound := by
  unfold Core.stop
  repeat' first
    | assumption
    | dsimp only
    | split
    | with_reducible refine Core.Sound.lit ?_

theorem haltCore_ok (s : State) (c : CoreId) (cycle : ℕ) (h : Sound Q s) : Sound Q (haltCore s c cycle) := by
  unfold haltCore
  repeat' first
    | assumption
    | with_reducible apply cutOutput_ok
    | with_reducible apply Core.stop_ok
    | with_reducible refine Sound.updCore ?_ ?_
    | split

theorem stopCores_ok (s : State) (h : Sound Q s) : Sound Q (stopCores s) := by
  unfold stopCores
  exact (foldl_sound h fun t c ht => haltCore_ok t c _ ht).lit rfl rfl

theorem abortStep_ok (s : State) (h : Sound Q s) : Sound Q (abortStep s) := (stopCores_ok s h).lit rfl rfl

theorem recordFault_ok (s : State) (c : CoreId) (n : Nat) (r : Record) (h : Sound Q s) : Sound Q (recordFault s c n r) := by
  unfold recordFault
  extract_lets k r1 s1 s2 s3
  have h3 : Sound Q s3 := logRecord_ok _ _ ((haltCore_ok s c n h).updCore fun hk => hk.lit)
  clear_value s3
  split
  · exact h3
  · exact abortStep_ok _ h3

theorem settleFault_ok (s : State) (c : CoreId) (h : Sound Q s) : Sound Q (settleFault s c) := by
  unfold settleFault
  repeat' first
    | assumption
    | with_reducible apply recordFault_ok
    | split

theorem Core.countSecondary_ok (c : Core) (h : c.Sound) : (Core.countSecondary c).Sound := by
  unfold Core.countSecondary
  repeat' first
    | assumption
    | dsimp only
    | split
    | with_reducible refine Core.Sound.lit ?_

theorem accessFaultAt_ok (s : State) (c : CoreId) (seq : ℕ) (r : Record) (h : Sound Q s) : Sound Q (accessFaultAt s c seq r) := by
  unfold accessFaultAt
  repeat' first
    | assumption
    | with_reducible apply settleFault_ok
    | with_reducible apply Core.countSecondary_ok
    | with_reducible refine Sound.updCore ?_ ?_
    | intro _
    | dsimp only
    | split
    | with_reducible refine Core.Sound.lit ?_

theorem endAdmin_ok (s : State) (h : Sound Q s) : Sound Q (endAdmin s) := by
  unfold endAdmin
  repeat' first
    | assumption
    | rfl
    | dsimp only
    | split
    | with_reducible refine Sound.lit ?_ ?_ ?_

theorem fatalStop_ok (s : State) (h : Sound Q s) : Sound Q (fatalStop s) := by
  unfold fatalStop
  extract_lets s0 s1 s2
  have h0 : Sound Q s0 := stopCores_ok s h
  have h1 : Sound Q s1 := h0.mapCores fun k hk => hk.lit
  have h2 : Sound Q s2 := foldl_sound h1 fun t l ht => State.say_ok _ _ ht
  clear_value s2
  exact h2.lit rfl rfl

theorem updChan_ok (s : State) (p : ℕ × ℕ) (f : Chan → Chan) (h : Sound Q s) : Sound Q (updChan s p f) := by
  unfold updChan
  repeat' first
    | assumption
    | rfl
    | dsimp only
    | with_reducible refine Sound.lit ?_ ?_ ?_

theorem countCorrected_ok (s : State) (a : ℕ) (h : Sound Q s) : Sound Q (countCorrected s a) := by
  unfold countCorrected
  repeat' first
    | assumption
    | rfl
    | with_reducible apply updChan_ok
    | dsimp only
    | with_reducible refine Sound.lit ?_ ?_ ?_

theorem poisonLine_ok (s : State) (line : ℕ) (h : Sound Q s) : Sound Q (poisonLine s line) := by
  unfold poisonLine
  repeat' first
    | assumption
    | rfl
    | dsimp only
    | with_reducible refine Sound.lit ?_ ?_ ?_

theorem countUncorrectable_ok (s : State) (a : ℕ) (h : Sound Q s) : Sound Q (countUncorrectable s a) := by
  unfold countUncorrectable
  repeat' first
    | assumption
    | rfl
    | with_reducible apply updChan_ok
    | dsimp only
    | with_reducible refine Sound.lit ?_ ?_ ?_

theorem classRead_ok (s : State) (base line errs : ℕ) (rewrite : Bool) (h : Sound Q s) :
    Sound Q (classRead s base line errs rewrite) := by
  unfold classRead
  repeat' first
    | assumption
    | with_reducible apply countCorrected_ok
    | with_reducible apply poisonLine_ok
    | with_reducible apply countUncorrectable_ok
    | split

theorem wcbModify_ok (s : State) (k : Fin 24) (e : Wcb) (h : Sound Q s) : Sound Q (wcbModify s k e) :=
  wcbWriteback_ok _ _ _ (classRead_ok _ _ _ _ _ (h.lit rfl rfl))

theorem raiseCode_ok (s : State) (type : ℕ) (code : W16) (h : Sound Q s) : Sound Q (raiseCode s type code) := by
  unfold raiseCode
  repeat' first
    | assumption
    | rfl
    | with_reducible apply raiseEvent_ok
    | with_reducible refine Sound.lit ?_ ?_ ?_

theorem streamFaultAt_ok (s : State) (c : CoreId) (n : Nat) (r : Record) (h : Sound Q s) : Sound Q (streamFaultAt s c n r) := by
  unfold streamFaultAt
  split
  · exact h
  · split
    · refine Sound.updCore (s := ite _ _ _) ?_ fun hk => Core.countSecondary_ok _ hk
      split
      · exact (cutOutput_ok s c n h).updCore fun hk => hk.lit
      · exact h
    · exact recordFault_ok _ _ _ _ (h.updCore fun hk => hk.lit)

theorem raiseOpen_ok (s : State) (type : ℕ) (h : Sound Q s) : Sound Q (raiseOpen s type) := by
  unfold raiseOpen
  repeat' first
    | assumption
    | rfl
    | with_reducible apply raiseEvent_ok
    | with_reducible refine Sound.lit ?_ ?_ ?_

theorem wcbMerge_ok (s : State) (k : Fin 24) (line off len : ℕ) (p viaW : Bool) (h : Sound Q s) :
    Sound Q (wcbMerge s k line off len p viaW) := by
  unfold wcbMerge
  repeat' first
    | assumption
    | rfl
    | with_reducible apply settleLine_ok
    | with_reducible apply wcbModify_ok
    | dsimp only
    | split
    | with_reducible refine Sound.lit ?_ ?_ ?_

theorem storeLine_ok (s : State) (a : Nat) (bs : List Byte) (p : Bool) (h : Sound Q s) : Sound Q (storeLine s a bs p) := by
  unfold storeLine
  extract_lets key line off k reg viaW u1 s1 u2 s2
  have h1 : Sound Q s1 := by
    clear_value reg
    simp only [s1]
    split
    · split
      · exact h.lit rfl rfl
      · exact h
    · exact h
  clear_value s1
  have h2 : Sound Q s2 := Sound.putCells h1 _ _
  clear_value s2
  split
  · exact h1
  · split
    · exact settleLine_ok _ _ _ _ (h2.lit rfl rfl)
    · exact wcbMerge_ok _ _ _ _ _ _ _ h2

theorem storeLines_ok (n : Nat) (s : State) (a : Nat) (bs : List Byte) (p : Bool) (h : Sound Q s) : Sound Q (storeLines n s a bs p) := by
  induction n generalizing s a bs with
  | zero => exact h
  | succ n ih =>
    unfold storeLines
    split
    · exact h
    · exact ih _ _ _ (storeLine_ok _ _ _ _ h)

theorem storeHbm_ok (s : State) (a : ℕ) (bs : List Byte) (p : Bool) (h : Sound Q s) : Sound Q (storeHbm s a bs p) := by
  unfold storeHbm
  repeat' first
    | assumption
    | with_reducible apply storeLines_ok

theorem fatal_ok (s : State) (code : W16) (cause : Byte) (m : Bool) (h : Sound Q s) : Sound Q (fatal s code cause m) := by
  unfold fatal
  split
  · exact h.lit rfl rfl
  · extract_lets u4 s4 s5 dest u6 s6
    have h4 : Sound Q s4 := logRecord_ok _ _ (fatalStop_ok s h)
    clear_value s4
    have h5 : Sound Q s5 := endAdmin_ok _ h4
    clear_value s5
    have h6 : Sound Q s6 := h5.lit rfl rfl
    clear_value s6
    exact h6.lit rfl rfl

theorem streamFault_ok (s : State) (c : CoreId) (r : Record) (h : Sound Q s) : Sound Q (streamFault s c r) := by
  unfold streamFault
  repeat' first
    | assumption
    | with_reducible apply streamFaultAt_ok

theorem finishDesc_ok (s : State) (ring : RingId) (idx status : W16) (a : BitVec 48) (b : W64) (code : W16) (h : Sound Q s) :
    Sound Q (finishDesc s ring idx status a b code) := by
  unfold finishDesc
  repeat' first
    | assumption
    | rfl
    | dsimp only
    | with_reducible refine Sound.lit ?_ ?_ ?_

theorem stopJob_ok (s : State) (h : Sound Q s) : Sound Q (stopJob s) := by
  unfold stopJob
  repeat' first
    | assumption
    | rfl
    | dsimp only
    | split
    | with_reducible refine Sound.lit ?_ ?_ ?_

theorem spadWrite_ok (k : Core) (a : Nat) (bs : List Byte) (p : Bool) (h : k.Sound) : (spadWrite k a bs p).Sound :=
  ⟨cellsWrite_wf _ _ _ h.spad, h.aq, h.eq⟩

theorem storePart_ok (s : State) (source a : ℕ) (bs : List Byte) (p : Bool) (h : Sound Q s) :
    Sound Q (storePart s source a bs p) := by
  unfold storePart
  repeat' first
    | assumption
    | with_reducible apply logRecord_ok
    | with_reducible apply storeHbm_ok
    | dsimp only
    | split

/-! ## Operands -/

theorem spadWriteP_ok (n : Nat) (k : Core) (a : Nat) (bs : List PByte) (h : k.Sound) : (spadWriteP n k a bs).Sound := by
  induction n generalizing k a bs with
  | zero => exact h
  | succ n ih =>
    unfold spadWriteP
    split
    · exact h
    · exact ih _ _ _ (spadWrite_ok _ _ _ _ h)

theorem spadPut_ok (c : Core) (a : ℕ) (bs : List PByte) (h : c.Sound) : (spadPut c a bs).Sound := by
  unfold spadPut
  repeat' first
    | assumption
    | with_reducible apply spadWriteP_ok

theorem scatterSpad_ok (k : Core) (d : Desc) (bs : List PByte) (h : k.Sound) : (scatterSpad k d bs).Sound := by
  unfold scatterSpad
  generalize d.rows = os
  induction os generalizing k bs with
  | nil => exact h
  | cons o os ih => exact ih _ _ (spadPut_ok _ _ _ h)

theorem storeHbmP_ok (n : Nat) (s : State) (a : Nat) (bs : List PByte) (h : Sound Q s) : Sound Q (storeHbmP n s a bs) := by
  induction n generalizing s a bs with
  | zero => exact h
  | succ n ih =>
    unfold storeHbmP
    split
    · exact h
    · exact ih _ _ _ (storeLine_ok _ _ _ _ h)

theorem hbmPut_ok (s : State) (a : ℕ) (bs : List PByte) (h : Sound Q s) : Sound Q (hbmPut s a bs) := by
  unfold hbmPut
  repeat' first
    | assumption
    | with_reducible apply storeHbmP_ok

theorem writeElems_ok (c : Core) (d : Desc) (es : List W32) (p : Bool) (h : c.Sound) : (writeElems c d es p).Sound := by
  unfold writeElems
  repeat' first
    | assumption
    | with_reducible apply scatterSpad_ok

theorem scatterHbm_ok (s : State) (d : Desc) (bs : List PByte) (h : Sound Q s) : Sound Q (scatterHbm s d bs) := by
  unfold scatterHbm
  generalize d.rows = os
  induction os generalizing s bs with
  | nil => exact h
  | cons o os ih => exact ih _ _ (hbmPut_ok _ _ _ h)

/-! ## Flags -/

theorem orOverflow_ok (s : State) (o : Bool) (h : Sound Q s) : Sound Q (orOverflow s o) := by
  unfold orOverflow
  repeat' first
    | assumption
    | rfl
    | dsimp only
    | split
    | with_reducible refine Sound.lit ?_ ?_ ?_

/-! ## Atomic -/

theorem noteTouch_ok (s : State) (fmt op : BitVec 4) (a : ℕ) (h : Sound Q s) : Sound Q (noteTouch s fmt op a) := by
  unfold noteTouch
  repeat' first
    | assumption
    | rfl
    | dsimp only
    | split
    | with_reducible refine Sound.lit ?_ ?_ ?_

theorem atomicEnter_ok (s : State) (k : Fin 24) (line : ℕ) (h : Sound Q s) : Sound Q (atomicEnter s k line) := by
  unfold atomicEnter
  repeat' first
    | assumption
    | rfl
    | with_reducible apply wcbWriteback_ok
    | dsimp only
    | split
    | with_reducible refine Sound.lit ?_ ?_ ?_

theorem atomicPoison_ok (s : State) (a : ℕ) (h : Sound Q s) : Sound Q (atomicPoison s a) := by
  unfold atomicPoison
  repeat' first
    | assumption
    | with_reducible apply atomicEnter_ok
    | with_reducible apply settleLine_ok
    | dsimp only
    | split

theorem atomicElem_ok (s : State) (fmt op : BitVec 4) (a : Nat) (v : W32) (h : Sound Q s) : Sound Q (atomicElem s fmt op a v) := by
  unfold atomicElem
  extract_lets key s1 n old r u2 s2
  have h1 : Sound Q s1 := atomicEnter_ok _ _ _ h
  clear_value s1
  split
  · exact h1
  · refine noteTouch_ok _ _ _ _ (orOverflow_ok _ _ ?_)
    dsimp only [s2]
    split
    · exact h1
    · exact Sound.putCells h1 _ _

theorem atomicMany_ok (s : State) (fmt op : BitVec 4) (es : List (ℕ × List PByte)) (h : Sound Q s) :
    Sound Q (atomicMany s fmt op es) := by
  unfold atomicMany
  repeat' first
    | assumption
    | with_reducible apply atomicPoison_ok
    | with_reducible apply atomicElem_ok
    | refine foldl_sound ?_ ?_
    | intro _

end Sys2Proof.Machine
end

