-- ==== Sys2Proof/Laws/SoundStreams.lean ====
section
/-! SUPPORT. Every operation keeps the byte stores in canonical form: the access and execute streams, the packets and collectives they start, and landings. -/

namespace Sys2Proof.Machine

variable {Q : List Instr}

/-! ## FabOps -/

theorem updPort_ok (s : State) (n : ℕ) (f : Port → Port) (h : Sound Q s) : Sound Q (updPort s n f) := by
  unfold updPort
  repeat' first
    | assumption
    | rfl
    | dsimp only
    | split
    | with_reducible refine Sound.lit ?_ ?_ ?_

theorem heard_ok (s : State) (n : ℕ) (h : Sound Q s) : Sound Q (heard s n) := by
  unfold heard
  repeat' first
    | assumption
    | with_reducible apply updPort_ok
    | with_reducible apply raiseOpen_ok
    | dsimp only
    | split

theorem emit_ok (s : State) (n : ℕ) (vc : Fin 8) (inPort : Fin 10) (inVc : Fin 8) (p : Packet) (h : Sound Q s) :
    Sound Q (emit s n vc inPort inVc p) := by
  unfold emit
  repeat' first
    | assumption
    | with_reducible apply updPort_ok
    | with_reducible apply State.say_ok
    | split

theorem queueSend_ok (s : State) (i : Issuer) (p : Packet) (d : LocalDest) (h : Sound Q s) : Sound Q (queueSend s i p d) := by
  unfold queueSend
  repeat' first
    | assumption
    | rfl
    | dsimp only
    | with_reducible refine Sound.lit ?_ ?_ ?_

theorem inject_ok (s : State) (p : Packet) (h : Sound Q s) : Sound Q (inject s p) := by
  unfold inject
  repeat' first
    | assumption
    | rfl
    | with_reducible apply emit_ok
    | dsimp only
    | split
    | with_reducible refine Sound.lit ?_ ?_ ?_

/-! ## CollOps -/

theorem overChunks_ok (r : CollRun) (f : State × CollRun → Nat → State × CollRun) (x : State × CollRun) (h : Sound Q x.1)
    (hf : ∀ t n, Sound Q t.1 → Sound Q (f t n).1) : Sound Q (overChunks r f x).1 := foldl_fst_sound h hf

theorem sendElems_ok (s : State) (c : Comm) (r : CollRun) (m chunk phase kind off lo n1 : Nat) (es : List PElem) (h : Sound Q s) :
    Sound Q (sendElems s c r m chunk phase kind off lo n1 es) := foldl_sound h fun _ _ ht => queueSend_ok _ _ _ _ ht

theorem treeFlow_ok (c : Comm) (k o : Nat) (last : Bool) (n : Nat) (s : State) (r : CollRun) (t : CollTerm) (h : Sound Q s) :
    Sound Q (treeFlow c k o last n s r t).1 := by
  induction n generalizing s r t with
  | zero => exact h
  | succ n ih =>
    unfold treeFlow
    dsimp only
    split
    · split
      · exact h
      · exact sendElems_ok _ _ _ _ _ _ _ _ _ _ _ h
    · split
      · exact h
      · split
        · exact sendElems_ok _ _ _ _ _ _ _ _ _ _ _ h
        · split
          · exact h
          · exact ih _ _ _ (orOverflow_ok _ _ h)

theorem startScatter_ok (s : State) (c : Comm) (r : CollRun) (k : Nat) (last : Bool) (h : Sound Q s) : Sound Q (startScatter s c r k last).1 := by
  unfold startScatter
  iterate 30 all_goals try first
    | assumption
    | with_reducible apply overChunks_ok
    | with_reducible apply treeFlow_ok
    | with_reducible apply sendElems_ok
    | refine foldl_fst_sound ?_ ?_
    | intro _
    | dsimp only
    | split

theorem sendCinch_ok (s : State) (c : Comm) (cseq : W32) (kind m : ℕ) (r : CinchRec) (h : Sound Q s) :
    Sound Q (sendCinch s c cseq kind m r) := by
  unfold sendCinch
  repeat' first
    | assumption
    | with_reducible apply inject_ok

theorem triggerSwitch_ok (s : State) (k : BitVec 3) (h : Sound Q s) : Sound Q (triggerSwitch s k) := by
  unfold triggerSwitch
  repeat' first
    | assumption
    | rfl
    | dsimp only
    | split
    | with_reducible refine Sound.lit ?_ ?_ ?_

theorem cinchDown_ok (s : State) (c : Comm) (n : Cinch) (r : CinchRec) (h : Sound Q s) : Sound Q (cinchDown s c n r) := by
  unfold cinchDown
  repeat' first
    | assumption
    | rfl
    | with_reducible apply sendCinch_ok
    | with_reducible apply triggerSwitch_ok
    | refine foldl_sound ?_ ?_
    | intro _
    | dsimp only
    | split
    | with_reducible refine Sound.lit ?_ ?_ ?_

theorem updCinch_ok (s : State) (i : BitVec 10) (f : Cinch → Cinch) (h : Sound Q s) : Sound Q (updCinch s i f) := by
  unfold updCinch
  repeat' first
    | assumption
    | rfl
    | dsimp only
    | with_reducible refine Sound.lit ?_ ?_ ?_

theorem cinchFlow_ok (s : State) (i : BitVec 10) (h : Sound Q s) : Sound Q (cinchFlow s i).1 := by
  unfold cinchFlow
  repeat' first
    | assumption
    | with_reducible apply cinchDown_ok
    | with_reducible apply updCinch_ok
    | with_reducible apply sendCinch_ok
    | split

theorem sendPart_ok (s : State) (c : Comm) (r : CollRun) (k m : ℕ) (h : Sound Q s) : Sound Q (sendPart s c r k m) := by
  unfold sendPart
  repeat' first
    | assumption
    | with_reducible apply sendElems_ok
    | refine foldl_sound ?_ ?_
    | intro _

theorem detours_ok (s : State) (c : Comm) (r : CollRun) (k : ℕ) (h : Sound Q s) : Sound Q (detours s c r k).1 := by
  unfold detours
  repeat' first
    | assumption
    | with_reducible apply sendPart_ok
    | refine foldl_fst_sound ?_ ?_
    | intro _
    | dsimp only
    | split

theorem cinchEnter_ok (s : State) (c : Comm) (kind : CinchKind) (r : CinchRec) (dst : Option Desc) (chunk : ℕ) (h : Sound Q s) :
    Sound Q (cinchEnter s c kind r dst chunk).1 := by
  unfold cinchEnter
  repeat' first
    | assumption
    | rfl
    | with_reducible apply cinchFlow_ok
    | dsimp only
    | with_reducible refine Sound.lit ?_ ?_ ?_

theorem settleAcks_ok (s : State) (h : Sound Q s) : Sound Q (settleAcks s) := by
  unfold settleAcks
  repeat' first
    | assumption
    | rfl
    | with_reducible apply inject_ok
    | refine foldl_sound ?_ ?_
    | intro _
    | dsimp only
    | with_reducible refine Sound.lit ?_ ?_ ?_

theorem noteRun_ok (s : State) (p : Packet) (f : CollRun → CollRun) (h : Sound Q s) : Sound Q (noteRun s p f) := by
  unfold noteRun
  repeat' first
    | assumption
    | rfl
    | dsimp only
    | with_reducible refine Sound.lit ?_ ?_ ?_

theorem collFencedAt_ok (s : State) (id : ℕ) (sent : Packet) (h : Sound Q s) : Sound Q (collFencedAt s id sent) := by
  unfold collFencedAt
  repeat' first
    | assumption
    | rfl
    | with_reducible apply noteRun_ok
    | with_reducible apply queueSend_ok
    | with_reducible apply settleAcks_ok
    | refine foldl_sound ?_ ?_
    | intro _
    | dsimp only
    | split
    | with_reducible refine Sound.lit ?_ ?_ ?_

theorem startGather_ok (s : State) (c : Comm) (r : CollRun) (k : ℕ) (first : Bool) (h : Sound Q s) :
    Sound Q (startGather s c r k first).1 := by
  unfold startGather
  repeat' first
    | assumption
    | with_reducible apply sendPart_ok
    | with_reducible apply detours_ok
    | split

theorem newRun_ok (s : State) (r : CollRun) (h : Sound Q s) : Sound Q (newRun s r) := by
  unfold newRun
  repeat' first
    | assumption
    | rfl
    | dsimp only
    | with_reducible refine Sound.lit ?_ ?_ ?_

theorem collAcked_ok (s : State) (sent ack : Packet) (h : Sound Q s) : Sound Q (collAcked s sent ack) := by
  unfold collAcked
  repeat' first
    | assumption
    | rfl
    | with_reducible apply noteRun_ok
    | with_reducible apply settleAcks_ok
    | dsimp only
    | split
    | with_reducible refine Sound.lit ?_ ?_ ?_

theorem updRun_ok (s : State) (id : ℕ) (f : CollRun → CollRun) (h : Sound Q s) : Sound Q (updRun s id f) := by
  unfold updRun
  repeat' first
    | assumption
    | rfl
    | dsimp only
    | with_reducible refine Sound.lit ?_ ?_ ?_

theorem putRun_ok (s : State) (r : CollRun) (h : Sound Q s) : Sound Q (putRun s r) := by
  unfold putRun
  repeat' first
    | assumption
    | with_reducible apply updRun_ok

theorem writeStatus_ok (s : State) (c : Comm) (status : ℕ) (op : BitVec 4) (chunk total : ℕ) (fenced : List ℕ) (h : Sound Q s) :
    Sound Q (writeStatus s c status op chunk total fenced) := by
  unfold writeStatus
  repeat' first
    | assumption
    | with_reducible apply storePart_ok

theorem dropRun_ok (s : State) (id : ℕ) (h : Sound Q s) : Sound Q (dropRun s id) := by
  unfold dropRun
  repeat' first
    | assumption
    | rfl
    | dsimp only
    | with_reducible refine Sound.lit ?_ ?_ ?_

/-! ## Access -/

theorem updAccess_ok (s : State) (c : CoreId) (f : Access → Access) (h : Sound Q s) : Sound Q (updAccess s c f) := by
  unfold updAccess
  repeat' first
    | assumption
    | with_reducible refine Sound.updCore ?_ ?_
    | intro _
    | with_reducible refine Core.Sound.lit ?_

theorem flightFault_ok (s : State) (c : CoreId) (f : Flight) (code : W16) (cause : ℕ) (g : Record → Record) (h : Sound Q s) :
    Sound Q (flightFault s c f code cause g) := by
  unfold flightFault
  repeat' first
    | assumption
    | with_reducible apply accessFaultAt_ok
    | with_reducible apply updAccess_ok

theorem accessFault_ok (s : State) (c : CoreId) (i : AInstr) (code : W16) (cause : ℕ) (f : Record → Record) (h : Sound Q s) :
    Sound Q (accessFault s c i code cause f) := by
  unfold accessFault
  repeat' first
    | assumption
    | with_reducible apply accessFaultAt_ok

theorem pushPass_le (fs : List Flight) (v : Vector (List Entry) 4) (b : List (Fin 4)) (h : ∀ q : Fin 4, v[q].length ≤ 16) :
    ∀ q : Fin 4, (pushPass fs v b).2[q].length ≤ 16 := by
  induction fs generalizing v b with
  | nil => exact h
  | cons f fs ih =>
    unfold pushPass
    split
    · split
      · rename_i g
        refine ih _ _ (vset_le h _ ?_)
        simp only [Bool.and_eq_true, decide_eq_true_eq] at g
        have := g.2
        simp only [List.length_append, List.length_singleton]; omega
      · exact ih _ _ h
    · exact ih _ _ h

theorem Core.settlePushes_ok (k : Core) (h : k.Sound) : k.settlePushes.Sound := ⟨h.spad, pushPass_le _ _ _ h.aq, h.eq⟩

theorem fly_ok (s : State) (c : CoreId) (i : AInstr) (m : MoveOp) (e : Entry) (ranges : List Range) (armed : Bool)
    (open_ : ℕ) (h : Sound Q s) :
    Sound Q (fly s c i m e ranges armed open_) := by
  unfold fly
  repeat' first
    | assumption
    | with_reducible apply updAccess_ok

theorem popEq_taken_ok {k k1 : Core} {q : Fin 4} {t : Token} (h : k.Sound) (e : k.popEq q t = .taken k1) : k1.Sound := by
  unfold Core.popEq at e
  split at e
  · cases e
  · split at e
    · rename_i x rest hq _
      cases e
      refine ⟨h.spad, h.aq, vset_le h.eq _ ?_⟩
      have := h.eq q
      rw [hq] at this
      simp only [List.length_cons] at this; omega
    · cases e

theorem takeWait_ok (s : State) (c : CoreId) (i : AInstr) (m : MoveOp) (h : Sound Q s) : optOk Q (takeWait s c i m) := by
  unfold takeWait
  extract_lets k
  split
  · exact optOk_some h
  · split
    · exact optOk_none
    · exact optOk_some (accessFault_ok _ _ _ _ _ _ h)
    · rename_i k1 e
      have h1 : k1.Sound := popEq_taken_ok (h.cores c) e
      exact optOk_some (h.updCore fun _ => h1.lit)

theorem countBytes_ok (s : State) (c : CoreId) (n : ℕ) (h : Sound Q s) : Sound Q (countBytes s c n) := by
  unfold countBytes
  repeat' first
    | assumption
    | with_reducible refine Sound.updCore ?_ ?_
    | intro _
    | with_reducible refine Core.Sound.lit ?_

theorem storeRow_ok (table : Desc) (bs : List PByte) (s : State) (r : Option Nat × Nat) (h : Sound Q s) :
    Sound Q (storeRow table bs s r) := by
  unfold storeRow
  split
  · exact hbmPut_ok _ _ _ h
  · exact h

theorem storeRows_ok (s : State) (table : Desc) (ix : List W32) (bs : List PByte) (h : Sound Q s) :
    Sound Q (storeRows s table ix bs) := foldl_sound h fun t r ht => storeRow_ok table bs t r ht

theorem queueGet_ok (c : CoreId) (seq : ℕ) (chip : Chip) (toSpad : Bool) (s : State) (p : ℕ × ℕ × ℕ) (h : Sound Q s) :
    Sound Q (queueGet c seq chip toSpad s p) := by
  unfold queueGet
  repeat' first
    | assumption
    | with_reducible apply queueSend_ok

theorem queuePut_ok (c : CoreId) (seq : ℕ) (chip : Chip) (fromSpad : Bool) (s : State) (p : ℕ × ℕ × ℕ) (h : Sound Q s) :
    Sound Q (queuePut c seq chip fromSpad s p) := by
  unfold queuePut
  repeat' first
    | assumption
    | with_reducible apply queueSend_ok

theorem queueAtom_ok (c : CoreId) (seq : ℕ) (chip : Chip) (fmt op : BitVec 4) (data : List PByte) (s : State)
    (p : ℕ × ℕ × ℕ) (h : Sound Q s) :
    Sound Q (queueAtom c seq chip fmt op data s p) := by
  unfold queueAtom
  repeat' first
    | assumption
    | with_reducible apply queueSend_ok

theorem closeFlight_ok (s : State) (c : CoreId) (seq : ℕ) (h : Sound Q s) : Sound Q (closeFlight s c seq) := by
  unfold closeFlight
  repeat' first
    | assumption
    | with_reducible apply updAccess_ok

theorem finishCollCinch_ok (s : State) (n : Cinch) (r : CinchRec) (h : Sound Q s) : Sound Q (finishCollCinch s n r) := by
  unfold finishCollCinch
  repeat' first
    | assumption
    | with_reducible apply storeHbm_ok
    | with_reducible apply writeStatus_ok
    | with_reducible apply closeFlight_ok
    | dsimp only
    | split

theorem collCinch_ok (s : State) (core : CoreId) (seq : Nat) (c : Comm) (l : CollOp) (src dst : Desc) (h : Sound Q s) :
    Sound Q (collCinch s core seq c l src dst) := by
  unfold collCinch
  extract_lets a s1 u r
  have h1 : Sound Q s1 := by
    simp only [s1]
    split
    · exact consume_ok _ _ _ _ h
    · exact h
  have he := cinchEnter_ok s1 c (.coll core seq) r (some dst) l.chunk.toNat h1
  clear_value s1
  split
  · rename_i e; rw [e] at he; exact finishCollCinch_ok _ _ _ he
  · rename_i e; rw [e] at he; exact he

theorem collStart_ok (s : State) (core : CoreId) (seq : ℕ) (c : Comm) (op : BitVec 4) (l : CollOp) (src dst : Desc)
    (h : Sound Q s) :
    Sound Q (collStart s core seq c op l src dst) := by
  unfold collStart
  repeat' first
    | assumption
    | with_reducible apply newRun_ok

theorem issueMove_ok (s : State) (c : CoreId) (k : MoveKind) (m : MoveOp) (h : Sound Q s) : Sound Q (issueMove s c k m) := by
  unfold issueMove
  extract_lets core a src dst aux i seq e rs go bad ix1 bs1 bs2 remote1 ps1 remote2 ps2 ix2 es ps3
  have hgo : ∀ b n t, Sound Q t → Sound Q (go b n t) := fun b n t ht => fly_ok _ _ _ _ _ _ _ _ ht
  have hbad : ∀ x n, Sound Q (bad x n) := fun x n => accessFault_ok _ _ _ _ _ _ h
  clear_value go bad remote1 remote2 ix1 ix2
  have hc : ∀ t n, Sound Q t → Sound Q (countBytes t c n) := fun t n ht => countBytes_ok _ _ _ ht
  split
  · exact accessFault_ok _ _ _ _ _ _ h
  split
  · split
    · exact hbad _ _
    · exact hgo _ _ _ (hc _ _ (h.updCore fun hk => scatterSpad_ok _ _ _ hk))
  · split
    · exact hbad _ _
    · exact hgo _ _ _ (hc _ _ (scatterHbm_ok _ _ _ h))
  · split
    · exact accessFault_ok _ _ _ _ _ _ h
    · exact hgo _ _ _ (hc _ _ (h.updCore fun hk => scatterSpad_ok _ _ _ hk))
  · split
    · exact hbad _ _
    · split
      · exact hbad _ _
      · exact hgo _ _ _ (hc _ _ (h.updCore fun hk => scatterSpad_ok _ _ _ hk))
  · split
    · exact hbad _ _
    · split
      · exact hbad _ _
      · exact hgo _ _ _ (hc _ _ (storeRows_ok _ _ _ _ h))
  · split
    · exact hbad _ _
    · split
      · exact hbad _ _
      · exact hgo _ _ _ (hc _ _ (foldl_sound h fun t r ht => queueGet_ok _ _ _ _ _ _ ht))
  · split
    · exact hbad _ _
    · split
      · exact hbad _ _
      · exact hgo _ _ _ (hc _ _ (foldl_sound h fun t r ht => queuePut_ok _ _ _ _ _ _ ht))
  · split
    · split
      · exact hbad _ _
      · split
        · exact hbad _ _
        · exact hgo _ _ _ (hc _ _ (atomicMany_ok _ _ _ _ h))
    · split
      · exact hbad _ _
      · split
        · exact hbad _ _
        · exact hgo _ _ _ (hc _ _ (foldl_sound h fun t r ht => queueAtom_ok _ _ _ _ _ _ _ _ ht))
  · split
    · exact hbad _ _
    · split
      · exact hbad _ _
      · exact hgo _ _ _ (hc _ _ (h.lit rfl rfl))
  · split
    · exact hgo _ _ _ h
    · split
      · exact hbad _ _
      · split
        · exact collCinch_ok _ _ _ _ _ _ _ (hgo _ _ _ h)
        · exact hgo _ _ _ (collStart_ok _ _ _ _ _ _ _ _ h)

theorem tryIssue_ok (s : State) (c : CoreId) (i : AInstr) (h : Sound Q s) : optOk Q (tryIssue s c i) := by
  unfold tryIssue
  dsimp only
  split
  · exact optOk_none
  · split
    · exact optOk_some (updAccess_ok _ _ _ h)
    · exact optOk_some (updAccess_ok _ _ _ h)
    · exact optOk_some (updAccess_ok _ _ _ h)
    · exact optOk_some (updAccess_ok _ _ _ h)
    · split
      · exact optOk_some (updAccess_ok _ _ _ h)
      · exact optOk_none
    · split
      · exact optOk_some (accessFault_ok _ _ _ _ _ _ h)
      · exact optOk_some ((updAccess_ok _ _ _ h).updCore fun hk => Core.settlePushes_ok _ hk)
    · split
      · exact optOk_none
      · exact optOk_some (accessFault_ok _ _ _ _ _ _ h)
      · rename_i k1 e
        have h1 : k1.Sound := popEq_taken_ok (h.cores c) e
        exact optOk_some (h.updCore fun _ => h1.lit)
    · have h1 : ∀ p : Bool, Sound Q (if p then { s with flt := { s.flt with badFlagReads := bump s.flt.badFlagReads } } else s) := by
        intro p
        split
        · exact h.lit rfl rfl
        · exact h
      split
      · exact optOk_some (accessFault_ok _ _ _ _ _ _ h)
      · split <;> split
        · exact optOk_some (updAccess_ok _ _ _ (h1 _))
        · exact optOk_some (fly_ok _ _ _ _ _ _ _ _ (h1 _))
        · exact optOk_some (updAccess_ok _ _ _ (h1 _))
        · exact optOk_some (fly_ok _ _ _ _ _ _ _ _ (h1 _))
    · split
      · exact optOk_none
      · rename_i s1 e
        have h1 : Sound Q s1 := takeWait_ok _ _ _ _ h _ e
        split
        · exact optOk_some h1
        · generalize (interlocked _ _ || _ || _) = hold
          split
          · split
            · exact optOk_none
            · exact optOk_some h1
          · exact optOk_some (issueMove_ok _ _ _ _ h1)

theorem advance_ok (n : Nat) (s : State) (c : CoreId) (h : Sound Q s) : Sound Q (advance n s c) := by
  induction n generalizing s with
  | zero => exact h
  | succ n ih =>
    unfold advance
    extract_lets a
    split
    · exact h
    · split
      · exact h
      · split
        · exact h
        · rename_i e; exact ih _ (tryIssue_ok s c _ h _ e)

theorem advanceAll_ok (s : State) (c : CoreId) (h : Sound Q s) : Sound Q (advanceAll s c) := by
  unfold advanceAll
  repeat' first
    | assumption
    | with_reducible apply advance_ok

theorem accessCommand_ok (s : State) (c : CoreId) (i : AInstr) (h : Sound Q s) : Sound Q (accessCommand s c i) := by
  unfold accessCommand
  repeat' first
    | assumption
    | with_reducible apply advanceAll_ok
    | with_reducible apply updAccess_ok
    | dsimp only
    | split

theorem execRget_ok (core : CoreId) (m : MoveOp) (s : State) (h : Sound Q s) : outOk Q (execRget core m s) :=
  outOk_next (accessCommand_ok _ _ _ h)

theorem execWaitf_ok (core : CoreId) (eq : Bool) (src : Fin 16) (value : W32) (s : State) (h : Sound Q s) :
    outOk Q (execWaitf core eq src value s) :=
  outOk_next (accessCommand_ok _ _ _ h)

theorem execGath_ok (core : CoreId) (m : MoveOp) (s : State) (h : Sound Q s) : outOk Q (execGath core m s) :=
  outOk_next (accessCommand_ok _ _ _ h)

theorem execScat_ok (core : CoreId) (m : MoveOp) (s : State) (h : Sound Q s) : outOk Q (execScat core m s) :=
  outOk_next (accessCommand_ok _ _ _ h)

theorem execRput_ok (core : CoreId) (m : MoveOp) (s : State) (h : Sound Q s) : outOk Q (execRput core m s) :=
  outOk_next (accessCommand_ok _ _ _ h)

theorem execCollBcast_ok (core : CoreId) (m : MoveOp) (c : CollOp) (s : State) (h : Sound Q s) :
    outOk Q (execCollBcast core m c s) :=
  outOk_next (accessCommand_ok _ _ _ h)

theorem completeFlight_ok (s : State) (c : CoreId) (seq : ℕ) (h : Sound Q s) : Sound Q (completeFlight s c seq) := by
  unfold completeFlight
  repeat' first
    | assumption
    | with_reducible apply settleFault_ok
    | with_reducible apply updAccess_ok
    | with_reducible apply advanceAll_ok
    | with_reducible apply Core.settlePushes_ok
    | with_reducible refine Sound.updCore ?_ ?_
    | dsimp only
    | split

theorem execPop_ok (core : CoreId) (q : Fin 4) (token : Token) (s : State) (h : Sound Q s) : outOk Q (execPop core q token s) :=
  outOk_next (accessCommand_ok _ _ _ h)

theorem execBudgetExpiry_ok (core : CoreId) (seq : ℕ) (elapsed : W32) (s : State) (h : Sound Q s) :
    outOk Q (execBudgetExpiry core seq elapsed s) := by
  unfold execBudgetExpiry
  repeat' first
    | assumption
    | rfl
    | with_reducible apply outOk_next
    | with_reducible apply flightFault_ok
    | with_reducible apply accessFault_ok
    | dsimp only
    | split
    | with_reducible refine Sound.lit ?_ ?_ ?_

theorem execCollAr_ok (core : CoreId) (m : MoveOp) (c : CollOp) (s : State) (h : Sound Q s) : outOk Q (execCollAr core m c s) :=
  outOk_next (accessCommand_ok _ _ _ h)

theorem execLand_ok (core : CoreId) (m : MoveOp) (l : LandOp) (s : State) (h : Sound Q s) : outOk Q (execLand core m l s) :=
  outOk_next (accessCommand_ok _ _ _ h)

theorem execCollMcast_ok (core : CoreId) (m : MoveOp) (c : CollOp) (s : State) (h : Sound Q s) :
    outOk Q (execCollMcast core m c s) :=
  outOk_next (accessCommand_ok _ _ _ h)

theorem execLoop_ok (core : CoreId) (count : W16) (body : BitVec 10) (s : State) (h : Sound Q s) :
    outOk Q (execLoop core count body s) :=
  outOk_next (accessCommand_ok _ _ _ h)

theorem execFence_ok (core : CoreId) (s : State) (h : Sound Q s) : outOk Q (execFence core s) :=
  outOk_next (accessCommand_ok _ _ _ h)

theorem execAccessCompletion_ok (core : CoreId) (seq : ℕ) (s : State) (h : Sound Q s) :
    outOk Q (execAccessCompletion core seq s) :=
  outOk_next (completeFlight_ok _ _ _ h)

theorem execBudg_ok (core : CoreId) (budget : W32) (s : State) (h : Sound Q s) : outOk Q (execBudg core budget s) :=
  outOk_next (accessCommand_ok _ _ _ h)

theorem execCollA2av_ok (core : CoreId) (m : MoveOp) (c : CollOp) (s : State) (h : Sound Q s) :
    outOk Q (execCollA2av core m c s) :=
  outOk_next (accessCommand_ok _ _ _ h)

theorem pollFlag_ok (s : State) (c : CoreId) (f : Flight) (eq : Bool) (src : Fin 16) (value : W32) (h : Sound Q s) :
    Sound Q (pollFlag s c f eq src value) := by
  unfold pollFlag
  repeat' first
    | assumption
    | rfl
    | with_reducible apply advanceAll_ok
    | with_reducible apply updAccess_ok
    | dsimp only
    | split
    | with_reducible refine Sound.lit ?_ ?_ ?_

theorem execWaitfPoll_ok (core : CoreId) (s : State) (h : Sound Q s) : outOk Q (execWaitfPoll core s) := by
  unfold execWaitfPoll
  repeat' first
    | assumption
    | with_reducible apply outOk_next
    | with_reducible apply pollFlag_ok
    | split

theorem execCollAg_ok (core : CoreId) (m : MoveOp) (c : CollOp) (s : State) (h : Sound Q s) : outOk Q (execCollAg core m c s) :=
  outOk_next (accessCommand_ok _ _ _ h)

theorem execSth_ok (core : CoreId) (m : MoveOp) (s : State) (h : Sound Q s) : outOk Q (execSth core m s) :=
  outOk_next (accessCommand_ok _ _ _ h)

theorem execSetd_ok (core : CoreId) (f : SetdOp) (s : State) (h : Sound Q s) : outOk Q (execSetd core f s) :=
  outOk_next (accessCommand_ok _ _ _ h)

theorem execLdh_ok (core : CoreId) (m : MoveOp) (s : State) (h : Sound Q s) : outOk Q (execLdh core m s) :=
  outOk_next (accessCommand_ok _ _ _ h)

theorem execMovs_ok (core : CoreId) (m : MoveOp) (s : State) (h : Sound Q s) : outOk Q (execMovs core m s) :=
  outOk_next (accessCommand_ok _ _ _ h)

theorem execAtom_ok (core : CoreId) (m : MoveOp) (op : BitVec 4) (s : State) (h : Sound Q s) : outOk Q (execAtom core m op s) :=
  outOk_next (accessCommand_ok _ _ _ h)

theorem execPush_ok (core : CoreId) (f : PushOp) (s : State) (h : Sound Q s) : outOk Q (execPush core f s) :=
  outOk_next (accessCommand_ok _ _ _ h)

theorem execCollCinch_ok (core : CoreId) (m : MoveOp) (c : CollOp) (s : State) (h : Sound Q s) :
    outOk Q (execCollCinch core m c s) :=
  outOk_next (accessCommand_ok _ _ _ h)

theorem execCollRs_ok (core : CoreId) (m : MoveOp) (c : CollOp) (s : State) (h : Sound Q s) : outOk Q (execCollRs core m c s) :=
  outOk_next (accessCommand_ok _ _ _ h)

theorem execAdvd_ok (core : CoreId) (d : Fin 16) (restore : Bool) (disp : W32) (s : State) (h : Sound Q s) :
    outOk Q (execAdvd core d restore disp s) :=
  outOk_next (accessCommand_ok _ _ _ h)

/-! ## Landing -/

theorem unpark_ok (s : State) (i : ℕ) (g : Group) (l : Landing) (h : Sound Q s) : Sound Q (unpark s i g l) := by
  unfold unpark
  repeat' first
    | assumption
    | rfl
    | dsimp only
    | with_reducible refine Sound.lit ?_ ?_ ?_

theorem parkLanding_ok (s : State) (g : Group) (l : Landing) (h : Sound Q s) : Sound Q (parkLanding s g l) := by
  unfold parkLanding
  repeat' first
    | assumption
    | rfl
    | dsimp only
    | with_reducible refine Sound.lit ?_ ?_ ?_

theorem dropLanding_ok (s : State) (i : ℕ) (h : Sound Q s) : Sound Q (dropLanding s i) := by
  unfold dropLanding
  repeat' first
    | assumption
    | rfl
    | dsimp only
    | with_reducible refine Sound.lit ?_ ?_ ?_

theorem queuePass_ok (s : State) (p : Pass) (h : Sound Q s) : Sound Q (queuePass s p) := by
  unfold queuePass
  repeat' first
    | assumption
    | rfl
    | dsimp only
    | with_reducible refine Sound.lit ?_ ?_ ?_

theorem applyLanding_ok (s : State) (g : Group) (l : Landing) (h : Sound Q s) : Sound Q (applyLanding s g l) := by
  unfold applyLanding
  repeat' first
    | assumption
    | with_reducible apply hbmPut_ok
    | with_reducible apply orOverflow_ok
    | with_reducible apply storeHbm_ok
    | with_reducible apply queuePass_ok
    | refine foldl_sound ?_ ?_
    | intro _
    | dsimp only
    | split

theorem secondReady_ok (s : State) (g : Group) (h : Sound Q s) : Sound Q (secondReady s g) := by
  unfold secondReady
  repeat' first
    | assumption
    | rfl
    | with_reducible apply queuePass_ok
    | refine foldl_sound ?_ ?_
    | intro _
    | dsimp only
    | split
    | with_reducible refine Sound.lit ?_ ?_ ?_

theorem refuseLanding_ok (s : State) (i : ℕ) (h : Sound Q s) : Sound Q (refuseLanding s i) := by
  unfold refuseLanding
  repeat' first
    | assumption
    | rfl
    | dsimp only
    | with_reducible refine Sound.lit ?_ ?_ ?_

/-! ## Execute -/

theorem Core.countBeats_ok (k : Core) (cen : Bool) (set : Fin 16) (fmt : BitVec 4) (t0 per : ℕ) (ys : List Num)
    (cs : List Conv) (p : Bool) (h : k.Sound) :
    (Core.countBeats k cen set fmt t0 per ys cs p).Sound := by
  unfold Core.countBeats
  repeat' first
    | assumption
    | dsimp only
    | split
    | with_reducible refine Core.Sound.lit ?_

theorem Core.pushPart_ok (k : Core) (q : Fin 4) (t : Token) (h : k.Sound) : (k.pushPart q t).1.Sound := by
  unfold Core.pushPart
  split
  · exact h
  · refine ⟨h.spad, vset_le h.aq _ ?_, h.eq⟩
    simp only [List.length_append, List.length_singleton]; omega

theorem Core.releaseHalf_ok (k : Core) (x1 : Fin 2) (h : k.Sound) : (Core.releaseHalf k x1).Sound := by
  unfold Core.releaseHalf
  repeat' first
    | assumption
    | with_reducible apply Core.pushPart_ok
    | dsimp only
    | split
    | with_reducible refine Core.Sound.lit ?_

theorem Core.acceptToken_ok (k : Core) (w : TaccWait) (h : k.Sound) : (Core.acceptToken k w).Sound := by
  unfold Core.acceptToken
  repeat' first
    | assumption
    | with_reducible apply Core.pushPart_ok
    | dsimp only
    | split
    | with_reducible refine Core.Sound.lit ?_

theorem Core.retryPart_ok (k : Core) (h : k.Sound) : (Core.retryPart k).Sound := by
  unfold Core.retryPart
  repeat' first
    | assumption
    | with_reducible apply Core.releaseHalf_ok
    | with_reducible apply Core.acceptToken_ok
    | refine foldl_coreSound ?_ ?_
    | split

theorem slipFault_ok (s : State) (c : CoreId) (p : Slip) (h : Sound Q s) : Sound Q (slipFault s c p) := by
  unfold slipFault
  repeat' first
    | assumption
    | with_reducible apply streamFaultAt_ok

theorem Core.flushBeats_ok (k : Core) (t : ℕ) (h : k.Sound) : (Core.flushBeats k t).Sound := by
  unfold Core.flushBeats
  repeat' first
    | assumption
    | dsimp only
    | with_reducible refine Core.Sound.lit ?_

theorem Core.countCycles_ok (k : Core) (free : ℕ) (halving : Bool) (t : ℕ) (h : k.Sound) :
    (Core.countCycles k free halving t).Sound := by
  unfold Core.countCycles
  repeat' first
    | assumption
    | split
    | with_reducible refine Core.Sound.lit ?_

theorem Core.passedX_ok (k : Core) (free : ℕ) (halving : Bool) (t base : ℕ) (h : k.Sound) :
    (Core.passedX k free halving t base).Sound := by
  unfold Core.passedX
  repeat' first
    | assumption
    | with_reducible apply Core.countCycles_ok
    | dsimp only
    | with_reducible refine Core.Sound.lit ?_

theorem State.passes_ok (s : State) (c : CoreId) (f : Core → Core) (t base : Nat) (h : Sound Q s)
    (hf : ∀ k : Core, k.Sound → (f k).Sound) : Sound Q (s.passes c f t base) := by
  unfold State.passes
  exact (h.updCore fun hk => Core.passedX_ok _ _ _ _ _ (hf _ hk)).lit rfl rfl

theorem passX_ok (s : State) (c : CoreId) (t : ℕ) (h : Sound Q s) : Sound Q (passX s c t) := by
  unfold passX
  repeat' first
    | assumption
    | with_reducible apply State.passes_ok
    | intro _

theorem updExec_ok (s : State) (c : CoreId) (f : Execute → Execute) (h : Sound Q s) : Sound Q (updExec s c f) := by
  unfold updExec
  repeat' first
    | assumption
    | with_reducible refine Sound.updCore ?_ ?_
    | intro _
    | with_reducible refine Core.Sound.lit ?_

theorem tileFault_ok (s : State) (c : CoreId) (i : XInstr) (t : ℕ) (slot : BitVec 5) (st : SlotState) (cause : ℕ)
    (own : Token) (h : Sound Q s) :
    Sound Q (tileFault s c i t slot st cause own) := by
  unfold tileFault
  repeat' first
    | assumption
    | with_reducible apply streamFaultAt_ok

theorem Core.setSlot_ok (k : Core) (e : Fin 3) (n : ℕ) (v : Slot) (h : k.Sound) : (Core.setSlot k e n v).Sound := by
  unfold Core.setSlot
  repeat' first
    | assumption
    | with_reducible refine Core.Sound.lit ?_

theorem Core.openWindow_ok (k : Core) (i : XInstr) (p : Plan) (t readyAt : ℕ) (slot : Option (Fin 3 × ℕ)) (half : Bool)
    (h : k.Sound) :
    (Core.openWindow k i p t readyAt slot half).Sound := by
  unfold Core.openWindow
  repeat' first
    | assumption
    | dsimp only
    | split
    | with_reducible refine Core.Sound.lit ?_

theorem doMma_ok (s : State) (c : CoreId) (f : MmaOp) (t : ℕ) (h : Sound Q s) : Sound Q (doMma s c f t) := by
  unfold doMma
  repeat' first
    | assumption
    | with_reducible apply tileFault_ok
    | with_reducible apply Core.setSlot_ok
    | with_reducible apply Core.openWindow_ok
    | with_reducible apply passX_ok
    | with_reducible refine Sound.updCore ?_ ?_
    | intro _
    | dsimp only
    | split
    | with_reducible refine Core.Sound.lit ?_

theorem Core.writeScales_ok (k : Core) (f : BitVec 5) (scales : List Byte) (p : Bool) (h : k.Sound) :
    (Core.writeScales k f scales p).Sound := by
  unfold Core.writeScales
  repeat' first
    | assumption
    | with_reducible apply writeElems_ok
    | split

theorem doDrn_ok (s : State) (c : CoreId) (f : DrnOp) (t : ℕ) (h : Sound Q s) : Sound Q (doDrn s c f t) := by
  unfold doDrn
  repeat' first
    | assumption
    | rfl
    | with_reducible apply streamFaultAt_ok
    | with_reducible apply Core.openWindow_ok
    | with_reducible apply Core.countBeats_ok
    | with_reducible apply Core.writeScales_ok
    | with_reducible apply Core.setSlot_ok
    | with_reducible apply writeElems_ok
    | with_reducible apply passX_ok
    | with_reducible apply tileFault_ok
    | with_reducible refine Sound.updCore ?_ ?_
    | intro _
    | dsimp only
    | split
    | with_reducible refine Sound.lit ?_ ?_ ?_
    | with_reducible refine Core.Sound.lit ?_

theorem doTacc_ok (s : State) (c : CoreId) (f : TaccOp) (t : ℕ) (h : Sound Q s) : Sound Q (doTacc s c f t) := by
  unfold doTacc
  repeat' first
    | assumption
    | with_reducible apply tileFault_ok
    | with_reducible apply Core.setSlot_ok
    | with_reducible apply passX_ok
    | with_reducible refine Sound.updCore ?_ ?_
    | intro _
    | dsimp only
    | split
    | with_reducible refine Core.Sound.lit ?_

theorem doVop_ok (s : State) (c : CoreId) (f : VopOp) (t : ℕ) (h : Sound Q s) : Sound Q (doVop s c f t) := by
  unfold doVop
  repeat' first
    | assumption
    | with_reducible apply Core.openWindow_ok
    | with_reducible apply Core.countBeats_ok
    | with_reducible apply Core.writeScales_ok
    | with_reducible apply writeElems_ok
    | with_reducible apply passX_ok
    | with_reducible refine Sound.updCore ?_ ?_
    | intro _
    | dsimp only
    | split
    | with_reducible refine Core.Sound.lit ?_

theorem doRst_ok (s : State) (c : CoreId) (f : RstOp) (t : ℕ) (h : Sound Q s) : Sound Q (doRst s c f t) := by
  unfold doRst
  repeat' first
    | assumption
    | with_reducible apply Core.openWindow_ok
    | with_reducible apply Core.countBeats_ok
    | with_reducible apply writeElems_ok
    | with_reducible apply spadWrite_ok
    | with_reducible apply passX_ok
    | refine foldl_coreSound ?_ ?_
    | with_reducible refine Sound.updCore ?_ ?_
    | intro _
    | dsimp only
    | split
    | with_reducible refine Core.Sound.lit ?_

theorem doXps_ok (s : State) (c : CoreId) (f : XpsOp) (t : ℕ) (h : Sound Q s) : Sound Q (doXps s c f t) := by
  unfold doXps
  repeat' first
    | assumption
    | with_reducible apply Core.openWindow_ok
    | with_reducible apply writeElems_ok
    | with_reducible apply passX_ok
    | with_reducible refine Sound.updCore ?_ ?_
    | intro _
    | dsimp only
    | split
    | with_reducible refine Core.Sound.lit ?_

theorem doCenf_ok (s : State) (c : CoreId) (set dst : Fin 16) (tid : BitVec 24) (t : ℕ) (h : Sound Q s) :
    Sound Q (doCenf s c set dst tid t) := by
  unfold doCenf
  repeat' first
    | assumption
    | with_reducible apply Core.flushBeats_ok
    | with_reducible apply scatterSpad_ok
    | with_reducible apply Core.openWindow_ok
    | with_reducible apply passX_ok
    | with_reducible apply consume_ok
    | with_reducible refine Sound.updCore ?_ ?_
    | intro _
    | split
    | with_reducible refine Core.Sound.lit ?_

theorem runX_ok (s : State) (c : CoreId) (i : XInstr) (t : Nat) (h : Sound Q s) : optOk Q (runX s c i t) := by
  have pass : ∀ u : State, Sound Q u → optOk Q (some (passX u c t)) := fun u hu => optOk_some (passX_ok _ _ _ hu)
  have upd : ∀ f : Core → Core, (∀ k : Core, k.Sound → (f k).Sound) → Sound Q (s.updCore c f) := fun f hf => h.updCore (hf _)
  unfold runX
  split
  · exact pass _ (updExec_ok _ _ _ h)
  · exact pass _ (updExec_ok _ _ _ h)
  · exact optOk_some ((upd _ fun _ hk => hk.lit).lit rfl rfl)
  · exact optOk_some (State.passes_ok _ _ _ _ _ h fun _ hk => hk)
  · dsimp only
    split
    · exact optOk_none
    · rename_i f g
      refine pass _ (h.updCore fun hk => ⟨hk.spad, hk.aq, vset_le hk.eq _ ?_⟩)
      simp only [List.length_append, List.length_singleton]; omega
  · rename_i q tok
    split
    · exact optOk_none
    · rename_i x rest e
      split
      · refine pass _ (h.updCore fun hk => ⟨hk.spad, vset_le hk.aq _ ?_, hk.eq⟩)
        have := hk.aq q
        rw [e] at this
        simp only [List.length_cons] at this; omega
      · exact optOk_some (streamFaultAt_ok _ _ _ _ h)
  · exact optOk_some (doMma_ok _ _ _ _ h)
  · exact optOk_some (doDrn_ok _ _ _ _ h)
  · exact optOk_some (doTacc_ok _ _ _ _ h)
  · exact optOk_some (doVop_ok _ _ _ _ h)
  · exact optOk_some (doRst_ok _ _ _ _ h)
  · exact optOk_some (doXps_ok _ _ _ _ h)
  · exact pass _ (upd _ fun _ hk => hk.lit)
  · exact optOk_some (doCenf_ok _ _ _ _ _ _ h)

theorem tryX_ok (s : State) (c : CoreId) (delta : W16) (i : XInstr) (h : Sound Q s) : optOk Q (tryX s c delta i) := by
  unfold tryX
  have h1 : ∀ t, Sound Q (s.updCore c fun k => { k.flushBeats t with exec := (k.flushBeats t).exec.prune t }) :=
    fun t => h.updCore fun hk => (Core.flushBeats_ok _ t hk).lit
  dsimp only
  split
  · exact optOk_some (slipFault_ok _ _ _ h)
  · split
    · exact optOk_none
    · split
      · exact optOk_some (streamFaultAt_ok _ _ _ _ (h1 _))
      · split
        · split
          · exact optOk_some (slipFault_ok _ _ _ (h1 _))
          · exact runX_ok _ _ _ _ (updExec_ok _ _ _ (h1 _))
        · exact runX_ok _ _ _ _ (h1 _)

theorem advanceX_ok (n : Nat) (s : State) (c : CoreId) (h : Sound Q s) : Sound Q (advanceX n s c) := by
  induction n generalizing s with
  | zero => exact h
  | succ n ih =>
    unfold advanceX
    extract_lets a
    split
    · exact h
    · split
      · exact h
      · split
        · exact updExec_ok _ _ _ h
        · rename_i e; exact ih _ (tryX_ok s c _ _ h _ e)

theorem advanceXAll_ok (s : State) (c : CoreId) (h : Sound Q s) : Sound Q (advanceXAll s c) := by
  unfold advanceXAll
  repeat' first
    | assumption
    | with_reducible apply advanceX_ok

theorem execQueueWaitResume_ok (core : CoreId) (stream : Stream) (s : State) (h : Sound Q s) :
    outOk Q (execQueueWaitResume core stream s) := by
  unfold execQueueWaitResume
  repeat' first
    | assumption
    | with_reducible apply outOk_next
    | with_reducible apply advanceAll_ok
    | with_reducible apply Core.retryPart_ok
    | with_reducible apply Core.settlePushes_ok
    | with_reducible apply advanceXAll_ok
    | with_reducible refine Sound.updCore ?_ ?_
    | intro _
    | split

theorem execCommand_ok (s : State) (c : CoreId) (delta : W16) (i : XInstr) (h : Sound Q s) :
    Sound Q (execCommand s c delta i) := by
  unfold execCommand
  repeat' first
    | assumption
    | with_reducible apply advanceXAll_ok
    | with_reducible apply updExec_ok
    | dsimp only
    | split

theorem execLoopx_ok (core : CoreId) (delta count : W16) (body : BitVec 10) (s : State) (h : Sound Q s) :
    outOk Q (execLoopx core delta count body s) :=
  outOk_next (execCommand_ok _ _ _ _ h)

theorem execPope_ok (core : CoreId) (delta : W16) (q : Fin 4) (token : Token) (s : State) (h : Sound Q s) :
    outOk Q (execPope core delta q token s) :=
  outOk_next (execCommand_ok _ _ _ _ h)

theorem execVop_ok (core : CoreId) (delta : W16) (f : VopOp) (s : State) (h : Sound Q s) : outOk Q (execVop core delta f s) :=
  outOk_next (execCommand_ok _ _ _ _ h)

theorem execRst_ok (core : CoreId) (delta : W16) (f : RstOp) (s : State) (h : Sound Q s) : outOk Q (execRst core delta f s) :=
  outOk_next (execCommand_ok _ _ _ _ h)

theorem execDrn_ok (core : CoreId) (delta : W16) (f : DrnOp) (s : State) (h : Sound Q s) : outOk Q (execDrn core delta f s) :=
  outOk_next (execCommand_ok _ _ _ _ h)

theorem dropParts_ok (s : State) (ps : List Contribution) (h : Sound Q s) : Sound Q (dropParts s ps) := by
  unfold dropParts
  repeat' first
    | assumption
    | rfl
    | with_reducible refine Sound.lit ?_ ?_ ?_

theorem refusedStall_ok (s : State) (op : Byte) (elapsed : W32) (h : Sound Q s) : Sound Q (refusedStall s op elapsed) := by
  unfold refusedStall
  repeat' first
    | assumption
    | rfl
    | with_reducible apply streamFault_ok
    | dsimp only
    | split
    | with_reducible refine Sound.lit ?_ ?_ ?_

theorem execAdvx_ok (core : CoreId) (delta : W16) (x : Fin 16) (restore : Bool) (disp : W32) (s : State) (h : Sound Q s) :
    outOk Q (execAdvx core delta x restore disp s) :=
  outOk_next (execCommand_ok _ _ _ _ h)

theorem releaseHalves_ok (s : State) (hs : List (CoreId × Bool)) (h : Sound Q s) : Sound Q (releaseHalves s hs) := by
  unfold releaseHalves
  repeat' first
    | assumption
    | with_reducible apply Core.releaseHalf_ok
    | refine foldl_sound ?_ ?_
    | with_reducible refine Sound.updCore ?_ ?_
    | intro _

theorem execTreeBudgetExpiry_ok (core : CoreId) (op : Byte) (chip : Bool) (elapsed : W32) (s : State) (h : Sound Q s) :
    outOk Q (execTreeBudgetExpiry core op chip elapsed s) := by
  unfold execTreeBudgetExpiry
  repeat' first
    | assumption
    | with_reducible apply outOk_next
    | with_reducible apply streamFault_ok
    | with_reducible apply refusedStall_ok
    | dsimp only
    | split

theorem execCenf_ok (core : CoreId) (delta : W16) (set dst : Fin 16) (tid : BitVec 24) (s : State) (h : Sound Q s) :
    outOk Q (execCenf core delta set dst tid s) :=
  outOk_next (execCommand_ok _ _ _ _ h)

theorem dropTree_ok (s : State) (cl : Fin 8) (op : Byte) (chip : Bool) (h : Sound Q s) : Sound Q (dropTree s cl op chip) := by
  unfold dropTree
  repeat' first
    | assumption
    | with_reducible apply dropParts_ok

theorem sumArrives_ok (s : State) (c : CoreId) (op : Byte) (h : Sound Q s) : Sound Q (sumArrives s c op) := by
  unfold sumArrives
  repeat' first
    | assumption
    | with_reducible exact Sound.cores (by assumption) _
    | with_reducible apply orOverflow_ok
    | with_reducible apply dropTree_ok
    | with_reducible apply Core.setSlot_ok
    | with_reducible apply Core.acceptToken_ok
    | with_reducible refine Sound.updCore ?_ ?_
    | intro _
    | dsimp only
    | split

theorem chipFinish_ok (s : State) (op : Byte) (h : Sound Q s) : Sound Q (chipFinish s op) := by
  unfold chipFinish
  repeat' first
    | assumption
    | rfl
    | with_reducible apply orOverflow_ok
    | with_reducible apply dropParts_ok
    | with_reducible apply newRun_ok
    | dsimp only
    | split
    | with_reducible refine Sound.lit ?_ ?_ ?_

theorem halfTaken_ok (s : State) (c : CoreId) (half : Bool) (h : Sound Q s) : Sound Q (halfTaken s c half) := by
  unfold halfTaken
  repeat' first
    | assumption
    | rfl
    | with_reducible apply Core.releaseHalf_ok
    | with_reducible apply chipFinish_ok
    | with_reducible refine Sound.updCore ?_ ?_
    | dsimp only
    | split
    | with_reducible refine Sound.lit ?_ ?_ ?_

theorem execPushe_ok (core : CoreId) (delta : W16) (f : PushOp) (s : State) (h : Sound Q s) :
    outOk Q (execPushe core delta f s) :=
  outOk_next (execCommand_ok _ _ _ _ h)

theorem execSetx_ok (core : CoreId) (delta : W16) (f : SetxOp) (s : State) (h : Sound Q s) : outOk Q (execSetx core delta f s) :=
  outOk_next (execCommand_ok _ _ _ _ h)

theorem execMma_ok (core : CoreId) (delta : W16) (f : MmaOp) (s : State) (h : Sound Q s) : outOk Q (execMma core delta f s) :=
  outOk_next (execCommand_ok _ _ _ _ h)

theorem execAwls_ok (core : CoreId) (delta : W16) (lane : Fin 4) (tid : BitVec 24) (base : BitVec 40) (s : State)
    (h : Sound Q s) :
    outOk Q (execAwls core delta lane tid base s) :=
  outOk_next (execCommand_ok _ _ _ _ h)

theorem execXps_ok (core : CoreId) (delta : W16) (f : XpsOp) (s : State) (h : Sound Q s) : outOk Q (execXps core delta f s) :=
  outOk_next (execCommand_ok _ _ _ _ h)

theorem execWaitc_ok (core : CoreId) (delta : W16) (n : W32) (s : State) (h : Sound Q s) : outOk Q (execWaitc core delta n s) :=
  outOk_next (execCommand_ok _ _ _ _ h)

theorem execTacc_ok (core : CoreId) (delta : W16) (f : TaccOp) (s : State) (h : Sound Q s) : outOk Q (execTacc core delta f s) :=
  outOk_next (execCommand_ok _ _ _ _ h)

theorem execTreeSumArrival_ok (core : CoreId) (op : Byte) (s : State) (h : Sound Q s) : outOk Q (execTreeSumArrival core op s) :=
  outOk_next (sumArrives_ok _ _ _ h)

theorem execTreeHalfTaken_ok (core : CoreId) (half : Bool) (s : State) (h : Sound Q s) :
    outOk Q (execTreeHalfTaken core half s) :=
  outOk_next (halfTaken_ok _ _ _ h)

end Sys2Proof.Machine
end

