-- ==== Sys2Proof/Laws/Streams.lean ====
section
/-! SUPPORT. What the shared operations of the streams do when a core's stream is free, and that operations on memory and on the
fabric leave the cores as they are. -/

namespace Sys2Proof.Machine

/-! ## Updates of one core -/

theorem updCore_updCore (s : State) (c : CoreId) (f g : Core → Core) : (s.updCore c f).updCore c g = s.updCore c fun k => g (f k) := by
  simp [State.updCore, vmod]

theorem updCore_congr (s : State) (c : CoreId) (f g : Core → Core) (h : f (s.core c) = g (s.core c)) : s.updCore c f = s.updCore c g := by
  unfold State.updCore vmod; unfold State.core at h; rw [h]

theorem updAccess_updAccess (s : State) (c : CoreId) (f g : Access → Access) :
    updAccess (updAccess s c f) c g = updAccess s c fun a => g (f a) := by
  simp [updAccess, State.updCore, vmod]

theorem updAccess_updCore (s : State) (c : CoreId) (f : Access → Access) (g : Core → Core) :
    (updAccess s c f).updCore c g = s.updCore c fun k => g { k with access := f k.access } := by
  simp [updAccess, State.updCore, vmod]

/-! ## Operations that neither read nor write the cores -/

/-- The state with other cores. -/
def State.withCores (s : State) (C : Vector Core 64) : State := { s with cores := C }

section
variable (s : State) (C : Vector Core 64)
theorem dropEvent_withCores : dropEvent (s.withCores C) = (dropEvent s).withCores C := rfl
theorem writeEvent_withCores (e : Event) : writeEvent (s.withCores C) e = (writeEvent s e).withCores C := by
  have h : (s.withCores C).hlk = s.hlk := rfl
  unfold writeEvent
  rw [h]
  dsimp only
  split
  · rfl
  · rfl
theorem raiseEvent_withCores (n : Nat) (d : List Byte) : raiseEvent (s.withCores C) n d = (raiseEvent s n d).withCores C := by
  have h : (s.withCores C).hlk = s.hlk := rfl
  unfold raiseEvent
  rw [h]
  dsimp only
  split
  · exact writeEvent_withCores s C _
  · split <;> rfl
theorem logRecord_withCores (r : Record) : logRecord (s.withCores C) r = (logRecord s r).withCores C :=
  raiseEvent_withCores { s with flt := _ } C _ _
theorem consume_withCores (a : Nat) (c : Option CoreId) (n : Nat) : consume (s.withCores C) a c n = (consume s a c n).withCores C := by
  have h : (s.withCores C).job = s.job := rfl
  unfold consume
  rw [h]
  dsimp only
  split
  · rfl
  · exact logRecord_withCores { s with flt := _, job := _ } C _
theorem settleLine_withCores (l : Nat) (p v : Bool) : settleLine (s.withCores C) l p v = (settleLine s l p v).withCores C := by
  unfold settleLine
  dsimp only
  split
  · exact consume_withCores { s with mem := _ } C _ _ _
  · rfl
theorem wcbWriteback_withCores (k : Fin 24) (e : Wcb) : wcbWriteback (s.withCores C) k e = (wcbWriteback s k e).withCores C :=
  settleLine_withCores { s with mem := _ } C _ _ _
theorem classRead_withCores (b l e : Nat) (w : Bool) : classRead (s.withCores C) b l e w = (classRead s b l e w).withCores C := by
  have h : readClass (s.withCores C) l e = readClass s l e := rfl
  unfold classRead
  rw [h]
  split
  · rfl
  · rfl
  · split <;> rfl
theorem wcbModify_withCores (k : Fin 24) (e : Wcb) : wcbModify (s.withCores C) k e = (wcbModify s k e).withCores C := by
  unfold wcbModify
  exact (congrArg (wcbWriteback · k e) (classRead_withCores { s with free := _ } C _ _ _ _)).trans (wcbWriteback_withCores _ C k e)
theorem wcbMerge_withCores (k : Fin 24) (l o n : Nat) (p v : Bool) :
    wcbMerge (s.withCores C) k l o n p v = (wcbMerge s k l o n p v).withCores C := by
  have h : (s.withCores C).mem = s.mem := rfl
  unfold wcbMerge
  rw [h]
  dsimp only
  split
  · split
    · exact settleLine_withCores { s with mem := _ } C _ _ _
    · rfl
  · split
    · split
      · rw [wcbModify_withCores]; rfl
      · rfl
    · rfl
theorem storeLine_withCores (a : Nat) (bs : List Byte) (p : Bool) : storeLine (s.withCores C) a bs p = (storeLine s a bs p).withCores C := by
  unfold storeLine
  have e1 : keyOf (s.withCores C) a = keyOf s a := rfl
  have e2 : ctrlOf (s.withCores C) a = ctrlOf s a := rfl
  have e3 : (s.withCores C).mem = s.mem := rfl
  have e4 : (s.withCores C).job = s.job := rfl
  have e5 : ∀ r o, fingerUnit (s.withCores C) r o = fingerUnit s r o := fun _ _ => rfl
  have e6 : (s.withCores C).upd = s.upd := rfl
  rw [e1, e2, e3, e4, e6]
  simp only [e5]
  generalize keyOf s a = key
  generalize ctrlOf s a = k
  have tail : ∀ t : State, ∀ v : Bool,
      (if bs.length = 64 then
        settleLine { t.withCores C with mem := { (t.withCores C).mem with wcb := vmod (t.withCores C).mem.wcb k (·.filter (·.line != key / 64)) } } (key / 64) p v
      else wcbMerge (t.withCores C) k (key / 64) (a % 64) bs.length p v) =
      State.withCores (if bs.length = 64 then
        settleLine { t with mem := { t.mem with wcb := vmod t.mem.wcb k (·.filter (·.line != key / 64)) } } (key / 64) p v
      else wcbMerge t k (key / 64) (a % 64) bs.length p v) C := by
    intro t v
    split
    · exact settleLine_withCores { t with mem := _ } C _ _ _
    · exact wcbMerge_withCores t C _ _ _ _ _ _
  generalize regionOf s.mem.regions a = reg
  rcases reg with _ | ⟨r, w⟩
  · dsimp only
    split
    · rfl
    · exact tail { s with mem := _ } _
  · cases w
    · dsimp only
      split
      · rfl
      · exact tail { s with mem := _ } _
    · by_cases hr : r.sided
      · simp only [hr]
        split
        · rfl
        · exact tail { s with upd := _, mem := _ } _
      · simp only [hr]
        split
        · rfl
        · exact tail { s with mem := _ } _
theorem storeHbmP_withCores (n : Nat) (a : Nat) (bs : List PByte) : storeHbmP n (s.withCores C) a bs = (storeHbmP n s a bs).withCores C := by
  induction n generalizing s a bs with
  | zero => rfl
  | succ n ih =>
    unfold storeHbmP
    split
    · rfl
    · dsimp only; rw [storeLine_withCores, ih]
theorem hbmPut_withCores (a : Nat) (bs : List PByte) : hbmPut (s.withCores C) a bs = (hbmPut s a bs).withCores C := storeHbmP_withCores s C _ a bs
theorem scatterHbm_withCores (d : Desc) (bs : List PByte) : scatterHbm (s.withCores C) d bs = (scatterHbm s d bs).withCores C := by
  unfold scatterHbm
  generalize d.rows = os
  induction os generalizing s bs with
  | nil => rfl
  | cons o os ih => simp only [scatterRows]; rw [hbmPut_withCores, ih]
theorem storeRow_withCores (d : Desc) (bs : List PByte) (r : Option Nat × Nat) :
    storeRow d bs (s.withCores C) r = (storeRow d bs s r).withCores C := by
  unfold storeRow
  split
  · exact hbmPut_withCores s C _ _
  · rfl
theorem storeRows_withCores (d : Desc) (ix : List W32) (bs : List PByte) :
    storeRows (s.withCores C) d ix bs = (storeRows s d ix bs).withCores C := by
  unfold storeRows
  generalize (tableRows d ix).zipIdx = l
  induction l generalizing s with
  | nil => rfl
  | cons x l ih => simp only [List.foldl_cons]; rw [storeRow_withCores, ih]
theorem atomicEnter_withCores (k : Fin 24) (l : Nat) : atomicEnter (s.withCores C) k l = (atomicEnter s k l).withCores C := by
  unfold atomicEnter
  have h : (s.withCores C).mem = s.mem := rfl
  rw [h]
  split
  · rw [wcbWriteback_withCores]; rfl
  · rfl
theorem noteTouch_withCores (fmt op : BitVec 4) (a : Nat) : noteTouch (s.withCores C) fmt op a = (noteTouch s fmt op a).withCores C := by
  unfold noteTouch
  have h : (s.withCores C).mem = s.mem := rfl
  have h2 : (s.withCores C).upd = s.upd := rfl
  rw [h, h2]
  split
  · split
    · dsimp only; rw [apply_ite (State.withCores · C)]; rfl
    · rfl
  · rfl
theorem atomicElem_withCores (fmt op : BitVec 4) (a : Nat) (v : W32) :
    atomicElem (s.withCores C) fmt op a v = (atomicElem s fmt op a v).withCores C := by
  unfold atomicElem
  have e1 : keyOf (s.withCores C) a = keyOf s a := rfl
  have e2 : ctrlOf (s.withCores C) a = ctrlOf s a := rfl
  have e5 : viaAliasW (s.withCores C) a = viaAliasW s a := rfl
  have e6 : (s.withCores C).job = s.job := rfl
  rw [e1, e2, e5, e6]
  dsimp only
  rw [atomicEnter_withCores]
  generalize atomicEnter s (ctrlOf s a) (keyOf s a / 64) = t
  have e3 : linePoison (t.withCores C) = linePoison t := rfl
  rw [e3]
  split
  · rfl
  · have e4 : ∀ (u : State) b, orOverflow (u.withCores C) b = (orOverflow u b).withCores C := by
      intro u b; unfold orOverflow; split <;> rfl
    let r := atomicValue fmt op (BitVec.ofNat 32 (leNat (cellsRead (keyOf s a) (atomBytes fmt) t.mem.cells))) v
    let u : State := if s.job.replay.isSome && viaAliasW s a then t else
      { t with mem := { t.mem with cells := cellsWrite (keyOf s a) (leBytes (atomBytes fmt) r.1.toNat) t.mem.cells } }
    have e7 : (if (s.job.replay.isSome && viaAliasW s a) = true then t.withCores C else
        { t.withCores C with mem := { (t.withCores C).mem with cells := cellsWrite (keyOf s a) (leBytes (atomBytes fmt) r.1.toNat) (t.withCores C).mem.cells } }) =
        u.withCores C := by dsimp only [u]; split <;> rfl
    refine (congrArg (fun x => noteTouch (orOverflow x r.2) fmt op a) e7).trans ?_
    exact (congrArg (noteTouch · fmt op a) (e4 u r.2)).trans (noteTouch_withCores _ C _ _ _)
theorem atomicPoison_withCores (a : Nat) : atomicPoison (s.withCores C) a = (atomicPoison s a).withCores C := by
  unfold atomicPoison
  have e1 : keyOf (s.withCores C) a = keyOf s a := rfl
  have e2 : ctrlOf (s.withCores C) a = ctrlOf s a := rfl
  have e3 : (s.withCores C).mem = s.mem := rfl
  have e4 : viaAliasW (s.withCores C) a = viaAliasW s a := rfl
  have e5 : (s.withCores C).job = s.job := rfl
  rw [e1, e2, e4, e5]
  dsimp only
  rw [atomicEnter_withCores, settleLine_withCores]
  split <;> rfl
/-- A fold of operations that commute with a change of the cores commutes with it. -/
theorem foldl_withCores {α : Type} (g : State → α → State) (hg : ∀ s x, g (State.withCores s C) x = (g s x).withCores C) (l : List α) :
    l.foldl g (s.withCores C) = (l.foldl g s).withCores C := by
  induction l generalizing s with
  | nil => rfl
  | cons x l ih => simp only [List.foldl_cons]; rw [hg, ih]
theorem atomicMany_withCores (fmt op : BitVec 4) (es : List (Nat × List PByte)) :
    atomicMany (s.withCores C) fmt op es = (atomicMany s fmt op es).withCores C := by
  unfold atomicMany
  dsimp only
  have e1 := foldl_withCores s C (fun (t : State) (e : Nat × List PByte) => atomicPoison t e.1) (fun s x => atomicPoison_withCores s C _)
    (es.filter fun e => e.2.any (·.2))
  rw [e1]
  generalize (es.filter fun e => e.2.any (·.2)).foldl (fun (t : State) (e : Nat × List PByte) => atomicPoison t e.1) s = u
  apply foldl_withCores
  intro s x
  rw [atomicElem_withCores]
theorem queueGet_withCores (c : CoreId) (seq : Nat) (chip : Chip) (b : Bool) (p : Nat × Nat × Nat) :
    queueGet c seq chip b (s.withCores C) p = (queueGet c seq chip b s p).withCores C := rfl
theorem queueAtom_withCores (c : CoreId) (seq : Nat) (chip : Chip) (fmt op : BitVec 4) (d : List PByte) (p : Nat × Nat × Nat) :
    queueAtom c seq chip fmt op d (s.withCores C) p = (queueAtom c seq chip fmt op d s p).withCores C := rfl
end

/-- What commutes with any change of the cores commutes with the change of one, and leaves the cores. -/
theorem updCore_of_withCores (F : State → State) (h : ∀ s C, F (State.withCores s C) = (F s).withCores C) (s : State) (c : CoreId)
    (f : Core → Core) : F (s.updCore c f) = (F s).updCore c f := by
  have hc : (F s).cores = s.cores := by
    have := h s s.cores
    have h2 : s.withCores s.cores = s := rfl
    rw [h2] at this
    have := congrArg State.cores this
    exact this
  show F (s.withCores (s.updCore c f).cores) = _
  rw [h]
  simp only [State.withCores, State.updCore, hc]

/-! ## The packets of a remote operation -/

theorem foldl_queueGet (c : CoreId) (seq : Nat) (chip : Chip) (b : Bool) (l : List (Nat × Nat × Nat)) (s : State) (f : Core → Core) :
    l.foldl (queueGet c seq chip b) (s.updCore c f) = (l.foldl (queueGet c seq chip b) s).updCore c f :=
  updCore_of_withCores (fun s => l.foldl (queueGet c seq chip b) s)
    (fun s C => foldl_withCores s C _ (fun s x => queueGet_withCores s C c seq chip b x) l) s c f
theorem foldl_queueAtom (c : CoreId) (seq : Nat) (chip : Chip) (fmt op : BitVec 4) (d : List PByte) (l : List (Nat × Nat × Nat)) (s : State) (f : Core → Core) :
    l.foldl (queueAtom c seq chip fmt op d) (s.updCore c f) = (l.foldl (queueAtom c seq chip fmt op d) s).updCore c f :=
  updCore_of_withCores (fun s => l.foldl (queueAtom c seq chip fmt op d) s)
    (fun s C => foldl_withCores s C _ (fun s x => queueAtom_withCores s C c seq chip fmt op d x) l) s c f
theorem foldl_queuePut (c : CoreId) (seq : Nat) (chip : Chip) (b : Bool) (l : List (Nat × Nat × Nat)) (s : State) (f : Core → Core)
    (h : ∀ k, spadReadP (f k) = spadReadP k) :
    l.foldl (queuePut c seq chip b) (s.updCore c f) = (l.foldl (queuePut c seq chip b) s).updCore c f := by
  induction l generalizing s with
  | nil => rfl
  | cons x l ih =>
    simp only [List.foldl_cons]
    have : queuePut c seq chip b (s.updCore c f) x = (queuePut c seq chip b s x).updCore c f := by
      unfold queuePut
      rw [core_updCore_same, h]
      rfl
    rw [this, ih]

/-! ## The cores that collective operations leave -/
theorem withCores_cores (F : State → State) (h : ∀ s C, F (State.withCores s C) = (F s).withCores C) (s : State) : (F s).cores = s.cores := by
  have := h s s.cores
  have h2 : s.withCores s.cores = s := rfl
  rw [h2] at this
  have := congrArg State.cores this
  exact this
theorem storeLine_cores (s : State) (a : Nat) (bs : List Byte) (p : Bool) : (storeLine s a bs p).cores = s.cores :=
  withCores_cores (fun s => storeLine s a bs p) (fun s C => storeLine_withCores s C a bs p) s
theorem storeLines_cores (n : Nat) (s : State) (a : Nat) (bs : List Byte) (p : Bool) : (storeLines n s a bs p).cores = s.cores := by
  induction n generalizing s a bs with
  | zero => rfl
  | succ n ih =>
    unfold storeLines
    split
    · rfl
    · dsimp only; rw [ih, storeLine_cores]
theorem storeHbm_cores (s : State) (a : Nat) (bs : List Byte) (p : Bool) : (storeHbm s a bs p).cores = s.cores := storeLines_cores _ _ _ _ _
theorem consume_cores (s : State) (n : Nat) (c : Option CoreId) (a : Nat) : (consume s n c a).cores = s.cores :=
  withCores_cores (fun s => consume s n c a) (fun s C => consume_withCores s C n c a) s
theorem updPort_cores (s : State) (n : Nat) (f : Port → Port) : (updPort s n f).cores = s.cores := by unfold updPort; split <;> rfl
theorem emit_cores (s : State) (n : Nat) (vc : Fin 8) (i : Fin 10) (w : Fin 8) (p : Packet) : (emit s n vc i w p).cores = s.cores := by
  unfold emit
  split
  · exact updPort_cores s n _
  · rfl
theorem inject_cores (s : State) (p : Packet) : (inject s p).cores = s.cores := by
  unfold inject
  dsimp only
  split
  · rfl
  · split
    · rfl
    · exact emit_cores _ _ _ _ _ _
theorem sendCinch_cores (s : State) (c : Comm) (a : W32) (b m : Nat) (r : CinchRec) : (sendCinch s c a b m r).cores = s.cores := inject_cores _ _
theorem triggerSwitch_cores (s : State) (k : BitVec 3) : (triggerSwitch s k).cores = s.cores := by
  unfold triggerSwitch
  dsimp only
  split
  · rfl
  · split
    · split <;> rfl
    · rfl
theorem foldl_cores {α : Type} (g : State → α → State) (hg : ∀ s x, (g s x).cores = s.cores) (l : List α) (s : State) :
    (l.foldl g s).cores = s.cores := by
  induction l generalizing s with
  | nil => rfl
  | cons x l ih => simp only [List.foldl_cons]; rw [ih, hg]
theorem cinchDown_cores (s : State) (c : Comm) (n : Cinch) (r : CinchRec) : (cinchDown s c n r).cores = s.cores := by
  unfold cinchDown
  dsimp only
  have h := foldl_cores (fun t m => sendCinch t c n.cseq 1 m r) (fun s x => sendCinch_cores s c _ _ _ _) (cinchFamily s c).1 s
  split
  · rw [triggerSwitch_cores]; exact h
  · exact h
theorem writeStatus_cores (s : State) (c : Comm) (st op ch n : Nat) (f : List Nat) : (writeStatus s c st op ch n f).cores = s.cores := by
  unfold writeStatus storePart
  dsimp only
  split
  · exact withCores_cores (fun s => logRecord s _) (fun s C => logRecord_withCores s C _) s
  · exact storeHbm_cores _ _ _ _
theorem cinchFlow_cores (s : State) (i : BitVec 10) : (cinchFlow s i).1.cores = s.cores := by
  unfold cinchFlow
  split
  · split
    · rfl
    · split
      · split
        · rfl
        · exact cinchDown_cores _ _ _ _
      · split
        · rfl
        · exact sendCinch_cores _ _ _ _ _ _
  · rfl
theorem cinchEnter_cores (s : State) (c : Comm) (k : CinchKind) (r : CinchRec) (d : Option Desc) (n : Nat) :
    (cinchEnter s c k r d n).1.cores = s.cores := cinchFlow_cores _ _
/-- A COLL CINCH that completes writes memory and closes its flight. -/
theorem collCinch_waiting (s : State) (c : CoreId) (seq : Nat) (cm : Comm) (l : CollOp) (a b : Desc) :
    ((collCinch s c seq cm l a b).core c).access.waiting = (s.core c).access.waiting := by
  have fin : ∀ (t : State) (n : Cinch) (r : CinchRec), t.cores = s.cores →
      ((finishCollCinch t n r).core c).access.waiting = (s.core c).access.waiting := by
    intro t n r ht
    unfold finishCollCinch
    split
    · rename_i core seq _
      have h1 : ∀ u : State, u.cores = s.cores → ((closeFlight u core seq).core c).access.waiting = (s.core c).access.waiting := by
        intro u hu
        unfold closeFlight updAccess State.updCore State.core
        simp only [vmod, hu]
        by_cases hc : core = c
        · subst hc; simp
        · have : core.val ≠ c.val := fun h => hc (Fin.ext h)
          simp [Vector.getElem_set_ne, this]
      dsimp only
      apply h1
      have h2 : (match n.dst with | some d => storeHbm t d.start.toNat r.bytes false | none => t).cores = s.cores := by
        split
        · rw [storeHbm_cores, ht]
        · exact ht
      split
      · exact (writeStatus_cores _ _ _ _ _ _ _).trans h2
      · exact h2
    · unfold State.core; rw [ht]
  unfold collCinch
  dsimp only
  have h0 : (if hbmPoisoned s a.start.toNat 64 then consume s 3 (some c) a.start.toNat else s).cores = s.cores := by
    split
    · exact consume_cores _ _ _ _
    · rfl
  have h1 := cinchEnter_cores (if hbmPoisoned s a.start.toNat 64 then consume s 3 (some c) a.start.toNat else s) cm (.coll c seq)
    { CinchRec.blank with
      orw := BitVec.ofNat 64 (readLe s a.start.toNat 8), minw := BitVec.ofNat 64 (readLe s (a.start.toNat + 8) 8),
      sumw := BitVec.ofNat 64 (readLe s (a.start.toNat + 16) 8), planReq := BitVec.ofNat 8 (l.param.toNat % 16) } (some b) l.chunk.toNat
  rw [h0] at h1
  split
  · rename_i e
    rw [e] at h1
    exact fin _ _ _ h1
  · rename_i e
    rw [e] at h1
    unfold State.core; rw [h1]

/-! ## The wait of a move -/

theorem afterWait_facts {k k1 : Core} {m : MoveOp} (h : k.afterWait m = some k1) : k1 = { k with eq := k1.eq } := by
  unfold Core.afterWait at h
  split at h
  · split at h
    · rename_i e
      cases h
      unfold Core.popEq at e
      split at e
      · cases e
      · split at e
        · cases e; rfl
        · cases e
    · cases h
  · cases h; rfl
theorem afterWait_access {k k1 : Core} {m : MoveOp} (h : k.afterWait m = some k1) : k1.access = k.access := by rw [afterWait_facts h]

/-! ## Scratchpad writes leave the rest of a core -/

theorem spadWrite_access (k : Core) (x : Access) (a : Nat) (bs : List Byte) (p : Bool) :
    spadWrite { k with access := x } a bs p = { spadWrite k a bs p with access := x } := rfl

theorem spadWriteP_access (n : Nat) (k : Core) (x : Access) (a : Nat) (bs : List PByte) :
    spadWriteP n { k with access := x } a bs = { spadWriteP n k a bs with access := x } := by
  induction n generalizing k a bs with
  | zero => rfl
  | succ n ih =>
    unfold spadWriteP
    split
    · rfl
    · dsimp only; rw [spadWrite_access, ih]

theorem scatterSpad_access (k : Core) (x : Access) (d : Desc) (bs : List PByte) :
    scatterSpad { k with access := x } d bs = { scatterSpad k d bs with access := x } := by
  unfold scatterSpad
  generalize d.rows = os
  induction os generalizing k bs with
  | nil => rfl
  | cons o os ih => simp only [scatterRows]; rw [spadPut, spadWriteP_access]; exact ih _ _

theorem spadWriteP_frame (n : Nat) (k : Core) (a : Nat) (bs : List PByte) :
    spadWriteP n k a bs = { k with spad := (spadWriteP n k a bs).spad, spadPoison := (spadWriteP n k a bs).spadPoison } := by
  induction n generalizing k a bs with
  | zero => rfl
  | succ n ih =>
    unfold spadWriteP
    split
    · rfl
    · dsimp only; rw [ih]; rfl

/-- Writing an operand changes the scratchpad and its poison only. -/
theorem scatterSpad_frame (k : Core) (d : Desc) (bs : List PByte) :
    scatterSpad k d bs = { k with spad := (scatterSpad k d bs).spad, spadPoison := (scatterSpad k d bs).spadPoison } := by
  unfold scatterSpad
  generalize d.rows = os
  induction os generalizing k bs with
  | nil => rfl
  | cons o os ih =>
    simp only [scatterRows]
    rw [ih, spadPut, spadWriteP_frame]

/-- The rest of a core after an operand is written. -/
theorem scatterSpad_exists (k : Core) (d : Desc) (bs : List PByte) :
    ∃ sp po, scatterSpad k d bs = { k with spad := sp, spadPoison := po } := ⟨_, _, scatterSpad_frame k d bs⟩

/-! ## What the engines' writes leave -/

theorem scatterSpad_spad (k k2 : Core) (d : Desc) (bs : List PByte) (h1 : k.spad = k2.spad) (h2 : k.spadPoison = k2.spadPoison) :
    (scatterSpad k d bs).spad = (scatterSpad k2 d bs).spad ∧ (scatterSpad k d bs).spadPoison = (scatterSpad k2 d bs).spadPoison := by
  have put : ∀ n (k k2 : Core) a bs, k.spad = k2.spad → k.spadPoison = k2.spadPoison →
      (spadWriteP n k a bs).spad = (spadWriteP n k2 a bs).spad ∧ (spadWriteP n k a bs).spadPoison = (spadWriteP n k2 a bs).spadPoison := by
    intro n
    induction n with
    | zero => intro k k2 a bs h1 h2; exact ⟨h1, h2⟩
    | succ n ih =>
      intro k k2 a bs h1 h2
      unfold spadWriteP
      split
      · exact ⟨h1, h2⟩
      · exact ih _ _ _ _ (by simp [spadWrite, h1]) (by simp [spadWrite, h2])
  unfold scatterSpad
  generalize d.rows = os
  induction os generalizing k k2 bs with
  | nil => exact ⟨h1, h2⟩
  | cons o os ih =>
    simp only [scatterRows]
    exact ih _ _ _ (put _ _ _ _ _ h1 h2).1 (put _ _ _ _ _ h1 h2).2

theorem writeElems_spad (k k2 : Core) (d : Desc) (es : List W32) (p : Bool) (h1 : k.spad = k2.spad) (h2 : k.spadPoison = k2.spadPoison) :
    (writeElems k d es p).spad = (writeElems k2 d es p).spad ∧ (writeElems k d es p).spadPoison = (writeElems k2 d es p).spadPoison :=
  scatterSpad_spad k k2 d _ h1 h2
theorem writeElems_frame (k : Core) (d : Desc) (es : List W32) (p : Bool) : ∃ sp po, writeElems k d es p = { k with spad := sp, spadPoison := po } :=
  scatterSpad_exists k d _
theorem writeScales_frame (k : Core) (f : BitVec 5) (sc : List Byte) (p : Bool) : ∃ sp po, k.writeScales f sc p = { k with spad := sp, spadPoison := po } := by
  unfold Core.writeScales
  split
  · split
    · exact ⟨k.spad, k.spadPoison, rfl⟩
    · exact writeElems_frame _ _ _ _
  · exact ⟨k.spad, k.spadPoison, rfl⟩
theorem writeScales_spad (k k2 : Core) (f : BitVec 5) (sc : List Byte) (p : Bool) (h1 : k.spad = k2.spad) (h2 : k.spadPoison = k2.spadPoison)
    (h3 : k.exec.desc = k2.exec.desc) :
    (k.writeScales f sc p).spad = (k2.writeScales f sc p).spad ∧ (k.writeScales f sc p).spadPoison = (k2.writeScales f sc p).spadPoison := by
  have hx : k.xdesc f = k2.xdesc f := by unfold Core.xdesc; rw [h3]
  unfold Core.writeScales
  rw [hx]
  split
  · split
    · exact ⟨h1, h2⟩
    · exact writeElems_spad _ _ _ _ _ h1 h2
  · exact ⟨h1, h2⟩

theorem countBeats_frame (k : Core) (cen : Bool) (set : Fin 16) (fmt : BitVec 4) (t0 per : Nat) (ys : List Num) (cs : List Conv) (p : Bool) :
    ∃ bs o, k.countBeats cen set fmt t0 per ys cs p = { k with exec := { k.exec with beats := bs }, overflow := o } := by
  unfold Core.countBeats
  split
  · exact ⟨_, _, rfl⟩
  · exact ⟨k.exec.beats, k.overflow, rfl⟩

theorem foldStats_spad (l : List Nat) (g : Nat → Nat × List Byte) (p : Bool) (k k2 : Core) (h : k.spad = k2.spad) :
    ∃ sp po, l.foldl (fun z j => spadWrite z (g j).1 (g j).2 p) k = { k with spad := sp, spadPoison := po } ∧
      (l.foldl (fun z j => spadWrite z (g j).1 (g j).2 p) k).spad = (l.foldl (fun z j => spadWrite z (g j).1 (g j).2 p) k2).spad := by
  induction l generalizing k k2 with
  | nil => exact ⟨k.spad, k.spadPoison, rfl, h⟩
  | cons x l ih =>
    simp only [List.foldl_cons]
    obtain ⟨sp, po, e, e2⟩ := ih (spadWrite k (g x).1 (g x).2 p) (spadWrite k2 (g x).1 (g x).2 p) (by simp [spadWrite, h])
    exact ⟨sp, po, by rw [e]; rfl, e2⟩

/-! ## A command on a free access stream -/

/-- An instruction that issues at once on a free stream leaves the stream free: the command is that issue. -/
theorem accessCommand_issue (s t : State) (c : CoreId) (i : AInstr) (h : s.accessReady c)
    (e : tryIssue (updAccess s c fun a => { a with waiting := [i] }) c i = some t)
    (w : (t.core c).access.waiting = [] ∨ (t.core c).access.stopped = true) : accessCommand s c i = t := by
  have h1 : (s.core c).running.isSome && !(s.core c).access.stopped := by simp [h.running, h.going]
  have e0 : (updAccess s c fun a => { a with waiting := a.waiting ++ [i] }) = updAccess s c fun a => { a with waiting := [i] } :=
    updCore_congr _ _ _ _ (by simp [h.waiting])
  simp only [accessCommand, h1, if_true, e0, advanceAll, updAccess_access]
  simp only [List.length_singleton, advance, updAccess_access, h.going, e]
  simp
  rcases w with w | w <;> simp [w]

/-- A move with its wait taken, nothing in flight and a tag to be had issues (R54, R61, R75). -/
theorem tryIssue_move (s s1 : State) (c : CoreId) (k : MoveKind) (m : MoveOp) (hf : (s.core c).access.flights = [])
    (ht : takeWait s c (.move k m) m = some s1) (hs : (s1.core c).access.stopped = false)
    (hf1 : (s1.core c).access.flights = [])
    (htag : (needsTag k (s1.core c).access.desc[m.dst] && decide (384 ≤ coreTags s1 c)) = false) :
    tryIssue s c (.move k m) = some (issueMove s1 c k m) := by
  have hint : ∀ rs, interlocked (s1.core c).access rs = false := fun rs => by simp [interlocked, hf1]
  unfold tryIssue
  simp only [hf, List.any_nil, List.length_nil, Bool.false_or]
  rw [if_neg (by simp)]
  simp only [ht, hs, hint, htag, hf1, List.isEmpty_nil, Bool.not_true, Bool.and_false, Bool.or_false]
  cases k <;> simp

/-- A move whose wait is satisfied and whose operands clash with nothing is its issue. -/
theorem accessCommand_move (s t : State) (c : CoreId) (k : MoveKind) (m : MoveOp) (k1 : Core) (h : s.moveReady c k m k1)
    (e : issueMove (s.updCore c fun _ => { k1 with access := { k1.access with waiting := [.move k m], popped := m.we } }) c k m = t)
    (w : (t.core c).access.waiting = [] ∨ (t.core c).access.stopped = true) :
    accessCommand s c (.move k m) = t := by
  refine accessCommand_issue s t c _ h.ready ?_ w
  have hp := h.ready.popped
  have hf := h.ready.flights
  have ht : takeWait (updAccess s c fun a => { a with waiting := [.move k m] }) c (.move k m) m =
      some (s.updCore c fun _ => { k1 with access := { k1.access with waiting := [.move k m], popped := m.we } }) := by
    have hw := h.wait
    unfold Core.afterWait at hw
    unfold takeWait
    dsimp only
    cases hwe : m.we with
    | false =>
      simp only [hwe] at hw
      simp at hw
      subst hw
      simp [updAccess]
      apply updCore_congr
      simp [hp]
    | true =>
      simp only [hwe, if_true] at hw
      simp [updAccess, hp]
      unfold Core.popEq at hw ⊢
      split at hw
      · cases hw
        rename_i k2 e2
        split at e2
        · cases e2
        · rename_i x rest hx
          simp only [hx]
          split at e2
          · cases e2
            rename_i htok
            simp only [htok, if_true]
            rw [updCore_updCore]
          · cases e2
      · cases hw
  have h1 : (k1.access.stopped = false ∧ k1.access.flights = [] ∧ k1.access.desc = (s.core c).access.desc ∧ k1.access.popped = false) := by
    have hw := h.wait
    unfold Core.afterWait at hw
    split at hw
    · split at hw
      · rename_i k2 e2
        cases hw
        unfold Core.popEq at e2
        split at e2
        · cases e2
        · split at e2
          · cases e2; exact ⟨h.ready.going, hf, rfl, hp⟩
          · cases e2
      · cases hw
    · cases hw; exact ⟨h.ready.going, hf, rfl, hp⟩
  have htag : (needsTag k (k1.access.desc[m.dst]) && decide (384 ≤ coreTags s c)) = false := by
    rw [h1.2.2.1]
    cases hn : needsTag k (s.core c).access.desc[m.dst] with
    | false => rfl
    | true => have := h.tag hn; simp; omega
  rw [tryIssue_move _ _ c k m (by rw [updAccess_access]; exact hf) ht (by rw [core_updCore_same]; exact h1.1)
    (by rw [core_updCore_same]; exact h1.2.1) (by rw [core_updCore_same]; exact htag), e]

/-! ## An instruction on a free execute stream -/

/-- A core in a cycle, with one instruction at the head of its execute stream. -/
def Core.atHead (k : Core) (t : Nat) (delta : W16) (i : XInstr) : Core :=
  { k.settled t with exec := { (k.settled t).exec with waiting := [(delta, i)] } }

/-- An instruction that passes the checks of its cycle runs, and leaves the stream free or stopped (R80, R84). -/
theorem execCommand_issue (s t : State) (c : CoreId) (delta : W16) (i : XInstr) (h : s.mayIssue c delta i)
    (e : runX (s.updCore c fun k => k.atHead (s.issueCycle c delta) delta i) c i (s.issueCycle c delta) = some t)
    (w : (t.core c).exec.waiting = [] ∨ (t.core c).exec.stopped = true) : execCommand s c delta i = t := by
  have h1 : (s.core c).running.isSome && !(s.core c).exec.stopped := by simp [h.running, h.going]
  have h2 : (s.core c).exec.waiting = [] := h.waiting
  unfold execCommand
  dsimp only
  rw [if_pos h1]
  generalize hs0 : (updExec s c fun x => { x with waiting := x.waiting ++ [(delta, i)] }) = s0
  have hc0 : s0.core c = { s.core c with exec := { (s.core c).exec with waiting := [(delta, i)] } } := by
    rw [← hs0]; unfold updExec; rw [core_updCore_same]; simp [h2]
  have ht : tryX s0 c delta i = some t := by
    have hT : (s0.core c).exec.base + delta.toNat = s.issueCycle c delta := by rw [hc0]; rfl
    have hl : lateSlip (s0.core c) (s.issueCycle c delta) = none := by rw [hc0]; exact h.sampled
    have hk : (s0.updCore c fun k => { k.flushBeats (s.issueCycle c delta) with
        exec := (k.flushBeats (s.issueCycle c delta)).exec.prune (s.issueCycle c delta) }) =
        s.updCore c fun k => k.atHead (s.issueCycle c delta) delta i := by
      rw [← hs0]
      unfold updExec
      rw [updCore_updCore]
      apply updCore_congr
      dsimp only
      rw [h2]
      rfl
    unfold tryX
    dsimp only
    rw [hT, hl]
    dsimp only
    rw [hk, core_updCore_same]
    have hf : drnHeld ((s.core c).atHead (s.issueCycle c delta) delta i) i = false := h.free
    have hp : ∀ T, xPlan ((s.core c).atHead T delta i) i T = xPlan ((s.core c).settled T) i T := by
      intro T; cases i <;> rfl
    have hsp : xSpadCause (s.updCore c fun k => k.atHead (s.issueCycle c delta) delta i) ((s.core c).atHead (s.issueCycle c delta) delta i) i
        (xPlan ((s.core c).settled (s.issueCycle c delta)) i (s.issueCycle c delta)) = none := by
      have := h.spad
      cases i <;> exact this
    have htm : timingSlip ((s.core c).atHead (s.issueCycle c delta) delta i) i
        (xPlan ((s.core c).settled (s.issueCycle c delta)) i (s.issueCycle c delta)) (s.issueCycle c delta) = none := h.timed
    rw [hf]
    simp only [Bool.false_eq_true, if_false]
    rw [hp, hsp]
    dsimp only
    rw [htm]
    exact e
  unfold advanceXAll
  rw [hc0]
  simp only [List.length_singleton, advanceX, hc0, h.going, ht]
  simp
  rcases w with w | w <;> simp [w]

theorem passX_job (s : State) (c : CoreId) (t : Nat) : (passX s c t).job = s.job := rfl
theorem passX_flt (s : State) (c : CoreId) (t : Nat) : (passX s c t).flt = s.flt := rfl
theorem passes_core (s : State) (c : CoreId) (f : Core → Core) (t base : Nat) :
    (s.passes c f t base).core c = (f (s.core c)).passedX s.free s.pwr.halving t base := core_updCore_same s c _
theorem passX_core (s : State) (c : CoreId) (t : Nat) : (passX s c t).core c = (s.core c).passedX s.free s.pwr.halving t t := passes_core s c id t t

/-- An instruction passes on a core as it is then. -/
theorem passes_updCore (s : State) (c : CoreId) (f g : Core → Core) (t base : Nat) :
    (s.updCore c f).passes c g t base = s.passes c (fun k => g (f k)) t base := by
  unfold State.passes
  rw [updCore_updCore]
  rfl

/-- What passing depends on of the core. -/
theorem passes_congr (s : State) (c : CoreId) (f g : Core → Core) (t base : Nat) (h : f (s.core c) = g (s.core c)) :
    s.passes c f t base = s.passes c g t base := by
  unfold State.passes
  rw [updCore_congr s c _ (fun k => (g k).passedX s.free s.pwr.halving t base) (by rw [h])]

/-- Passing takes the instruction out of the stream, whatever waits there. -/
theorem passedX_waiting (k : Core) (free : Nat) (halving : Bool) (t base : Nat) (w : W16 × XInstr) :
    ({ k with exec := { k.exec with waiting := [w] } } : Core).passedX free halving t base = 
      ({ k with exec := { k.exec with waiting := [] } } : Core).passedX free halving t base := rfl

/-- An instruction whose effect is on its core alone. -/
theorem execCommand_passes (s : State) (c : CoreId) (delta : W16) (i : XInstr) (K : Core) (base : Nat) (h : s.mayIssue c delta i)
    (e : runX (s.updCore c fun k => k.atHead (s.issueCycle c delta) delta i) c i (s.issueCycle c delta) =
      some ((s.updCore c fun k => k.atHead (s.issueCycle c delta) delta i).passes c (fun _ => K) (s.issueCycle c delta) base))
    (hw : K.exec.waiting = [(delta, i)]) :
    Host.Outcome.next (execCommand s c delta i) =
      (.next (s.passes c (fun _ => K) (s.issueCycle c delta) base) : Host.Outcome State Fault Refusal) := by
  rw [passes_updCore] at e
  refine congrArg Host.Outcome.next (execCommand_issue s _ c delta i h e ?_)
  left
  rw [passes_core]
  simp [Core.passedX, Execute.passed, hw]

end Sys2Proof.Machine
end

