-- ==== Sys2Proof/Laws/Faults.lean ====
section
/-! SUPPORT. What a fault of a core's stream does: the stop of a core, the step abort, the record. -/

namespace Sys2Proof.Machine

theorem core_updCore_ne (s : State) (c d : CoreId) (f : Core → Core) (h : d ≠ c) : (s.updCore c f).core d = s.core d := by
  have : c.val ≠ d.val := fun e => h (Fin.ext e.symm)
  simp [State.updCore, State.core, vmod, Vector.getElem_set_ne, this]

/-- What a stop takes back or leaves undefined is scratchpad, its poison and slots (R39). -/
theorem cutOutput_exists (s : State) (c : CoreId) (n : Nat) :
    ∃ sp po en fr, cutOutput s c n = { s.updCore c fun k => { k with spad := sp, spadPoison := po, engines := en } with free := fr } := by
  have back : ∀ (l : List Undo) (k : Core), ∃ sp po, l.foldl Core.putBack k = { k with spad := sp, spadPoison := po } := by
    intro l
    induction l with
    | nil => intro k; exact ⟨k.spad, k.spadPoison, rfl⟩
    | cons r l ih =>
      intro k
      obtain ⟨sp, po, e⟩ := ih (k.putBack r)
      exact ⟨sp, po, by simp only [List.foldl_cons]; rw [e]; rfl⟩
  have undef : ∀ (l : List Undo) (k : Core) (m : Nat),
      ∃ sp po, (l.foldl (fun (t : Core × Nat) u => (t.1.undefine u t.2, t.2 + u.old.length)) (k, m)).1 = { k with spad := sp, spadPoison := po } := by
    intro l
    induction l with
    | nil => intro k m; exact ⟨k.spad, k.spadPoison, rfl⟩
    | cons r l ih =>
      intro k m
      obtain ⟨sp, po, e⟩ := ih (k.undefine r m) (m + r.old.length)
      exact ⟨sp, po, by simp only [List.foldl_cons]; rw [e]; rfl⟩
  unfold cutOutput
  extract_lets k us k0 x u1
  obtain ⟨sp0, po0, e0⟩ := back ((us.filter fun u => n < u.cycle).reverse) k
  obtain ⟨sp, po, e⟩ := undef (us.filter fun u => u.cycle ≤ n) k0 s.free
  change x.1 = _ at e
  change k0 = _ at e0
  clear_value x k0
  subst e0
  refine ⟨sp, po, k.engines.mapFinIdx fun i e _ => e.undefine n (x.2 + 2097152 * i), x.2 + 6291456, ?_⟩
  show ({ s.updCore c (fun _ => { x.1 with engines := x.1.engines.mapFinIdx fun i e _ => e.undefine n (x.2 + 2097152 * i) }) with
    free := x.2 + 6291456 } : State) = _
  rw [e]
  rfl

/-- A core that stops keeps all but its scratchpad, its poison and its slots, which may turn undefined (R39). -/
theorem haltCore_exists (s : State) (c : CoreId) (n : Nat) :
    ∃ sp po en fr, haltCore s c n = { s.updCore c fun k => { k with spad := sp, spadPoison := po, engines := en }.stop with free := fr } := by
  unfold haltCore
  split
  · obtain ⟨sp, po, en, fr, e⟩ := cutOutput_exists s c n
    rw [e]
    refine ⟨sp, po, en, fr, ?_⟩
    simp [State.updCore, vmod]
  · exact ⟨(s.core c).spad, (s.core c).spadPoison, (s.core c).engines, s.free, rfl⟩

/-- What the stop of every core leaves of one core: fault state as it was, nothing running. -/
structure Core.Halted (k k1 : Core) : Prop where
  faulted : k1.faulted = k.faulted
  valid : k1.faultValid = k.faultValid
  slot : k1.faultSlot = k.faultSlot
  status : k.status = 3 → k1.status = 3
  running : k1.running = none
  access : k1.access.stopped = true
  exec : k1.exec.stopped = true
  flights : k1.access.flights = k.access.flights

theorem Core.halted_stop (k : Core) (sp : List Host.Cell) (po : List Nat) (en : Vector Engine 3) :
    k.Halted ({ k with spad := sp, spadPoison := po, engines := en } : Core).stop := by
  refine ⟨rfl, rfl, rfl, ?_, rfl, rfl, rfl, rfl⟩
  intro h
  simp [Core.stop, h]

theorem Core.Halted.trans {a b c : Core} (h : a.Halted b) (g : b.Halted c) : a.Halted c :=
  ⟨g.faulted.trans h.faulted, g.valid.trans h.valid, g.slot.trans h.slot, fun x => g.status (h.status x), g.running, g.access, g.exec, g.flights.trans h.flights⟩

theorem haltCore_same (s : State) (c : CoreId) (n : Nat) : (s.core c).Halted ((haltCore s c n).core c) := by
  obtain ⟨sp, po, en, fr, e⟩ := haltCore_exists s c n
  rw [e]
  have : ({ s.updCore c fun k => ({ k with spad := sp, spadPoison := po, engines := en } : Core).stop with free := fr } : State).core c =
      ({ s.core c with spad := sp, spadPoison := po, engines := en } : Core).stop := core_updCore_same s c _
  rw [this]
  exact Core.halted_stop _ _ _ _

theorem haltCore_ne (s : State) (c d : CoreId) (n : Nat) (h : d ≠ c) : (haltCore s c n).core d = s.core d := by
  obtain ⟨sp, po, en, fr, e⟩ := haltCore_exists s c n
  rw [e]
  exact core_updCore_ne s c d _ h

/-- A stop of cores leaves everything but the cores and the count of free values. -/
theorem haltCore_frame (s : State) (c : CoreId) (n : Nat) : ∃ C f, haltCore s c n = { s with cores := C, free := f } := by
  obtain ⟨sp, po, en, fr, e⟩ := haltCore_exists s c n
  exact ⟨_, _, e⟩

theorem haltAll (l : List CoreId) (s : State) (c : CoreId) :
    (c ∈ l → (s.core c).Halted ((l.foldl (fun t d => haltCore t d (t.core d).exec.cycle) s).core c)) ∧
    (c ∉ l → (l.foldl (fun t d => haltCore t d (t.core d).exec.cycle) s).core c = s.core c) := by
  induction l generalizing s with
  | nil => simp
  | cons d l ih =>
    simp only [List.foldl_cons, List.mem_cons]
    have ih := ih (haltCore s d (s.core d).exec.cycle)
    constructor
    · intro h
      by_cases hl : c ∈ l
      · by_cases hd : c = d
        · subst hd; exact (haltCore_same s c _).trans (ih.1 hl)
        · have := ih.1 hl; rwa [haltCore_ne _ _ _ _ hd] at this
      · have hd : c = d := by tauto
        subst hd
        rw [ih.2 hl]
        exact haltCore_same s c _
    · intro h
      have hd : c ≠ d := fun e => h (Or.inl e)
      rw [ih.2 (fun e => h (Or.inr e)), haltCore_ne _ _ _ _ hd]

theorem haltAll_frame (l : List CoreId) (s : State) :
    ∃ C f, l.foldl (fun t d => haltCore t d (t.core d).exec.cycle) s = { s with cores := C, free := f } := by
  induction l generalizing s with
  | nil => exact ⟨s.cores, s.free, rfl⟩
  | cons d l ih =>
    simp only [List.foldl_cons]
    obtain ⟨C1, f1, e1⟩ := haltCore_frame s d (s.core d).exec.cycle
    generalize haltCore s d (s.core d).exec.cycle = u at e1 ⊢
    subst e1
    obtain ⟨C, f, e⟩ := ih { s with cores := C1, free := f1 }
    exact ⟨C, f, e⟩

theorem stopCores_halted (s : State) (c : CoreId) : (s.core c).Halted ((stopCores s).core c) := by
  have h := (haltAll (List.finRange 64) s c).1 (List.mem_finRange c)
  unfold stopCores
  generalize (List.finRange 64).foldl (fun t d => haltCore t d (t.core d).exec.cycle) s = u at h ⊢
  exact h

/-- What stops every core leaves all but cores, trees and free values. -/
theorem stopCores_frame (s : State) : ∃ C k f, stopCores s = { s with cores := C, clusters := k, free := f } := by
  obtain ⟨C, f, e⟩ := haltAll_frame (List.finRange 64) s
  unfold stopCores
  rw [e]
  exact ⟨C, _, f, rfl⟩

theorem stopCores_flt (s : State) : (stopCores s).flt = s.flt := by obtain ⟨C, k, f, e⟩ := stopCores_frame s; rw [e]
theorem stopCores_job (s : State) : (stopCores s).job = s.job := by obtain ⟨C, k, f, e⟩ := stopCores_frame s; rw [e]

theorem raiseEvent_flt (s : State) (n : Nat) (d : List Byte) : (raiseEvent s n d).flt = s.flt := by
  unfold raiseEvent writeEvent dropEvent
  dsimp only
  split
  · split <;> rfl
  · split <;> rfl
theorem raiseEvent_job (s : State) (n : Nat) (d : List Byte) : (raiseEvent s n d).job = s.job := by
  unfold raiseEvent writeEvent dropEvent
  dsimp only
  split
  · split <;> rfl
  · split <;> rfl
theorem raiseEvent_cores (s : State) (n : Nat) (d : List Byte) : (raiseEvent s n d).cores = s.cores := by
  unfold raiseEvent writeEvent dropEvent
  dsimp only
  split
  · split <;> rfl
  · split <;> rfl

/-- Elements taken from the end of a list. -/
theorem takeWhile_reverse {α : Type} (p : α → Bool) (l : List α) :
    ∀ x ∈ l.drop (l.length - (l.reverse.takeWhile p).length), p x = true := by
  intro x hx
  have h : l.drop (l.length - (l.reverse.takeWhile p).length) = (l.reverse.takeWhile p).reverse := by
    have h1 : l.reverse.takeWhile p = l.reverse.take (l.reverse.takeWhile p).length :=
      (List.prefix_iff_eq_take.1 (List.takeWhile_prefix p))
    conv_rhs => rw [h1]
    rw [List.take_reverse, List.reverse_reverse]
  rw [h] at hx
  exact List.mem_takeWhile_imp (List.mem_reverse.1 hx)

/-- A record enters the log at its place (R346). -/
theorem logRecord_logs (s : State) (r : Record) : s.logs (logRecord s r) r := by
  unfold logRecord
  extract_lets f full later idx log s1
  refine ⟨?_, by rw [raiseEvent_flt]; rfl⟩
  rw [raiseEvent_flt]
  refine ⟨log.take (log.length - later), log.drop (log.length - later), by rw [List.take_append_drop], ?_, ?_⟩
  · simp only [s1, List.append_assoc, List.singleton_append]
  · intro x hx
    refine takeWhile_reverse (Record.follows s.now r) s.flt.log x ?_
    by_cases hf : 4096 ≤ s.flt.log.length
    · simp only [log, full, f, hf, if_true, List.length_tail, later] at hx
      rw [List.drop_tail] at hx
      by_cases hl : (List.takeWhile (Record.follows s.now r) s.flt.log.reverse).length = s.flt.log.length
      · have : s.flt.log.length - 1 - (List.takeWhile (Record.follows s.now r) s.flt.log.reverse).length + 1 = 1 := by omega
        rw [this] at hx
        rw [hl, Nat.sub_self]
        exact List.mem_of_mem_drop hx
      · have h2 : (List.takeWhile (Record.follows s.now r) s.flt.log.reverse).length ≤ s.flt.log.length := by
          have := (List.takeWhile_prefix (Record.follows s.now r) (l := s.flt.log.reverse)).length_le
          simpa using this
        have : s.flt.log.length - 1 - (List.takeWhile (Record.follows s.now r) s.flt.log.reverse).length + 1 =
            s.flt.log.length - (List.takeWhile (Record.follows s.now r) s.flt.log.reverse).length := by omega
        rwa [this] at hx
    · simpa [log, full, f, hf, later] using hx

/-- What a log has gained, from a state with the same log. -/
theorem logs_of {s u t : State} {r : Record} (h : u.logs t r) (h1 : u.flt = s.flt) (h2 : u.glb = s.glb) : s.logs t r := by
  have hn : u.now = s.now := by unfold State.now; rw [h2]
  exact ⟨by rw [← h1, ← hn]; exact h.placed, by rw [← h1]; exact h.counted⟩

theorem logRecord_cores (s : State) (r : Record) : (logRecord s r).cores = s.cores := raiseEvent_cores _ _ _

theorem raiseEvent_mem (s : State) (n : Nat) (d : List Byte) : (raiseEvent s n d).mem = s.mem := by
  unfold raiseEvent writeEvent dropEvent
  dsimp only
  split
  · split <;> rfl
  · split <;> rfl
theorem stopCores_mem (s : State) : (stopCores s).mem = s.mem := by obtain ⟨C, k, f, e⟩ := stopCores_frame s; rw [e]

theorem abortStep_mem (s : State) : (abortStep s).mem = s.mem := by
  have h := stopCores_mem s
  unfold abortStep
  generalize stopCores s = u at *
  exact h

theorem raiseEvent_glb (s : State) (n : Nat) (d : List Byte) : (raiseEvent s n d).glb = s.glb := by
  unfold raiseEvent writeEvent dropEvent
  dsimp only
  split
  · split <;> rfl
  · split <;> rfl

/-- The record of a fault with the heads of the queues and the core's count, as it enters the log. -/
def State.completed (s : State) (c : CoreId) (r : Record) : Record :=
  { r with heads := queueHeads (s.core c), secondary := (s.core c).secondaryNow }

/-- The state in which a core has stopped for its fault, which is not yet logged. -/
def State.faulting (s : State) (c : CoreId) (n : Nat) (r : Record) : State :=
  (haltCore s c n).updCore c fun k =>
    { k with faulted := true, faultDue := none, faultValid := true, faultSlot := s.completed c r, status := 3 }

theorem recordFault_first (s : State) (c : CoreId) (n : Nat) (r : Record) (ha : s.job.aborting = false) (hq : s.job.quiescing = false) :
    recordFault s c n r = abortStep (logRecord (s.faulting c n r) (s.completed c r)) := by
  unfold recordFault
  simp only [ha, hq, Bool.or_false, Bool.false_eq_true, if_false]
  rfl

/-- What a fault that is recorded does (R77, R346, R347, R441). -/
theorem recordFault_recorded (s : State) (c : CoreId) (n : Nat) (r : Record) (ha : s.job.aborting = false) (hq : s.job.quiescing = false) :
    s.recorded (recordFault s c n r) c (s.completed c r) := by
  rw [recordFault_first s c n r ha hq]
  obtain ⟨sp, po, en, fr, e⟩ := haltCore_exists s c n
  have hflt : (s.faulting c n r).flt = s.flt := (congrArg State.flt e : _)
  have hglb : (s.faulting c n r).glb = s.glb := (congrArg State.glb e : _)
  have hcore : (logRecord (s.faulting c n r) (s.completed c r)).core c = (s.faulting c n r).core c := by unfold State.core; rw [logRecord_cores]
  have hlog := logs_of (logRecord_logs (s.faulting c n r) (s.completed c r)) hflt hglb
  have h2 : (s.faulting c n r).core c =
      { (haltCore s c n).core c with faulted := true, faultDue := none, faultValid := true, faultSlot := s.completed c r, status := 3 } :=
    core_updCore_same _ c _
  rw [h2] at hcore
  generalize s.faulting c n r = s2 at *
  generalize logRecord s2 (s.completed c r) = s3 at *
  have hh := stopCores_halted s3 c
  have hf := stopCores_flt s3
  rw [hcore] at hh
  unfold abortStep
  generalize stopCores s3 = s4 at *
  refine ⟨hh.faulted, hh.valid, hh.slot, hh.status rfl, ⟨hh.running, hh.access, hh.exec⟩, ⟨?_, ?_⟩, rfl, rfl, rfl⟩
  · have := hlog.placed
    rw [← hf] at this
    exact this
  · have := hlog.counted
    rw [← hf] at this
    exact this

theorem recordFault_mem (s : State) (c : CoreId) (n : Nat) (r : Record) (ha : s.job.aborting = false) (hq : s.job.quiescing = false) :
    (recordFault s c n r).mem = s.mem := by
  rw [recordFault_first s c n r ha hq, abortStep_mem]
  obtain ⟨C, f, e⟩ := haltCore_frame s c n
  have h2 : (s.faulting c n r).mem = s.mem := (congrArg State.mem e : _)
  generalize s.faulting c n r = u at *
  unfold logRecord
  dsimp only
  rw [raiseEvent_mem]
  exact h2

theorem recordFault_flights (s : State) (c : CoreId) (n : Nat) (r : Record) (ha : s.job.aborting = false) (hq : s.job.quiescing = false) :
    ((recordFault s c n r).core c).access.flights = (s.core c).access.flights := by
  rw [recordFault_first s c n r ha hq]
  have hcore : (logRecord (s.faulting c n r) (s.completed c r)).core c = (s.faulting c n r).core c := by unfold State.core; rw [logRecord_cores]
  have h2 : ((s.faulting c n r).core c).access = ((haltCore s c n).core c).access := by
    unfold State.faulting
    rw [core_updCore_same]
  have hh := (stopCores_halted (logRecord (s.faulting c n r) (s.completed c r)) c).flights
  have h3 := (haltCore_same s c n).flights
  unfold abortStep
  generalize logRecord (s.faulting c n r) (s.completed c r) = s3 at *
  generalize stopCores s3 = s4 at *
  show (s4.core c).access.flights = _
  rw [hh, hcore, h2, h3]

/-- The same recorded fault from a state that agrees on the log and the tick. -/
theorem recorded_of {s u t : State} {c : CoreId} {r : Record} (h : u.recorded t c r) (h1 : u.flt = s.flt) (h2 : u.glb = s.glb) : s.recorded t c r :=
  ⟨h.faulted, h.valid, h.slot, h.status, h.stopped, logs_of h.logged h1 h2, h.abort⟩

theorem unfaulted_clean {s : State} {c : CoreId} (h : s.unfaulted c) : abortedCleanly s c = false := by
  simp [abortedCleanly, h.aborting, h.quiescing]

theorem streamFaultAt_first (s : State) (c : CoreId) (n : Nat) (r : Record) (h : s.unfaulted c) :
    streamFaultAt s c n r = recordFault (s.updCore c fun k => { k with secondaryNow := 0 }) c n (r.placed s c) := by
  unfold streamFaultAt
  simp only [unfaulted_clean h, h.core, Bool.false_eq_true, if_false]

/-- A stream's first fault moves no byte of HBM. -/
theorem streamFaultAt_mem (s : State) (c : CoreId) (n : Nat) (r : Record) (h : s.unfaulted c) : (streamFaultAt s c n r).mem = s.mem := by
  rw [streamFaultAt_first s c n r h]
  exact recordFault_mem _ _ _ _ h.aborting h.quiescing

/-- The first fault of a core's segment (R77, R346, R347, R441). -/
theorem streamFaultAt_faultOf (s : State) (c : CoreId) (n : Nat) (r : Record) (h : s.unfaulted c) :
    s.faultOf (streamFaultAt s c n r) c r := by
  rw [streamFaultAt_first s c n r h]
  have e : (s.updCore c fun k => { k with secondaryNow := 0 }).completed c (r.placed s c) = s.coreRecord c r := by
    unfold State.completed
    rw [core_updCore_same]
    rfl
  have := recordFault_recorded (s.updCore c fun k => { k with secondaryNow := 0 }) c n (r.placed s c) h.aborting h.quiescing
  rw [e] at this
  exact recorded_of this rfl rfl

/-- A stream's fault leaves the core's instructions in flight (R77). -/
theorem streamFaultAt_flights (s : State) (c : CoreId) (n : Nat) (r : Record) (h : s.unfaulted c) :
    ((streamFaultAt s c n r).core c).access.flights = (s.core c).access.flights := by
  rw [streamFaultAt_first s c n r h, recordFault_flights (s.updCore c _) c n _ h.aborting h.quiescing, core_updCore_same]

/-- A first fault of the access stream with nothing earlier in flight is recorded at once (R77). -/
theorem accessFaultAt_faultOf (s : State) (c : CoreId) (seq : Nat) (r : Record) (h : s.unfaulted c)
    (hf : ∀ f ∈ (s.core c).access.flights, f.done = false → seq ≤ f.seq) :
    s.faultOf (accessFaultAt s c seq r) c r ∧ (accessFaultAt s c seq r).mem = s.mem ∧
      ((accessFaultAt s c seq r).core c).access.flights = (s.core c).access.flights.filter fun f => !f.done := by
  unfold accessFaultAt
  simp only [unfaulted_clean h, h.core, Bool.false_eq_true, if_false]
  generalize hu : (s.updCore c fun k => { k with
    faulted := true, secondaryNow := 0, faultDue := some (seq, r.placed s c),
    access := { k.access with waiting := [], stopped := true, flights := k.access.flights.filter fun f => !f.done } }) = u
  have hc : u.core c = { s.core c with
    faulted := true, secondaryNow := 0, faultDue := some (seq, r.placed s c),
    access := { (s.core c).access with waiting := [], stopped := true, flights := (s.core c).access.flights.filter fun f => !f.done } } := by
    rw [← hu, core_updCore_same]
  have hall : ((u.core c).access.flights.all fun f => decide (seq ≤ f.seq)) = true := by
    rw [hc]
    simp only [List.all_eq_true, List.mem_filter, decide_eq_true_eq]
    intro x hx
    exact hf x hx.1 (by simpa using hx.2)
  have hj : u.job = s.job := by rw [← hu]; rfl
  unfold settleFault
  have hd : (u.core c).faultDue = some (seq, r.placed s c) := by rw [hc]
  rw [hd]
  simp only [hall, if_true]
  have e : u.completed c (r.placed s c) = s.coreRecord c r := by
    unfold State.completed
    rw [hc]
    rfl
  have hr := recordFault_recorded u c (u.core c).exec.cycle (r.placed s c) (by rw [hj]; exact h.aborting) (by rw [hj]; exact h.quiescing)
  rw [e] at hr
  refine ⟨recorded_of hr (by rw [← hu]; rfl) (by rw [← hu]; rfl), ?_, ?_⟩
  · rw [recordFault_mem _ _ _ _ (by rw [hj]; exact h.aborting) (by rw [hj]; exact h.quiescing), ← hu]; rfl
  · rw [recordFault_flights _ _ _ _ (by rw [hj]; exact h.aborting) (by rw [hj]; exact h.quiescing), hc]

/-- A drain of a slot that is not Owned (R42). -/
theorem doDrn_conflict (s : State) (c : CoreId) (f : DrnOp) (t : Nat)
    (h : ∀ own, ((s.core c).slotAt f.eng f.slot.toNat).stateAt t ≠ .owned own) :
    doDrn s c f t = tileFault s c (.drn f) t f.slot (((s.core c).slotAt f.eng f.slot.toNat).stateAt t) 2 0 := by
  unfold doDrn
  extract_lets k p i e v st n
  have hst : ∀ own, st ≠ .owned own := h
  show _ = tileFault s c i t f.slot st 2 0
  clear_value st
  cases st with
  | owned own => exact absurd rfl (hst own)
  | free => rfl
  | draining a b => rfl

/-- A consumption of poison is counted and sets the poison flag (R350). -/
theorem consume_counts (s : State) (n : Nat) (c : Option CoreId) (a : Nat) :
    (consume s n c a).flt.consumptions = s.flt.consumptions + 1 ∧ (consume s n c a).job.poison = true := by
  unfold consume
  dsimp only
  split
  · exact ⟨rfl, rfl⟩
  · unfold logRecord
    dsimp only
    rw [raiseEvent_flt, raiseEvent_job]
    exact ⟨rfl, rfl⟩

theorem onlyCore_updCore (s : State) (c : CoreId) (f : Core → Core) : s.onlyCore (s.updCore c f) c :=
  ⟨rfl, fun d hd => core_updCore_ne s c d f hd⟩

/-- The same record from a state that agrees on what it names. -/
theorem faultOf_of_core (s u t : State) (c : CoreId) (r : Record) (h : u.faultOf t c r)
    (h1 : u.coreRecord c r = s.coreRecord c r) (h2 : u.flt = s.flt) (h3 : u.glb = s.glb) : s.faultOf t c r := by
  have := recorded_of h h2 h3
  rwa [h1] at this

/-- A fault at issue on the execute stream. -/
theorem execCommand_fault (s : State) (c : CoreId) (delta : W16) (i : XInstr) (cyc : Nat) (r : Record) (h : s.mayIssue c delta i) (hfa : s.unfaulted c)
    (e : ∀ s1, s1 = (s.updCore c fun k => k.atHead (s.issueCycle c delta) delta i) → runX s1 c i (s.issueCycle c delta) = some (streamFaultAt s1 c cyc r)) :
    ∃ t', execCommand s c delta i = t' ∧ t'.mem = s.mem ∧ s.faultOf t' c r := by
  generalize hs1 : (s.updCore c fun k => k.atHead (s.issueCycle c delta) delta i) = s1
  have e4 : s1.core c = (s.core c).atHead (s.issueCycle c delta) delta i := by rw [← hs1, core_updCore_same]
  have hu : s1.unfaulted c := ⟨by rw [e4]; exact hfa.core, by rw [← hs1]; exact hfa.aborting, by rw [← hs1]; exact hfa.quiescing⟩
  have hF := streamFaultAt_faultOf s1 c cyc r hu
  refine ⟨_, execCommand_issue s _ c delta _ h (by rw [hs1]; exact e s1 hs1.symm) (Or.inr hF.stopped.2.2), ?_, ?_⟩
  · rw [streamFaultAt_mem _ _ _ _ hu, ← hs1]; rfl
  · refine faultOf_of_core s s1 _ c _ hF ?_ (by rw [← hs1]; rfl) (by rw [← hs1]; rfl)
    unfold State.coreRecord; rw [e4, ← hs1]; rfl

theorem popEq_order {k : Core} {q : Fin 4} {t : Token} {e : Entry} {rest : List Entry} (h : k.eq[q] = e :: rest) (ht : e.token ≠ t) :
    k.popEq q t = .order := by
  unfold Core.popEq; rw [h]; simp [ht]

/-- An event changes the host link and, at most, adds to what goes out (R302). -/
theorem raiseEvent_frame (s : State) (n : Nat) (d : List Byte) : ∃ h o, raiseEvent s n d = { s with hlk := h, out := s.out ++ o } := by
  unfold raiseEvent writeEvent dropEvent State.say
  dsimp only
  split
  · split
    · exact ⟨_, _, by simp only [List.append_assoc]; rfl⟩
    · exact ⟨_, [], by simp only [List.append_nil]; rfl⟩
  · split
    · exact ⟨_, [], by simp only [List.append_nil]; rfl⟩
    · exact ⟨_, [], by simp only [List.append_nil]; rfl⟩

/-- What an event does to the host link depends on nothing else than the link, the step and the tick (R302). -/
theorem raiseEvent_congr (s u : State) (n : Nat) (d : List Byte) (h1 : u.hlk = s.hlk) (h2 : u.job.step = s.job.step) (h3 : u.glb = s.glb) :
    (raiseEvent u n d).hlk = (raiseEvent s n d).hlk := by
  have h4 : u.now = s.now := by unfold State.now; rw [h3]
  unfold raiseEvent writeEvent dropEvent State.say
  dsimp only
  rw [h1, h2, h4]
  split
  · split <;> rfl
  · split <;> rfl

/-- A record changes the log, and raises its event (R346). -/
theorem logRecord_frame (s : State) (r : Record) : ∃ f h o, logRecord s r = { s with flt := f, hlk := h, out := s.out ++ o } := by
  unfold logRecord
  dsimp only
  generalize ({ s.flt with log := _ ++ _, logWritten := _, logOverwritten := _ } : Flt) = f
  obtain ⟨h, o, e⟩ := raiseEvent_frame { s with flt := f } 1 _
  exact ⟨f, h, o, e⟩

theorem abortStep_frame (s : State) : ∃ C k f q j, abortStep s = { s with cores := C, clusters := k, free := f, upd := { s.upd with queue := q }, job := j } := by
  obtain ⟨C, k, f, e⟩ := stopCores_frame s
  unfold abortStep
  rw [e]
  exact ⟨C, k, f, [], _, rfl⟩

/-- What a fault of a stream may change (R77, R346, R347): cores, trees, queued passes, the job, the log and its event, free values. -/
def State.faultStep (s t : State) : Prop := ∃ C k f q j fl h o, t =
    { s with cores := C, clusters := k, free := f, upd := { s.upd with queue := q }, job := j, flt := fl, hlk := h, out := s.out ++ o }

theorem State.faultStep.refl (s : State) : s.faultStep s := ⟨_, _, _, _, _, _, _, [], by rw [List.append_nil]⟩
theorem State.faultStep.trans {s t u : State} (h : s.faultStep t) (g : t.faultStep u) : s.faultStep u := by
  obtain ⟨C, k, f, q, j, fl, h, o, rfl⟩ := h
  obtain ⟨C, k, f, q, j, fl, h, o, rfl⟩ := g
  exact ⟨C, k, f, q, j, fl, h, _, by rw [List.append_assoc]⟩
theorem updCore_faultStep (s : State) (c : CoreId) (f : Core → Core) : s.faultStep (s.updCore c f) :=
  ⟨_, _, _, _, _, _, _, [], by rw [List.append_nil]; rfl⟩
theorem haltCore_faultStep (s : State) (c : CoreId) (n : Nat) : s.faultStep (haltCore s c n) := by
  obtain ⟨C, f, e⟩ := haltCore_frame s c n
  exact ⟨C, s.clusters, f, s.upd.queue, s.job, s.flt, s.hlk, [], by rw [e, List.append_nil]⟩
theorem logRecord_faultStep (s : State) (r : Record) : s.faultStep (logRecord s r) := by
  obtain ⟨fl, h, o, e⟩ := logRecord_frame s r
  exact ⟨s.cores, s.clusters, s.free, s.upd.queue, s.job, fl, h, o, e⟩
theorem abortStep_faultStep (s : State) : s.faultStep (abortStep s) := by
  obtain ⟨C, k, f, q, j, e⟩ := abortStep_frame s
  exact ⟨C, k, f, q, j, s.flt, s.hlk, [], by rw [e, List.append_nil]⟩

theorem recordFault_faultStep (s : State) (c : CoreId) (n : Nat) (r : Record) : s.faultStep (recordFault s c n r) := by
  have h := fun f => ((haltCore_faultStep s c n).trans (updCore_faultStep _ c f)).trans (logRecord_faultStep _ (s.completed c r))
  unfold recordFault
  dsimp only
  split
  · exact h _
  · exact (h _).trans (abortStep_faultStep _)

theorem streamFaultAt_frame (s : State) (c : CoreId) (n : Nat) (r : Record) (h : s.unfaulted c) : s.faultStep (streamFaultAt s c n r) := by
  rw [streamFaultAt_first s c n r h]
  exact (updCore_faultStep s c _).trans (recordFault_faultStep _ c n _)

theorem accessFaultAt_frame (s : State) (c : CoreId) (seq : Nat) (r : Record) : s.faultStep (accessFaultAt s c seq r) := by
  have h : ∀ u : State, u.faultStep (settleFault u c) := fun u => by
    unfold settleFault
    split
    · split
      · exact recordFault_faultStep ..
      · exact .refl _
    · exact .refl _
  unfold accessFaultAt
  split
  · exact .refl _
  · split
    · exact (updCore_faultStep s c _).trans (h _)
    · exact (updCore_faultStep s c _).trans (h _)

theorem sayReclaims (l : List Lease) (s : State) :
    l.foldl (fun t x => t.say (.xreclaim x.stack x.chan x.id)) s = { s with out := s.out ++ l.map fun x => .xreclaim x.stack x.chan x.id } := by
  induction l generalizing s with
  | nil => simp
  | cons x l ih => simp only [List.foldl_cons, ih]; simp [State.say]

/-- What the fatal path stops before it records (R360). -/
theorem fatalStop_does (s : State) : ∃ C k f j c, fatalStop s =
      { s with cores := C, clusters := k, free := f, job := j, coll := c, mem := { s.mem with waiting := [] }, upd := { s.upd with leases := [], queue := [] },
               out := s.out ++ s.upd.leases.map fun x => .xreclaim x.stack x.chan x.id } ∧
    j.step = s.job.step ∧ j.dispatching = false ∧ c = { s.coll with cinches := [], owed := [] } ∧
    ∀ d, ((fatalStop s).core d).running = none ∧ ((fatalStop s).core d).access.stopped = true ∧ ((fatalStop s).core d).exec.stopped = true ∧
      ((fatalStop s).core d).sliceOn = false := by
  have hst := fun d => stopCores_halted s d
  obtain ⟨C, k, f, e⟩ := stopCores_frame s
  unfold fatalStop
  rw [e] at hst ⊢
  dsimp only
  rw [sayReclaims]
  refine ⟨_, k, f, _, _, rfl, rfl, rfl, rfl, fun d => ?_⟩
  have := hst d
  simp only [State.core, Fin.getElem_fin, Vector.getElem_map] at this ⊢
  exact ⟨this.running, this.access, this.exec, trivial⟩

/-- A fatal error while no dump is being written (R359–R362). -/
theorem fatal_fatalOf (s : State) (code : W16) (cause : Byte) (mc : Bool) (h : s.flt.dumping = false) : s.fatalOf (fatal s code cause mc) code cause := by
  obtain ⟨C, k, f, j, cl, e, hj, hd, hc, hs⟩ := fatalStop_does s
  unfold fatal
  rw [if_neg (by simp [h])]
  rw [e] at hs ⊢
  generalize hr : ({ Record.blank with code := code, cause := cause, source := 5, step := s.job.step } : Record) = r
  generalize hs0 : ({ s with
    cores := C, clusters := k, free := f, job := j, coll := cl, mem := { s.mem with waiting := [] }, upd := { s.upd with leases := [], queue := [] },
    out := s.out ++ s.upd.leases.map (fun x => Out.xreclaim x.stack x.chan x.id) } : State) = s0 at hs ⊢
  have hn : s.logs (logRecord s0 r) r := logs_of (logRecord_logs s0 r) (by rw [← hs0]) (by rw [← hs0])
  have hfl : (logRecord s0 r).flt.dumpSeq = s.flt.dumpSeq := by
    unfold logRecord; dsimp only; rw [raiseEvent_flt, ← hs0]
  obtain ⟨fl, hk, o, e2⟩ := logRecord_frame s0 r
  rw [e2] at hn hfl ⊢
  subst hs0
  refine ⟨by rw [hr]; exact ⟨hn.placed, hn.counted⟩, ⟨rfl, rfl, rfl, ?_⟩, hs, hd, ⟨rfl, rfl, rfl, ?_⟩, ?_, ?_⟩
  · show bump fl.dumpSeq = _
    dsimp only at hfl
    rw [hfl]; rfl
  · intro l hl
    show _ ∈ (s.out ++ _) ++ o
    simp only [List.mem_append, List.mem_map]
    exact Or.inl (Or.inr ⟨l, hl, rfl⟩)
  · show cl.cinches = []; rw [hc]
  · show cl.owed = []; rw [hc]

/-- The same fatal error from a state that agrees on what it names. -/
theorem fatalOf_of {s u t : State} {code : W16} {cause : Byte} (h : u.fatalOf t code cause) (h1 : u.flt = s.flt) (h2 : u.job.step = s.job.step)
    (h4 : u.glb = s.glb)
    (h3 : ∀ l ∈ s.upd.leases, ∃ x ∈ u.upd.leases, x.stack = l.stack ∧ x.chan = l.chan ∧ x.id = l.id) : s.fatalOf t code cause :=
  ⟨h2 ▸ logs_of h.logged h1 h4, h1 ▸ h.dump, h.stopped, h.halted, ⟨h.leases.1, h.leases.2.1, h.leases.2.2.1, fun l hl => by
    obtain ⟨x, hx, e1, e2, e3⟩ := h3 l hl
    rw [← e1, ← e2, ← e3]
    exact h.leases.2.2.2 x hx⟩, h.cinches⟩

theorem fatal_frame (s : State) (code : W16) (cause : Byte) (mc : Bool) (h : s.flt.dumping = false) :
    (fatal s code cause mc).pwr = s.pwr ∧ (fatal s code cause mc).inp = s.inp ∧ (fatal s code cause mc).opt = s.opt ∧ (fatal s code cause mc).fab = s.fab ∧
    (fatal s code cause mc).mem = { s.mem with waiting := [] } ∧ (fatal s code cause mc).flt.dataParity = s.flt.dataParity ∧
    (fatal s code cause mc).flt.parityUnits = s.flt.parityUnits := by
  obtain ⟨C, k, f, j, cl, e, hj, hd, hc, hs⟩ := fatalStop_does s
  unfold fatal
  rw [if_neg (by simp [h]), e]
  generalize hr : ({ Record.blank with code := code, cause := cause, source := 5, step := s.job.step } : Record) = r
  generalize hs0 : ({ s with
    cores := C, clusters := k, free := f, job := j, coll := cl, mem := { s.mem with waiting := [] }, upd := { s.upd with leases := [], queue := [] },
    out := s.out ++ s.upd.leases.map (fun x => Out.xreclaim x.stack x.chan x.id) } : State) = s0
  have hfl : (logRecord s0 r).flt.dataParity = s.flt.dataParity ∧ (logRecord s0 r).flt.parityUnits = s.flt.parityUnits := by
    unfold logRecord; dsimp only; rw [raiseEvent_flt, ← hs0]; exact ⟨rfl, rfl⟩
  obtain ⟨fl, hk, o, e2⟩ := logRecord_frame s0 r
  rw [e2] at hfl ⊢
  subst hs0
  exact ⟨rfl, rfl, rfl, rfl, rfl, hfl⟩

/-- What a failed quiesce leaves (R348, R307): WEDGED, with no segment started and every descriptor that had acted completed. -/
theorem wedge_does (s : State) : (wedge s).hlk.state = .wedged ∧ (wedge s).job.dispatching = false ∧ (wedge s).coll = s.coll ∧ (wedge s).upd = s.upd ∧
    (wedge s).flt = s.flt ∧ (wedge s).cores = s.cores ∧ (wedge s).mem = s.mem := ⟨rfl, rfl, rfl, rfl, rfl, rfl, rfl⟩

end Sys2Proof.Machine
end

