-- ==== Sys2Proof/Laws/Fabric.lean ====
section
/-! SUPPORT. What the shared operations of the fabric do: a router's view, responders, tags, injection, fences, route entries. -/

namespace Sys2Proof.Machine

theorem heard_loud (s : State) (n : Nat) (h : ∀ h : n < 8, (s.fab.ports[(⟨n, h⟩ : Fin 8)]).silent = false) : heard s n = s := by
  unfold heard
  split
  · rename_i hn; rw [h hn]; rfl
  · rfl

theorem mustHold_type (s : State) (p : Packet) (t : Byte) : mustHold s { p with type := t } = mustHold s p := by unfold mustHold; rfl

/-! What a responder does with a request (R74, R201, R204). -/

theorem respond_get (s : State) (p : Packet) (h0 : p.type.toNat = 1) :
    (∀ x, hbmCause s p.addr.toNat (p.length.toNat + 1) false true = some x → respond s p = inject s (ackOf s p x)) ∧
    (hbmCause s p.addr.toNat (p.length.toNat + 1) false true = none → respond s p = inject s (getdataOf s p)) := by
  unfold respond
  simp only [h0]
  exact ⟨fun x h => by simp only [h], fun h => by simp only [h]⟩

theorem respond_put (s : State) (p : Packet) (h0 : p.type.toNat = 2) :
    (∀ x, hbmCause s p.addr.toNat p.payload.length true true = some x → respond s p = inject s (ackOf s p x)) ∧
    (hbmCause s p.addr.toNat p.payload.length true true = none → respond s p = inject (hbmPut s p.addr.toNat p.bytes) (ackOf s p 0)) := by
  unfold respond
  simp only [h0]
  exact ⟨fun x h => by simp only [h], fun h => by simp only [h]⟩

theorem respond_atom (s : State) (p : Packet) (h0 : p.type.toNat = 3) :
    (∀ x, hbmCause s p.addr.toNat p.payload.length true (atomBytes p.fmt ≠ 0 && p.addr.toNat % atomBytes p.fmt == 0) = some x → respond s p = inject s (ackOf s p x)) ∧
    (hbmCause s p.addr.toNat p.payload.length true (atomBytes p.fmt ≠ 0 && p.addr.toNat % atomBytes p.fmt == 0) = none → respond s p = inject (atomicMany s p.fmt p.op (elemsAt (atomBytes p.fmt) p.addr.toNat p.bytes)) (ackOf s p 0)) := by
  unfold respond
  simp only [h0]
  exact ⟨fun x h => by simp only [h], fun h => by simp only [h]⟩

/-! An intact request that is not held reaches its responder at once. -/

theorem request_now (s : State) (p : Packet) (hi : p.intact = true) (hm : mustHold s p = false) : accepting s p (request · p) = respond s p := by
  simp only [accepting, hi, if_true, request, hm, Bool.false_eq_true, if_false]

theorem freeTag_gone (s : State) (n : BitVec 15) (x : Tag) (h : x ∈ (freeTag s n).fab.tags) : x.tag ≠ n := by
  unfold freeTag at h
  simp at h
  exact h.2

theorem completeWin_frame (s : State) (t : Tag) (b : Bool) : ∃ w, completeWin s t b = { s with fab := { s.fab with wins := w } } := ⟨_, rfl⟩
theorem releaseWin_frame (s : State) (t : Tag) : ∃ w, releaseWin s t = { s with fab := { s.fab with wins := w } } := ⟨_, rfl⟩

theorem endTag_gone (s : State) (t : Tag) (x : Tag) (h : x ∈ (endTag s t).fab.tags) : x.tag ≠ t.tag := freeTag_gone s t.tag x h
theorem endTag_frame (s : State) (t : Tag) : ∃ e, endTag s t = { freeTag s t.tag with fab := { (freeTag s t.tag).fab with ended := e, endedAt := s.now } } :=
  ⟨_, rfl⟩

/-- Nothing earlier than an instruction in flight of a core is still without its outcome (R77). -/
def State.earliest (s : State) (c : CoreId) (f : Flight) : Prop := ∀ g ∈ (s.core c).access.flights, g.done = false → f.seq ≤ g.seq

/-- The fault of the earliest instruction in flight, told from a state that agrees on what the record names. -/
theorem flightFault_faultOf (s u : State) (c : CoreId) (f : Flight) (code : W16) (cause : Nat) (g : Record → Record)
    (h : s.unfaulted c) (he : s.earliest c f) (hc : u.cores = s.cores) (hj : u.job = s.job) (hf : u.flt = s.flt) (hg : u.glb = s.glb) :
    (flightFault u c f code cause g).fab = u.fab ∧ s.faultOf (flightFault u c f code cause g) c (g (accessRecord f.index f.instr code cause)) := by
  unfold flightFault
  generalize hv : updAccess u c (fun a => { a with flights := a.flights.filter (·.seq ≠ f.seq) }) = v
  have e : u.core c = s.core c := by unfold State.core; rw [hc]
  have ev : v.core c = { s.core c with access := { (s.core c).access with flights := (s.core c).access.flights.filter (·.seq ≠ f.seq) } } := by
    rw [← hv]; unfold updAccess; rw [core_updCore_same, e]
  have hu : v.unfaulted c := by
    refine ⟨by rw [ev]; exact h.core, ?_, ?_⟩
    · rw [← hv]; show u.job.aborting = false; rw [hj]; exact h.aborting
    · rw [← hv]; show u.job.quiescing = false; rw [hj]; exact h.quiescing
  obtain ⟨C, k, fr, q, j, fl, hh, o, e1⟩ := accessFaultAt_frame v c f.seq (g (accessRecord f.index f.instr code cause))
  refine ⟨by rw [e1, ← hv]; rfl, ?_⟩
  refine faultOf_of_core s v _ c _ (accessFaultAt_faultOf v c f.seq _ hu ?_).1 ?_ (by rw [← hv]; exact hf) (by rw [← hv]; exact hg)
  · intro x hx hd
    rw [ev] at hx
    exact he x (List.mem_filter.1 hx).1 hd
  · unfold State.coreRecord
    rw [ev, ← hv]
    show _ = _
    simp only [updAccess]
    rw [show (u.updCore c _).job = s.job from hj]
    rfl

theorem quiesce_does (s : State) : (quiesce s).coll.cinches = [] ∧ (quiesce s).fab = { s.fab with sendQ := [] } ∧
    ∀ c, ((quiesce s).core c).running = none ∧ ((quiesce s).core c).access.stopped = true ∧ ((quiesce s).core c).exec.stopped = true := by
  have h := stopCores_halted s
  obtain ⟨C, k, f, e⟩ := stopCores_frame s
  unfold quiesce
  rw [e] at h ⊢
  exact ⟨rfl, rfl, fun c => ⟨(h c).running, (h c).access, (h c).exec⟩⟩

theorem fencedSelf_does (s : State) : (fencedSelf s).coll.cinches = [] ∧ (fencedSelf s).fab = { s.fab with sendQ := [], fenced := true } ∧
    ∀ c, ((fencedSelf s).core c).running = none ∧ ((fencedSelf s).core c).access.stopped = true ∧ ((fencedSelf s).core c).exec.stopped = true := by
  obtain ⟨h1, h2, h3⟩ := quiesce_does s
  unfold fencedSelf raiseOpen
  dsimp only
  obtain ⟨h, o, e⟩ := raiseEvent_frame { (stopJob { (quiesce s) with fab := { (quiesce s).fab with fenced := true } }) with
    free := (stopJob { (quiesce s) with fab := { (quiesce s).fab with fenced := true } }).free + 16 } 2
    (freeBytes (stopJob { (quiesce s) with fab := { (quiesce s).fab with fenced := true } }).free 16)
  rw [e]
  generalize quiesce s = u at *
  refine ⟨h1, ?_, h3⟩
  simp only [stopJob, h2]

theorem updPort_frame (x : State) (k : Nat) (g : Port → Port) : ∃ P, updPort x k g = { x with fab := { x.fab with ports := P } } := by
  unfold updPort; split
  · exact ⟨_, rfl⟩
  · exact ⟨_, rfl⟩

/-- A packet that leaves changes its port's queue, or is delivered. -/
theorem emit_frame (s : State) (n : Nat) (vc : Fin 8) (i : Fin 10) (v : Fin 8) (p : Packet) :
    ∃ P o, emit s n vc i v p = { s with fab := { s.fab with ports := P }, out := s.out ++ o } := by
  unfold emit
  split
  · obtain ⟨P, e⟩ := updPort_frame s n fun q => { q with
      outQ := q.outQ ++ [{ vc := vc, p := { p with hops := p.hops + 1 }, inPort := i, inVc := v, sent := 0 }] }
    exact ⟨P, [], by rw [e, List.append_nil]⟩
  · exact ⟨s.fab.ports, _, rfl⟩

/-- A packet whose route is usable and not fenced is injected on its port (R207, R221). -/
theorem inject_sent (s : State) (p : Packet) (h : routeUsable (routeOf s p.dst) = true) (h1 : routeFenced (routeOf s p.dst) = false) :
    inject s p = emit s (routePort (routeOf s p.dst)) (injectVc (routeOf s p.dst) ((typeClass p.type).getD 3))
      (if p.type = 0x10 || p.type = 0x18 then 9 else 8) 0 p.sealed := by
  unfold inject
  simp only [h, h1, Bool.not_true, Bool.false_eq_true, if_false]

/-- A packet as a tag's first attempt. -/
def SendReq.fresh (q : SendReq) (n : BitVec 15) : Tag :=
  { tag := n, issuer := q.issuer, p := q.p, dest := q.dest, used := 0, sent := false, sentTick := 0, resent := false, noticed := false, timeout := 0, retries := 0 }

/-- A waiting packet under a tag, with room and a credit, is injected (R211, R215, R216). -/
theorem sendOne_sends (s : State) (i : Nat) (q : SendReq) (n : BitVec 15) (w : WinEntry) (rest : List WinEntry)
    (hq : s.fab.sendQ[i]? = some q) (hf : s.fab.fenced = false) (hj : s.job.quiescing = false)
    (hfe : routeFenced (routeOf s q.p.dst) = false) (hh : q.held = none) (ht : pickTag s q.issuer = some n)
    (hw : takeWin s q.p.dst = some (w, rest)) (hr : windowed q.p = true → winRoom w q.p.charge = true)
    (hc : hasCredit s (routePort (routeOf s q.p.dst)) (injectVc (routeOf s q.p.dst) ((typeClass q.p.type).getD 3)) = true) :
    sendOne s i = injectTagged { s with fab := { s.fab with sendQ := s.fab.sendQ.eraseIdx i } } (q.fresh n) w rest := by
  have hr2 : (windowed q.p && !winRoom w q.p.charge) = false := by
    cases h : windowed q.p
    · rfl
    · rw [hr h]; rfl
  have hfj : (s.fab.fenced || s.job.quiescing) = false := by rw [hf, hj]; rfl
  have hc2 : (routeUsable (routeOf s q.p.dst) && !hasCredit s (routePort (routeOf s q.p.dst)) (injectVc (routeOf s q.p.dst) ((typeClass q.p.type).getD 3))) = false := by
    rw [hc]; simp
  unfold sendOne
  simp only [hq, hfj, hfe, hh, ht, hw, hr2, hc2]
  rfl

theorem writeRoute_entry (s : State) (d x : Chip) (v : W32) : routeOf (writeRoute s d v) x =
    if x = d then BitVec.ofNat 32 (v.toNat % 32 + bit (routeFenced (routeOf s d) || v.getLsbD 5) 5 + 64 + 128 * routeVset v) else routeOf s x := by
  have hf : ∀ F : List (Nat × W32), ((F.filter (·.1 != d.toNat)).find? (·.1 == x.toNat)) = if x = d then none else F.find? (·.1 == x.toNat) := by
    intro F
    by_cases hx : x = d
    · subst hx
      simp
    · have hn : x.toNat ≠ d.toNat := fun h => hx (BitVec.eq_of_toNat_eq h)
      rw [if_neg hx, List.find?_filter]
      congr 1
      funext y
      by_cases hy : y.1 = x.toNat
      · simp [hy, hn]
      · simp [hy]
  unfold writeRoute
  dsimp only
  split
  all_goals
    unfold routeOf
    dsimp only
    rw [List.find?_append, hf]
    by_cases hx : x = d
    · subst hx; simp
    · have hn : ¬ d.toNat = x.toNat := fun h => hx (BitVec.eq_of_toNat_eq h.symm)
      simp [hx, hn]

/-- A packet as its source sends it is intact (R202, R220). -/
@[simp] theorem sealed_intact (p : Packet) : p.sealed.intact = true := by
  have h : p.sealed.crc = p.sealed.check := rfl
  unfold Packet.intact
  rw [h, beq_self_eq_true, Bool.and_true]
  rfl

end Sys2Proof.Machine
end

