-- ==== Sys2Proof/Laws/Hbm.lean ====
section
/-! SUPPORT. What the one write of HBM does (R53, R165, R177, R349): its frame, the bytes it stores, and what every other address
reads as. -/

namespace Sys2Proof.Machine

/-! ## The frame -/

theorem Mem.counted.refl (m : Mem) : m.counted m := fun _ => ⟨rfl, fun _ => rfl⟩

theorem Mem.counted.trans {a b c : Mem} (h : a.counted b) (g : b.counted c) : a.counted c := by
  intro k
  refine ⟨?_, fun x => ?_⟩
  · have h1 := congrArg (fun q : Stack => { q with chans := a.hbmStacks[k].chans }) (g k).1
    exact h1.trans (h k).1
  · have h1 := congrArg (fun q : Chan => { q with corrected := a.hbmStacks[k].chans[x].corrected, uncorrectable := a.hbmStacks[k].chans[x].uncorrectable }) ((g k).2 x)
    exact h1.trans ((h k).2 x)

/-- A write that counts nothing. -/
theorem hbmStep_plain (s : State) (c po w F p q fl h o f) : HbmStep s { s with
    mem := { s.mem with cells := c, poison := po, wcb := w }, upd := { s.upd with fingers := F }, job := { s.job with poison := p, consumedNow := q },
    flt := fl, hlk := h, out := o, free := f } := ⟨⟨_, _, _, _, _, _, _, _, _, _, _, _, _, _, _, rfl⟩, .refl _⟩

theorem HbmStep.refl (s : State) : HbmStep s s := hbmStep_plain s _ _ _ _ _ _ _ _ _ _

theorem HbmStep.trans {a b c : State} (h : HbmStep a b) (g : HbmStep b c) : HbmStep a c := by
  refine ⟨?_, h.2.trans g.2⟩
  obtain ⟨⟨_, _, _, _, _, _, _, _, _, _, _, _, _, _, _, e⟩, -⟩ := h
  obtain ⟨⟨_, _, _, _, _, _, _, _, _, _, _, _, _, _, _, e2⟩, -⟩ := g
  subst e
  exact ⟨_, _, _, _, _, _, _, _, _, _, _, _, _, _, _, e2⟩

theorem HbmStep.regions {s t : State} (h : HbmStep s t) : t.mem.regions = s.mem.regions := by obtain ⟨⟨_, _, _, _, _, _, _, _, _, _, _, _, _, _, _, e⟩, -⟩ := h; rw [e]
theorem HbmStep.keyOf {s t : State} (h : HbmStep s t) (a : Nat) : keyOf t a = keyOf s a := by obtain ⟨⟨_, _, _, _, _, _, _, _, _, _, _, _, _, _, _, e⟩, -⟩ := h; rw [e]; rfl
theorem HbmStep.replay {s t : State} (h : HbmStep s t) : t.job.replay = s.job.replay := by obtain ⟨⟨_, _, _, _, _, _, _, _, _, _, _, _, _, _, _, e⟩, -⟩ := h; rw [e]
theorem HbmStep.cores {s t : State} (h : HbmStep s t) : t.cores = s.cores := by obtain ⟨⟨_, _, _, _, _, _, _, _, _, _, _, _, _, _, _, e⟩, -⟩ := h; rw [e]
theorem HbmStep.overflow {s t : State} (h : HbmStep s t) : t.job.overflow = s.job.overflow := by obtain ⟨⟨_, _, _, _, _, _, _, _, _, _, _, _, _, _, _, e⟩, -⟩ := h; rw [e]

theorem consume_hbm (s : State) (n : Nat) (c : Option CoreId) (a : Nat) : HbmStep s (consume s n c a) ∧ (consume s n c a).mem = s.mem := by
  unfold consume
  dsimp only
  split
  · exact ⟨hbmStep_plain s _ _ _ _ _ _ _ _ _ _, rfl⟩
  · obtain ⟨f, h, o, e⟩ := logRecord_frame ({ s with flt := { s.flt with consumptions := bump s.flt.consumptions }, job := { s.job with poison := true, consumedNow := true } } : State)
      { Record.blank with code := codePoison, cause := BitVec.ofNat 8 n, source := 4, core := c, step := s.job.step, addr := BitVec.ofNat 40 a }
    rw [e]
    exact ⟨hbmStep_plain s _ _ _ _ _ _ _ _ _ _, rfl⟩

/-- A line's poison is set, and a poisoned store through alias W is a consumption (R349, R350). -/
theorem poisonSet_hbm (s : State) (l : Nat) (p : Bool) : HbmStep s { s with mem := { s.mem with poison := setTo l p s.mem.poison } } :=
  hbmStep_plain s _ _ _ _ _ _ _ _ _ _

theorem settleLine_hbm (s : State) (l : Nat) (p v : Bool) :
    HbmStep s (settleLine s l p v) ∧ (settleLine s l p v).mem = { s.mem with poison := setTo l p s.mem.poison } := by
  unfold settleLine
  dsimp only
  split
  · have := consume_hbm ({ s with mem := { s.mem with poison := setTo l p s.mem.poison } } : State) 0 none (aliasW { s with mem := { s.mem with poison := setTo l p s.mem.poison } } l)
    exact ⟨(poisonSet_hbm s l p).trans this.1, this.2⟩
  · exact ⟨poisonSet_hbm s l p, rfl⟩

/-- The write-combining buffers change. -/
theorem wcbSet_hbm (s : State) (w) : HbmStep s { s with mem := { s.mem with wcb := w } } := hbmStep_plain s _ _ _ _ _ _ _ _ _ _

theorem wcbWriteback_hbm (s : State) (k : Fin 24) (e : Wcb) :
    HbmStep s (wcbWriteback s k e) ∧ (wcbWriteback s k e).mem =
      { s.mem with wcb := vmod s.mem.wcb k (·.filter (·.line != e.line)), poison := setTo e.line (e.poison || s.mem.poison.contains e.line) s.mem.poison } := by
  have := settleLine_hbm ({ s with mem := { s.mem with wcb := vmod s.mem.wcb k (·.filter (·.line != e.line)) } } : State) e.line (e.poison || s.mem.poison.contains e.line) e.viaW
  exact ⟨(wcbSet_hbm s _).trans this.1, this.2⟩

/-- A channel's counts of errors change. -/
theorem updChan_counted (s : State) (p : Nat × Nat) (f : Chan → Chan)
    (hf : ∀ c, { f c with corrected := c.corrected, uncorrectable := c.uncorrectable } = c) : s.mem.counted (updChan s p f).mem := by
  unfold updChan
  intro k
  have hv : ∀ {α : Type} {n : Nat} (v : Vector α n) (i : Fin n) (g : α → α) (j : Fin n), (vmod v i g)[j] = if i = j then g v[j] else v[j] := by
    intro α n v i g j
    unfold vmod
    by_cases h : i = j
    · subst h; simp
    · rw [if_neg h]; exact Vector.getElem_set_ne _ _ fun e => h (Fin.ext e)
  simp only [hv]
  split
  · refine ⟨rfl, fun c => ?_⟩
    simp only [hv]
    split
    · exact hf _
    · rfl
  · exact ⟨rfl, fun _ => rfl⟩

/-- The class of a line read moves no byte; it counts, and may poison the line (R192). -/
theorem classRead_hbm (s : State) (b l n : Nat) (rw' : Bool) : HbmStep s (classRead s b l n rw') ∧ (classRead s b l n rw').mem.cells = s.mem.cells ∧
    (classRead s b l n rw').mem.wcb = s.mem.wcb := by
  have hu : HbmStep s (countUncorrectable s b) ∧ (countUncorrectable s b).mem.cells = s.mem.cells ∧ (countUncorrectable s b).mem.wcb = s.mem.wcb :=
    ⟨⟨⟨_, _, _, _, _, _, _, _, _, _, _, _, _, _, _, rfl⟩, updChan_counted s _ _ fun _ => rfl⟩, rfl, rfl⟩
  unfold classRead
  split
  · exact ⟨.refl s, rfl, rfl⟩
  · exact ⟨⟨⟨_, _, _, _, _, _, _, _, _, _, _, _, _, _, _, rfl⟩, updChan_counted s _ _ fun _ => rfl⟩, rfl, rfl⟩
  · split
    · exact ⟨hu.1.trans (hbmStep_plain _ _ _ _ _ _ _ _ _ _ _), hu.2⟩
    · exact hu

/-- An entry is written back by read-modify-write (R177, R178). -/
theorem wcbModify_hbm (s : State) (k : Fin 24) (e : Wcb) : HbmStep s (wcbModify s k e) ∧ (wcbModify s k e).mem.cells = s.mem.cells := by
  unfold wcbModify
  have h := classRead_hbm s.draw.2 (64 * (e.line % 2 ^ 34)) e.line (s.draw.1.toNat % 73) true
  have h2 := wcbWriteback_hbm (classRead s.draw.2 (64 * (e.line % 2 ^ 34)) e.line (s.draw.1.toNat % 73) true) k e
  exact ⟨HbmStep.trans (hbmStep_plain s _ _ _ _ _ _ _ _ _ _) (h.1.trans h2.1), by rw [h2.2]; exact h.2.1⟩

theorem wcbMerge_hbm (s : State) (k : Fin 24) (l o n : Nat) (p v : Bool) :
    HbmStep s (wcbMerge s k l o n p v) ∧ (wcbMerge s k l o n p v).mem.cells = s.mem.cells := by
  unfold wcbMerge
  extract_lets mask rest src1 s1 src2
  split
  · extract_lets e1
    split
    · have := settleLine_hbm ({ s with mem := { s.mem with wcb := s.mem.wcb.set k rest } } : State) l
      refine ⟨HbmStep.trans (wcbSet_hbm s _) (this _ _).1, ?_⟩
      rw [(this _ _).2]
    · exact ⟨wcbSet_hbm s _, rfl⟩
  · have h : HbmStep s s1 ∧ s1.mem.cells = s.mem.cells := by
      dsimp only [s1]
      split
      · split
        · exact wcbModify_hbm s k _
        · exact ⟨.refl s, rfl⟩
      · exact ⟨.refl s, rfl⟩
    exact ⟨h.1.trans (wcbSet_hbm s1 _), h.2⟩

/-- A write of one line: bytes at its key, unless a replay discards it (R165). -/
theorem storeLine_hbm (s : State) (a : Nat) (bs : List Byte) (p : Bool) :
    HbmStep s (storeLine s a bs p) ∧ (storeLine s a bs p).mem.cells =
      if s.job.replay.isSome && viaAliasW s a then s.mem.cells else cellsWrite (keyOf s a) bs s.mem.cells := by
  unfold storeLine
  extract_lets key line off k reg viaW src1 s1 src2 s2
  have hv : viaAliasW s a = viaW := rfl
  have h : ∃ F, s1 = { s with upd := { s.upd with fingers := F } } := by
    clear hv
    clear_value viaW reg
    rcases reg with _ | ⟨r, w⟩
    · exact ⟨s.upd.fingers, rfl⟩
    · cases w
      · exact ⟨s.upd.fingers, rfl⟩
      · dsimp only [s1]
        split
        · exact ⟨_, rfl⟩
        · exact ⟨s.upd.fingers, rfl⟩
  rw [hv]
  clear_value viaW s1
  obtain ⟨F, rfl⟩ := h
  split
  · exact ⟨hbmStep_plain s _ _ _ _ _ _ _ _ _ _, rfl⟩
  · split
    · have := settleLine_hbm ({ s2 with mem := { s2.mem with wcb := vmod s2.mem.wcb k (·.filter (·.line != line)) } } : State) line p viaW
      exact ⟨HbmStep.trans (hbmStep_plain s _ _ _ _ _ _ _ _ _ _) this.1, by rw [this.2]⟩
    · have := wcbMerge_hbm s2 k line off bs.length p viaW
      exact ⟨HbmStep.trans (hbmStep_plain s _ _ _ _ _ _ _ _ _ _) this.1, this.2⟩

theorem storeHbmP_hbm (n : Nat) (s : State) (a : Nat) (bs : List PByte) : HbmStep s (storeHbmP n s a bs) := by
  induction n generalizing s a bs with
  | zero => exact .refl s
  | succ n ih =>
    unfold storeHbmP
    split
    · exact .refl s
    · exact (storeLine_hbm s _ _ _).1.trans (ih _ _ _)

/-- A write of one poison is a write of bytes that all have it. -/
theorem storeLines_eq (n : Nat) (s : State) (a : Nat) (bs : List Byte) (p : Bool) :
    storeLines n s a bs p = storeHbmP n s a (bs.map fun b => (b, p)) := by
  induction n generalizing s a bs with
  | zero => rfl
  | succ n ih =>
    unfold storeLines storeHbmP
    cases bs with
    | nil => rfl
    | cons b bs =>
      obtain ⟨m, hm⟩ : ∃ m, 64 - a % 64 = m + 1 := ⟨63 - a % 64, by omega⟩
      have ht : ((b :: bs).map fun b => (b, p)).take (64 - a % 64) = ((b :: bs).take (64 - a % 64)).map fun b => (b, p) := List.map_take.symm
      have hd : ((b :: bs).map fun b => (b, p)).drop (64 - a % 64) = ((b :: bs).drop (64 - a % 64)).map fun b => (b, p) := List.map_drop.symm
      have hp : ((((b :: bs).take (64 - a % 64)).map fun b => (b, p)).any fun x => x.2) = p := by
        rw [hm, List.take_succ_cons, List.any_map]
        cases p
        · exact List.any_eq_false.2 fun _ _ => Bool.false_ne_true
        · rfl
      have hf : (((b :: bs).take (64 - a % 64)).map fun b => (b, p)).map (fun x => x.1) = (b :: bs).take (64 - a % 64) := by
        rw [List.map_map]; exact List.map_id _
      dsimp only
      rw [ht, hd, hp, hf, ← ih]
      rfl

theorem storeLines_hbm (n : Nat) (s : State) (a : Nat) (bs : List Byte) (p : Bool) : HbmStep s (storeLines n s a bs p) := by
  rw [storeLines_eq]; exact storeHbmP_hbm _ _ _ _

theorem hbmPut_hbm (s : State) (a : Nat) (bs : List PByte) : HbmStep s (hbmPut s a bs) := storeHbmP_hbm _ _ _ _

theorem storeHbm_hbm (s : State) (a : Nat) (bs : List Byte) (p : Bool) : HbmStep s (storeHbm s a bs p) := storeLines_hbm _ _ _ _ _

theorem HbmStep.foldl {α : Type} (f : State → α → State) (hf : ∀ s x, HbmStep s (f s x)) (l : List α) (s : State) : HbmStep s (l.foldl f s) := by
  induction l generalizing s with
  | nil => exact .refl s
  | cons x l ih => exact (hf s x).trans (ih _)

theorem flushChannel_hbm (s : State) (k c : Nat) : HbmStep s (flushChannel s k c) :=
  HbmStep.foldl _ (fun s _ => HbmStep.foldl _ (fun s _ => (wcbWriteback_hbm s _ _).1) _ s) _ s

/-! ## Keys within a line -/

theorem regionOf_line (rs : List Region) (h : ∀ r ∈ rs, r.base % 64 = 0 ∧ r.size % 64 = 0 ∧ r.wbase % 64 = 0) (a i : Nat) (hi : a % 64 + i < 64) :
    regionOf rs (a + i) = regionOf rs a := by
  induction rs with
  | nil => rfl
  | cons r t ih =>
    obtain ⟨h1, h2, h3⟩ := h r (List.mem_cons_self ..)
    have e1 : (r.base ≤ a + i && decide (a + i < r.base + r.size)) = (r.base ≤ a && decide (a < r.base + r.size)) := by
      rw [Bool.eq_iff_iff]; simp only [Bool.and_eq_true, decide_eq_true_eq]; omega
    have e2 : (r.sided && r.wbase ≤ a + i && decide (a + i < r.wbase + r.size)) = (r.sided && r.wbase ≤ a && decide (a < r.wbase + r.size)) := by
      rw [Bool.eq_iff_iff]; simp only [Bool.and_eq_true, decide_eq_true_eq]
      constructor <;> rintro ⟨⟨h4, h5⟩, h6⟩ <;> exact ⟨⟨h4, by omega⟩, by omega⟩
    simp only [regionOf, e1, e2, ih fun r hr => h r (List.mem_cons_of_mem _ hr)]

theorem regionOf_ge (rs : List Region) (a : Nat) (r : Region) (w : Bool) (h : regionOf rs a = some (r, w)) :
    r ∈ rs ∧ (if w then r.wbase else r.base) ≤ a := by
  induction rs with
  | nil => simp [regionOf] at h
  | cons r t ih =>
    simp only [regionOf] at h
    split at h
    · rename_i hh
      simp at h hh
      obtain ⟨rfl, rfl⟩ := h
      exact ⟨List.mem_cons_self .., by simpa using hh.1⟩
    · split at h
      · rename_i hh
        simp at h hh
        obtain ⟨rfl, rfl⟩ := h
        exact ⟨List.mem_cons_self .., by simpa using hh.1.2⟩
      · exact ⟨List.mem_cons_of_mem _ (ih h).1, (ih h).2⟩

/-- Within a line, keys run with addresses. -/
theorem keyOf_line (s : State) (h : s.aligned) (a i : Nat) (hi : a % 64 + i < 64) : keyOf s (a + i) = keyOf s a + i := by
  unfold keyOf
  rw [regionOf_line _ h a i hi]
  split
  · rename_i r w hr
    have := (regionOf_ge _ _ _ _ hr).2
    split <;> omega
  · rfl

/-! ## What is stored -/

theorem storeLine_get_other (s : State) (a : Nat) (bs : List Byte) (p : Bool) (x : Nat) (h : ∀ i < bs.length, x ≠ keyOf s a + i) :
    cellsGet x (storeLine s a bs p).mem.cells = cellsGet x s.mem.cells := by
  rw [(storeLine_hbm s a bs p).2]
  split
  · rfl
  · refine cellsGet_write_other _ _ _ _ ?_
    by_contra hc
    have := h (x - keyOf s a) (by omega)
    omega

/-- No byte outside the stored range changes. -/
theorem storeHbmP_get_other (n : Nat) (s : State) (h : s.aligned) (a : Nat) (bs : List PByte) (x : Nat)
    (hx : ∀ i < bs.length, x ≠ keyOf s (a + i)) : cellsGet x (storeHbmP n s a bs).mem.cells = cellsGet x s.mem.cells := by
  induction n generalizing s a bs with
  | zero => rfl
  | succ n ih =>
    unfold storeHbmP
    split
    · rfl
    · dsimp only
      generalize ((bs.take (64 - a % 64)).any fun x => x.2) = p
      have hb := (storeLine_hbm s a ((bs.take (64 - a % 64)).map fun x => x.1) p).1
      rw [ih]
      · refine storeLine_get_other _ _ _ _ _ fun i hi => ?_
        simp only [List.length_map, List.length_take] at hi
        rw [← keyOf_line s h a i (by omega)]
        exact hx i (by omega)
      · unfold State.aligned; rw [hb.regions]; exact h
      · intro i hi
        simp only [List.length_drop] at hi
        rw [hb.keyOf, Nat.add_assoc]
        exact hx _ (by omega)

/-- A write of HBM changes no byte outside its range. -/
theorem hbmPut_other (s : State) (h : s.aligned) (a : Nat) (bs : List PByte) (b : Nat)
    (hb : ∀ i < bs.length, keyOf s b ≠ keyOf s (a + i)) : readHbm (hbmPut s a bs) b 1 = readHbm s b 1 := by
  have := storeHbmP_get_other (bs.length / 64 + 2) s h a bs (keyOf s b) hb
  simp only [readHbm, List.range_one, List.map_cons, List.map_nil, Nat.add_zero, (hbmPut_hbm s a bs).keyOf]
  exact congrArg (fun x => [x]) this

/-- A write of one poison. -/
theorem storeHbm_eq (s : State) (a : Nat) (bs : List Byte) (p : Bool) : storeHbm s a bs p = hbmPut s a (bs.map fun b => (b, p)) := by
  unfold storeHbm hbmPut
  rw [storeLines_eq, List.length_map]

theorem storeHbm_other (s : State) (h : s.aligned) (a : Nat) (bs : List Byte) (p : Bool) (b : Nat)
    (hb : ∀ i < bs.length, keyOf s b ≠ keyOf s (a + i)) : readHbm (storeHbm s a bs p) b 1 = readHbm s b 1 := by
  rw [storeHbm_eq]
  exact hbmPut_other s h a _ b (by rw [List.length_map]; exact hb)

theorem storeLine_get_same (s : State) (a : Nat) (bs : List Byte) (p : Bool) (hw : cellsWf s.mem.cells = true)
    (hd : (s.job.replay.isSome && viaAliasW s a) = false) (i : Nat) (hi : i < bs.length) :
    cellsGet (keyOf s a + i) (storeLine s a bs p).mem.cells = bs[i] := by
  rw [(storeLine_hbm s a bs p).2, hd, if_neg (by simp)]
  exact cellsGet_write_same _ _ _ hw i hi

theorem storeLine_wf (s : State) (a : Nat) (bs : List Byte) (p : Bool) (hw : cellsWf s.mem.cells = true) :
    cellsWf (storeLine s a bs p).mem.cells = true := by
  rw [(storeLine_hbm s a bs p).2]
  split
  · exact hw
  · exact cellsWrite_wf _ _ _ hw

/-- Every byte stored is the byte read, where no two of the range's bytes share a key. -/
theorem storeHbmP_get_same (n : Nat) (s : State) (h : s.aligned) (hw : cellsWf s.mem.cells = true) (hd : s.job.replay = none) (a : Nat) (bs : List PByte)
    (hn : bs.length + a % 64 ≤ 64 * n) (hk : ∀ i j, i < bs.length → j < bs.length → keyOf s (a + i) = keyOf s (a + j) → i = j) (i : Nat) (hi : i < bs.length) :
    cellsGet (keyOf s (a + i)) (storeHbmP n s a bs).mem.cells = bs[i].1 := by
  induction n generalizing s a bs i with
  | zero => omega
  | succ n ih =>
    unfold storeHbmP
    have hne : bs.isEmpty = false := by cases bs <;> simp_all
    rw [hne, if_neg (by simp)]
    dsimp only
    generalize ((bs.take (64 - a % 64)).any fun x => x.2) = p
    have hb := (storeLine_hbm s a ((bs.take (64 - a % 64)).map fun x => x.1) p).1
    have hal : (storeLine s a ((bs.take (64 - a % 64)).map fun x => x.1) p).aligned := by unfold State.aligned; rw [hb.regions]; exact h
    have hwf := storeLine_wf s a ((bs.take (64 - a % 64)).map fun x => x.1) p hw
    have hget := fun j hj => storeLine_get_same s a ((bs.take (64 - a % 64)).map fun x => x.1) p hw (by rw [hd]; rfl) j hj
    have hrp : (storeLine s a ((bs.take (64 - a % 64)).map fun x => x.1) p).job.replay = none := by rw [hb.replay]; exact hd
    simp only [List.length_map, List.getElem_map] at hget
    generalize (storeLine s a ((bs.take (64 - a % 64)).map fun x => x.1) p) = u at *
    by_cases hlt : i < 64 - a % 64
    · rw [storeHbmP_get_other _ _ hal]
      · have := hget i (by simp; omega)
        rw [keyOf_line s h a i (by omega), this]
        simp
      · intro j hj
        simp only [List.length_drop] at hj
        rw [hb.keyOf, Nat.add_assoc]
        intro e
        have := hk i (64 - a % 64 + j) hi (by omega) e
        omega
    · have := ih u hal hwf hrp (a + (64 - a % 64)) (bs.drop (64 - a % 64))
        (by simp only [List.length_drop]; omega)
        (by
          intro x y hx hy e
          simp only [List.length_drop] at hx hy
          rw [hb.keyOf, hb.keyOf, Nat.add_assoc, Nat.add_assoc] at e
          have := hk _ _ (by omega) (by omega) e
          omega) (i - (64 - a % 64)) (by simp only [List.length_drop]; omega)
      rw [hb.keyOf] at this
      have e1 : a + (64 - a % 64) + (i - (64 - a % 64)) = a + i := by omega
      rw [e1] at this
      rw [this]
      simp only [List.getElem_drop]
      congr 2
      omega

theorem hbmPut_same (s : State) (h : s.aligned) (hw : cellsWf s.mem.cells = true) (hd : s.job.replay = none) (a : Nat) (bs : List PByte)
    (hk : ∀ i j, i < bs.length → j < bs.length → keyOf s (a + i) = keyOf s (a + j) → i = j) :
    readHbm (hbmPut s a bs) a bs.length = bs.map (·.1) := by
  apply List.ext_getElem
  · simp [readHbm]
  · intro i h1 h2
    simp only [readHbm, List.getElem_map, List.getElem_range, (hbmPut_hbm s a bs).keyOf]
    rw [List.length_map] at h2
    exact storeHbmP_get_same _ s h hw hd a bs (by omega) hk i h2

theorem storeHbm_same (s : State) (h : s.aligned) (hw : cellsWf s.mem.cells = true) (hd : s.job.replay = none) (a : Nat) (bs : List Byte) (p : Bool)
    (hk : ∀ i j, i < bs.length → j < bs.length → keyOf s (a + i) = keyOf s (a + j) → i = j) : readHbm (storeHbm s a bs p) a bs.length = bs := by
  have := hbmPut_same s h hw hd a (bs.map fun b => (b, p)) (by rw [List.length_map]; exact hk)
  rw [List.length_map, List.map_map] at this
  rw [storeHbm_eq, this]
  exact List.map_id _

/-! ## Words of bytes -/

theorem leBytes_length (n v : Nat) : (leBytes n v).length = n := by
  induction n generalizing v with
  | zero => rfl
  | succ n ih => simp [leBytes, ih]

theorem leNat_leBytes (n v : Nat) : leNat (leBytes n v) = v % 256 ^ n := by
  induction n generalizing v with
  | zero => simp [leBytes, leNat, Nat.mod_one]
  | succ n ih =>
    simp only [leBytes, leNat, ih, BitVec.toNat_ofNat]
    rw [show 256 ^ (n + 1) = 256 * 256 ^ n from by ring, Nat.mod_mul]

theorem bytes32_word (ws : List W32) (i : Nat) (h : i < ws.length) : ((bytes32 ws).drop (4 * i)).take 4 = leBytes 4 ws[i].toNat := by
  induction ws generalizing i with
  | nil => simp at h
  | cons w ws ih =>
    have hl : (leBytes 4 w.toNat).length = 4 := leBytes_length _ _
    have e : bytes32 (w :: ws) = leBytes 4 w.toNat ++ bytes32 ws := by simp [bytes32]
    rw [e]
    cases i with
    | zero => simp only [Nat.mul_zero, List.drop_zero]; rw [List.take_append_of_le_length (by omega), List.take_of_length_le (by omega)]; rfl
    | succ i =>
      have : 4 * (i + 1) = (leBytes 4 w.toNat).length + 4 * i := by omega
      rw [this, List.drop_length_add_append]
      simpa using ih i (by simpa using h)

theorem bytes32_length (ws : List W32) : (bytes32 ws).length = 4 * ws.length := by
  induction ws with
  | nil => rfl
  | cons w ws ih =>
    have e : bytes32 (w :: ws) = leBytes 4 w.toNat ++ bytes32 ws := by simp [bytes32]
    rw [e, List.length_append, ih, leBytes_length, List.length_cons]; omega

theorem readHbm_part (s : State) (a n i k : Nat) (h : i + k ≤ n) : readHbm s (a + i) k = ((readHbm s a n).drop i).take k := by
  apply List.ext_getElem
  · simp [readHbm]; omega
  · intro j h1 h2
    simp [readHbm, Nat.add_assoc]

theorem readHbm_congr (s t : State) (a n : Nat) (h : ∀ j < n, readHbm t (a + j) 1 = readHbm s (a + j) 1) : readHbm t a n = readHbm s a n := by
  unfold readHbm
  apply List.map_congr_left
  intro j hj
  have := h j (List.mem_range.1 hj)
  simpa [readHbm] using this

theorem storeHbmP_cells (n : Nat) (s : State) (a : Nat) (bs : List PByte) (hw : cellsWf s.mem.cells = true) : cellsWf (storeHbmP n s a bs).mem.cells = true := by
  induction n generalizing s a bs with
  | zero => exact hw
  | succ n ih =>
    unfold storeHbmP
    split
    · exact hw
    · exact ih _ _ _ (storeLine_wf _ _ _ _ hw)

theorem hbmPut_cells (s : State) (a : Nat) (bs : List PByte) (hw : cellsWf s.mem.cells = true) : cellsWf (hbmPut s a bs).mem.cells = true :=
  storeHbmP_cells _ _ _ _ hw

theorem storeLines_wf (n : Nat) (s : State) (a : Nat) (bs : List Byte) (p : Bool) (hw : cellsWf s.mem.cells = true) : cellsWf (storeLines n s a bs p).mem.cells = true := by
  rw [storeLines_eq]; exact storeHbmP_cells _ _ _ _ hw

/-! ## Discarded writes (R165) -/

theorem storeLines_discard (n : Nat) (s : State) (a : Nat) (bs : List Byte) (p : Bool) (hd : s.job.replay.isSome = true)
    (hv : ∀ i < bs.length, viaAliasW s (a + i) = true) : (storeLines n s a bs p).mem.cells = s.mem.cells := by
  induction n generalizing s a bs with
  | zero => rfl
  | succ n ih =>
    unfold storeLines
    split
    · rfl
    · rename_i hne
      have h0 : viaAliasW s a = true := by
        have := hv 0 (by cases bs <;> simp_all)
        simpa using this
      have hb := storeLine_hbm s a (bs.take (64 - a % 64)) p
      dsimp only
      rw [ih]
      · rw [hb.2, hd, h0]; rfl
      · rw [hb.1.replay]; exact hd
      · intro i hi
        simp only [List.length_drop] at hi
        unfold viaAliasW
        rw [hb.1.regions, Nat.add_assoc]
        exact hv _ (by omega)

/-- A replay's writes through alias W store nothing. -/
theorem storeHbm_discard (s : State) (a : Nat) (bs : List Byte) (p : Bool) (hd : s.job.replay.isSome = true)
    (hv : ∀ i < bs.length, viaAliasW s (a + i) = true) : (storeHbm s a bs p).mem.cells = s.mem.cells := storeLines_discard _ s a bs p hd hv

/-! ## Atomics and line reads (R178, R180, R181, R192) -/

theorem HbmStep.memoryStep {s t : State} (h : HbmStep s t) : MemoryStep s t := by
  obtain ⟨⟨_, _, _, _, _, _, _, _, _, _, _, _, _, _, _, e⟩, -⟩ := h; rw [e]; rfl
theorem MemoryStep.trans {a b c : State} (h : MemoryStep a b) (g : MemoryStep b c) : MemoryStep a c := by
  unfold MemoryStep at *
  rw [g, h]

theorem mem_setPut (a x : Nat) (l : List Nat) : x ∈ setPut a l ↔ x = a ∨ x ∈ l := by
  induction l with
  | nil => simp [setPut]
  | cons b l ih =>
    unfold setPut
    split
    · simp
    · split
      · rename_i h; subst h; simp
      · simp only [List.mem_cons, ih]; tauto

theorem contains_setTo (a : Nat) (p : Bool) (l : List Nat) : (setTo a p l).contains a = p := by
  unfold setTo
  cases p
  · simp [setDel]
  · simp [mem_setPut]

theorem mem_vmod {α : Type} {n : Nat} (v : Vector α n) (i : Fin n) (f : α → α) (x : α) (h : x ∈ (vmod v i f).toList) : x ∈ v.toList ∨ x = f v[i] := by
  unfold vmod at h
  rw [Vector.mem_toList_iff] at h ⊢
  rcases Vector.mem_or_eq_of_mem_set h with h | h
  · exact Or.inl h
  · exact Or.inr h

/-- A line enters an atomic unit: no byte changes, and its write-combining entry's poison is the line's (R178, R181). -/
theorem atomicEnter_enter (s : State) (k : Fin 24) (l : Nat) : MemoryStep s (atomicEnter s k l) ∧ (atomicEnter s k l).mem.cells = s.mem.cells ∧
    (∀ a, keyOf (atomicEnter s k l) a = keyOf s a) ∧ (atomicEnter s k l).job.overflow = s.job.overflow ∧ (atomicEnter s k l).job.replay = s.job.replay ∧
    (linePoison s l = false → linePoison (atomicEnter s k l) l = false) ∧
    (s.mem.poison.contains l = true → (atomicEnter s k l).mem.poison.contains l = true) := by
  unfold atomicEnter
  extract_lets s1 rest kept src
  have h : HbmStep s s1 ∧ s1.mem.cells = s.mem.cells ∧ (linePoison s l = false → linePoison s1 l = false) ∧
      (s.mem.poison.contains l = true → s1.mem.poison.contains l = true) := by
    dsimp only [s1]
    split
    · rename_i e he
      have h1 := List.find?_some he
      have h2 := List.mem_of_find?_eq_some he
      have hl : e.line = l := by simpa using h1
      obtain ⟨hb, hm⟩ := wcbWriteback_hbm s k e
      refine ⟨hb, by rw [hm], fun hp => ?_, fun hp => ?_⟩
      · unfold linePoison at hp ⊢
        rw [hm]
        simp only [Bool.or_eq_false_iff] at hp ⊢
        have hep : e.poison = false := by
          have := hp.2
          rw [List.any_eq_false] at this
          have := this s.mem.wcb[k] (by rw [Vector.mem_toList_iff]; exact Vector.getElem_mem _)
          rw [Bool.not_eq_true, List.any_eq_false] at this
          have := this e h2
          simpa [hl] using this
        refine ⟨by rw [hl, contains_setTo, hep, hp.1]; rfl, ?_⟩
        rw [List.any_eq_false]
        intro w hw
        rcases mem_vmod _ _ _ _ hw with hw | rfl
        · have := hp.2; rw [List.any_eq_false] at this; exact this w hw
        · rw [Bool.not_eq_true, List.any_eq_false]
          intro x hx
          simp only [List.mem_filter, hl] at hx
          have := hx.2
          simp at this
          simp [this]
      · rw [hm, hl, contains_setTo, hp]; simp
    · exact ⟨.refl s, rfl, fun h => h, fun h => h⟩
  clear_value s1
  obtain ⟨hb, h1, h2, h3⟩ := h
  refine ⟨hb.memoryStep.trans rfl, h1, hb.keyOf, hb.overflow, hb.replay, h2, h3⟩

theorem noteTouch_frame (s : State) (fmt op : BitVec 4) (a : Nat) : ∃ u, noteTouch s fmt op a = { s with upd := u } := by
  unfold noteTouch
  dsimp only
  repeat' split
  all_goals first | exact ⟨s.upd, rfl⟩ | exact ⟨_, rfl⟩

theorem elemsAt_one (n a : Nat) (bs : List PByte) (hn : n = 2 ∨ n = 4) (h : bs.length = n) : elemsAt n a bs = [(a, bs)] := by
  unfold elemsAt
  have : chunksOf n bs.length bs = [bs] := by
    rcases hn with rfl | rfl
    · match bs, h with
      | [x, y], _ => simp [chunksOf]
    · match bs, h with
      | [x, y, z, w], _ => simp [chunksOf]
  rw [this]
  simp

/-- An atomic update of one element that carries no poison (R180). -/
theorem atomicElem_does (s : State) (fmt op : BitVec 4) (a : Nat) (v : W32) (hw : cellsWf s.mem.cells = true) (hal : s.aligned) (hr : s.job.replay = none)
    (hn : atomBytes fmt = 2 ∨ atomBytes fmt = 4) (ha : a % atomBytes fmt = 0) :
    MemoryStep s (atomicElem s fmt op a v) ∧ s.keeps (atomicElem s fmt op a v) a (atomBytes fmt) ∧
    (linePoison s (keyOf s a / 64) = false →
      let r := atomicValue fmt op (BitVec.ofNat 32 (readLe s a (atomBytes fmt))) v
      readHbm (atomicElem s fmt op a v) a (atomBytes fmt) = leBytes (atomBytes fmt) r.1.toNat ∧
        (atomicElem s fmt op a v).job.overflow = (s.job.overflow || r.2)) ∧
    (s.mem.poison.contains (keyOf s a / 64) = true →
      (atomicElem s fmt op a v).mem.cells = s.mem.cells ∧ (atomicElem s fmt op a v).job.overflow = s.job.overflow) := by
  obtain ⟨e1, e2, e3, e4, e5, e6, e7⟩ := atomicEnter_enter s (ctrlOf s a) (keyOf s a / 64)
  generalize hu : atomicEnter s (ctrlOf s a) (keyOf s a / 64) = u at *
  have hk : ∀ i < atomBytes fmt, keyOf s (a + i) = keyOf s a + i := by
    intro i hi
    apply keyOf_line s hal
    rcases hn with h | h <;> rw [h] at ha hi <;> omega
  have hrd : cellsRead (keyOf s a) (atomBytes fmt) u.mem.cells = readHbm s a (atomBytes fmt) := by
    unfold cellsRead readHbm
    rw [e2]
    apply List.map_congr_left
    intro i hi
    rw [hk i (List.mem_range.1 hi)]
  unfold atomicElem
  simp only [hu, hr, Option.isSome_none, Bool.false_and, Bool.false_eq_true, if_false, hrd]
  by_cases hp : linePoison u (keyOf s a / 64) = true
  · rw [if_pos hp]
    refine ⟨e1, ?_, ?_, fun _ => ⟨e2, e4⟩⟩
    · intro b _; unfold readHbm; rw [e2]; simp only [e3]
    · intro h; rw [e6 h] at hp; simp at hp
  · rw [if_neg hp]
    generalize hrr : atomicValue fmt op (BitVec.ofNat 32 (leNat (readHbm s a (atomBytes fmt)))) v = r
    obtain ⟨U, hU⟩ := noteTouch_frame (orOverflow { u with mem := { u.mem with cells := cellsWrite (keyOf s a) (leBytes (atomBytes fmt) r.1.toNat) u.mem.cells } } r.2) fmt op a
    rw [hU]
    have ho : orOverflow { u with mem := { u.mem with cells := cellsWrite (keyOf s a) (leBytes (atomBytes fmt) r.1.toNat) u.mem.cells } } r.2 =
        { u with mem := { u.mem with cells := cellsWrite (keyOf s a) (leBytes (atomBytes fmt) r.1.toNat) u.mem.cells }, job := { u.job with overflow := u.job.overflow || r.2 } } := by
      unfold orOverflow; cases r.2 <;> simp
    rw [ho]
    refine ⟨e1.trans rfl, ?_, fun h => ⟨?_, ?_⟩, fun h => absurd (by unfold linePoison; rw [e7 h]; rfl) hp⟩
    · intro b hb
      have hkb : ∀ x, keyOf { u with mem := { u.mem with cells := cellsWrite (keyOf s a) (leBytes (atomBytes fmt) r.1.toNat) u.mem.cells }, job := { u.job with overflow := u.job.overflow || r.2 }, upd := U } x = keyOf s x := fun x => (show _ = keyOf u x from rfl).trans (e3 x)
      simp only [readHbm, hkb]
      simp only [List.range_one, List.map_cons, List.map_nil, Nat.add_zero, e2]
      rw [cellsGet_write_other]
      rw [leBytes_length]
      by_contra hc
      have := hb (keyOf s b - keyOf s a) (by omega)
      rw [hk _ (by omega)] at this
      omega
    · have hkb : ∀ x, keyOf { u with mem := { u.mem with cells := cellsWrite (keyOf s a) (leBytes (atomBytes fmt) r.1.toNat) u.mem.cells }, job := { u.job with overflow := u.job.overflow || r.2 }, upd := U } x = keyOf s x := fun x => (show _ = keyOf u x from rfl).trans (e3 x)
      rw [show atomicValue fmt op (BitVec.ofNat 32 (readLe s a (atomBytes fmt))) v = r from hrr]
      apply List.ext_getElem
      · simp [readHbm, leBytes_length]
      · intro i h1 h2
        rw [leBytes_length] at h2
        simp only [readHbm, hkb, List.getElem_map, List.getElem_range]
        rw [hk i h2, e2]
        exact cellsGet_write_same _ _ _ hw i (by rw [leBytes_length]; exact h2)
    · rw [show atomicValue fmt op (BitVec.ofNat 32 (readLe s a (atomBytes fmt))) v = r from hrr]
      show (u.job.overflow || r.2) = _
      rw [e4]

/-- What the class of a line read changes (R192). -/
structure ClassRead (s s1 : State) (base line errs : Nat) (rewrite : Bool) : Prop where
  step : MemoryStep s s1
  cells : s1.mem.cells = s.mem.cells
  key : ∀ x, keyOf s1 x = keyOf s x
  out : s1.out = s.out
  corrected : s1.mem.corrected = s.mem.corrected + if 0 < errs ∧ errs ≤ 2 ∧ s.mem.poison.contains line = false then 1 else 0
  uncorrectable : s1.mem.uncorrectable = s.mem.uncorrectable + if 2 < errs then 1 else 0
  poison : s1.mem.poison = if 2 < errs ∧ rewrite = true then setPut line s.mem.poison else s.mem.poison
  log : s1.mem.errorLog = s.mem.errorLog ++ if 2 < errs then [((placeOf s base).1, (placeOf s base).2, base)] else []
  wcb : s1.mem.wcb = s.mem.wcb
  passes : s1.mem.scrubPasses = s.mem.scrubPasses
  job : s1.job = s.job

theorem classRead_does (s : State) (base line errs : Nat) (rewrite : Bool) : ClassRead s (classRead s base line errs rewrite) base line errs rewrite := by
  unfold classRead readClass
  by_cases h : 2 < errs
  · have h0 : ¬ (0 < errs ∧ errs ≤ 2 ∧ s.mem.poison.contains line = false) := by omega
    rw [if_pos h]
    cases rewrite
    · constructor <;> first | rfl | (simp only [h, h0, if_true, if_false, true_and, and_false, Bool.false_eq_true]; rfl) | (intro x; rfl) | (simp only [h, h0, if_true, if_false]; simp; rfl)
    · constructor <;> first | rfl | (simp only [h, h0, if_true, if_false, true_and]; rfl) | (intro x; rfl) | (simp only [h, h0, if_true, if_false]; simp; rfl)
  · rw [if_neg h]
    by_cases h0 : 0 < errs ∧ errs ≤ 2 ∧ s.mem.poison.contains line = false
    · rw [if_neg (by rw [h0.2.2]; simp; omega)]
      constructor <;> first | rfl | (simp only [h, h0, if_true, if_false, false_and, and_self]; rfl) | (intro x; rfl) | (simp only [h, h0, if_false, false_and]; simp; rfl)
    · rw [if_pos (by
        by_cases he : errs = 0
        · simp [he]
        · cases hc : s.mem.poison.contains line
          · exact absurd ⟨by omega, by omega, hc⟩ h0
          · simp)]
      constructor <;> first | rfl | (simp only [h, h0, if_false, false_and]; simp) | (intro x; rfl) | (simp only [h, h0, if_false]; simp)

theorem contains_setPut (a x : Nat) (l : List Nat) : (setPut a l).contains x = true ↔ x = a ∨ l.contains x = true := by
  simp [mem_setPut]

end Sys2Proof.Machine
end

