-- ==== Sys2Proof/Laws/Cinch.lean ====
section
/-! SUPPORT. What the cinch's shared operations change, and what a commit's outcome leaves (R21, R245–R251). -/

namespace Sys2Proof.Machine

/-- Injection changes the fabric, and at most adds to what goes out. -/
theorem inject_frame (s : State) (p : Packet) : ∃ f o, inject s p = { s with fab := f, out := o } := by
  unfold inject
  dsimp only
  split
  · exact ⟨_, _, rfl⟩
  · split
    · exact ⟨_, _, rfl⟩
    · obtain ⟨P, o, e⟩ := emit_frame s (routePort (routeOf s p.dst)) (injectVc (routeOf s p.dst) ((typeClass p.type).getD 3))
        (if p.type = 0x10 || p.type = 0x18 then 9 else 8) 0 p.sealed
      exact ⟨_, _, e⟩

theorem sendCinch_frame (s : State) (c : Comm) (q : W32) (k m : Nat) (r : CinchRec) : ∃ f o, sendCinch s c q k m r = { s with fab := f, out := o } :=
  inject_frame _ _

theorem sendAll_frame (c : Comm) (q : W32) (k : Nat) (r : CinchRec) (l : List Nat) (s : State) :
    ∃ f o, l.foldl (fun t m => sendCinch t c q k m r) s = { s with fab := f, out := o } := by
  induction l generalizing s with
  | nil => exact ⟨s.fab, s.out, rfl⟩
  | cons m l ih =>
    obtain ⟨f, o, e⟩ := sendCinch_frame s c q k m r
    simp only [List.foldl_cons, e]
    obtain ⟨f1, o1, e1⟩ := ih { s with fab := f, out := o }
    exact ⟨f1, o1, e1⟩

/-- A result that reaches this member ends its cinch, and changes only the collective engine, the fabric and the plan in force. -/
theorem cinchDown_frame (s : State) (c : Comm) (n : Cinch) (r : CinchRec) : ∃ f o w p, cinchDown s c n r =
    { s with fab := f, out := o, coll := { s.coll with cinches := s.coll.cinches.filter (·.comm ≠ c.idx), owed := w }, opt := p } := by
  unfold cinchDown
  dsimp only
  obtain ⟨f, o, e⟩ := sendAll_frame c n.cseq 1 r (cinchFamily s c).1 s
  rw [e]
  dsimp only
  split
  · unfold triggerSwitch
    dsimp only
    split
    · exact ⟨f, o, _, s.opt, rfl⟩
    · split
      · split
        · exact ⟨f, o, _, s.opt, rfl⟩
        · exact ⟨f, o, _, _, rfl⟩
      · exact ⟨f, o, _, _, rfl⟩
  · exact ⟨f, o, _, s.opt, rfl⟩

/-- An event leaves the state of the host link's rings as it was. -/
theorem raiseEvent_state (s : State) (n : Nat) (d : List Byte) : (raiseEvent s n d).hlk.state = s.hlk.state := by
  unfold raiseEvent writeEvent dropEvent State.say
  dsimp only
  split
  · split <;> rfl
  · split <;> rfl

/-- A stopped job neither runs nor starts a segment (R307). -/
theorem stopped_event (s : State) (n : Nat) : (raiseOpen (stopJob s) n).hlk.state ≠ .running ∧ (raiseOpen (stopJob s) n).job.dispatching = false ∧
    (raiseOpen (stopJob s) n).mem = s.mem ∧ (raiseOpen (stopJob s) n).pwr = s.pwr ∧ (raiseOpen (stopJob s) n).flt = s.flt ∧
    (raiseOpen (stopJob s) n).coll = s.coll ∧
    (raiseOpen (stopJob s) n).job = { s.job with dispatching := false } := by
  unfold raiseOpen
  have h := raiseEvent_state { (stopJob s) with free := (stopJob s).free + 16 } n (freeBytes (stopJob s).free 16)
  obtain ⟨hh, o, e⟩ := raiseEvent_frame { (stopJob s) with free := (stopJob s).free + 16 } n (freeBytes (stopJob s).free 16)
  rw [e] at h ⊢
  refine ⟨?_, rfl, rfl, rfl, rfl, rfl, rfl⟩
  rw [h]
  unfold stopJob
  dsimp only
  cases s.hlk.state <;> decide

theorem clearGroup_hbm (s : State) (g : Group) : HbmStep s (clearGroup s g) := by
  unfold clearGroup
  split
  · exact HbmStep.refl s
  · exact HbmStep.foldl _ (fun s x => storeHbm_hbm s _ _ _) _ s

/-- What a commit leaves to the step after it (R120, R121, R165, R367). -/
def State.carried (s : State) : Bool × W32 × Int × Nat × W64 × Option (W32 × Int × Nat) × BitVec 11 × List Finger × Pwr × Coll :=
  (s.mem.side, s.job.step, s.job.l, s.job.clean, s.job.floorHits, s.job.ctxKept, s.job.freqKept, s.upd.fingersKept, s.pwr, s.coll)

/-- The next step begins with what the commit left. -/
theorem beginStep_carried (s : State) : (beginStep s).carried = s.carried := by
  unfold beginStep
  extract_lets s1 s2
  have h : HbmStep s s1 := by
    unfold s1
    split
    · exact storeHbm_hbm _ _ _ _
    · exact HbmStep.refl s
  have h2 : HbmStep s s2 := h.trans (HbmStep.foldl _ clearGroup_hbm _ s1)
  clear_value s2
  obtain ⟨⟨_, _, _, _, _, _, _, _, _, _, _, _, _, _, _, e⟩, -⟩ := h2
  subst e
  rfl

/-- What the beginning of a step leaves of the job, and that its segments are dispatched again. -/
theorem beginStep_job (s : State) : (beginStep s).job.dispatching = true ∧ (beginStep s).job.hold = s.job.hold ∧
    (beginStep s).job.replay = s.job.replay ∧ (beginStep s).job.replaySide = s.job.replaySide ∧ (beginStep s).job.replayBack = s.job.replayBack := by
  unfold beginStep
  extract_lets s1 s2
  have h : HbmStep s s1 := by
    unfold s1
    split
    · exact storeHbm_hbm _ _ _ _
    · exact HbmStep.refl s
  have h2 : HbmStep s s2 := h.trans (HbmStep.foldl _ clearGroup_hbm _ s1)
  clear_value s2
  obtain ⟨⟨_, _, _, _, _, _, _, _, _, _, _, _, _, _, _, e⟩, -⟩ := h2
  subst e
  exact ⟨rfl, rfl, rfl, rfl, rfl⟩

/-- So does the next step that a hold withholds (R308). -/
theorem nextStep_carried (s : State) : (nextStep s).carried = s.carried := by
  unfold nextStep
  split
  · rw [beginStep_carried]
    unfold holdLater
    split <;> rfl
  · split
    · unfold raiseOpen
      obtain ⟨hh, o, e⟩ := raiseEvent_frame { ({ s with job := { s.job with hold := .inEffect, dispatching := false, entered := false } } : State) with free := s.free + 16 } 8 (freeBytes s.free 16)
      dsimp only
      rw [e]
      rfl
    · exact beginStep_carried s

/-- A module that enters a cinch while a member of its family has not sent its record waits in it (R248). -/
theorem cinchEnter_waits (s : State) (c : Comm) (kind : CinchKind) (r : CinchRec) (dst : Option Desc) (chunk : Nat) (hc : commOf s c.idx = some c)
    (hn : findCinch s c.idx = none) (x : Nat) (hx : x ∈ (cinchFamily s c).1)
    (hup : ∀ q ∈ s.coll.earlyUps, cinchComm q = c.idx → cinchSeq q = c.cseq → cinchSender q ≠ x) :
    ∃ (n : Cinch) (W : Coll), finishCinch (cinchEnter s c kind r dst chunk) = { s with coll := W } ∧ n ∈ W.cinches ∧ n.comm = c.idx ∧ n.cseq = c.cseq ∧
      n.kind = kind ∧ n.record = r := by
  unfold cinchEnter
  extract_lets mine n0
  generalize h4 : ({ s with coll := { s.coll with cinches := s.coll.cinches ++ [n0], earlyUps := s.coll.earlyUps.filter fun p => !(cinchComm p == c.idx && cinchSeq p == c.cseq), comms := s.coll.comms.map fun d => if d.idx = c.idx then { d with cseq := d.cseq + 1 } else d } } : State) = s4
  have hfind : findCinch s4 c.idx = some n0 := by
    rw [← h4]
    unfold findCinch
    dsimp only
    rw [List.find?_append]
    have : s.coll.cinches.find? (·.comm == c.idx) = none := hn
    rw [this]
    simp [n0]
  have hfam : ∀ fuel l, cinchKids s4 { c with cseq := c.cseq + 1 } fuel l = cinchKids s c fuel l := by
    intro fuel
    have hfen : ∀ d, chipFenced s4 d = chipFenced s d := fun d => by rw [← h4]; rfl
    induction fuel with
    | zero => intro l; cases l <;> rfl
    | succ k ih =>
      intro l
      cases l with
      | nil => rfl
      | cons a l =>
        simp only [cinchKids, hfen, ih]
        rfl
  have hcomm : commOf s4 c.idx = some { c with cseq := c.cseq + 1 } := by
    rw [← h4]
    unfold commOf
    dsimp only
    rw [List.find?_map]
    have : ((fun x : Comm => x.idx == c.idx) ∘ fun d : Comm => if d.idx = c.idx then { d with cseq := d.cseq + 1 } else d) = fun d => d.idx == c.idx := by
      funext d
      simp only [Function.comp]
      split <;> rfl
    rw [this]
    have h5 : s.coll.comms.find? (fun d => d.idx == c.idx) = some c := hc
    rw [h5]
    simp
  have hgath : cinchGathered s4 { c with cseq := c.cseq + 1 } n0 = none := by
    unfold cinchGathered cinchFamily
    have hk : cinchKidsRaw { c with cseq := c.cseq + 1 } c.self = cinchKidsRaw c c.self := rfl
    have hx2 : x ∈ (cinchKids s c (c.size + 2) (cinchKidsRaw c c.self)).1 := hx
    simp only [hk, show ({ c with cseq := c.cseq + 1 } : Comm).size = c.size from rfl, hfam]
    rw [if_neg]
    intro hall
    rw [List.all_eq_true] at hall
    have := hall x hx2
    rw [List.any_eq_true] at this
    obtain ⟨u, hu, hux⟩ := this
    simp only [n0, mine, List.mem_map, List.mem_filter, Bool.and_eq_true, beq_iff_eq] at hu hux
    obtain ⟨q, ⟨hq1, hq2, hq3⟩, rfl⟩ := hu
    exact hup q hq1 hq2 hq3 hux
  have hflow : cinchFlow s4 c.idx = (s4, none) := by
    unfold cinchFlow
    rw [hcomm, hfind]
    simp only [hgath]
  rw [hflow]
  refine ⟨n0, s4.coll, ?_, ?_, rfl, rfl, rfl, rfl⟩
  · rw [← h4]; rfl
  · rw [← h4]; simp

end Sys2Proof.Machine
end

