-- ==== Sys2Proof/Laws/Optics.lean ====
section
/-! SUPPORT. What the shared operations of the optical engines change (R254, R268–R270). -/

namespace Sys2Proof.Machine

/-- An event changes the host link, and draws its free detail. -/
theorem raiseOpen_frame (s : State) (n : Nat) : ∃ h o, raiseOpen s n = { s with free := s.free + 16, hlk := h, out := s.out ++ o } :=
  raiseEvent_frame { s with free := s.free + 16 } n (freeBytes s.free 16)

theorem raiseCode_frame (s : State) (n : Nat) (c : W16) : ∃ h o, raiseCode s n c = { s with free := s.free + 14, hlk := h, out := s.out ++ o } :=
  raiseEvent_frame { s with free := s.free + 14 } n (leBytes 2 c.toNat ++ freeBytes s.free 14)

theorem recount_frame (s : State) : ∃ f, recount s = { s with fab := f } := by
  have fold : ∀ (l : List PortId) (G : PortId → Port → Port) (t : State), ∃ f, l.foldl (fun t n => updPort t n.val (G n)) t = { t with fab := f } := by
    intro l G
    induction l with
    | nil => intro t; exact ⟨t.fab, rfl⟩
    | cons n l ih =>
      intro t
      obtain ⟨P, e⟩ := updPort_frame t n.val (G n)
      rw [List.foldl_cons, e]
      obtain ⟨f, e1⟩ := ih { t with fab := { t.fab with ports := P } }
      exact ⟨f, e1⟩
  exact fold (List.finRange 8) (fun n q => { q with
    up := (strapLanes s n).length ≠ 0 && !(strapReceives s n).isEmpty, lanes := BitVec.ofNat 7 (strapLanes s n).length }) s

theorem queueSvc_frame (s : State) (n : Option PortId) (k : BitVec 4) (v : Nat) :
    ∃ q, queueSvc s n k v = { s with opt := { s.opt with straps := q } } := by
  unfold queueSvc
  split
  · exact ⟨_, rfl⟩
  · exact ⟨s.opt.straps, rfl⟩

/-- A transmit lane that leaves its strap (R269). -/
theorem takeOutTx_does (s : State) (g : LaneId) (h : s.opt.lanes[g].txOut = false) : ∃ f, takeOutTx s g =
    { s with fab := f, opt := { s.opt with
        lanes := s.opt.lanes.set g { s.opt.lanes[g] with txOut := true, txReady := false, txDue := false, txActive := false },
        lanesRemoved := s.opt.lanesRemoved + 1 } } := by
  unfold takeOutTx
  rw [if_neg (by rw [h]; simp)]
  obtain ⟨f, e⟩ := recount_frame (countRemoved (updLane s g fun l => { l with txOut := true, txReady := false, txDue := false, txActive := false }))
  exact ⟨f, e⟩

/-- A receive lane that leaves its strap (R269). -/
theorem takeOutRx_does (s : State) (g : LaneId) (h : s.opt.lanes[g].rxOut = false) : ∃ f q, takeOutRx s g =
    { s with fab := f, opt := { s.opt with
        lanes := s.opt.lanes.set g { s.opt.lanes[g] with rxOut := true, rxReady := false, rxDue := false, rxActive := false },
        lanesRemoved := s.opt.lanesRemoved + 1, straps := q } } := by
  unfold takeOutRx
  rw [if_neg (by rw [h]; simp)]
  dsimp only
  obtain ⟨f, e⟩ := recount_frame (countRemoved (updLane s g fun l => { l with rxOut := true, rxReady := false, rxDue := false, rxActive := false }))
  rw [e]
  obtain ⟨q, e⟩ := queueSvc_frame { (countRemoved (updLane s g fun l => { l with rxOut := true, rxReady := false, rxDue := false, rxActive := false })) with fab := f }
    (rxNet s g) 1 ((farLane s g).getD g.val)
  exact ⟨f, q, e⟩

/-- A lane direction that is taken out: its own lane, the straps, the ports' lane counts, one count. -/
theorem takeOut_does (s : State) (g : LaneId) (tx : Bool) : ∃ f q n L, takeOut s g tx =
    { s with fab := f, opt := { s.opt with lanes := L, lanesRemoved := n, straps := q } } ∧
    (if tx then L[g].txOut = true else L[g].rxOut = true) ∧ (∀ h, h ≠ g → L[h] = s.opt.lanes[h]) ∧ L[g].mislock = s.opt.lanes[g].mislock ∧
    L[g].txSweeps = s.opt.lanes[g].txSweeps ∧ L[g].rxSweeps = s.opt.lanes[g].rxSweeps ∧
    (s.opt.lanes[g].txOut = true → L[g].txOut = true) ∧ (s.opt.lanes[g].rxOut = true → L[g].rxOut = true) := by
  have hset : ∀ (v : Vector Lane 64) (x : Lane) (h : LaneId), h ≠ g → (v.set g x)[h] = v[h] := fun v x h hh => by
    have : g.val ≠ h.val := fun e => hh (Fin.ext e.symm)
    simp [Vector.getElem_set_ne, this]
  cases tx with
  | true =>
    cases h : s.opt.lanes[g].txOut with
    | true =>
      refine ⟨s.fab, s.opt.straps, s.opt.lanesRemoved, s.opt.lanes, ?_, h, fun _ _ => rfl, rfl, rfl, rfl, fun _ => h, id⟩
      unfold takeOut takeOutTx
      simp only [h, if_true]
    | false =>
      obtain ⟨f, e⟩ := takeOutTx_does s g h
      refine ⟨f, s.opt.straps, _, _, by unfold takeOut; simp only [if_true]; exact e, ?_, fun x hx => hset _ _ x hx, ?_, ?_, ?_, ?_, ?_⟩
      all_goals simp
    
  | false =>
    cases h : s.opt.lanes[g].rxOut with
    | true =>
      refine ⟨s.fab, s.opt.straps, s.opt.lanesRemoved, s.opt.lanes, ?_, h, fun _ _ => rfl, rfl, rfl, rfl, id, fun _ => h⟩
      unfold takeOut takeOutRx
      simp only [h, if_true, Bool.false_eq_true, if_false]
    | false =>
      obtain ⟨f, q, e⟩ := takeOutRx_does s g h
      refine ⟨f, q, _, _, by unfold takeOut; simp only [Bool.false_eq_true, if_false]; exact e, ?_, fun x hx => hset _ _ x hx, ?_, ?_, ?_, ?_, ?_⟩
      all_goals simp

theorem updLane_updLane (s : State) (g : LaneId) (f h : Lane → Lane) : updLane (updLane s g f) g h = updLane s g fun l => h (f l) := by
  unfold updLane vmod
  simp only [Fin.getElem_fin, Vector.getElem_set_self, Vector.set_set]

theorem updLane_at (s : State) (g : LaneId) (f : Lane → Lane) : (updLane s g f).opt.lanes[g] = f s.opt.lanes[g] := by simp [updLane, vmod]

/-- A transmit lane that is Ready rejoins its strap (R270). -/
theorem rejoinTx_does (s : State) (g : LaneId) (h1 : s.opt.lanes[g].txOut = true) (h2 : s.opt.lanes[g].txReady = true) (h3 : keptOut s g = false) :
    ∃ f, rejoinTx s g = { s with fab := f, opt := { s.opt with
      lanesRejoined := s.opt.lanesRejoined + 1,
      lanes := s.opt.lanes.set g { s.opt.lanes[g] with txOut := false, txReady := false, txActive := s.opt.lanes[g].txMod ≠ 0 && s.opt.lanes[g].txPort.isSome } } } := by
  unfold rejoinTx
  dsimp only
  rw [if_pos (by rw [h1, h2, h3]; rfl)]
  exact recount_frame (countRejoined (updLane s g fun l => { l with txOut := false, txReady := false, txActive := l.txMod ≠ 0 && l.txPort.isSome }))

/-- A receive lane that is Ready rejoins its strap (R270). -/
theorem rejoinRx_does (s : State) (g : LaneId) (h1 : s.opt.lanes[g].rxOut = true) (h2 : s.opt.lanes[g].rxReady = true) (h3 : keptOut s g = false) :
    ∃ f, rejoinRx s g = { s with fab := f, opt := { s.opt with
      lanesRejoined := s.opt.lanesRejoined + 1,
      lanes := s.opt.lanes.set g { s.opt.lanes[g] with rxOut := false, rxReady := false, rxActive := s.opt.lanes[g].rxMod ≠ 0 && s.opt.lanes[g].rxPort.isSome } } } := by
  unfold rejoinRx
  dsimp only
  rw [if_pos (by rw [h1, h2, h3]; rfl)]
  exact recount_frame (countRejoined (updLane s g fun l => { l with rxOut := false, rxReady := false, rxActive := l.rxMod ≠ 0 && l.rxPort.isSome }))

/-- A new series of sweeps puts a ring that has not failed in state 1, and touches nothing but its lane. -/
theorem startSweep_does (s : State) (g : LaneId) (tx : Bool) : ∃ x, startSweep s g tx = { s with opt := { s.opt with lanes := s.opt.lanes.set g x } } ∧
    ringState x tx = (if ringState s.opt.lanes[g] tx = 4 then 4 else 1) ∧ x.txOut = s.opt.lanes[g].txOut ∧ x.rxOut = s.opt.lanes[g].rxOut ∧
    x.mislock = s.opt.lanes[g].mislock ∧ (if tx then x.rxState = s.opt.lanes[g].rxState else x.txState = s.opt.lanes[g].txState) := by
  unfold startSweep
  split
  · rename_i h
    refine ⟨s.opt.lanes[g], ?_, h, rfl, rfl, rfl, by cases tx <;> rfl⟩
    have : s.opt.lanes.set g s.opt.lanes[g] = s.opt.lanes := by
      apply Vector.ext
      intro i hi
      by_cases e : g.val = i
      · subst e; simp
      · simp [Vector.getElem_set_ne, e]
    rw [this]
  · unfold setRing
    rw [updLane_updLane]
    cases tx
    · exact ⟨_, rfl, rfl, rfl, rfl, rfl, rfl⟩
    · exact ⟨_, rfl, rfl, rfl, rfl, rfl, rfl⟩

/-- The lanes of an engine leave their straps (R254): the engine's own, both ways; no other lane. -/
theorem takeAll_does (l : List LaneId) (s : State) : ∃ f q n L, l.foldl (fun t g => takeOutRx (takeOutTx t g) g) s =
    { s with fab := f, opt := { s.opt with lanes := L, lanesRemoved := n, straps := q } } ∧
    (∀ g ∈ l, L[g].txOut = true ∧ L[g].rxOut = true) ∧ (∀ g : LaneId, g ∉ l → L[g] = s.opt.lanes[g]) ∧
    (∀ g : LaneId, s.opt.lanes[g].txOut = true → L[g].txOut = true) ∧ (∀ g : LaneId, s.opt.lanes[g].rxOut = true → L[g].rxOut = true) := by
  induction l generalizing s with
  | nil => exact ⟨s.fab, s.opt.straps, s.opt.lanesRemoved, s.opt.lanes, rfl, by simp, fun _ _ => rfl, fun _ => id, fun _ => id⟩
  | cons g l ih =>
    obtain ⟨f1, q1, n1, L1, e1, o1, k1, -, -, -, t1, r1⟩ := takeOut_does s g true
    have e1' : takeOutTx s g = { s with fab := f1, opt := { s.opt with lanes := L1, lanesRemoved := n1, straps := q1 } } := e1
    simp only [List.foldl_cons, e1']
    obtain ⟨f2, q2, n2, L2, e2, o2, k2, -, -, -, t2, r2⟩ := takeOut_does { s with fab := f1, opt := { s.opt with lanes := L1, lanesRemoved := n1, straps := q1 } } g false
    have e2' : takeOutRx { s with fab := f1, opt := { s.opt with lanes := L1, lanesRemoved := n1, straps := q1 } } g =
        { s with fab := f2, opt := { s.opt with lanes := L2, lanesRemoved := n2, straps := q2 } } := e2
    rw [e2']
    obtain ⟨f, q, n, L, e, o, k, t, r⟩ := ih { s with fab := f2, opt := { s.opt with lanes := L2, lanesRemoved := n2, straps := q2 } }
    have g1 : L2[g].txOut = true ∧ L2[g].rxOut = true := ⟨t2 o1, o2⟩
    have kk : ∀ h, h ≠ g → L2[h] = s.opt.lanes[h] := fun h hh => (k2 h hh).trans (k1 h hh)
    refine ⟨f, q, n, L, e, ?_, ?_, ?_, ?_⟩
    · intro h hh
      by_cases hl : h ∈ l
      · exact o h hl
      · have : h = g := by simpa [hl] using hh
        subst this
        exact ⟨t _ g1.1, r _ g1.2⟩
    · intro h hh
      rw [List.mem_cons, not_or] at hh
      exact (k h hh.2).trans (kk h hh.1)
    · intro h hh
      by_cases hg : h = g
      · subst hg; exact t _ g1.1
      · exact t h (by rw [show L2[h] = s.opt.lanes[h] from kk h hg]; exact hh)
    · intro h hh
      by_cases hg : h = g
      · subst hg; exact r _ g1.2
      · exact r h (by rw [show L2[h] = s.opt.lanes[h] from kk h hg]; exact hh)

/-- A ring's state after a new series of sweeps (R268). -/
def swept (x : BitVec 3) : BitVec 3 := if x = 4 then 4 else 1

theorem swept_swept (x : BitVec 3) : swept (swept x) = swept x := by unfold swept; split <;> simp

/-- A lane is trained again: both its rings sweep, and only it changes (R254, R268). -/
theorem retrainLane_does (s : State) (g : LaneId) : ∃ y, retrainLane s g = { s with opt := { s.opt with lanes := s.opt.lanes.set g y } } ∧
    y.rxState = swept s.opt.lanes[g].rxState ∧ y.txState = swept s.opt.lanes[g].txState ∧ y.pilotX = s.opt.lanes[g].pilotX ∧ y.pilotY = s.opt.lanes[g].pilotY := by
  have hs : ∀ (l : Vector Lane 64) (x y : Lane), (l.set g x).set g y = l.set g y := fun l x y => by simp
  have hn : ∀ z : BitVec 3, z.toNat = 4 ↔ z = 4 := fun z => ⟨fun h => BitVec.eq_of_toNat_eq h, fun h => by rw [h]; rfl⟩
  have key : ∀ (u : State) (tx : Bool), ∃ x, startSweep u g tx = { u with opt := { u.opt with lanes := u.opt.lanes.set g x } } ∧
      x.rxState = (if tx then u.opt.lanes[g].rxState else swept u.opt.lanes[g].rxState) ∧
      x.txState = (if tx then swept u.opt.lanes[g].txState else u.opt.lanes[g].txState) ∧ x.pilotX = u.opt.lanes[g].pilotX ∧ x.pilotY = u.opt.lanes[g].pilotY := by
    intro u tx
    unfold startSweep
    split
    · rename_i h
      refine ⟨u.opt.lanes[g], ?_, ?_, ?_, rfl, rfl⟩
      · have : u.opt.lanes.set g u.opt.lanes[g] = u.opt.lanes := by
          apply Vector.ext
          intro i hi
          by_cases e : g.val = i
          · subst e; simp
          · simp [Vector.getElem_set_ne, e]
        rw [this]
      · cases tx
        · have : u.opt.lanes[g].rxState = 4 := (hn _).1 h
          show u.opt.lanes[g].rxState = swept u.opt.lanes[g].rxState
          rw [this]; rfl
        · rfl
      · cases tx
        · rfl
        · have : u.opt.lanes[g].txState = 4 := (hn _).1 h
          show u.opt.lanes[g].txState = swept u.opt.lanes[g].txState
          rw [this]; rfl
    · rename_i h
      unfold setRing
      rw [updLane_updLane]
      refine ⟨_, rfl, ?_, ?_, ?_, ?_⟩
      · cases tx
        · have : u.opt.lanes[g].rxState ≠ 4 := fun e => h ((hn _).2 e)
          show (1 : BitVec 3) = swept u.opt.lanes[g].rxState
          unfold swept; rw [if_neg this]
        · rfl
      · cases tx
        · rfl
        · have : u.opt.lanes[g].txState ≠ 4 := fun e => h ((hn _).2 e)
          show (1 : BitVec 3) = swept u.opt.lanes[g].txState
          unfold swept; rw [if_neg this]
      · cases tx <;> rfl
      · cases tx <;> rfl
  obtain ⟨x, e1, a1, b1, c1, d1⟩ := key s false
  obtain ⟨y, e2, a2, b2, c2, d2⟩ := key (startSweep s g false) true
  unfold retrainLane
  rw [e2, e1]
  rw [e1] at a2 b2 c2 d2
  simp only [Fin.getElem_fin, Vector.getElem_set_self, if_true, Bool.false_eq_true, if_false] at a1 b1 a2 b2 c1 d1 c2 d2
  unfold updLane vmod
  dsimp only
  simp only [hs, Fin.getElem_fin, Vector.getElem_set_self]
  exact ⟨_, rfl, a2.trans a1, by rw [← b1]; exact b2, c2.trans c1, d2.trans d1⟩

/-- Every lane of a list is trained again (R254). -/
theorem retrainAll_does (l : List LaneId) (s : State) : ∃ L, l.foldl retrainLane s = { s with opt := { s.opt with lanes := L } } ∧
    (∀ g ∈ l, L[g].rxState = swept s.opt.lanes[g].rxState ∧ L[g].txState = swept s.opt.lanes[g].txState) ∧
    (∀ g : LaneId, g ∉ l → L[g] = s.opt.lanes[g]) ∧ ∀ g : LaneId, L[g].pilotX = s.opt.lanes[g].pilotX ∧ L[g].pilotY = s.opt.lanes[g].pilotY := by
  induction l generalizing s with
  | nil => exact ⟨s.opt.lanes, rfl, by simp, fun _ _ => rfl, fun _ => ⟨rfl, rfl⟩⟩
  | cons g l ih =>
    obtain ⟨y, e1, a1, b1, c1, d1⟩ := retrainLane_does s g
    rw [List.foldl_cons, e1]
    obtain ⟨L, e, o, k, w⟩ := ih { s with opt := { s.opt with lanes := s.opt.lanes.set g y } }
    have hset : ∀ h : LaneId, (s.opt.lanes.set g y)[h] = if h = g then y else s.opt.lanes[h] := by
      intro h
      by_cases hg : h = g
      · subst hg; simp
      · have : g.val ≠ h.val := fun e => hg (Fin.ext e.symm)
        simp [Vector.getElem_set_ne, this, hg]
    refine ⟨L, e, ?_, ?_, ?_⟩
    · intro h hh
      by_cases hl : h ∈ l
      · have := o h hl
        dsimp only at this
        rw [hset] at this
        split at this
        · rename_i hg
          rw [a1, b1, swept_swept, swept_swept] at this
          rw [hg]; rw [hg] at this; exact this
        · exact this
      · have hg : h = g := by simpa [hl] using hh
        have := k h hl
        dsimp only at this
        rw [hset, if_pos hg] at this
        rw [this, hg]
        exact ⟨a1, b1⟩
    · intro h hh
      rw [List.mem_cons, not_or] at hh
      rw [k h hh.2]; dsimp only; rw [hset, if_neg hh.1]
    · intro h
      have := w h
      dsimp only at this
      rw [hset] at this
      split at this
      · rename_i hg; rw [this.1, this.2, c1, d1, hg]; exact ⟨rfl, rfl⟩
      · exact this

end Sys2Proof.Machine
end

