-- ==== Sys2Proof/Laws/Host.lean ====
section
/-! SUPPORT. The host link: what events, statuses, completions and fetches change (R295–R302), and what a descriptor does once it may
start (R299, R306). -/

namespace Sys2Proof.Machine


/-- Writing events touches the event ring and what leaves the module, nothing else. -/
def EventsOnly (s t : State) : Prop :=
  t = { s with hlk := t.hlk, out := t.out } ∧ t.hlk.up = s.hlk.up ∧ t.hlk.width = s.hlk.width ∧ t.hlk.buffered = s.hlk.buffered ∧
    t.hlk.cutOff = s.hlk.cutOff ∧ t.hlk.linkRetrains = s.hlk.linkRetrains ∧ t.hlk.rings = s.hlk.rings

theorem writeEvent_only (s : State) (e : Event) : EventsOnly s (writeEvent s e) := by
  unfold writeEvent
  dsimp only
  split <;> exact ⟨rfl, rfl, rfl, rfl, rfl, rfl, rfl⟩

theorem flushAll (l : List Event) (s : State) : EventsOnly s (l.foldl writeEvent s) := by
  induction l generalizing s with
  | nil => exact ⟨rfl, rfl, rfl, rfl, rfl, rfl, rfl⟩
  | cons e l ih =>
    obtain ⟨a1, a2, a3, a4, a5, a6, a7⟩ := writeEvent_only s e
    obtain ⟨b1, b2, b3, b4, b5, b6, b7⟩ := ih (writeEvent s e)
    refine ⟨?_, b2.trans a2, b3.trans a3, b4.trans a4, b5.trans a5, b6.trans a6, b7.trans a7⟩
    rw [List.foldl_cons, b1, a1]

theorem finishDesc_frame (s : State) (r : RingId) (i st : W16) (a : BitVec 48) (b : W64) (c : W16) : ∃ R, finishDesc s r i st a b c = { s with hlk := { s.hlk with rings := R } } := ⟨_, rfl⟩

theorem finishDesc_keeps (s : State) (r x : RingId) (i st : W16) (a : BitVec 48) (b : W64) (c : W16) (d : Inflight) (h : d ∈ s.hlk.rings[x].inflight)
    (hd : d.status.isSome = true) : d ∈ ((finishDesc s r i st a b c).hlk.rings[x]).inflight := by
  by_cases e : x = r
  · subst e
    simp only [finishDesc, vmod, Fin.getElem_fin, Vector.getElem_set_self]
    simp only [Fin.getElem_fin] at h
    refine List.mem_map.2 ⟨d, h, ?_⟩
    cases q : d.status <;> simp_all
  · have : r.val ≠ x.val := fun q => e (Fin.ext q.symm)
    simpa only [finishDesc, vmod, Fin.getElem_fin, Vector.getElem_set_ne _ _ this] using h

theorem finishDesc_takes (s : State) (r x : RingId) (i st : W16) (a : BitVec 48) (b : W64) (c : W16) (d : Inflight) (h : d ∈ s.hlk.rings[x].inflight)
    (hd : d.status = none) : (x = r ∧ d.idx = i ∧ d.finish st a b c ∈ ((finishDesc s r i st a b c).hlk.rings[x]).inflight) ∨
      (¬ (x = r ∧ d.idx = i) ∧ d ∈ ((finishDesc s r i st a b c).hlk.rings[x]).inflight) := by
  by_cases e : x = r
  · subst e
    simp only [finishDesc, vmod, Fin.getElem_fin, Vector.getElem_set_self]
    simp only [Fin.getElem_fin] at h
    by_cases q : d.idx = i
    · left; refine ⟨trivial, q, List.mem_map.2 ⟨d, h, ?_⟩⟩; simp [q, hd]
    · right; refine ⟨fun z => q z.2, List.mem_map.2 ⟨d, h, ?_⟩⟩; simp [q]
  · have : r.val ≠ x.val := fun q => e (Fin.ext q.symm)
    right
    refine ⟨fun z => e z.1, ?_⟩
    simpa only [finishDesc, vmod, Fin.getElem_fin, Vector.getElem_set_ne _ _ this] using h

theorem cutAll (l : List (RingId × W16)) (s : State) : ∃ R, l.foldl (fun t x => finishDesc t x.1 x.2 0x000B 0 0 0) s = { s with hlk := { s.hlk with rings := R } } ∧
    (∀ (x : RingId), ∀ d ∈ s.hlk.rings[x].inflight, d.status.isSome = true → d ∈ R[x].inflight) ∧
    (∀ x ∈ l, ∀ d ∈ s.hlk.rings[x.1].inflight, d.idx = x.2 → d.status = none → d.finish 0x000B 0 0 0 ∈ R[x.1].inflight) := by
  induction l generalizing s with
  | nil => exact ⟨s.hlk.rings, rfl, fun _ _ h _ => h, fun _ h => absurd h (by simp)⟩
  | cons y l ih =>
    obtain ⟨R, e, k, f⟩ := ih (finishDesc s y.1 y.2 0x000B 0 0 0)
    refine ⟨R, ?_, ?_, ?_⟩
    · rw [List.foldl_cons, e]; rfl
    · intro x d h q; exact k x d (finishDesc_keeps s y.1 x y.2 _ _ _ _ d h q) q
    · intro x hx d h q w
      rcases finishDesc_takes s y.1 x.1 y.2 0x000B 0 0 0 d h w with ⟨_, _, z⟩ | ⟨n, z⟩
      · exact k _ _ z rfl
      · rcases List.mem_cons.1 hx with rfl | hx
        · exact absurd ⟨rfl, q⟩ n
        · exact f x hx d z q w

theorem enableBits (v : W64) : (v ||| 0x20).getLsbD 5 = true ∧ (v ||| 0x20).setWidth 5 = (v.setWidth 5 : BitVec 5) ∧
    ((v ||| 0x20) >>> 6).setWidth 2 = ((v >>> 6).setWidth 2 : BitVec 2) ∧ ((v ||| 0x20) >>> 16).setWidth 8 = ((v >>> 16).setWidth 8 : BitVec 8) ∧
    ((v ||| 0x20) >>> 32).setWidth 16 = ((v >>> 32).setWidth 16 : W16) ∧ ((v ||| 0x20) >>> 8).setWidth 5 = ((v >>> 8).setWidth 5 : BitVec 5) := by
  have big : ∀ n, 6 ≤ n → Nat.testBit 32 n = false := fun n h => Nat.testBit_lt_two_pow (by
    calc 32 < 2 ^ 6 := by decide
         _ ≤ 2 ^ n := Nat.pow_le_pow_right (by decide) h)
  have small : ∀ n, n < 5 → Nat.testBit 32 n = false := by decide
  refine ⟨by simp, ?_, ?_, ?_, ?_, ?_⟩ <;> apply BitVec.eq_of_getLsbD_eq <;> intro i hi <;>
    simp [BitVec.getLsbD_ofNat]
  · simp [big (6 + i) (by omega)]
  · simp [big (16 + i) (by omega)]
  · simp [big (32 + i) (by omega)]
  · simp [big (8 + i) (by omega)]

theorem writeRing_off (r : Ring) (v : W64) (he : r.enable = false) : writeRing r (v ||| 0x20) =
    (let q : Ring := { r with weight := (v >>> 6).setWidth 2, ccount := (v >>> 16).setWidth 8, cticks := (v >>> 32).setWidth 16,
                              size := v.setWidth 5, vector := (v >>> 8).setWidth 5 }
     if 4 ≤ q.size.toNat ∧ q.size.toNat ≤ 16 ∧ q.vector.toNat ≤ 16 ∧ r.inflight = [] then
       { q with enable := true, runBase := r.cqbase, runSize := q.size, runVector := q.vector, cfgErr := false, sqhead := 0, cqtail := 0, completed := 0, sqtail := 0, cqhead := 0, unreleased := 0,
                phase := true, unsent := 0 }
     else { q with cfgErr := true }) := by
  obtain ⟨b0, b1, b2, b3, b4, b5⟩ := enableBits v
  unfold writeRing
  dsimp only
  rw [if_neg (by simp [he]), b0, if_neg (by simp), b1, b2, b3, b4, b5]
  refine if_congr ?_ rfl rfl
  simp only [ringIdle, Bool.and_eq_true, decide_eq_true_eq, List.isEmpty_iff, and_assoc]

theorem writeRing_on (r : Ring) (v : W64) (he : r.enable = true) : writeRing r (v ||| 0x20) =
    { r with weight := (v >>> 6).setWidth 2, ccount := (v >>> 16).setWidth 8, cticks := (v >>> 32).setWidth 16 } := by
  obtain ⟨b0, b1, b2, b3, b4, b5⟩ := enableBits v
  unfold writeRing
  dsimp only
  rw [if_pos he, if_pos b0, b2, b3, b4]

theorem writeEventCtl_off (h : Hlk) (v : W32) (he : h.evenable = false) : writeEventCtl h (v ||| 0x20) =
    (let z : BitVec 5 := v.setWidth 5
     if 4 ≤ z.toNat ∧ z.toNat ≤ 16 then
       { h with evsize := z, evenable := true, everr := false, evtail := 0, evhead := 0, evused := 0, evphase := true }
     else { h with evsize := z, everr := true }) := by
  have b1 : (v ||| 0x20).setWidth 5 = (v.setWidth 5 : BitVec 5) := by
    apply BitVec.eq_of_getLsbD_eq; intro i hi
    simp
  unfold writeEventCtl
  dsimp only
  rw [if_neg (by simp [he]), if_neg (by simp), b1]
  refine if_congr ?_ rfl rfl
  simp only [Bool.and_eq_true, decide_eq_true_eq]

theorem updRing_at (s : State) (r : RingId) (f : Ring → Ring) : (updRing s r f).hlk.rings[r] = f s.hlk.rings[r] := by
  simp [updRing, updHlk, vmod]

theorem finishDesc_length (s : State) (r : RingId) (i st : W16) (a : BitVec 48) (b : W64) (c : W16) :
    ((finishDesc s r i st a b c).hlk.rings[r]).inflight.length = (s.hlk.rings[r]).inflight.length ∧
    ((finishDesc s r i st a b c).hlk.rings[r]).sqhead = (s.hlk.rings[r]).sqhead ∧
    (∀ d ∈ (s.hlk.rings[r]).inflight, ∃ e ∈ ((finishDesc s r i st a b c).hlk.rings[r]).inflight, e.idx = d.idx ∧ e.bytes = d.bytes) := by
  simp only [finishDesc, vmod, Fin.getElem_fin, Vector.getElem_set_self, List.length_map]
  refine ⟨trivial, trivial, fun d hd => ⟨_, List.mem_map.2 ⟨d, hd, rfl⟩, ?_⟩⟩
  split <;> exact ⟨rfl, rfl⟩

theorem Inflight.stamped_trans {d e f : Inflight} (h : d.stamped e) (g : e.stamped f) : d.stamped f := by
  rcases h with rfl | ⟨n, st, a, b, c, rfl⟩
  · exact g
  · rcases g with rfl | ⟨n', _⟩
    · exact .inr ⟨n, st, a, b, c, rfl⟩
    · cases n'

theorem Inflight.stamped_all_trans {l m n : List Inflight} (h : List.Forall₂ Inflight.stamped l m) (g : List.Forall₂ Inflight.stamped m n) :
    List.Forall₂ Inflight.stamped l n := by
  induction h generalizing n with
  | nil => exact g
  | cons a _ ih => cases g with
    | cons b g => exact .cons (Inflight.stamped_trans a b) (ih g)

/-- Only descriptors of one ring are given statuses. -/
def State.stamps (ring : RingId) (s t : State) : Prop :=
  ∃ L, List.Forall₂ Inflight.stamped (s.hlk.rings[ring]).inflight L ∧
    t = { s with hlk := { s.hlk with rings := s.hlk.rings.set ring { s.hlk.rings[ring] with inflight := L } } }

theorem State.stamps_refl (ring : RingId) (s : State) : s.stamps ring s := by
  refine ⟨_, List.forall₂_same.2 fun d _ => .inl rfl, ?_⟩
  have : s.hlk.rings.set ring.val s.hlk.rings[ring] ring.isLt = s.hlk.rings := by simp
  show s = { s with hlk := { s.hlk with rings := s.hlk.rings.set ring.val s.hlk.rings[ring] ring.isLt } }
  rw [this]

theorem State.stamps_trans {ring : RingId} {a b c : State} (h : a.stamps ring b) (g : b.stamps ring c) : a.stamps ring c := by
  obtain ⟨L, hL, rfl⟩ := h
  obtain ⟨M, hM, rfl⟩ := g
  refine ⟨M, Inflight.stamped_all_trans hL (by simpa using hM), ?_⟩
  simp

theorem finishDesc_stamps (s : State) (ring : RingId) (i st : W16) (a : BitVec 48) (b : W64) (c : W16) : s.stamps ring (finishDesc s ring i st a b c) := by
  refine ⟨_, ?_, rfl⟩
  rw [List.forall₂_map_right_iff]
  refine List.forall₂_same.2 fun d _ => ?_
  split
  · rename_i h
    simp only [Bool.and_eq_true, Option.isNone_iff_eq_none] at h
    exact .inr ⟨h.2, _, _, _, _, rfl⟩
  · exact .inl rfl

theorem checkDesc_stamps (ring : RingId) (s : State) (d : Inflight) : s.stamps ring (checkDesc ring s d) := by
  unfold checkDesc
  split
  · split
    · exact finishDesc_stamps s ring _ _ _ _ _
    · exact s.stamps_refl ring
  · exact s.stamps_refl ring

/-- Checking held descriptors gives some of them a status and changes nothing else (R299, R306). -/
theorem checkAll_stamps (ring : RingId) (ds : List Inflight) (s : State) : s.stamps ring (checkAll ring ds s) := by
  unfold checkAll
  induction ds generalizing s with
  | nil => exact s.stamps_refl ring
  | cons d ds ih => exact State.stamps_trans (checkDesc_stamps ring s d) (ih _)

theorem checkAhead_stamps (s : State) (ring : RingId) (d : Inflight) : s.stamps ring (checkAhead s ring d) := by
  unfold checkAhead
  split
  · exact finishDesc_stamps s ring _ _ _ _ _
  · exact s.stamps_refl ring

theorem fetch_does (s : State) (ring : RingId) (data : List Byte) (hu : s.hlk.up = true) (hn : nextRing s = some ring) :
    ((fetch s ring data).hlk.rings[ring]).sqhead = BitVec.ofNat 16 (((s.hlk.rings[ring]).sqhead.toNat + 1) % 2 ^ (s.hlk.rings[ring]).size.toNat) ∧
    (∃ d : Inflight, d.idx = (s.hlk.rings[ring]).sqhead ∧ d.bytes = padTo 64 0 data ∧ d.status = none ∧ d.acted = false ∧
      List.Forall₂ Inflight.stamped ((s.hlk.rings[ring]).inflight ++ [d]) ((fetch s ring data).hlk.rings[ring]).inflight) ∧
    fetch s ring data = { s with hlk := (fetch s ring data).hlk } := by
  unfold fetch
  rw [if_neg (by simp [hu, hn])]
  extract_lets r d s1 s2
  have f1 : (s1.hlk.rings[ring]).sqhead = BitVec.ofNat 16 (((s.hlk.rings[ring]).sqhead.toNat + 1) % 2 ^ (s.hlk.rings[ring]).size.toNat) ∧
      (s1.hlk.rings[ring]).inflight = (s.hlk.rings[ring]).inflight ++ [d] := by
    have e := updRing_at (linkGood s) ring fun r =>
      { r with sqhead := BitVec.ofNat 16 ((r.sqhead.toNat + 1) % ringEntries r.size.toNat), inflight := r.inflight ++ [d] }
    exact ⟨congrArg Ring.sqhead e, congrArg Ring.inflight e⟩
  have f2 : s2.hlk.rings = s1.hlk.rings := by
    show (if ring = 0 then s1 else _).hlk.rings = _
    split <;> rfl
  have f3 : s2 = { s with hlk := s2.hlk } := by
    show (if ring = 0 then s1 else _) = { s with hlk := (if ring = 0 then s1 else _).hlk }
    split <;> rfl
  obtain ⟨L, hL, e⟩ := State.stamps_trans (checkAhead_stamps s2 ring d) (checkDesc_stamps ring (checkAhead s2 ring d) d)
  rw [e]
  refine ⟨?_, ⟨d, rfl, rfl, rfl, rfl, ?_⟩, ?_⟩
  · simp only [Fin.getElem_fin, Vector.getElem_set_self]
    have := f1.1
    rw [← f2] at this
    exact this
  · rw [← f1.2, ← f2]
    simp only [Fin.getElem_fin, Vector.getElem_set_self]
    exact hL
  · conv => lhs; rw [f3]

theorem nextRing_fetchable (s : State) (ring : RingId) (h : nextRing s = some ring) : fetchable s s.hlk.rings[ring] = true := by
  unfold nextRing at h
  split at h
  · cases h; assumption
  · dsimp only at h
    split at h
    · rename_i i q
      cases h
      have := List.find?_some q
      exact this
    · cases h

theorem complete_does (s : State) (ring : RingId) (idx : W16) (d : Inflight)
    (hf : ((s.hlk.rings[ring]).inflight.find? fun d => d.idx == idx && d.status.isSome) = some d) (hu : s.hlk.up = true) :
    ∃ t, exec (.descriptorComplete ring idx) s = .next t ∧ let r := s.hlk.rings[ring]; let q := t.hlk.rings[ring]
      let wrap := r.cqtail.toNat + 1 == 2 ^ r.runSize.toNat
      List.Forall₂ Inflight.stamped (r.inflight.filter (·.idx != idx)) q.inflight ∧
      ((∀ d ∈ r.inflight, startable s ring d = true) → q.inflight = r.inflight.filter (·.idx != idx)) ∧
      q.completed = r.completed + 1 ∧ q.unreleased = r.unreleased + 1 ∧
      q.cqtail = (if wrap then 0 else r.cqtail + 1) ∧ q.phase = (if wrap then !r.phase else r.phase) ∧
      (let e : Out := .hostWrite (r.runBase + BitVec.ofNat 64 (32 * r.cqtail.toNat)) (completionBytes d r.phase)
       if d.irq ∨ r.ccount.toNat ≤ r.unsent then t.out = s.out ++ [e, .interrupt r.runVector] ∧ q.unsent = 0
       else t.out = s.out ++ [e] ∧ q.unsent = r.unsent + 1) ∧
      t = { s with hlk := { s.hlk with rings := t.hlk.rings }, out := t.out } ∧ ∀ x : RingId, x ≠ ring → t.hlk.rings[x] = s.hlk.rings[x] := by
  have e : complete s ring idx = complete s ring idx := rfl
  conv at e => rhs; unfold complete
  simp only [hf, hu, Bool.not_true, Bool.false_eq_true, if_false] at e
  have oth (x : RingId) (hx : x ≠ ring) (R : Vector Ring 16) (q : Ring) : (R.set ring q)[x] = R[x] := by
    have : ring.val ≠ x.val := fun q => hx (Fin.ext q.symm)
    simp [Vector.getElem_set_ne, this]
  have held : (∀ d ∈ (s.hlk.rings[ring]).inflight, startable s ring d = true) → ((s.hlk.rings[ring]).inflight.filter fun d => !startable s ring d) = [] := by
    intro h; rw [List.filter_eq_nil_iff]; intro d hd; simp [h d hd]
  refine ⟨_, rfl, ?_⟩
  rw [e]
  by_cases c : d.irq = true ∨ (s.hlk.rings[ring]).ccount.toNat ≤ (s.hlk.rings[ring]).unsent
  · rw [if_pos (by simpa using c)]
    dsimp only
    rw [if_pos c]
    generalize hl : ((s.hlk.rings[ring]).inflight.filter fun d => !startable s ring d) = l at held
    generalize hv : interruptNow _ ring = v
    obtain ⟨L, hL, eL⟩ := checkAll_stamps ring l v
    have vr : v.hlk.rings = s.hlk.rings.set ring (v.hlk.rings[ring]) := by
      rw [← hv]; simp [interruptNow, updRing, updHlk, State.say, vmod]
    have v1 : (v.hlk.rings[ring]).inflight = (s.hlk.rings[ring]).inflight.filter (·.idx != idx) := by
      rw [← hv]; simp [interruptNow, updRing, updHlk, State.say, vmod]
    refine ⟨?_, fun h => ?_, ?_, ?_, ?_, ?_, ⟨?_, ?_⟩, ?_, fun x hx => ?_⟩
    · rw [eL, ← v1]; simpa using hL
    · rw [held h]; exact v1
    all_goals rw [eL]
    · simp [← hv, interruptNow, updRing, updHlk, State.say, vmod, bump]
    · simp [← hv, interruptNow, updRing, updHlk, State.say, vmod]
    · simp [← hv, interruptNow, updRing, updHlk, State.say, vmod, ringEntries]
    · simp [← hv, interruptNow, updRing, updHlk, State.say, vmod, ringEntries]
    · simp [← hv, interruptNow, updRing, updHlk, State.say, vmod]
    · simp [← hv, interruptNow, updRing, updHlk, State.say, vmod]
    · rw [← hv]; rfl
    · show (v.hlk.rings.set ring _)[x] = _
      rw [oth x hx, vr, oth x hx]
  · rw [if_neg (by simpa using c)]
    dsimp only
    rw [if_neg c]
    generalize hl : ((s.hlk.rings[ring]).inflight.filter fun d => !startable s ring d) = l at held
    generalize hv : updRing _ ring _ = v
    obtain ⟨L, hL, eL⟩ := checkAll_stamps ring l v
    have vr : v.hlk.rings = s.hlk.rings.set ring (v.hlk.rings[ring]) := by
      rw [← hv]; simp [updRing, updHlk, State.say, vmod]
    have v1 : (v.hlk.rings[ring]).inflight = (s.hlk.rings[ring]).inflight.filter (·.idx != idx) := by
      rw [← hv]; simp [updRing, updHlk, State.say, vmod]
    refine ⟨?_, fun h => ?_, ?_, ?_, ?_, ?_, ⟨?_, ?_⟩, ?_, fun x hx => ?_⟩
    · rw [eL, ← v1]; simpa using hL
    · rw [held h]; exact v1
    all_goals rw [eL]
    · simp [← hv, updRing, updHlk, State.say, vmod, bump]
    · simp [← hv, updRing, updHlk, State.say, vmod]
    · simp [← hv, updRing, updHlk, State.say, vmod, ringEntries]
    · simp [← hv, updRing, updHlk, State.say, vmod, ringEntries]
    · simp [← hv, updRing, updHlk, State.say, vmod]
    · simp [← hv, updRing, updHlk, State.say, vmod]
    · rw [← hv]; rfl
    · show (v.hlk.rings.set ring _)[x] = _
      rw [oth x hx, vr, oth x hx]

/-! ## Descriptors -/

/-- A descriptor that may start and passes its checks acts. -/
theorem runDesc_ready (s : State) (ring : RingId) (idx : W16) (op : Nat) (x : Inflight) (f : Inflight → State → State)
    (h : s.descReady ring idx op x) (hc : descCheck s ring x = none) : runDesc s ring idx op f = f x (if hostOp op then linkGood s else s) := by
  unfold runDesc
  simp only [h.found]
  rw [if_neg (by rw [h.starts]; cases q : hostOp op <;> simp [h.up, q])]
  simp only [hc]

/-- A descriptor that fails a check completes with its status and changes nothing (R299). -/
theorem runDesc_fails (s : State) (ring : RingId) (idx : W16) (op : Nat) (x : Inflight) (f : Inflight → State → State) {st : W16} {a : BitVec 48} {b : W64}
    {code : W16} (h : s.descReady ring idx op x) (hc : descCheck s ring x = some (st, a, b, code)) : runDesc s ring idx op f = finishDesc s ring idx st a b code := by
  unfold runDesc
  simp only [h.found]
  rw [if_neg (by rw [h.starts]; cases q : hostOp op <;> simp [h.up, q])]
  simp only [hc]

/-- The descriptor that is ready is in progress on its ring, with its index and no status. -/
theorem descReady_mem {s : State} {ring : RingId} {idx : W16} {op : Nat} {x : Inflight} (h : s.descReady ring idx op x) :
    x ∈ s.hlk.rings[ring].inflight ∧ x.idx = idx ∧ x.status = none := by
  refine ⟨List.mem_of_find?_eq_some h.found, ?_⟩
  have := List.find?_some h.found
  simp only [Bool.and_eq_true, beq_iff_eq, Option.isNone_iff_eq_none] at this
  exact ⟨this.1.1.1, this.1.1.2⟩

theorem finishDesc_marks {s : State} {ring : RingId} {idx : W16} {op : Nat} {x : Inflight} (h : s.descReady ring idx op x) (st : W16) (a : BitVec 48) (b : W64) (c : W16) :
    x.finish st a b c ∈ ((finishDesc s ring idx st a b c).hlk.rings[ring]).inflight := by
  obtain ⟨m, i, n⟩ := descReady_mem h
  rcases finishDesc_takes s ring ring idx st a b c x m n with ⟨_, _, z⟩ | ⟨k, _⟩
  · exact z
  · exact absurd ⟨rfl, i⟩ k

/-- Bytes without poison are one store. -/
theorem storeHbmP_clean (n : Nat) (s : State) (a : Nat) (bs : List Byte) : storeHbmP n s a (clean bs) = storeLines n s a bs false := by
  induction n generalizing s a bs with
  | zero => rfl
  | succ n ih =>
    unfold storeHbmP storeLines
    have e : (clean bs).isEmpty = bs.isEmpty := by cases bs <;> rfl
    rw [e]
    split
    · rfl
    · dsimp only
      have t (k : Nat) : ((clean bs).take k).map (·.1) = bs.take k := by
        rw [List.map_take]; unfold clean; rw [List.map_map]; exact congrArg (List.take k) (List.map_id bs)
      have u (k : Nat) : ((clean bs).take k).any (·.2) = false := by
        rw [List.any_eq_false]; intro x hx
        have := List.mem_of_mem_take hx
        simp only [clean, List.mem_map] at this
        obtain ⟨_, _, rfl⟩ := this
        simp
      have v (k : Nat) : (clean bs).drop k = clean (bs.drop k) := by simp [clean, List.map_drop]
      rw [t, u, v, ih]

theorem hbmPut_clean (s : State) (a : Nat) (bs : List Byte) : hbmPut s a (clean bs) = storeHbm s a bs false := by
  unfold hbmPut storeHbm
  rw [storeHbmP_clean]; simp [clean]

/-- Opening sealed data names a block at or after the one it begins with. -/
theorem fromHostAux_index (addr : Option Nat) (op n i : Nat) (s : State) (m : Nat) (data acc : List Byte) :
    ∀ j, (fromHostAux addr op n i s m data acc).2.2 = some j → i ≤ j := by
  induction n generalizing i s m data acc with
  | zero => intro j h; cases h
  | succ n ih =>
    intro j
    unfold fromHostAux
    split
    · intro h; cases h
    · dsimp only
      split
      · intro h; cases h; exact Nat.le_refl _
      · intro h; have := ih _ _ _ _ _ j h; omega

theorem openBlock_sec (s : State) (addr op n : Nat) (blk : List Byte) : ∃ c, (openBlock s addr op n blk).1 = { s with sec := c } := by
  unfold openBlock
  dsimp only
  split
  · exact ⟨_, rfl⟩
  · split <;> exact ⟨_, rfl⟩

theorem fromHostAux_sec (addr : Option Nat) (op n i : Nat) (s : State) (m : Nat) (data acc : List Byte) :
    ∃ c, (fromHostAux addr op n i s m data acc).1 = { s with sec := c } := by
  induction n generalizing i s m data acc with
  | zero => exact ⟨s.sec, rfl⟩
  | succ n ih =>
    unfold fromHostAux
    split
    · exact ⟨s.sec, rfl⟩
    · dsimp only
      split
      · rename_i q; obtain ⟨c, e⟩ := openBlock_sec s _ op (min m 4096) (data.take (min m 4096 + 32)); rw [q] at e; exact ⟨c, e⟩
      · rename_i q; obtain ⟨c, e⟩ := openBlock_sec s _ op (min m 4096) (data.take (min m 4096 + 32)); rw [q] at e
        rename_i s1 pt
        obtain ⟨c2, e2⟩ := ih (i + 1) s1 (m - min m 4096) (data.drop (min m 4096 + 32)) (acc ++ pt)
        dsimp only at e
        subst e
        exact ⟨c2, e2⟩

/-- Reading host data changes nothing but confidential mode's counters (R387). -/
theorem fromHost_sec (s : State) (addr : Option Nat) (op n : Nat) (data : List Byte) : ∃ c, (fromHost s addr op n data).1 = { s with sec := c } := by
  unfold fromHost
  split
  · exact fromHostAux_sec addr op _ 0 s n data []
  · exact ⟨s.sec, rfl⟩

/-- Outside confidential mode host data comes as it is. -/
theorem fromHost_plain (s : State) (addr : Option Nat) (op n : Nat) (data : List Byte) (h : sealing s = false) :
    fromHost s addr op n data = (s, padTo n 0 data, none) := by
  unfold fromHost; rw [if_neg (by simp [h])]

theorem toHost_plain (s : State) (addr : Option Nat) (op : Nat) (data : List Byte) (h : sealing s = false) : toHost s addr op data = (s, data) := by
  unfold toHost; rw [if_neg (by simp [h])]

end Sys2Proof.Machine
end

