-- ==== Sys2Proof/Laws/Boot.lean ====
section
/-! SUPPORT. Boot: what each stage that passes keeps and changes (R417–R420), and the boot up to KEY_UNLOCK. -/

namespace Sys2Proof.Machine

theorem stage_goes {env : BootEnv} {code : Byte} {act : State → State × Option (Nat × Nat)} {rest : State → State} {s t : State}
    (hf : env.fail = none) (h : act (enterStage s env code) = (t, none)) : stage env code act rest s = rest t := by
  unfold stage; rw [h, hf]

theorem stage_fails {env : BootEnv} {code : Byte} {act : State → State × Option (Nat × Nat)} {rest : State → State} {s t : State} {r : Nat × Nat}
    (h : act (enterStage s env code) = (t, some r)) : stage env code act rest s = failStart t (BitVec.ofNat 8 r.1) r.2 := by
  unfold stage; rw [h]

/-- What the stages before NODISC leave of the flash and of the start's record. -/
def BootKept (s t : State) : Prop :=
  t.boot.fw = s.boot.fw ∧ t.sec.arc = s.sec.arc ∧ t.boot.failedStarts = s.boot.failedStarts ∧ t.boot.minimal = s.boot.minimal ∧
    t.glb.variant = s.glb.variant ∧ t.sec.fleetInstalled = s.sec.fleetInstalled

theorem BootKept.trans {a b c : State} (h : BootKept a b) (g : BootKept b c) : BootKept a c := by
  obtain ⟨h1, h2, h3, h4, h5, h6⟩ := h
  obtain ⟨g1, g2, g3, g4, g5, g6⟩ := g
  exact ⟨g1.trans h1, g2.trans h2, g3.trans h3, g4.trans h4, g5.trans h5, g6.trans h6⟩

/-- The core records stay as they are. -/
def CoresKept (s t : State) : Prop := t.boot.coreSuspect = s.boot.coreSuspect ∧ t.boot.coreFailed = s.boot.coreFailed

theorem CoresKept.trans {a b c : State} (h : CoresKept a b) (g : CoresKept b c) : CoresKept a c := ⟨g.1.trans h.1, g.2.trans h.2⟩

/-- A core counts as failed or suspect only where the start found it so or a record that verified does (R376, log entry 119). -/
def CoresFound (env : BootEnv) (s t : State) : Prop :=
  (∀ x ∈ t.boot.coreSuspect, x ∈ s.boot.coreSuspect ∨ x ∈ env.records.suspects) ∧
  (∀ x ∈ t.boot.coreFailed, (x ∈ s.boot.coreFailed ∧ env.records.characterisation = false) ∨ x ∈ env.coresBad)

theorem enterStage_kept (s : State) (env : BootEnv) (code : Byte) : BootKept s (enterStage s env code) := ⟨rfl, rfl, rfl, rfl, rfl, rfl⟩

theorem selectSlot_congr {s t : State} (h : BootKept s t) (k : Fin 5) : selectSlot t k = selectSlot s k := by
  unfold selectSlot qualifies
  rw [h.1, h.2.1]

theorem enabledCluster_congr {s t : State} (h : BootKept s t) (c : Fin 8) : enabledCluster t c = enabledCluster s c := by
  unfold enabledCluster
  rw [h.2.2.2.2.1]

theorem takeImages (l : List (Fin 5)) (s : State) : ∃ c f, l.foldl takeImage s = { s with sec := c, free := f } ∧ c.arc = s.sec.arc ∧
    c.fleetInstalled = s.sec.fleetInstalled ∧ c.epoch = s.sec.epoch ∧ c.unlocked = s.sec.unlocked := by
  induction l generalizing s with
  | nil => exact ⟨s.sec, s.free, rfl, rfl, rfl, rfl, rfl⟩
  | cons k l ih =>
    obtain ⟨c, f, e, h1, h2, h3, h4⟩ : ∃ c f, takeImage s k = { s with sec := c, free := f } ∧ c.arc = s.sec.arc ∧ c.fleetInstalled = s.sec.fleetInstalled ∧
        c.epoch = s.sec.epoch ∧ c.unlocked = s.sec.unlocked := by
      unfold takeImage
      split
      · exact ⟨s.sec, s.free, rfl, rfl, rfl, rfl, rfl⟩
      · rename_i b _
        obtain ⟨c, hc⟩ : ∃ c, measure s 0 (2 + k.val) (imageHeader s k b) = { s with sec := { s.sec with log := s.sec.log ++ [c], logSeq := s.sec.logSeq + 1, m := vmod s.sec.m 0 fun m => sha256 (bytes256 m ++ c) } } := ⟨_, rfl⟩
        dsimp only
        rw [hc]
        exact ⟨_, _, rfl, rfl, rfl, rfl, rfl⟩
    obtain ⟨c2, f2, e2, k1, k2, k3, k4⟩ := ih (takeImage s k)
    rw [e] at e2 k1 k2 k3 k4
    exact ⟨c2, f2, by rw [List.foldl_cons, e, e2], k1.trans h1, k2.trans h2, k3.trans h3, k4.trans h4⟩

/-- FW_VERIFY with every image the variant needs. -/
theorem stageVerify_clean (s : State) (h : ∀ k : Fin 5, k.val < 3 ∨ (k.val = 3 ∧ s.glb.variant = .s64) → (selectSlot s k).isSome = true) :
    ∃ t, stageVerify s = (t, none) ∧ BootKept s t ∧ CoresKept s t ∧ t.pwr = s.pwr ∧ t.hlk = s.hlk ∧ t.sec.epoch = s.sec.epoch ∧ t.sec.unlocked = s.sec.unlocked := by
  unfold stageVerify
  have n (k : Fin 5) (hk : k.val < 3 ∨ (k.val = 3 ∧ s.glb.variant = .s64)) : (selectSlot s k).isNone = false := by
    have := h k hk; cases q : selectSlot s k <;> simp_all
  rw [if_neg (by rw [n 0 (Or.inl (by decide))]; simp)]
  extract_lets s1 s2 s3
  obtain ⟨c, f, e, h1, h2, h3, h4⟩ := takeImages (List.finRange 5) s
  have e1 : s1 = { s with sec := c, free := f } := e
  clear_value s1
  obtain ⟨c2, hc⟩ : ∃ c2, s2 = { s1 with sec := { s1.sec with log := s1.sec.log ++ [c2], logSeq := s1.sec.logSeq + 1, m := vmod s1.sec.m 0 fun m => sha256 (bytes256 m ++ c2) } } := ⟨_, rfl⟩
  have e3 : s3 = updBoot s2 fun b => { b with noLibrary := (selectSlot s 4).isNone } := rfl
  clear_value s3 s2
  refine ⟨s3, ?_, ?_⟩
  · rw [if_neg (by rw [n 1 (Or.inl (by decide))]; simp), if_neg (by rw [n 2 (Or.inl (by decide))]; simp), if_neg]
    by_cases v : s.glb.variant = .s64
    · rw [n 3 (Or.inr ⟨rfl, v⟩)]; simp
    · simp [v]
  · rw [e3, hc, e1]
    exact ⟨⟨rfl, h1, rfl, rfl, rfl, h2⟩, ⟨rfl, rfl⟩, rfl, rfl, h3, h4⟩

/-- KEY_UNLOCK with good keys. -/
theorem stageUnlock_clean (s : State) (env : BootEnv) (h1 : ∃ i : Fin 3, env.pufReads[i.val]? = some true) (h2 : s.sec.fleetInstalled = true → env.fleetOk = true)
    (h3 : env.secFlashOk = true) :
    ∃ t, stageUnlock env s = (t, none) ∧ BootKept s t ∧ CoresFound env s t ∧ t.pwr.tripPending = s.pwr.tripPending ∧ t.hlk = s.hlk ∧
      t.sec.epoch = s.sec.epoch + 1 ∧ t.sec.unlocked = true := by
  have hp : (env.pufReads.take 3).any id = true := by
    obtain ⟨i, hi⟩ := h1
    rw [List.any_eq_true]
    refine ⟨true, ?_, rfl⟩
    rw [List.mem_iff_getElem?]
    exact ⟨i.val, by rw [List.getElem?_take_of_lt i.isLt]; exact hi⟩
  unfold stageUnlock
  rw [if_neg (by rw [hp]; simp), if_neg (by cases q : s.sec.fleetInstalled <;> simp_all), if_neg (by simp [h3])]
  extract_lets s1 s2
  obtain ⟨c2, hc⟩ : ∃ c2, s2 = { checkRecords env s1 with sec := { s1.sec with log := s1.sec.log ++ [c2], logSeq := s1.sec.logSeq + 1, m := vmod s1.sec.m 0 fun m => sha256 (bytes256 m ++ c2) } } := ⟨_, rfl⟩
  clear_value s2
  obtain ⟨c3, hc3⟩ : ∃ c3, measure s2 1 0x10 (modeBytes s2) = { s2 with sec := { s2.sec with log := s2.sec.log ++ [c3], logSeq := s2.sec.logSeq + 1, m := vmod s2.sec.m 1 fun m => sha256 (bytes256 m ++ c3) } } := ⟨_, rfl⟩
  refine ⟨_, rfl, ?_⟩
  rw [hc3, hc]
  refine ⟨⟨rfl, rfl, rfl, rfl, rfl, rfl⟩, ⟨fun x hx => ?_, fun x hx => ?_⟩, rfl, rfl, rfl, rfl⟩
  · rcases List.mem_append.1 hx with hx | hx
    · exact .inl hx
    · exact .inr (List.mem_filter.1 hx).1
  · left
    have hx : x ∈ (if env.records.characterisation = true then [] else s.boot.coreFailed) := hx
    split at hx
    · cases hx
    · rename_i h; exact ⟨hx, by simpa using h⟩

theorem repeatEvents (n k : Nat) (s : State) : ∃ f h o, Nat.repeat (fun t => raiseOpen t k) n s = { s with free := f, hlk := h, out := o } := by
  induction n with
  | zero => exact ⟨s.free, s.hlk, s.out, rfl⟩
  | succ n ih =>
    obtain ⟨f, h, o, e⟩ := ih
    unfold Nat.repeat
    rw [e]
    obtain ⟨h2, o2, e2⟩ := raiseOpen_frame ({ s with free := f, hlk := h, out := o } : State) k
    rw [e2]
    exact ⟨_, h2, _, rfl⟩

theorem loadKeys_frame (s : State) : ∃ d f o, loadKeys s = { s with mem := { s.mem with keyDraw := d }, free := f, out := o } := by
  unfold loadKeys
  extract_lets src1 s1
  have h1 : ∃ d f o, s1 = { s with mem := { s.mem with keyDraw := d }, free := f, out := o } := ⟨_, _, _, rfl⟩
  have fold : ∀ (l : List StackId) (t : State), (∃ d f o, t = { s with mem := { s.mem with keyDraw := d }, free := f, out := o }) → ∃ d f o, l.foldl (fun t k => if t.mem.hbmStacks[k].xen then t.say (.xkey k (memoryKey s1 k)) else t) t =
      { s with mem := { s.mem with keyDraw := d }, free := f, out := o } := by
    intro l
    induction l with
    | nil => intro t h; exact h
    | cons k l ih =>
      intro t h
      refine ih _ ?_
      obtain ⟨d, f, o, e⟩ := h
      clear_value s1
      dsimp only
      split
      · rw [e]; exact ⟨d, f, _, rfl⟩
      · exact ⟨d, f, o, e⟩
  exact fold _ s1 h1

/-- HBM_TRAIN with every stack and channel good. -/
theorem stageHbm_clean (s : State) (env : BootEnv) (h1 : env.stackSilent = none) (h2 : chansBad env = []) :
    ∃ t, stageHbm env s = (t, none) ∧ BootKept s t ∧ CoresKept s t ∧ t.pwr = s.pwr ∧ t.hlk = s.hlk ∧ t.inp = s.inp ∧ t.sec = s.sec ∧
      ∀ k : StackId, k.val < stacksOf s.glb.variant → (t.mem.hbmStacks[k]).present = true := by
  unfold stageHbm
  extract_lets n silent bad stks outs fixed src1 src2 src3 s1 src4
  have e1 : silent = none := by unfold silent; rw [h1]; rfl
  have e2 : bad = [] := by unfold bad; rw [h2]; rfl
  have f1 : s1.mem.hbmStacks = stks ∧ BootKept s s1 ∧ CoresKept s s1 ∧ s1.pwr = s.pwr ∧ s1.hlk = s.hlk ∧ s1.inp = s.inp ∧ s1.sec = s.sec :=
    ⟨rfl, ⟨rfl, rfl, rfl, rfl, rfl, rfl⟩, ⟨rfl, rfl⟩, rfl, rfl, rfl, rfl⟩
  clear_value s1
  obtain ⟨m, k1, k2, k3, k4, k5, k6⟩ := f1
  rw [e1, e2]
  simp only [List.head?_nil, ite_self]
  obtain ⟨d, f, o, e⟩ := loadKeys_frame { s1 with glb := { s1.glb with jobCapacity := BitVec.ofNat 40 (jobCap s1) } }
  rw [e]
  refine ⟨_, rfl, k1, k2, k3, k4, k5, k6, fun k hk => ?_⟩
  show (s1.mem.hbmStacks[k]).present = true
  rw [m]
  simp only [stks, Fin.getElem_fin, Vector.getElem_mapFinIdx]
  rw [if_pos (show k.val < n from hk)]
  rfl

/-- CHARACTERISE with a usable core in every enabled cluster. -/
theorem stageCharacterise_clean (s : State) (env : BootEnv) (h1 : s.pwr.tripPending = true → env.postTripOk = true) (h2 : env.tripIn80 = none)
    (h4 : ∀ c : Fin 8, enabledCluster s c = true → ∃ p : Fin 9, (c, p) ∉ s.boot.coreFailed ∧ (c, p) ∉ s.boot.coreSuspect ∧ 900 ≤ usableFreq (fmeasOf env c p)) :
    ∃ t, stageCharacterise env s = (t, none) ∧ BootKept s t ∧ t.pwr.tripPending = false ∧ t.hlk = s.hlk ∧ t.inp = s.inp ∧ t.sec = s.sec ∧ t.mem = s.mem := by
  unfold stageCharacterise
  rw [if_neg (by cases q : s.pwr.tripPending <;> simp_all)]
  extract_lets src1 src2 s1 slow s2
  have b1 : s1.boot.coreFailed = s.boot.coreFailed := rfl
  have b2 : s2.boot.coreFailed = s1.boot.coreFailed ++ (((physCores s1).filter fun x => usableFreq (fmeasOf env x.1 x.2) < 900).filter fun x => !s1.boot.coreFailed.contains x) := rfl
  have b3 : s2.boot.coreSuspect = s.boot.coreSuspect := rfl
  have k2 : BootKept s s2 := ⟨rfl, rfl, rfl, rfl, rfl, rfl⟩
  have r2 : s2.pwr.tripPending = false ∧ s2.hlk = s.hlk ∧ s2.inp = s.inp ∧ s2.sec = s.sec ∧ s2.mem = s.mem := ⟨rfl, rfl, rfl, rfl, rfl⟩
  rw [h2]
  dsimp only
  clear_value s2 s1
  have hn : ((List.finRange 8).find? fun c => enabledCluster s2 c && (usableCores s2 c).isEmpty) = none := by
    rw [List.find?_eq_none]
    intro c _ hc
    simp only [Bool.and_eq_true, List.isEmpty_iff] at hc
    obtain ⟨hc1, hc2⟩ := hc
    rw [enabledCluster_congr k2] at hc1
    obtain ⟨p, p1, p2, p3⟩ := h4 c hc1
    have : p ∈ usableCores s2 c := by
      unfold usableCores
      refine List.mem_filter.2 ⟨List.mem_finRange p, ?_⟩
      have a1 : s2.boot.coreSuspect.contains (c, p) = false := by
        rw [b3]; simpa using p2
      have a2 : s2.boot.coreFailed.contains (c, p) = false := by
        have hb : ∀ x ∈ s2.boot.coreFailed, x ∈ s.boot.coreFailed ∨ usableFreq (fmeasOf env x.1 x.2) < 900 := by
          intro x hx
          rw [b2, b1] at hx
          rcases List.mem_append.1 hx with hx | hx
          · exact Or.inl hx
          · have := (List.mem_filter.1 (List.mem_filter.1 hx).1).2
            exact Or.inr (by simpa using this)
        rw [Bool.eq_false_iff]
        intro q
        rcases hb (c, p) (by simpa using q) with q | q
        · exact p1 q
        · have q : usableFreq (fmeasOf env c p) < 900 := q
          omega
      rw [a1, a2]; rfl
    rw [hc2] at this
    cases this
  rw [hn]
  exact ⟨s2, rfl, k2, r2⟩

theorem repeatComb (n : Nat) (s : State) : ∃ f h o c, Nat.repeat combEvent n s = { s with free := f, hlk := h, out := o, opt := { s.opt with combEvents := c } } := by
  induction n with
  | zero => exact ⟨s.free, s.hlk, s.out, s.opt.combEvents, rfl⟩
  | succ n ih =>
    obtain ⟨f, h, o, c, e⟩ := ih
    unfold Nat.repeat
    rw [e]
    unfold combEvent
    obtain ⟨h2, o2, e2⟩ := raiseOpen_frame ({ s with free := f, hlk := h, out := o, opt := { s.opt with combEvents := bump c } } : State) 5
    rw [e2]
    exact ⟨_, h2, _, _, rfl⟩

theorem stageOptics_clean (s : State) (env : BootEnv) (h : env.engineBad = none) : ∃ t, stageOptics env s = (t, none) ∧ BootKept s t ∧ t.pwr = s.pwr ∧
    t.inp = s.inp ∧ t.sec = s.sec ∧ t.mem = s.mem := by
  unfold stageOptics
  rw [h]
  dsimp only
  generalize hu : ({ s with opt := _, free := _, glb := _ } : State) = u
  generalize hn : (List.filter _ (List.finRange 64)).length = n1
  generalize hm : ((List.filter _ (List.range 5)).length + _) = n2
  obtain ⟨f, hh, o, c, e⟩ := repeatComb n2 u
  obtain ⟨f2, h2, o2, e2⟩ := repeatEvents n1 0x06 (Nat.repeat combEvent n2 u)
  refine ⟨_, rfl, ?_⟩
  rw [e2, e, ← hu]
  exact ⟨⟨rfl, rfl, rfl, rfl, rfl, rfl⟩, rfl, rfl, rfl, rfl⟩

theorem stageMap_clean (s : State) (env : BootEnv) : ∃ t, stageMap env s = (t, none) ∧ BootKept s t ∧ t.pwr.tripPending = s.pwr.tripPending ∧
    t.inp = s.inp ∧ t.sec.unlocked = s.sec.unlocked ∧ t.sec.epoch = s.sec.epoch ∧ t.mem = s.mem := by
  unfold stageMap
  extract_lets ms s1 fmin src1 src2 s2
  have k : BootKept s s2 ∧ s2.pwr.tripPending = s.pwr.tripPending ∧ s2.inp = s.inp ∧ s2.sec = s.sec ∧ s2.mem = s.mem := ⟨⟨rfl, rfl, rfl, rfl, rfl, rfl⟩, rfl, rfl, rfl, rfl⟩
  clear_value s2
  obtain ⟨k1, k2, k3, k4, k5⟩ := k
  obtain ⟨c3, hc3⟩ : ∃ c3, measure s2 1 0x11 (regBytes s2 0x2000000 64) = { s2 with sec := { s2.sec with log := s2.sec.log ++ [c3], logSeq := s2.sec.logSeq + 1, m := vmod s2.sec.m 1 fun m => sha256 (bytes256 m ++ c3) } } := ⟨_, rfl⟩
  refine ⟨_, rfl, ?_⟩
  rw [hc3]
  refine ⟨k1.trans ⟨rfl, rfl, rfl, rfl, rfl, rfl⟩, k2, k3, ?_, ?_, k5⟩
  · show s2.sec.unlocked = _; rw [k4]
  · show s2.sec.epoch = _; rw [k4]

/-- The stages up to FW_VERIFY. -/
theorem boot_verified (env : BootEnv) (s : State) (h0 : s.boot.failedStarts ≠ 3 ∧ env.records.failedStarts = false) (hf : env.fail = none)
    (hi : ∀ k : Fin 5, k.val < 3 ∨ (k.val = 3 ∧ s.glb.variant = .s64) → (selectSlot s k).isSome = true) :
    ∃ t, boot env s = stage env 0x30 (stageUnlock env) (bootRails env) t ∧ BootKept s t ∧ CoresKept s t ∧ t.pwr = s.pwr ∧ t.hlk = s.hlk ∧ t.sec.unlocked = s.sec.unlocked ∧
      t.sec.epoch = s.sec.epoch := by
  unfold boot
  extract_lets src1 src2 src3 s0 last
  have k0 : BootKept s s0 := ⟨rfl, rfl, rfl, rfl, rfl, rfl⟩
  have p0 : CoresKept s s0 ∧ s0.pwr = s.pwr ∧ s0.hlk = s.hlk ∧ s0.sec = s.sec := ⟨⟨rfl, rfl⟩, rfl, rfl, rfl⟩
  have hlast : ∀ t, t.boot.failedStarts ≠ 3 → last t = bootRails env t := fun t h => if_neg h
  clear_value s0 last
  have e0 : stageService env (enterStage s0 env 0x10) = (enterStage s0 env 0x10, none) := by
    unfold stageService; rw [h0.2]; rfl
  rw [stage_goes hf e0]
  have k1 := k0.trans (enterStage_kept s0 env 0x10)
  obtain ⟨t2, e2, kk2, q2, a2, b2, c2, d2⟩ := stageVerify_clean (enterStage (enterStage s0 env 0x10) env 0x20) (by
    intro k hk
    rw [selectSlot_congr (k1.trans (enterStage_kept _ env 0x20))]
    exact hi k (by rw [← (k1.trans (enterStage_kept _ env 0x20)).2.2.2.2.1]; exact hk))
  rw [stage_goes hf e2]
  have k2 := (k1.trans (enterStage_kept _ env 0x20)).trans kk2
  refine ⟨t2, ?_, k2, p0.1.trans q2, a2.trans p0.2.1, b2.trans p0.2.2.1, ?_, ?_⟩
  · have hun : ∀ t r, stageUnlock env (enterStage t2 env 0x30) = (t, r) → t.boot.failedStarts = t2.boot.failedStarts := by
      intro t r h
      unfold stageUnlock at h
      split at h
      · cases h; rfl
      split at h
      · cases h; rfl
      split at h
      · cases h; rfl
      · cases h; rfl
    unfold stage
    generalize hx : stageUnlock env (enterStage t2 env 0x30) = x
    obtain ⟨t, r⟩ := x
    have := hun t r hx
    cases r with
    | some r => rfl
    | none =>
      rw [hf]
      exact hlast t (by rw [this, k2.2.2.1]; exact h0.1)
  · rw [d2]; show s0.sec.unlocked = _; rw [p0.2.2.2]
  · rw [c2]; show s0.sec.epoch = _; rw [p0.2.2.2]

/-- The stages up to KEY_UNLOCK. -/
theorem boot_unlocked (env : BootEnv) (s : State) (h0 : s.boot.failedStarts ≠ 3 ∧ env.records.failedStarts = false) (hf : env.fail = none)
    (hi : ∀ k : Fin 5, k.val < 3 ∨ (k.val = 3 ∧ s.glb.variant = .s64) → (selectSlot s k).isSome = true)
    (hk : (∃ i : Fin 3, env.pufReads[i.val]? = some true) ∧ (s.sec.fleetInstalled = true → env.fleetOk = true) ∧ env.secFlashOk = true) :
    ∃ t, boot env s = bootRails env t ∧ BootKept s t ∧ CoresFound env s t ∧ t.pwr.tripPending = s.pwr.tripPending ∧ t.hlk = s.hlk ∧
      t.sec.epoch = s.sec.epoch + 1 ∧ t.sec.unlocked = true := by
  obtain ⟨t2, e2, k2, q2, a2, b2, _, c2⟩ := boot_verified env s h0 hf hi
  obtain ⟨t3, e3, kk3, q3, a3, b3, c3, d3⟩ := stageUnlock_clean (enterStage t2 env 0x30) env hk.1 (by
    intro h; exact hk.2.1 (by rw [← (k2.trans (enterStage_kept _ env 0x30)).2.2.2.2.2]; exact h)) hk.2.2
  rw [e2, stage_goes hf e3]
  refine ⟨t3, rfl, (k2.trans (enterStage_kept _ env 0x30)).trans kk3, ?_, ?_, b3.trans b2, by rw [c3]; show t2.sec.epoch + 1 = _; rw [c2], d3⟩
  · obtain ⟨r1, r2⟩ := q3
    obtain ⟨m1, m2⟩ := q2
    refine ⟨fun x hx => ?_, fun x hx => ?_⟩
    · have := r1 x hx; rw [← m1]; exact this
    · have := r2 x hx; rw [← m2]; exact this
  · rw [a3]; show t2.pwr.tripPending = _; rw [a2]

end Sys2Proof.Machine
end

