-- ==== Sys2Proof/Laws/Job.lean ====
section
/-! SUPPORT. The job: which failed check of an image is named, and what placing an image changes (R315, R319). -/

namespace Sys2Proof.Machine

theorem firstFail_le (l : List (Nat × Nat)) (y : Nat × Nat) (h : firstFail l = some y) : ∀ x ∈ l, y.1 ≤ x.1 ∧ (x.1 = y.1 → y.2 ≤ x.2) := by
  induction l generalizing y with
  | nil => intro x hx; cases hx
  | cons a l ih =>
    intro x hx
    unfold firstFail at h
    cases hf : firstFail l with
    | none =>
      rw [hf] at h; cases h
      rcases List.mem_cons.1 hx with rfl | hx
      · exact ⟨Nat.le_refl _, fun _ => Nat.le_refl _⟩
      · cases l with
        | nil => cases hx
        | cons b l => unfold firstFail at hf; split at hf
                      · cases hf
                      · split at hf <;> cases hf
    | some z =>
      rw [hf] at h
      have hz := ih z hf
      dsimp only at h
      split at h
      · cases h
        rename_i hc
        simp only [Bool.or_eq_true, decide_eq_true_eq, Bool.and_eq_true] at hc
        rcases List.mem_cons.1 hx with rfl | hx
        · exact ⟨Nat.le_refl _, fun _ => Nat.le_refl _⟩
        · have := hz x hx; constructor
          · omega
          · intro e; have := this.2; omega
      · cases h
        rename_i hc
        simp only [Bool.or_eq_true, decide_eq_true_eq, Bool.and_eq_true] at hc
        rcases List.mem_cons.1 hx with rfl | hx
        · constructor
          · omega
          · intro e; omega
        · exact hz x hx

theorem putAll_hbm (l : List (Nat × List Byte)) (s : State) : HbmStep s (l.foldl putAt s) := HbmStep.foldl putAt (fun s x => storeHbm_hbm s x.1 x.2 false) l s

end Sys2Proof.Machine
end

