-- ==== Sys2Proof/Laws/Power.lean ====
section
/-! SUPPORT. Power and temperature: what a telemetry reading, a power reading, the cap watch and the headroom step change (R324–R336). -/

namespace Sys2Proof.Machine

theorem judgeTelemetry_does (s : State) (r : PowerReading) :
    let bad := (r.fresh = true ∧ (3600 < r.watts.toNat ∨ r.decivolts.toNat < 450 ∨ 650 < r.decivolts.toNat ∨ r.fault = true)) ∨
        (r.fresh = false ∧ 3 ≤ s.pwr.staleReads)
    let u := judgeTelemetry s r
    u = { s with pwr := u.pwr, hlk := u.hlk, out := u.out, free := u.free } ∧
        u.pwr.pMeas = (if r.fresh then r.watts else s.pwr.pMeas) ∧ u.pwr.measSum = s.pwr.measSum + u.pwr.pMeas.toNat ∧ u.pwr.measN = s.pwr.measN + 1 ∧ (bad → u.pwr.telemetryBad = true ∧ u.pwr.goodReadings = 0) ∧
        (bad → s.pwr.telemetryBad = false → u.pwr.telemetryEvents = s.pwr.telemetryEvents + 1) ∧
        (¬ bad → s.pwr.telemetryBad = false → u.pwr.telemetryBad = false) ∧
        (¬ bad → s.pwr.telemetryBad = true → (u.pwr.telemetryBad = false ↔ r.fresh = true ∧ 199 ≤ s.pwr.goodReadings)) := by
  intro bad u
  show _
  unfold u
  unfold judgeTelemetry
  extract_lets stale b good s1
  have hb : b = true ↔ bad := by
    simp only [b, bad, stale, badReading, Bool.or_eq_true, Bool.and_eq_true, decide_eq_true_eq]
    cases hf : r.fresh <;> simp [or_assoc]
  have hg : good = if b || !r.fresh then 0 else s.pwr.goodReadings + 1 := rfl
  have hs1 : s1 = { s with pwr := { s.pwr with staleReads := stale, goodReadings := good, pMeas := (if r.fresh then r.watts else s.pwr.pMeas), measSum := s.pwr.measSum + (if r.fresh then r.watts else s.pwr.pMeas).toNat, measN := s.pwr.measN + 1 } } := rfl
  clear_value s1 good b
  by_cases c : bad
  · rw [hb.2 c] at hg ⊢
    by_cases d : s.pwr.telemetryBad = true
    · rw [if_neg (by simp [d]), if_neg (by simp), hs1]
      refine ⟨rfl, rfl, rfl, rfl, fun _ => ⟨d, by rw [hg]; simp⟩, fun _ h => absurd d (by rw [h]; simp), fun h => absurd c h, fun h => absurd c h⟩
    · rw [if_pos (by simp [d])]
      obtain ⟨h, o, e⟩ := raiseOpen_frame (updPwr s1 fun p => { p with telemetryBad := true, telemetryEvents := bump p.telemetryEvents }) 0x09
      rw [e, hs1]
      exact ⟨rfl, rfl, rfl, rfl, fun _ => ⟨rfl, by rw [hg]; simp [updPwr]⟩, fun _ _ => rfl, fun h => absurd c h, fun h => absurd c h⟩
  · have hbf : b = false := by cases b <;> simp_all
    rw [hbf] at hg ⊢
    rw [if_neg (by simp)]
    by_cases d : s.pwr.telemetryBad = true
    · by_cases f : r.fresh = true ∧ 199 ≤ s.pwr.goodReadings
      · rw [if_pos (by rw [d, hg]; simp [f.1]; exact f.2)]
        obtain ⟨h, o, e⟩ := raiseOpen_frame (updPwr s1 fun p => { p with telemetryBad := false }) 0x09
        rw [e, hs1]
        exact ⟨rfl, rfl, rfl, rfl, fun h => absurd h c, fun h => absurd h c, fun _ _ => rfl, fun _ _ => by simp [updPwr, f]⟩
      · rw [if_neg (by
          rw [d, hg]; cases hf : r.fresh
          · simp
          · simp; by_contra q; exact f ⟨hf, by omega⟩), hs1]
        refine ⟨rfl, rfl, rfl, rfl, fun h => absurd h c, fun h => absurd h c, fun _ h => absurd d (by rw [h]; simp), fun _ _ => ?_⟩
        simp only [d, Bool.true_eq_false, false_iff]
        exact f
    · rw [if_neg (by simp [d]), hs1]
      exact ⟨rfl, rfl, rfl, rfl, fun h => absurd h c, fun h => absurd h c, fun _ h => h, fun _ h => absurd h d⟩

theorem judgeVoltage_does (u : State) (r : PowerReading) : ∃ ib ig h o f, judgeVoltage u r =
    { u with pwr := { u.pwr with inputBad := ib, inputGood := ig }, inp := { u.inp with inputDv := if r.fresh then r.decivolts else u.inp.inputDv },
             hlk := h, out := o, free := f } ∧
    (r.fresh = true → (r.decivolts.toNat < 500 ∨ 620 < r.decivolts.toNat) → ib = true) := by
  unfold judgeVoltage
  by_cases hf : r.fresh = true
  · rw [if_neg (by simp [hf])]
    dsimp only
    by_cases ho : r.decivolts.toNat < 500 ∨ 620 < r.decivolts.toNat
    · rw [if_pos (by simpa using ho), if_pos hf]
      by_cases hb : u.pwr.inputBad = true
      · rw [if_pos hb]
        exact ⟨u.pwr.inputBad, 0, u.hlk, u.out, u.free, rfl, fun _ _ => hb⟩
      · rw [if_neg hb]
        obtain ⟨h, o, e⟩ := raiseOpen_frame (updPwr { u with inp := { u.inp with inputDv := r.decivolts } } fun p => { p with inputBad := true, inputGood := 0 }) 0x09
        rw [e]
        exact ⟨true, 0, h, u.out ++ o, u.free + 16, rfl, fun _ _ => rfl⟩
    · rw [if_neg (by simpa using ho), if_pos hf]
      split
      · exact ⟨!(decide (199 ≤ u.pwr.inputGood)), u.pwr.inputGood + 1, u.hlk, u.out, u.free, rfl, fun _ h => absurd h ho⟩
      · exact ⟨u.pwr.inputBad, u.pwr.inputGood, u.hlk, u.out, u.free, rfl, fun _ h => absurd h ho⟩
  · rw [if_pos (by simp [hf]), if_neg hf]
    exact ⟨u.pwr.inputBad, u.pwr.inputGood, u.hlk, u.out, u.free, rfl, fun h => absurd h hf⟩


theorem capWatch_does (s : State) (b : Bool) : ∃ n c h o f, capWatch s b =
    { s with pwr := { s.pwr with redHalved := n, capUnmet := c }, hlk := h, out := o, free := f } := by
  unfold capWatch
  split
  · exact ⟨0, false, s.hlk, s.out, s.free, rfl⟩
  · split
    · dsimp only
      split
      · obtain ⟨h, o, e⟩ := raiseOpen_frame (updPwr s fun p => { p with redHalved := s.pwr.redHalved + 1, capUnmet := true }) 0x09
        rw [e]
        exact ⟨s.pwr.redHalved + 1, true, h, s.out ++ o, s.free + 16, rfl⟩
      · exact ⟨s.pwr.redHalved + 1, s.pwr.capUnmet, s.hlk, s.out, s.free, rfl⟩
    · exact ⟨0, s.pwr.capUnmet, s.hlk, s.out, s.free, rfl⟩

/-- What one headroom sample leaves (R325): the mean of P_lim since the last one enters S, and the two bands and the halving follow. -/
theorem headroomStep_does (s : State) : ∃ q h o f, headroomStep s = { s with pwr := q, hlk := h, out := o, free := f } ∧
    q.samples = (limMean s.pwr :: s.pwr.samples).take 10000 ∧ q.limSum = 0 ∧ q.limN = 0 ∧ q.tStack = hottestStack s ∧ q.tOpt = hottestEngine s ∧
    q.views = ((s.pwr.pEst, s.pwr.pMeas) :: s.pwr.views).take 10000 ∧
    q.pstate = BitVec.ofNat 2 (powerState ((limMean s.pwr :: s.pwr.samples).take 10000).sum ((limMean s.pwr :: s.pwr.samples).take 10000).length (capOf s)) ∧
    q.tstate = BitVec.ofNat 2 (max (bandOf s.pwr.tDie 400 432) (max (bandOf (hottestStack s) 360 380) (bandOf (hottestEngine s) 320 340))) ∧
    q.halving = (s.pwr.fastRise || s.pwr.peak || max q.pstate.toNat q.tstate.toNat == 2) := by
  unfold headroomStep
  extract_lets l sum ps s1 s2 h s3
  have hl : (limMean s.pwr :: s.pwr.samples).take 10000 = l := rfl
  rw [hl]
  clear_value l
  obtain ⟨n, c, hh, o, f, e⟩ := capWatch_does s3 (ps == 2)
  rw [e]
  exact ⟨_, hh, o, f, rfl, rfl, rfl, rfl, rfl, rfl, rfl, rfl, rfl, rfl⟩

end Sys2Proof.Machine
end

