-- ==== Sys2Proof/Laws/Registers.lean ====
section
/-! SUPPORT. The set-up window: what a read, a write and a half answer or change (R224, R295, R388, R390, R427–R430). -/

namespace Sys2Proof.Machine

theorem regPort_watermark (q : Port) (vc : Fin 8) (o : Nat) (h : o = 0x120 + 0x40 * vc.val) :
    regPort q o = (packW [((q.watermark[vc]).toNat, 0, 14)], .hidden) := by
  have hv := vc.isLt
  unfold regPort
  split
  all_goals first | omega | skip
  rw [if_pos (by simp; omega)]
  have e4 : (Fin.ofNat 8 ((o - 0x100) / 0x40) : Fin 8) = vc := by ext; simp [Fin.ofNat]; omega
  have e5 : o % 0x40 = 0x20 := by omega
  rw [e4, e5]
  rfl

theorem regFab_watermark (s : State) (port : PortId) (vc : Fin 8) (o : Nat) (h : o = 0x10120 + 0x1000 * port.val + 0x40 * vc.val) :
    regFab s o = (packW [(((s.fab.ports[port]).watermark[vc]).toNat, 0, 14)], .hidden) := by
  have hp := port.isLt
  have hv := vc.isLt
  unfold regFab
  dsimp only
  split
  all_goals first | omega | skip
  rw [if_pos (by simp; omega)]
  have e2 : (Fin.ofNat 8 ((o - 0x10000) / 0x1000) : PortId) = port := by
    apply Fin.ext
    show (o - 0x10000) / 0x1000 % 8 = port.val
    omega
  refine (congrArg (fun p : PortId => regPort (s.fab.ports[p]) (o % 0x1000)) e2).trans ?_
  exact regPort_watermark _ vc _ (by omega)

theorem watermark_read (s : State) (port : PortId) (vc : Fin 8) (a : Nat) (h : a = 0x1010120 + 0x1000 * port.val + 0x40 * vc.val) :
    regRead s a =
      if s.inp.rails then (if s.sec.conf then 0 else ((s.fab.ports[port]).watermark[vc]).zeroExtend 64) else 0 := by
  have hp := port.isLt
  have hv := vc.isLt
  have h1 : ¬ a < 0x100000 := by omega
  have h2 : ¬ a < 0x200000 := by omega
  have h3 : ¬ a < 0x400000 := by omega
  have h4 : ¬ a < 0x800000 := by omega
  have h5 : ¬ a < 0x1000000 := by omega
  have h6 : a < 0x1400000 := by omega
  have e : regFab s (a - 0x1000000) = _ := regFab_watermark s port vc _ (by omega)
  unfold regRead regLive
  simp only [h1, h2, h3, h4, h5, h6, if_true, if_false, e]
  cases hr : s.inp.rails
  · simp [unmapped]
  · cases s.sec.conf
    · simp only [packW, List.foldl, Bool.false_eq_true, if_false, if_true, Bool.not_true]
      have := (s.fab.ports[port].watermark[vc]).isLt
      apply BitVec.eq_of_toNat_eq
      simp; omega
    · rfl

theorem clearWatermark_does (s : State) (port : PortId) (vc : Fin 8) :
    clearWatermark s port vc = { s with fab := { s.fab with ports := (clearWatermark s port vc).fab.ports } } ∧
      ((clearWatermark s port vc).fab.ports[port]).watermark[vc] = 0 ∧
      ∀ p, (clearWatermark s port vc).fab.ports[p] = { s.fab.ports[p] with watermark := ((clearWatermark s port vc).fab.ports[p]).watermark } ∧
        ∀ v, ¬ (p = port ∧ v = vc) → ((clearWatermark s port vc).fab.ports[p]).watermark[v] = (s.fab.ports[p]).watermark[v] := by
  refine ⟨rfl, ?_, ?_⟩
  · unfold clearWatermark
    dsimp only
    rw [vmod_same]
    exact vmod_same _ _ _
  · intro p
    unfold clearWatermark
    by_cases e : port = p
    · subst e
      dsimp only
      rw [vmod_same]
      refine ⟨rfl, ?_⟩
      intro v hv
      dsimp only
      rw [vmod_other _ _ _ _ (fun q => hv ⟨rfl, q.symm⟩)]
    · rw [vmod_other _ _ _ _ e]
      exact ⟨rfl, fun _ _ => rfl⟩

theorem execWatermark_eq (s : State) (port : PortId) (vc : Fin 8) : execWatermarkRead port vc s =
    .next (readOut (s.onRails fun t => clearWatermark t port vc)
      (if s.inp.rails then (if s.sec.conf then 0 else ((s.fab.ports[port]).watermark[vc]).zeroExtend 64) else 0)) := by
  unfold execWatermarkRead
  rw [watermark_read s port vc _ rfl]

theorem mask_low (v : W64) : (v.setWidth 32 : W32).zeroExtend 64 = v &&& (0xFFFFFFFF : W64) := by
  have e : (0xFFFFFFFF : W64) = BitVec.ofNat 64 (2 ^ 32 - 1) := rfl
  apply BitVec.eq_of_toNat_eq
  rw [e, BitVec.toNat_and]
  simp only [BitVec.toNat_setWidth, BitVec.toNat_ofNat]
  rw [show (2 ^ 32 - 1) % 2 ^ 64 = 2 ^ 32 - 1 from rfl, Nat.and_two_pow_sub_one_eq_mod]
  omega

theorem mask_high (v : W64) : ((v >>> 32).setWidth 32 : W32).zeroExtend 64 = v >>> 32 := by
  apply BitVec.eq_of_toNat_eq
  simp only [BitVec.toNat_setWidth, BitVec.toNat_ushiftRight, Nat.shiftRight_eq_div_pow]
  have := v.isLt
  omega

theorem readEffect_is (s : State) (n : Nat) : readEffect s n = { s with fab := { s.fab with ports := (readEffect s n).fab.ports } } := by
  unfold readEffect
  split
  · split <;> rfl
  · rfl

theorem writeHlk_hlk (s : State) (o : Nat) (v : W64) : ∃ h, writeHlk s o v = { s with hlk := h } := by
  unfold writeHlk
  split
  · exact ⟨_, rfl⟩
  · exact ⟨_, rfl⟩
  · split
    · exact ⟨_, rfl⟩
    · exact ⟨s.hlk, rfl⟩

theorem writeMgt_mgt (s : State) (o : Nat) (v w : W64) : ∃ b f, writeMgt s o v w = { s with boot := b, flt := f } := by
  unfold writeMgt
  split
  · split
    · exact ⟨_, s.flt, rfl⟩
    · exact ⟨_, s.flt, rfl⟩
  · exact ⟨_, s.flt, rfl⟩
  · exact ⟨_, s.flt, rfl⟩
  · exact ⟨s.boot, _, rfl⟩
  · exact ⟨s.boot, _, rfl⟩
  · split
    · exact ⟨s.boot, _, rfl⟩
    · exact ⟨s.boot, s.flt, rfl⟩
  · exact ⟨s.boot, _, rfl⟩
  · exact ⟨s.boot, s.flt, rfl⟩

theorem writePwr_pwr (s : State) (o : Nat) (low high : Bool) (v : W64) : ∃ p, writePwr s o low high v = { s with pwr := p } := by
  unfold writePwr
  split
  · split
    · exact ⟨_, rfl⟩
    · exact ⟨s.pwr, rfl⟩
  · split
    · exact ⟨_, rfl⟩
    · exact ⟨s.pwr, rfl⟩
  · exact ⟨s.pwr, rfl⟩

theorem writeSec_sec (s : State) (o : Nat) (v : W64) : ∃ c, writeSec s o v = { s with sec := c } := by
  unfold writeSec
  split
  · exact ⟨_, rfl⟩
  · exact ⟨s.sec, rfl⟩

theorem writeRoute_fab (s : State) (d : Chip) (v : W32) : ∃ f, writeRoute s d v = { s with fab := f } := by
  unfold writeRoute
  dsimp only
  split <;> exact ⟨_, rfl⟩

theorem writeFab_fab (s : State) (a : Nat) (w : Bool) (v r : W64) : ∃ f, writeFab s a w v r = { s with fab := f } := by
  unfold writeFab
  dsimp only
  split
  · exact ⟨_, rfl⟩
  split
  · split
    · obtain ⟨P, e⟩ := updPort_frame s (Fin.ofNat 8 ((a / 8 * 8 - 0x10000) / 0x1000) : PortId).val fun q => writeShares q false v
      rw [e]; exact ⟨_, rfl⟩
    · split
      · obtain ⟨P, e⟩ := updPort_frame s (Fin.ofNat 8 ((a / 8 * 8 - 0x10000) / 0x1000) : PortId).val fun q => writeShares q true v
        rw [e]; exact ⟨_, rfl⟩
      · exact ⟨s.fab, rfl⟩
  split
  · obtain ⟨f, e⟩ := writeRoute_fab s (BitVec.ofNat 16 ((a - 0x80000) / 4)) (r.setWidth 32)
    split
    · obtain ⟨g, e2⟩ := writeRoute_fab (writeRoute s (BitVec.ofNat 16 ((a - 0x80000) / 4)) (r.setWidth 32)) (BitVec.ofNat 16 ((a - 0x80000) / 4 + 1)) ((r >>> 32).setWidth 32)
      rw [e2, e]; exact ⟨_, rfl⟩
    · exact ⟨f, e⟩
  · exact ⟨s.fab, rfl⟩

theorem writeMem_mem (s : State) (o : Nat) (low : Bool) (v : W64) : ∃ m, writeMem s o low v = { s with mem := m } := by
  unfold writeMem
  split
  · unfold writeCompat
    split <;> exact ⟨_, rfl⟩
  · exact ⟨s.mem, rfl⟩

theorem writeCore_cores (s : State) (o : Nat) (ones : W64) : ∃ k, writeCore s o ones = { s with cores := k } := by
  unfold writeCore
  split
  · exact ⟨_, rfl⟩
  · exact ⟨s.cores, rfl⟩

theorem sqDoorbell_hlk (s : State) (ring : RingId) (v : W16) (w : Bool) : ∃ h, sqDoorbell s ring v w = { s with hlk := h } := by
  unfold sqDoorbell; dsimp only; split <;> exact ⟨_, rfl⟩

theorem cqDoorbell_hlk (s : State) (ring : RingId) (v : W16) (w : Bool) : ∃ h, cqDoorbell s ring v w = { s with hlk := h } := by
  unfold cqDoorbell; dsimp only; split <;> exact ⟨_, rfl⟩

theorem ringDoorbell_hlk (s : State) (ring : RingId) (o : Nat) (v : W16) (w : Bool) : ∃ h, ringDoorbell s ring o v w = { s with hlk := h } := by
  unfold ringDoorbell
  split
  · exact sqDoorbell_hlk s ring v w
  · exact cqDoorbell_hlk s ring v w
  · exact ⟨s.hlk, rfl⟩

theorem eventDoorbell_hlk (s : State) (v : W16) (w : Bool) : ∃ h, eventDoorbell s v w = { s with hlk := h } := by
  unfold eventDoorbell; split <;> exact ⟨_, rfl⟩

/-- Each block of the set-up window (R427): a write in it changes that block alone, and nothing where its rails are dark. -/
def Blocks (a : Nat) (rails : Bool) (s t : State) : Prop :=
  t = { s with hlk := t.hlk, boot := t.boot, flt := t.flt, pwr := t.pwr, sec := t.sec, fab := t.fab, mem := t.mem, cores := t.cores } ∧
  (¬ (0x100000 ≤ a ∧ a < 0x200000 ∨ 0x3000000 ≤ a) → t.hlk = s.hlk) ∧
  (¬ (0x200000 ≤ a ∧ a < 0x400000) → t.boot = s.boot ∧ t.flt = s.flt) ∧
  (¬ (rails = true ∧ 0x400000 ≤ a ∧ a < 0x800000) → t.pwr = s.pwr) ∧
  (¬ (0x800000 ≤ a ∧ a < 0x1000000) → t.sec = s.sec) ∧
  (¬ (rails = true ∧ 0x1000000 ≤ a ∧ a < 0x1400000) → t.fab = s.fab) ∧
  (¬ (0x1800000 ≤ a ∧ a < 0x2000000) → t.mem = s.mem) ∧
  (¬ (rails = true ∧ 0x2000000 ≤ a ∧ a < 0x2100000) → t.cores = s.cores)

theorem Blocks.refl (a : Nat) (r : Bool) (s : State) : Blocks a r s s :=
  ⟨rfl, fun _ => rfl, fun _ => ⟨rfl, rfl⟩, fun _ => rfl, fun _ => rfl, fun _ => rfl, fun _ => rfl, fun _ => rfl⟩

theorem Blocks.hlk (a : Nat) (r : Bool) (s : State) (h : Hlk) (w : 0x100000 ≤ a ∧ a < 0x200000 ∨ 0x3000000 ≤ a) : Blocks a r s { s with hlk := h } :=
  ⟨rfl, fun q => absurd w q, fun _ => ⟨rfl, rfl⟩, fun _ => rfl, fun _ => rfl, fun _ => rfl, fun _ => rfl, fun _ => rfl⟩

theorem Blocks.pwr (a : Nat) (r : Bool) (s : State) (p : Pwr) (w : r = true ∧ 0x400000 ≤ a ∧ a < 0x800000) : Blocks a r s { s with pwr := p } :=
  ⟨rfl, fun _ => rfl, fun _ => ⟨rfl, rfl⟩, fun q => absurd w q, fun _ => rfl, fun _ => rfl, fun _ => rfl, fun _ => rfl⟩

theorem Blocks.sec (a : Nat) (r : Bool) (s : State) (c : Sec) (w : 0x800000 ≤ a ∧ a < 0x1000000) : Blocks a r s { s with sec := c } :=
  ⟨rfl, fun _ => rfl, fun _ => ⟨rfl, rfl⟩, fun _ => rfl, fun q => absurd w q, fun _ => rfl, fun _ => rfl, fun _ => rfl⟩

theorem Blocks.fab (a : Nat) (r : Bool) (s : State) (f : Fabric) (w : r = true ∧ 0x1000000 ≤ a ∧ a < 0x1400000) : Blocks a r s { s with fab := f } :=
  ⟨rfl, fun _ => rfl, fun _ => ⟨rfl, rfl⟩, fun _ => rfl, fun _ => rfl, fun q => absurd w q, fun _ => rfl, fun _ => rfl⟩

theorem Blocks.mem (a : Nat) (r : Bool) (s : State) (m : Mem) (w : 0x1800000 ≤ a ∧ a < 0x2000000) : Blocks a r s { s with mem := m } :=
  ⟨rfl, fun _ => rfl, fun _ => ⟨rfl, rfl⟩, fun _ => rfl, fun _ => rfl, fun _ => rfl, fun q => absurd w q, fun _ => rfl⟩

theorem Blocks.cores (a : Nat) (r : Bool) (s : State) (k : Vector Core 64) (w : r = true ∧ 0x2000000 ≤ a ∧ a < 0x2100000) : Blocks a r s { s with cores := k } :=
  ⟨rfl, fun _ => rfl, fun _ => ⟨rfl, rfl⟩, fun _ => rfl, fun _ => rfl, fun _ => rfl, fun _ => rfl, fun q => absurd w q⟩

theorem Blocks.mgt (a : Nat) (r : Bool) (s : State) (b : Boot) (f : Flt) (w : 0x200000 ≤ a ∧ a < 0x400000) :
    Blocks a r s { s with boot := b, flt := f } :=
  ⟨rfl, fun _ => rfl, fun q => absurd w q, fun _ => rfl, fun _ => rfl, fun _ => rfl, fun _ => rfl, fun _ => rfl⟩

theorem Blocks.ite {a : Nat} {r : Bool} {s t u : State} {c : Prop} [Decidable c] (h : c → Blocks a r s t) (g : ¬ c → Blocks a r s u) :
    Blocks a r s (if c then t else u) := by
  by_cases q : c
  · rw [if_pos q]; exact h q
  · rw [if_neg q]; exact g q

theorem writeWord_blocks (s : State) (a : Nat) (wide : Bool) (v ones raw : W64) (hm : ¬ (a / 8 * 8 = 0x800040 ∧ (wide = true ∨ a % 8 = 0))) :
    Blocks a s.inp.rails s (writeWord s a wide v ones raw) := by
  unfold writeWord
  extract_lets o low high
  have hm' : o = 0x800040 → low = false := by
    intro h
    simp only [low, Bool.or_eq_false_iff, decide_eq_false_iff_not]
    exact ⟨by cases wide; rfl; exact absurd ⟨h, .inl rfl⟩ hm, fun q => hm ⟨h, .inr q⟩⟩
  clear_value low high o
  clear hm
  refine .ite (fun _ => .refl _ _ _) fun n1 => .ite (fun h => ?_) fun n2 => .ite (fun h => ?_) fun n3 => .ite (fun h => ?_) fun n4 => .ite (fun h => ?_) fun n5 =>
    .ite (fun h => ?_) fun n6 => .ite (fun _ => .refl _ _ _) fun n7 => .ite (fun h => ?_) fun n8 => .ite (fun h => ?_) fun n9 => .ite (fun h => ?_) fun n10 =>
    .ite (fun h => ?_) fun _ => .refl _ _ _
  · obtain ⟨x, e⟩ := writeHlk_hlk s (o - 0x100000) v
    rw [e]; exact .hlk _ _ _ _ (Or.inl ⟨Nat.le_of_not_lt n1, h⟩)
  · obtain ⟨b, f, e⟩ := writeMgt_mgt s (o - 0x200000) v ones
    rw [e]; exact .mgt _ _ _ _ _ ⟨Nat.le_of_not_lt n2, h⟩
  · obtain ⟨p, e⟩ := writePwr_pwr s (o - 0x400000) low high v
    rw [e]; exact .ite (fun r => .pwr _ _ _ _ ⟨r, Nat.le_of_not_lt n3, h⟩) fun _ => .refl _ _ _
  · obtain ⟨c, e⟩ := writeSec_sec s (o - 0x800000) v
    rw [e]
    refine .ite (fun r => ?_) fun _ => .sec _ _ _ _ ⟨Nat.le_of_not_lt n4, h⟩
    rw [hm' r]
    exact .refl _ _ _
  · obtain ⟨f, e⟩ := writeFab_fab s (a - 0x1000000) wide v raw
    rw [e]; exact .ite (fun r => .fab _ _ _ _ ⟨r, Nat.le_of_not_lt n5, h⟩) fun _ => .refl _ _ _
  · obtain ⟨m, e⟩ := writeMem_mem s (o - 0x1800000) low v
    rw [e]; exact .mem _ _ _ _ ⟨Nat.le_of_not_lt n7, h⟩
  · obtain ⟨k, e⟩ := writeCore_cores s (o - 0x2000000) ones
    rw [e]
    refine .ite (fun r => ?_) fun _ => .refl _ _ _
    rw [Bool.and_eq_true, decide_eq_true_eq] at r
    exact .cores _ _ _ _ ⟨r.1, Nat.le_of_not_lt n8, r.2⟩
  · obtain ⟨x, e⟩ := ringDoorbell_hlk s (Fin.ofNat 16 ((a - 0x3000000) / 0x1000)) (a % 0x1000) (raw.setWidth 16) (!wide)
    rw [e]; exact .hlk _ _ _ _ (Or.inr (Nat.le_of_not_lt n9))
  · obtain ⟨x, e⟩ := eventDoorbell_hlk s (raw.setWidth 16) (!wide)
    rw [e]; exact .hlk _ _ _ _ (Or.inr (Nat.le_of_not_lt n9))

theorem writeReg_aligned (s : State) (a : BitVec 26) (wide : Bool) (v : W64) (h : a.toNat % (if wide then 8 else 4) = 0) :
    writeReg s a wide v = writeWord s.unlatch a.toNat wide (mergeWord (regLive s.unlatch (a.toNat / 8 * 8)).1 v (a.toNat % 8 = 4) wide)
      (writtenBits v (a.toNat % 8 = 4) wide) v := by
  unfold writeReg
  dsimp only
  rw [if_neg (by simpa using h)]

theorem low_mask (v : W64) (k : Nat) (hk : k < 64) : v >>> k <<< k = v &&& ~~~(BitVec.ofNat 64 (2 ^ k - 1)) := by
  apply BitVec.eq_of_getLsbD_eq
  intro i hi
  simp only [BitVec.getLsbD_shiftLeft, BitVec.getLsbD_and, BitVec.getLsbD_not, BitVec.getLsbD_ofNat, BitVec.getLsbD_ushiftRight,
    Nat.testBit_two_pow_sub_one]
  by_cases h : i < k
  · simp [h, hi]
  · simp [h, show k + (i - k) = i by omega, hi]

theorem page_mask (v : W64) : page v = v &&& ~~~(0xFFF) := low_mask v 12 (by omega)

theorem modeRefused_iff (s : State) (target : Bool) : modeRefused s target = true ↔
    (¬ (s.hlk.state = .nodisc ∨ s.hlk.state = .ready) ∨ (∃ n : RingId, (s.hlk.rings[n]).inflight ≠ []) ∨ (target = true ∧ s.sec.keyed = false) ∨
        (target = false ∧ tokenBytes s ≠ goodToken s) ∨ 62 ≤ bootEntries s) := by
  unfold modeRefused
  simp only [Bool.or_eq_true, Bool.not_eq_true', Bool.and_eq_true, decide_eq_true_eq, bne_iff_ne, List.any_eq_true, Bool.or_eq_false_iff,
    beq_eq_false_iff_ne, not_or, or_assoc]
  have hx : (∃ x, x ∈ s.hlk.rings.toList ∧ ringIdle x = false) ↔ ∃ n : RingId, (s.hlk.rings[n]).inflight ≠ [] := by
    constructor
    · rintro ⟨x, hx, hi⟩
      obtain ⟨i, hi1, rfl⟩ := List.mem_iff_getElem.1 hx
      refine ⟨⟨i, by simpa using hi1⟩, ?_⟩
      intro q
      have q : (s.hlk.rings.toList[i]).inflight = [] := q
      unfold ringIdle at hi
      rw [q] at hi
      cases hi
    · rintro ⟨n, hn⟩
      refine ⟨s.hlk.rings[n], by simp, ?_⟩
      unfold ringIdle
      cases q : (s.hlk.rings[n]).inflight
      · exact absurd q hn
      · rfl
  rw [hx]

theorem regSec_token (s : State) (j : Fin 4) (a : Nat) (h : a = 0x800048 + 8 * j.val) : (regLive s a).1 = s.sec.token[j] := by
  subst h
  have full : ∀ x : W64, packW [(x.toNat, 0, 64)] = x := by
    intro x
    simp only [packW, List.foldl]
    apply BitVec.eq_of_toNat_eq
    have := x.isLt
    simp; omega
  match j with
  | 0 => exact full _
  | 1 => exact full _
  | 2 => exact full _
  | 3 => exact full _

theorem tokenWrite (s : State) (j : Fin 4) (a : BitVec 26) (wide : Bool) (v : W64) (half : Bool) (h : a.toNat = 0x800048 + 8 * j.val + (if half then 4 else 0))
    (hw : half = true → wide = false) :
    writeReg s a wide v = { s.unlatch with sec := { s.sec with token := vmod s.sec.token j fun _ => mergeWord s.sec.token[j] v half wide } } := by
  have hj := j.isLt
  rw [writeReg_aligned s a wide v (by cases half <;> cases wide <;> simp_all <;> omega)]
  have e1 : a.toNat / 8 * 8 = 0x800048 + 8 * j.val := by cases half <;> simp_all <;> omega
  have e2 : decide (a.toNat % 8 = 4) = half := by cases half <;> simp_all <;> omega
  rw [e1, e2, regSec_token _ j _ rfl]
  have hl : 0x800000 ≤ a.toNat ∧ a.toNat < 0x1000000 := by cases half <;> simp_all <;> omega
  generalize a.toNat = n at *
  unfold writeWord
  dsimp only
  rw [e1, if_neg (by omega), if_neg (by omega), if_neg (by omega), if_neg (by omega), if_pos (by omega), if_neg (by omega)]
  have e3 : 0x800048 + 8 * j.val - 0x800000 = 0x48 + 8 * j.val := by omega
  rw [e3]
  unfold writeSec
  rw [if_pos (by simp; omega)]
  have e4 : (Fin.ofNat 4 ((0x48 + 8 * j.val - 0x48) / 8) : Fin 4) = j := by
    apply Fin.ext
    show (0x48 + 8 * j.val - 0x48) / 8 % 4 = j.val
    omega
  rw [e4]
  rfl

theorem mergeWord_low (o v : W64) : mergeWord o v false false = (o >>> 32 <<< 32) ||| (v &&& (0xFFFFFFFF : W64)) := by
  show (v.setWidth 32 : W32).zeroExtend 64 ||| _ = _
  rw [mask_low, BitVec.or_comm]

theorem shift_high (v : W64) : ((v.setWidth 32 : W32).zeroExtend 64) <<< 32 = v <<< 32 := by
  apply BitVec.eq_of_toNat_eq
  simp only [BitVec.toNat_shiftLeft, BitVec.truncate_eq_setWidth, BitVec.toNat_setWidth, Nat.shiftLeft_eq]
  omega

/-- Bit 0 of a word of which the low half is written is the written one. -/
theorem mergeWord_bit (o v : W64) (w : Bool) (i : Nat) (h : i < 32) : (mergeWord o v false w).getLsbD i = v.getLsbD i := by
  unfold mergeWord
  cases w
  · simp [h, show i < 64 by omega]
  · rfl

theorem mergeWord_high (o v : W64) : mergeWord o v true false = (o &&& (0xFFFFFFFF : W64)) ||| (v <<< 32) := by
  rw [← mask_low, ← shift_high]
  rfl

end Sys2Proof.Machine
end

