-- ==== Sys2Proof/Laws/SoundMemory.lean ====
section
/-! SUPPORT. Every operation keeps the byte stores in canonical form: the update, the memory controllers, dispatch, and power. -/

namespace Sys2Proof.Machine

variable {Q : List Instr}

/-! ## Update -/

theorem landingFault_ok (s : State) (l : Landing) (cause : ℕ) (h : Sound Q s) : Sound Q (landingFault s l cause) := by
  unfold landingFault
  repeat' first
    | assumption
    | with_reducible apply flightFault_ok
    | with_reducible apply streamFault_ok
    | dsimp only
    | split

theorem abandonPass_ok (s : State) (stack : StackId) (p : Pass) (h : Sound Q s) : Sound Q (abandonPass s stack p) := by
  unfold abandonPass
  repeat' first
    | assumption
    | with_reducible apply fatal_ok
    | with_reducible apply queuePass_ok
    | split

theorem overrunLease_ok (s : State) (stack : StackId) (chan : ChanId) (h : Sound Q s) : Sound Q (overrunLease s stack chan) := by
  unfold overrunLease
  repeat' first
    | assumption
    | rfl
    | with_reducible apply State.say_ok
    | with_reducible apply abandonPass_ok
    | dsimp only
    | split
    | with_reducible refine Sound.lit ?_ ?_ ?_

theorem pullRefresh_ok (s : State) (stack : StackId) (chan : ChanId) (h : Sound Q s) : Sound Q (pullRefresh s stack chan) :=
  foldl_sound h fun _ _ ht => foldl_sound (ht.lit rfl rfl) fun _ _ hu => State.say_ok _ _ hu

theorem finishFirst_ok (s : State) (g : Group) (h : Sound Q s) : Sound Q (finishFirst s g) := by
  unfold finishFirst
  repeat' first
    | assumption
    | with_reducible apply storeHbm_ok

theorem putPartials_ok (s : State) (g : Group) (k : ℕ) (kind : BitVec 2) (o : PassOut) (h : Sound Q s) :
    Sound Q (putPartials s g k kind o) := by
  unfold putPartials
  repeat' first
    | assumption
    | with_reducible apply storeHbm_ok
    | dsimp only
    | split

theorem mergeCensus_ok (s : State) (g : Group) (o : PassOut) (h : Sound Q s) : Sound Q (mergeCensus s g o) := by
  unfold mergeCensus
  repeat' first
    | assumption
    | rfl
    | dsimp only
    | split
    | with_reducible refine Sound.lit ?_ ?_ ?_

theorem landingAccepted_ok (s : State) (l : Landing) (h : Sound Q s) : Sound Q (landingAccepted s l) := by
  unfold landingAccepted
  repeat' first
    | assumption
    | with_reducible apply closeFlight_ok
    | with_reducible apply releaseHalves_ok
    | split

theorem landingArrives_ok (s : State) (i : ℕ) (h : Sound Q s) : Sound Q (landingArrives s i) := by
  unfold landingArrives
  repeat' first
    | assumption
    | with_reducible apply landingFault_ok
    | with_reducible apply dropLanding_ok
    | with_reducible apply landingAccepted_ok
    | with_reducible apply applyLanding_ok
    | with_reducible apply parkLanding_ok
    | with_reducible apply refuseLanding_ok
    | split

theorem execLandingArrival_ok (idx : ℕ) (s : State) (h : Sound Q s) : outOk Q (execLandingArrival idx s) :=
  outOk_next (landingArrives_ok _ _ h)

theorem execLeaseOverrun_ok (stack : StackId) (chan : ChanId) (s : State) (h : Sound Q s) :
    outOk Q (execLeaseOverrun stack chan s) :=
  outOk_next (overrunLease_ok _ _ _ h)

theorem flushAtomics_ok (s : State) (stack chan : ℕ) (h : Sound Q s) : Sound Q (flushAtomics s stack chan) := by
  unfold flushAtomics
  repeat' first
    | assumption
    | rfl
    | dsimp only
    | with_reducible refine Sound.lit ?_ ?_ ?_

theorem drainChannel_ok (s : State) (stack chan : Nat) (h : Sound Q s) : Sound Q (drainChannel s stack chan) :=
  foldl_sound h fun _ _ ht => foldl_sound ht fun _ _ hu => wcbModify_ok _ _ _ hu

theorem openLease_ok (s : State) (stack : StackId) (chan : ChanId) (h : Sound Q s) : Sound Q (openLease s stack chan) := by
  unfold openLease
  extract_lets busy full
  clear_value busy full
  split
  · exact h
  · split
    · exact h
    · split
      · exact h
      · rename_i s0 s1 x1 p e1 x2 g e2 hn
        have h0 : Sound Q s0 := flushAtomics_ok _ _ _ (drainChannel_ok _ _ _ h)
        clear_value s0
        have h1 : Sound Q s1 := State.say_ok _ _ (pullRefresh_ok s0 stack chan h0)
        clear_value s1
        extract_lets s2
        have h2 : Sound Q s2 := State.say_ok _ _ h1
        clear_value s2
        exact h2.lit rfl rfl

theorem execLeaseOpen_ok (stack : StackId) (chan : ChanId) (s : State) (h : Sound Q s) : outOk Q (execLeaseOpen stack chan s) :=
  outOk_next (openLease_ok _ _ _ h)

theorem putStored_ok (s : State) (st : Option Stored) (a sa : ℕ) (p : Bool) (h : Sound Q s) :
    Sound Q (putStored s st a sa p) := by
  unfold putStored
  repeat' first
    | assumption
    | with_reducible apply storeHbm_ok
    | dsimp only
    | split

theorem flushChannel_ok (s : State) (stack chan : Nat) (h : Sound Q s) : Sound Q (flushChannel s stack chan) :=
  foldl_sound h fun _ _ ht => foldl_sound ht fun u _ hu => wcbWriteback_ok u _ _ hu

theorem finishGroup_ok (s : State) (g : Group) (h : Sound Q s) : Sound Q (finishGroup s g) := by
  unfold finishGroup
  repeat' first
    | assumption
    | with_reducible apply storeHbm_ok
    | with_reducible apply storePart_ok
    | with_reducible apply consume_ok
    | refine foldl_sound ?_ ?_
    | intro _
    | dsimp only
    | split

theorem completePass_ok (s : State) (p : Pass) (h : Sound Q s) : Sound Q (completePass s p) := by
  unfold completePass
  split
  · exact h
  · rename_i g hg
    extract_lets o pl s1 s2 s3 s4 u5 s5 s6 n u7 s7
    have h1 : Sound Q s1 := putStored_ok _ _ _ _ _ (putStored_ok _ _ _ _ _ (putStored_ok _ _ _ _ _ h))
    have h2 : Sound Q s2 := by
      simp only [s2]
      split
      · exact storeHbm_ok _ _ _ _ h1
      · exact h1
    have h4 : Sound Q s4 := orOverflow_ok _ _ (flushChannel_ok _ _ _ h2)
    clear_value s4
    have h5 : Sound Q s5 := by
      simp only [s5]
      split
      · exact h4.lit rfl rfl
      · exact h4
    clear_value s5
    have h6 : Sound Q s6 := mergeCensus_ok _ _ _ (putPartials_ok _ _ _ _ _ h5)
    clear_value s6
    have h7 : Sound Q s7 := h6.lit rfl rfl
    clear_value s7
    split
    · split
      · exact finishFirst_ok _ _ h7
      · exact finishGroup_ok _ _ h7
    · exact h7

theorem execSecondPassReady_ok (group : BitVec 12) (s : State) (h : Sound Q s) : outOk Q (execSecondPassReady group s) := by
  unfold execSecondPassReady
  repeat' first
    | assumption
    | with_reducible apply outOk_next
    | with_reducible apply secondReady_ok
    | split

theorem parkedApplies_ok (s : State) (i : ℕ) (h : Sound Q s) : Sound Q (parkedApplies s i) := by
  unfold parkedApplies
  repeat' first
    | assumption
    | with_reducible apply applyLanding_ok
    | with_reducible apply unpark_ok
    | split

theorem execParkedLandingApply_ok (idx : ℕ) (s : State) (h : Sound Q s) : outOk Q (execParkedLandingApply idx s) :=
  outOk_next (parkedApplies_ok _ _ h)

theorem execLandingResend_ok (idx : ℕ) (s : State) (h : Sound Q s) : outOk Q (execLandingResend idx s) := by
  unfold execLandingResend
  repeat' first
    | assumption
    | with_reducible apply outOk_next
    | with_reducible apply landingArrives_ok
    | split

theorem dropLease_ok (s : State) (l : Lease) (h : Sound Q s) : Sound Q (dropLease s l) := by
  unfold dropLease
  repeat' first
    | assumption
    | rfl
    | dsimp only
    | with_reducible refine Sound.lit ?_ ?_ ?_

/-! ## Segments -/

theorem Core.fresh_ok (k : Core) (b : W32) (h : k.Sound) : (k.fresh b).Sound := h.emptied rfl rfl rfl

theorem Core.startSegment_ok (k : Core) (i : ℕ) (g : Segment) (budget : W32) (h : k.Sound) :
    (Core.startSegment k i g budget).Sound := by
  unfold Core.startSegment
  repeat' first
    | assumption
    | with_reducible apply Core.fresh_ok
    | dsimp only
    | with_reducible refine Core.Sound.lit ?_

theorem startUpdate_ok (s : State) (c : CoreId) (p : Pass) (h : Sound Q s) : Sound Q (startUpdate s c p) := by
  unfold startUpdate
  extract_lets f s1
  have h1 : Sound Q s1 := (h.lit rfl rfl : Sound Q f.2).updCore fun hk => (Core.fresh_ok _ _ hk).lit
  clear_value s1
  exact h1.lit rfl rfl

theorem jobStarts_ok (s : State) (h : Sound Q s) : Sound Q (jobStarts s) := by
  unfold jobStarts
  repeat' first
    | assumption
    | rfl
    | with_reducible apply finishDesc_ok
    | dsimp only
    | split
    | with_reducible refine Sound.lit ?_ ?_ ?_

theorem startSegment_ok (s : State) (c : CoreId) (i : ℕ) (g : Segment) (h : Sound Q s) : Sound Q (startSegment s c i g) := by
  unfold startSegment
  repeat' first
    | assumption
    | with_reducible apply jobStarts_ok
    | with_reducible apply Core.startSegment_ok
    | with_reducible refine Sound.updCore ?_ ?_

theorem hold3_ok (s : State) (c : CoreId) (i : ℕ) (h : Sound Q s) : Sound Q (hold3 s c i) := by
  unfold hold3
  repeat' first
    | assumption
    | rfl
    | with_reducible refine Sound.updCore ?_ ?_
    | intro _
    | dsimp only
    | split
    | with_reducible refine Sound.lit ?_ ?_ ?_
    | with_reducible refine Core.Sound.lit ?_

theorem dispatch_ok (s : State) (c : CoreId) (h : Sound Q s) : Sound Q (dispatch s c) := by
  unfold dispatch
  repeat' first
    | assumption
    | with_reducible apply startUpdate_ok
    | with_reducible apply startSegment_ok
    | with_reducible apply hold3_ok
    | dsimp only
    | split

theorem execSegmentDispatch_ok (core : CoreId) (s : State) (h : Sound Q s) : outOk Q (execSegmentDispatch core s) := by
  unfold execSegmentDispatch
  repeat' first
    | assumption
    | with_reducible apply outOk_next
    | with_reducible apply dispatch_ok
    | split

theorem clearGroup_ok (s : State) (g : Group) (h : Sound Q s) : Sound Q (clearGroup s g) := by
  unfold clearGroup
  repeat' first
    | assumption
    | with_reducible apply storeHbm_ok
    | refine foldl_sound ?_ ?_
    | intro _
    | split

theorem Core.finish_ok (k : Core) (i : Nat) (h : k.Sound) : (k.finish i).Sound :=
  (Core.flushBeats_ok k (max (k.exec.beatEnd) k.exec.endCycle) h).emptied rfl rfl rfl

theorem execClass3HoldExpiry_ok (core : CoreId) (s : State) (h : Sound Q s) : outOk Q (execClass3HoldExpiry core s) := by
  unfold execClass3HoldExpiry
  repeat' first
    | assumption
    | rfl
    | with_reducible apply outOk_next
    | with_reducible apply startSegment_ok
    | dsimp only
    | split
    | with_reducible refine Sound.lit ?_ ?_ ?_

theorem signalEvents_ok (s : State) (es : List W16) (h : Sound Q s) : Sound Q (signalEvents s es) := by
  unfold signalEvents
  repeat' first
    | assumption
    | rfl
    | dsimp only
    | with_reducible refine Sound.lit ?_ ?_ ?_

theorem endSegment_ok (s : State) (c : CoreId) (h : Sound Q s) : Sound Q (endSegment s c) := by
  unfold endSegment
  repeat' first
    | assumption
    | with_reducible apply completePass_ok
    | with_reducible apply slipFault_ok
    | with_reducible apply signalEvents_ok
    | with_reducible apply Core.finish_ok
    | with_reducible refine Sound.updCore ?_ ?_
    | intro _
    | dsimp only
    | split
    | with_reducible refine Core.Sound.lit ?_

theorem execSegmentEnd_ok (core : CoreId) (s : State) (h : Sound Q s) : outOk Q (execSegmentEnd core s) :=
  outOk_next (endSegment_ok _ _ h)

theorem beginStep_ok (s : State) (h : Sound Q s) : Sound Q (beginStep s) := by
  unfold beginStep
  extract_lets s1 s2
  have h1 : Sound Q s1 := by
    simp only [s1]
    split
    · exact storeHbm_ok _ _ _ _ h
    · exact h
  have h2 : Sound Q s2 := foldl_sound h1 fun t g ht => clearGroup_ok t g ht
  clear_value s2
  exact (h2.mapCores (f := fun (k : Core) => { k with overflow := false, finished := [], heldCounted := [], held3 := false })
    fun k hk => hk.lit).lit rfl rfl

/-! ## Power -/

theorem updPwr_ok (s : State) (f : Pwr → Pwr) (h : Sound Q s) : Sound Q (updPwr s f) := by
  unfold updPwr
  repeat' first
    | assumption
    | rfl
    | with_reducible refine Sound.lit ?_ ?_ ?_

theorem rehalve_ok (s : State) (h : Sound Q s) : Sound Q (rehalve s) := by
  unfold rehalve
  repeat' first
    | assumption
    | with_reducible apply updPwr_ok

theorem capWatch_ok (s : State) (ov : Bool) (h : Sound Q s) : Sound Q (capWatch s ov) := by
  unfold capWatch
  repeat' first
    | assumption
    | with_reducible apply updPwr_ok
    | with_reducible apply raiseOpen_ok
    | dsimp only
    | split

theorem headroomStep_ok (s : State) (h : Sound Q s) : Sound Q (headroomStep s) := by
  unfold headroomStep
  repeat' first
    | assumption
    | rfl
    | with_reducible apply updPwr_ok
    | with_reducible apply rehalve_ok
    | with_reducible apply capWatch_ok
    | with_reducible refine Sound.lit ?_ ?_ ?_

theorem heatersRise_ok (s : State) (rise : ℤ) (h : Sound Q s) : Sound Q (heatersRise s rise) := by
  unfold heatersRise
  repeat' first
    | assumption
    | rfl
    | dsimp only
    | with_reducible refine Sound.lit ?_ ?_ ?_

theorem dieStep_ok (s : State) (t : Temp) (h : Sound Q s) : Sound Q (dieStep s t) := by
  unfold dieStep
  repeat' first
    | assumption
    | with_reducible apply updPwr_ok
    | with_reducible apply rehalve_ok
    | with_reducible apply heatersRise_ok
    | dsimp only
    | split

theorem execDieSample_ok (sensors : List Temp) (s : State) (h : Sound Q s) : outOk Q (execDieSample sensors s) := by
  unfold execDieSample
  repeat' first
    | assumption
    | with_reducible apply outOk_next
    | with_reducible apply dieStep_ok
    | split

theorem droopOn_ok (s : State) (c : CoreId) (h : Sound Q s) : Sound Q (droopOn s c) := by
  unfold droopOn
  repeat' first
    | assumption
    | with_reducible refine Sound.updCore ?_ ?_
    | intro _
    | split
    | with_reducible refine Core.Sound.lit ?_

theorem darken_ok (s : State) (h : Sound Q s) : Sound Q (darken s) := by
  unfold darken
  repeat' first
    | assumption
    | rfl
    | with_reducible apply State.say_ok
    | dsimp only
    | with_reducible refine Sound.lit ?_ ?_ ?_

theorem trip_ok (s : State) (group : BitVec 3) (h : Sound Q s) : Sound Q (trip s group) := by
  unfold trip
  repeat' first
    | assumption
    | with_reducible apply updPwr_ok
    | with_reducible apply darken_ok
    | with_reducible apply raiseOpen_ok
    | with_reducible apply fatal_ok

theorem estimateStep_ok (s : State) (activity : List W32) (h : Sound Q s) : Sound Q (estimateStep s activity) := by
  unfold estimateStep
  repeat' first
    | assumption
    | with_reducible apply updPwr_ok

theorem divergence_ok (s : State) (h : Sound Q s) : Sound Q (divergence s) := by
  unfold divergence
  repeat' first
    | assumption
    | with_reducible apply updPwr_ok
    | with_reducible apply raiseCode_ok
    | dsimp only
    | split

theorem peakStep_ok (s : State) (h : Sound Q s) : Sound Q (peakStep s) := rehalve_ok _ (updPwr_ok _ _ h)

theorem execHeadroomSample_ok (s : State) (h : Sound Q s) : outOk Q (execHeadroomSample s) := outOk_next (headroomStep_ok _ h)

theorem setHcap_ok (s : State) (value : W16) (h : Sound Q s) : Sound Q (setHcap s value) := by
  unfold setHcap
  repeat' first
    | assumption
    | with_reducible apply updPwr_ok

theorem judgeTelemetry_ok (s : State) (r : PowerReading) (h : Sound Q s) : Sound Q (judgeTelemetry s r) := by
  unfold judgeTelemetry
  repeat' first
    | assumption
    | with_reducible apply updPwr_ok
    | with_reducible apply raiseOpen_ok
    | dsimp only
    | split

theorem droopOff_ok (s : State) (c : CoreId) (h : Sound Q s) : Sound Q (droopOff s c) := by
  unfold droopOff
  split
  · extract_lets f
    exact (h.lit rfl rfl : Sound Q f.2).updCore fun hk => hk.lit
  · exact h

theorem execEstimateUpdate_ok (activity : List W32) (s : State) (h : Sound Q s) : outOk Q (execEstimateUpdate activity s) :=
  outOk_next (estimateStep_ok _ _ h)

theorem respondMsg_ok (s : State) (cmd code : Byte) (data : List Byte) (h : Sound Q s) :
    Sound Q (respondMsg s cmd code data) := by
  unfold respondMsg
  repeat' first
    | assumption
    | with_reducible apply State.say_ok

theorem answerQuery_ok (s : State) (cmd : Byte) (body data : List Byte) (h : Sound Q s) :
    Sound Q (answerQuery s cmd body data) := by
  unfold answerQuery
  repeat' first
    | assumption
    | with_reducible apply respondMsg_ok
    | split

theorem execGetStatus_ok (body : List Byte) (s : State) (h : Sound Q s) : outOk Q (execGetStatus body s) :=
  outOk_next (answerQuery_ok _ _ _ _ h)

theorem execDroopDetect_ok (core : CoreId) (s : State) (h : Sound Q s) : outOk Q (execDroopDetect core s) :=
  outOk_next (droopOn_ok _ _ h)

theorem setCap_ok (s : State) (body : List Byte) (h : Sound Q s) : Sound Q (setCap s body) := by
  unfold setCap
  repeat' first
    | assumption
    | with_reducible apply updPwr_ok
    | with_reducible apply respondMsg_ok
    | dsimp only
    | split

theorem setFceil_ok (s : State) (value : BitVec 11) (h : Sound Q s) : Sound Q (setFceil s value) := by
  unfold setFceil
  repeat' first
    | assumption
    | with_reducible apply updPwr_ok

theorem execFceilWrite_ok (value : BitVec 11) (s : State) (h : Sound Q s) : outOk Q (execFceilWrite value s) := by
  unfold execFceilWrite
  repeat' first
    | assumption
    | with_reducible apply outOk_next
    | with_reducible apply State.onRails_ok
    | with_reducible apply setFceil_ok
    | intro _

theorem applyFreq_ok (s : State) (minw : W64) (h : Sound Q s) : Sound Q (applyFreq s minw) := by
  unfold applyFreq
  repeat' first
    | assumption
    | with_reducible apply updPwr_ok

theorem execDivergenceCheck_ok (s : State) (h : Sound Q s) : outOk Q (execDivergenceCheck s) := outOk_next (divergence_ok _ h)

theorem execGetLimits_ok (body : List Byte) (s : State) (h : Sound Q s) : outOk Q (execGetLimits body s) :=
  outOk_next (answerQuery_ok _ _ _ _ h)

theorem execUnknownCommand_ok (body : List Byte) (s : State) (h : Sound Q s) : outOk Q (execUnknownCommand body s) := by
  unfold execUnknownCommand
  repeat' first
    | assumption
    | with_reducible apply outOk_next
    | with_reducible apply respondMsg_ok
    | split

theorem govern_ok (s : State) (h : Sound Q s) : Sound Q (govern s) := by
  unfold govern
  repeat' first
    | assumption
    | with_reducible apply updPwr_ok

theorem execPeakUpdate_ok (s : State) (h : Sound Q s) : outOk Q (execPeakUpdate s) := outOk_next (peakStep_ok _ h)

theorem execThermalTrip_ok (group : BitVec 3) (s : State) (h : Sound Q s) : outOk Q (execThermalTrip group s) :=
  outOk_next (trip_ok _ _ h)

theorem judgeVoltage_ok (s : State) (r : PowerReading) (h : Sound Q s) : Sound Q (judgeVoltage s r) := by
  unfold judgeVoltage
  repeat' first
    | assumption
    | rfl
    | with_reducible apply updPwr_ok
    | with_reducible apply raiseOpen_ok
    | dsimp only
    | split
    | with_reducible refine Sound.lit ?_ ?_ ?_

theorem execDroopRecovery_ok (core : CoreId) (s : State) (h : Sound Q s) : outOk Q (execDroopRecovery core s) :=
  outOk_next (droopOff_ok _ _ h)

theorem execHcapWrite_ok (value : W16) (s : State) (h : Sound Q s) : outOk Q (execHcapWrite value s) := by
  unfold execHcapWrite
  repeat' first
    | assumption
    | with_reducible apply outOk_next
    | with_reducible apply State.onRails_ok
    | with_reducible apply setHcap_ok
    | intro _

theorem execPMeasRead_ok (r : PowerReading) (s : State) (h : Sound Q s) : outOk Q (execPMeasRead r s) := by
  unfold execPMeasRead
  repeat' first
    | assumption
    | with_reducible apply outOk_next
    | with_reducible apply judgeVoltage_ok
    | with_reducible apply judgeTelemetry_ok

theorem execSetCap_ok (body : List Byte) (s : State) (h : Sound Q s) : outOk Q (execSetCap body s) :=
  outOk_next (setCap_ok _ _ h)

/-! ## Memory -/

theorem loadKeys_ok (s : State) (h : Sound Q s) : Sound Q (loadKeys s) := by
  unfold loadKeys
  extract_lets u1 s1
  have h1 : Sound Q s1 := h.lit rfl rfl
  clear_value s1
  refine foldl_sound h1 fun t k ht => ?_
  split
  · exact State.say_ok _ _ ht
  · exact ht

theorem activate_ok (s : State) (a : Nat) (h : Sound Q s) : Sound Q (activate s a) := by
  unfold activate
  extract_lets p f
  have hf : Sound Q f.2 := h.lit rfl rfl
  clear_value f p
  split
  · exact State.say_ok _ _ hf
  · exact hf

theorem readLineAt_ok (s : State) (a errs : ℕ) (h : Sound Q s) : Sound Q (readLineAt s a errs) := by
  unfold readLineAt
  repeat' first
    | assumption
    | rfl
    | with_reducible apply classRead_ok
    | with_reducible apply State.say_ok
    | dsimp only
    | split
    | with_reducible refine Sound.lit ?_ ?_ ?_

theorem serve_ok (s : State) (r : MemReq) (h : Sound Q s) : Sound Q (serve s r) := by
  cases r with
  | write a d p =>
    have hw := storeHbm_ok (activate s a.toNat) a.toNat d p (activate_ok _ _ h)
    unfold serve
    dsimp only
    generalize hbmCause s _ _ _ _ = q
    cases q
    · exact hw
    · exact h
  | read a e =>
    have hr := readLineAt_ok (activate s a.toNat) a.toNat e (activate_ok _ _ h)
    unfold serve
    dsimp only
    generalize hbmCause s _ _ _ _ = q
    cases q
    · exact hr
    · exact h
  | atomic a x o d p =>
    have ha := fun l => atomicMany_ok (activate s a.toNat) x o l (activate_ok _ _ h)
    unfold serve
    dsimp only
    generalize hbmCause s _ _ _ _ = q
    cases q
    · dsimp only
      split
      · exact h
      · exact ha _
    · exact h

theorem execRefresh_ok (stack : StackId) (chan : ChanId) (bank : Fin 128) (s : State) (h : Sound Q s) :
    outOk Q (execRefresh stack chan bank s) := by
  unfold execRefresh
  repeat' first
    | assumption
    | with_reducible apply outOk_next
    | with_reducible apply State.say_ok
    | split

theorem requestAt_ok (s : State) (r : MemReq) (h : Sound Q s) : Sound Q (requestAt s r) := by
  unfold requestAt
  repeat' first
    | assumption
    | rfl
    | with_reducible apply serve_ok
    | dsimp only
    | split
    | with_reducible refine Sound.lit ?_ ?_ ?_

theorem serveWaiting_ok (s : State) (stack : StackId) (chan : ChanId) (h : Sound Q s) : Sound Q (serveWaiting s stack chan) := by
  unfold serveWaiting
  repeat' first
    | assumption
    | rfl
    | with_reducible apply requestAt_ok
    | with_reducible apply updChan_ok
    | refine foldl_sound ?_ ?_
    | intro _
    | dsimp only
    | with_reducible refine Sound.lit ?_ ?_ ?_

theorem leaseDone_ok (s : State) (stack : StackId) (chan : ChanId) (status : BitVec 2) (h : Sound Q s) :
    Sound Q (leaseDone s stack chan status) := by
  unfold leaseDone
  repeat' first
    | assumption
    | with_reducible apply State.say_ok
    | with_reducible apply serveWaiting_ok
    | with_reducible apply dropLease_ok
    | with_reducible apply fatal_ok
    | with_reducible apply abandonPass_ok
    | with_reducible apply completePass_ok
    | dsimp only
    | split

theorem stackTemp_ok (s : State) (k : StackId) (t : Temp) (h : Sound Q s) : Sound Q (stackTemp s k t) := by
  unfold stackTemp
  repeat' first
    | assumption
    | rfl
    | dsimp only
    | split
    | with_reducible refine Sound.lit ?_ ?_ ?_

theorem execStackTempRead_ok (stack : StackId) (temp : Temp) (s : State) (h : Sound Q s) :
    outOk Q (execStackTempRead stack temp s) :=
  outOk_next (stackTemp_ok _ _ _ h)

theorem execAtomicLineWriteback_ok (ctrl : Fin 24) (line : ℕ) (s : State) (h : Sound Q s) :
    outOk Q (execAtomicLineWriteback ctrl line s) := by
  unfold execAtomicLineWriteback
  repeat' first
    | assumption
    | rfl
    | with_reducible apply outOk_next
    | dsimp only
    | with_reducible refine Sound.lit ?_ ?_ ?_

theorem retrainSliceAt_ok (s : State) (k : StackId) (c : ChanId) (ok : Bool) (settings : W64) (h : Sound Q s) :
    Sound Q (retrainSliceAt s k c ok settings) := by
  unfold retrainSliceAt
  extract_lets st ch load left pass ch1 st1 u1 s1
  split
  · exact h
  · have h1 : Sound Q s1 := h.lit rfl rfl
    clear_value s1
    exact State.say_ok _ _ h1

theorem execRetrainSlice_ok (stack : StackId) (chan : ChanId) (checkOk : Bool) (settings : W64) (s : State) (h : Sound Q s) :
    outOk Q (execRetrainSlice stack chan checkOk settings s) :=
  outOk_next (retrainSliceAt_ok _ _ _ _ _ h)

theorem execAtomicUpdate_ok (addr : Addr) (fmt op : BitVec 4) (data : List Byte) (poison : Bool) (s : State) (h : Sound Q s) :
    outOk Q (execAtomicUpdate addr fmt op data poison s) :=
  outOk_next (requestAt_ok _ _ h)

theorem scrubLine_ok (s : State) (a errs : ℕ) (writtenSince lastOfPass : Bool) (h : Sound Q s) :
    Sound Q (scrubLine s a errs writtenSince lastOfPass) := by
  unfold scrubLine
  repeat' first
    | assumption
    | rfl
    | with_reducible apply classRead_ok
    | dsimp only
    | split
    | with_reducible refine Sound.lit ?_ ?_ ?_

theorem execScrubRead_ok (addr : Addr) (symbolErrors : ℕ) (writtenSince lastOfPass : Bool) (s : State) (h : Sound Q s) :
    outOk Q (execScrubRead addr symbolErrors writtenSince lastOfPass s) :=
  outOk_next (scrubLine_ok _ _ _ _ _ h)

theorem execLdone_ok (stack : StackId) (chan : ChanId) (status : BitVec 2) (s : State) (h : Sound Q s) :
    outOk Q (execLdone stack chan status s) :=
  outOk_next (leaseDone_ok _ _ _ _ h)

theorem wcbBack_ok (s : State) (k : Fin 24) (line errs : ℕ) (h : Sound Q s) : Sound Q (wcbBack s k line errs) := by
  unfold wcbBack
  repeat' first
    | assumption
    | with_reducible apply wcbWriteback_ok
    | with_reducible apply classRead_ok
    | split

theorem execWcbIdleWriteback_ok (ctrl : Fin 24) (line symbolErrors : ℕ) (s : State) (h : Sound Q s) :
    outOk Q (execWcbIdleWriteback ctrl line symbolErrors s) :=
  outOk_next (wcbBack_ok _ _ _ _ h)

theorem execMemRead_ok (addr : Addr) (symbolErrors : ℕ) (s : State) (h : Sound Q s) : outOk Q (execMemRead addr symbolErrors s) :=
  outOk_next (requestAt_ok _ _ h)

theorem execMemWrite_ok (addr : Addr) (data : List Byte) (poison : Bool) (s : State) (h : Sound Q s) :
    outOk Q (execMemWrite addr data poison s) :=
  outOk_next (requestAt_ok _ _ h)

end Sys2Proof.Machine
end

