-- ==== Sys2Proof/Laws/SoundFabric.lean ====
section
/-! SUPPORT. Every operation keeps the byte stores in canonical form: the fabric, the collectives and cinch, the optics, and discovery. -/

namespace Sys2Proof.Machine

variable {Q : List Instr}

/-! ## Fabric -/

theorem discardPacket_ok (s : State) (p : Packet) (h : Sound Q s) : Sound Q (discardPacket s p) := by
  unfold discardPacket
  repeat' first
    | assumption
    | rfl
    | dsimp only
    | split
    | with_reducible refine Sound.lit ?_ ?_ ?_

theorem accepting_ok (s : State) (p : Packet) (f : State → State) (h : Sound Q s) (hf : ∀ t, Sound Q t → Sound Q (f t)) :
    Sound Q (accepting s p f) := by
  unfold accepting
  split
  · exact hf _ h
  · exact discardPacket_ok _ _ h

theorem lateCompletion_ok (s : State) (h : Sound Q s) : Sound Q (lateCompletion s) := by
  unfold lateCompletion
  repeat' first
    | assumption
    | rfl
    | dsimp only
    | with_reducible refine Sound.lit ?_ ?_ ?_

theorem updTag_ok (s : State) (n : BitVec 15) (f : Tag → Tag) (h : Sound Q s) : Sound Q (updTag s n f) := by
  unfold updTag
  repeat' first
    | assumption
    | rfl
    | dsimp only
    | with_reducible refine Sound.lit ?_ ?_ ?_

theorem freeTag_ok (s : State) (n : BitVec 15) (h : Sound Q s) : Sound Q (freeTag s n) := by
  unfold freeTag
  repeat' first
    | assumption
    | rfl
    | dsimp only
    | with_reducible refine Sound.lit ?_ ?_ ?_

theorem endTag_ok (s : State) (t : Tag) (h : Sound Q s) : Sound Q (endTag s t) := by
  unfold endTag
  repeat' first
    | assumption
    | rfl
    | with_reducible apply freeTag_ok
    | dsimp only
    | split
    | with_reducible refine Sound.lit ?_ ?_ ?_

theorem updWin_ok (s : State) (d : Chip) (f : WinEntry → WinEntry) (h : Sound Q s) : Sound Q (updWin s d f) := by
  unfold updWin
  repeat' first
    | assumption
    | rfl
    | dsimp only
    | with_reducible refine Sound.lit ?_ ?_ ?_

theorem completeWin_ok (s : State) (t : Tag) (echo : Bool) (h : Sound Q s) : Sound Q (completeWin s t echo) := by
  unfold completeWin
  repeat' first
    | assumption
    | with_reducible apply updWin_ok

theorem closeIssuer_ok (s : State) (i : Issuer) (h : Sound Q s) : Sound Q (closeIssuer s i) := by
  unfold closeIssuer
  repeat' first
    | assumption
    | with_reducible apply closeFlight_ok
    | split

theorem refusedRemote_ok (s : State) (t : Tag) (p : Packet) (status : ℕ) (h : Sound Q s) :
    Sound Q (refusedRemote s t p status) := by
  unfold refusedRemote
  repeat' first
    | assumption
    | with_reducible apply flightFault_ok
    | with_reducible apply streamFault_ok
    | dsimp only
    | split

theorem countReserved_ok (s : State) (p : Packet) (h : Sound Q s) : Sound Q (countReserved s p) := by
  unfold countReserved
  repeat' first
    | assumption
    | with_reducible apply updPort_ok

theorem completeAck_ok (s : State) (p : Packet) (h : Sound Q s) : Sound Q (completeAck s p) := by
  unfold completeAck
  repeat' first
    | assumption
    | with_reducible apply lateCompletion_ok
    | with_reducible apply updTag_ok
    | with_reducible apply endTag_ok
    | with_reducible apply completeWin_ok
    | with_reducible apply collAcked_ok
    | with_reducible apply closeIssuer_ok
    | with_reducible apply refusedRemote_ok
    | with_reducible apply countReserved_ok
    | dsimp only
    | split

theorem execAck_ok (p : Packet) (s : State) (h : Sound Q s) : outOk Q (execAck p s) := by
  unfold execAck
  repeat' first
    | assumption
    | with_reducible apply outOk_next
    | with_reducible apply accepting_ok
    | with_reducible apply completeAck_ok
    | intro _

theorem reportFenced_ok (s : State) (i : Issuer) (p : Packet) (cause : ℕ) (h : Sound Q s) :
    Sound Q (reportFenced s i p cause) := by
  unfold reportFenced
  repeat' first
    | assumption
    | with_reducible apply flightFault_ok
    | with_reducible apply collFencedAt_ok
    | split

theorem releaseWin_ok (s : State) (t : Tag) (h : Sound Q s) : Sound Q (releaseWin s t) := by
  unfold releaseWin
  repeat' first
    | assumption
    | with_reducible apply updWin_ok

theorem resendNoticed_ok (s : State) (n : BitVec 15) (h : Sound Q s) : Sound Q (resendNoticed s n) := by
  unfold resendNoticed
  repeat' first
    | assumption
    | with_reducible apply reportFenced_ok
    | with_reducible apply freeTag_ok
    | with_reducible apply releaseWin_ok
    | with_reducible apply inject_ok
    | with_reducible apply updTag_ok
    | dsimp only
    | split

theorem execRetryResend_ok (tag : BitVec 15) (s : State) (h : Sound Q s) : outOk Q (execRetryResend tag s) :=
  outOk_next (resendNoticed_ok _ _ h)

theorem leaveBuffer_ok (s : State) (port : ℕ) (vc : Fin 8) (flits : ℕ) (marked : Bool) (h : Sound Q s) :
    Sound Q (leaveBuffer s port vc flits marked) := by
  unfold leaveBuffer
  repeat' first
    | assumption
    | with_reducible apply updPort_ok

theorem countMisrouted_ok (s : State) (port : ℕ) (h : Sound Q s) : Sound Q (countMisrouted s port) := by
  unfold countMisrouted
  repeat' first
    | assumption
    | rfl
    | with_reducible apply updPort_ok
    | dsimp only
    | split
    | with_reducible refine Sound.lit ?_ ?_ ?_

theorem fenceNoticeFor_ok (s : State) (f : Chip) (p : Packet) (h : Sound Q s) : Sound Q (fenceNoticeFor s f p) := by
  unfold fenceNoticeFor
  repeat' first
    | assumption
    | rfl
    | with_reducible apply emit_ok
    | dsimp only
    | split
    | with_reducible refine Sound.lit ?_ ?_ ?_

theorem routeHeader_ok (s0 : State) (port : Fin 10) (vc : Fin 8) (p0 : Packet) (h : Sound Q s0) :
    Sound Q (routeHeader s0 port vc p0) := by
  unfold routeHeader
  repeat' first
    | assumption
    | with_reducible apply heard_ok
    | with_reducible apply leaveBuffer_ok
    | with_reducible apply updPort_ok
    | with_reducible apply emit_ok
    | with_reducible apply countMisrouted_ok
    | with_reducible apply fenceNoticeFor_ok
    | dsimp only
    | split

theorem execRouteLookup_ok (port : Fin 10) (vc : Fin 8) (p : Packet) (s : State) (h : Sound Q s) :
    outOk Q (execRouteLookup port vc p s) :=
  outOk_next (routeHeader_ok _ _ _ _ h)

theorem silentOn_ok (s : State) (port : PortId) (h : Sound Q s) : Sound Q (silentOn s port) := by
  unfold silentOn
  repeat' first
    | assumption
    | with_reducible apply updPort_ok
    | with_reducible apply raiseOpen_ok
    | dsimp only
    | split

theorem execPortSilent_ok (port : PortId) (s : State) (h : Sound Q s) : outOk Q (execPortSilent port s) :=
  outOk_next (silentOn_ok _ _ h)

theorem holdAccess_ok (s : State) (p : Packet) (h : Sound Q s) : Sound Q (holdAccess s p) := by
  unfold holdAccess
  repeat' first
    | assumption
    | rfl
    | dsimp only
    | with_reducible refine Sound.lit ?_ ?_ ?_

theorem respond_ok (s : State) (p : Packet) (h : Sound Q s) : Sound Q (respond s p) := by
  unfold respond
  split <;> dsimp only <;> split
  · exact inject_ok _ _ h
  · exact inject_ok _ _ h
  · exact inject_ok _ _ h
  · exact inject_ok _ _ (hbmPut_ok _ _ _ h)
  · exact inject_ok _ _ h
  · exact inject_ok _ _ (atomicMany_ok _ _ _ _ h)

theorem request_ok (s : State) (p : Packet) (h : Sound Q s) : Sound Q (request s p) := by
  unfold request
  repeat' first
    | assumption
    | with_reducible apply holdAccess_ok
    | with_reducible apply respond_ok
    | split

theorem execPut_ok (p : Packet) (s : State) (h : Sound Q s) : outOk Q (execPut p s) := by
  unfold execPut
  repeat' first
    | assumption
    | with_reducible apply outOk_next
    | with_reducible apply accepting_ok
    | with_reducible apply request_ok
    | intro _

theorem quiesce_ok (s : State) (h : Sound Q s) : Sound Q (quiesce s) := by
  unfold quiesce
  extract_lets s1
  have h1 : Sound Q s1 := stopCores_ok s h
  clear_value s1
  exact h1.lit rfl rfl

theorem fencedSelf_ok (s : State) (h : Sound Q s) : Sound Q (fencedSelf s) := by
  unfold fencedSelf
  extract_lets s1 s2
  have h1 : Sound Q s1 := quiesce_ok s h
  clear_value s1
  exact raiseOpen_ok _ _ (stopJob_ok _ (h1.lit rfl rfl))

theorem fenceNotice_ok (s : State) (p : Packet) (h : Sound Q s) : Sound Q (fenceNotice s p) := by
  unfold fenceNotice
  extract_lets f u1 s1 u2 s2
  have h1 : Sound Q s1 := h.lit rfl rfl
  clear_value s1
  have h2 : Sound Q s2 := by
    simp only [s2]
    split
    · exact h1
    · split
      · exact reportFenced_ok _ _ _ _ (endTag_ok _ _ (releaseWin_ok _ _ h1))
      · exact h1.lit rfl rfl
  clear_value s2
  split
  · exact fencedSelf_ok _ h2
  · exact h2

theorem execFenceNotice_ok (p : Packet) (s : State) (h : Sound Q s) : outOk Q (execFenceNotice p s) := by
  unfold execFenceNotice
  repeat' first
    | assumption
    | with_reducible apply outOk_next
    | with_reducible apply accepting_ok
    | with_reducible apply fenceNotice_ok
    | intro _

theorem countStall_ok (s : State) (n : ℕ) (vc : Fin 8) (h : Sound Q s) : Sound Q (countStall s n vc) := by
  unfold countStall
  repeat' first
    | assumption
    | rfl
    | with_reducible apply updPort_ok
    | with_reducible refine Sound.lit ?_ ?_ ?_

theorem injectTagged_ok (s : State) (t : Tag) (e : WinEntry) (rest : List WinEntry) (h : Sound Q s) :
    Sound Q (injectTagged s t e rest) := by
  unfold injectTagged
  repeat' first
    | assumption
    | rfl
    | with_reducible apply inject_ok
    | dsimp only
    | split
    | with_reducible refine Sound.lit ?_ ?_ ?_

theorem sendOne_ok (s : State) (i : ℕ) (h : Sound Q s) : Sound Q (sendOne s i) := by
  unfold sendOne
  repeat' first
    | assumption
    | rfl
    | with_reducible apply reportFenced_ok
    | with_reducible apply freeTag_ok
    | with_reducible apply countStall_ok
    | with_reducible apply injectTagged_ok
    | dsimp only
    | split
    | with_reducible refine Sound.lit ?_ ?_ ?_

theorem execPacketSend_ok (idx : ℕ) (s : State) (h : Sound Q s) : outOk Q (execPacketSend idx s) :=
  outOk_next (sendOne_ok _ _ h)

theorem timeoutWin_ok (s : State) (t : Tag) (h : Sound Q s) : Sound Q (timeoutWin s t) := by
  unfold timeoutWin
  repeat' first
    | assumption
    | with_reducible apply updWin_ok

theorem reportTimeout_ok (s : State) (t : Tag) (elapsed : W32) (h : Sound Q s) : Sound Q (reportTimeout s t elapsed) := by
  unfold reportTimeout
  repeat' first
    | assumption
    | with_reducible apply flightFault_ok
    | with_reducible apply streamFault_ok
    | dsimp only
    | split

theorem timerExpires_ok (s : State) (n : BitVec 15) (elapsed : W32) (h : Sound Q s) : Sound Q (timerExpires s n elapsed) := by
  unfold timerExpires
  repeat' first
    | assumption
    | rfl
    | with_reducible apply timeoutWin_ok
    | with_reducible apply updTag_ok
    | with_reducible apply sendOne_ok
    | with_reducible apply reportTimeout_ok
    | with_reducible apply freeTag_ok
    | dsimp only
    | split
    | with_reducible refine Sound.lit ?_ ?_ ?_

theorem countStalls_ok (s : State) (n : PortId) (h : Sound Q s) : Sound Q (countStalls s n) := by
  unfold countStalls
  refine foldl_sound h fun t vc ht => ?_
  split
  · exact countStall_ok _ _ _ ht
  · exact ht

/-- The flit that a port sends next leaves a sound state. -/
theorem nextFlit_ok (s : State) (n : PortId) (h : Sound Q s) : ∀ x, nextFlit s n = some x → Sound Q x.1 := by
  intro x e
  unfold nextFlit at e
  extract_lets q both at e
  split at e
  · cases e
  · split at e
    · cases e
    · split at e
      · cases e
      · cases e
        rename_i s1 h1 x1 vc e1 x2 i o e2
        have h1 : Sound Q s1 := by
          simp only [s1]
          split
          · exact h.lit rfl rfl
          · exact h
        clear_value s1
        exact leaveBuffer_ok _ _ _ _ _ (updPort_ok _ _ _ h1)

theorem takeFlits_ok (k : Nat) (s : State) (n : PortId) (h : Sound Q s) : Sound Q (takeFlits k s n).1 := by
  induction k generalizing s with
  | zero => exact h
  | succ k ih =>
    unfold takeFlits
    split
    · exact h
    · rename_i e; exact ih _ (nextFlit_ok s n h _ e)

theorem execVcbufWrite_ok (port : PortId) (high : Bool) (value : W64) (s : State) (h : Sound Q s) :
    outOk Q (execVcbufWrite port high value s) := by
  unfold execVcbufWrite
  repeat' first
    | assumption
    | with_reducible apply outOk_next
    | with_reducible apply State.onRails_ok
    | with_reducible apply updPort_ok
    | intro _

theorem execCongestionOnset_ok (port : PortId) (vc : Fin 8) (s : State) (h : Sound Q s) :
    outOk Q (execCongestionOnset port vc s) := by
  unfold execCongestionOnset
  repeat' first
    | assumption
    | with_reducible apply outOk_next
    | with_reducible apply updPort_ok
    | split

theorem execTxnTimeout_ok (tag : BitVec 15) (elapsed : W32) (s : State) (h : Sound Q s) :
    outOk Q (execTxnTimeout tag elapsed s) :=
  outOk_next (timerExpires_ok _ _ _ h)

theorem placeData_ok (s : State) (d : LocalDest) (bs : List PByte) (h : Sound Q s) : Sound Q (placeData s d bs) := by
  unfold placeData
  repeat' first
    | assumption
    | with_reducible apply spadPut_ok
    | with_reducible apply hbmPut_ok
    | with_reducible refine Sound.updCore ?_ ?_
    | split

theorem completeData_ok (s : State) (p : Packet) (h : Sound Q s) : Sound Q (completeData s p) := by
  unfold completeData
  repeat' first
    | assumption
    | with_reducible apply completeAck_ok
    | with_reducible apply lateCompletion_ok
    | with_reducible apply closeIssuer_ok
    | with_reducible apply placeData_ok
    | with_reducible apply endTag_ok
    | with_reducible apply completeWin_ok
    | split

theorem execGetdata_ok (p : Packet) (s : State) (h : Sound Q s) : outOk Q (execGetdata p s) := by
  unfold execGetdata
  repeat' first
    | assumption
    | with_reducible apply outOk_next
    | with_reducible apply accepting_ok
    | with_reducible apply completeData_ok
    | intro _

theorem beatOn_ok (s : State) (port : PortId) (h : Sound Q s) : Sound Q (beatOn s port) := by
  unfold beatOn
  repeat' first
    | assumption
    | with_reducible apply emit_ok
    | dsimp only
    | split

theorem execCongestionClear_ok (port : PortId) (vc : Fin 8) (s : State) (h : Sound Q s) :
    outOk Q (execCongestionClear port vc s) := by
  unfold execCongestionClear
  repeat' first
    | assumption
    | with_reducible apply outOk_next
    | with_reducible apply updPort_ok
    | split

theorem ingress_ok (s : State) (p : Packet) (h : Sound Q s) : Sound Q (ingress s p) := by
  unfold ingress
  repeat' first
    | assumption
    | with_reducible apply discardPacket_ok
    | split

theorem releaseHeld_ok (s : State) (i : ℕ) (h : Sound Q s) : Sound Q (releaseHeld s i) := by
  unfold releaseHeld
  repeat' first
    | assumption
    | rfl
    | with_reducible apply respond_ok
    | dsimp only
    | split
    | with_reducible refine Sound.lit ?_ ?_ ?_

theorem execBeat_ok (port : PortId) (s : State) (h : Sound Q s) : outOk Q (execBeat port s) := outOk_next (beatOn_ok _ _ h)

theorem execSidedAccessRelease_ok (idx : ℕ) (s : State) (h : Sound Q s) : outOk Q (execSidedAccessRelease idx s) :=
  outOk_next (releaseHeld_ok _ _ h)

theorem writeRoute_ok (s : State) (d : Chip) (v : W32) (h : Sound Q s) : Sound Q (writeRoute s d v) := by
  unfold writeRoute
  repeat' first
    | assumption
    | rfl
    | dsimp only
    | split
    | with_reducible refine Sound.lit ?_ ?_ ?_

theorem execRouteWrite_ok (chip : Chip) (value : W32) (s : State) (h : Sound Q s) : outOk Q (execRouteWrite chip value s) := by
  unfold execRouteWrite
  repeat' first
    | assumption
    | with_reducible apply outOk_next
    | with_reducible apply State.onRails_ok
    | with_reducible apply writeRoute_ok
    | intro _

theorem execPacketIngress_ok (p : Packet) (s : State) (h : Sound Q s) : outOk Q (execPacketIngress p s) :=
  outOk_next (ingress_ok _ _ h)

theorem execAtomic_ok (p : Packet) (s : State) (h : Sound Q s) : outOk Q (execAtomic p s) := by
  unfold execAtomic
  repeat' first
    | assumption
    | with_reducible apply outOk_next
    | with_reducible apply accepting_ok
    | with_reducible apply request_ok
    | intro _

theorem execGetreq_ok (p : Packet) (s : State) (h : Sound Q s) : outOk Q (execGetreq p s) := by
  unfold execGetreq
  repeat' first
    | assumption
    | with_reducible apply outOk_next
    | with_reducible apply accepting_ok
    | with_reducible apply request_ok
    | intro _

/-! ## Commit -/

theorem writeResult_ok (s : State) (r : CinchRec) (h : Sound Q s) : Sound Q (writeResult s r) := by
  unfold writeResult
  repeat' first
    | assumption
    | with_reducible apply storeHbm_ok
    | split

theorem defer_ok (s : State) (h : Sound Q s) : Sound Q (defer s) := by
  unfold defer
  repeat' first
    | assumption
    | rfl
    | dsimp only
    | with_reducible refine Sound.lit ?_ ?_ ?_

theorem holdLater_ok (s : State) (h : Sound Q s) : Sound Q (holdLater s) := by
  unfold holdLater
  repeat' first
    | assumption
    | rfl
    | dsimp only
    | split
    | with_reducible refine Sound.lit ?_ ?_ ?_

theorem nextStep_ok (s : State) (h : Sound Q s) : Sound Q (nextStep s) := by
  unfold nextStep
  repeat' first
    | assumption
    | rfl
    | with_reducible apply beginStep_ok
    | with_reducible apply holdLater_ok
    | with_reducible apply raiseOpen_ok
    | dsimp only
    | split
    | with_reducible refine Sound.lit ?_ ?_ ?_

theorem endReplay_ok (s : State) (h : Sound Q s) : Sound Q (endReplay s) := by
  unfold endReplay
  repeat' first
    | assumption
    | rfl
    | with_reducible apply finishDesc_ok
    | dsimp only
    | split
    | with_reducible refine Sound.lit ?_ ?_ ?_

theorem resume_ok (s : State) (h : Sound Q s) : Sound Q (resume s) := by
  unfold resume
  repeat' first
    | assumption
    | with_reducible apply beginStep_ok
    | split

theorem discard_ok (s : State) (h : Sound Q s) : Sound Q (discard s) := by
  unfold discard
  repeat' first
    | assumption
    | rfl
    | dsimp only
    | split
    | with_reducible refine Sound.lit ?_ ?_ ?_

theorem flip_ok (s : State) (h : Sound Q s) : Sound Q (flip s) := by
  unfold flip
  repeat' first
    | assumption
    | rfl
    | dsimp only
    | split
    | with_reducible refine Sound.lit ?_ ?_ ?_

theorem applyCommit_ok (s : State) (r : CinchRec) (h : Sound Q s) : Sound Q (applyCommit s r) := by
  unfold applyCommit
  repeat' first
    | assumption
    | rfl
    | with_reducible apply writeResult_ok
    | with_reducible apply raiseOpen_ok
    | with_reducible apply stopJob_ok
    | with_reducible apply endReplay_ok
    | with_reducible apply resume_ok
    | with_reducible apply nextStep_ok
    | with_reducible apply applyFreq_ok
    | with_reducible apply discard_ok
    | with_reducible apply defer_ok
    | with_reducible apply flip_ok
    | dsimp only
    | split
    | with_reducible refine Sound.lit ?_ ?_ ?_

theorem startGo_ok (s : State) (ring : RingId) (idx : W16) (r : CinchRec) (h : Sound Q s) : Sound Q (startGo s ring idx r) := by
  unfold startGo
  repeat' first
    | assumption
    | rfl
    | with_reducible apply applyFreq_ok
    | dsimp only
    | with_reducible refine Sound.lit ?_ ?_ ?_

theorem startFails_ok (s : State) (ring : RingId) (idx : W16) (n : Cinch) (elapsed : W32) (missing : List ℕ) (h : Sound Q s) :
    Sound Q (startFails s ring idx n elapsed missing) := by
  unfold startFails
  repeat' first
    | assumption
    | with_reducible apply logRecord_ok
    | with_reducible apply stopJob_ok
    | with_reducible apply finishDesc_ok

theorem finishCinch_ok (x : State × Option (Cinch × CinchRec)) (h : Sound Q x.1) : Sound Q (finishCinch x) := by
  unfold finishCinch
  split
  · exact h
  · split
    · exact finishCollCinch_ok _ _ _ h
    · exact applyCommit_ok _ _ h
    · split
      · exact startGo_ok _ _ _ _ h
      · extract_lets f
        exact startFails_ok _ _ _ _ _ _ (h.lit rfl rfl : Sound Q f.2)

theorem enterCommit_ok (s : State) (h : Sound Q s) : Sound Q (enterCommit s) := by
  unfold enterCommit
  repeat' first
    | assumption
    | rfl
    | with_reducible apply consume_ok
    | with_reducible apply govern_ok
    | with_reducible apply finishCinch_ok
    | with_reducible apply cinchEnter_ok
    | dsimp only
    | split
    | with_reducible refine Sound.lit ?_ ?_ ?_

theorem execCommitCinchEntry_ok (s : State) (h : Sound Q s) : outOk Q (execCommitCinchEntry s) :=
  outOk_next (enterCommit_ok _ h)

theorem commitExpires_ok (s : State) (i : BitVec 10) (elapsed : W32) (h : Sound Q s) : Sound Q (commitExpires s i elapsed) := by
  unfold commitExpires
  repeat' first
    | assumption
    | rfl
    | with_reducible apply logRecord_ok
    | with_reducible apply raiseOpen_ok
    | with_reducible apply stopJob_ok
    | with_reducible apply endReplay_ok
    | with_reducible apply startFails_ok
    | dsimp only
    | split
    | with_reducible refine Sound.lit ?_ ?_ ?_

theorem execCinchBudgetExpiry_ok (comm : BitVec 10) (elapsed : W32) (s : State) (h : Sound Q s) :
    outOk Q (execCinchBudgetExpiry comm elapsed s) :=
  outOk_next (commitExpires_ok _ _ _ h)

/-! ## Collectives -/

theorem duplicate_ok (s : State) (p : Packet) (h : Sound Q s) : Sound Q (duplicate s p) := by
  unfold duplicate
  repeat' first
    | assumption
    | rfl
    | with_reducible apply inject_ok
    | dsimp only
    | split
    | with_reducible refine Sound.lit ?_ ?_ ?_

theorem goOn_ok (s : State) (c : Comm) (r : CollRun) (h : Sound Q s) : Sound Q (goOn s c r) := by
  unfold goOn
  repeat' first
    | assumption
    | with_reducible apply detours_ok
    | with_reducible apply putRun_ok
    | refine foldl_fst_sound ?_ ?_
    | intro _
    | split

theorem writeFrom_ok (s : State) (d : Desc) (at_ : ℕ) (es : List PElem) (h : Sound Q s) : Sound Q (writeFrom s d at_ es) := by
  unfold writeFrom
  repeat' first
    | assumption
    | with_reducible apply hbmPut_ok
    | refine foldl_sound ?_ ?_
    | intro _
    | dsimp only
    | split

theorem writePieces_ok (s : State) (c : Comm) (r : CollRun) (h : Sound Q s) : Sound Q (writePieces s c r) := by
  unfold writePieces
  repeat' first
    | assumption
    | with_reducible apply writeFrom_ok
    | with_reducible apply hbmPut_ok
    | refine foldl_sound ?_ ?_
    | intro _
    | dsimp only
    | split

theorem completeRun_ok (s : State) (id : ℕ) (h : Sound Q s) : Sound Q (completeRun s id) := by
  unfold completeRun
  repeat' first
    | assumption
    | rfl
    | with_reducible apply goOn_ok
    | with_reducible apply writePieces_ok
    | with_reducible apply writeStatus_ok
    | with_reducible apply dropRun_ok
    | with_reducible apply closeFlight_ok
    | with_reducible apply updAccess_ok
    | dsimp only
    | split
    | with_reducible refine Sound.lit ?_ ?_ ?_

theorem startDirect_ok (s : State) (c : Comm) (r : CollRun) (h : Sound Q s) : Sound Q (startDirect s c r).1 := by
  unfold startDirect
  repeat' first
    | assumption
    | with_reducible apply sendElems_ok
    | with_reducible apply overChunks_ok
    | refine foldl_sound ?_ ?_
    | intro _
    | dsimp only
    | split

theorem startPhase_ok (s : State) (id : ℕ) (h : Sound Q s) : Sound Q (startPhase s id) := by
  unfold startPhase
  repeat' first
    | assumption
    | with_reducible apply startGather_ok
    | with_reducible apply startScatter_ok
    | with_reducible apply putRun_ok
    | with_reducible apply startDirect_ok
    | dsimp only
    | split

theorem sendCack_ok (s : State) (c : Comm) (p : Packet) (h : Sound Q s) : Sound Q (sendCack s c p) := by
  unfold sendCack
  repeat' first
    | assumption
    | with_reducible apply inject_ok

theorem ackStored_ok (s : State) (p : Packet) (h : Sound Q s) : Sound Q (ackStored s p) := by
  unfold ackStored
  repeat' first
    | assumption
    | with_reducible apply settleAcks_ok
    | with_reducible apply inject_ok
    | split

theorem useGather_ok (s : State) (c : Comm) (r : CollRun) (k j off : ℕ) (es : List PElem) (h : Sound Q s) :
    Sound Q (useGather s c r k j off es).1 := by
  unfold useGather
  repeat' first
    | assumption
    | with_reducible apply sendElems_ok
    | dsimp only
    | split

theorem useTree_ok (s : State) (c : Comm) (r : CollRun) (k : ℕ) (last : Bool) (p : Packet) (j off : ℕ) (es : List PElem)
    (h : Sound Q s) :
    Sound Q (useTree s c r k last p j off es).1 := by
  unfold useTree
  repeat' first
    | assumption
    | with_reducible apply treeFlow_ok

theorem useRing_ok (s : State) (c : Comm) (r : CollRun) (k : ℕ) (last : Bool) (j off : ℕ) (es : List PElem) (h : Sound Q s) :
    Sound Q (useRing s c r k last j off es).1 := by
  unfold useRing
  repeat' first
    | assumption
    | with_reducible apply orOverflow_ok
    | with_reducible apply sendElems_ok
    | dsimp only
    | split

theorem useHeap_ok (s : State) (c : Comm) (r : CollRun) (p : Packet) (j off : ℕ) (es : List PElem) (h : Sound Q s) :
    Sound Q (useHeap s c r p j off es).1 := by
  unfold useHeap
  repeat' first
    | assumption
    | rfl
    | with_reducible apply sendElems_ok
    | refine foldl_sound ?_ ?_
    | intro _
    | dsimp only
    | split
    | with_reducible refine Sound.lit ?_ ?_ ?_

theorem usePacket_ok (s : State) (c : Comm) (r : CollRun) (p : Packet) (h : Sound Q s) : Sound Q (usePacket s c r p) := by
  unfold usePacket
  repeat' first
    | assumption
    | with_reducible apply useGather_ok
    | with_reducible apply useTree_ok
    | with_reducible apply useRing_ok
    | with_reducible apply useHeap_ok
    | with_reducible apply putRun_ok
    | split

theorem noteSeen_ok (s : State) (p : Packet) (h : Sound Q s) : Sound Q (noteSeen s p) := by
  unfold noteSeen
  repeat' first
    | assumption
    | rfl
    | dsimp only
    | with_reducible refine Sound.lit ?_ ?_ ?_

theorem collArrives_ok (s : State) (p : Packet) (h : Sound Q s) : Sound Q (collArrives s p) := by
  unfold collArrives
  repeat' first
    | assumption
    | rfl
    | with_reducible apply inject_ok
    | with_reducible apply duplicate_ok
    | with_reducible apply ackStored_ok
    | with_reducible apply usePacket_ok
    | with_reducible apply noteSeen_ok
    | dsimp only
    | split
    | with_reducible refine Sound.lit ?_ ?_ ?_

theorem cinchCack_ok (s : State) (p : Packet) (h : Sound Q s) : Sound Q (cinchCack s p) := by
  unfold cinchCack
  repeat' first
    | assumption
    | rfl
    | with_reducible apply updCinch_ok
    | dsimp only
    | split
    | with_reducible refine Sound.lit ?_ ?_ ?_

theorem execCinchCack_ok (p : Packet) (s : State) (h : Sound Q s) : outOk Q (execCinchCack p s) := by
  unfold execCinchCack
  repeat' first
    | assumption
    | with_reducible apply outOk_next
    | with_reducible apply accepting_ok
    | with_reducible apply cinchCack_ok
    | intro _

theorem execPhaseStart_ok (op : ℕ) (s : State) (h : Sound Q s) : outOk Q (execPhaseStart op s) :=
  outOk_next (startPhase_ok _ _ h)

theorem earlyApplies_ok (s : State) (i : ℕ) (h : Sound Q s) : Sound Q (earlyApplies s i) := by
  unfold earlyApplies
  repeat' first
    | assumption
    | rfl
    | with_reducible apply usePacket_ok
    | with_reducible apply settleAcks_ok
    | dsimp only
    | split
    | with_reducible refine Sound.lit ?_ ?_ ?_

theorem cinchResend_ok (s : State) (i : BitVec 10) (h : Sound Q s) : Sound Q (cinchResend s i) := by
  unfold cinchResend
  repeat' first
    | assumption
    | with_reducible apply sendCinch_ok
    | with_reducible apply finishCinch_ok
    | with_reducible apply cinchFlow_ok
    | refine foldl_sound ?_ ?_
    | intro _
    | dsimp only
    | split

theorem execCinchResend_ok (comm : BitVec 10) (s : State) (h : Sound Q s) : outOk Q (execCinchResend comm s) :=
  outOk_next (cinchResend_ok _ _ h)

theorem cinchDownArrives_ok (s : State) (p : Packet) (h : Sound Q s) : Sound Q (cinchDownArrives s p) := by
  unfold cinchDownArrives
  repeat' first
    | assumption
    | rfl
    | with_reducible apply sendCack_ok
    | with_reducible apply finishCinch_ok
    | with_reducible apply cinchDown_ok
    | dsimp only
    | split
    | with_reducible refine Sound.lit ?_ ?_ ?_

theorem execCollComplete_ok (op : ℕ) (s : State) (h : Sound Q s) : outOk Q (execCollComplete op s) :=
  outOk_next (completeRun_ok _ _ h)

theorem cinchUp.holdUp_ok (s : State) (c : Comm) (p : Packet) (h : Sound Q s) : Sound Q (cinchUp.holdUp s c p) := by
  unfold cinchUp.holdUp
  repeat' first
    | assumption
    | rfl
    | with_reducible apply sendCack_ok
    | dsimp only
    | split
    | with_reducible refine Sound.lit ?_ ?_ ?_

theorem execCinchDown_ok (p : Packet) (s : State) (h : Sound Q s) : outOk Q (execCinchDown p s) := by
  unfold execCinchDown
  repeat' first
    | assumption
    | with_reducible apply outOk_next
    | with_reducible apply accepting_ok
    | with_reducible apply cinchDownArrives_ok
    | intro _

theorem cinchUp_ok (s : State) (p : Packet) (h : Sound Q s) : Sound Q (cinchUp s p) := by
  unfold cinchUp
  repeat' first
    | assumption
    | with_reducible apply sendCack_ok
    | with_reducible apply finishCinch_ok
    | with_reducible apply cinchFlow_ok
    | with_reducible apply updCinch_ok
    | with_reducible apply cinchUp.holdUp_ok
    | dsimp only
    | split

theorem execColldata_ok (p : Packet) (s : State) (h : Sound Q s) : outOk Q (execColldata p s) := by
  unfold execColldata
  repeat' first
    | assumption
    | with_reducible apply outOk_next
    | with_reducible apply accepting_ok
    | with_reducible apply collArrives_ok
    | intro _

theorem execCinchUp_ok (p : Packet) (s : State) (h : Sound Q s) : outOk Q (execCinchUp p s) := by
  unfold execCinchUp
  repeat' first
    | assumption
    | with_reducible apply outOk_next
    | with_reducible apply accepting_ok
    | with_reducible apply cinchUp_ok
    | intro _

theorem execEarlyArrivalApply_ok (idx : ℕ) (s : State) (h : Sound Q s) : outOk Q (execEarlyArrivalApply idx s) :=
  outOk_next (earlyApplies_ok _ _ h)

/-! ## Optics -/

theorem updLane_ok (s : State) (g : LaneId) (f : Lane → Lane) (h : Sound Q s) : Sound Q (updLane s g f) := by
  unfold updLane
  repeat' first
    | assumption
    | rfl
    | dsimp only
    | with_reducible refine Sound.lit ?_ ?_ ?_

theorem frameLost_ok (s : State) (g : LaneId) (h : Sound Q s) : Sound Q (frameLost s g) := by
  unfold frameLost
  repeat' first
    | assumption
    | rfl
    | with_reducible apply updLane_ok
    | dsimp only
    | with_reducible refine Sound.lit ?_ ?_ ?_

theorem updStrap_ok (s : State) (n : PortId) (f : Strap → Strap) (h : Sound Q s) : Sound Q (updStrap s n f) := by
  unfold updStrap
  repeat' first
    | assumption
    | rfl
    | dsimp only
    | with_reducible refine Sound.lit ?_ ?_ ?_

theorem spendCounter_ok (s : State) (g : LaneId) (h : Sound Q s) : Sound Q (spendCounter s g) := by
  unfold spendCounter
  repeat' first
    | assumption
    | with_reducible apply updLane_ok
    | split

theorem sayFrame_ok (s : State) (n : PortId) (g : LaneId) (f : Frame) (h : Sound Q s) : Sound Q (sayFrame s n g f) := by
  unfold sayFrame
  repeat' first
    | assumption
    | with_reducible apply State.say_ok
    | with_reducible apply spendCounter_ok

theorem resendKept_ok (s : State) (n : PortId) (h : Sound Q s) : Sound Q (resendKept s n) := by
  unfold resendKept
  repeat' first
    | assumption
    | rfl
    | with_reducible apply sayFrame_ok
    | refine foldl_sound ?_ ?_
    | intro _
    | dsimp only
    | split
    | with_reducible refine Sound.lit ?_ ?_ ?_

theorem acknowledge_ok (s : State) (n : PortId) (ack : BitVec 24) (nack : Bool) (h : Sound Q s) :
    Sound Q (acknowledge s n ack nack) := by
  unfold acknowledge
  repeat' first
    | assumption
    | with_reducible apply updStrap_ok
    | with_reducible apply resendKept_ok
    | dsimp only
    | split

theorem deliver_ok (s : State) (n : PortId) (f : Frame) (h : Sound Q s) : Sound Q (deliver s n f) := by
  unfold deliver
  repeat' first
    | assumption
    | rfl
    | with_reducible apply updPort_ok
    | with_reducible apply updStrap_ok
    | dsimp only
    | split
    | with_reducible refine Sound.lit ?_ ?_ ?_

theorem deliverNext_ok (n : Nat) (s : State) (k : PortId) (h : Sound Q s) : Sound Q (deliverNext n s k) := by
  induction n generalizing s with
  | zero => exact h
  | succ n ih =>
    unfold deliverNext
    extract_lets q
    clear_value q
    split
    · exact ih _ (deliver_ok _ _ _ (updStrap_ok _ _ _ h))
    · split
      · exact ih _ (updStrap_ok _ _ _ h)
      · exact h

theorem useFrame_ok (s : State) (n : PortId) (f : Frame) (h : Sound Q s) : Sound Q (useFrame s n f) := by
  unfold useFrame
  repeat' first
    | assumption
    | with_reducible apply acknowledge_ok
    | with_reducible apply heard_ok
    | with_reducible apply updStrap_ok
    | with_reducible apply deliverNext_ok
    | split

theorem receiveFrame_ok (s0 : State) (n : PortId) (g : LaneId) (bits : BitVec 10280) (rx : FrameRx) (h : Sound Q s0) :
    Sound Q (receiveFrame s0 n g bits rx) := by
  unfold receiveFrame
  repeat' first
    | assumption
    | rfl
    | with_reducible apply updLane_ok
    | with_reducible apply frameLost_ok
    | with_reducible apply useFrame_ok
    | with_reducible apply updStrap_ok
    | dsimp only
    | split
    | with_reducible refine Sound.lit ?_ ?_ ?_

theorem execFrameReceive_ok (port : PortId) (g : LaneId) (bits : BitVec 10280) (rx : FrameRx) (s : State) (h : Sound Q s) :
    outOk Q (execFrameReceive port g bits rx s) :=
  outOk_next (receiveFrame_ok _ _ _ _ _ h)

theorem recount_ok (s : State) (h : Sound Q s) : Sound Q (recount s) := foldl_sound h fun t _ ht => updPort_ok t _ _ ht

theorem setRing_ok (s : State) (g : LaneId) (tx : Bool) (st : ℕ) (h : Sound Q s) : Sound Q (setRing s g tx st) := by
  unfold setRing
  repeat' first
    | assumption
    | with_reducible apply updLane_ok

theorem startSweep_ok (s : State) (g : LaneId) (tx : Bool) (h : Sound Q s) : Sound Q (startSweep s g tx) := by
  unfold startSweep
  repeat' first
    | assumption
    | with_reducible apply updLane_ok
    | with_reducible apply setRing_ok
    | split

theorem countRejoined_ok (s : State) (h : Sound Q s) : Sound Q (countRejoined s) := by
  unfold countRejoined
  repeat' first
    | assumption
    | rfl
    | dsimp only
    | with_reducible refine Sound.lit ?_ ?_ ?_

theorem rejoinRx_ok (s : State) (g : LaneId) (h : Sound Q s) : Sound Q (rejoinRx s g) := by
  unfold rejoinRx
  extract_lets l
  clear_value l
  split
  · exact recount_ok _ (countRejoined_ok _ (updLane_ok _ _ _ h))
  · exact h

theorem rejoinTx_ok (s : State) (g : LaneId) (h : Sound Q s) : Sound Q (rejoinTx s g) := by
  unfold rejoinTx
  extract_lets l
  split
  · exact recount_ok _ (countRejoined_ok _ (updLane_ok _ _ _ h))
  · exact h

theorem rejoin_ok (s : State) (g : LaneId) (h : Sound Q s) : Sound Q (rejoin s g) := rejoinRx_ok _ _ (rejoinTx_ok _ _ h)

theorem reacquired_ok (failed : List LaneId) (s : State) (g : LaneId) (h : Sound Q s) : Sound Q (reacquired failed s g) := by
  unfold reacquired
  repeat' first
    | assumption
    | rfl
    | with_reducible apply startSweep_ok
    | with_reducible apply updLane_ok
    | with_reducible apply rejoin_ok
    | dsimp only
    | split
    | with_reducible refine Sound.lit ?_ ?_ ?_

theorem enforceShares_ok (s : State) (h : Sound Q s) : Sound Q (enforceShares s) := by
  unfold enforceShares
  repeat' first
    | assumption
    | rfl
    | dsimp only
    | with_reducible refine Sound.lit ?_ ?_ ?_

theorem resumeIfDone_ok (s : State) (n : PortId) (h : Sound Q s) : Sound Q (resumeIfDone s n) := by
  unfold resumeIfDone
  repeat' first
    | assumption
    | with_reducible apply resendKept_ok
    | with_reducible apply updStrap_ok
    | dsimp only
    | split

theorem sendFrame_ok (s0 : State) (n : PortId) (open_ : Bool) (h : Sound Q s0) : Sound Q (sendFrame s0 n open_) := by
  unfold sendFrame
  repeat' first
    | assumption
    | with_reducible apply takeFlits_ok
    | with_reducible apply updStrap_ok
    | with_reducible apply sayFrame_ok
    | with_reducible apply updPort_ok
    | dsimp only
    | split

theorem sendDone_ok (s : State) (n : PortId) (k : BitVec 3) (h : Sound Q s) : Sound Q (sendDone s n k) := by
  unfold sendDone
  repeat' first
    | assumption
    | with_reducible apply sendFrame_ok
    | with_reducible apply updStrap_ok

theorem downsGo_ok (s : State) (h : Sound Q s) : Sound Q (downsGo s) := by
  unfold downsGo
  repeat' first
    | assumption
    | rfl
    | with_reducible apply cinchDownArrives_ok
    | refine foldl_sound ?_ ?_
    | dsimp only
    | with_reducible refine Sound.lit ?_ ?_ ?_

theorem cinchesGo_ok (s : State) (h : Sound Q s) : Sound Q (cinchesGo s) := by
  unfold cinchesGo
  repeat' first
    | assumption
    | with_reducible apply finishCinch_ok
    | with_reducible apply cinchFlow_ok
    | refine foldl_sound ?_ ?_
    | intro _
    | split

theorem markersGo_ok (s : State) (h : Sound Q s) : Sound Q (markersGo s) := by
  unfold markersGo
  repeat' first
    | assumption
    | rfl
    | with_reducible apply triggerSwitch_ok
    | refine foldl_sound ?_ ?_
    | intro _
    | dsimp only
    | with_reducible refine Sound.lit ?_ ?_ ?_

theorem switchEnds_ok (s : State) (failed : List LaneId) (h : Sound Q s) : Sound Q (switchEnds s failed) := by
  unfold switchEnds
  split
  · extract_lets k s1 u2 s2 s3 s4 u5 s5
    have h1 : Sound Q s1 := recount_ok _ (foldl_sound h fun t g ht => reacquired_ok failed t g ht)
    clear_value s1
    have h2 : Sound Q s2 := enforceShares_ok _ (h1.lit rfl rfl)
    clear_value s2
    have h3 : Sound Q s3 := foldl_sound h2 fun t n ht => resumeIfDone_ok _ _ (sendDone_ok _ _ _ ht)
    clear_value s3
    have h4 : Sound Q s4 := downsGo_ok _ (cinchesGo_ok _ (markersGo_ok _ h3))
    clear_value s4
    split
    · have h5 : Sound Q s5 := h4.lit rfl rfl
      clear_value s5
      split
      · exact beginStep_ok _ h5
      · exact h5
    · exact h4
  · exact h

theorem execReacquireEnd_ok (failed : List LaneId) (s : State) (h : Sound Q s) : outOk Q (execReacquireEnd failed s) :=
  outOk_next (switchEnds_ok _ _ h)

theorem countRemoved_ok (s : State) (h : Sound Q s) : Sound Q (countRemoved s) := by
  unfold countRemoved
  repeat' first
    | assumption
    | rfl
    | dsimp only
    | with_reducible refine Sound.lit ?_ ?_ ?_

theorem takeOutTx_ok (s : State) (g : LaneId) (h : Sound Q s) : Sound Q (takeOutTx s g) := by
  unfold takeOutTx
  split
  · exact h
  · exact recount_ok _ (countRemoved_ok _ (updLane_ok _ _ _ h))

theorem execStop_ok (port : PortId) (g : LaneId) (s : State) (h : Sound Q s) : outOk Q (execStop port g s) := by
  unfold execStop
  repeat' first
    | assumption
    | with_reducible apply outOk_next
    | with_reducible apply takeOutTx_ok
    | split

theorem ringFails_ok (s : State) (g : LaneId) (tx : Bool) (h : Sound Q s) : Sound Q (ringFails s g tx) := by
  unfold ringFails
  repeat' first
    | assumption
    | rfl
    | with_reducible apply raiseOpen_ok
    | with_reducible apply setRing_ok
    | dsimp only
    | with_reducible refine Sound.lit ?_ ?_ ?_

theorem rejoinIfDue_ok (s : State) (g : LaneId) (tx : Bool) (h : Sound Q s) : Sound Q (rejoinIfDue s g tx) := by
  unfold rejoinIfDue
  split
  · split
    · exact rejoinTx_ok _ _ h
    · exact h
  · split
    · exact rejoinRx_ok _ _ h
    · exact h

theorem queueSvc_ok (s : State) (n : Option PortId) (type : BitVec 4) (payload : ℕ) (h : Sound Q s) :
    Sound Q (queueSvc s n type payload) := by
  unfold queueSvc
  repeat' first
    | assumption
    | with_reducible apply updStrap_ok
    | split

theorem becomeReady_ok (s : State) (g : LaneId) (tx : Bool) (h : Sound Q s) : Sound Q (becomeReady s g tx) := by
  unfold becomeReady
  repeat' first
    | assumption
    | with_reducible apply rejoinIfDue_ok
    | with_reducible apply updLane_ok
    | with_reducible apply queueSvc_ok
    | dsimp only
    | split

theorem trainLane_ok (fport : Fin 16) (s : State) (t : LaneTrain) (h : Sound Q s) : Sound Q (trainLane fport s t) := by
  unfold trainLane
  repeat' first
    | assumption
    | rfl
    | with_reducible apply ringFails_ok
    | with_reducible apply updLane_ok
    | with_reducible apply setRing_ok
    | with_reducible apply becomeReady_ok
    | with_reducible apply raiseOpen_ok
    | dsimp only
    | split
    | with_reducible refine Sound.lit ?_ ?_ ?_

theorem farLight_ok (s : State) (fport : Fin 16) (lanes : List LaneTrain) (h : Sound Q s) : Sound Q (farLight s fport lanes) := by
  unfold farLight
  repeat' first
    | assumption
    | rfl
    | with_reducible apply recount_ok
    | with_reducible apply trainLane_ok
    | refine foldl_sound ?_ ?_
    | dsimp only
    | with_reducible refine Sound.lit ?_ ?_ ?_

theorem combEvent_ok (s : State) (h : Sound Q s) : Sound Q (combEvent s) := by
  unfold combEvent
  repeat' first
    | assumption
    | rfl
    | with_reducible apply raiseOpen_ok
    | dsimp only
    | with_reducible refine Sound.lit ?_ ?_ ?_

theorem combDark_ok (s : State) (c : Fin 5) (h : Sound Q s) : Sound Q (combDark s c) := by
  unfold combDark
  repeat' first
    | assumption
    | rfl
    | dsimp only
    | split
    | with_reducible refine Sound.lit ?_ ?_ ?_

theorem lightEngine_ok (s : State) (e : ℕ) (on : Bool) (h : Sound Q s) : Sound Q (lightEngine s e on) := by
  unfold lightEngine
  repeat' first
    | assumption
    | rfl
    | dsimp only
    | split
    | with_reducible refine Sound.lit ?_ ?_ ?_

theorem takeOutRx_ok (s : State) (g : LaneId) (h : Sound Q s) : Sound Q (takeOutRx s g) := by
  unfold takeOutRx
  split
  · exact h
  · extract_lets s1
    have h1 : Sound Q s1 := recount_ok _ (countRemoved_ok _ (updLane_ok _ _ _ h))
    clear_value s1
    exact queueSvc_ok _ _ _ _ h1

theorem engineOut_ok (s : State) (e : Nat) (h : Sound Q s) : Sound Q (engineOut s e) :=
  foldl_sound h fun _ _ ht => takeOutRx_ok _ _ (takeOutTx_ok _ _ ht)

theorem engineDark_ok (s : State) (e : ℕ) (h : Sound Q s) : Sound Q (engineDark s e) := by
  unfold engineDark
  repeat' first
    | assumption
    | with_reducible apply lightEngine_ok
    | with_reducible apply engineOut_ok

theorem combFails_ok (s : State) (c : Fin 5) (h : Sound Q s) : Sound Q (combFails s c) := by
  unfold combFails
  repeat' first
    | assumption
    | rfl
    | with_reducible apply combEvent_ok
    | with_reducible apply combDark_ok
    | with_reducible apply engineDark_ok
    | dsimp only
    | split
    | with_reducible refine Sound.lit ?_ ?_ ?_

theorem execCombFailure_ok (comb : Fin 5) (s : State) (h : Sound Q s) : outOk Q (execCombFailure comb s) :=
  outOk_next (combFails_ok _ _ h)

theorem reprogram_ok (s : State) (h : Sound Q s) : Sound Q (reprogram s) := by
  unfold reprogram
  repeat' first
    | assumption
    | rfl
    | dsimp only
    | split
    | with_reducible refine Sound.lit ?_ ?_ ?_

theorem execBuckleReprogram_ok (s : State) (h : Sound Q s) : outOk Q (execBuckleReprogram s) := outOk_next (reprogram_ok _ h)

theorem execLaneRejoin_ok (g : LaneId) (tx : Bool) (s : State) (h : Sound Q s) : outOk Q (execLaneRejoin g tx s) := by
  refine outOk_next ?_
  split
  · split
    · exact rejoinTx_ok _ _ (updLane_ok _ _ _ h)
    · exact h
  · split
    · exact rejoinRx_ok _ _ (updLane_ok _ _ _ h)
    · exact h

theorem sweepEnds_ok (s : State) (g : LaneId) (tx found : Bool) (h : Sound Q s) : Sound Q (sweepEnds s g tx found) := by
  unfold sweepEnds
  repeat' first
    | assumption
    | with_reducible apply updLane_ok
    | with_reducible apply setRing_ok
    | with_reducible apply ringFails_ok
    | dsimp only
    | split

theorem execFarLightArrival_ok (fport : Fin 16) (lanes : List LaneTrain) (s : State) (h : Sound Q s) :
    outOk Q (execFarLightArrival fport lanes s) :=
  outOk_next (farLight_ok _ _ _ h)

theorem execFrameSend_ok (port : PortId) (s : State) (h : Sound Q s) : outOk Q (execFrameSend port s) := by
  refine outOk_next ?_
  split
  · split
    · exact resumeIfDone_ok _ _ (sendFrame_ok _ _ _ h)
    · exact h
  · exact countStalls_ok _ _ (sendFrame_ok _ _ _ h)

theorem retrainLane_ok (s : State) (g : LaneId) (h : Sound Q s) : Sound Q (retrainLane s g) := by
  unfold retrainLane
  repeat' first
    | assumption
    | with_reducible apply updLane_ok
    | with_reducible apply startSweep_ok

theorem execReady_ok (port : PortId) (g : LaneId) (s : State) (h : Sound Q s) : outOk Q (execReady port g s) := by
  unfold execReady
  repeat' first
    | assumption
    | with_reducible apply outOk_next
    | with_reducible apply rejoinIfDue_ok
    | with_reducible apply updLane_ok
    | split

theorem feedForward_ok (s : State) (temps : List Temp) (h : Sound Q s) : Sound Q (feedForward s temps) := by
  unfold feedForward
  repeat' first
    | assumption
    | rfl
    | dsimp only
    | with_reducible refine Sound.lit ?_ ?_ ?_

theorem setWords_ok (s : State) (g : LaneId) (tx : Bool) (good other : ℕ) (h : Sound Q s) :
    Sound Q (setWords s g tx good other) := by
  unfold setWords
  repeat' first
    | assumption
    | with_reducible apply updLane_ok

theorem takeOut_ok (s : State) (g : LaneId) (tx : Bool) (h : Sound Q s) : Sound Q (takeOut s g tx) := by
  unfold takeOut
  split
  · exact takeOutTx_ok _ _ h
  · exact takeOutRx_ok _ _ h

theorem mislock_ok (s : State) (g : LaneId) (tx : Bool) (w : W16) (h : Sound Q s) : Sound Q (mislock s g tx w) := by
  unfold mislock
  repeat' first
    | assumption
    | rfl
    | with_reducible apply updLane_ok
    | with_reducible apply raiseEvent_ok
    | with_reducible apply startSweep_ok
    | with_reducible apply takeOut_ok
    | dsimp only
    | with_reducible refine Sound.lit ?_ ?_ ?_

theorem pilotWord_ok (s : State) (g : LaneId) (tx : Bool) (w : W16) (h : Sound Q s) : Sound Q (pilotWord s g tx w) := by
  unfold pilotWord
  repeat' first
    | assumption
    | with_reducible apply becomeReady_ok
    | with_reducible apply setRing_ok
    | with_reducible apply setWords_ok
    | with_reducible apply mislock_ok
    | dsimp only
    | split

theorem execHeaterFeedforward_ok (temps : List Temp) (s : State) (h : Sound Q s) : outOk Q (execHeaterFeedforward temps s) :=
  outOk_next (feedForward_ok _ _ h)

theorem spareLocks_ok (s : State) (h : Sound Q s) : Sound Q (spareLocks s) := by
  unfold spareLocks
  split
  · exact foldl_sound (lightEngine_ok _ _ _ (h.lit rfl rfl)) fun t g ht => retrainLane_ok _ _ ht
  · exact h

theorem execSwitchMarker_ok (plan : Fin 8) (s : State) (h : Sound Q s) : outOk Q (execSwitchMarker plan s) :=
  outOk_next (triggerSwitch_ok _ _ h)

theorem execPilotWord_ok (g : LaneId) (tx : Bool) (word : W16) (s : State) (h : Sound Q s) :
    outOk Q (execPilotWord g tx word s) :=
  outOk_next (pilotWord_ok _ _ _ _ h)

theorem pilotGone_ok (s : State) (g : LaneId) (tx : Bool) (h : Sound Q s) : Sound Q (pilotGone s g tx) := by
  unfold pilotGone
  repeat' first
    | assumption
    | rfl
    | with_reducible apply startSweep_ok
    | with_reducible apply takeOut_ok
    | dsimp only
    | split
    | with_reducible refine Sound.lit ?_ ?_ ?_

theorem execPilotLost_ok (g : LaneId) (tx : Bool) (s : State) (h : Sound Q s) : outOk Q (execPilotLost g tx s) :=
  outOk_next (pilotGone_ok _ _ _ h)

theorem sendMarker_ok (s : State) (n : PortId) (g : LaneId) (k : Fin 8) (h : Sound Q s) : Sound Q (sendMarker s n g k) := by
  unfold sendMarker
  repeat' first
    | assumption
    | with_reducible apply sayFrame_ok
    | with_reducible apply updStrap_ok

theorem beginSwitch_ok (s : State) (k : Fin 8) (h : Sound Q s) : Sound Q (beginSwitch s k) := by
  unfold beginSwitch
  split
  · extract_lets u1 s1
    have h1 : Sound Q s1 := h.lit rfl rfl
    clear_value s1
    exact foldl_sound h1 fun t n ht => foldl_sound ht fun u g hu => foldl_sound hu fun v _ hv =>
      State.say_ok _ _ (spendCounter_ok _ _ (updStrap_ok _ _ _ hv))
  · exact h

theorem execSpareCombLock_ok (s : State) (h : Sound Q s) : outOk Q (execSpareCombLock s) := outOk_next (spareLocks_ok _ h)

theorem execRingSweepEnd_ok (g : LaneId) (tx found : Bool) (s : State) (h : Sound Q s) :
    outOk Q (execRingSweepEnd g tx found s) :=
  outOk_next (sweepEnds_ok _ _ _ _ h)

theorem execPlanSwitch_ok (plan : Fin 8) (s : State) (h : Sound Q s) : outOk Q (execPlanSwitch plan s) :=
  outOk_next (beginSwitch_ok _ _ h)

theorem ringLoops_ok (s : State) (h : Sound Q s) : Sound Q (ringLoops s) := by
  unfold ringLoops
  repeat' first
    | assumption
    | rfl
    | dsimp only
    | with_reducible refine Sound.lit ?_ ?_ ?_

theorem passTick_ok (s : State) (h : Sound Q s) : Sound Q (passTick s) := by
  unfold passTick
  repeat' first
    | assumption
    | rfl
    | with_reducible apply ringLoops_ok
    | dsimp only
    | split
    | with_reducible refine Sound.lit ?_ ?_ ?_

theorem execSwitchDone_ok (port : PortId) (plan : Fin 8) (s : State) (h : Sound Q s) : outOk Q (execSwitchDone port plan s) := by
  unfold execSwitchDone
  repeat' first
    | assumption
    | with_reducible apply outOk_next
    | with_reducible apply resumeIfDone_ok
    | with_reducible apply updStrap_ok
    | dsimp only
    | split

/-! ## Discovery -/

theorem updDisc_ok (s : State) (f : Disc → Disc) (h : Sound Q s) : Sound Q (updDisc s f) := by
  unfold updDisc
  repeat' first
    | assumption
    | rfl
    | with_reducible refine Sound.lit ?_ ?_ ?_

theorem updLink_ok (s : State) (p : Fin 16) (f : DiscLink → DiscLink) (h : Sound Q s) : Sound Q (updLink s p f) := by
  unfold updLink
  repeat' first
    | assumption
    | with_reducible apply updDisc_ok

theorem sendMsg_ok (s : State) (p : Fin 16) (m : DiscMsg) (h : Sound Q s) : Sound Q (sendMsg s p m) := by
  unfold sendMsg
  repeat' first
    | assumption
    | with_reducible apply updLink_ok
    | with_reducible apply State.say_ok

theorem sendOn_ok (s : State) (d : Decl) (n : ℕ) (kind : Fin 4) (g : DiscMsg → DiscMsg) (h : Sound Q s) :
    Sound Q (sendOn s d n kind g) := by
  unfold sendOn
  repeat' first
    | assumption
    | with_reducible apply updLink_ok
    | with_reducible apply sendMsg_ok
    | split

theorem takePlace_ok (s : State) (d : Decl) (cs : List ℕ) (h : Sound Q s) : Sound Q (takePlace s d cs) := by
  unfold takePlace
  repeat' first
    | assumption
    | rfl
    | dsimp only
    | with_reducible refine Sound.lit ?_ ?_ ?_

theorem sendPlans_ok (s : State) (d : Decl) (h : Sound Q s) : Sound Q (sendPlans s d) := by
  unfold sendPlans
  repeat' first
    | assumption
    | with_reducible apply emit_ok
    | refine foldl_sound ?_ ?_
    | intro _

theorem endDiscovery_ok (s : State) (d : Decl) (result total : ℕ) (h : Sound Q s) : Sound Q (endDiscovery s d result total) := by
  unfold endDiscovery
  repeat' first
    | assumption
    | rfl
    | with_reducible apply updDisc_ok
    | with_reducible apply takePlace_ok
    | with_reducible apply finishDesc_ok
    | with_reducible apply sendPlans_ok
    | dsimp only
    | split
    | with_reducible refine Sound.lit ?_ ?_ ?_

theorem downAndAct_ok (s : State) (d : Decl) (cs : List ℕ) (result total : ℕ) (h : Sound Q s) :
    Sound Q (downAndAct s d cs result total) := by
  unfold downAndAct
  repeat' first
    | assumption
    | with_reducible apply sendOn_ok
    | with_reducible apply endDiscovery_ok
    | with_reducible apply updDisc_ok
    | refine foldl_sound ?_ ?_
    | intro _

theorem discRepeats_ok (s : State) (p : Fin 16) (h : Sound Q s) : Sound Q (discRepeats s p) := by
  unfold discRepeats
  repeat' first
    | assumption
    | with_reducible apply sendMsg_ok
    | dsimp only
    | split

theorem execDiscRepeat_ok (port : Fin 16) (s : State) (h : Sound Q s) : outOk Q (execDiscRepeat port s) :=
  outOk_next (discRepeats_ok _ _ h)

theorem discArrives_ok (s : State) (p : Packet) (kind : Fin 4) (ack : Bool) (f : DiscMsg → State → State) (h : Sound Q s)
    (hf : ∀ m t, Sound Q t → Sound Q (f m t)) : Sound Q (discArrives s p kind ack f) := by
  refine accepting_ok _ _ _ h fun t ht => ?_
  split
  · split
    · exact hf _ _ ht
    · exact ht
  · exact ht

theorem ackMsg_ok (s : State) (d : Decl) (p : Fin 16) (pk : Packet) (m : DiscMsg) (h : Sound Q s) :
    Sound Q (ackMsg s d p pk m) := by
  unfold ackMsg
  repeat' first
    | assumption
    | with_reducible apply State.say_ok

theorem downArrives_ok (s : State) (p : Fin 16) (pk : Packet) (m : DiscMsg) (h : Sound Q s) : Sound Q (downArrives s p pk m) := by
  unfold downArrives
  repeat' first
    | assumption
    | with_reducible apply ackMsg_ok
    | with_reducible apply downAndAct_ok
    | dsimp only
    | split

theorem execDown_ok (port : Fin 16) (p : Packet) (s : State) (h : Sound Q s) : outOk Q (execDown port p s) := by
  unfold execDown
  repeat' first
    | assumption
    | with_reducible apply outOk_next
    | with_reducible apply discArrives_ok
    | with_reducible apply downArrives_ok
    | intro _

theorem reportPlans_ok (s : State) (port : PortId) (p : Packet) (h : Sound Q s) : Sound Q (reportPlans s port p) := by
  unfold reportPlans
  repeat' first
    | assumption
    | rfl
    | with_reducible apply State.say_ok
    | refine foldl_sound ?_ ?_
    | intro _
    | dsimp only
    | with_reducible refine Sound.lit ?_ ?_ ?_

theorem planArrives_ok (s : State) (port : PortId) (p : Packet) (h : Sound Q s) : Sound Q (planArrives s port p) := by
  unfold planArrives
  repeat' first
    | assumption
    | rfl
    | with_reducible apply reportPlans_ok
    | dsimp only
    | split
    | with_reducible refine Sound.lit ?_ ?_ ?_

theorem execPlan_ok (port : PortId) (p : Packet) (s : State) (h : Sound Q s) : outOk Q (execPlan port p s) := by
  unfold execPlan
  repeat' first
    | assumption
    | with_reducible apply outOk_next
    | with_reducible apply accepting_ok
    | with_reducible apply planArrives_ok
    | intro _

theorem flagCode_ok (s : State) (code : ℕ) (p : Option (Fin 16)) (h : Sound Q s) : Sound Q (flagCode s code p) := by
  unfold flagCode
  repeat' first
    | assumption
    | with_reducible apply updDisc_ok

theorem progress_ok (s : State) (h : Sound Q s) : Sound Q (progress s) := by
  unfold progress
  repeat' first
    | assumption
    | with_reducible apply flagCode_ok
    | with_reducible apply downAndAct_ok
    | with_reducible apply sendOn_ok
    | dsimp only
    | split

theorem discAcked_ok (s : State) (p : Fin 16) (m : DiscMsg) (h : Sound Q s) : Sound Q (discAcked s p m) := by
  unfold discAcked
  repeat' first
    | assumption
    | with_reducible apply updLink_ok
    | with_reducible apply progress_ok
    | with_reducible apply flagCode_ok
    | dsimp only
    | split

theorem sendCoords_ok (s : State) (d : Decl) (h : Sound Q s) : Sound Q (sendCoords s d) := by
  unfold sendCoords
  repeat' first
    | assumption
    | with_reducible apply sendOn_ok
    | refine foldl_sound ?_ ?_
    | intro _

theorem takeCoords_ok (s : State) (d : Decl) (cs : List ℕ) (h : Sound Q s) : Sound Q (takeCoords s d cs) := by
  unfold takeCoords
  repeat' first
    | assumption
    | with_reducible apply sendCoords_ok
    | with_reducible apply updDisc_ok

theorem supersede_ok (s : State) (h : Sound Q s) : Sound Q (supersede s) := by
  unfold supersede
  repeat' first
    | assumption
    | with_reducible apply updDisc_ok
    | with_reducible apply finishDesc_ok
    | split

theorem coordArrives_ok (s : State) (p : Fin 16) (pk : Packet) (m : DiscMsg) (h : Sound Q s) :
    Sound Q (coordArrives s p pk m) := by
  unfold coordArrives
  repeat' first
    | assumption
    | with_reducible apply ackMsg_ok
    | with_reducible apply updLink_ok
    | with_reducible apply takeCoords_ok
    | with_reducible apply progress_ok
    | with_reducible apply flagCode_ok
    | dsimp only
    | split

theorem trainingMap_ok (s : State) (h : Sound Q s) : Sound Q (trainingMap s) := by
  unfold trainingMap
  extract_lets map
  clear_value map
  exact recount_ok _ (h.lit rfl rfl)

theorem execCoord_ok (port : Fin 16) (p : Packet) (s : State) (h : Sound Q s) : outOk Q (execCoord port p s) := by
  unfold execCoord
  repeat' first
    | assumption
    | with_reducible apply outOk_next
    | with_reducible apply discArrives_ok
    | with_reducible apply coordArrives_ok
    | intro _

theorem upArrives_ok (s : State) (p : Fin 16) (pk : Packet) (m : DiscMsg) (h : Sound Q s) : Sound Q (upArrives s p pk m) := by
  unfold upArrives
  repeat' first
    | assumption
    | with_reducible apply ackMsg_ok
    | with_reducible apply progress_ok
    | with_reducible apply updDisc_ok
    | with_reducible apply updLink_ok
    | dsimp only
    | split

theorem execUp_ok (port : Fin 16) (p : Packet) (s : State) (h : Sound Q s) : outOk Q (execUp port p s) := by
  unfold execUp
  repeat' first
    | assumption
    | with_reducible apply outOk_next
    | with_reducible apply discArrives_ok
    | with_reducible apply upArrives_ok
    | intro _

theorem helloArrives_ok (s : State) (p : Fin 16) (pk : Packet) (m : DiscMsg) (h : Sound Q s) :
    Sound Q (helloArrives s p pk m) := by
  unfold helloArrives
  repeat' first
    | assumption
    | with_reducible apply ackMsg_ok
    | with_reducible apply updLink_ok
    | with_reducible apply progress_ok
    | with_reducible apply flagCode_ok
    | dsimp only
    | split

theorem execHello_ok (port : Fin 16) (p : Packet) (s : State) (h : Sound Q s) : outOk Q (execHello port p s) := by
  unfold execHello
  repeat' first
    | assumption
    | with_reducible apply outOk_next
    | with_reducible apply discArrives_ok
    | with_reducible apply helloArrives_ok
    | intro _

theorem execDiscoveryTimeout_ok (s : State) (h : Sound Q s) : outOk Q (execDiscoveryTimeout s) := by
  unfold execDiscoveryTimeout
  repeat' first
    | assumption
    | with_reducible apply outOk_next
    | with_reducible apply endDiscovery_ok
    | split

theorem startDiscovery_ok (s : State) (ring : RingId) (idx : W16) (data : List Byte) (h : Sound Q s) :
    Sound Q (startDiscovery s ring idx data) := by
  unfold startDiscovery
  repeat' first
    | assumption
    | rfl
    | with_reducible apply supersede_ok
    | with_reducible apply updDisc_ok
    | with_reducible apply endDiscovery_ok
    | with_reducible apply sendMsg_ok
    | with_reducible apply trainingMap_ok
    | with_reducible apply progress_ok
    | with_reducible apply takeCoords_ok
    | refine foldl_sound ?_ ?_
    | intro _
    | dsimp only
    | split
    | with_reducible refine Sound.lit ?_ ?_ ?_

theorem execDiscAck_ok (port : Fin 16) (p : Packet) (s : State) (h : Sound Q s) : outOk Q (execDiscAck port p s) := by
  unfold execDiscAck
  repeat' first
    | assumption
    | with_reducible apply outOk_next
    | with_reducible apply accepting_ok
    | with_reducible apply discAcked_ok
    | intro _
    | split

end Sys2Proof.Machine
end

