-- ==== Sys2Proof/Laws/SoundHost.lean ====
section
/-! SUPPORT. Every operation keeps the byte stores in canonical form: the host link, the job, faults, boot and loading. -/

namespace Sys2Proof.Machine

variable {Q : List Instr}

/-! ## HostLink -/

theorem updHlk_ok (s : State) (f : Hlk → Hlk) (h : Sound Q s) : Sound Q (updHlk s f) := by
  unfold updHlk
  repeat' first
    | assumption
    | rfl
    | with_reducible refine Sound.lit ?_ ?_ ?_

theorem badDoorbell_ok (s : State) (h : Sound Q s) : Sound Q (badDoorbell s) := by
  unfold badDoorbell
  repeat' first
    | assumption
    | with_reducible apply updHlk_ok

theorem updRing_ok (s : State) (r : RingId) (f : Ring → Ring) (h : Sound Q s) : Sound Q (updRing s r f) := by
  unfold updRing
  repeat' first
    | assumption
    | with_reducible apply updHlk_ok

theorem cqDoorbell_ok (s : State) (ring : RingId) (value : W16) (width32 : Bool) (h : Sound Q s) :
    Sound Q (cqDoorbell s ring value width32) := by
  unfold cqDoorbell
  repeat' first
    | assumption
    | with_reducible apply updRing_ok
    | with_reducible apply badDoorbell_ok
    | dsimp only
    | split

theorem execCqHeadDoorbell_ok (ring : RingId) (value : W16) (width32 : Bool) (s : State) (h : Sound Q s) :
    outOk Q (execCqHeadDoorbell ring value width32 s) := by
  unfold execCqHeadDoorbell
  repeat' first
    | assumption
    | with_reducible apply outOk_next
    | with_reducible apply cqDoorbell_ok
    | with_reducible apply State.unlatch_ok

theorem sqDoorbell_ok (s : State) (ring : RingId) (value : W16) (width32 : Bool) (h : Sound Q s) :
    Sound Q (sqDoorbell s ring value width32) := by
  unfold sqDoorbell
  repeat' first
    | assumption
    | with_reducible apply updRing_ok
    | with_reducible apply badDoorbell_ok
    | dsimp only
    | split

theorem ringDoorbell_ok (s : State) (ring : RingId) (o : ℕ) (value : W16) (width32 : Bool) (h : Sound Q s) :
    Sound Q (ringDoorbell s ring o value width32) := by
  unfold ringDoorbell
  repeat' first
    | assumption
    | with_reducible apply sqDoorbell_ok
    | with_reducible apply cqDoorbell_ok
    | split

theorem openBlock_ok (s : State) (addr op n : Nat) (blk : List Byte) (h : Sound Q s) : Sound Q (openBlock s addr op n blk).1 := by
  unfold openBlock
  extract_lets ct tr c u fail
  have hf : Sound Q fail.1 := h.lit rfl rfl
  clear_value fail
  split
  · exact hf
  · split
    · exact hf
    · exact h.lit rfl rfl

theorem fromHostAux_ok (addr : Option Nat) (op n i : Nat) (s : State) (m : Nat) (data acc : List Byte) (h : Sound Q s) :
    Sound Q (fromHostAux addr op n i s m data acc).1 := by
  induction n generalizing i s m data acc with
  | zero => exact h
  | succ n ih =>
    unfold fromHostAux
    split
    · exact h
    · extract_lets m'
      clear_value m'
      generalize hx : openBlock _ _ _ _ _ = x
      have ho : Sound Q x.1 := hx ▸ openBlock_ok _ _ _ _ _ h
      obtain ⟨s1, o⟩ := x
      cases o with
      | none => exact ho
      | some pt => exact ih _ _ _ _ _ ho

theorem fromHost_ok (s : State) (addr : Option ℕ) (op n : ℕ) (data : List Byte) (h : Sound Q s) :
    Sound Q (fromHost s addr op n data).1 := by
  unfold fromHost
  repeat' first
    | assumption
    | with_reducible apply fromHostAux_ok
    | split

theorem doneDesc_ok (s : State) (ring : RingId) (idx : W16) (b : ℕ) (h : Sound Q s) : Sound Q (doneDesc s ring idx b) := by
  unfold doneDesc
  repeat' first
    | assumption
    | with_reducible apply finishDesc_ok

theorem htod_ok (s : State) (ring : RingId) (idx : W16) (d : Inflight) (data : List Byte) (hostErr : Bool) (h : Sound Q s) :
    Sound Q (htod s ring idx d data hostErr) := by
  unfold htod
  repeat' first
    | assumption
    | with_reducible apply fromHost_ok
    | with_reducible apply finishDesc_ok
    | with_reducible apply hbmPut_ok
    | with_reducible apply doneDesc_ok
    | dsimp only
    | split

theorem sealBlock_ok (s : State) (addr op : ℕ) (pt : List Byte) (h : Sound Q s) : Sound Q (sealBlock s addr op pt).1 := by
  unfold sealBlock
  repeat' first
    | assumption
    | rfl
    | dsimp only
    | with_reducible refine Sound.lit ?_ ?_ ?_

theorem toHost_ok (s : State) (addr : Option ℕ) (op : ℕ) (data : List Byte) (h : Sound Q s) :
    Sound Q (toHost s addr op data).1 := by
  unfold toHost
  repeat' first
    | assumption
    | with_reducible apply sealBlock_ok
    | refine foldl_fst_sound ?_ ?_
    | intro _
    | dsimp only
    | split

theorem linkGood_ok (s : State) (h : Sound Q s) : Sound Q (linkGood s) := by
  unfold linkGood
  repeat' first
    | assumption
    | with_reducible apply updHlk_ok

theorem runDesc_ok (s : State) (ring : RingId) (idx : W16) (op : Nat) (f : Inflight → State → State) (h : Sound Q s)
    (hf : ∀ d t, Sound Q t → Sound Q (f d t)) : Sound Q (runDesc s ring idx op f) := by
  unfold runDesc
  split
  · exact h
  · split
    · exact h
    · split
      · exact finishDesc_ok _ _ _ _ _ _ _ h
      · refine hf _ _ ?_
        split
        · exact linkGood_ok _ h
        · exact h

theorem execWaitrTimeout_ok (ring : RingId) (idx : W16) (s : State) (h : Sound Q s) : outOk Q (execWaitrTimeout ring idx s) := by
  unfold execWaitrTimeout
  repeat' first
    | assumption
    | with_reducible apply outOk_next
    | with_reducible apply runDesc_ok
    | with_reducible apply doneDesc_ok
    | with_reducible apply finishDesc_ok
    | intro _
    | split

theorem execEventRingDisable_ok (s : State) (h : Sound Q s) : outOk Q (execEventRingDisable s) := by
  unfold execEventRingDisable
  repeat' first
    | assumption
    | with_reducible apply outOk_next
    | with_reducible apply updHlk_ok
    | with_reducible apply State.unlatch_ok

theorem interruptNow_ok (s : State) (ring : RingId) (h : Sound Q s) : Sound Q (interruptNow s ring) := by
  unfold interruptNow
  repeat' first
    | assumption
    | with_reducible apply updRing_ok
    | with_reducible apply State.say_ok

theorem execCoalesceTimeout_ok (ring : RingId) (s : State) (h : Sound Q s) : outOk Q (execCoalesceTimeout ring s) := by
  unfold execCoalesceTimeout
  repeat' first
    | assumption
    | with_reducible apply outOk_next
    | with_reducible apply interruptNow_ok
    | dsimp only
    | split

theorem checkDesc_ok (ring : RingId) (s : State) (d : Inflight) (h : Sound Q s) : Sound Q (checkDesc ring s d) := by
  unfold checkDesc
  repeat' first
    | assumption
    | with_reducible apply finishDesc_ok
    | split

theorem checkAll_ok (ring : RingId) (ds : List Inflight) (s : State) (h : Sound Q s) : Sound Q (checkAll ring ds s) := by
  unfold checkAll
  repeat' first
    | assumption
    | with_reducible apply checkDesc_ok
    | refine foldl_sound ?_ ?_

theorem complete_ok (s : State) (ring : RingId) (idx : W16) (h : Sound Q s) : Sound Q (complete s ring idx) := by
  unfold complete
  repeat' first
    | assumption
    | with_reducible apply State.say_ok
    | with_reducible apply updRing_ok
    | with_reducible apply checkAll_ok
    | with_reducible apply interruptNow_ok
    | dsimp only
    | split

theorem execDescriptorComplete_ok (ring : RingId) (idx : W16) (s : State) (h : Sound Q s) :
    outOk Q (execDescriptorComplete ring idx s) :=
  outOk_next (complete_ok _ _ _ h)

theorem eventDoorbell_ok (s : State) (value : W16) (width32 : Bool) (h : Sound Q s) :
    Sound Q (eventDoorbell s value width32) := by
  unfold eventDoorbell
  repeat' first
    | assumption
    | with_reducible apply updHlk_ok
    | with_reducible apply badDoorbell_ok
    | split

theorem execEventHeadDoorbell_ok (value : W16) (width32 : Bool) (s : State) (h : Sound Q s) :
    outOk Q (execEventHeadDoorbell value width32 s) := by
  unfold execEventHeadDoorbell
  repeat' first
    | assumption
    | with_reducible apply outOk_next
    | with_reducible apply eventDoorbell_ok
    | with_reducible apply State.unlatch_ok

theorem flushEvents_ok (s : State) (h : Sound Q s) : Sound Q (flushEvents s) := by
  unfold flushEvents
  repeat' first
    | assumption
    | with_reducible apply writeEvent_ok
    | with_reducible apply updHlk_ok
    | refine foldl_sound ?_ ?_

theorem comeUp_ok (s : State) (lanes : ℕ) (h : Sound Q s) : Sound Q (comeUp s lanes) := by
  unfold comeUp
  repeat' first
    | assumption
    | with_reducible apply updHlk_ok
    | with_reducible apply flushEvents_ok
    | with_reducible apply finishDesc_ok
    | refine foldl_sound ?_ ?_
    | intro _
    | dsimp only
    | split

theorem execLinkRetrain_ok (lanes : ℕ) (s : State) (h : Sound Q s) : outOk Q (execLinkRetrain lanes s) :=
  outOk_next (comeUp_ok _ _ h)

theorem goDown_ok (s : State) (h : Sound Q s) : Sound Q (goDown s) := by
  unfold goDown
  repeat' first
    | assumption
    | with_reducible apply updHlk_ok

theorem execLinkFrameAuthFail_ok (s : State) (h : Sound Q s) : outOk Q (execLinkFrameAuthFail s) := by
  unfold execLinkFrameAuthFail
  repeat' first
    | assumption
    | rfl
    | with_reducible apply outOk_next
    | with_reducible apply goDown_ok
    | with_reducible apply updHlk_ok
    | dsimp only
    | split
    | with_reducible refine Sound.lit ?_ ?_ ?_

theorem execLinkDown_ok (s : State) (h : Sound Q s) : outOk Q (execLinkDown s) := by
  unfold execLinkDown
  repeat' first
    | assumption
    | with_reducible apply outOk_next
    | with_reducible apply goDown_ok
    | split

theorem execSqTailDoorbell_ok (ring : RingId) (value : W16) (width32 : Bool) (s : State) (h : Sound Q s) :
    outOk Q (execSqTailDoorbell ring value width32 s) := by
  unfold execSqTailDoorbell
  repeat' first
    | assumption
    | with_reducible apply outOk_next
    | with_reducible apply sqDoorbell_ok
    | with_reducible apply State.unlatch_ok

theorem checkAhead_ok (s : State) (ring : RingId) (d : Inflight) (h : Sound Q s) : Sound Q (checkAhead s ring d) := by
  unfold checkAhead
  repeat' first
    | assumption
    | with_reducible apply finishDesc_ok
    | split

theorem fetch_ok (s : State) (ring : RingId) (data : List Byte) (h : Sound Q s) : Sound Q (fetch s ring data) := by
  unfold fetch
  repeat' first
    | assumption
    | with_reducible apply updRing_ok
    | with_reducible apply linkGood_ok
    | with_reducible apply updHlk_ok
    | with_reducible apply checkDesc_ok
    | with_reducible apply checkAhead_ok
    | dsimp only
    | split

theorem execDescriptorFetch_ok (ring : RingId) (data : List Byte) (s : State) (h : Sound Q s) :
    outOk Q (execDescriptorFetch ring data s) :=
  outOk_next (fetch_ok _ _ _ h)

theorem execHtod_ok (ring : RingId) (idx : W16) (data : List Byte) (hostErr : Bool) (s : State) (h : Sound Q s) :
    outOk Q (execHtod ring idx data hostErr s) := by
  unfold execHtod
  repeat' first
    | assumption
    | with_reducible apply outOk_next
    | with_reducible apply runDesc_ok
    | with_reducible apply htod_ok
    | intro _

theorem begun_ok (s : State) (ring : RingId) (idx : W16) (h : Sound Q s) : Sound Q (begun s ring idx) := by
  unfold begun
  repeat' first
    | assumption
    | with_reducible apply updRing_ok

theorem execNop_ok (ring : RingId) (idx : W16) (s : State) (h : Sound Q s) : outOk Q (execNop ring idx s) := by
  unfold execNop
  repeat' first
    | assumption
    | with_reducible apply outOk_next
    | with_reducible apply runDesc_ok
    | with_reducible apply doneDesc_ok
    | intro _

theorem dtoh_ok (s : State) (ring : RingId) (idx : W16) (d : Inflight) (hostErr : Bool) (h : Sound Q s) :
    Sound Q (dtoh s ring idx d hostErr) := by
  unfold dtoh
  repeat' first
    | assumption
    | with_reducible apply consume_ok
    | with_reducible apply finishDesc_ok
    | with_reducible apply toHost_ok
    | with_reducible apply State.say_ok
    | with_reducible apply doneDesc_ok
    | dsimp only
    | split

theorem execDtoh_ok (ring : RingId) (idx : W16) (hostErr : Bool) (s : State) (h : Sound Q s) :
    outOk Q (execDtoh ring idx hostErr s) := by
  unfold execDtoh
  repeat' first
    | assumption
    | with_reducible apply outOk_next
    | with_reducible apply runDesc_ok
    | with_reducible apply dtoh_ok
    | intro _

theorem execEventRingEnable_ok (value : W32) (s : State) (h : Sound Q s) : outOk Q (execEventRingEnable value s) := by
  unfold execEventRingEnable
  repeat' first
    | assumption
    | with_reducible apply outOk_next
    | with_reducible apply updHlk_ok
    | with_reducible apply State.unlatch_ok

theorem execRingEnable_ok (ring : RingId) (value : W64) (s : State) (h : Sound Q s) : outOk Q (execRingEnable ring value s) := by
  unfold execRingEnable
  repeat' first
    | assumption
    | with_reducible apply outOk_next
    | with_reducible apply updRing_ok
    | with_reducible apply State.unlatch_ok

theorem execRingDisable_ok (ring : RingId) (s : State) (h : Sound Q s) : outOk Q (execRingDisable ring s) := by
  unfold execRingDisable
  repeat' first
    | assumption
    | with_reducible apply outOk_next
    | with_reducible apply updRing_ok
    | with_reducible apply State.unlatch_ok

theorem execWaitr_ok (ring : RingId) (idx : W16) (s : State) (h : Sound Q s) : outOk Q (execWaitr ring idx s) := by
  unfold execWaitr
  repeat' first
    | assumption
    | with_reducible apply outOk_next
    | with_reducible apply runDesc_ok
    | with_reducible apply doneDesc_ok
    | intro _
    | split

/-! ## RegRead -/

theorem publish_ok (s : State) (h : Sound Q s) : Sound Q (publish s) := by
  unfold publish
  repeat' first
    | assumption
    | rfl
    | dsimp only
    | split
    | with_reducible refine Sound.lit ?_ ?_ ?_

theorem execCounterPublish_ok (s : State) (h : Sound Q s) : outOk Q (execCounterPublish s) := outOk_next (publish_ok _ h)

/-! ## Job -/

theorem respondMgmt_ok (s : State) (ring : RingId) (idx : W16) (d : Inflight) (err : Bool) (n : Nat) (f : State → State × List Byte)
    (h : Sound Q s) (hf : Sound Q (f s).1) : Sound Q (respondMgmt s ring idx d err n f) := by
  unfold respondMgmt
  split
  · exact finishDesc_ok _ _ _ _ _ _ _ h
  · extract_lets x y
    have hy : Sound Q y.1 := toHost_ok _ _ _ _ hf
    clear_value y
    split
    · exact finishDesc_ok _ _ _ _ _ _ _ hy
    · exact doneDesc_ok _ _ _ _ (State.say_ok _ _ hy)

theorem mgmt_ok (s : State) (ring : RingId) (idx : W16) (sub : Nat) (request : List Byte) (failed : Option HostAccess)
    (f : State → List Byte → Answer) (h : Sound Q s)
    (hf : ∀ t r n g, f t r = .give n g → ∀ u, Sound Q u → Sound Q (g u).1) : Sound Q (mgmt s ring idx sub request failed f) := by
  unfold mgmt
  refine runDesc_ok _ _ _ _ _ h fun d t ht => ?_
  split
  · exact ht
  · split
    · exact finishDesc_ok _ _ _ _ _ _ _ ht
    · split
      · exact finishDesc_ok _ _ _ _ _ _ _ ht
      · have hx := fromHost_ok t none 0x30 d.reqLen request ht
        extract_lets x
        change Sound Q x.1 at hx
        clear_value x
        split
        · exact finishDesc_ok _ _ _ _ _ _ _ hx
        · split
          · exact finishDesc_ok _ _ _ _ _ _ _ hx
          · exact ht
          · rename_i e; exact respondMgmt_ok _ _ _ _ _ _ _ hx (hf _ _ _ _ e _ hx)

theorem execMgmtDumpRead_ok (ring : RingId) (idx : W16) (request : List Byte) (failed : Option HostAccess) (s : State) (h : Sound Q s) :
    outOk Q (execMgmtDumpRead ring idx request failed s) := by
  refine outOk_next (mgmt_ok _ _ _ _ _ _ _ h fun t r n g e u hu => ?_)
  unfold dumpAnswer at e
  dsimp only at e
  split at e
  · cases e
  · split at e
    · cases e
    · split at e
      · cases e
      · cases e; exact hu

theorem stepDesc_ok (s : State) (ring : RingId) (idx : W16) (action : Nat) (f : State → State) (h : Sound Q s)
    (hf : ∀ t, Sound Q t → Sound Q (f t)) : Sound Q (stepDesc s ring idx action f) := by
  unfold stepDesc
  refine runDesc_ok _ _ _ _ _ h fun d t ht => ?_
  split
  · exact hf _ ht
  · exact ht

theorem setDrain_ok (s : State) (b step : Bool) (h : Sound Q s) : Sound Q (setDrain s b step) := by
  unfold setDrain
  repeat' first
    | assumption
    | rfl
    | dsimp only
    | split
    | with_reducible refine Sound.lit ?_ ?_ ?_

theorem execDrainClear_ok (ring : RingId) (idx : W16) (s : State) (h : Sound Q s) : outOk Q (execDrainClear ring idx s) := by
  unfold execDrainClear
  repeat' first
    | assumption
    | with_reducible apply outOk_next
    | with_reducible apply stepDesc_ok
    | with_reducible apply doneDesc_ok
    | with_reducible apply setDrain_ok
    | intro _

theorem execDrainSet_ok (ring : RingId) (idx : W16) (s : State) (h : Sound Q s) : outOk Q (execDrainSet ring idx s) := by
  unfold execDrainSet
  repeat' first
    | assumption
    | with_reducible apply outOk_next
    | with_reducible apply stepDesc_ok
    | with_reducible apply doneDesc_ok
    | with_reducible apply setDrain_ok
    | intro _

theorem updJob_ok (s : State) (f : Job → Job) (h : Sound Q s) : Sound Q (updJob s f) := by
  unfold updJob
  repeat' first
    | assumption
    | rfl
    | with_reducible refine Sound.lit ?_ ?_ ?_

theorem Core.release_ok (k : Core) (h : k.Sound) : k.release.Sound := h.emptied rfl rfl rfl

theorem releaseJob_ok (s : State) (h : Sound Q s) : Sound Q (releaseJob s) :=
  (h.mapCores (f := Core.release) fun _ hk => Core.release_ok _ hk).lit rfl rfl

theorem updSec_ok (s : State) (f : Sec → Sec) (h : Sound Q s) : Sound Q (updSec s f) := by
  unfold updSec
  repeat' first
    | assumption
    | rfl
    | with_reducible refine Sound.lit ?_ ?_ ?_

theorem measure_ok (s : State) (r : Fin 3) (type : ℕ) (object : List Byte) (h : Sound Q s) :
    Sound Q (measure s r type object) := by
  unfold measure
  repeat' first
    | assumption
    | with_reducible apply updSec_ok

theorem replayStep_ok (s : State) (ring : RingId) (idx : W16) (h : Sound Q s) : Sound Q (replayStep s ring idx) := by
  unfold replayStep
  repeat' first
    | assumption
    | with_reducible apply updJob_ok
    | with_reducible apply begun_ok
    | with_reducible apply beginStep_ok
    | dsimp only
    | split

theorem signQuote_ok (nonce : List Byte) (s : State) (h : Sound Q s) : Sound Q (signQuote nonce s).1 := by
  unfold signQuote
  repeat' first
    | assumption
    | with_reducible apply updSec_ok

theorem execMgmtAttestationQuote_ok (ring : RingId) (idx : W16) (request : List Byte) (failed : Option HostAccess) (s : State) (h : Sound Q s) :
    outOk Q (execMgmtAttestationQuote ring idx request failed s) := by
  refine outOk_next (mgmt_ok _ _ _ _ _ _ _ h fun t r n g e u hu => ?_)
  unfold quoteAnswer at e
  repeat' split at e
  all_goals cases e
  exact signQuote_ok _ _ hu

theorem startCmd_ok (s : State) (ring : RingId) (idx : W16) (h : Sound Q s) : Sound Q (startCmd s ring idx) := by
  unfold startCmd
  repeat' first
    | assumption
    | with_reducible apply updPwr_ok
    | with_reducible apply begun_ok
    | with_reducible apply finishCinch_ok
    | with_reducible apply cinchEnter_ok
    | dsimp only
    | split

theorem holdStep_ok (s : State) (ring : RingId) (idx : W16) (h : Sound Q s) : Sound Q (holdStep s ring idx) := by
  unfold holdStep
  repeat' first
    | assumption
    | with_reducible apply doneDesc_ok
    | with_reducible apply updJob_ok

theorem teardownCmd_ok (s : State) (ring : RingId) (idx : W16) (h : Sound Q s) : Sound Q (teardownCmd s ring idx) := by
  unfold teardownCmd
  extract_lets s1 s2
  have h1 : Sound Q s1 := quiesce_ok s h
  clear_value s1
  split
  · have h2 : Sound Q s2 := updSec_ok _ _ (releaseJob_ok _ (doneDesc_ok _ _ _ _ h1))
    clear_value s2
    exact h2.lit rfl rfl
  · exact h1

theorem execMgmtTelemetrySnapshot_ok (ring : RingId) (idx : W16) (request : List Byte) (failed : Option HostAccess) (s : State) (h : Sound Q s) :
    outOk Q (execMgmtTelemetrySnapshot ring idx request failed s) := by
  refine outOk_next (mgmt_ok _ _ _ _ _ _ _ h fun t r n g e u hu => ?_)
  cases e; exact hu.lit rfl rfl

theorem releaseStep_ok (s : State) (ring : RingId) (idx : W16) (h : Sound Q s) : Sound Q (releaseStep s ring idx) := by
  unfold releaseStep
  repeat' first
    | assumption
    | with_reducible apply doneDesc_ok
    | with_reducible apply updJob_ok
    | with_reducible apply beginStep_ok
    | dsimp only
    | split

theorem execTeardown_ok (ring : RingId) (idx : W16) (s : State) (h : Sound Q s) : outOk Q (execTeardown ring idx s) := by
  unfold execTeardown
  repeat' first
    | assumption
    | with_reducible apply outOk_next
    | with_reducible apply runDesc_ok
    | with_reducible apply teardownCmd_ok
    | intro _

theorem execMgmtIdentitySnapshot_ok (ring : RingId) (idx : W16) (request : List Byte) (failed : Option HostAccess) (s : State) (h : Sound Q s) :
    outOk Q (execMgmtIdentitySnapshot ring idx request failed s) := by
  refine outOk_next (mgmt_ok _ _ _ _ _ _ _ h fun t r n g e u hu => ?_)
  split at e
  · cases e; exact hu
  · cases e

theorem discoverCmd_ok (s : State) (ring : RingId) (idx : W16) (data : List Byte) (hostErr : Bool) (h : Sound Q s) :
    Sound Q (discoverCmd s ring idx data hostErr) := by
  unfold discoverCmd
  repeat' first
    | assumption
    | with_reducible apply finishDesc_ok
    | with_reducible apply fromHost_ok
    | with_reducible apply begun_ok
    | with_reducible apply startDiscovery_ok
    | with_reducible apply measure_ok
    | dsimp only
    | split

theorem execMgmtBootReport_ok (ring : RingId) (idx : W16) (request : List Byte) (failed : Option HostAccess) (s : State) (h : Sound Q s) :
    outOk Q (execMgmtBootReport ring idx request failed s) := by
  refine outOk_next (mgmt_ok _ _ _ _ _ _ _ h fun t r n g e u hu => ?_)
  split at e
  · cases e; exact hu
  · cases e

theorem execStart_ok (ring : RingId) (idx : W16) (s : State) (h : Sound Q s) : outOk Q (execStart ring idx s) := by
  unfold execStart
  repeat' first
    | assumption
    | with_reducible apply outOk_next
    | with_reducible apply runDesc_ok
    | with_reducible apply startCmd_ok
    | intro _

theorem execStepReplay_ok (ring : RingId) (idx : W16) (s : State) (h : Sound Q s) : outOk Q (execStepReplay ring idx s) := by
  unfold execStepReplay
  repeat' first
    | assumption
    | with_reducible apply outOk_next
    | with_reducible apply stepDesc_ok
    | with_reducible apply replayStep_ok
    | intro _

theorem execDiscover_ok (ring : RingId) (idx : W16) (data : List Byte) (hostErr : Bool) (s : State) (h : Sound Q s) :
    outOk Q (execDiscover ring idx data hostErr s) := by
  unfold execDiscover
  repeat' first
    | assumption
    | with_reducible apply outOk_next
    | with_reducible apply runDesc_ok
    | with_reducible apply discoverCmd_ok
    | intro _

theorem execStepRelease_ok (ring : RingId) (idx : W16) (s : State) (h : Sound Q s) : outOk Q (execStepRelease ring idx s) := by
  unfold execStepRelease
  repeat' first
    | assumption
    | with_reducible apply outOk_next
    | with_reducible apply stepDesc_ok
    | with_reducible apply releaseStep_ok
    | intro _

theorem execStepHold_ok (ring : RingId) (idx : W16) (s : State) (h : Sound Q s) : outOk Q (execStepHold ring idx s) := by
  unfold execStepHold
  repeat' first
    | assumption
    | with_reducible apply outOk_next
    | with_reducible apply stepDesc_ok
    | with_reducible apply holdStep_ok
    | intro _

/-! ## Faults -/

theorem updFlt_ok (s : State) (f : Flt → Flt) (h : Sound Q s) (hf : (f s.flt).log = s.flt.log) : Sound Q (updFlt s f) := h.lit rfl hf

theorem dumpEnds_ok (s : State) (h : Sound Q s) : Sound Q (dumpEnds s) := by
  unfold dumpEnds
  repeat' first
    | assumption
    | rfl
    | with_reducible apply updFlt_ok
    | with_reducible apply State.say_ok
    | dsimp only
    | split
    | with_reducible refine Sound.lit ?_ ?_ ?_

theorem execDumpWritten_ok (s : State) (h : Sound Q s) : outOk Q (execDumpWritten s) := outOk_next (dumpEnds_ok _ h)

theorem wedge_ok (s : State) (h : Sound Q s) : Sound Q (wedge s) := by
  unfold wedge
  repeat' first
    | assumption
    | rfl
    | with_reducible apply updRing_ok
    | with_reducible apply endAdmin_ok
    | dsimp only
    | with_reducible refine Sound.lit ?_ ?_ ?_

theorem watchdog_ok (s : State) (h : Sound Q s) : Sound Q (watchdog s) := by
  unfold watchdog
  refine wedge_ok _ (fatalStop_ok _ ?_)
  split
  · exact updFlt_ok _ _ h rfl
  · exact h

theorem sliceStart_ok (s : State) (c : CoreId) (h : Sound Q s) : Sound Q (sliceStart s c) := by
  unfold sliceStart
  repeat' first
    | assumption
    | rfl
    | with_reducible apply updFlt_ok
    | with_reducible refine Sound.updCore ?_ ?_
    | intro _
    | split
    | with_reducible refine Core.Sound.lit ?_

theorem execBurnishSliceStart_ok (core : CoreId) (s : State) (h : Sound Q s) : outOk Q (execBurnishSliceStart core s) :=
  outOk_next (sliceStart_ok _ _ h)

theorem execDumpValidClear_ok (s : State) (h : Sound Q s) : outOk Q (execDumpValidClear s) := by
  unfold execDumpValidClear
  repeat' first
    | assumption
    | rfl
    | with_reducible apply outOk_next
    | with_reducible apply updFlt_ok
    | with_reducible apply State.unlatch_ok

theorem quiesceFails_ok (s : State) (h : Sound Q s) : Sound Q (quiesceFails s) := by
  unfold quiesceFails
  repeat' first
    | assumption
    | with_reducible apply wedge_ok
    | with_reducible apply logRecord_ok
    | dsimp only
    | split

theorem markSuspect_ok (s : State) (c : CoreId) (h : Sound Q s) : Sound Q (markSuspect s c) := by
  unfold markSuspect
  repeat' first
    | assumption
    | rfl
    | with_reducible apply raiseCode_ok
    | with_reducible apply logRecord_ok
    | with_reducible refine Sound.updCore ?_ ?_
    | intro _
    | dsimp only
    | with_reducible refine Sound.lit ?_ ?_ ?_
    | with_reducible refine Core.Sound.lit ?_

theorem sliceEnd_ok (s : State) (c : CoreId) (mismatch : Bool) (h : Sound Q s) : Sound Q (sliceEnd s c mismatch) := by
  unfold sliceEnd
  repeat' first
    | assumption
    | rfl
    | with_reducible apply updFlt_ok
    | with_reducible apply markSuspect_ok
    | with_reducible refine Sound.updCore ?_ ?_
    | intro _
    | dsimp only
    | split
    | with_reducible refine Core.Sound.lit ?_

theorem execBurnishSliceEnd_ok (core : CoreId) (mismatch : Bool) (s : State) (h : Sound Q s) :
    outOk Q (execBurnishSliceEnd core mismatch s) :=
  outOk_next (sliceEnd_ok _ _ _ h)

theorem poisonBuffer_ok (s : State) (a : ℕ) (h : Sound Q s) : Sound Q (poisonBuffer s a) := by
  unfold poisonBuffer
  repeat' first
    | assumption
    | rfl
    | dsimp only
    | split
    | with_reducible refine Sound.lit ?_ ?_ ?_

theorem Core.poisonPipe_ok (k : Core) (u : ℕ) (h : k.Sound) : (Core.poisonPipe k u).Sound := by
  unfold Core.poisonPipe
  repeat' first
    | assumption
    | dsimp only
    | with_reducible refine Core.Sound.lit ?_

theorem poisonPlace_ok (s : State) (place : ParityPlace) (h : Sound Q s) : Sound Q (poisonPlace s place) := by
  unfold poisonPlace
  repeat' first
    | assumption
    | rfl
    | with_reducible apply Core.poisonPipe_ok
    | with_reducible apply poisonBuffer_ok
    | with_reducible refine Sound.updCore ?_ ?_
    | intro _
    | dsimp only
    | split
    | with_reducible refine Sound.lit ?_ ?_ ?_
    | with_reducible refine Core.Sound.lit ?_

theorem execWatchdogExpiry_ok (s : State) (h : Sound Q s) : outOk Q (execWatchdogExpiry s) := outOk_next (watchdog_ok s h)

theorem execQuiesceTimeout_ok (s : State) (h : Sound Q s) : outOk Q (execQuiesceTimeout s) := outOk_next (quiesceFails_ok _ h)

theorem parity_ok (s : State) (place : ParityPlace) (h : Sound Q s) : Sound Q (parity s place) := by
  unfold parity
  repeat' first
    | assumption
    | rfl
    | with_reducible apply fatal_ok
    | with_reducible apply poisonPlace_ok
    | with_reducible apply updFlt_ok
    | dsimp only
    | split
    | with_reducible refine Sound.lit ?_ ?_ ?_

theorem execParityError_ok (place : ParityPlace) (s : State) (h : Sound Q s) : outOk Q (execParityError place s) :=
  outOk_next (parity_ok _ _ h)

theorem execFaultValidClear_ok (core : CoreId) (recordNow : Bool) (s : State) (h : Sound Q s) :
    outOk Q (execFaultValidClear core recordNow s) := by
  unfold execFaultValidClear
  repeat' first
    | assumption
    | with_reducible apply outOk_next
    | with_reducible apply State.onRails_ok
    | with_reducible refine Sound.updCore ?_ ?_
    | intro _
    | split
    | with_reducible refine Core.Sound.lit ?_

/-! ## Boot -/

theorem holdReset_ok (s : State) (cause : BitVec 3) (powerOn : Bool) (h : Sound Q s) : Sound Q (holdReset s cause powerOn) :=
  ⟨cellsWf_nil, fun c => by simpa [State.core, State.reset, holdReset] using Core.sound_reset, by simp [holdReset, Flt.reset], h.queue⟩

theorem mappedCore_ok (env : BootEnv) (s : State) (n : ℕ) (k : Core) (hs : Sound Q s) (hk : k.Sound) :
    (mappedCore env s n k).Sound := by
  unfold mappedCore
  repeat' first
    | assumption
    | dsimp only
    | split
    | with_reducible refine Core.Sound.lit ?_

theorem takeImage_ok (s : State) (k : Fin 5) (h : Sound Q s) : Sound Q (takeImage s k) := by
  unfold takeImage
  repeat' first
    | assumption
    | with_reducible apply measure_ok
    | with_reducible apply updSec_ok
    | dsimp only
    | split

theorem updBoot_ok (s : State) (f : Boot → Boot) (h : Sound Q s) : Sound Q (updBoot s f) := by
  unfold updBoot
  repeat' first
    | assumption
    | rfl
    | with_reducible refine Sound.lit ?_ ?_ ?_

theorem stageVerify_ok (s : State) (h : Sound Q s) : Sound Q (stageVerify s).1 := by
  unfold stageVerify
  repeat' first
    | assumption
    | with_reducible apply takeImage_ok
    | with_reducible apply measure_ok
    | with_reducible apply updBoot_ok
    | refine foldl_sound ?_ ?_
    | dsimp only
    | split

theorem stageService_ok (env : BootEnv) (s : State) (h : Sound Q s) : Sound Q (stageService env s).1 := by
  unfold stageService
  repeat' first
    | assumption
    | with_reducible apply updBoot_ok

theorem enterStage_ok (s : State) (env : BootEnv) (code : Byte) (h : Sound Q s) : Sound Q (enterStage s env code) := by
  unfold enterStage
  repeat' first
    | assumption
    | with_reducible apply updBoot_ok

theorem goMinimal_ok (s : State) (rom : Bool) (h : Sound Q s) : Sound Q (goMinimal s rom) := by
  unfold goMinimal
  repeat' first
    | assumption
    | rfl
    | with_reducible apply updBoot_ok
    | dsimp only
    | with_reducible refine Sound.lit ?_ ?_ ?_

theorem failStart_ok (s : State) (reason : Byte) (detail : ℕ) (h : Sound Q s) : Sound Q (failStart s reason detail) := by
  unfold failStart
  repeat' first
    | assumption
    | with_reducible apply updBoot_ok
    | with_reducible apply goMinimal_ok
    | dsimp only
    | split

theorem stage_ok (env : BootEnv) (code : Byte) (act : State → State × Option (Nat × Nat)) (rest : State → State) (s : State) (h : Sound Q s)
    (ha : ∀ t, Sound Q t → Sound Q (act t).1) (hr : ∀ t, Sound Q t → Sound Q (rest t)) : Sound Q (stage env code act rest s) := by
  unfold stage
  extract_lets x
  have hx : Sound Q x.1 := ha _ (enterStage_ok _ _ _ h)
  clear_value x
  split
  · exact failStart_ok _ _ _ hx
  · split
    · split
      · exact hr _ hx
      · split
        · exact hx
        · exact failStart_ok _ _ _ hx
    · exact hr _ hx

theorem updInp_ok (s : State) (f : Inp → Inp) (h : Sound Q s) : Sound Q (updInp s f) := by
  unfold updInp
  repeat' first
    | assumption
    | rfl
    | with_reducible refine Sound.lit ?_ ?_ ?_

theorem stageRails_ok (env : BootEnv) (s : State) (h : Sound Q s) : Sound Q (stageRails env s).1 := by
  unfold stageRails
  repeat' first
    | assumption
    | with_reducible apply updInp_ok
    | split

theorem stageClocks_ok (env : BootEnv) (s : State) (h : Sound Q s) : Sound Q (stageClocks env s).1 := by
  unfold stageClocks
  repeat' first
    | assumption

theorem stageDie_ok (env : BootEnv) (s : State) (h : Sound Q s) : Sound Q (stageDie env s).1 := by
  unfold stageDie
  repeat' first
    | assumption
    | with_reducible apply updBoot_ok

theorem stageHbm_ok (env : BootEnv) (s : State) (h : Sound Q s) : Sound Q (stageHbm env s).1 := by
  unfold stageHbm
  extract_lets n silent bad stks out fixed
  clear_value n silent bad stks out fixed
  have hk : ∀ (m : Mem) (g : Glb) (b : Boot), m.cells = s.mem.cells → Sound Q (loadKeys { s with mem := m, glb := g, boot := b }) :=
    fun m g b e => loadKeys_ok _ (h.lit e rfl)
  generalize (if s.mem.compat = true then none else bad.head?) = q
  cases silent <;> cases q <;> dsimp only
  · exact hk _ _ _ rfl
  · exact h
  · exact h
  · exact h

theorem stageCharacterise_ok (env : BootEnv) (s : State) (h : Sound Q s) : Sound Q (stageCharacterise env s).1 := by
  unfold stageCharacterise
  repeat' first
    | assumption
    | rfl
    | with_reducible apply updPwr_ok
    | with_reducible apply darken_ok
    | with_reducible apply updBoot_ok
    | dsimp only
    | split
    | with_reducible refine Sound.lit ?_ ?_ ?_

theorem stageOptics_ok (env : BootEnv) (s : State) (h : Sound Q s) : Sound Q (stageOptics env s).1 := by
  unfold stageOptics
  split
  · exact h
  · extract_lets sp lit bad failed u2 u3 u4 s1 events
    have h1 : Sound Q s1 := h.lit rfl rfl
    clear_value s1
    exact repeat_sound (fun t ht => raiseOpen_ok _ _ ht) _ (repeat_sound (fun t ht => combEvent_ok _ ht) _ h1)

theorem stageMap_ok (env : BootEnv) (s : State) (h : Sound Q s) : Sound Q (stageMap env s).1 := by
  unfold stageMap
  extract_lets ms s1 fmin u2 u3 s2
  have h1 : Sound Q s1 := by
    refine h.litCores rfl rfl fun c => ?_
    have := h.cores c
    simp only [State.core, Fin.getElem_fin, Vector.getElem_mapFinIdx] at this ⊢
    exact mappedCore_ok _ _ _ _ h this
  clear_value s1
  exact measure_ok _ _ _ _ (h1.lit rfl rfl)

theorem bootDone_ok (env : BootEnv) (s : State) (h : Sound Q s) : Sound Q (bootDone env s) := by
  unfold bootDone
  repeat' first
    | assumption
    | rfl
    | with_reducible apply enterStage_ok
    | dsimp only
    | with_reducible refine Sound.lit ?_ ?_ ?_

theorem bootRails_ok (env : BootEnv) (s : State) (h : Sound Q s) : Sound Q (bootRails env s) := by
  unfold bootRails
  repeat' first
    | assumption
    | with_reducible apply stage_ok
    | with_reducible apply stageRails_ok
    | with_reducible apply stageClocks_ok
    | with_reducible apply stageDie_ok
    | with_reducible apply stageHbm_ok
    | with_reducible apply stageCharacterise_ok
    | with_reducible apply stageOptics_ok
    | with_reducible apply stageMap_ok
    | with_reducible apply bootDone_ok
    | intro _

theorem checkRecords_ok (env : BootEnv) (s : State) (h : Sound Q s) : Sound Q (checkRecords env s) := by
  unfold checkRecords
  repeat' first
    | assumption
    | rfl
    | dsimp only
    | split
    | with_reducible refine Sound.lit ?_ ?_ ?_

theorem stageUnlock_ok (env : BootEnv) (s : State) (h : Sound Q s) : Sound Q (stageUnlock env s).1 := by
  unfold stageUnlock
  repeat' first
    | assumption
    | with_reducible apply updSec_ok
    | with_reducible apply measure_ok
    | with_reducible apply checkRecords_ok
    | dsimp only
    | split

theorem boot_ok (env : BootEnv) (s : State) (h : Sound Q s) : Sound Q (boot env s) := by
  unfold boot
  repeat' first
    | assumption
    | rfl
    | with_reducible apply goMinimal_ok
    | with_reducible apply bootRails_ok
    | with_reducible apply stage_ok
    | with_reducible apply stageService_ok
    | with_reducible apply stageVerify_ok
    | with_reducible apply stageUnlock_ok
    | intro _
    | dsimp only
    | split
    | with_reducible refine Sound.lit ?_ ?_ ?_

theorem execPowerOn_ok (env : BootEnv) (s : State) (h : Sound Q s) : outOk Q (execPowerOn env s) := by
  unfold execPowerOn
  repeat' first
    | assumption
    | with_reducible apply outOk_next
    | with_reducible apply holdReset_ok
    | with_reducible apply boot_ok
    | dsimp only
    | split

theorem waitReset_ok (s : State) (cause : BitVec 3) (h : Sound Q s) : Sound Q (waitReset s cause) := by
  unfold waitReset
  repeat' first
    | assumption
    | with_reducible apply updInp_ok

theorem fullReset_ok (s : State) (cause : BitVec 3) (env : BootEnv) (h : Sound Q s) : Sound Q (fullReset s cause env) := by
  unfold fullReset
  repeat' first
    | assumption
    | with_reducible apply waitReset_ok
    | with_reducible apply updBoot_ok
    | with_reducible apply holdReset_ok
    | with_reducible apply boot_ok
    | split

theorem execFailedStartRestart_ok (env : BootEnv) (s : State) (h : Sound Q s) : outOk Q (execFailedStartRestart env s) := by
  unfold execFailedStartRestart
  repeat' first
    | assumption
    | with_reducible apply outOk_next
    | with_reducible apply fullReset_ok
    | split

theorem execStageOverrun_ok (stage : Byte) (s : State) (h : Sound Q s) : outOk Q (execStageOverrun stage s) := by
  unfold execStageOverrun
  repeat' first
    | assumption
    | with_reducible apply outOk_next
    | with_reducible apply failStart_ok
    | split

theorem execBootRetry_ok (env : BootEnv) (s : State) (h : Sound Q s) : outOk Q (execBootRetry env s) := by
  unfold execBootRetry
  repeat' first
    | assumption
    | with_reducible apply outOk_next
    | with_reducible apply updBoot_ok
    | with_reducible apply State.unlatch_ok
    | with_reducible apply fullReset_ok
    | dsimp only
    | split

theorem execFullReset_ok (cause : BitVec 3) (env : BootEnv) (s : State) (h : Sound Q s) :
    outOk Q (execFullReset cause env s) := by
  unfold execFullReset
  repeat' first
    | assumption
    | with_reducible apply outOk_next
    | with_reducible apply fullReset_ok
    | split

theorem execLinkReset_ok (env : BootEnv) (s : State) (h : Sound Q s) : outOk Q (execLinkReset env s) :=
  outOk_next (fullReset_ok _ _ _ h)

/-! ## Tables -/

theorem tabled_ok (s : State) (img : List Byte) (h : Sound Q s) : Sound Q (tabled s img) := by
  unfold tabled
  repeat' first
    | assumption
    | rfl
    | dsimp only
    | with_reducible refine Sound.lit ?_ ?_ ?_

/-! ## Trace -/

theorem coreAt_ok (g : ImgSeg) (v : Visit) : (coreAt g v).Sound := Core.sound_reset.lit

/-! ## Loader -/

theorem refuseLoad_ok (s : State) (ring : RingId) (idx : W16) (code item : ℕ) (h : Sound Q s) :
    Sound Q (refuseLoad s ring idx code item) := by
  unfold refuseLoad
  repeat' first
    | assumption
    | with_reducible apply finishDesc_ok

theorem countPlans_ok (s : State) (img : List Byte) (code item : ℕ) (h : Sound Q s) : Sound Q (countPlans s img code item) := by
  unfold countPlans
  repeat' first
    | assumption
    | rfl
    | dsimp only
    | split
    | with_reducible refine Sound.lit ?_ ?_ ?_

theorem configure_ok (s : State) (img : List Byte) (h : Sound Q s) : Sound Q (configure s img) := by
  unfold configure
  extract_lets t m
  refine h.litCores rfl rfl fun c => ?_
  have := h.cores c
  simp only [Fin.getElem_fin, Vector.getElem_ofFn]
  exact (Core.release_ok _ this).lit

theorem putAt_ok (s : State) (x : ℕ × List Byte) (h : Sound Q s) : Sound Q (putAt s x) := by
  unfold putAt
  repeat' first
    | assumption
    | with_reducible apply storeHbm_ok

theorem place_ok (s : State) (img : List Byte) (h : Sound Q s) : Sound Q (place s img) := by
  unfold place
  extract_lets t u
  have hu : Sound Q u := foldl_sound (configure_ok s img h) fun t x ht => putAt_ok t x ht
  clear_value u
  exact hu.lit rfl rfl

theorem load_ok (s : State) (ring : RingId) (idx : W16) (d : Inflight) (image : List Byte) (hostErr : Bool) (h : Sound Q s) :
    Sound Q (load s ring idx d image hostErr) := by
  unfold load
  split
  · exact finishDesc_ok _ _ _ _ _ _ _ h
  have hx := fromHost_ok s none 0x41 d.len image h
  generalize fromHost s none 0x41 d.len image = x at hx
  dsimp only
  split
  · exact refuseLoad_ok _ _ _ _ _ hx
  · split
    · exact refuseLoad_ok _ _ _ _ _ (countPlans_ok _ _ _ _ hx)
    · exact doneDesc_ok _ _ _ _ (measure_ok _ _ _ _ (place_ok _ _ hx))

theorem execLoad_ok (ring : RingId) (idx : W16) (image : List Byte) (hostErr : Bool) (s : State) (h : Sound Q s) :
    outOk Q (execLoad ring idx image hostErr s) := by
  unfold execLoad
  repeat' first
    | assumption
    | with_reducible apply outOk_next
    | with_reducible apply runDesc_ok
    | with_reducible apply load_ok
    | intro _

end Sys2Proof.Machine
end

