-- ==== Sys2Proof/Laws/SoundModule.lean ====
section
/-! SUPPORT. Every operation keeps the byte stores in canonical form: the module hardware, the registers, confidential mode and the idle step. -/

namespace Sys2Proof.Machine

variable {Q : List Instr}

/-! ## Module -/

theorem execInputStageOn_ok (s : State) (h : Sound Q s) : outOk Q (execInputStageOn s) := outOk_next (updInp_ok _ _ h)

theorem execPwrEnLow_ok (s : State) (h : Sound Q s) : outOk Q (execPwrEnLow s) := outOk_next (updInp_ok _ _ h)

theorem resetReleased_ok (s : State) (env : BootEnv) (h : Sound Q s) : Sound Q (resetReleased s env) := by
  unfold resetReleased
  repeat' first
    | assumption
    | with_reducible apply updInp_ok
    | with_reducible apply boot_ok
    | dsimp only
    | split

theorem execEntdaa_ok (dynamic : BitVec 7) (s : State) (h : Sound Q s) : outOk Q (execEntdaa dynamic s) := by
  unfold execEntdaa
  repeat' first
    | assumption
    | with_reducible apply outOk_next
    | with_reducible apply updInp_ok
    | split

theorem execInputOvervoltageClear_ok (s : State) (h : Sound Q s) : outOk Q (execInputOvervoltageClear s) :=
  outOk_next (updInp_ok _ _ h)

theorem execInputOvervoltage_ok (s : State) (h : Sound Q s) : outOk Q (execInputOvervoltage s) := outOk_next (updInp_ok _ _ h)

theorem moduleOff_ok (s : State) (h : Sound Q s) : Sound Q (moduleOff s) := by
  unfold moduleOff
  repeat' first
    | assumption
    | with_reducible apply updInp_ok
    | with_reducible apply holdReset_ok

theorem execConverterStop_ok (s : State) (h : Sound Q s) : outOk Q (execConverterStop s) := outOk_next (moduleOff_ok _ h)

theorem powerFails_ok (s : State) (w : Bool) (h : Sound Q s) : Sound Q (powerFails s w) := by
  unfold powerFails
  split
  · exact h
  · extract_lets s1
    have h1 : Sound Q s1 := raiseOpen_ok _ _ (endAdmin_ok _ (darken_ok _ (stopCores_ok _ h)))
    clear_value s1
    exact h1.lit rfl rfl

theorem execBulkUndervoltage_ok (withinMs : Bool) (s : State) (h : Sound Q s) : outOk Q (execBulkUndervoltage withinMs s) :=
  outOk_next (powerFails_ok _ _ h)

theorem execSetdasa_ok (static dynamic : BitVec 7) (s : State) (h : Sound Q s) : outOk Q (execSetdasa static dynamic s) := by
  unfold execSetdasa
  repeat' first
    | assumption
    | with_reducible apply outOk_next
    | with_reducible apply updInp_ok
    | split

theorem resetAsserted_ok (s : State) (h : Sound Q s) : Sound Q (resetAsserted s) := by
  unfold resetAsserted
  repeat' first
    | assumption
    | with_reducible apply updInp_ok
    | with_reducible apply waitReset_ok
    | with_reducible apply holdReset_ok
    | dsimp only
    | split

theorem recordWritten_ok (s : State) (env : BootEnv) (h : Sound Q s) : Sound Q (recordWritten s env) := by
  unfold recordWritten
  repeat' first
    | assumption
    | with_reducible apply updInp_ok
    | with_reducible apply updBoot_ok
    | with_reducible apply fullReset_ok
    | dsimp only
    | split

theorem execPowerRecordWritten_ok (env : BootEnv) (s : State) (h : Sound Q s) : outOk Q (execPowerRecordWritten env s) :=
  outOk_next (recordWritten_ok _ _ h)

theorem execPrsntNOpen_ok (s : State) (h : Sound Q s) : outOk Q (execPrsntNOpen s) := outOk_next (updInp_ok _ _ h)

theorem execSetEndpointId_ok (eid : Byte) (s : State) (h : Sound Q s) : outOk Q (execSetEndpointId eid s) := by
  unfold execSetEndpointId
  repeat' first
    | assumption
    | with_reducible apply outOk_next
    | with_reducible apply updInp_ok
    | split

theorem execResetNRelease_ok (env : BootEnv) (s : State) (h : Sound Q s) : outOk Q (execResetNRelease env s) :=
  outOk_next (resetReleased_ok _ _ h)

theorem execResetNAssert_ok (s : State) (h : Sound Q s) : outOk Q (execResetNAssert s) := outOk_next (resetAsserted_ok _ h)

/-! ## Security -/

theorem Core.wipe_ok (k : Core) (h : k.Sound) : k.wipe.Sound := ⟨cellsWf_nil, h.aq, h.eq⟩

theorem rekey_ok (s : State) (target : Bool) (h : Sound Q s) : Sound Q (rekey s target) := by
  unfold rekey
  extract_lets t
  have ht : Sound Q t := updSec_ok _ _ (loadKeys_ok _ (updSec_ok _ _ h))
  clear_value t
  have h1 := ht.mapCores (f := Core.wipe) fun _ hk => Core.wipe_ok _ hk
  exact ⟨cellsWf_nil, h1.cores, by simp, ht.queue⟩

theorem writeTarget_ok (s : State) (target : Bool) (h : Sound Q s) : Sound Q (writeTarget s target) := by
  unfold writeTarget
  extract_lets s1
  have h1 : Sound Q s1 := updSec_ok _ _ h
  clear_value s1
  split
  · exact h1
  · split
    · exact updSec_ok _ _ h1
    · exact updSec_ok _ _ (rekey_ok _ _ h1)

theorem execModeTargetWrite_ok (target : Bool) (s : State) (h : Sound Q s) : outOk Q (execModeTargetWrite target s) := by
  unfold execModeTargetWrite
  repeat' first
    | assumption
    | with_reducible apply outOk_next
    | with_reducible apply writeTarget_ok
    | with_reducible apply State.unlatch_ok

theorem transitionDone_ok (s : State) (h : Sound Q s) : Sound Q (transitionDone s) := by
  unfold transitionDone
  repeat' first
    | assumption
    | rfl
    | with_reducible apply updSec_ok
    | with_reducible apply measure_ok
    | dsimp only
    | split
    | with_reducible refine Sound.lit ?_ ?_ ?_

theorem execModeTransitionDone_ok (s : State) (h : Sound Q s) : outOk Q (execModeTransitionDone s) :=
  outOk_next (transitionDone_ok _ h)

theorem execLevel1TreeBuilt_ok (s : State) (h : Sound Q s) : outOk Q (execLevel1TreeBuilt s) := by
  unfold execLevel1TreeBuilt
  repeat' first
    | assumption
    | with_reducible apply outOk_next
    | with_reducible apply updSec_ok
    | split

/-! ## Registers -/

theorem writeSec_ok (s : State) (o : ℕ) (v : W64) (h : Sound Q s) : Sound Q (writeSec s o v) := by
  unfold writeSec
  repeat' first
    | assumption
    | with_reducible apply updSec_ok
    | split

theorem writeFab_ok (s : State) (a : ℕ) (wide : Bool) (v raw : W64) (h : Sound Q s) : Sound Q (writeFab s a wide v raw) := by
  unfold writeFab
  repeat' first
    | assumption
    | rfl
    | with_reducible apply updPort_ok
    | with_reducible apply writeRoute_ok
    | dsimp only
    | split
    | with_reducible refine Sound.lit ?_ ?_ ?_

theorem mailboxEnds_ok (s : State) (image : List Byte) (flashErr : Bool) (h : Sound Q s) :
    Sound Q (mailboxEnds s image flashErr) := by
  unfold mailboxEnds
  repeat' first
    | assumption
    | with_reducible apply updBoot_ok
    | dsimp only
    | split

theorem execMailboxDone_ok (image : List Byte) (flashErr : Bool) (s : State) (h : Sound Q s) :
    outOk Q (execMailboxDone image flashErr s) :=
  outOk_next (mailboxEnds_ok _ _ _ h)

theorem readOut_ok (s : State) (v : W64) (h : Sound Q s) : Sound Q (readOut s v) := by
  unfold readOut
  repeat' first
    | assumption
    | with_reducible apply State.say_ok

theorem countBad_ok (s : State) (h : Sound Q s) : Sound Q (countBad s) := by
  unfold countBad
  repeat' first
    | assumption
    | rfl
    | dsimp only
    | with_reducible refine Sound.lit ?_ ?_ ?_

theorem clearWatermark_ok (s : State) (port : PortId) (vc : Fin 8) (h : Sound Q s) : Sound Q (clearWatermark s port vc) := by
  unfold clearWatermark
  repeat' first
    | assumption
    | rfl
    | dsimp only
    | with_reducible refine Sound.lit ?_ ?_ ?_

theorem readEffect_ok (s : State) (a : ℕ) (h : Sound Q s) : Sound Q (readEffect s a) := by
  unfold readEffect
  repeat' first
    | assumption
    | with_reducible apply clearWatermark_ok
    | split

theorem halfRead_ok (s : State) (a : BitVec 26) (h : Sound Q s) : Sound Q (halfRead s a) := by
  unfold halfRead
  repeat' first
    | assumption
    | rfl
    | with_reducible apply readOut_ok
    | with_reducible apply countBad_ok
    | with_reducible apply State.unlatch_ok
    | with_reducible apply readEffect_ok
    | dsimp only
    | split
    | with_reducible refine Sound.lit ?_ ?_ ?_

theorem execHalfReadLatch_ok (addr : BitVec 26) (s : State) (h : Sound Q s) : outOk Q (execHalfReadLatch addr s) :=
  outOk_next (halfRead_ok _ _ h)

theorem execRegBadAccess_ok (addr : BitVec 26) (write : Bool) (s : State) (h : Sound Q s) :
    outOk Q (execRegBadAccess addr write s) := by
  unfold execRegBadAccess
  repeat' first
    | assumption
    | with_reducible apply outOk_next
    | with_reducible apply countBad_ok
    | with_reducible apply State.unlatch_ok
    | with_reducible apply badDoorbell_ok
    | with_reducible apply readOut_ok
    | dsimp only
    | split

theorem writePwr_ok (s : State) (o : ℕ) (low high : Bool) (v : W64) (h : Sound Q s) : Sound Q (writePwr s o low high v) := by
  unfold writePwr
  repeat' first
    | assumption
    | with_reducible apply setHcap_ok
    | with_reducible apply setFceil_ok
    | split

theorem execWatermarkRead_ok (port : PortId) (vc : Fin 8) (s : State) (h : Sound Q s) :
    outOk Q (execWatermarkRead port vc s) := by
  unfold execWatermarkRead
  repeat' first
    | assumption
    | with_reducible apply outOk_next
    | with_reducible apply readOut_ok
    | with_reducible apply State.onRails_ok
    | with_reducible apply clearWatermark_ok
    | intro _

theorem flashStored_ok (s : State) (h : Sound Q s) : Sound Q (flashStored s) := by
  unfold flashStored
  repeat' first
    | assumption
    | rfl
    | dsimp only
    | split
    | with_reducible refine Sound.lit ?_ ?_ ?_

theorem writeHlk_ok (s : State) (o : ℕ) (v : W64) (h : Sound Q s) : Sound Q (writeHlk s o v) := by
  unfold writeHlk
  repeat' first
    | assumption
    | with_reducible apply updHlk_ok
    | with_reducible apply updRing_ok
    | split

theorem mailboxGo_ok (s : State) (type : BitVec 3) (slot reserved : Bool) (h : Sound Q s) :
    Sound Q (mailboxGo s type slot reserved) := by
  unfold mailboxGo
  repeat' first
    | assumption
    | with_reducible apply updBoot_ok

theorem writeMgt_ok (s : State) (o : ℕ) (v ones : W64) (h : Sound Q s) : Sound Q (writeMgt s o v ones) := by
  unfold writeMgt
  repeat' first
    | assumption
    | rfl
    | with_reducible apply mailboxGo_ok
    | with_reducible apply updBoot_ok
    | with_reducible apply updFlt_ok
    | split

theorem writeCompat_ok (s : State) (v : Bool) (h : Sound Q s) : Sound Q (writeCompat s v) := by
  unfold writeCompat
  repeat' first
    | assumption
    | rfl
    | dsimp only
    | with_reducible refine Sound.lit ?_ ?_ ?_

theorem writeMem_ok (s : State) (o : ℕ) (low : Bool) (v : W64) (h : Sound Q s) : Sound Q (writeMem s o low v) := by
  unfold writeMem
  repeat' first
    | assumption
    | with_reducible apply writeCompat_ok
    | with_reducible apply setDrain_ok
    | split

theorem writeCore_ok (s : State) (o : ℕ) (ones : W64) (h : Sound Q s) : Sound Q (writeCore s o ones) := by
  unfold writeCore
  repeat' first
    | assumption
    | with_reducible refine Sound.updCore ?_ ?_
    | intro _
    | split
    | with_reducible refine Core.Sound.lit ?_

theorem writeWord_ok (s : State) (a : Nat) (wide : Bool) (v ones raw : W64) (h : Sound Q s) : Sound Q (writeWord s a wide v ones raw) := by
  unfold writeWord
  extract_lets o low high
  have hh := writeHlk_ok s (o - 0x100000) v h
  have hm := writeMgt_ok s (o - 0x200000) v ones h
  have hp := writePwr_ok s (o - 0x400000) low high v h
  have ht := writeTarget_ok s (v.getLsbD 0) h
  have hs := writeSec_ok s (o - 0x800000) v h
  have hf := writeFab_ok s (a - 0x1000000) wide v raw h
  have hx := writeMem_ok s (o - 0x1800000) low v h
  have hc := writeCore_ok s (o - 0x2000000) ones h
  have hr := ringDoorbell_ok s (Fin.ofNat 16 ((a - 0x3000000) / 0x1000)) (a % 0x1000) (raw.setWidth 16) (!wide) h
  have he := eventDoorbell_ok s (raw.setWidth 16) (!wide) h
  clear_value low high o
  repeat' first | with_reducible assumption | refine iteInduction (fun _ => ?_) (fun _ => ?_)

theorem execFlashStoreDone_ok (s : State) (h : Sound Q s) : outOk Q (execFlashStoreDone s) := outOk_next (flashStored_ok _ h)

theorem execCompatNextWrite_ok (value : Bool) (s : State) (h : Sound Q s) : outOk Q (execCompatNextWrite value s) := by
  unfold execCompatNextWrite
  repeat' first
    | assumption
    | with_reducible apply outOk_next
    | with_reducible apply writeCompat_ok
    | with_reducible apply State.unlatch_ok

theorem execMailboxGo_ok (type : BitVec 3) (slot reserved : Bool) (s : State) (h : Sound Q s) :
    outOk Q (execMailboxGo type slot reserved s) := by
  unfold execMailboxGo
  repeat' first
    | assumption
    | with_reducible apply outOk_next
    | with_reducible apply mailboxGo_ok
    | with_reducible apply State.unlatch_ok

theorem writeReg_ok (s : State) (a : BitVec 26) (wide : Bool) (value : W64) (h : Sound Q s) :
    Sound Q (writeReg s a wide value) := by
  unfold writeReg
  repeat' first
    | assumption
    | with_reducible apply State.unlatch_ok
    | with_reducible apply countBad_ok
    | with_reducible apply writeWord_ok
    | dsimp only
    | split

theorem execRegisterWrite_ok (addr : BitVec 26) (width64 : Bool) (value : W64) (s : State) (h : Sound Q s) :
    outOk Q (execRegisterWrite addr width64 value s) :=
  outOk_next (writeReg_ok _ _ _ _ h)

theorem execDrainPendingWrite_ok (value : Bool) (s : State) (h : Sound Q s) : outOk Q (execDrainPendingWrite value s) := by
  unfold execDrainPendingWrite
  repeat' first
    | assumption
    | with_reducible apply outOk_next
    | with_reducible apply State.onRails_ok
    | with_reducible apply setDrain_ok
    | intro _

/-! ## Step -/

theorem idle_ok (s : State) (h : Sound Q s) : Sound Q (idle s) := by
  unfold idle
  repeat' first
    | assumption
    | with_reducible apply passTick_ok

theorem State.withFetchWord_ok (s : State) (nbits w : ℕ) (h : Sound Q s) : Sound Q (State.withFetchWord s nbits w) := by
  unfold State.withFetchWord
  repeat' first
    | assumption

end Sys2Proof.Machine
end

