-- ==== Sys2Proof/WellFormed.lean ====
section
/-! DEFINITION. Which commands are well formed: the bounds the manual sets on operands whose type is wider. -/

namespace Sys2Proof

/-- A packet as R201–R202 lay it out: 24 class bytes, and a payload of at most 64 flits of 64 bytes. -/
def Packet.wf (p : Packet) : Bool := p.cls.length == 24 && p.payload.length ≤ 4096

/-- A write request stays within one line (R177). -/
def lineWf (addr : Addr) (n : Nat) : Bool := 1 ≤ n && addr.toNat % 64 + n ≤ 64

/-- Bounds of each command's operands. -/
def Instr.wf : Instr → Bool
  | .routeLookup _ _ p | .packetIngress p | .getreq p | .put p | .atomic p | .getdata p | .ack p | .fenceNotice p
  | .colldata p | .cinchUp p | .cinchDown p | .cinchCack p | .plan _ p
  | .hello _ p | .coord _ p | .up _ p | .down _ p | .discAck _ p => p.wf
  | .memWrite a d _ => lineWf a d.length
  | .atomicUpdate a _ _ d _ => lineWf a d.length && (d.length == 2 || d.length == 4)
  | .descriptorFetch _ d => d.length == 64
  | .linkRetrain n => n ≤ 8
  | .fullReset c _ => 1 ≤ c.toNat && c.toNat ≤ 4
  | _ => true

end Sys2Proof
end

