-- ==== Sys2Proof/Tests/Slice0.lean ====
section
/-! SUPPORT. The model's own tests: ill-formed commands that the check refuses, worked examples of the manual, and for every statement
states and operands that meet its hypotheses. -/

namespace Sys2Proof.Tests

open Sys2Proof Sys2Proof.Machine

set_option Elab.async false

/-! ## Helpers -/

/-- The state after a command. -/
def after (i : Instr) (s : State) : State := match exec i s with | .next t => t | _ => s

/-- A state after reset, with core 0 replaced. -/
def onCore (k : Core) : State := { State.reset with cores := State.reset.cores.set 0 k }

def core0 (s : State) : Core := s.core 0

/-- A core that runs a segment. -/
def runner : Core := { Core.reset with present := true, running := some 0 }

/-- One MiB of HBM at address 0, writable, and 48 GiB installed. -/
def region : Region := { base := 0, size := 2 ^ 20, stackLocal := false, ro := false, sided := false, stack := 0, wbase := 0, g0 := 0, bands := (0, 0) }

def withMem (s : State) : State := { s with mem := { s.mem with regions := [region] } }

def mv : MoveOp := { wq := 0, we := false, dq := 0, de := false, ix := false, wtok := 0, dtok := 0, src := 0, dst := 1, aux := 2 }

/-- Sixteen FP32 words of HBM at address 0, and of a scratchpad at address 64. -/
def inHbm : Desc := { Desc.reset with valid := true, space := 1, size0 := 15 }
def inSpad : Desc := { Desc.reset with valid := true, base := 64, base0 := 64, size0 := 15 }
/-- Two index words, both 0, at scratchpad address 64; 64 bytes at chip 5. -/
def indices : Desc := { inSpad with format := 0xB, size0 := 1 }
def remote : Desc := { Desc.reset with valid := true, space := 2, chip := 5, size0 := 15 }

def withDescs (k : Core) (a b c : Desc) : Core :=
  { k with access := { k.access with desc := ((k.access.desc.set 0 a).set 1 b).set 2 c } }

def pkt : Packet :=
  { type := 2, attempt := 0, pz := false, ece := false, ce := false, dst := 0xFFFF, src := 5, tag := 3, hops := 0, length := 63, addr := 0, fmt := 0,
    op := 0, status := 0, step := 0, cls := List.replicate 24 0, pmask := 0, crc := 0, payload := List.replicate 64 7, stomps := 0 }

/-- A ring communicator of two chips with no landing; this is member 0, chip 1. -/
def ringComm : Comm :=
  { idx := 2, tree := false, land := false, jobwide := false, self := 0, fmt := 0, chunkElems := 32, members := [1, 2], counts := [16, 16],
    phases := [(0, 0xFF, 2)], landMap := [], groups := [], stat := 0x8000, cseq := 0 }

def withComm (s : State) : State :=
  { s with coll := { s.coll with comms := [ringComm] }, fab := { s.fab with chip := 1 } }

/-- A manifest with commit communicator 2, its record at 0x4000, L within [−24, 24] and three clean steps to a rise. -/
def manifest : Manifest :=
  { units := 0, cores := 0, pop := [], lens := [], seed := 0, step0 := 0, side0 := false, l0 := 0, lf := -24, lc := 24, n := 3, commit := 2, budget := 0,
    cbudget := 0, park := 256, ctx := 0, crec := 0x4000, ntab := 0x3000 }
def withManifest (s : State) : State := { s with job := { s.job with manifest := some manifest } }

/-- In memory of one plain region every address is its own key. -/
theorem key_same (s : State) (h0 : s.mem.regions = [region]) (b : Nat) : keyOf s b = b := by
  unfold keyOf
  split
  · next r w h =>
    have : r = region := by
      rw [h0] at h
      simp [regionOf] at h
      split at h <;> simp_all
    subst this
    rfl
  · rfl

/-! ## Ill-formed commands are refused -/

theorem test_wf_class_bytes : (Instr.ack { pkt with cls := List.replicate 23 0 }).wf = false := by decide
theorem test_wf_payload : (Instr.put { pkt with payload := List.replicate 4097 0 }).wf = false := by decide +kernel
theorem test_wf_packet : (Instr.put { pkt with payload := List.replicate 4096 0 }).wf = true := by decide +kernel
theorem test_wf_write_empty : (Instr.memWrite 0 [] false).wf = false := by decide
theorem test_wf_write_crosses : (Instr.memWrite 63 [1, 2] false).wf = false := by decide
theorem test_wf_write : (Instr.memWrite 62 [1, 2] false).wf = true := by decide
theorem test_wf_atomic_length : (Instr.atomicUpdate 0 0 0 [1, 2, 3] false).wf = false := by decide
theorem test_wf_atomic_crosses : (Instr.atomicUpdate 62 0 0 [1, 2, 3, 4] false).wf = false := by decide
theorem test_wf_fetch : (Instr.descriptorFetch 0 (List.replicate 63 0)).wf = false := by decide
theorem test_wf_lanes : (Instr.linkRetrain 9).wf = false := by decide

theorem test_wf_disc : (Instr.hello 0 { pkt with payload := List.replicate 4097 0 }).wf = false := by decide +kernel

/-- A boot that finds nothing wrong. -/
def env : BootEnv :=
  { fail := none, pufReads := [true], fleetOk := true, secFlashOk := true,
    records := { suspects := [], characterisation := false, failedStarts := false, dumpSeq := false }, rail := none, pll := none, coresBad := [],
    stackSilent := none, plainBase := [], laneFails := [], settings := [], stackTemps := [], postTripOk := true, tripIn80 := none,
    fmeas := (List.finRange 8).flatMap fun c => (List.finRange 9).map fun p => (c, p, 1725), tchar := 0, coeffs := [], combsBad := 0, muxFailed := [],
    engineBad := none, durations := [], slotId := 3 }

theorem test_wf_cause_low : (Instr.fullReset 0 env).wf = false := by decide
theorem test_wf_cause_high : (Instr.fullReset 5 env).wf = false := by decide

/-! ## Worked examples of the manual -/

/-- R331: 0.97 × 1,725 MHz is 1,650 MHz on the grid. -/
theorem test_usable_frequency : usableFreq 1725 = 1650 := by decide

/-- The example of R214: W = 262,144 outstanding in PUTs of 4,096 bytes, with rtt 300 and t_dec 9,000. -/
def winStart : WinEntry := { dst := 5, w := 262144, outstanding := 262144, tDec := 9000, rtt := 300 }
def putTag : Tag :=
  { tag := 3, issuer := .access 0 3, p := { pkt with dst := 5, length := 4095, payload := List.replicate 4096 0 }, dest := .none, used := 0, sent := true, sentTick := 0, resent := true, noticed := false, timeout := 0x4E1F, retries := 3 }
def sWin (t : Nat) (w : WinEntry) : State :=
  { State.reset with glb := { State.reset.glb with ticks := BitVec.ofNat 64 t }, fab := { State.reset.fab with wins := [w] } }
def winAfter (t : Nat) (w : WinEntry) (ece : Bool) : WinEntry := (completeWin (sWin t w) putTag ece).fab.wins.headD w

/-- 10,000: 1,000 ≥ 300, so the window halves. -/
theorem test_window_halves : (winAfter 10000 winStart true).w = 131072 ∧ (winAfter 10000 winStart true).outstanding = 258048 ∧
    (winAfter 10000 winStart true).tDec = 10000 := by decide +kernel

/-- 10,040: 40 < 300, so it stays. 10,120: a clean completion adds 16,777,216 ÷ 131,072 = 128. 10,300: 300 ≥ 300 halves again. -/
theorem test_window_stays : (winAfter 10040 (winAfter 10000 winStart true) true).w = 131072 ∧
    (winAfter 10120 (winAfter 10000 winStart true) false).w = 131200 ∧
    (winAfter 10300 { winAfter 10000 winStart true with w := 131200 } true).w = 65600 := by decide +kernel

/-! ## The statements' hypotheses can be met: access stream -/

def sA : State := withMem (onCore runner)

/-- The tick that ends a microsecond on a powered job side, and one that does not. -/
theorem witness_StepRunsFront : let s (n : W64) : State :=
      { State.reset with inp := { State.reset.inp with aux := true, rails := true }, glb := { State.reset.glb with ticks := n } }
    (s 99).pending = [] ∧ ((s 99).glb.ticks + 1).toNat % 100 = 0 ∧ (s 99).jobSide = true ∧ ((s 98).glb.ticks + 1).toNat % 100 ≠ 0 := by decide +kernel

/-- The state after reset is sound. -/
theorem witness_StepKeepsSound : State.reset.sound = true ∧ step State.reset = .next { State.reset with glb := { State.reset.glb with ticks := 1 } } :=
  ⟨by decide +kernel, rfl⟩

def qEntry : Entry := { token := 9, base := 0, length := 64 }
def pushOp : PushOp := { q := 1, form1 := true, token := 9, reg := 0, base := 0, length := 63 }

theorem witness_AccessControlCompletes : sA.accessReady 0 := by constructor <;> decide +kernel

theorem witness_QueueAndFlagComplete_push : sA.accessReady 0 ∧ pushOp.token ≠ 0 ∧ (sA.core 0).aq[pushOp.q].length < 16 ∧
    pushCause (spadOpen sA) pushOp.base.toNat (pushOp.length.toNat + 1) = none := by
  refine ⟨by constructor <;> decide +kernel, ?_, ?_, ?_⟩ <;> decide +kernel

theorem witness_QueueAndFlagComplete_push_desc : (sA.core 0).aq[pushOp.q].length < 16 ∧ spadCause (spadOpen sA) (sA.core 0).access.desc[(0 : Fin 16)] = none := by
  refine ⟨?_, ?_⟩ <;> decide +kernel

/-- A core whose queue EQ1 holds token 9. -/
def popper : Core := { runner with eq := runner.eq.set 1 [qEntry] }
def sPop : State := withMem (onCore popper)

theorem witness_QueueAndFlagComplete_pop : sPop.accessReady 0 ∧ (sPop.core 0).eq[(1 : Fin 4)] = [qEntry] ∧ qEntry.token = 9 := by
  refine ⟨by constructor <;> decide +kernel, ?_, ?_⟩ <;> decide +kernel

/-- A core whose D0 names HBM address 0 and whose D1 names 64 bytes of scratchpad. -/
def loader : Core := withDescs runner inHbm inSpad indices
def storer : Core := withDescs runner inSpad inHbm indices
def sLd : State := withMem (onCore loader)
def sSt : State := withMem (onCore storer)

theorem witness_QueueAndFlagComplete_waitf : sLd.accessReady 0 ∧ (let d := (sLd.core 0).access.desc[(0 : Fin 16)]
    0 ≤ d.start ∧ hbmCause sLd d.start.toNat 4 false (d.start.toNat % 4 == 0) = none ∧ hbmPoisoned sLd d.start.toNat 4 = false ∧
      read32 sLd d.start.toNat = 0) := by
  refine ⟨by constructor <;> decide +kernel, ?_⟩; decide +kernel

theorem sLd_ready : sLd.moveReady 0 .ldh mv loader := by
  refine ⟨by constructor <;> decide +kernel, ?_, ?_, ?_⟩ <;> decide +kernel

theorem witness_LocalMovesComplete_ldh : sLd.moveReady 0 .ldh mv loader ∧ hbmCheck sLd (loader.src mv) false true = none :=
  ⟨sLd_ready, by decide +kernel⟩

theorem witness_LocalMovesComplete_sth : sSt.moveReady 0 .sth mv storer ∧ hbmCheck sSt (storer.dst mv) true true = none := by
  refine ⟨⟨by constructor <;> decide +kernel, ?_, ?_, ?_⟩, ?_⟩ <;> decide +kernel

def mover : Core := withDescs runner inSpad { inSpad with base := 128, base0 := 128 } indices
def sMv : State := withMem (onCore mover)

theorem witness_LocalMovesComplete_movs : sMv.moveReady 0 .movs mv mover ∧
    (mover.src mv).start.toNat + (mover.src mv).extent - 1 < (mover.dst mv).start.toNat := by
  refine ⟨⟨by constructor <;> decide +kernel, ?_, ?_, ?_⟩, ?_⟩ <;> decide +kernel

def gatherer : Core := withDescs runner inHbm inSpad indices
def sGa : State := withMem (onCore gatherer)

theorem witness_LocalMovesComplete_gath : sGa.moveReady 0 .gath mv gatherer ∧ hbmCheck sGa (gatherer.src mv) false true = none ∧
    badIndex (gatherer.src mv) (indexList gatherer (gatherer.aux mv)) = none := by
  refine ⟨⟨by constructor <;> decide +kernel, ?_, ?_, ?_⟩, ?_, ?_⟩ <;> decide +kernel

def scatterer : Core := withDescs runner inSpad inHbm indices
def sSc : State := withMem (onCore scatterer)

theorem witness_LocalMovesComplete_scat : sSc.moveReady 0 .scat mv scatterer ∧ hbmCheck sSc (scatterer.dst mv) true true = none ∧
    badIndex (scatterer.dst mv) (indexList scatterer (scatterer.aux mv)) = none := by
  refine ⟨⟨by constructor <;> decide +kernel, ?_, ?_, ?_⟩, ?_, ?_⟩ <;> decide +kernel

def getter : Core := withDescs runner remote inSpad indices
def putter : Core := withDescs runner inSpad remote indices
def sGet : State := withMem (onCore getter)
def sPut : State := withMem (onCore putter)

theorem witness_RemoteMovesComplete_rget : sGet.moveReady 0 .rget mv getter ∧ 0 ≤ (getter.src mv).start ∧
    (getter.src mv).start.toNat + (getter.src mv).extent ≤ 2 ^ 40 ∧ ((getter.dst mv).space = 1 → hbmCheck sGet (getter.dst mv) true true = none) := by
  refine ⟨⟨by constructor <;> decide +kernel, ?_, ?_, ?_⟩, ?_, ?_, ?_⟩ <;> decide +kernel

theorem witness_RemoteMovesComplete_rput : sPut.moveReady 0 .rput mv putter ∧ 0 ≤ (putter.dst mv).start ∧
    (putter.dst mv).start.toNat + (putter.dst mv).extent ≤ 2 ^ 40 ∧ ((putter.src mv).space = 1 → hbmCheck sPut (putter.src mv) false true = none) := by
  refine ⟨⟨by constructor <;> decide +kernel, ?_, ?_, ?_⟩, ?_, ?_, ?_⟩ <;> decide +kernel

/-- An atomic of sixteen FP32 words of scratchpad, on HBM here and on chip 5. -/
def adder : Core := withDescs runner inSpad inHbm indices
def adderFar : Core := withDescs runner inSpad remote indices
def sAdd : State := withMem (onCore adder)
def sAddFar : State := withMem (onCore adderFar)

theorem witness_RemoteMovesComplete_atom : sAdd.moveReady 0 (.atom 0) mv adder ∧ (adder.dst mv).space = 1 ∧
    hbmCheck sAdd (adder.dst mv) true (atomAligned adder mv (adder.dst mv) (adder.aux mv)) = none ∧
    badIndex (adder.dst mv) (if mv.ix then indexList adder (adder.aux mv) else []) = none := by
  refine ⟨⟨by constructor <;> decide +kernel, ?_, ?_, ?_⟩, ?_, ?_, ?_⟩ <;> decide +kernel

theorem witness_RemoteMovesComplete_atom_far : sAddFar.moveReady 0 (.atom 0) mv adderFar ∧ (adderFar.dst mv).space ≠ 1 ∧
    0 ≤ (adderFar.dst mv).start ∧ (adderFar.dst mv).start.toNat + (adderFar.dst mv).extent ≤ 2 ^ 40 ∧
    badIndex (adderFar.dst mv) (if mv.ix then indexList adderFar (adderFar.aux mv) else []) = none := by
  refine ⟨⟨by constructor <;> decide +kernel, ?_, ?_, ?_⟩, ?_, ?_, ?_, ?_⟩ <;> decide +kernel

/-- A held FP32 group of 1,024 elements on stack 0. -/
def group : Group :=
  { idx := 5, rule := 0, held := true, clip := false, mom := false, cen := false, wfmt := 0, stack := 0, chan0 := 0, elements := 1024, mbcount := 4,
    tidW := 0, tidM := 0, tidV := 0, ibase := 0, soff := 0, lbase := 0, cbase := 0x10000, eta := 0, lambda := 0, b1 := 0, ob1 := 0, b2 := 0, ob2 := 0,
    eps := 0, gm := 0, tmax := 0, cmax := 0 }
def landOp : LandOp := { group := 5, mb := 0, offset := 1008 }
def withGroup (s : State) : State := { s with upd := { s.upd with groups := [group] } }
def sLand : State := withGroup sAdd

theorem witness_RemoteMovesComplete_land : sLand.moveReady 0 (.land landOp) mv adder ∧
    sLand.upd.groups.find? (·.idx == landOp.group) = some group ∧ landOp.offset.toNat + (adder.src mv).count ≤ group.elements := by
  refine ⟨⟨by constructor <;> decide +kernel, ?_, ?_, ?_⟩, ?_, ?_⟩ <;> decide +kernel

/-! ## Collectives, flights, faults of the access stream -/

def collArgs : CollOp := { comm := 2, chunk := 0, param := 0 }
def collCore : Core := withDescs runner inHbm { inHbm with base := 0x1000, base0 := 0x1000 } indices
def sColl : State := withComm (withMem (onCore collCore))

theorem witness_CollectivesEnter : commOf sColl collArgs.comm = some ringComm ∧ sColl.moveReady 0 (.coll 0 collArgs) mv collCore ∧
    collCause sColl ringComm 0 collArgs (collCore.src mv) (collCore.dst mv) = none := by
  refine ⟨?_, ⟨by constructor <;> decide +kernel, ?_, ?_, ?_⟩, ?_⟩ <;> decide +kernel

theorem witness_CollectivesEnter_others : (∀ x ∈ collInstr 0 mv collArgs, x.1 ≠ 3 →
      collCause sColl ringComm x.1 collArgs (collCore.src mv) (collCore.dst mv) = none) ∧
    collCause sColl ringComm 6 collArgs (collCore.src mv) (collCore.dst mv) = none := by
  refine ⟨?_, ?_⟩ <;> decide +kernel

theorem witness_CollectivesEnter_a2av : collCause sColl ringComm 3 { collArgs with param := 1 } (collCore.src mv) (collCore.dst mv) = none := by
  decide +kernel

theorem witness_CollectivesEnter_cinch : sColl.moveReady 0 (.coll 6 collArgs) mv collCore := by
  refine ⟨by constructor <;> decide +kernel, ?_, ?_, ?_⟩ <;> decide +kernel

/-- A move in flight that pushes token 4 to AQ1 when it completes. -/
def flight (push : Bool) : Flight :=
  { seq := 3, index := 7, instr := .move .ldh { mv with de := push, dq := 1, dtok := 4 }, moved := true, done := false, pushDue := false, queue := 1,
    entry := { token := 4, base := 64, length := 64 }, ranges := [], armed := true, budget := 5, open_ := 0, chip := 0 }
def flying (f : Flight) (q : List Entry) : Core :=
  { runner with aq := runner.aq.set 1 q, access := { runner.access with flights := [f] } }

theorem witness_FlightsComplete : ((onCore (flying (flight false) [])).core 0).access.flights = [flight false] ∧ (flight false).pushes = false := by
  refine ⟨?_, ?_⟩ <;> decide +kernel

theorem witness_FlightsComplete_push : (flight true).pushes = true ∧ ((onCore (flying (flight true) (List.replicate 15 qEntry))).core 0).aq[(1 : Fin 4)].length < 16 ∧
    (flight true).done = false ∧ (flight true).open_ = 0 := by
  refine ⟨?_, ?_, ?_, ?_⟩ <;> decide +kernel

theorem witness_FlightsComplete_full : 16 ≤ ((onCore (flying (flight true) (List.replicate 16 qEntry))).core 0).aq[(flight true).queue].length := by decide +kernel

/-- A stop whose record does not wait: the flight leaves and pushes nothing. -/
theorem witness_FlightsComplete_stopped : let k0 := flying (flight true) []
    let k := (onCore { k0 with access := { k0.access with stopped := true } }).core 0
    k.access.flights = [flight true] ∧ k.access.stopped = true ∧ k.faultDue = none := by decide +kernel

/-- R34: a push that waits takes effect once its queue has room. -/
theorem witness_FlightsComplete_resume : let f := { flight true with done := true, pushDue := true }
    let k := (onCore (flying f [])).core 0
    k.running.isSome = true ∧ k.access.flights = [f] ∧ k.access.waiting = [] ∧ k.access.stopped = false ∧ f.pushes = true ∧ k.aq[f.queue].length < 16 ∧
      k.halves[(0 : Fin 2)].pushDue = false ∧ k.halves[(1 : Fin 2)].pushDue = false ∧ ∀ w ∈ k.taccs, w.pushDue = false := by
  decide +kernel

def waiter : Core := { runner with aq := runner.aq.set 0 [qEntry], exec := { runner.exec with waiting := [(2, .pope 0 9)] } }

theorem witness_FlightsComplete_pope : let s := onCore waiter
    (s.core 0).exec.waiting = [(2, .pope 0 9)] ∧ (s.core 0).exec.stopped = false ∧ lateSlip (s.core 0) (s.issueCycle 0 2) = none ∧
      (s.core 0).aq[(0 : Fin 4)] = [qEntry] ∧ qEntry.token = 9 := by decide +kernel

theorem witness_FlagIsPolled : let d := (sLd.core 0).access.desc[(0 : Fin 16)]
    sLd.accessReady 0 ∧ 0 ≤ d.start ∧ hbmCause sLd d.start.toNat 4 false (d.start.toNat % 4 == 0) = none ∧
      sLd.flagMet d.start.toNat true 1 = false := by
  refine ⟨by constructor <;> decide +kernel, ?_, ?_, ?_⟩ <;> decide +kernel

def polling : Flight := { flight false with instr := .waitf true 0 1, moved := true, open_ := 1 }

theorem witness_FlagIsPolled_poll : let k := (onCore (flying polling [])).core 0
    k.access.flights = [polling] ∧ polling.instr = .waitf true 0 1 ∧ k.access.waiting = [] ∧ k.access.stopped = false := by decide +kernel

theorem witness_FlagIsPolled_expiry : let k := (onCore (flying polling [])).core 0
    k.access.flights = [polling] ∧ polling.instr = .waitf true 0 1 ∧ polling.armed = true ∧ polling.done = false ∧ polling.open_ ≠ 0 ∧
      (onCore (flying polling [])).unfaulted 0 ∧ outcomeNow (onCore (flying polling [])) 0 polling.seq = false := by
  refine ⟨?_, ?_, ?_, ?_, ?_, ?_, ?_⟩ <;> first | constructor <;> decide +kernel | decide +kernel

theorem onRunner_unfaulted : (onCore runner).unfaulted 0 := by constructor <;> decide +kernel

theorem witness_BudgetStalls : let k := (onCore (flying polling [])).core 0
    k.access.flights = [polling] ∧ polling.armed = true ∧ polling.done = false ∧ polling.open_ ≠ 0 := by decide +kernel

/-- The one packet of a flight gets its ACK in the same tick: the expiry does nothing. -/
theorem witness_BudgetStalls_outcome : let s := { onCore (flying polling []) with
      fab := { State.reset.fab with tags := [putTag] }, pending := [.ack ({ pkt with type := 9, payload := [] } : Packet).sealed] }
    outcomeNow s 0 3 = true ∧ polling.seq = 3 := by decide +kernel

/-- A remote read that finds its core's 384 tags in use waits for one. -/
def tagWaiter : Core := { getter with access := { getter.access with waiting := [.move .rget mv] } }
def sTagWait : State := { withMem (onCore tagWaiter) with fab := { State.reset.fab with tags := List.replicate 384 { putTag with issuer := .access 0 9 } } }

theorem witness_BudgetStalls_tag : sTagWait.unfaulted 0 ∧ (let a := (sTagWait.core 0).access
    outcomeNow sTagWait 0 a.nextSeq = false ∧ a.stopped = false ∧ a.waiting = [.move .rget mv] ∧ a.flights = [] ∧ needsTag .rget a.desc[mv.dst] = true ∧
      384 ≤ coreTags sTagWait 0) := by
  refine ⟨by constructor <;> decide +kernel, ?_⟩; decide +kernel

theorem witness_TokenOrderStalls_pop : sPop.unfaulted 0 ∧ sPop.accessReady 0 ∧ (sPop.core 0).eq[(1 : Fin 4)] = [qEntry] ∧ qEntry.token ≠ 8 := by
  refine ⟨by constructor <;> decide +kernel, by constructor <;> decide +kernel, ?_, ?_⟩ <;> decide +kernel

theorem witness_TokenOrderStalls_move : let m := { mv with we := true, wq := 1, wtok := 8 }
    sPop.accessReady 0 ∧ m.we = true ∧ (sPop.core 0).eq[m.wq] = [qEntry] ∧ qEntry.token ≠ m.wtok := by
  refine ⟨by constructor <;> decide +kernel, ?_, ?_, ?_⟩ <;> decide +kernel

def popeCore : Core := { runner with aq := runner.aq.set 0 [qEntry] }

theorem witness_TokenOrderStalls_pope : (onCore popeCore).mayIssue 0 0 (.pope 0 8) ∧ ((onCore popeCore).core 0).aq[(0 : Fin 4)] = [qEntry] ∧
    qEntry.token ≠ 8 := by
  refine ⟨by constructor <;> decide +kernel, ?_, ?_⟩ <;> decide +kernel

/-- The first byte past 0x5E_FFFF is out of range (R73). -/
def pastEnd : Core := withDescs runner inHbm { inSpad with base := 0x5EFFC4, base0 := 0x5EFFC4 } indices

theorem witness_RangeFaults_spad : (withMem (onCore pastEnd)).accessReady 0 ∧ mv.we = false ∧
    spadChecks (spadOpen (withMem (onCore pastEnd))) (moveSpad .ldh mv (pastEnd.src mv) (pastEnd.dst mv) (pastEnd.aux mv)) = some (0, 0x5F0000) := by
  refine ⟨by constructor <;> decide +kernel, ?_, ?_⟩ <;> decide +kernel

theorem witness_RangeFaults_spad_last : let k := withDescs runner inHbm { inSpad with base := 0x5EFFC0, base0 := 0x5EFFC0 } indices
    spadChecks (spadOpen State.reset) (moveSpad .ldh mv (k.src mv) (k.dst mv) (k.aux mv)) = none := by decide +kernel

/-- No region holds these bytes: cause 0x11. -/
def unmappedHbm : Desc := { inHbm with base := 0x200000, base0 := 0x200000 }

theorem witness_RangeFaults_hbm : (let k := withDescs runner unmappedHbm inSpad indices
      let s := withMem (onCore k)
      (needsTag .ldh (k.dst mv) = true → coreTags s 0 < 384) ∧ spadChecks (spadOpen s) (moveSpad .ldh mv (k.src mv) (k.dst mv) (k.aux mv)) = none ∧ hbmCheck s (k.src mv) false true = some 0x11) ∧
    (let k := withDescs runner inSpad unmappedHbm indices
      let s := withMem (onCore k)
      spadChecks (spadOpen s) (moveSpad .sth mv (k.src mv) (k.dst mv) (k.aux mv)) = none ∧ hbmCheck s (k.dst mv) true true = some 0x11) := by decide +kernel

/-! ## Execute stream -/

def xDesc (a n : Nat) (fmt : BitVec 4) : Desc :=
  { Desc.reset with valid := true, format := fmt, base := BitVec.ofNat 41 a, base0 := BitVec.ofNat 41 a, size0 := BitVec.ofNat 16 (n - 1) }

/-- An execute stream whose X0 to X3 name scratchpad at 0, 0x4000, 0x8000 and 0xC000. -/
def xCore : Core :=
  { runner with exec := { runner.exec with desc :=
      (((runner.exec.desc.set 0 (xDesc 0 1024 0)).set 1 (xDesc 0x4000 1024 0)).set 2 (xDesc 0x8000 1024 0)).set 3 (xDesc 0xC000 1024 0) } }
def sX : State := withMem (onCore xCore)

def setxOp : SetxOp := { x := 1, ndim := 0, format := 0, base := 64, size0 := 15, size1 := 0, size2 := 0, size3 := 0, stride1 := 0, stride2 := 0, stride3 := 0 }

theorem witness_ExecuteControlCompletes : sX.mayIssue 0 0 (.setx setxOp) ∧ sX.mayIssue 0 0 (.advx 1 false 4) ∧ sX.mayIssue 0 0 (.loopx 1 0) ∧
    sX.mayIssue 0 0xFFFF (.waitc 9) ∧ sX.mayIssue 0 0 (.awls 1 5 0) := by
  refine ⟨?_, ?_, ?_, ?_, ?_⟩ <;> constructor <;> decide +kernel

theorem witness_ExecuteControlCompletes_pushe : sX.mayIssue 0 0 (.pushe pushOp) ∧ (sX.core 0).eq[pushOp.q].length < 16 := by
  refine ⟨by constructor <;> decide +kernel, ?_⟩; decide +kernel

theorem witness_ExecuteControlCompletes_pope : (onCore popeCore).mayIssue 0 0 (.pope 0 9) ∧ ((onCore popeCore).core 0).aq[(0 : Fin 4)] = [qEntry] ∧
    qEntry.token = 9 := by
  refine ⟨by constructor <;> decide +kernel, ?_, ?_⟩ <;> decide +kernel

def mmaOp : MmaOp := { eng := 0, cont := false, ta := false, tb := false, slot := 0, a := 0, b := 1, as := 0x1F, bs := 0x1F, fa := 1, fb := 1, own := 6, k := 0 }

theorem witness_MmaCompletes : sX.mayIssue 0 0 (.mma mmaOp) ∧ (((sX.core 0).settled (sX.issueCycle 0 0)).slotAt mmaOp.eng mmaOp.slot.toNat).stateAt
    (sX.issueCycle 0 0) = .free := by
  refine ⟨by constructor <;> decide +kernel, ?_⟩; decide +kernel

/-- Slot 0 of engine 0 is Owned by token 6 and holds ones. -/
def owner : Core := xCore.setSlot 0 0 { st := .owned 6, acc := List.replicate 512 0x3F800000, poison := false, readyAt := 0 }
def sOwn : State := withMem (onCore owner)

theorem witness_MmaCompletes_continue : let f := { mmaOp with cont := true }
    sOwn.mayIssue 0 0 (.mma f) ∧ (((sOwn.core 0).settled (sOwn.issueCycle 0 0)).slotAt f.eng f.slot.toNat).stateAt (sOwn.issueCycle 0 0) = .owned f.own := by
  refine ⟨by constructor <;> decide +kernel, ?_⟩; decide +kernel

theorem sOwn_faulted : (sOwn.core 0).faulted = false := by decide +kernel

/-- A start on a slot that token 6 owns. -/
theorem witness_TileConflicts_mma : sOwn.mayIssue 0 0 (.mma mmaOp) ∧ (((sOwn.core 0).settled (sOwn.issueCycle 0 0)).slotAt 0 0).stateAt (sOwn.issueCycle 0 0) ≠ .free := by
  refine ⟨by constructor <;> decide +kernel, ?_⟩; decide +kernel

/-- A drain of the tile in slot 0 to X2 without scales. -/
def drnOp : DrnOp :=
  { eng := 0, rel := true, dest := 0, rnd := false, cen := false, slot := 0, out := 2, sc := 0x1F, axis := false, fmt := 0, set := 0, exp := 0, half := false,
    q := 1, recv := 0, rtok := 8, mmask := 1, cmask := 1, op := 4, commGroup := 5, chunkMb := 0, offset := 0 }

theorem witness_TileConflicts_drn : sX.mayIssue 0 0 (.drn drnOp) ∧ sX.unfaulted 0 ∧
    (((sX.core 0).settled (sX.issueCycle 0 0)).slotAt 0 0).stateAt (sX.issueCycle 0 0) = .free := by
  refine ⟨by constructor <;> decide +kernel, by constructor <;> decide +kernel, ?_⟩; decide +kernel

def taccOp : TaccOp := { eng := 0, cont := false, q := 1, slot := 0, op := 4, own := 6, atok := 8 }

theorem witness_TileConflicts_tacc : sOwn.mayIssue 0 0 (.tacc taccOp) ∧
    (((sOwn.core 0).settled (sOwn.issueCycle 0 0)).slotAt 0 0).stateAt (sOwn.issueCycle 0 0) ≠ .free := by
  refine ⟨by constructor <;> decide +kernel, ?_⟩; decide +kernel

/-- The MMA array of engine 0 is busy up to cycle 100. -/
def busyCore : Core := { xCore with exec := { xCore.exec with windows :=
  [{ index := 0, unit := (XInstr.mma mmaOp).port, issue := 0, freeAt := 100, accesses := [], slot := none, readyAt := 100, half := false, writes := [] }] } }

/-- The cycle of the slip an instruction of core 0 would have now, none where it has none or an earlier check fails. -/
def slipOf (s : State) (i : XInstr) : Option Nat :=
  let k := (s.core 0).settled (s.issueCycle 0 0)
  let p := xPlan k i (s.issueCycle 0 0)
  if lateSlip (s.core 0) (s.issueCycle 0 0) = none ∧ drnHeld k i = false ∧ xSpadCause s k i p = none then
    (timingSlip k i p (s.issueCycle 0 0)).map (·.cycle) else none

theorem witness_ChainSlips : let s := onCore busyCore
    (s.core 0).running.isSome = true ∧ (s.core 0).exec.stopped = false ∧ (s.core 0).exec.waiting = [] ∧ slipOf s (.mma mmaOp) = some 0 ∧
      s.issueCycle 0 0 = 0 := by decide +kernel

theorem witness_ChainSlips_unfaulted : (onCore busyCore).unfaulted 0 := by constructor <;> decide +kernel

/-- A beat of sixteen elements on link C0, first sampled in its cycle. -/
def beatCore (first : Nat) : Core := { xCore with exec := { xCore.exec with trains :=
  [{ link := 0, first := first, count := 1, per := 16, fmt := 0, elems := List.replicate 16 0, poison := false, early := 0, producer := 0, sampled := false }] } }

/-- Nothing sampled the beat of cycle 0, and the next instruction issues in cycle 2. -/
theorem witness_ChainSlips_late : (lateSlip ((onCore (beatCore 0)).core 0) ((onCore (beatCore 0)).issueCycle 0 2)).isSome = true := by decide +kernel

/-- A transpose of sixty-four elements gets one beat of sixteen: it slips in the cycle after its issue, and runs until then. -/
def xpsLink : XInstr := .xps { src := 16, dst := 2, fmt := 0, rows := 3, cols := 15 }

theorem witness_ChainSlips_ahead : let s := onCore (beatCore 0)
    let k := (s.core 0).settled (s.issueCycle 0 0)
    slipOf s xpsLink = some 1 ∧ s.issueCycle 0 0 = 0 ∧
      (match timingSlip k xpsLink (xPlan k xpsLink 0) 0 with
       | none => false
       | some p => match runX (s.updCore 0 fun _ => { k with exec := { k.exec with waiting := [(0, xpsLink)], due := k.exec.due ++ [p] } }) 0 xpsLink 0 with
         | some t => (t.core 0).exec.waiting == []
         | none => false) = true := by decide +kernel

/-- The array is busy and token 6 owns the slot: both tests fail. -/
theorem witness_TileConflicts_slip : let s := onCore { (sOwn.core 0) with exec := { (sOwn.core 0).exec with windows := busyCore.exec.windows } }
    let k := (s.core 0).settled (s.issueCycle 0 0)
    XInstr.mma mmaOp ∈ [XInstr.mma mmaOp, .drn drnOp, .tacc taccOp] ∧ (s.core 0).running.isSome = true ∧
      (s.core 0).exec.stopped = false ∧ (s.core 0).exec.waiting = [] ∧ lateSlip (s.core 0) (s.issueCycle 0 0) = none ∧
      drnHeld k (.mma mmaOp) = false ∧ xSpadCause s k (.mma mmaOp) (xPlan k (.mma mmaOp) (s.issueCycle 0 0)) = none ∧
      ((timingSlip k (.mma mmaOp) (xPlan k (.mma mmaOp) (s.issueCycle 0 0)) (s.issueCycle 0 0)).any fun p => p.cycle ≤ s.issueCycle 0 0) = true ∧
      (k.slotAt 0 0).stateAt (s.issueCycle 0 0) ≠ .free := by
  refine ⟨List.mem_cons_self, ?_⟩; decide +kernel

theorem witness_DrnCompletes : sOwn.mayIssue 0 0 (.drn drnOp) ∧ drnOp.slot.toNat < ((sOwn.core 0).settled 0).engines[drnOp.eng].slots.length ∧
    (((sOwn.core 0).settled (sOwn.issueCycle 0 0)).slotAt 0 0).stateAt (sOwn.issueCycle 0 0) = .owned 6 := by
  refine ⟨by constructor <;> decide +kernel, ?_, ?_⟩ <;> decide +kernel

theorem witness_DrnCompletes_link : sOwn.mayIssue 0 0 (.drn { drnOp with dest := 1, out := 16 }) := by constructor <;> decide +kernel
theorem witness_DrnCompletes_half : sOwn.mayIssue 0 0 (.drn { drnOp with dest := 2 }) := by constructor <;> decide +kernel

theorem witness_DrnCompletes_land : let f := { drnOp with dest := 4 }
    (withGroup sOwn).mayIssue 0 0 (.drn f) ∧ drnLandBad (withGroup sOwn) f 512 = none := by
  refine ⟨by constructor <;> decide +kernel, ?_⟩; decide +kernel

/-- A tile of 512 elements from element 768 on leaves a group of 1,024. -/
theorem witness_RangeFaults_drn : let f := { drnOp with dest := 4, offset := 768 }
    let s := withGroup sOwn
    s.mayIssue 0 0 (.drn f) ∧ (((s.core 0).settled (s.issueCycle 0 0)).slotAt f.eng f.slot.toNat).stateAt (s.issueCycle 0 0) = .owned 6 ∧
      drnLandBad s f (((s.core 0).settled (s.issueCycle 0 0)).engines[f.eng].m * ((s.core 0).settled (s.issueCycle 0 0)).engines[f.eng].n) = some 0x16 ∧
      s.unfaulted 0 := by
  refine ⟨by constructor <;> decide +kernel, ?_, ?_, by constructor <;> decide +kernel⟩ <;> decide +kernel

theorem witness_TaccCompletes : sX.mayIssue 0 0 (.tacc taccOp) ∧
    (((sX.core 0).settled (sX.issueCycle 0 0)).slotAt 0 0).stateAt (sX.issueCycle 0 0) = .free ∧
    sOwn.mayIssue 0 0 (.tacc { taccOp with cont := true }) := by
  refine ⟨by constructor <;> decide +kernel, ?_, by constructor <;> decide +kernel⟩; decide +kernel

/-- X2 becomes the sum of X0 and X1. -/
def vopOp : VopOp :=
  { op := 0, bc := 0, dst := 2, conv := false, rnd := false, cen := false, src0 := 0, src1 := 1, src2 := 0x1F, fmt := 0, set := 0, lfmt := 0, sc := 0x1F,
    axis := false, imm := 0 }

theorem witness_VopCompletes : sX.mayIssue 0 0 (.vop vopOp) ∧ sX.mayIssue 0 0 (.vop { vopOp with dst := 17 }) := by
  refine ⟨?_, ?_⟩ <;> constructor <;> decide +kernel

/-- Statistics of four rows of sixteen elements to X3, and their softmax to X2 or a link. -/
def rstOp (mode : BitVec 3) (dst : BitVec 5) : RstOp :=
  { mode := mode, start := true, src0 := 0, src1 := 1, st := 3, dst := dst, fmt := 0, set := 0, lfmt := 0, rnd := false, cen := false, rows := 3, cols := 15,
    imm := 0x3F800000 }

theorem witness_RstCompletes : sX.mayIssue 0 0 (.rst (rstOp 0 0x1F)) ∧ sX.mayIssue 0 0 (.rst (rstOp 2 2)) ∧ sX.mayIssue 0 0 (.rst (rstOp 2 18)) := by
  refine ⟨?_, ?_, ?_⟩ <;> constructor <;> decide +kernel

def xpsOp (dst : BitVec 5) : XpsOp := { src := 0, dst := dst, fmt := 0, rows := 3, cols := 15 }

theorem witness_XpsAndCenfComplete : sX.mayIssue 0 0 (.xps (xpsOp 2)) ∧ sX.mayIssue 0 0 (.xps (xpsOp 19)) ∧ sX.mayIssue 0 0 (.cenf 4 2 7) := by
  refine ⟨?_, ?_, ?_⟩ <;> constructor <;> decide +kernel

def poisonedCensus : Core := { xCore with census := xCore.census.set 4 { Census.reset with poison := true } }

theorem witness_XpsAndCenfComplete_poison : (onCore poisonedCensus).mayIssue 0 0 (.cenf 4 2 7) ∧ ((onCore poisonedCensus).core 0).census[(4 : Fin 16)].poison = true := by
  refine ⟨by constructor <;> decide +kernel, ?_⟩; decide +kernel

/-! ## Trees -/

/-- A tile of a member in its half, bound for a cluster tree, for collective 2 or for group 5. -/
def part (dest : BitVec 3) : Contribution :=
  { core := 0, drn := { drnOp with dest := dest }, index := 3, order := 0, half := false, taken := false, data := [0x3F800000], poison := [] }
def halfCore (dest : BitVec 3) : Core :=
  { runner with halves := runner.halves.set 0 { busy := true, drn := some { drnOp with dest := dest }, data := [0x3F800000], poison := [], pushDue := false, index := 3 } }
def sHalf (dest : BitVec 3) : State :=
  { onCore (halfCore dest) with clusters := State.reset.clusters.set 0 { Cluster.reset with trees := [part dest] } }

theorem witness_TreeHalvesTaken_cluster : ((sHalf 2).core 0).halves[(0 : Fin 2)].drn = some { drnOp with dest := 2 } ∧
    ((sHalf 2).core 0).halves[(0 : Fin 2)].busy = true ∧ ((sHalf 2).core 0).aq[drnOp.q].length < 16 := by decide +kernel

/-- The only contribution of a tree of one member completes it; of two members it does not. -/
theorem witness_TreeHalvesTaken_chip : (∀ dest ∈ [(3 : BitVec 3), 4], let f := { drnOp with dest := dest }
    let u := if dest = 3 then ((sHalf dest).tookHalf 0 false).updCore 0 fun k => k.released 0 f else (sHalf dest).tookHalf 0 false
    ((sHalf dest).core 0).halves[(0 : Fin 2)].drn = some f ∧ f.dest ≠ 2 ∧ (firstPart (chipParts u f.op)).map (·.drn.dest) = some dest ∧
      chipComplete u f.op f = true ∧ chipComplete u f.op { f with mmask := 3 } = false ∧ (chipSum u f.op f).1 = some [(0x3F800000, false)]) := by
  decide +kernel

def taccCore : Core := { runner with taccs := [{ f := taccOp, index := 9, pushDue := false }] }
def clusterTile : Contribution := { part 2 with taken := true }
def sSum : State :=
  { onCore taccCore with clusters := State.reset.clusters.set 0 { Cluster.reset with trees := [clusterTile] } }

theorem witness_TreeSumsArrive : let w : TaccWait := { f := taccOp, index := 9, pushDue := false }
    let ps := treeParts sSum (clusterOf 0) w.f.op false
    (sSum.core 0).taccs = [w] ∧ w.pushDue = false ∧ (sSum.core 0).aq[w.f.q].length < 16 ∧ firstPart ps = some clusterTile ∧
      treeComplete ps clusterTile.drn.mmask = true ∧ clusterTile.drn.recv.val = memberOf 0 ∧ clusterSum ps = (some [(0x3F800000, false)], false) := by
  decide +kernel

theorem witness_TreeBudgetStalls_cluster : (sSum.core 0).taccs = [{ f := taccOp, index := 9, pushDue := false }] ∧ sSum.unfaulted 0 := by
  refine ⟨?_, by constructor <;> decide +kernel⟩; decide +kernel

theorem witness_TreeBudgetStalls_chip : (firstPart (chipParts (sHalf 4) 4)).map (·.core) = some 0 ∧ (sHalf 4).unfaulted 0 := by
  refine ⟨?_, by constructor <;> decide +kernel⟩; decide +kernel

def refusedTile : Landing := { source := .drain 0 3 4 [(0, false)], group := 5, mb := 0, first := 0, data := [(0, false)], refused := true }
def sRefused : State := { onCore runner with upd := { State.reset.upd with landings := [refusedTile] } }

theorem witness_TreeBudgetStalls_landing : chipParts sRefused 4 = [] ∧ sRefused.upd.landings = [refusedTile] ∧ refusedTile.refused = true ∧
    refusedTile.source = .drain 0 3 4 [(0, false)] ∧ sRefused.unfaulted 0 := by
  refine ⟨?_, ?_, ?_, ?_, by constructor <;> decide +kernel⟩ <;> decide +kernel


/-! ## Dispatch -/

def seg (cls : BitVec 2) : Segment := { cls := cls, shapes := [(32, 16, 0), (32, 16, 0), (32, 16, 0)], inbound := [], outbound := [3], alen := 1, xlen := 1 }

/-- A free core with two segments that wait for nothing, and the module running in a headroom state. -/
def sDisp (a b : BitVec 2) (p : BitVec 2) : State :=
  let s := onCore { Core.reset with present := true, segments := [seg a, seg b] }
  { s with hlk := { s.hlk with state := .running }, job := { s.job with dispatching := true }, inp := { s.inp with rails := true }, pwr := { s.pwr with pstate := p } }

theorem witness_SegmentsDispatched_green : coreFree (sDisp 3 2 0) 0 = true ∧ readyUpdates (sDisp 3 2 0) 0 = [] ∧ headroom (sDisp 3 2 0) = 0 ∧
    (readySegments (sDisp 3 2 0) 0).head? = some (0, seg 3) := by decide +kernel

theorem witness_SegmentsDispatched_amber : headroom (sDisp 3 1 1) ≠ 0 ∧ (readySegments (sDisp 3 1 1) 0).find? (fun x => x.2.cls.toNat ≤ 1) = some (1, seg 1) := by
  decide +kernel

theorem witness_SegmentsDispatched_class2 : headroom (sDisp 3 2 2) ≠ 0 ∧ (∀ x ∈ readySegments (sDisp 3 2 2) 0, ¬ x.2.cls.toNat ≤ 1) ∧
    (readySegments (sDisp 3 2 2) 0).find? (fun x => x.2.cls = 2) = some (1, seg 2) := by decide +kernel

theorem witness_SegmentsDispatched_class3 : headroom (sDisp 3 3 1) = 1 ∧ (∀ x ∈ readySegments (sDisp 3 3 1) 0, ¬ x.2.cls.toNat ≤ 2) ∧
    (readySegments (sDisp 3 3 1) 0).head? = some (0, seg 3) := by decide +kernel

theorem witness_SegmentsDispatched_red : readyUpdates (sDisp 3 3 2) 0 = [] ∧ headroom (sDisp 3 3 2) = 2 ∧
    (∀ x ∈ readySegments (sDisp 3 3 2) 0, ¬ x.2.cls.toNat ≤ 2) ∧ (readySegments (sDisp 3 3 2) 0).head? = some (0, seg 3) := by decide +kernel

/-- An S64 whose update of group 5, on stack 0 and channel 0, is queued for core 0. -/
def updPass : Pass := { group := 5, window := 0, kind := 1, abandoned := false }
def sUpd : State :=
  let s := withGroup (sDisp 0 0 0)
  let st : Stack := { Stack.reset with present := true, chans := Vector.replicate 16 { Chan.reset with live := true } }
  { s with glb := { s.glb with variant := .s64 }, upd := { s.upd with queue := [updPass] }, mem := { s.mem with hbmStacks := s.mem.hbmStacks.set 0 st } }

theorem witness_SegmentsDispatched_update : coreFree sUpd 0 = true ∧ firstPass (readyUpdates sUpd 0) = some updPass := by decide +kernel

def sHeld : State :=
  let s := sDisp 3 3 2
  { s with cores := s.cores.set 0 { s.core 0 with held3 := true } }

theorem witness_SegmentsDispatched_held : coreFree sHeld 0 = true ∧ (sHeld.core 0).held3 = true ∧ readyUpdates sHeld 0 = [] ∧
    readySegments sHeld 0 = [(0, seg 3), (1, seg 3)] ∧ ∀ x ∈ readySegments sHeld 0, x.2.cls = 3 := by decide +kernel

/-- A core past both instructions of its segment, with one entry left in AQ0. -/
def endedCore : Core :=
  { runner with segments := [seg 0], aq := runner.aq.set 0 [qEntry], access := { runner.access with index := 1 }, exec := { runner.exec with index := 1 } }

theorem witness_SegmentsEnd : ((onCore endedCore).core 0).running = some 0 ∧ ((onCore endedCore).core 0).updating = none ∧
    ((onCore endedCore).core 0).segments[0]? = some (seg 0) ∧ ((onCore endedCore).core 0).retired (seg 0) = true ∧
    strandedBeat ((onCore endedCore).core 0) = none ∧ (seg 0).outbound.Nodup := by decide +kernel

theorem witness_SegmentsEnd_update : ((onCore { runner with updating := some updPass }).core 0).running = some 0 ∧
    ((onCore { runner with updating := some updPass }).core 0).updating = some updPass := by decide +kernel

/-! ## Landings and the update -/

def tile (mb first : Nat) (src : LandSource) : Landing :=
  { source := src, group := 5, mb := mb, first := first, data := List.replicate 64 (0x3F800000, false), refused := false }

def withLanding (l : Landing) (s : State) : State := withGroup (withMem { s with upd := { s.upd with landings := [l] } })

theorem group_found (l : Landing) (s : State) : groupOf (withLanding l s) 5 = some group := rfl

/-- The last block of the group, micro-batch 0, at a counter that stands at 0. -/
theorem witness_LandingsComplete : let l := tile 0 960 (.drain 0 3 4 [(0, false)])
    let s := withLanding l State.reset
    s.upd.landings[0]? = some l ∧ landingCause s group l = none ∧ landingReady s group l = true := by decide +kernel

/-- Micro-batch 1 comes early: its 256 bytes fit a park store of 256 MiB, and no longer once all but 252 bytes are in use. -/
theorem witness_LandingsComplete_park : let l := tile 1 0 (.drain 0 3 4 [(0, false)])
    let s := withManifest (withLanding l State.reset)
    landingCause s group l = none ∧ landingReady s group l = false ∧ s.upd.parkUsed[stackIx group.stack] + 4 * l.data.length ≤ parkSize s := by decide +kernel

theorem witness_LandingsComplete_refuse : let l := tile 1 0 (.drain 0 3 4 [(0, false)])
    let s0 := withManifest (withLanding l State.reset)
    let s := { s0 with upd := { s0.upd with parkUsed := s0.upd.parkUsed.set 0 (2 ^ 28 - 252) } }
    landingReady s group l = false ∧ parkSize s < s.upd.parkUsed[stackIx group.stack] + 4 * l.data.length := by decide +kernel

/-- The half of core 0 that made the landing waits for its acceptance. -/
theorem witness_LandingsComplete_accepted : (tile 1 0 (.drain 0 3 4 [(0, false)])).source = .drain 0 3 4 [(0, false)] ∧
    ((sHalf 4).core 0).halves[(0 : Fin 2)].drn = some { drnOp with dest := 4 } ∧ ((sHalf 4).core 0).aq[drnOp.q].length < 16 ∧
    (tile 1 0 (.land 0 3)).source = .land 0 3 := by decide +kernel

theorem witness_LandingsComplete_resend : let l := { tile 1 0 (.drain 0 3 4 [(0, false)]) with refused := true }
    (withLanding l State.reset).upd.landings[0]? = some l ∧ l.refused = true := by decide +kernel

theorem witness_LandingsComplete_parked : let l := tile 0 0 (.drain 0 3 4 [(0, false)])
    let s := { withLanding l State.reset with upd := { (withLanding l State.reset).upd with landings := [], parked := [l] } }
    s.upd.parked[0]? = some l ∧ landingReady s group l = true := by decide +kernel

/-- Element 1 does not begin a block: cause 0x15. -/
theorem witness_LandingsRefused_land : let l := tile 0 1 (.land 0 3)
    let s := withLanding l (onCore (flying (flight false) []))
    s.upd.landings[0]? = some l ∧ groupOf s l.group = some group ∧ landingCause s group l = some 0x15 ∧
      (s.core 0).access.flights.find? (·.seq == 3) = some (flight false) ∧ (∀ x ∈ (s.core 0).access.flights, x.done = false → 3 ≤ x.seq) ∧
      (s.core 0).faulted = false ∧ s.job.aborting = false ∧ s.job.quiescing = false := by decide +kernel

/-- Elements 1,024 to 1,087 lie past the group's 1,024: cause 0x16. -/
theorem witness_LandingsRefused_drain : let l := tile 0 1024 (.drain 0 3 4 [(0, false)])
    let s := withLanding l (onCore runner)
    landingCause s group l = some 0x16 ∧ (s.core 0).faulted = false := by decide +kernel

/-- Micro-batch 4 of a group of four: cause 0x16. A job without the group: cause 0x16 as well. -/
theorem witness_LandingsRefused_chunk : let l := tile 4 0 (.chunk 0 2 1)
    let s := withLanding l (onCore runner)
    landingCause s group l = some 0x16 ∧ (s.core 0).faulted = false ∧ groupOf { s with upd := { s.upd with groups := [] } } l.group = none := by
  decide +kernel

theorem witness_BlocksAccumulate : let l := tile 0 960 (.drain 0 3 4 [(0, false)])
    let s := withLanding l State.reset
    s.sound = true ∧ s.aligned ∧ s.job.replay = none ∧ l.data.length = 64 ∧ l.first % 64 = 0 ∧ l.mb + 1 < 65536 ∧
      s.apart (group.gradAt l.first) 256 ∧ s.apart (group.counterAt (l.first / 64)) 2 ∧
      ∀ i < 256, ∀ j < 2, keyOf s (group.gradAt l.first + i) ≠ keyOf s (group.counterAt (l.first / 64) + j) := by
  intro l s
  have g : group.gradAt l.first = 7936 ∧ group.counterAt (l.first / 64) = 62 := by decide +kernel
  refine ⟨by decide +kernel, by unfold State.aligned; decide +kernel, rfl, rfl, by decide, by decide, ?_, ?_, ?_⟩
  · intro i j _ _ h; rw [key_same _ rfl, key_same _ rfl] at h; omega
  · intro i j _ _ h; rw [key_same _ rfl, key_same _ rfl] at h; omega
  · intro i _ j _ h; rw [key_same _ rfl, key_same _ rfl] at h; omega

def sLease (q : List Pass) (ls : List Lease) : State :=
  { sUpd with glb := { sUpd.glb with chanEng := true }, inp := { sUpd.inp with rails := true }, upd := { sUpd.upd with queue := q, leases := ls },
              mem := { sUpd.mem with hbmStacks := sUpd.mem.hbmStacks.set 0 { sUpd.mem.hbmStacks[(0 : Fin 12)] with xen := true } } }

theorem witness_LeasesRun_open : let s := sLease [updPass] []
    groupOf s updPass.group = some group ∧ nextPass s 0 0 = some updPass ∧ (∀ l ∈ s.upd.leases, ¬ (l.stack = 0 ∧ l.chan = 0)) ∧
      (headroom s = 0 → class3Runs s = true → leased s 0 < 8) ∧ servesStill s s.mem.hbmStacks[(0 : Fin 12)].chans[(0 : Fin 16)] = false ∧ s.jobSide = true ∧ s.glb.chanEng = true ∧ s.mem.hbmStacks[(0 : Fin 12)].xen = true := by
  decide +kernel

theorem witness_LeasesRun_second : let s := sLease [] []
    group.held = true ∧ ctlPass1 s group = s.job.step ∧ ctlRelease s group = s.job.step ∧ s.upd.second.any (·.1 == group.idx) = false ∧
      s.job.aborting = false ∧ groupOf s group.idx = some group := by decide +kernel

def lease (again reclaimed : Bool) : Lease := { stack := 0, chan := 0, id := 7, pass := { updPass with abandoned := again }, reclaimed := reclaimed }

theorem witness_LeasesRun_after : ∀ again : Bool, let s := sLease [] [lease again false]
    let u := (serveWaiting { s with upd := { s.upd with leases := s.upd.leases.filter (· ≠ lease again false) } } 0 0).say (.xstat 0 0)
    u.job.aborting = false ∧ u.flt.dumping = false := by decide +kernel

theorem witness_LeasesRun_done : (∀ again reclaimed : Bool, findLease (sLease [] [lease again reclaimed]) 0 0 = some (lease again reclaimed)) ∧
    (sLease [] [lease false false]).job.aborting = false ∧ (sLease [] [lease true false]).flt.dumping = false := by decide +kernel

/-! ## Memory -/

def sMem : State := withMem State.reset

/-- Memory whose channel 0 of stack 0, where address 0x800 lies, is under lease. -/
def sLeased : State := withMem (sLease [] [lease false false])

theorem witness_leased : ∀ r ∈ [MemReq.write 0x800 [1] false, .atomic 0x800 0 0 [1, 2, 3, 4] false, .read 0x800 3],
    (leasedAt sLeased r).isSome = true ∧ leasedAt sMem r = none := by decide +kernel

theorem witness_AtomicsComplete_leased : sLeased.sound = true ∧ sLeased.aligned ∧ sLeased.job.replay = none ∧
    hbmCause sLeased (0x800 : Addr).toNat 4 true (0x800 % 4 == 0) = none := by
  refine ⟨by decide +kernel, by unfold State.aligned; decide +kernel, rfl, by decide +kernel⟩

/-- The last byte of the region, and one that crosses its end. -/
theorem witness_HbmWritesComplete : sMem.sound = true ∧ sMem.aligned ∧ hbmCause sMem (0xFFFFF : Addr).toNat 1 true true = none ∧ sMem.job.replay = none ∧
    sMem.apart (0xFFFFF : Addr).toNat 1 := by
  refine ⟨by decide +kernel, by unfold State.aligned; decide +kernel, by decide +kernel, rfl, ?_⟩
  intro i j hi hj _; omega

theorem witness_HbmWritesComplete_refused : hbmCause sMem (0xFFFFF : Addr).toNat 2 true true = some 0x11 := by decide +kernel

/-- A sided region whose alias W lies one MiB above, in a replay. -/
def sSided : State :=
  { State.reset with mem := { State.reset.mem with regions := [{ region with sided := true, wbase := 2 ^ 20 }] },
                     job := { State.reset.job with replay := some (0, 0) } }

theorem witness_HbmWritesComplete_alias : sSided.sound = true ∧ sSided.job.replay.isSome = true ∧ hbmCause sSided (0x100040 : Addr).toNat 4 true true = none ∧
    ∀ i < 4, viaAliasW sSided ((0x100040 : Addr).toNat + i) = true := by decide +kernel

theorem witness_AtomicsComplete : sMem.sound = true ∧ sMem.job.replay = none ∧ atomBytes 0 = 4 ∧ hbmCause sMem (60 : Addr).toNat 4 true (60 % 4 == 0) = none ∧
    linePoison sMem (keyOf sMem 60 / 64) = false := by decide +kernel

theorem witness_AtomicsComplete_half : atomBytes 1 = 2 ∧ hbmCause sMem (62 : Addr).toNat 2 true (62 % 2 == 0) = none := by decide +kernel

def sPoison : State := { sMem with mem := { sMem.mem with poison := [0] } }

theorem witness_AtomicsComplete_poison : sPoison.mem.poison.contains (keyOf sPoison 60 / 64) = true ∧ hbmCause sPoison 60 4 true true = none := by decide +kernel

theorem witness_MemoryUpkeepCompletes : hbmCause sMem 0xFFFC0 64 false true = none ∧ leaseOn sMem (placeOf sMem 0).1 (placeOf sMem 0).2 = false := by decide +kernel

def wcb : Wcb := { line := 3, enables := 1, poison := false, viaW := false }
def sWcb : State := { sMem with mem := { sMem.mem with wcb := sMem.mem.wcb.set 2 [wcb] } }

theorem witness_MemoryUpkeepCompletes_wcb : sWcb.mem.wcb[(2 : Fin 24)].find? (·.line == 3) = some wcb := by decide +kernel

theorem witness_MemoryUpkeepCompletes_refresh : leaseOn sUpd 0 0 = false ∧ sUpd.mem.hbmStacks[(0 : Fin 12)].present = true ∧ sUpd.mem.selfRefresh = false := by decide +kernel

/-- 8.00 °C is no retraining, 8.25 °C is one; the last of 24 slices. -/
theorem witness_StacksRetrain : let st := sUpd.mem.hbmStacks[(0 : Fin 12)]
    st.present = true ∧ ((32 : Temp).toInt - st.tRef.toInt).natAbs ≤ 32 ∧ 32 < ((33 : Temp).toInt - st.tRef.toInt).natAbs ∧
      32 < ((-33 : Temp).toInt - st.tRef.toInt).natAbs := by decide +kernel

def sSlice : State :=
  let st : Stack := { Stack.reset with present := true, chans := Vector.replicate 16 { Chan.reset with live := true, slicesLeft := 1 } }
  { sMem with mem := { sMem.mem with hbmStacks := sMem.mem.hbmStacks.set 0 st } }

theorem witness_StacksRetrain_slice : 0 < sSlice.mem.hbmStacks[(0 : Fin 12)].chans[(5 : Fin 16)].slicesLeft ∧ leaseOn sSlice 0 5 = false := by decide +kernel

/-! ## Fabric -/

/-- Chip 5 lies through port 2; this is chip 1, and chip 6 is fenced. -/
def sFab : State :=
  { sMem with fab := { sMem.fab with chip := 1, routes := [(5, 0x12), (6, 0x32), (1, 0x18)] } }
def toFive : Packet := { pkt with dst := 5, src := 7, hops := 0 }

/-- It comes on port 3; port 2 is a way out. -/
theorem witness_PacketsRouted : (∀ h : (3 : Fin 10).val < 8, (sFab.fab.ports[(⟨(3 : Fin 10).val, h⟩ : Fin 8)]).silent = false) ∧ sFab.fab.routerDead = false ∧
    toFive.formed = true ∧ toFive.type ≠ 0x1B ∧ toFive.hops ≠ 1023 ∧ routeUsable (routeOf sFab 5) = true ∧ routeFenced (routeOf sFab 5) = false ∧
    chipFenced sFab 7 = false := by decide +kernel

/-- At its own chip a packet may have come 1,023 hops. -/
theorem witness_PacketsRouted_last_hop : let p := { toFive with dst := 1, hops := 1023 }
    p.formed = true ∧ p.dst = sFab.fab.chip ∧ routeUsable (routeOf sFab 1) = true := by decide +kernel

theorem witness_PacketsRouted_forms : ({ toFive with type := 0x7F } : Packet).formed = false ∧ ({ toFive with type := 0x1B } : Packet).formed = true ∧
    ({ toFive with stomps := 1 } : Packet).stomps ≠ 0 := by decide +kernel

theorem witness_PacketsRouted_misrouted : ({ toFive with hops := 1023 } : Packet).hops = 1023 ∧ ({ toFive with hops := 1023 } : Packet).dst ≠ sFab.fab.chip ∧
    routeUsable (routeOf sFab 9) = false ∧ routeFenced (routeOf sFab 9) = false := by decide +kernel

theorem witness_PacketsRouted_fenced : routeFenced (routeOf sFab 6) = true ∧ routeFenced (routeOf sFab 5) = false ∧ chipFenced sFab 6 = true := by decide +kernel

/-- A packet whose check code holds, as a request of any type. -/
theorem witness_intact : (∀ type ∈ [(1 : Byte), 2, 3], ({ ({ pkt with type := type } : Packet).sealed with type := type } : Packet).intact = true) ∧
    (∀ type ∈ [(1 : Byte), 2, 3], ({ pkt with type := type } : Packet).intact = false) := by decide +kernel

theorem witness_RequestsAnswered : mustHold sFab pkt = false ∧ hbmCause sFab 0 (pkt.length.toNat + 1) false true = none ∧
    hbmCause sFab 0 pkt.payload.length true true = none ∧ hbmCause sFab 0 pkt.payload.length true (atomBytes pkt.fmt ≠ 0 && 0 % atomBytes pkt.fmt == 0) = none := by
  decide +kernel

theorem witness_RequestsAnswered_refused : let p := { pkt with addr := 0x100000 }
    mustHold sFab p = false ∧ hbmCause sFab p.addr.toNat (p.length.toNat + 1) false true = some 0x11 ∧ hbmCause sFab p.addr.toNat p.payload.length true true = some 0x11 ∧
      hbmCause sFab 2 64 true (atomBytes 0 ≠ 0 && 2 % atomBytes 0 == 0) = some 0x15 := by decide +kernel

def heldPkt : Packet := { pkt with step := 1 }
def sHold : State := { sSided with mem := { sSided.mem with held := [{ p := pkt }] } }

theorem witness_RequestsAnswered_held : mustHold sHold heldPkt = true ∧ sHold.mem.held[0]? = some { p := pkt } ∧ mustHold sHold pkt = false := by decide +kernel

/-- A completion whose check code holds. -/
theorem witness_CompletionsTaken_intact : pkt.sealed.intact = true ∧ (∀ st : Fin 3, ({ pkt with status := [0x10, 2, 1].getD st.val 0 } : Packet).sealed.intact = true) := by
  decide +kernel

def tagOf (type : Byte) (used : BitVec 3) (noticed : Bool) : Tag :=
  { tag := 3, issuer := .access 0 3, p := { pkt with type := type, dst := 5 }, dest := .none, used := used, sent := true, sentTick := 0, resent := false,
    noticed := noticed, timeout := 0x4E1F, retries := 3 }
def sTag (t : Tag) : State := { onCore (flying (flight false) []) with fab := { sFab.fab with tags := [t] } }

theorem witness_CompletionsTaken : let s := sTag (tagOf 2 0 false)
    findTag s pkt.tag pkt.attempt = some (tagOf 2 0 false) ∧ (s.core 0).access.flights.find? (·.seq == 3) = some (flight false) ∧ s.unfaulted 0 ∧
      (∀ g ∈ (s.core 0).access.flights, g.done = false → 3 ≤ g.seq) ∧ endsNow s pkt.tag pkt.attempt = false ∧ endedNow s pkt.tag pkt.attempt = false ∧
      pkt.status = 0 ∧ findTag sFab pkt.tag pkt.attempt = none := by
  refine ⟨?_, ?_, by constructor <;> decide +kernel, ?_, ?_, ?_, ?_, ?_⟩ <;> decide +kernel

/-- The attempt's end came in this tick, before the notice, or the completion is still to come in it. -/
theorem witness_CompletionsTaken_void : endedNow { sTag (tagOf 2 0 false) with fab := { (sTag (tagOf 2 0 false)).fab with ended := [(3, 0)] } } 3 0 = true ∧
    endsNow { sTag (tagOf 2 0 false) with pending := [.ack pkt.sealed] } 3 0 = true := by decide +kernel

theorem witness_CompletionsTaken_status : (0x10 ≤ (0x10 : W16).toNat ∧ (0x17 : W16).toNat ≤ 0x17) ∧
    BitVec.ofNat 16 (leAt { pkt with cls := padTo 24 0 [5, 0] }.cls 0 2) ≠ (sTag (tagOf 2 0 false)).fab.chip ∧
    BitVec.ofNat 16 (leAt { pkt with cls := padTo 24 0 [1, 0] }.cls 0 2) = (sTag (tagOf 2 0 false)).fab.chip ∧ (sTag (tagOf 2 0 false)).fab.fenced = false := by
  decide +kernel

def waiting : SendReq := { issuer := .access 0 3, p := toFive, dest := .none, held := none, waited := false }
def sSend : State := { sFab with fab := { sFab.fab with sendQ := [waiting] } }

theorem witness_SendsAndTimers_send : let e := routeOf sSend 5
    sSend.fab.sendQ[0]? = some waiting ∧ sSend.fab.fenced = false ∧ sSend.job.quiescing = false ∧ routeUsable e = true ∧ routeFenced e = false ∧
      (pickTag sSend waiting.issuer).isSome = true ∧ (∃ x, takeWin sSend 5 = some x ∧ (windowed waiting.p = true → winRoom x.1 waiting.p.charge = true)) ∧
      hasCredit sSend (routePort e) (injectVc e ((typeClass waiting.p.type).getD 3)) = true := by
  refine ⟨by decide +kernel, by decide +kernel, by decide +kernel, by decide +kernel, by decide +kernel, by decide +kernel, ⟨_, rfl, ?_⟩, by decide +kernel⟩
  decide +kernel

/-- A PUT with two of three retries used, one with all used, an ATOMIC. -/
theorem witness_SendsAndTimers_timeout : (∀ t ∈ [tagOf 2 2 false, tagOf 2 3 false, tagOf 3 0 false], (sTag t).fab.tags.find? (·.tag == t.tag) = some t ∧
      t.sent = true ∧ t.noticed = false ∧ completesNow (sTag t) t.tag t.p.attempt = false ∧ fencedNow (sTag t) t.tag t.p.attempt = false) ∧
    (tagOf 2 2 false).used.toNat < (tagOf 2 2 false).retries.toNat ∧ (tagOf 2 3 false).retries.toNat ≤ (tagOf 2 3 false).used.toNat ∧
    completesNow { sTag (tagOf 2 2 false) with pending := [.ack pkt.sealed] } 3 0 = true := by decide +kernel

theorem witness_SendsAndTimers_notice : let t := tagOf 2 0 true
    (sTag t).fab.tags.find? (·.tag == t.tag) = some t ∧ t.noticed = true ∧ (sTag t).fab.fenced = false ∧ (sTag t).job.quiescing = false ∧
      chipFenced (sTag t) t.p.dst = false := by decide +kernel

/-- More than three quarters of 1,024 flits are held. -/
def sPort : State :=
  { sFab with inp := { sFab.inp with rails := true }, sec := { sFab.sec with conf := true },
              fab := { sFab.fab with ports := sFab.fab.ports.set 0 { Port.reset with up := true, occupancy := Port.reset.occupancy.set 1 769 } } }

theorem witness_PortEventsComplete : sPort.fab.ports[(0 : Fin 8)].up = true ∧ sPort.fab.ports[(0 : Fin 8)].silent = false ∧
    above75 sPort.fab.ports[(0 : Fin 8)] 1 = true ∧ above75 sPort.fab.ports[(0 : Fin 8)] 0 = false ∧ sPort.inp.rails = true ∧ sPort.sec.conf = true := by decide +kernel

/-! ## Collectives -/

def run (op : BitVec 4) (phase : Nat) (started : Bool) : CollRun :=
  { id := 4, core := 0, seq := 3, comm := 2, op := op, chunk := 0, nchunks := 1, param := 0, drain := false, fmt := 0, dst := Desc.reset,
    buf := [List.replicate 32 (0x3F800000, false)], terms := [], got := [], counts := [], phase := phase, started := started, left := 16, fenced := [] }

/-- Sixteen elements of chunk 0 from chip 2, member 1. -/
def collPkt (op : BitVec 4) (kind off : Nat) : Packet :=
  ({ pkt with type := 0x10, dst := 1, src := 2, cls := collCls 2 0 1 op 0 kind off 0 15 } : Packet).sealed

theorem witness_CollectivePacketsTaken_intact : (collPkt 0 0 0).intact = true ∧ { collPkt 0 0 0 with stomps := 2 }.intact = false := by decide +kernel

def sRun (r : CollRun) : State :=
  let s := withComm (onCore (flying (flight false) []))
  { s with coll := { s.coll with runs := [r] } }
def sNoRun : State := withComm State.reset

theorem witness_CollectivePacketsTaken_stale : let s := { sNoRun with job := { sNoRun.job with step := 3 } }
    commOf s (collId (collPkt 0 0 0)).comm = some ringComm ∧ s.fab.fenced = false ∧ s.job.quiescing = false ∧ (collPkt 0 0 0).step ≠ s.job.step ∧
      (s.job.step - (collPkt 0 0 0).step).toNat < 2 ^ 31 := by decide +kernel

theorem witness_CollectivePacketsTaken_seen : let s := { sNoRun with coll := { sNoRun.coll with seen := [collId (collPkt 0 0 0)] } }
    staleStep s (collPkt 0 0 0) = false ∧ collId (collPkt 0 0 0) ∈ s.coll.seen ∧ isHeapOp (collOp (collPkt 0 0 0)) = false := by decide +kernel

/-- A broadcast packet stored and not yet used comes again. -/
theorem witness_CollectivePacketsTaken_again : let s := { sNoRun with coll := { sNoRun.coll with seen := [collId (collPkt 4 2 0)], early := [collPkt 4 2 0] } }
    staleStep s (collPkt 4 2 0) = false ∧ collId (collPkt 4 2 0) ∈ s.coll.seen ∧ isHeapOp (collOp (collPkt 4 2 0)) = true ∧
      ∃ q ∈ s.coll.early, collId q = collId (collPkt 4 2 0) := by
  refine ⟨by decide +kernel, by decide +kernel, by decide +kernel, _, List.mem_cons_self, rfl⟩

/-- 18,432 packets of 4,096 bytes fill the arrival store. -/
theorem storeFull (s : State) (h : s.coll.early = List.replicate 18432 { pkt with payload := List.replicate 4096 0 }) : 75497472 ≤ storeBytes s := by
  unfold storeBytes
  rw [h, List.map_append, List.sum_append, List.map_replicate, List.sum_replicate]
  simp only [List.length_replicate, smul_eq_mul]
  omega

theorem witness_CollectivePacketsTaken_full :
    let s := { sNoRun with coll := { sNoRun.coll with early := List.replicate 18432 { pkt with payload := List.replicate 4096 0 } } }
    75497472 < storeBytes s + (collPkt 0 0 0).payload.length := by
  intro s
  have h : 75497472 ≤ storeBytes s := storeFull s rfl
  have n : (collPkt 0 0 0).payload.length = 64 := by decide +kernel
  omega

/-- A tree of four members: the pair 2, 3 comes to member 0 before the pair 0, 1 is formed. -/
def treeComm : Comm := { ringComm with tree := true, members := [1, 2, 3, 4], counts := [8, 8, 8, 8], phases := [(0, 0xFF, 4)] }
def treePkt : Packet := ({ pkt with type := 0x10, dst := 1, src := 3, cls := collCls 2 0 2 0 0 0 0 2 1 } : Packet).sealed
def treeRun : CollRun := { run 0 0 true with buf := [List.replicate 32 (0x3F800000, false)] }

theorem witness_CollectivePacketsTaken_tree : treeWaits treeComm treeRun treePkt = true ∧ treePkt.intact = true ∧
    (let s := { sRun treeRun with coll := { (sRun treeRun).coll with comms := [treeComm] } }
     commOf s (collId treePkt).comm = some treeComm ∧ runFor s treeComm treePkt = some treeRun ∧ staleStep s treePkt = false ∧
       collId treePkt ∉ s.coll.seen) ∧
    treeWaits ringComm (run 0 0 true) (collPkt 0 0 0) = false := by decide +kernel

theorem witness_CollectivePacketsTaken_early : runFor sNoRun ringComm (collPkt 0 0 0) = none ∧ collId (collPkt 0 0 0) ∉ sNoRun.coll.seen ∧
    storeBytes sNoRun + (collPkt 0 0 0).payload.length ≤ 75497472 := by decide +kernel

/-- A ring partial at its owner (element 0), one to pass on (element 16), a gathered piece, an A2AV segment, a multicast. -/
theorem witness_CollectivePacketsTaken_used : runFor (sRun (run 0 0 true)) ringComm (collPkt 0 0 0) = some (run 0 0 true) ∧
    ringComm.ownerCoord 0 0 = ringComm.coord 0 ∧ ringComm.ownerCoord 0 16 ≠ ringComm.coord 0 ∧
    runFor (sRun (run 0 0 true)) ringComm (collPkt 0 0 16) = some (run 0 0 true) ∧ isReduce 0 = true ∧ ringComm.tree = false ∧
    (collId (collPkt 0 0 0)).kind ≠ 1 := by decide +kernel

theorem witness_CollectivePacketsTaken_gather : runFor (sRun (run 1 0 true)) ringComm (collPkt 1 1 16) = some (run 1 0 true) ∧ isReduce 1 = true ∧
    (collId (collPkt 1 1 16)).kind = 1 := by decide +kernel

theorem witness_CollectivePacketsTaken_direct : runFor (sRun (run 3 0 true)) ringComm (collPkt 3 2 0) = some (run 3 0 true) ∧
    isHeapOp (collOp (collPkt 4 2 0)) = true ∧ runFor (sRun (run 4 0 true)) ringComm (collPkt 4 2 0) = some (run 4 0 true) := by decide +kernel

theorem witness_CollectivePacketsTaken_apply : let s := { sRun (run 0 0 true) with coll := { (sRun (run 0 0 true)).coll with early := [collPkt 0 0 0] } }
    s.coll.early[0]? = some (collPkt 0 0 0) ∧ runFor s ringComm (collPkt 0 0 0) = some (run 0 0 true) := by decide +kernel

theorem witness_OperationsRun_phase : let r := run 0 0 false
    let s := sRun r
    s.coll.runs.find? (·.id == r.id) = some r ∧ commOf s r.comm = some ringComm ∧ s.fab.fenced = false ∧ s.job.quiescing = false ∧ isReduce r.op = true ∧
      (phaseSteps ringComm r.op)[r.phase]? = some (0, false) ∧ planAllows s ringComm 0 = true := by decide +kernel

/-- A phase of plan 3 while plan 0 is current. -/
def planned : Comm := { ringComm with phases := [(0, 3, 2)] }

theorem witness_OperationsRun_plan : let s := { sRun (run 0 0 false) with coll := { (sRun (run 0 0 false)).coll with comms := [planned] } }
    commOf s 2 = some planned ∧ (phaseSteps planned 0)[0]? = some (0, false) ∧ planAllows s planned 0 = false ∧ isReduce 3 = false := by decide +kernel

theorem witness_OperationsRun_complete : let r := run 0 1 true
    let s := sRun r
    r.drain = false ∧ (∀ t ∈ s.fab.tags, t.issuer ≠ .coll r.id) ∧ (∀ q ∈ s.fab.sendQ, q.issuer ≠ .coll r.id) ∧ owesAck s r = false ∧ isReduce r.op = true ∧
      r.over s ringComm = true ∧ ringComm.land = false ∧ gatherLacks ringComm r (addFenced r.fenced (fencedMembers s ringComm)) = false := by decide +kernel

/-- Member 1 is fenced: in the scatter step the operation ends at once; an AG that is over lacks its segment. -/
theorem witness_OperationsRun_fenced : let s0 := sRun (run 0 0 true)
    let s := { s0 with fab := { s0.fab with routes := [(2, 0x32)] } }
    (run 0 0 true).over s ringComm = false ∧ addFenced (run 0 0 true).fenced (fencedMembers s ringComm) = [1] ∧
      (phaseSteps ringComm 0)[(run 0 0 true).phase]? = some (0, false) ∧ (run 1 1 true).over s ringComm = true ∧
      gatherLacks ringComm (run 1 1 true) (addFenced (run 1 1 true).fenced (fencedMembers s ringComm)) = true := by decide +kernel

/-- An AG in its gather step, an RS with no member fenced, and a broadcast that is not over. -/
theorem witness_OperationsRun_goes_on : let s := sRun (run 1 0 true)
    (run 1 0 true).over s ringComm = false ∧ (phaseSteps ringComm 1)[(run 1 0 true).phase]? = some (0, true) ∧
      addFenced (run 0 0 true).fenced (fencedMembers s ringComm) = [] ∧ (run 0 0 true).over s ringComm = false ∧ (run 4 0 true).over s ringComm = false := by
  decide +kernel

/-- Every element that member 1 sends here has come (R233: how many is a value of the configuration). -/
def gotAll : CollRun :=
  { run 3 0 true with got := [(1, 0, List.replicate (a2avSent (sRun (run 3 0 true)) ringComm (run 3 0 true) 1) (0, false))] }

theorem witness_OperationsRun_a2av : gotAll.op = 3 ∧ gotAll.over (sRun gotAll) ringComm = true := by
  refine ⟨rfl, ?_⟩
  have h : gotAll.received 1 = a2avSent (sRun gotAll) ringComm gotAll 1 := by
    have one (l : List PElem) : ({ run 3 0 true with got := [(1, 0, l)] } : CollRun).received 1 = l.length := Nat.add_zero _
    exact (one _).trans List.length_replicate
  show (true && (List.range 2).all fun m => m == 0 || chipFenced _ _ || gotAll.received m == _) = true
  rw [Bool.true_and, List.all_eq_true]
  intro m hm
  have : m = 0 ∨ m = 1 := by have := List.mem_range.1 hm; omega
  rcases this with rfl | rfl
  · rfl
  · rw [h]; simp

/-- A broadcast with nothing left, with no branch cut and with one. -/
theorem witness_OperationsRun_direct : let r4 := { run 4 0 true with left := 0 }
    r4.over (sRun r4) ringComm = true ∧ isHeapOp 4 = true ∧ isHeapOp 5 = true ∧ pruned ringComm r4 = false ∧
      pruned ringComm { r4 with cut := [1] } = true := by decide +kernel

/-- Chunk 0 lands in group 5; this member's sixteen elements are its block. -/
def landComm : Comm := { ringComm with land := true, landMap := [{ first := 0, chunks := 1, group := 5, mb := 0, obase := 0 }] }
def landRun : CollRun := { run 0 1 true with got := [(0, 0, List.replicate 16 (0x3F800000, false))] }

theorem witness_OperationsRun_land : landRun.op = 0 ∧ landComm.land = true ∧ landRun.over (sRun landRun) landComm = true ∧ landPieces landComm landRun ≠ [] ∧
    { landRun with drain := true }.over (sRun landRun) landComm = true := by decide +kernel

/-! ## Cinches -/

def cinch (kind : CinchKind) : Cinch :=
  { comm := 2, cseq := 0, kind := kind, record := CinchRec.blank, ups := [], dst := none, chunk := 0, upSent := false, upAcked := false }
def cinchPkt (kind : Nat) : Packet := ({ pkt with type := 0x18, dst := 1, src := 2, cls := cinchCls 2 0 kind 0xFF 1 } : Packet).sealed

theorem witness_CinchPacketsTaken_intact : (∀ kind : Fin 3, (cinchPkt kind.val).intact = true) ∧ { cinchPkt 0 with stomps := 1 }.intact = false := by decide +kernel

def sCinch (n : List Cinch) : State :=
  { withManifest sNoRun with coll := { sNoRun.coll with cinches := n }, hlk := { sNoRun.hlk with state := .running } }

theorem witness_CinchPacketsTaken : let s := sCinch [cinch (.coll 0 3)]
    commOf s (cinchComm (cinchPkt 0)) = some ringComm ∧ s.fab.fenced = false ∧ s.job.quiescing = false ∧ s.opt.switching = false ∧
      findCinch s ringComm.idx = some (cinch (.coll 0 3)) ∧ (cinch (.coll 0 3)).cseq = cinchSeq (cinchPkt 0) := by decide +kernel

theorem witness_CinchPacketsTaken_switching : let s := { sCinch [] with opt := { (sCinch []).opt with switching := true } }
    s.opt.switching = true ∧ commOf s (cinchComm (cinchPkt 0)) = some ringComm := by decide +kernel

theorem witness_CinchPacketsTaken_none : findCinch (sCinch []) ringComm.idx = none ∧ (cinchSeq (cinchPkt 0) - ringComm.cseq).toNat < 2147483648 ∧
    (sCinch []).coll.earlyUps = [] := by decide +kernel

theorem witness_CinchPacketsTaken_resend : let n := { cinch (.coll 0 3) with upSent := true, ups := [(1, CinchRec.blank)] }
    (∀ o ∈ (sCinch [n]).coll.owed, o.comm ≠ ringComm.idx) ∧ findCinch (sCinch [n]) ringComm.idx = some n ∧ n.upSent = true ∧ n.upAcked = false ∧
      chipFenced (sCinch [n]) (ringComm.chip (cinchParentRaw ringComm ringComm.self)) = false ∧ (cinchGathered (sCinch [n]) ringComm n).isSome = true := by decide +kernel

def owedDown : CinchOwed := { comm := 2, cseq := 0, member := 1, record := CinchRec.blank }

theorem witness_CinchPacketsTaken_cack : owedDown.comm = ringComm.idx ∧ owedDown.cseq = cinchSeq (cinchPkt 2) ∧ owedDown.member = cinchSender (cinchPkt 2) ∧
    (sCinch []).coll.owed = [] := by decide +kernel

def sEnter : State :=
  let s := withMem (sCinch [])
  { s with job := { s.job with dispatching := true } }

theorem witness_CommitEntered : sEnter.job.manifest = some manifest ∧ commOf sEnter manifest.commit = some ringComm ∧ mayEnter sEnter = true ∧
    findCinch sEnter ringComm.idx = none ∧
    ∃ x ∈ (cinchFamily sEnter ringComm).1, ∀ q ∈ sEnter.coll.earlyUps, cinchComm q = ringComm.idx → cinchSeq q = ringComm.cseq → cinchSender q ≠ x := by
  refine ⟨by decide +kernel, by decide +kernel, by decide +kernel, by decide +kernel, 1, by decide +kernel, by decide +kernel⟩

theorem witness_CommitDecides : let s := sCinch [cinch .commit]
    findCinch s ringComm.idx = some (cinch .commit) ∧ (cinch .commit).kind = .commit ∧ s.job.manifest = some manifest ∧
      commOf s (cinchComm (cinchPkt 1)) = some ringComm ∧ (cinch .commit).cseq = cinchSeq (cinchPkt 1) ∧ s.fab.fenced = false ∧ s.job.quiescing = false ∧
      s.opt.switching = false ∧ s.job.replay = none ∧ commOf s ringComm.idx = some ringComm := by decide +kernel

/-- The outcomes of a commit cinch: FENCED, poison, overflow, drain, and none of them. -/
def commitPkt (orw status : Byte) : Packet :=
  ({ cinchPkt 1 with payload := [orw] ++ List.replicate 7 0 ++ leBytes 8 0x500 ++ List.replicate 8 0 ++ [status] ++ List.replicate 39 0 } : Packet).sealed

theorem witness_CommitDecides_intact (orw status : Byte) : (commitPkt orw status).intact = true := sealed_intact _

theorem witness_CommitDecides_words : (cinchOf (commitPkt 0 1)).status = 1 ∧ (cinchOf (commitPkt 2 0)).orw.getLsbD 1 = true ∧
    (∀ x ∈ [(1 : Byte), 4, 0], (cinchOf (commitPkt x 0)).status = 0 ∧ (cinchOf (commitPkt x 0)).orw = BitVec.ofNat 64 x.toNat) := by
  decide +kernel

/-! ## Optics -/

/-- Fibre port 0 belongs to network port 2; lane 0 sends and receives on it. -/
def lane0 : Lane := { Lane.reset with txPort := some 0, rxPort := some 0, txState := 3, rxState := 3, txMod := 2, rxMod := 2, txActive := true, rxActive := true }
def sLane (l : Lane) : State :=
  { State.reset with opt := { State.reset.opt with portMap := [2] ++ List.replicate 15 0xFF, lanes := State.reset.opt.lanes.set 0 l } }

/-- A pilot word of a line and engine with its check nibble. -/
def word (x : Nat) : W16 := BitVec.ofNat 16 (0xB + 16 * x + 4096 * crc4 x)

theorem witness_RingsTrack_acquire : let s := sLane { lane0 with rxState := 2, txState := 2, rxGood := 1 }
    ringState s.opt.lanes[(0 : Fin 64)] false = 2 ∧ ringState s.opt.lanes[(0 : Fin 64)] true = 2 ∧ wordValid (word 0) = true ∧ wordMatches s 0 false (word 0) = true ∧
      wordMatches s 0 true (word 0) = true ∧ s.opt.lanes[(0 : Fin 64)].rxGood = 1 ∧ s.opt.lanes[(0 : Fin 64)].txGood ≠ 1 ∧
      s.opt.lanes[(0 : Fin 64)].rxOut = false := by decide +kernel

theorem witness_RingsTrack_other : let s := sLane { lane0 with rxState := 2 }
    ringState s.opt.lanes[(0 : Fin 64)] false = 2 ∧ wordValid (word 1) = true ∧ wordMatches s 0 false (word 1) = false := by decide +kernel

theorem witness_RingsTrack_locked : let s := sLane { lane0 with rxOther := 2 }
    ringState s.opt.lanes[(0 : Fin 64)] false = 3 ∧ wordValid (word 1) = true ∧ wordMatches s 0 false (word 1) = false ∧
      s.opt.lanes[(0 : Fin 64)].rxOther = 2 ∧ s.opt.lanes[(0 : Fin 64)].txOther ≠ 2 := by decide +kernel

theorem witness_RingsTrack_sweep : let s := sLane { lane0 with rxState := 1, rxSweeps := 2, txState := 1, txSweeps := 1 }
    ringState s.opt.lanes[(0 : Fin 64)] false = 1 ∧ 2 ≤ s.opt.lanes[(0 : Fin 64)].rxSweeps ∧ ringState s.opt.lanes[(0 : Fin 64)] true = 1 ∧
      s.opt.lanes[(0 : Fin 64)].txSweeps < 2 := by decide +kernel

/-- A receive lane without a port stays locked, and a failed ring is left alone. -/
theorem witness_RingsTrack_lost : let s := sLane lane0
    ringState s.opt.lanes[(0 : Fin 64)] false = 3 ∧ s.opt.lanes[(0 : Fin 64)].rxPort.isSome = true ∧
      ((sLane { lane0 with rxPort := none }).opt.lanes[(0 : Fin 64)]).rxPort = none ∧
      ringState (sLane { lane0 with rxState := 4 }).opt.lanes[(0 : Fin 64)] false = 4 := by decide +kernel

theorem witness_LanesMove : let s := sLane lane0
    txNet s 0 = some 2 ∧ s.opt.lanes[(0 : Fin 64)].txOut = false ∧ fibrePort 0 s.opt.lanes[(0 : Fin 64)].rxPort = some 0 ∧ keptOut s 0 = false ∧
      s.opt.lanes[(0 : Fin 64)].rxState ≠ 4 ∧ s.opt.lanes[(0 : Fin 64)].rxOut = false ∧ s.opt.combs.getLsbD 0 = true ∧ enginePresent s 0 = true ∧
      s.opt.combs.getLsbD 4 = true ∧ s.opt.spareUsed = false := by decide +kernel

theorem witness_LanesMove_ready : let s (due : Bool) := sLane { lane0 with txOut := true, txReady := true, txDue := due, rxOut := true }
    ∀ due : Bool, txNet (s due) 0 = some 2 ∧ (s due).opt.lanes[(0 : Fin 64)].txOut = true ∧ (s due).opt.lanes[(0 : Fin 64)].txState = 3 ∧
      (s due).opt.lanes[(0 : Fin 64)].txDue = due ∧ (s due).opt.lanes[(0 : Fin 64)].txReady = true ∧ (s due).opt.lanes[(0 : Fin 64)].rxOut = true ∧
      (s due).opt.lanes[(0 : Fin 64)].rxReady = false ∧ keptOut (s due) 0 = false := by decide +kernel

/-- 11.0 dB is just enough for the lower modulation, 18.0 dB for the higher. -/
theorem witness_LanesMove_train : ∀ x ∈ [110, 180], let t : LaneTrain := { lane := 0, locked := true, snrRx := BitVec.ofNat 10 x, snrTx := 109, heater := 5 }
    t.lane = 0 ∧ t.locked = true := by decide +kernel

theorem witness_LanesMove_spare : let s := { sLane lane0 with opt := { (sLane lane0).opt with spareUsed := true, spareLit := true, combs := 0x0F } }
    s.opt.spareLit = true ∧ s.opt.spareUsed = true ∧ s.opt.combs.getLsbD 4 = false ∧ s.opt.combs.getLsbD 3 = true := by decide +kernel

def frame (n : BitVec 24) : Frame :=
  { lid := 0, seq := n, ack := 0xFFFFFF, nack := false, svcType := 0, svcPayload := 0, credits := [(0, 2)], flits := [], secCounter := 0 }
def goodRx : FrameRx := { errors0 := 15, errors1 := 0, late := false }
/-- Its bits, with nineteen slots that hold no flit. -/
def frameWord (n : BitVec 24) : BitVec 10280 := BitVec.ofNat 10280 (frameHead (frame n))

theorem witness_FramesMove_send : let s := sLane lane0
    s.opt.straps[(2 : Fin 8)].paused = false ∧ ([] : List Flit).length ≤ slotsPerFrame s ∧ nextLane s 2 = some 0 ∧ slotsPerFrame s = 19 := by decide +kernel

/-- A paused strap whose Done waits, and one with nothing to say. -/
theorem witness_FramesMove_done : let o := (sLane lane0).opt
    let s (x : List (BitVec 4 × Byte)) : State := { sLane lane0 with opt := { o with straps := o.straps.set 2 { Strap.reset with paused := true, svcQ := x } } }
    (s [(4, 0)]).opt.straps[(2 : Fin 8)].paused = true ∧ ((s [(4, 0)]).opt.straps[(2 : Fin 8)].svcQ.headD (0, 0)).1 = 4 ∧ nextLane (s [(4, 0)]) 2 = some 0 ∧
      (s [(4, 0)]).opt.straps[(2 : Fin 8)].doneSeen = false ∧ ((s []).opt.straps[(2 : Fin 8)].svcQ.headD (0, 0)).1 ≠ 4 ∧ nextLane State.reset 2 = none := by
  decide +kernel

/-- A packet waits on port 2 and its channel has a credit. -/
def sOut : State :=
  let s := sLane lane0
  { s with fab := { s.fab with ports := s.fab.ports.set 2 { Port.reset with
      credits := Port.reset.credits.set 0 1, outQ := [{ vc := 0, p := pkt, inPort := 8, inVc := 0, sent := 0 }] } } }

theorem witness_FramesMove_flit : (nextFlit sOut 2).isSome = true := by decide +kernel

/-- The frames are read as they were numbered, with no gap to report and nothing to say. -/
theorem witness_FramesMove_word :
    ((frameOf false (frameWord 0).toNat).nack = false ∧ (frameOf false (frameWord 0).toNat).svcType ≠ 4 ∧ (frameOf false (frameWord 0).toNat).seq = 0) ∧
    ((frameOf false (frameWord 2).toNat).nack = false ∧ (frameOf false (frameWord 2).toNat).svcType ≠ 4 ∧ (frameOf false (frameWord 2).toNat).seq = 2) ∧
    (frameOf false (frameWord 0xFFFFFF).toNat).nack = false ∧ (frameOf false (frameWord 0xFFFFFF).toNat).svcType ≠ 4 ∧
      (frameOf false (frameWord 0xFFFFFF).toNat).seq = 0xFFFFFF := by
  refine ⟨⟨?_, ?_, ?_⟩, ⟨?_, ?_, ?_⟩, ?_, ?_, ?_⟩ <;> decide +kernel

/-- In sequence (0), ahead of it (2), seen before (0xFFFFFF). -/
theorem witness_FramesMove_receive : let s := sLane lane0
    let q := s.opt.straps[(2 : Fin 8)]
    rxNet s 0 = some 2 ∧ s.opt.phase ≠ 2 ∧ farLane s 0 = none ∧ s.sec.conf = false ∧ s.fab.ports[(2 : Fin 8)].silent = false ∧ q.doneAt = none ∧
      goodRx.errors0 ≤ 15 ∧ goodRx.errors1 ≤ 15 ∧ goodRx.late = false ∧ q.buffer = [] ∧
      0 = q.rxSeq + 1 ∧ 2 ≠ q.rxSeq + 1 ∧ seqAfter 2 q.rxSeq = true ∧ 0xFFFFFF ≠ q.rxSeq + 1 ∧ seqAfter 0xFFFFFF q.rxSeq = false := by
  decide +kernel

/-- Confidential mode: a reserved bit of the security slot is set. -/
theorem witness_FramesMove_auth : clearBits true (BitVec.ofNat 10280 (2 ^ 10065)).toNat = none ∧
    ({ State.reset.sec with conf := true } : Sec).conf = true ∧ rxNet { sLane lane0 with sec := { State.reset.sec with conf := true } } 0 = some 2 := by
  decide +kernel

def sSwitch (phase : Nat) : State :=
  let o := (sLane lane0).opt
  let q : Strap := { Strap.reset with paused := true, doneSent := phase == 2 }
  { sLane lane0 with opt := { o with switching := true, target := 3, phase := phase, straps := o.straps.set 2 q } }

theorem witness_PlansSwitch : (sLane lane0).opt.switching = false ∧ (sLane lane0).opt.plan.toNat ≠ (3 : Fin 8).val ∧ (sLane lane0).opt.plan.toNat = (0 : Fin 8).val ∧
    (∀ n ∈ [0, 1, 2], (sSwitch n).opt.switching = true ∧ (sSwitch n).opt.phase = n ∧ (sSwitch n).opt.target.toNat = (3 : Fin 8).val) ∧
    (sSwitch 2).opt.markersHeld = [] ∧ (sSwitch 0).opt.target.toNat ≠ (1 : Fin 8).val ∧ (sSwitch 0).opt.plan.toNat ≠ (1 : Fin 8).val ∧
    (∀ n ∈ (sSwitch 2).coll.cinches, n.upSent = true) ∧ (sSwitch 2).coll.heldDowns = [] ∧
    ({ (sSwitch 2).opt with markersHeld := [1] } : Optics).markersHeld = 1 :: [] ∧ (1 : Fin 8).val ≠ (sSwitch 2).opt.target.toNat := by decide +kernel

theorem witness_PlansSwitch_done : (∀ n ∈ [0, 2], ((sSwitch n).opt.straps[(2 : Fin 8)]).paused = true ∧
      (if (sSwitch n).opt.switching then (sSwitch n).opt.target else (sSwitch n).opt.plan).toNat = (3 : Fin 8).val) ∧
    ((sSwitch 0).opt.straps[(2 : Fin 8)]).doneSent = false ∧ ((sSwitch 2).opt.straps[(2 : Fin 8)]).doneSent = true := by decide +kernel

/-- A PLAN packet that says plan 0 has lanes on a fibre that this module's plan gives none. -/
def planPkt : Packet := ({ pkt with payload := [1, 1] ++ List.replicate 6 0 ++ [1, 0, 0x34, 0x12] ++ List.replicate 14 0 } : Packet).sealed
def planNone : Packet := ({ pkt with payload := List.replicate 64 0 } : Packet).sealed

theorem witness_PlansSwitch_plan : let s := { sLane lane0 with hlk := { Hlk.reset with state := .loaded } }
    planPkt.intact = true ∧ planNone.intact = true ∧ { planPkt with stomps := 1 }.intact = false ∧ s.hlk.state = .loaded ∧ planDiffs s 2 planPkt ≠ [] ∧
      planDiffs s 2 planNone = [] := by decide +kernel

/-! ## Discovery -/

def declHead : List Byte :=
  [1, 1, 1, 0, 0, 0, 0, 0] ++ leBytes 8 0x77 ++ leBytes 8 0x2000 ++ leBytes 4 1000 ++ [2] ++ List.replicate 15 0xFF
def declaration : List Byte := declHead ++ leBytes 4 (crc32 declHead).toNat ++ List.replicate 16 0

def desc (op : Byte) (body : List Byte) : Inflight :=
  { idx := 0, bytes := [op] ++ body, status := none, detailA := 0, detailB := 0, code := 0, acted := false }
def sDesc (ring : RingId) (d : Inflight) : State :=
  { State.reset with hlk := { State.reset.hlk with up := true, rings := State.reset.hlk.rings.set ring { Ring.reset ring.val with enable := true, size := 4, inflight := [d] } } }

theorem witness_DiscoveryRuns_declared : let d := desc 0x40 (List.replicate 27 0 ++ [64] ++ List.replicate 35 0)
    let s := sDesc 0 d
    s.descReady 0 0 0x40 d ∧ descCheck s 0 d = none ∧ sealing s = false ∧ declaration.length = 64 ∧ declBad s declaration = false ∧
      s.disc.running = false ∧ (declOf declaration).seed ≠ s.glb.moduleId ∧ declBad s (List.replicate 64 0) = true := by
  refine ⟨by constructor <;> decide +kernel, ?_⟩
  decide +kernel

def declared : Decl := declOf declaration
def sDisc : State := { State.reset with disc := { State.reset.disc with running := true, decl := some declared } }

/-- A message of the far module with this discovery's tag, as a packet. -/
def discMsg (kind : Fin 4) (ack : Bool) : DiscMsg :=
  { kind := kind, ack := ack, src := 0xFFFF, fport := 1, nport := 0, tseq := 7, echo := 9, turnaround := 0, tag := declared.tag, identity := 0x2000,
    dcrc := declared.dcrc, engine := 0, coords := [0, 0, 0, 0], lens := [1, 0, 0, 0], count := 1, flags := 0, result := 0 }
def discPkt (kind : Fin 4) (ack : Bool) : Packet := discPacket sDisc (discMsg kind ack) (discPayload (discMsg kind ack))

/-- Every kind comes intact, is read as it was sent, and is answered. -/
theorem witness_DiscoveryRuns_packets : ∀ kind : Fin 4, ∀ ack : Bool, (discPkt kind ack).intact = true ∧ (discOf (discPkt kind ack)).map (fun m => (answering sDisc 0 m, m.kind, m.ack, m.echo)) = some (some declared, kind, ack, 9) :=
  fun kind ack => ⟨sealed_intact _, by revert kind ack; decide +kernel⟩

theorem witness_DiscoveryRuns_messages : sDisc.disc.running = true ∧ sDisc.disc.links[(0 : Fin 16)].helloChecked = false ∧
    sDisc.disc.links[(0 : Fin 16)].coordSeen = false ∧ sDisc.disc.coords = none ∧ sDisc.disc.links[(0 : Fin 16)].upFrom = none ∧
    sDisc.disc.links[(0 : Fin 16)].helloAcked = false ∧ sDisc.disc.decl = some declared ∧ (declared.net 0).isSome = true ∧
    sDisc.disc.links[(0 : Fin 16)].coordSent = false ∧ sDisc.disc.links[(0 : Fin 16)].upSent = false ∧ sDisc.disc.links[(0 : Fin 16)].downSent = false ∧
    sDisc.disc.links[(0 : Fin 16)].tseqs = [] ∧ downNow sDisc = false := by decide +kernel

def heard : DiscLink := { DiscLink.reset with
  helloChecked := true, helloAcked := true, coordSeen := true, coordSent := true, upFrom := some (1, 0), tseqs := [(0, 9), (1, 9), (2, 9), (3, 9)] }
def sHeard : State := { sDisc with disc := { sDisc.disc with coords := some [0, 0], links := sDisc.disc.links.set 0 heard } }

theorem witness_DiscoveryRuns_again : (∀ kind : Fin 4, (discOf (discPkt kind true)).all (fun m => (m.kind, m.echo) ∈ sHeard.disc.links[(0 : Fin 16)].tseqs) = true) ∧
    sHeard.disc.links[(0 : Fin 16)].helloChecked = true ∧ sHeard.disc.links[(0 : Fin 16)].helloAcked = true ∧ sHeard.disc.links[(0 : Fin 16)].coordSent = true ∧
    sHeard.disc.links[(0 : Fin 16)].coordAcked = false ∧ sHeard.disc.links[(0 : Fin 16)].coordSeen = true ∧
    sHeard.disc.links[(0 : Fin 16)].upFrom.isSome = true ∧ sHeard.disc.coords = some [0, 0] ∧ sHeard.disc.running = true ∧
    downNow { sHeard with pending := [.down 0 (discPkt 3 false)] } = true := by decide +kernel


/-! ## Host link, rings and descriptors -/

def nop : Inflight := desc 0x01 (List.replicate 63 0)
def htod : Inflight := desc 0x10 (List.replicate 23 0 ++ [63, 0, 0, 0, 63] ++ List.replicate 35 0)

/-- NOP and STEP in the states that take them; HTOD of 64 bytes in LOADED. -/
def inState (j : JobState) (s : State) : State := withMem { s with hlk := { s.hlk with state := j } }

theorem witness_HostRings_link : (sDesc 1 htod).hlk.up = true ∧ State.reset.hlk.up = false ∧ usesHost (inState .loaded (sDesc 1 htod)) 1 htod = true ∧
    htod ∈ (sDesc 1 htod).hlk.rings[(1 : Fin 16)].inflight := by decide +kernel

def sSealed (n : Nat) : State :=
  let s := sDesc 1 nop
  { s with sec := { s.sec with conf := true, unlocked := true }, hlk := { s.hlk with authRun := n } }

theorem witness_HostRings_auth : sealing (sSealed 998) = true ∧ (sSealed 998).hlk.up = true ∧ (sSealed 998).hlk.authRun < 999 ∧ 999 ≤ (sSealed 999).hlk.authRun ∧
    sealing State.reset = false := by decide +kernel

/-- A ring of sixteen entries takes the tail 15 and not 16. -/
theorem witness_HostRings_ring : let s := sDesc 1 nop
    s.hlk.rings[(0 : Fin 16)].enable = false ∧ s.hlk.rings[(1 : Fin 16)].enable = true ∧ (15 : W16).toNat < 2 ^ s.hlk.rings[(1 : Fin 16)].size.toNat ∧
      2 ^ s.hlk.rings[(1 : Fin 16)].size.toNat ≤ (16 : W16).toNat ∧ fetchable s s.hlk.rings[(0 : Fin 16)] = false := by decide +kernel

def sFetch : State :=
  let s := sDesc 1 nop
  { s with hlk := { s.hlk with rings := s.hlk.rings.set 1 { Ring.reset 1 with enable := true, size := 4, sqtail := 1 } } }

theorem witness_HostRings_fetch : sFetch.hlk.up = true ∧ nextRing sFetch = some 1 := by decide +kernel

theorem witness_HostRings_complete : let d := { nop with status := some 0 }
    ((sDesc 1 d).hlk.rings[(1 : Fin 16)].inflight.find? fun x => x.idx == 0 && x.status.isSome) = some d ∧ (sDesc 1 d).hlk.up = true := by decide +kernel

theorem witness_HostRings_events : State.reset.hlk.evenable = false ∧
    (let h : Hlk := { Hlk.reset with evenable := true, evsize := 4 }
     h.evenable = true ∧ (15 : W16).toNat < 2 ^ h.evsize.toNat ∧ 2 ^ h.evsize.toNat ≤ (16 : W16).toNat) := by decide +kernel

theorem witness_DescriptorsAct_nop : (sDesc 1 nop).descReady 1 0 0x01 nop ∧ descCheck (sDesc 1 nop) 1 nop = none := by
  refine ⟨by constructor <;> decide +kernel, ?_⟩; decide +kernel

/-- NOP is not taken in WEDGED. -/
theorem witness_DescriptorsAct_refused : (inState .wedged (sDesc 1 nop)).descReady 1 0 0x01 nop ∧
    descCheck (inState .wedged (sDesc 1 nop)) 1 nop = some (0x0004, 0, 0, 0) := by
  refine ⟨by constructor <;> decide +kernel, ?_⟩; decide +kernel

def waitr : Inflight := desc 0x02 (List.replicate 15 0 ++ [1] ++ List.replicate 47 0)

theorem witness_DescriptorsAct_waitr : let s := sDesc 1 waitr
    s.descReady 1 0 0x02 waitr ∧ descCheck s 1 waitr = none ∧ s.hlk.rings[(Fin.ofNat 16 (leAt waitr.bytes 16 1) : Fin 16)].enable = true ∧
      leAt waitr.bytes 24 8 ≤ s.hlk.rings[(Fin.ofNat 16 (leAt waitr.bytes 16 1) : Fin 16)].completed.toNat := by
  refine ⟨by constructor <;> decide +kernel, ?_, ?_, ?_⟩ <;> decide +kernel

theorem witness_DescriptorsAct_htod : let s := inState .loaded (sDesc 1 htod)
    s.descReady 1 0 0x10 htod ∧ descCheck s 1 htod = none ∧ s.sound = true ∧ s.aligned ∧ s.apart htod.localAddr htod.len := by
  intro s
  refine ⟨by constructor <;> decide +kernel, by decide +kernel, by decide +kernel, by unfold State.aligned; decide +kernel, ?_⟩
  intro i j _ _ h; rw [key_same _ rfl, key_same _ rfl] at h; omega

theorem witness_DescriptorsAct_dtoh : let d := { htod with bytes := 0x11 :: htod.bytes.drop 1 }
    let s := inState .loaded (sDesc 1 d)
    s.descReady 1 0 0x11 d ∧ descCheck s 1 d = none ∧ badLines s d.localAddr d.len = [] ∧
      badLines { s with mem := { s.mem with poison := [0] } } d.localAddr d.len = [0] ∧
      s.job.manifest = none ∧ (withManifest s).job.manifest.isSome = true := by
  refine ⟨by constructor <;> decide +kernel, ?_, ?_, ?_, ?_, ?_⟩ <;> decide +kernel

def stepDesc (a : Byte) : Inflight := desc 0x20 (List.replicate 15 0 ++ [a] ++ List.replicate 47 0)
def sStep (a : Byte) (h : Hold) : State :=
  let s := inState .running (sDesc 1 (stepDesc a))
  { s with job := { s.job with hold := h, ctxKept := some (4, 0, 0) } }

theorem witness_DescriptorsAct_hold : (sStep 0 .none).descReady 1 0 0x20 (stepDesc 0) ∧ descCheck (sStep 0 .none) 1 (stepDesc 0) = none ∧
    (stepDesc 0).action = 0 := by
  refine ⟨by constructor <;> decide +kernel, ?_, ?_⟩ <;> decide +kernel

theorem witness_DescriptorsAct_step : (∀ a ∈ [1, 2, 3, 4], descCheck (sStep a .inEffect) 1 (stepDesc a) = none ∧ (stepDesc a).action = a.toNat) ∧
    (sStep 1 .inEffect).job.replay = none ∧ (sStep 2 .inEffect).job.ctxKept = some (4, 0, 0) := by decide +kernel

/-! ## Job management -/

def loadDesc : Inflight := desc 0x41 (List.replicate 23 0 ++ [127, 0, 0, 0, 127] ++ List.replicate 35 0)

/-- An image of zeros fails the first check of its header, at offset 0: code 1, item 2³⁰. -/
theorem witness_JobCommands_refused : let s := inState .ready (sDesc 0 loadDesc)
    s.descReady 0 0 0x41 loadDesc ∧ descCheck s 0 loadDesc = none ∧ sealing s = false ∧ loadDesc.len = 128 ∧
      firstFail (loadFails (linkGood s) (padTo loadDesc.len 0 [])) = some (1, 2 ^ 30) := by
  refine ⟨by constructor <;> decide +kernel, ?_, ?_, ?_, ?_⟩ <;> decide +kernel

def adminDesc (op : Byte) : Inflight := desc op (List.replicate 63 0)
def sStart : State := withManifest (withComm (inState .loaded (sDesc 0 (adminDesc 0x42))))

theorem witness_JobCommands_start : sStart.descReady 0 0 0x42 (adminDesc 0x42) ∧ descCheck sStart 0 (adminDesc 0x42) = none ∧
    commitComm sStart = some ringComm ∧ findCinch sStart ringComm.idx = none ∧
    ∃ x ∈ (cinchFamily sStart ringComm).1, ∀ q ∈ sStart.coll.earlyUps, cinchComm q = ringComm.idx → cinchSeq q = ringComm.cseq → cinchSender q ≠ x := by
  refine ⟨by constructor <;> decide +kernel, by decide +kernel, by decide +kernel, by decide +kernel, 1, by decide +kernel, by decide +kernel⟩

theorem witness_JobCommands_teardown : let s := inState .running (sDesc 0 (adminDesc 0x43))
    s.descReady 0 0 0x43 (adminDesc 0x43) ∧ descCheck s 0 (adminDesc 0x43) = none ∧ othersDone s 0 = true ∧
      othersDone { s with hlk := { s.hlk with rings := s.hlk.rings.set 2 { Ring.reset 2 with inflight := [nop] } } } 0 = false := by
  refine ⟨by constructor <;> decide +kernel, ?_, ?_, ?_⟩ <;> decide +kernel

def mgmt (sub : Byte) (req : Byte) : Inflight :=
  desc 0x30 (List.replicate 15 0 ++ [sub] ++ List.replicate 15 0 ++ [req] ++ List.replicate 15 0 ++ [127] ++ List.replicate 15 0)

def mgmtPasses (sub req : Byte) : Prop :=
  descCheck (sDesc 1 (mgmt sub req)) 1 (mgmt sub req) = none ∧ (mgmt sub req).sub = sub.toNat ∧
    (sDesc 1 (mgmt sub req)).hlk.state ≠ .minimal ∧ sealing (sDesc 1 (mgmt sub req)) = false

theorem witness_ManagementAnswers_identity : mgmtPasses 1 7 := ⟨by decide +kernel, by decide +kernel, by decide, by decide +kernel⟩
theorem witness_ManagementAnswers_telemetry : mgmtPasses 2 7 := ⟨by decide +kernel, by decide +kernel, by decide, by decide +kernel⟩
theorem witness_ManagementAnswers_quote : mgmtPasses 3 31 := ⟨by decide +kernel, by decide +kernel, by decide, by decide +kernel⟩
theorem witness_ManagementAnswers_dump : mgmtPasses 4 19 := ⟨by decide +kernel, by decide +kernel, by decide, by decide +kernel⟩
theorem witness_ManagementAnswers_boot : mgmtPasses 5 7 := ⟨by decide +kernel, by decide +kernel, by decide, by decide +kernel⟩

theorem witness_ManagementAnswers_ready : (sDesc 1 (mgmt 1 7)).descReady 1 0 0x30 (mgmt 1 7) ∧ (sDesc 1 (mgmt 3 31)).descReady 1 0 0x30 (mgmt 3 31) ∧
    (mgmt 1 7).respRoom = 128 ∧ (mgmt 1 7).reqLen = 8 ∧
    (inState .minimal (sDesc 1 (mgmt 2 7))).hlk.state = .minimal ∧ descCheck (inState .minimal (sDesc 1 (mgmt 2 7))) 1 (mgmt 2 7) = none := by
  refine ⟨by constructor <;> decide +kernel, by constructor <;> decide +kernel, ?_⟩; decide +kernel

/-- In MINIMAL the dump is served while the keys are unlocked or outside confidential mode, and not to a confidential module without them. -/
theorem witness_ManagementAnswers_minimal_dump : let s (u c : Bool) : State :=
      let t := inState .minimal (sDesc 1 (mgmt 4 19))
      { t with sec := { t.sec with unlocked := u, conf := c } }
    descCheck (s true false) 1 (mgmt 4 19) = none ∧ sealing (s true false) = false ∧ (s true false).sec.unlocked = true ∧
      (s false true).sec.unlocked = false ∧ (s false true).sec.conf = true ∧ sealing (s false true) = false ∧
      descCheck (s false true) 1 (mgmt 4 19) = none := by decide +kernel

/-! ## Power, faults, module, boot -/

def cap (w : W16) : List Byte := [0x7F, 0x00, 0x01, 0xC6, 0xE5, 1] ++ leBytes 2 w.toNat
def sEid : State := { State.reset with inp := { State.reset.inp with eid := 9 } }

theorem witness_PowerLimits_message : powerMessage sEid (cap 600) = true ∧ powerMessage sEid (cap 2400) = true ∧ powerMessage sEid ((cap 0).take 6) = true ∧
    powerMessage sEid [] = false ∧ leAt (cap 599) 6 2 < 600 ∧ 2400 < leAt (cap 2401) 6 2 ∧ (cap 600).length = 8 ∧ ((cap 0).take 6).length = 6 := by decide +kernel

/-- A bucket of 2.5 J is reached from 0.05 J short of it by 2,450 W; 2,400 W leaves a bucket as it is. -/
theorem witness_PowerLimits_peak : let b (bucket w : Nat) : Nat := bucket + 10 * w - 24000
    25000000 ≤ b 24999500 2450 ∧ ¬ 25000000 ≤ b 24000 2450 ∧ ¬ 29500 < 10 * 2950 ∧ 29500 < 10 * 2951 ∧ b 5000000 2400 ≤ 5000000 ∧ 10 * 2799 < 28000 := by
  decide +kernel

def reading (w : W16) (dv : W16) : PowerReading := { fresh := true, watts := w, decivolts := dv, fault := false }

theorem witness_PowerLimits_reading : 3600 < (reading 3601 600).watts.toNat ∧ (reading 0 449).decivolts.toNat < 450 ∧ 650 < (reading 0 651).decivolts.toNat ∧
    (reading 0 499).decivolts.toNat < 500 ∧ 620 < (reading 0 621).decivolts.toNat := by decide +kernel

/-- 15 % of 1,000 W: an estimate of 1,150 W agrees, one of 1,151 W is apart; over two readings each the sums are compared. -/
theorem witness_PowerLimits_divergence : let apart (e m : Nat × Nat) : Prop := 15 * (m.1 * e.2) < 100 * (((e.1 * m.2 : Nat) : Int) - (m.1 * e.2 : Nat)).natAbs
    ¬ apart (1150, 1) (1000, 1) ∧ apart (1151, 1) (1000, 1) ∧ ¬ apart (2300, 2) (1000, 1) ∧ apart (2301, 2) (1000, 1) ∧ State.reset.pwr.telemetryBad = false ∧
      State.reset.pwr.divergentMs ≠ 10 := by decide +kernel

/-- The example of a fast rise (R329): 5.0 °C from 88.0 °C is none, 6.0 °C is one. -/
theorem witness_PowerLimits_rise : riseOf 372 (List.replicate 10 352) = some 20 ∧ riseOf 376 (List.replicate 10 352) = some 24 ∧
    wasSteep (List.replicate 10 352) = false ∧ riseOf 376 [352] = none ∧ hottest [352, 376, 300] = 376 := by decide +kernel

theorem test_fast_rise : let s (t : Temp) := after (.dieSample [t, 300]) { State.reset with pwr := { State.reset.pwr with dies := List.replicate 10 352, tDie := 352 } }
    (s 372).pwr.fastRise = false ∧ (s 376).pwr.fastRise = true ∧ (s 376).pwr.halving = true := by decide +kernel

theorem witness_PowerLimits_droop : (State.reset.core 0).droop = false ∧ ((onCore { Core.reset with droop := true }).core 0).droop = true := by decide +kernel

theorem witness_FaultsContained : State.reset.flt.dumping = false ∧ State.reset.job.aborting = false ∧ State.reset.job.quiescing = false ∧
    (let s := { State.reset with job := { State.reset.job with quiescing := true }, flt := { State.reset.flt with dumping := true, dumpDest := 1 } }
     s.job.quiescing = true ∧ s.flt.dumping = true ∧ s.flt.dumpDest = 1 ∧ s.hlk.state ≠ .minimal ∧ s.hlk.state ≠ .wedged) := by decide +kernel

theorem witness_FaultsContained_teardown : let s := sDesc 0 (adminDesc 0x43)
    adminDesc 0x43 ∈ s.hlk.rings[(0 : Fin 16)].inflight ∧ (adminDesc 0x43).status = none ∧ isOpcode (adminDesc 0x43) 0x43 = true := by decide +kernel

def sSliceCore (k : Core) : State := inState .running (onCore k)

/-- Core 0 alone may burnish: it is next in the order. -/
theorem witness_FaultsContained_slice : (sliceOrder (sSliceCore { Core.reset with present := true })).find? (sliceMay (sSliceCore { Core.reset with present := true })) = some 0 ∧
    (sliceOrder State.reset).find? (sliceMay State.reset) = none ∧
    ((sSliceCore { Core.reset with sliceOn := true }).core 0).sliceOn = true ∧ ((sSliceCore { Core.reset with sliceOn := true }).core 0).sliceRerun = false ∧
    ((sSliceCore { Core.reset with sliceOn := true, sliceRerun := true }).core 0).sliceRerun = true := by decide +kernel

/-- A packet on its way to the fabric, and one in the arrival store. -/
theorem witness_FaultsContained_packets : sSend.fab.sendQ[0]? = some waiting ∧
    ({ sNoRun.coll with early := [collPkt 0 0 0] } : Coll).early[0]? = some (collPkt 0 0 0) := by decide +kernel

/-- The row statistics of core 0 are writing 64 bytes, and a beat of theirs is on a link. -/
theorem witness_FaultsContained_pipeline : let u : Undo := { cycle := 8, addr := 128, old := List.replicate 64 (0, false) }
    let w : Window := { index := 0, unit := 4, issue := 0, freeAt := 9, accesses := [], slot := none, readyAt := 0, half := false, writes := [u] }
    let k : Core := { beatCore 0 with exec := { (beatCore 0).exec with windows := [w] } }
    w ∈ k.exec.windows ∧ w.unit = (4 : Fin 6).val ∧ (∀ x ∈ w.writes, k.exec.cycle ≤ x.cycle) ∧
      ∀ b ∈ k.exec.trains, b.sampled = false ∧ b.producer = w.index := by
  decide +kernel

/-- An abort whose quiesce has not ended, and a START in progress when the management processor dies. -/
theorem witness_FaultsContained_quiesce : let s := { inState .running State.reset with job := { State.reset.job with aborting := true } }
    (s.job.aborting = true ∧ s.hlk.state = .running ∧ s.job.entered = false) ∧
    (let d := { adminDesc 0x42 with acted := true }
     d ∈ (sDesc 0 d).hlk.rings[(0 : Fin 16)].inflight ∧ d.status = none ∧ isOpcode d 0x42 = true) := by decide +kernel

theorem witness_ModuleEvents : State.reset.inp.aux = true ∧ State.reset.inp.powerFail = false ∧ State.reset.inp.resetLow = false ∧
    State.reset.hlk.state ≠ .minimal ∧ State.reset.hlk.state ≠ .wedged ∧
    (let s := { State.reset with inp := { State.reset.inp with powerFail := true, resetLow := true, resetWaits := some 2 } }
     s.inp.powerFail = true ∧ s.inp.resetLow = true ∧ s.boot.stage = 0) ∧ (0x31 : BitVec 7) ≠ State.reset.inp.staticAddr := by decide +kernel

theorem witness_BootRuns_clean : State.reset.bootClean env := by
  constructor <;> decide +kernel

theorem witness_BootRuns_rail : State.reset.bootClean { { env with rail := some 8 } with rail := none } ∧
    ({ env with rail := some 8 } : BootEnv).rail = some 8 := by
  refine ⟨by constructor <;> decide +kernel, rfl⟩

/-- Three readings that fail lead to minimal mode, and the third that succeeds does not. -/
theorem witness_BootRuns_key : State.reset.bootClean { { env with pufReads := [false, false, false] } with pufReads := [false, false, true] } ∧
    ∀ i : Fin 3, ({ env with pufReads := [false, false, false] } : BootEnv).pufReads[i.val]? ≠ some true := by
  refine ⟨by constructor <;> decide +kernel, by decide +kernel⟩

theorem witness_BootRuns_slots : selectSlot State.reset 0 = some false ∧ ¬ ((1 : BitVec 3) = 4 ∧ State.reset.mem.flashBusy = true) := by decide +kernel

theorem witness_BootRuns_overrun : let s := { State.reset with boot := { State.reset.boot with stage := 0xA0 } }
    s.boot.stage = 0xA0 ∧ 0x10 ≤ (0xA0 : Byte).toNat ∧ (0xA0 : Byte).toNat ≤ 0xA0 ∧ s.boot.awaitingRestart = false ∧ s.boot.minimal = false := by decide +kernel

def mbRun (n : W32) (reserved : Bool) : MbRun := { type := 1, slot := true, reserved := reserved, host := 0, length := n }

/-- A transfer of 2,048 bytes to the spare slot of type 1; one a byte shorter; one of the active slot. -/
theorem witness_BootRuns_mailbox : let b := { State.reset.boot with mbRun := some (mbRun 2047 false) }
    b.mbRun = some (mbRun 2047 false) ∧ State.reset.boot.mbRun = none ∧ (mbRun 2047 false).type.toNat = 1 ∧
      State.reset.sec.slots.getLsbD 0 ≠ (mbRun 2047 false).slot ∧ ¬ ((mbRun 2047 false).length.toNat + 1 < 2048) ∧
      (mbRun 2046 false).length.toNat + 1 < 2048 ∧ (mbRun 2047 true).reserved = true ∧ headerGood 1 (List.replicate 2048 0) 2048 = false ∧
      State.reset.sec.slots.getLsbD 0 = { mbRun 2047 false with slot := false }.slot := by decide +kernel

theorem witness_BootRuns_minimal : let s := { State.reset with boot := { State.reset.boot with minimal := true, awaitingRestart := true } }
    s.inp.aux = true ∧ s.inp.powerFail = false ∧ s.inp.resetLow = false ∧ s.boot.minimal = true ∧ s.boot.awaitingRestart = true ∧ s.mem.flashBusy = false := by
  decide +kernel

/-! ## Registers and modes -/

theorem witness_RegistersAnswer_half : (0x48 : BitVec 26).toNat = 8 * 9 ∧ (0x4C : BitVec 26).toNat = 8 * 9 + 4 ∧ State.reset.glb.latch = none ∧
    (0x49 : BitVec 26).toNat % 4 ≠ 0 := by decide +kernel

theorem witness_RegistersAnswer_write : (0x800048 : BitVec 26).toNat % 8 = 0 ∧ (0x80004C : BitVec 26).toNat % 8 ≠ 0 ∧
    ¬ ((0x800048 : BitVec 26).toNat / 8 * 8 = 0x800040) ∧ ¬ (0x100000 ≤ (0x0FFFF8 : BitVec 26).toNat) ∧ (0x1013C0 : BitVec 26).toNat = 0x101000 + 0x40 * (15 : Fin 16).val ∧
    (0x800060 : BitVec 26).toNat = 0x800048 + 8 * (3 : Fin 4).val ∧ (0x800064 : BitVec 26).toNat = 0x800048 + 8 * (3 : Fin 4).val + 4 ∧
    (0x800040 : BitVec 26).toNat = 0x800040 ∧ (0x1800000 : BitVec 26).toNat = 0x1800000 ∧ (0x300F000 : BitVec 26).toNat = 0x3000000 + 0x1000 * (15 : Fin 16).val ∧
    (0x300F004 : BitVec 26).toNat = 0x3000004 + 0x1000 * (15 : Fin 16).val ∧ (0x3010000 : BitVec 26).toNat = 0x3010000 := by decide +kernel

/-- Entering needs a fleet key; the 62nd boot entry is too many. -/
theorem witness_RegistersAnswer_mode : (true ≠ State.reset.sec.conf) ∧ State.reset.sec.modeBusy = false ∧ State.reset.sec.keyed = false ∧
    (let s := { State.reset with sec := { State.reset.sec with keyed := true } }
     s.hlk.state = .nodisc ∧ (∀ n : Fin 16, s.hlk.rings[n].inflight = []) ∧ s.sec.keyed = true ∧ bootEntries s = 0) ∧
    bootEntries { State.reset with sec := { State.reset.sec with log := List.replicate 62 [1] } } = 62 := by decide +kernel

theorem witness_RegistersAnswer_busy : { State.reset.sec with modeBusy := true }.modeBusy = true := rfl


end Sys2Proof.Tests
end

section
/-! SUPPORT. What a completed commit cinch leaves, by the row of R21 that its reduced words choose, and what its expiry leaves
(R21, R121, R250–R252). -/

namespace Sys2Proof.Machine

/-- A module that has left its cinches on a communicator. -/
def leaveCinch (s : State) (c : Comm) : State := { s with coll := { s.coll with cinches := s.coll.cinches.filter (·.comm ≠ c.idx) } }

theorem leaveCinch_cinches (s : State) (c : Comm) : ∀ x ∈ (leaveCinch s c).coll.cinches, x.comm ≠ c.idx :=
  fun x hx => by simpa using (List.mem_filter.1 hx).2

/-! ## The cinch is answered here (R246, R248) -/

/-- The result of a commit cinch that reaches this member is answered and passed on, ends the cinch here, and is then applied to a state
in which memory, job and power are untouched. -/
theorem exec_cinchDown_commit {s : State} {p : Packet} {c : Comm} {n : Cinch} (hi : p.intact = true) (hc : commOf s (cinchComm p) = some c)
    (hn : findCinch s c.idx = some n) (hk : n.kind = .commit) (hq : n.cseq = cinchSeq p) (hf : s.fab.fenced = false)
    (hz : s.job.quiescing = false) (hw : s.opt.switching = false) :
    ∃ u, exec (.cinchDown p) s = .next (applyCommit u (cinchOf p)) ∧ u.mem = s.mem ∧ u.job = s.job ∧ u.pwr = s.pwr ∧
      ∀ x ∈ u.coll.cinches, x.comm ≠ c.idx := by
  have hexec : exec (.cinchDown p) s = .next (applyCommit (cinchDown (sendCack s c p) c n (cinchOf p)) (cinchOf p)) := by
    have hstop : collStopped s = false := by simp [collStopped, hf, hz]
    have harrive : cinchDownArrives s p = finishCinch (cinchDown (sendCack s c p) c n (cinchOf p), some (n, cinchOf p)) := by
      simp [cinchDownArrives, hc, hstop, hw, hn, hq]
    change Host.Outcome.next (accepting s p (cinchDownArrives · p)) = _
    simp only [accepting, hi, if_true, harrive, finishCinch, hk]
  obtain ⟨f, o, hcack⟩ := inject_frame s { packetTo s 0x18 p.src with cls := cinchCls c.idx (cinchSeq p) 2 0 c.self }
  obtain ⟨f', o', owed, q, hdown⟩ := cinchDown_frame (sendCack s c p) c n (cinchOf p)
  have hu : cinchDown (sendCack s c p) c n (cinchOf p) =
      { s with fab := f', out := o', coll := { s.coll with cinches := s.coll.cinches.filter (·.comm ≠ c.idx), owed := owed }, opt := q } := by
    rw [hdown, sendCack, hcack]
  refine ⟨_, hexec, ?_⟩
  rw [hu]
  exact ⟨rfl, rfl, rfl, leaveCinch_cinches s c⟩

/-! ## What each outcome carries over -/

theorem HbmStep.carried {s t : State} (h : HbmStep s t) : t.carried = s.carried := by
  obtain ⟨⟨_, _, _, _, _, _, _, _, _, _, _, _, _, _, _, e⟩, -⟩ := h
  rw [e]
  rfl

theorem HbmStep.manifest {s t : State} (h : HbmStep s t) : t.job.manifest = s.job.manifest := by
  obtain ⟨⟨_, _, _, _, _, _, _, _, _, _, _, _, _, _, _, e⟩, -⟩ := h
  rw [e]

theorem writeResult_hbm (s : State) (r : CinchRec) : HbmStep s (writeResult s r) := by
  unfold writeResult
  split
  · exact storeHbm_hbm _ _ _ _
  · exact HbmStep.refl s

theorem State.carried_eq_iff {s : State} {side step l clean floorHits ctx freq fingers pwr coll} :
    s.carried = (side, step, l, clean, floorHits, ctx, freq, fingers, pwr, coll) ↔
      s.mem.side = side ∧ s.job.step = step ∧ s.job.l = l ∧ s.job.clean = clean ∧ s.job.floorHits = floorHits ∧ s.job.ctxKept = ctx ∧
        s.job.freqKept = freq ∧ s.upd.fingersKept = fingers ∧ s.pwr = pwr ∧ s.coll = coll := by
  simp [State.carried]

theorem State.coll_of_carried {s : State} {side step l clean floorHits ctx freq fingers pwr coll}
    (h : s.carried = (side, step, l, clean, floorHits, ctx, freq, fingers, pwr, coll)) : s.coll = coll := by
  obtain ⟨-, -, -, -, -, -, -, -, -, hcoll⟩ := State.carried_eq_iff.1 h
  exact hcoll

theorem raiseOpen_stopJob_carried (s : State) (n : Nat) : (raiseOpen (stopJob s) n).carried = s.carried := by
  obtain ⟨h, o, e⟩ := raiseOpen_frame (stopJob s) n
  rw [e]
  rfl

/-! ## The rows of R21 -/

/-- The power record after a commit: the job frequency is the MIN word, rounded down to the grid of 25 MHz (R21). -/
def Pwr.atFreq (p : Pwr) (minw : W64) : Pwr := { p with fJob := BitVec.ofNat 11 (minw.toNat / 25 * 25) }

theorem flip_carried {s : State} {m : Manifest} (hm : s.job.manifest = some m) (w : W64) :
    (applyFreq (flip s) w).carried =
      (!s.mem.side, s.job.step + 1, (flipLoss m s.job.l s.job.clean).1, (flipLoss m s.job.l s.job.clean).2, s.job.floorHits,
        some (s.job.step, s.job.l, s.job.clean), s.pwr.fJob, s.upd.fingers, s.pwr.atFreq w, s.coll) := by
  simp only [State.carried, applyFreq, updPwr, flip, hm, Pwr.atFreq]

theorem discard_carried {s : State} {m : Manifest} (hm : s.job.manifest = some m) (w : W64) :
    (applyFreq (discard s) w).carried =
      (s.mem.side, s.job.step + 1, (discardLoss m s.job.l).1, (discardLoss m s.job.l).2.1,
        if (discardLoss m s.job.l).2.2 then s.job.floorHits + 1 else s.job.floorHits,
        s.job.ctxKept, s.job.freqKept, s.upd.fingersKept, s.pwr.atFreq w, s.coll) := by
  simp only [State.carried, applyFreq, updPwr, discard, hm, bump, Pwr.atFreq]

theorem defer_carried (s : State) (w : W64) :
    (applyFreq (defer s) w).carried =
      (s.mem.side, s.job.step, s.job.l, s.job.clean, s.job.floorHits, s.job.ctxKept, s.job.freqKept, s.upd.fingersKept, s.pwr.atFreq w, s.coll) :=
  rfl

theorem flipLoss_eq (m : Manifest) (l : Int) (c : Nat) :
    flipLoss m l c = (if c + 1 < m.n then l else if l < m.lc then l + 1 else l, if c + 1 < m.n then c + 1 else 0) := by
  unfold flipLoss
  split
  · rfl
  · split <;> rfl

theorem discardLoss_eq (m : Manifest) (l : Int) : discardLoss m l = (if m.lf < l then l - 1 else l, 0, !decide (m.lf < l)) := by
  unfold discardLoss
  split <;> simp [*]

/-- The state that an outcome is applied to: the cinch's result stands over the commit record, and the entry is over (R250). -/
def commitRecorded (s : State) (r : CinchRec) : State := writeResult { s with job := { s.job with entered := false } } r

theorem commitRecorded_hbm (s : State) (r : CinchRec) : HbmStep { s with job := { s.job with entered := false } } (commitRecorded s r) :=
  writeResult_hbm _ r

theorem commitRecorded_carried (s : State) (r : CinchRec) : (commitRecorded s r).carried = s.carried := (commitRecorded_hbm s r).carried

theorem commitRecorded_manifest (s : State) (r : CinchRec) : (commitRecorded s r).job.manifest = s.job.manifest := (commitRecorded_hbm s r).manifest

section
variable {s : State} {r : CinchRec} (hr : s.job.replay = none)
include hr

theorem endReplay_commitRecorded : endReplay (commitRecorded s r) = commitRecorded s r := by
  have h : (commitRecorded s r).job.replay = none := (commitRecorded_hbm s r).replay.trans hr
  simp only [endReplay, h]

/-- Outside a replay a commit chooses one of five outcomes, in their order of precedence. -/
theorem applyCommit_of_no_replay : applyCommit s r =
    if r.status ≠ 0 then raiseOpen (stopJob (commitRecorded s r)) 0x07
    else if r.poison then raiseOpen (stopJob (commitRecorded s r)) 0x0B
    else if r.overflow then nextStep (applyFreq (discard (commitRecorded s r)) r.minw)
    else if r.drains then applyFreq (defer (commitRecorded s r)) r.minw
    else nextStep (applyFreq (flip (commitRecorded s r)) r.minw) := by
  unfold applyCommit
  extract_lets _ u
  rw [show endReplay u = u from endReplay_commitRecorded hr]
  simp only [hr, Option.isSome_none, Bool.false_eq_true, if_false]
  rfl

/-- A FENCED, mismatched or poisoned result applies no row, and the job stops. -/
theorem applyCommit_stops (h : r.status ≠ 0 ∨ r.poison = true) :
    (applyCommit s r).carried = s.carried ∧ (applyCommit s r).job.dispatching = false ∧ (applyCommit s r).hlk.state ≠ .running := by
  have stops (k : Nat) : (raiseOpen (stopJob (commitRecorded s r)) k).carried = s.carried ∧
      (raiseOpen (stopJob (commitRecorded s r)) k).job.dispatching = false ∧ (raiseOpen (stopJob (commitRecorded s r)) k).hlk.state ≠ .running := by
    obtain ⟨hstate, hdispatch, -⟩ := stopped_event (commitRecorded s r) k
    exact ⟨(raiseOpen_stopJob_carried _ k).trans (commitRecorded_carried s r), hdispatch, hstate⟩
  rw [applyCommit_of_no_replay hr]
  by_cases hst : r.status = 0
  · have hp : r.poison = true := h.resolve_left (not_not.2 hst)
    simpa only [hst, hp, ne_eq, not_true, if_false, if_true] using stops 0x0B
  · simpa only [hst, ne_eq, not_false_eq_true, if_true] using stops 0x07

variable {m : Manifest} (hm : s.job.manifest = some m) (hst : r.status = 0) (hp : r.poison = false)
include hst hp

/-- A pending drain defers the commit. -/
theorem applyCommit_defers (ho : r.overflow = false) (hd : r.drains = true) :
    applyCommit s r = applyFreq (defer (commitRecorded s r)) r.minw := by
  rw [applyCommit_of_no_replay hr]
  simp only [hst, hp, ho, hd, ne_eq, not_true, Bool.false_eq_true, if_false, if_true]

theorem applyCommit_carried_of_drains (ho : r.overflow = false) (hd : r.drains = true) :
    (applyCommit s r).carried =
      (s.mem.side, s.job.step, s.job.l, s.job.clean, s.job.floorHits, s.job.ctxKept, s.job.freqKept, s.upd.fingersKept, s.pwr.atFreq r.minw,
        s.coll) := by
  obtain ⟨hside, hstep, hl, hclean, hfloor, hctx, hfreq, hfingers, hpwr, hcoll⟩ := State.carried_eq_iff.1 (commitRecorded_carried s r)
  rw [applyCommit_defers hr hst hp ho hd, defer_carried]
  simp only [hside, hstep, hl, hclean, hfloor, hctx, hfreq, hfingers, hpwr, hcoll]

include hm

/-- An overflow discards the step. -/
theorem applyCommit_carried_of_overflow (ho : r.overflow = true) :
    (applyCommit s r).carried =
      (s.mem.side, s.job.step + 1, (discardLoss m s.job.l).1, (discardLoss m s.job.l).2.1,
        if (discardLoss m s.job.l).2.2 then s.job.floorHits + 1 else s.job.floorHits,
        s.job.ctxKept, s.job.freqKept, s.upd.fingersKept, s.pwr.atFreq r.minw, s.coll) := by
  rw [applyCommit_of_no_replay hr]
  simp only [hst, hp, ho, ne_eq, not_true, Bool.false_eq_true, if_false, if_true]
  obtain ⟨hside, hstep, hl, -, hfloor, hctx, hfreq, hfingers, hpwr, hcoll⟩ := State.carried_eq_iff.1 (commitRecorded_carried s r)
  rw [nextStep_carried, discard_carried ((commitRecorded_manifest s r).trans hm)]
  simp only [hside, hstep, hl, hfloor, hctx, hfreq, hfingers, hpwr, hcoll]

/-- With none of the flags the sides flip. -/
theorem applyCommit_carried_of_flip (ho : r.overflow = false) (hd : r.drains = false) :
    (applyCommit s r).carried =
      (!s.mem.side, s.job.step + 1, (flipLoss m s.job.l s.job.clean).1, (flipLoss m s.job.l s.job.clean).2, s.job.floorHits,
        some (s.job.step, s.job.l, s.job.clean), s.pwr.fJob, (commitRecorded s r).upd.fingers, s.pwr.atFreq r.minw, s.coll) := by
  rw [applyCommit_of_no_replay hr]
  simp only [hst, hp, ho, hd, ne_eq, not_true, Bool.false_eq_true, if_false]
  obtain ⟨hside, hstep, hl, hclean, hfloor, -, -, -, hpwr, hcoll⟩ := State.carried_eq_iff.1 (commitRecorded_carried s r)
  rw [nextStep_carried, flip_carried ((commitRecorded_manifest s r).trans hm)]
  simp only [hside, hstep, hl, hclean, hfloor, hpwr, hcoll]

end

/-- No outcome changes the collective engine. -/
theorem applyCommit_coll {s : State} {r : CinchRec} {m : Manifest} (hr : s.job.replay = none) (hm : s.job.manifest = some m) :
    (applyCommit s r).coll = s.coll := by
  by_cases hstop : r.status ≠ 0 ∨ r.poison = true
  · exact State.coll_of_carried (applyCommit_stops hr hstop).1
  · rw [not_or, not_not, Bool.not_eq_true] at hstop
    obtain ⟨hst, hp⟩ := hstop
    cases ho : r.overflow with
    | true => exact State.coll_of_carried (applyCommit_carried_of_overflow hr hm hst hp ho)
    | false =>
      cases hd : r.drains with
      | true => exact State.coll_of_carried (applyCommit_carried_of_drains hr hst hp ho hd)
      | false => exact State.coll_of_carried (applyCommit_carried_of_flip hr hm hst hp ho hd)

/-! ## Expiry (R251, R252) -/

theorem State.logs.of_flt {s t u : State} {r : Record} (h : s.logs t r) (e : u.flt = t.flt) : s.logs u r :=
  ⟨by rw [e]; exact h.placed, by rw [e]; exact h.counted⟩

/-- The end of a replay is no record of the fault log, and leaves the sides and the collective engine. -/
theorem endReplay_keeps (s : State) : (endReplay s).mem = s.mem ∧ (endReplay s).flt = s.flt ∧ (endReplay s).coll = s.coll := by
  unfold endReplay
  split <;> exact ⟨rfl, rfl, rfl⟩

/-- The record of an expired commit budget (R252). -/
def expiryRecord (s : State) (c : Comm) (n : Cinch) (elapsed : W32) : Record :=
  { Record.blank with
    code := codeStreamStall, cause := 5, source := 3, step := s.job.step, cycle := elapsed, comm := c.idx.zeroExtend 16, value := n.cseq,
    missing := ((cinchMissing s c n).map (BitVec.ofNat 16)).take 7, missingN := BitVec.ofNat 16 (cinchMissing s c n).length }

/-- The commit cinch is left and its expiry recorded, and the entry is over. -/
def commitExpired (s : State) (c : Comm) (n : Cinch) (elapsed : W32) : State :=
  let u := logRecord (leaveCinch s c) (expiryRecord s c n elapsed)
  { u with job := { u.job with entered := false } }

theorem commitExpired_logs (s : State) (c : Comm) (n : Cinch) (elapsed : W32) : s.logs (commitExpired s c n elapsed) (expiryRecord s c n elapsed) := by
  have h : s.logs (logRecord (leaveCinch s c) (expiryRecord s c n elapsed)) (expiryRecord s c n elapsed) := logs_of (logRecord_logs _ _) rfl rfl
  exact h.of_flt rfl

theorem commitExpired_keeps (s : State) (c : Comm) (n : Cinch) (elapsed : W32) :
    (commitExpired s c n elapsed).mem = s.mem ∧ (commitExpired s c n elapsed).coll = (leaveCinch s c).coll := by
  obtain ⟨f, h, o, e⟩ := logRecord_frame (leaveCinch s c) (expiryRecord s c n elapsed)
  unfold commitExpired
  rw [e]
  exact ⟨rfl, rfl⟩

/-- An expired commit cinch is left and recorded, a replay ends, and the job stops. -/
theorem exec_cinchBudgetExpiry_commit {s : State} {c : Comm} {n : Cinch} (hn : findCinch s c.idx = some n) (hk : n.kind = .commit)
    (hc : commOf s c.idx = some c) (elapsed : W32) :
    exec (.cinchBudgetExpiry c.idx elapsed) s = .next (raiseOpen (stopJob (endReplay (commitExpired s c n elapsed))) 0x07) := by
  change Host.Outcome.next (commitExpires s c.idx elapsed) = _
  simp only [commitExpires, hc, hn, hk]
  rfl

/-! ## The statement -/

/-- Settles O46: a result that is taken applies its row to a state with the same memory, job and power, and each row is read off what it
carries over to the next step; the expiry is a stop of its own. -/
theorem commitDecides : Obligations.CommitDecides := by
  intro s c n m hn hk hm
  refine ⟨?_, fun elapsed hc => ?_⟩
  case refine_1 =>
    intro p hi hc hq hf hz hw hr r poison overflow drain freq
    obtain ⟨u, hexec, humem, hujob, hupwr, hleft⟩ := exec_cinchDown_commit hi hc hn hk hq hf hz hw
    rw [← hujob] at hr hm
    rw [← humem, ← hujob, ← hupwr]
    refine ⟨applyCommit u r, hexec, by rw [applyCommit_coll hr hm]; exact hleft, ?_, ?_, ?_, ?_⟩
    · intro hstop
      obtain ⟨hcarried, hdispatch, hstate⟩ := applyCommit_stops hr hstop
      obtain ⟨hside, hstep, hl, hclean, -, -, -, -, hpwr, -⟩ := State.carried_eq_iff.1 hcarried
      exact ⟨hside, hstep, hl, hclean, by rw [hpwr], hdispatch, hstate⟩
    · intro hst hp ho
      obtain ⟨hside, hstep, hl, hclean, hfloor, -, -, -, hpwr, -⟩ := State.carried_eq_iff.1 (applyCommit_carried_of_overflow hr hm hst hp ho)
      rw [discardLoss_eq] at hl hclean hfloor
      refine ⟨hside, hstep, hl, hclean, ?_, by rw [hpwr]; rfl⟩
      rw [hfloor]
      by_cases h : m.lf < u.job.l <;> simp [h]
    · intro hst hp ho hd
      obtain ⟨hside, hstep, hl, hclean, -, -, -, -, hpwr, -⟩ := State.carried_eq_iff.1 (applyCommit_carried_of_drains hr hst hp ho hd)
      have hdefer := applyCommit_defers hr hst hp ho hd
      exact ⟨hside, hstep, hl, hclean, by rw [hdefer]; rfl, by rw [hdefer]; rfl, by rw [hpwr]; rfl⟩
    · intro hst hp ho hd
      obtain ⟨hside, hstep, hl, hclean, -, hctx, hfreq, -, hpwr, -⟩ := State.carried_eq_iff.1 (applyCommit_carried_of_flip hr hm hst hp ho hd)
      rw [flipLoss_eq] at hl hclean
      exact ⟨hside, hstep, hl, hclean, by rw [hpwr]; rfl, hctx, hfreq⟩
  case refine_2 =>
    obtain ⟨hmem, hcoll⟩ := commitExpired_keeps s c n elapsed
    obtain ⟨hmem', hflt', hcoll'⟩ := endReplay_keeps (commitExpired s c n elapsed)
    obtain ⟨hstate, hdispatch, hmem'', -, hflt'', hcoll'', -⟩ := stopped_event (endReplay (commitExpired s c n elapsed)) 0x07
    refine ⟨_, exec_cinchBudgetExpiry_commit hn hk hc elapsed, ?_, by rw [hmem'', hmem', hmem], hdispatch, hstate,
      (commitExpired_logs s c n elapsed).of_flt (hflt''.trans hflt')⟩
    rw [hcoll'', hcoll', hcoll]
    exact leaveCinch_cinches s c

end Sys2Proof.Machine
end

section
/-! SUPPORT. What each descriptor of a ring does once it may start: the refusal that all of them share, the transfers HTOD and DTOH, and
the actions of STEP (R165, R299, R303–R306, R308). -/

namespace Sys2Proof.Machine

/-! ## Every command of a descriptor runs it (R299) -/

/-- A command by which a descriptor acts runs the descriptor's checks before its action. -/
theorem exec_descCommand (s : State) (ring : RingId) (idx : W16) (data : List Byte) (err : Bool) (failed : Option HostAccess) :
    ∀ x ∈ descCommands ring idx data err failed, ∃ f, exec x.2 s = .next (runDesc s ring idx x.1 f) := by
  intro x hx
  unfold descCommands at hx
  fin_cases hx <;> exact ⟨_, rfl⟩

/-! ## HTOD: the local side (R303, R304) -/

/-- Clean bytes put into HBM are stored at their addresses and nowhere else. -/
theorem hbmPut_clean_stores {s : State} (hs : s.sound = true) (hal : s.aligned) (a : Nat) (bs : List Byte) :
    HbmStep s (hbmPut s a (clean bs)) ∧ s.keeps (hbmPut s a (clean bs)) a bs.length ∧
      (s.job.replay = none → s.apart a bs.length → readHbm (hbmPut s a (clean bs)) a bs.length = bs) := by
  rw [hbmPut_clean]
  exact ⟨storeHbm_hbm s a bs false, storeHbm_other s hal a bs false, fun hr => storeHbm_same s hal ((sound_iff s).1 hs).hbm hr a bs false⟩

theorem padTo_length (n : Nat) (bs : List Byte) : (padTo n 0 bs).length = n := by
  simp only [padTo, List.length_append, List.length_take, List.length_replicate]
  omega

/-- Sealed data whose first block fails yields no byte (R387). -/
theorem fromHost_first_block {s : State} {addr : Option Nat} {op n : Nat} {data : List Byte} (h : (fromHost s addr op n data).2.2 = some 0) :
    (fromHost s addr op n data).2.1 = [] := by
  revert h
  unfold fromHost
  split
  case isFalse => exact fun h => nomatch h
  case isTrue =>
    unfold fromHostAux
    split
    · exact fun h => nomatch h
    · dsimp only
      split
      · exact fun _ => rfl
      · exact fun h => absurd (fromHostAux_index _ _ _ _ _ _ _ _ 0 h) (by decide)

section
variable {s : State} {d : Inflight} {data : List Byte} (ring : RingId) (idx : W16)

/-- HTOD whose host data all opens. -/
theorem htod_ends {t : State} {bs : List Byte} (h : fromHost s (some d.localAddr) 0x10 d.len data = (t, bs, none)) :
    htod s ring idx d data false = doneDesc (hbmPut t d.localAddr (clean bs)) ring idx d.len := by
  simp [htod, h]

/-- HTOD whose host data has a block that does not open: the bytes before it are stored (R304). -/
theorem htod_unopened {i : Nat} (h : (fromHost s (some d.localAddr) 0x10 d.len data).2.2 = some i) :
    let x := fromHost s (some d.localAddr) 0x10 d.len data
    htod s ring idx d data false = finishDesc (hbmPut x.1 d.localAddr (clean x.2.1)) ring idx 0x000A 0 (BitVec.ofNat 64 i) 0 := by
  simp [htod, h]

/-- HTOD whose host access fails: outside confidential mode the bytes that have come are stored (R304). -/
theorem htod_cut_off (hseal : sealing s = false) (hlen : data.length ≤ d.len) :
    htod s ring idx d data true = finishDesc (hbmPut s d.localAddr (clean data)) ring idx 0x000B 0 0 0 := by
  simp [htod, hseal, fromHost_plain, List.take_of_length_le hlen]

end

/-! ## DTOH: the bytes that the host gets (R305, R350) -/

/-- What a transfer to the host carries: the bytes of HBM, with zeros for the poisoned lines. -/
def bytesForHost (s : State) (a n : Nat) : List Byte :=
  (readHbm s a n).zipIdx.map fun b => if (badLines s a n).contains ((a + b.2) / 64) then 0 else b.1

theorem bytesForHost_length (s : State) (a n : Nat) : (bytesForHost s a n).length = n := by simp [bytesForHost, readHbm]

theorem bytesForHost_getElem? (s : State) (a n : Nat) {i : Nat} (hi : i < n) :
    (bytesForHost s a n)[i]? = some (if (a + i) / 64 ∈ badLines s a n then 0 else cellsGet (keyOf s (a + i)) s.mem.cells) := by
  simp [bytesForHost, readHbm, hi]

theorem bytesForHost_of_clean {s : State} {a n : Nat} (h : badLines s a n = []) : bytesForHost s a n = readHbm s a n := by
  simp [bytesForHost, h]

/-- A poisoned line has been read for the host: a consumption, where there is a job. -/
def readPoisoned (s : State) (line : Nat) : State := if s.job.manifest.isNone then s else consume s 2 none (64 * line)

theorem readPoisoned_mem (s : State) (line : Nat) : (readPoisoned s line).mem = s.mem := by
  unfold readPoisoned
  split
  · rfl
  · exact (consume_hbm _ _ _ _).2

theorem readPoisoned_of_no_job {s : State} (h : s.job.manifest = none) (line : Nat) : readPoisoned s line = s := by simp [readPoisoned, h]

theorem readPoisoned_of_job {s : State} (h : s.job.manifest.isSome = true) (line : Nat) :
    (readPoisoned s line).job.poison = true ∧ (readPoisoned s line).flt.consumptions = s.flt.consumptions + 1 := by
  obtain ⟨hcount, hpoison⟩ := consume_counts s 2 none (64 * line)
  have hjob : readPoisoned s line = consume s 2 none (64 * line) := if_neg (by simp [Option.isSome_iff_ne_none.1 h])
  rw [hjob]
  exact ⟨hpoison, hcount⟩

/-- The bytes go out to the host, sealed where host data is sealed. -/
def sendToHost (s : State) (d : Inflight) (bs : List Byte) : State :=
  let x := toHost s (some d.localAddr) 0x11 bs
  x.1.say (.hostWrite (BitVec.ofNat 64 d.hostAddr) x.2)

section
variable {s : State} {d : Inflight} (ring : RingId) (idx : W16)

/-- DTOH of an extent without poison. -/
theorem dtoh_of_clean (h : badLines s d.localAddr d.len = []) (hostErr : Bool) :
    dtoh s ring idx d hostErr =
      if hostErr then finishDesc s ring idx 0x000B 0 0 0 else doneDesc (sendToHost s d (readHbm s d.localAddr d.len)) ring idx d.len := by
  rw [← bytesForHost_of_clean h]
  simp only [dtoh, h, List.isEmpty_nil, Bool.true_or, if_true]
  rw [bytesForHost, h]
  rfl

/-- DTOH of an extent whose first poisoned line is `l`. -/
theorem dtoh_of_poisoned {l : Nat} {rest : List Nat} (h : badLines s d.localAddr d.len = l :: rest) (hostErr : Bool) :
    dtoh s ring idx d hostErr =
      if hostErr then finishDesc (readPoisoned s l) ring idx 0x000B 0 0 0
      else finishDesc (sendToHost (readPoisoned s l) d (bytesForHost s d.localAddr d.len)) ring idx 0x0006
        (BitVec.ofNat 48 (l :: rest).length) (BitVec.ofNat 64 (64 * l)) codePoison := by
  simp only [dtoh, h, List.isEmpty_cons, Bool.false_or, Bool.false_eq_true, if_false, List.headD_cons]
  rw [bytesForHost, h]
  rfl

end

/-! ## STEP (R165, R308) -/

/-- The beginning of a step leaves its number, its loss state, the sides, and what is kept of the step before. -/
theorem beginStep_keeps (s : State) : (beginStep s).mem.side = s.mem.side ∧ (beginStep s).job.step = s.job.step ∧ (beginStep s).job.l = s.job.l ∧
    (beginStep s).job.clean = s.job.clean ∧ (beginStep s).job.freqKept = s.job.freqKept ∧ (beginStep s).upd.fingersKept = s.upd.fingersKept := by
  obtain ⟨hside, hstep, hl, hclean, -, -, hfreq, hfingers, -, -⟩ := State.carried_eq_iff.1 (beginStep_carried s)
  exact ⟨hside, hstep, hl, hclean, hfreq, hfingers⟩

/-- A command of STEP and the action that it carries out. -/
def stepCommands (ring : RingId) (idx : W16) : List (Nat × Instr) :=
  [(0, .stepHold ring idx), (1, .stepRelease ring idx), (2, .stepReplay ring idx), (3, .drainSet ring idx), (4, .drainClear ring idx)]

theorem exec_stepCommand (s : State) (ring : RingId) (idx : W16) :
    ∀ x ∈ stepCommands ring idx, ∃ f, exec x.2 s = .next (stepDesc s ring idx x.1 f) := by
  intro x hx
  unfold stepCommands at hx
  fin_cases hx <;> exact ⟨_, rfl⟩

/-! ## The statement -/

section
variable {s : State} {ring : RingId} {idx : W16} {d : Inflight}

/-- A descriptor that fails a check completes with that status, by whichever of its commands. -/
theorem exec_descCommand_refused {st : W16} {a : BitVec 48} {b : W64} {code : W16} (hc : descCheck s ring d = some (st, a, b, code))
    (data : List Byte) (err : Bool) (failed : Option HostAccess) {x : Nat × Instr} (hx : x ∈ descCommands ring idx data err failed)
    (h : s.descReady ring idx x.1 d) :
    exec x.2 s = .next (finishDesc s ring idx st a b code) ∧
      d.finish st a b code ∈ ((finishDesc s ring idx st a b code).hlk.rings[ring]).inflight := by
  obtain ⟨f, hexec⟩ := exec_descCommand s ring idx data err failed x hx
  exact ⟨hexec.trans (congrArg _ (runDesc_fails s ring idx x.1 d f h hc)), finishDesc_marks h st a b code⟩

variable (hc : descCheck s ring d = none)
include hc

theorem exec_waitr_ready (h : s.descReady ring idx 0x02 d) :
    exec (.waitr ring idx) s = .next (if waitMet s d then doneDesc s ring idx 0 else s) :=
  congrArg _ (runDesc_ready s ring idx 0x02 d _ h hc)

theorem exec_waitrTimeout_ready (h : s.descReady ring idx 0x02 d) : exec (.waitrTimeout ring idx) s =
    .next (if waitMet s d then doneDesc s ring idx 0 else finishDesc s ring idx 0x000C 0 0 codeTimeout) :=
  congrArg _ (runDesc_ready s ring idx 0x02 d _ h hc)

theorem exec_htod_ready (h : s.descReady ring idx 0x10 d) (data : List Byte) (hostErr : Bool) :
    exec (.htod ring idx data hostErr) s = .next (htod (linkGood s) ring idx d data hostErr) :=
  congrArg _ (runDesc_ready s ring idx 0x10 d _ h hc)

theorem exec_dtoh_ready (h : s.descReady ring idx 0x11 d) (hostErr : Bool) :
    exec (.dtoh ring idx hostErr) s = .next (dtoh (linkGood s) ring idx d hostErr) :=
  congrArg _ (runDesc_ready s ring idx 0x11 d _ h hc)

theorem stepDesc_ready (h : s.descReady ring idx 0x20 d) (k : Nat) (f : State → State) :
    stepDesc s ring idx k f = if d.action = k then f s else s :=
  runDesc_ready s ring idx 0x20 d _ h hc

theorem stepDesc_of_action (h : s.descReady ring idx 0x20 d) {k : Nat} (hk : d.action = k) (f : State → State) : stepDesc s ring idx k f = f s :=
  (stepDesc_ready hc h k f).trans (if_pos hk)

/-- A command of STEP does nothing to a descriptor of another action (log entry 4). -/
theorem exec_stepCommand_of_other (h : s.descReady ring idx 0x20 d) {x : Nat × Instr} (hx : x ∈ stepCommands ring idx)
    (hk : d.action ≠ x.1) : exec x.2 s = .next s := by
  obtain ⟨f, hexec⟩ := exec_stepCommand s ring idx x hx
  rw [hexec, stepDesc_ready hc h, if_neg hk]

end

/-- A write of the drain-pending bit by a STEP action: the value at the end of the tick before is kept for the tick (R437). -/
theorem setDrain_step (s : State) (v : Bool) : setDrain s v true =
    { s with mem := { s.mem with drainPending := v, drainStep := true, drainTick := some s.now,
                                  drainPrev := if s.mem.drainTick = some s.now then s.mem.drainPrev else s.mem.drainPending } } := by
  by_cases h : s.mem.drainTick = some s.now <;> simp [setDrain, h]

/-- The hold is over, and its RELEASE completes with the number of the step that waited. -/
def unheld (s : State) (ring : RingId) (idx : W16) : State := doneDesc (updJob s fun j => { j with hold := .none }) ring idx (heldStep s).toNat

theorem releaseStep_of_replay {s : State} (h : s.job.replay.isSome = true) (ring : RingId) (idx : W16) : releaseStep s ring idx = unheld s ring idx :=
  if_pos h

/-- A release with no replay resumes dispatch at once. -/
theorem releaseStep_of_no_replay {s : State} (h : s.job.replay = none) (ring : RingId) (idx : W16) :
    releaseStep s ring idx = beginStep (unheld s ring idx) :=
  if_neg (by simp [h])

/-- A replay is entered: the step of the kept context is to run on the other side, and the present one waits (R165). -/
def replayEntered (s : State) (ring : RingId) (idx : W16) (c : W32 × Int × Nat) : State :=
  updJob (begun s ring idx) fun j =>
    { j with replayBack := some (j.step, j.l, j.clean), replay := some (ring, idx), replaySide := !s.mem.side, step := c.1, l := c.2.1, clean := c.2.2 }

theorem replayStep_of_kept {s : State} {c : W32 × Int × Nat} (h : s.job.ctxKept = some c) (ring : RingId) (idx : W16) :
    replayStep s ring idx = beginStep (replayEntered s ring idx c) := by
  simp only [replayStep, h]
  rfl

/-- Settles O53: every command of a descriptor runs the shared checks and then its own action; HTOD's bytes are one store of clean bytes,
DTOH's are those of HBM with zeros for poisoned lines, and a step begins with the sides, the context and the loss state that STEP has set. -/
theorem descriptorsAct : Obligations.DescriptorsAct := by
  intro s ring idx d
  refine ⟨fun st a b code hc data err failed x hx h => exec_descCommand_refused hc data err failed hx h, fun hc => ?_⟩
  refine ⟨fun h => congrArg _ (runDesc_ready s ring idx 0x01 d _ h hc), fun h => ⟨?waitrMet, ?waitrUnmet⟩,
    fun h hs hal => ⟨?htodEnds, ?htodCutOff, ?htodUnopened⟩,
    fun h => ⟨?dtohPlain, ?dtohClean, ?dtohPoisoned, ?dtohCutOff⟩,
    fun h => ⟨?hold, ?release, ?replay, ?drainSet, ?drainClear, ?otherAction⟩⟩
  case waitrMet =>
    intro hmet
    have hwait : waitMet s d = true := by simpa [waitMet] using hmet
    rw [exec_waitr_ready hc h, exec_waitrTimeout_ready hc h, hwait]
    exact ⟨rfl, rfl⟩
  case waitrUnmet =>
    intro hmet
    have hwait : waitMet s d = false := by rw [← Bool.not_eq_true]; simpa [waitMet] using hmet
    rw [exec_waitr_ready hc h, exec_waitrTimeout_ready hc h, hwait]
    exact ⟨rfl, rfl⟩
  case htodEnds =>
    intro data hseal
    obtain ⟨hstep, hkeeps, hreads⟩ := hbmPut_clean_stores (s := linkGood s) hs hal d.localAddr (padTo d.len 0 data)
    rw [padTo_length] at hkeeps hreads
    refine ⟨_, hstep, ?_, hkeeps, hreads⟩
    rw [exec_htod_ready hc h, htod_ends ring idx (fromHost_plain (linkGood s) _ _ _ _ hseal)]
    rfl
  case htodCutOff =>
    intro data hseal hlen
    obtain ⟨hstep, hkeeps, hreads⟩ := hbmPut_clean_stores (s := linkGood s) hs hal d.localAddr data
    refine ⟨_, hstep, ?_, hkeeps, hreads⟩
    rw [exec_htod_ready hc h, htod_cut_off (s := linkGood s) ring idx hseal hlen]
  case htodUnopened =>
    intro data i hi
    refine ⟨_, (exec_htod_ready hc h data false).trans (congrArg _ (htod_unopened (s := linkGood s) ring idx hi)), ?_⟩
    rintro rfl
    obtain ⟨c, hsec⟩ := fromHost_sec (linkGood s) (some d.localAddr) 0x10 d.len data
    rw [fromHost_first_block hi, hsec]
    rfl
  case dtohPlain => exact fun u bs hseal => toHost_plain u _ _ bs hseal
  case dtohClean =>
    intro hclean
    rw [exec_dtoh_ready hc h, dtoh_of_clean (s := linkGood s) ring idx hclean]
    rfl
  case dtohPoisoned =>
    intro l rest hbad
    refine ⟨readPoisoned (linkGood s) l, bytesForHost (linkGood s) d.localAddr d.len, ?_, ?_, bytesForHost_length _ _ _, fun i hi => ?_,
      readPoisoned_mem _ _, fun hjob => readPoisoned_of_no_job (s := linkGood s) hjob l, fun hjob => readPoisoned_of_job (s := linkGood s) hjob l⟩
    · rw [exec_dtoh_ready hc h, dtoh_of_poisoned (s := linkGood s) ring idx hbad, hbad]
      rfl
    · rw [exec_dtoh_ready hc h, dtoh_of_poisoned (s := linkGood s) ring idx hbad]
      rfl
    · exact bytesForHost_getElem? (linkGood s) d.localAddr d.len hi
  case dtohCutOff =>
    intro hclean
    rw [exec_dtoh_ready hc h, dtoh_of_clean (s := linkGood s) ring idx hclean]
    rfl
  case hold => exact fun hk => congrArg _ (stepDesc_of_action hc h hk _)
  case release =>
    intro hk
    rw [show exec (.stepRelease ring idx) s = .next (releaseStep s ring idx) from congrArg _ (stepDesc_of_action hc h hk _)]
    refine ⟨fun hreplay => congrArg _ (releaseStep_of_replay hreplay ring idx), fun hreplay => ?_⟩
    rw [releaseStep_of_no_replay hreplay]
    obtain ⟨hdispatch, hhold, -⟩ := beginStep_job (unheld s ring idx)
    obtain ⟨hside, hstep, -⟩ := beginStep_keeps (unheld s ring idx)
    exact ⟨_, rfl, rfl, hhold, hdispatch, hstep, hside⟩
  case replay =>
    intro c hk hkept
    rw [show exec (.stepReplay ring idx) s = .next (replayStep s ring idx) from congrArg _ (stepDesc_of_action hc h hk _),
      replayStep_of_kept hkept]
    obtain ⟨hdispatch, -, hreplay, hreplaySide, hback⟩ := beginStep_job (replayEntered s ring idx c)
    obtain ⟨hside, hstep, hl, hclean, hfreq, hfingers⟩ := beginStep_keeps (replayEntered s ring idx c)
    exact ⟨_, rfl, hdispatch, hreplay, hreplaySide, hside, hback, by rw [hstep, hl, hclean]; rfl, hfreq, hfingers⟩
  case drainSet =>
    exact fun hk => congrArg _ ((stepDesc_of_action hc h hk _).trans
      (congrArg (doneDesc · ring idx s.job.step.toNat) (setDrain_step s true)))
  case drainClear =>
    exact fun hk => congrArg _ ((stepDesc_of_action hc h hk _).trans
      (congrArg (doneDesc · ring idx s.job.step.toNat) (setDrain_step s false)))
  case otherAction => exact fun x hx hk => exec_stepCommand_of_other hc h hx hk

end Sys2Proof.Machine
end

section
/-! SUPPORT. What power messages, the cap and ceiling registers, the limiters, the telemetry, the headroom and die samples and a droop
each leave (R321–R329, R334, R403), and the statement that they follow their rules. -/

namespace Sys2Proof.Machine

/-! ## Power messages (R321, R322, R403) -/

section
variable {s : State} {body : List Byte}

theorem setCap_not_message (h : powerMessage s body = false) : setCap s body = s := by simp [setCap, h]

theorem setCap_illegal (h : powerMessage s body = true) (hbad : body.length ≠ 8 ∨ leAt body 6 2 < 600 ∨ 2400 < leAt body 6 2) :
    setCap s body = respondMsg s 1 2 (leBytes 2 (capOf s)) := by
  have hc : ¬ ((body.length = 8 ∧ 600 ≤ leAt body 6 2) ∧ leAt body 6 2 ≤ 2400) := by omega
  simp [setCap, h, hc]

/-- The answer to a legal cap holds the effective cap with the new value in it. -/
theorem setCap_legal (h : powerMessage s body = true) (hlen : body.length = 8) (hlo : 600 ≤ leAt body 6 2) (hhi : leAt body 6 2 ≤ 2400) :
    setCap s body = respondMsg { s with pwr := { s.pwr with capRack := BitVec.ofNat 16 (leAt body 6 2) } } 1 0
      (leBytes 2 (min (leAt body 6 2) s.pwr.hcap.toNat)) := by
  have hfit : leAt body 6 2 % 65536 = leAt body 6 2 := Nat.mod_eq_of_lt (by omega)
  simp [setCap, h, hlen, hlo, hhi, updPwr, capOf, hfit]

theorem answerQuery_not_message (h : powerMessage s body = false) (cmd : Byte) (data : List Byte) : answerQuery s cmd body data = s := by
  simp [answerQuery, h]

theorem answerQuery_of_no_request (h : powerMessage s body = true) (hlen : body.length = 6) (cmd : Byte) (data : List Byte) :
    answerQuery s cmd body data = respondMsg s cmd 0 data := by
  simp [answerQuery, h, hlen]

theorem answerQuery_of_length (h : powerMessage s body = true) (hlen : body.length ≠ 6) (cmd : Byte) (data : List Byte) :
    answerQuery s cmd body data = respondMsg s cmd 2 [] := by
  simp [answerQuery, h, hlen]

theorem exec_unknownCommand_not_message (h : powerMessage s body = false) : exec (.unknownCommand body) s = .next s := by
  simp [exec, execUnknownCommand, h]

theorem exec_unknownCommand_unlisted (h : powerMessage s body = true) (hcmd : (byteAt body 5).toNat ∉ [1, 2, 3]) :
    exec (.unknownCommand body) s = .next (respondMsg s (byteAt body 5) 1 []) := by
  simp only [List.mem_cons, List.not_mem_nil, or_false, not_or] at hcmd
  obtain ⟨h1, h2, h3⟩ := hcmd
  simp [exec, execUnknownCommand, h, h1, h2, h3]

end

/-! ## The cap and ceiling registers (R321, R334) -/

theorem onRails_setHcap (s : State) (v : W16) : (s.onRails fun t => setHcap t v) = if s.inp.rails then
    { s.unlatch with pwr := if 600 ≤ v.toNat ∧ v.toNat ≤ 2400 then { s.pwr with hcap := v, hcapErr := false } else { s.pwr with hcapErr := true } }
    else s.unlatch := by
  simp only [State.onRails, setHcap, updPwr, unlatch_pwr, Bool.and_eq_true, decide_eq_true_eq]

theorem onRails_setFceil (s : State) (v : BitVec 11) : (s.onRails fun t => setFceil t v) = if s.inp.rails then
    { s.unlatch with pwr := if 900 ≤ v.toNat ∧ v.toNat ≤ 1750 ∧ v.toNat % 25 = 0 then { s.pwr with fceil := v, fceilErr := false }
      else { s.pwr with fceilErr := true } }
    else s.unlatch := by
  simp only [State.onRails, setFceil, updPwr, unlatch_pwr, Bool.and_eq_true, decide_eq_true_eq, and_assoc]

/-! ## The peak limiter (R326) -/

/-- The limiter is on above its upper bounds, off below both lower ones, and stays as it is between them (R326). -/
def peakAfter (s : State) : Bool :=
  if 25000000 ≤ bucketAfter s ∨ 29500 < limOf s.pwr then true
  else if bucketAfter s ≤ 5000000 ∧ limOf s.pwr < 28000 then false
  else s.pwr.peak

theorem peakAfter_above {s : State} (h : 25000000 ≤ bucketAfter s ∨ 29500 < limOf s.pwr) : peakAfter s = true := if_pos h

theorem peakAfter_below {s : State} (hb : bucketAfter s ≤ 5000000) (hp : limOf s.pwr < 28000) : peakAfter s = false := by
  rw [peakAfter, if_neg (by omega), if_pos ⟨hb, hp⟩]

theorem peakAfter_between {s : State} (hlow : 5000000 < bucketAfter s ∨ 28000 ≤ limOf s.pwr) (hb : bucketAfter s < 25000000)
    (hp : limOf s.pwr ≤ 29500) : peakAfter s = s.pwr.peak := by
  rw [peakAfter, if_neg (by omega), if_neg (by omega)]

theorem peakStep_eq (s : State) : peakStep s = { s with pwr := { s.pwr with
    bucket := bucketAfter s, peak := peakAfter s, halving := s.pwr.fastRise || peakAfter s || headroom s == 2,
    peakEngaged := s.pwr.peakEngaged + (if peakAfter s = true ∧ s.pwr.peak = false then 1 else 0) } } := by
  have hpeak : (if (25000000 ≤ bucketAfter s || 29500 < limOf s.pwr) = true then true
      else if (bucketAfter s ≤ 5000000 && limOf s.pwr < 28000) = true then false else s.pwr.peak) = peakAfter s := by
    simp only [Bool.or_eq_true, Bool.and_eq_true, decide_eq_true_eq, peakAfter]
  have hcount : (if (peakAfter s && !s.pwr.peak) = true then bump s.pwr.peakEngaged else s.pwr.peakEngaged) =
      s.pwr.peakEngaged + (if peakAfter s = true ∧ s.pwr.peak = false then 1 else 0) := by
    cases peakAfter s <;> cases s.pwr.peak <;> simp [bump]
  simp only [peakStep, hpeak, rehalve, updPwr, hcount, headroom]

/-- The rule of one update with the limiter's state left abstract: a user of it then has no bucket to compute. -/
theorem peakStep_does (s : State) : ∃ on : Bool,
    peakStep s = { s with pwr := { s.pwr with
      bucket := bucketAfter s, peak := on, halving := s.pwr.fastRise || on || headroom s == 2,
      peakEngaged := s.pwr.peakEngaged + (if on = true ∧ s.pwr.peak = false then 1 else 0) } } ∧
    (25000000 ≤ bucketAfter s ∨ 29500 < limOf s.pwr → on = true) ∧
    (bucketAfter s ≤ 5000000 → limOf s.pwr < 28000 → on = false) ∧
    (5000000 < bucketAfter s ∨ 28000 ≤ limOf s.pwr → bucketAfter s < 25000000 → limOf s.pwr ≤ 29500 → on = s.pwr.peak) :=
  ⟨peakAfter s, peakStep_eq s, peakAfter_above, peakAfter_below, peakAfter_between⟩

/-! ## The headroom states (R325, R328) -/

theorem powerState_le (sum n cap : Nat) : powerState sum n cap ≤ 2 := by
  unfold powerState
  split_ifs <;> omega

theorem bandOf_le (t : Temp) (amber red : Int) : bandOf t amber red ≤ 2 := by
  unfold bandOf
  split_ifs <;> omega

theorem bandOf_red_iff (t : Temp) (amber red : Int) : bandOf t amber red = 2 ↔ red < t.toInt := by
  unfold bandOf
  split_ifs <;> simp_all

theorem bandOf_green_iff (t : Temp) {amber red : Int} (h : amber ≤ red) : bandOf t amber red = 0 ↔ t.toInt ≤ amber := by
  unfold bandOf
  split_ifs <;> simp <;> omega

/-- A state of at most RED fits the two bits of its field. -/
theorem state_field_toNat {n : Nat} (h : n ≤ 2) : (BitVec.ofNat 2 n).toNat = n :=
  (BitVec.toNat_ofNat n 2).trans (Nat.mod_eq_of_lt (by omega))

theorem state_field_eq_iff {n k : Nat} (h : n ≤ 2) (hk : k ≤ 2) : BitVec.ofNat 2 n = BitVec.ofNat 2 k ↔ n = k := by
  rw [← BitVec.toNat_inj, state_field_toNat h, state_field_toNat hk]

/-! ## The comparison of estimate and measurement (R324) -/

/-- The thermal state of R328, from the temperatures of the die, the stacks and the optical engines. -/
theorem thermal_red_iff (die stack opt : Temp) :
    BitVec.ofNat 2 (max (bandOf die 400 432) (max (bandOf stack 360 380) (bandOf opt 320 340))) = 2 ↔
      432 < die.toInt ∨ 380 < stack.toInt ∨ 340 < opt.toInt := by
  have hdie := bandOf_le die 400 432
  have hstack := bandOf_le stack 360 380
  have hopt := bandOf_le opt 320 340
  rw [← bandOf_red_iff die 400 432, ← bandOf_red_iff stack 360 380, ← bandOf_red_iff opt 320 340]
  refine (state_field_eq_iff (by omega) le_rfl).trans ?_
  omega

theorem thermal_green_iff (die stack opt : Temp) :
    BitVec.ofNat 2 (max (bandOf die 400 432) (max (bandOf stack 360 380) (bandOf opt 320 340))) = 0 ↔
      die.toInt ≤ 400 ∧ stack.toInt ≤ 360 ∧ opt.toInt ≤ 320 := by
  have hdie := bandOf_le die 400 432
  have hstack := bandOf_le stack 360 380
  have hopt := bandOf_le opt 320 340
  rw [← bandOf_green_iff die (show (400 : Int) ≤ 432 by decide), ← bandOf_green_iff stack (show (360 : Int) ≤ 380 by decide),
    ← bandOf_green_iff opt (show (320 : Int) ≤ 340 by decide)]
  refine (state_field_eq_iff (by omega) (Nat.zero_le 2)).trans ?_
  omega

/-- The averages of the millisecond start again. -/
def meansCleared (p : Pwr) : Pwr := { p with estSum := 0, estN := 0, measSum := 0, measN := 0 }

section
variable {s : State}

theorem divergence_implausible (h : s.pwr.telemetryBad = true) : divergence s = { s with pwr := meansCleared s.pwr } := by
  rw [divergence, if_pos h]
  rfl

theorem divergence_agrees (h : s.pwr.telemetryBad = false) (hd : ¬ divergent s.pwr = true) :
    divergence s = { s with pwr := { meansCleared s.pwr with divergentMs := 0, diverging := false } } := by
  simp only [divergence, h, hd, Bool.false_eq_true, if_false]
  rfl

theorem divergence_counts (h : s.pwr.telemetryBad = false) (hd : divergent s.pwr = true) (hn : s.pwr.divergentMs ≠ 10) :
    divergence s = { s with pwr := { meansCleared s.pwr with divergentMs := s.pwr.divergentMs + 1 } } := by
  have hne : ¬ s.pwr.divergentMs + 1 = 11 := by omega
  simp only [divergence, h, hd, hne, Bool.false_eq_true, if_false, if_true]
  rfl

theorem divergence_eleventh (h : s.pwr.telemetryBad = false) (hd : divergent s.pwr = true) (hn : s.pwr.divergentMs = 10) :
    divergence s = raiseCode { s with pwr := { meansCleared s.pwr with
      divergentMs := 11, diverging := true, divergence := s.pwr.divergence + 1 } } 0x09 codeDivergence := by
  simp only [divergence, h, hd, hn, Bool.false_eq_true, if_false, if_true]
  rfl

end

/-! ## The hottest sensor (R328) -/

theorem hottest_mem : ∀ {l : List Temp}, l ≠ [] → hottest l ∈ l
  | [t], _ => List.mem_singleton.2 rfl
  | t :: u :: l, _ => by
    rw [hottest]
    · split
      · exact List.mem_cons_self
      · exact List.mem_cons_of_mem t (hottest_mem (List.cons_ne_nil u l))
    · exact List.cons_ne_nil u l

theorem le_hottest : ∀ {l : List Temp} {x : Temp}, x ∈ l → x.toInt ≤ (hottest l).toInt
  | [t], x, hx => by rw [List.mem_singleton.1 hx]; rfl
  | t :: u :: l, x, hx => by
    have hrest : ∀ y ∈ u :: l, y.toInt ≤ (hottest (u :: l)).toInt := fun y hy => le_hottest hy
    rw [hottest]
    · split
      next hlt =>
        have hlt' : (hottest (u :: l)).toInt < t.toInt := by simpa [BitVec.slt] using hlt
        rcases List.mem_cons.1 hx with rfl | hx
        · exact le_refl _
        · exact (hrest x hx).trans hlt'.le
      next hge =>
        have hge' : t.toInt ≤ (hottest (u :: l)).toInt := by simpa [BitVec.slt] using hge
        rcases List.mem_cons.1 hx with rfl | hx
        · exact hge'
        · exact hrest x hx
    · exact List.cons_ne_nil u l

/-! ## The die sample (R329) -/

/-- The sample is kept, before anything is decided from it. -/
def dieKept (s : State) (t : Temp) : State :=
  updPwr s fun p => { p with dies := (t :: p.dies).take 11, tDie := t, tMax := if p.tMax.slt t then t else p.tMax, fastFor := p.fastFor + 1 }

theorem heatersRise_heatRx (s : State) (rise : Int) (g : LaneId) : ((heatersRise s rise).opt.lanes[g]).heatRx =
    heaterRise (s.opt.lanes[g]).heatRx (ringRecord s (2 * g.val)) rise := by
  simp [heatersRise]

section
variable {s : State} {t : Temp}

theorem dieStep_no_rise (h : riseOf t s.pwr.dies = none) : dieStep s t = dieKept s t := by
  simp only [dieStep, h]
  rfl

variable {rise : Int} (h : riseOf t s.pwr.dies = some rise)
include h

theorem dieStep_fast (hfast : 20 < rise) (hfirst : wasSteep s.pwr.dies = false) : dieStep s t =
    rehalve (heatersRise (updPwr (dieKept s t) fun p =>
      { p with fastRise := true, fastSeen := true, fastFor := 0, fastRises := bump p.fastRises }) rise) := by
  simp only [dieStep, h, hfast, hfirst, decide_true, Bool.not_false, Bool.and_self, if_true]
  rfl

/-- Below the limit of 5 °C the response is left once its time is over, the rise is small and the die is cool enough (R329). -/
theorem dieStep_slow (hslow : rise ≤ 20) : dieStep s t =
    if s.pwr.fastRise = true ∧ 100 ≤ s.pwr.fastFor ∧ rise < 4 ∧ t.toInt ≤ 420
    then rehalve (updPwr (dieKept s t) fun p => { p with fastRise := false }) else dieKept s t := by
  have hnot : ¬ 20 < rise := by omega
  simp only [dieStep, h, hnot, decide_false, Bool.false_and, Bool.false_eq_true, if_false, Bool.and_eq_true, decide_eq_true_eq, and_assoc,
    updPwr, Nat.reduceLeDiff]
  rfl

theorem dieStep_slow_does (hslow : rise ≤ 20) : ∃ q, dieStep s t = { s with pwr := q } ∧ q.tDie = t ∧ q.fastRises = s.pwr.fastRises ∧
    (q.fastRise = false ↔ s.pwr.fastRise = false ∨ (100 ≤ s.pwr.fastFor ∧ rise < 4 ∧ t.toInt ≤ 420)) := by
  rw [dieStep_slow h hslow]
  split
  next hends =>
    obtain ⟨-, hover⟩ := hends
    exact ⟨_, rfl, rfl, rfl, iff_of_true rfl (.inr hover)⟩
  next hstays =>
    refine ⟨_, rfl, rfl, rfl, .inl, fun hoff => hoff.elim id fun hover => ?_⟩
    exact Bool.eq_false_iff.2 fun hon => hstays ⟨hon, hover⟩

end

/-! ## Droop (R327) -/

section
variable {s : State} {c : CoreId}

theorem droopOn_starts (h : (s.core c).droop = false) :
    droopOn s c = s.updCore c fun k => { k with droop := true, droopPeriods := 8, holdDroop := k.holdDroop + 8 } := by
  simp [droopOn, h]

theorem droopOn_again (h : (s.core c).droop = true) : droopOn s c = s := if_pos h

theorem droopOff_idle (h : (s.core c).droop = false) : droopOff s c = s := by simp [droopOff, h]

/-- The doubled periods beyond the eighth are a free value (R327). -/
theorem droopOff_ends (h : (s.core c).droop = true) : droopOff s c =
    { (s.updCore c fun k => { k with droop := false, droopPeriods := 0, holdDroop := k.holdDroop + (s.draw.1.setWidth 16).zeroExtend 64 })
      with free := s.free + 1 } :=
  if_pos h

end

/-! ## The statement -/

/-- Settles O56: every clause is the rule of its operation, and an event that an operation raises changes the host link, the output and
the free values only. The unit and the clocks of the estimate (log entry 117) and the average over the samples so far (log entry 18) are
the model's choice. -/
theorem powerLimits : Obligations.PowerLimits := by
  intro s cap headState answer
  refine ⟨?messages, ?otherMessages, ?hostCap, ?ceiling, ?offer, ⟨?estimate, ?peak, ?headroom⟩, ?reading, ?divergence, ?dieSample, rfl, ?droop⟩
  case messages =>
    intro body h
    exact ⟨⟨fun hlen hlo hhi => congrArg _ (setCap_legal h hlen hlo hhi), fun hbad => congrArg _ (setCap_illegal h hbad)⟩,
      fun hlen => ⟨congrArg _ (answerQuery_of_no_request h hlen _ _), congrArg _ (answerQuery_of_no_request h hlen _ _)⟩,
      fun hlen => ⟨congrArg _ (answerQuery_of_length h hlen _ _), congrArg _ (answerQuery_of_length h hlen _ _)⟩,
      exec_unknownCommand_unlisted h⟩
  case otherMessages =>
    intro body h i hi
    simp only [List.mem_cons, List.not_mem_nil, or_false] at hi
    rcases hi with rfl | rfl | rfl | rfl
    · exact congrArg _ (setCap_not_message h)
    · exact congrArg _ (answerQuery_not_message h _ _)
    · exact congrArg _ (answerQuery_not_message h _ _)
    · exact exec_unknownCommand_not_message h
  case hostCap => exact fun v => congrArg _ (onRails_setHcap s v)
  case ceiling => exact fun v => congrArg _ (onRails_setFceil s v)
  case offer => exact ⟨rfl, fun v => rfl⟩
  case estimate => exact fun activity => rfl
  case peak =>
    obtain ⟨on, hstep, habove, hbelow, hbetween⟩ := peakStep_does s
    exact ⟨_, congrArg Host.Outcome.next hstep, rfl, habove, hbelow, hbetween, rfl, rfl, rfl⟩
  case headroom =>
    obtain ⟨q, hlk, out, free, hstep, hsamples, hsum, hn, hstack, hopt, -, hpower, hthermal, hhalving⟩ := headroomStep_does s
    refine ⟨_, congrArg Host.Outcome.next hstep, hsamples, hsum, hn, hstack, hopt, ?power, ?red, ?green, hhalving, rfl, rfl, rfl⟩
    case power =>
      rw [hpower, state_field_toNat (powerState_le _ _ _)]
      rfl
    case red => rw [hthermal, thermal_red_iff]
    case green => rw [hthermal, thermal_green_iff]
  case reading =>
    intro r
    obtain ⟨hframe, hmeas, hsum, hn, hbad, hevent, hstays, hleaves⟩ := judgeTelemetry_does s r
    obtain ⟨inputBad, inputGood, hlk, out, free, hstep, hvolt⟩ := judgeVoltage_does (judgeTelemetry s r) r
    have hinp : (judgeTelemetry s r).inp = s.inp := by rw [hframe]
    refine ⟨_, congrArg Host.Outcome.next hstep, hbad, hevent, hstays, hleaves, hmeas, hsum, hn, hvolt, ?dv, ?frame⟩
    case dv => exact hinp ▸ rfl
    case frame => rw [hframe]
  case divergence =>
    intro e m apart p
    have hapart : divergent s.pwr = true ↔ apart := decide_eq_true_iff
    refine ⟨fun h => congrArg _ (divergence_implausible h), fun h hd => congrArg _ (divergence_agrees h (mt hapart.1 hd)),
      fun h hd hn => congrArg _ (divergence_counts h (hapart.2 hd) hn), fun h hd hn => ?_⟩
    obtain ⟨hlk, out, hraise⟩ := raiseCode_frame { s with pwr := { meansCleared s.pwr with
      divergentMs := 11, diverging := true, divergence := s.pwr.divergence + 1 } } 0x09 codeDivergence
    exact ⟨_, congrArg Host.Outcome.next ((divergence_eleventh h (hapart.2 hd) hn).trans hraise), rfl, rfl, rfl⟩
  case dieSample =>
    intro sensors hne tj
    have hexec : exec (.dieSample sensors) s = .next (dieStep s tj) :=
      congrArg Host.Outcome.next (if_neg (by simpa using hne))
    rw [hexec]
    refine ⟨⟨hottest_mem hne, fun x hx => le_hottest hx⟩, fun rise hrise hfirst => ⟨fun hfast => ?fast, fun hslow => ?slow⟩, fun hnone => ?first⟩
    case fast =>
      exact ⟨_, congrArg Host.Outcome.next (dieStep_fast hrise hfast hfirst), rfl, rfl, rfl, rfl, rfl, rfl,
        heatersRise_heatRx _ rise, rfl, rfl⟩
    case slow =>
      obtain ⟨q, hstep, hkept⟩ := dieStep_slow_does hrise hslow
      exact ⟨_, congrArg Host.Outcome.next hstep, rfl, hkept⟩
    case first => exact ⟨_, congrArg Host.Outcome.next (dieStep_no_rise hnone), rfl, rfl⟩
  case droop =>
    intro c
    exact ⟨fun h => congrArg _ (droopOn_starts h), fun h => ⟨congrArg _ (droopOn_again h), _, congrArg _ (droopOff_ends h)⟩,
      fun h => congrArg _ (droopOff_idle h)⟩

end Sys2Proof.Machine
end

section
/-! SUPPORT. What a WAITF leaves whose flag word is poisoned or does not meet its condition, what a poll of it leaves, and what the
expiry of its budget leaves (R70, R71, R75, R352). -/

namespace Sys2Proof.Machine

/-! ## One read of a flag word (R352) -/

section
variable {s : State} {a : Nat} {equal : Bool} {value : W32}

theorem noteFlag_core (s : State) (a : Nat) (c : CoreId) : (s.noteFlag a).core c = s.core c := by
  unfold State.noteFlag
  split <;> rfl

theorem updAccess_noteFlag (s : State) (a : Nat) (c : CoreId) (f : Access → Access) :
    (updAccess s c f).noteFlag a = updAccess (s.noteFlag a) c f := by
  change (if hbmPoisoned s a 4 then _ else _) = updAccess (if hbmPoisoned s a 4 then _ else _) c f
  split <;> rfl

theorem updAccess_flagMet (s : State) (a : Nat) (equal : Bool) (value : W32) (c : CoreId) (f : Access → Access) :
    (updAccess s c f).flagMet a equal value = s.flagMet a equal value := rfl

theorem updAccess_hbmCause (s : State) (c : CoreId) (f : Access → Access) : hbmCause (updAccess s c f) = hbmCause s := by
  unfold hbmCause
  rfl

/-- A met flag is clean, so its read is not counted. -/
theorem noteFlag_of_flagMet (h : s.flagMet a equal value = true) : s.noteFlag a = s := by
  obtain ⟨hclean, -⟩ := (Bool.and_eq_true _ _).mp h
  exact if_neg (by simpa using hclean)

end

/-! ## A WAITF issues, and is read again while it is the only instruction in flight (R70) -/

section
variable {s : State} {c : CoreId} {equal : Bool} {src : Fin 16} {value : W32}

/-- A WAITF whose flag is not met counts a poisoned read and is put in flight. -/
theorem tryIssue_waitf_unmet {d : Desc} (hd : (s.core c).access.desc[src] = d) (hf : (s.core c).access.flights = []) (hpos : 0 ≤ d.start)
    (hcause : hbmCause s d.start.toNat 4 false (d.start.toNat % 4 == 0) = none) (hunmet : s.flagMet d.start.toNat equal value = false) :
    tryIssue s c (.waitf equal src value) =
      some (fly (s.noteFlag d.start.toNat) c (.waitf equal src value) noMove { token := 0, base := 0, length := 0 } [] true 1) := by
  unfold State.flagMet at hunmet
  simp only [tryIssue, hf, hd, hcause, hunmet, if_neg (not_lt.mpr hpos)]
  rfl

theorem advanceAll_of_nothing_waiting (h : (s.core c).access.waiting = []) : advanceAll s c = s := by
  simp [advanceAll, advance, h]

/-- A poll of the only instruction in flight: a met flag takes it out of flight, any other is read and no more. -/
theorem pollFlag_only {f : Flight} (hf : (s.core c).access.flights = [f]) (hw : (s.core c).access.waiting = []) :
    let a := (s.core c).access.desc[src].start.toNat
    pollFlag s c f equal src value = if s.flagMet a equal value then updAccess s c fun x => { x with flights := [] } else s.noteFlag a := by
  intro a
  change (if s.flagMet a equal value then
    advanceAll (updAccess (s.noteFlag a) c fun x => { x with flights := x.flights.filter (·.seq ≠ f.seq) }) c else s.noteFlag a) = _
  split
  case isFalse => rfl
  case isTrue hmet =>
    rw [noteFlag_of_flagMet hmet, advanceAll_of_nothing_waiting (by rw [updAccess_access]; exact hw)]
    exact updCore_congr _ _ _ _ (by simp [hf])

theorem exec_waitfPoll_only {f : Flight} (hf : (s.core c).access.flights = [f]) (hi : f.instr = .waitf equal src value)
    (hgoing : (s.core c).access.stopped = false) : exec (.waitfPoll c) s = .next (pollFlag s c f equal src value) := by
  change execWaitfPoll c s = _
  simp [execWaitfPoll, hf, hi, hgoing]

end

/-! ## The budget of the only instruction in flight expires (R71, R75, R77) -/

section
variable {s : State} {c : CoreId} {f : Flight}

/-- A module that no longer resends the COLL CINCH of an access instruction, where it has one (R246). -/
def dropCinch (s : State) (c : CoreId) (seq : Nat) : State :=
  { s with coll := { s.coll with cinches := s.coll.cinches.filter (·.kind ≠ .coll c seq) } }

theorem exec_budgetExpiry_only (hf : (s.core c).access.flights = [f]) (harmed : f.armed = true) (hdone : f.done = false)
    (hopen : f.open_ ≠ 0) (hnow : outcomeNow s c f.seq = false) (elapsed : W32) :
    exec (.budgetExpiry c f.seq elapsed) s = .next
      (flightFault (dropCinch s c f.seq) c f codeStreamStall (stallRecord s c f elapsed).1 (stallRecord s c f elapsed).2) := by
  change execBudgetExpiry c f.seq elapsed s = _
  simp [execBudgetExpiry, hnow, hf, harmed, hdone, hopen, dropCinch]

/-- A fault of the only instruction in flight leaves none. -/
theorem flightFault_only_flights (hu : s.unfaulted c) (hf : (s.core c).access.flights = [f]) (code : W16) (cause : Nat)
    (g : Record → Record) : ((flightFault s c f code cause g).core c).access.flights = [] := by
  unfold flightFault
  generalize hv : (updAccess s c fun a => { a with flights := a.flights.filter (·.seq ≠ f.seq) }) = v
  have hcore : v.core c = { s.core c with access := { (s.core c).access with flights := [] } } := by
    simp [← hv, updAccess, hf]
  have hu' : v.unfaulted c :=
    ⟨by rw [hcore]; exact hu.core, by rw [← hv]; exact hu.aborting, by rw [← hv]; exact hu.quiescing⟩
  obtain ⟨-, -, hflights⟩ := accessFaultAt_faultOf v c f.seq (g (accessRecord f.index f.instr code cause)) hu' (by simp [hcore])
  rw [hflights, hcore]
  rfl

/-- What a stall records beside its cause leaves the code of the record (R77). -/
theorem stallRecord_code (s : State) (c : CoreId) (f : Flight) (elapsed : W32) (r : Record) :
    ((stallRecord s c f elapsed).2 r).code = r.code := by
  unfold stallRecord
  dsimp only
  split <;> rfl

end

/-! ## The statement -/

/-- Settles O11: the issue and the poll both read the flag as `noteFlag` does, and the expiry is the fault of the only instruction
in flight. -/
theorem flagIsPolled : Obligations.FlagIsPolled := by
  intro s c equal src value d a
  refine ⟨fun hready hpos hcause hunmet => ?issue, fun f hf hi hw hgoing => ?poll, fun f elapsed hf hi harmed hdone hopen hu hnow => ?expiry⟩
  case issue =>
    refine congrArg Host.Outcome.next (accessCommand_issue _ _ _ _ hready ?_ (.inl ?_))
    · have hd : ((updAccess s c fun x => { x with waiting := [.waitf equal src value] }).core c).access.desc[src] = d := by
        rw [updAccess_access]
      rw [tryIssue_waitf_unmet hd (by rw [updAccess_access]; exact hready.flights) hpos
        (by rw [updAccess_hbmCause]; exact hcause) (by rw [updAccess_flagMet]; exact hunmet), updAccess_noteFlag, fly,
        updAccess_updAccess]
      exact congrArg some (updCore_congr _ _ _ _ (by simp [noteFlag_core, hready.flights, hready.waiting, Access.passed, newFlight, remoteChip]))
    · simp [updAccess_access, noteFlag_core, Access.passed, hready.waiting]
  case poll => exact (exec_waitfPoll_only hf hi hgoing).trans (congrArg Host.Outcome.next (pollFlag_only hf hw))
  case expiry =>
    have hearliest : s.earliest c f := by simp [State.earliest, hf]
    have hu' : (dropCinch s c f.seq).unfaulted c := ⟨hu.core, hu.aborting, hu.quiescing⟩
    have hfault := (flightFault_faultOf s (dropCinch s c f.seq) c f codeStreamStall (stallRecord s c f elapsed).1
      (stallRecord s c f elapsed).2 hu hearliest rfl rfl rfl rfl).2
    refine ⟨_, _, exec_budgetExpiry_only hf harmed hdone hopen hnow elapsed, ?_, hfault, ?_⟩
    · exact flightFault_only_flights hu' hf _ _ _
    · rw [stallRecord_code]
      rfl

end Sys2Proof.Machine
end

section
/-! SUPPORT. Every command goes on, keeps a sound state sound and leaves the queue of waiting commands alone, so every step keeps a sound
state sound (R25, R34, R171, R346). -/

namespace Sys2Proof.Machine

/-- Every command keeps a sound state sound: each by the lemma on its own meaning. -/
theorem exec_ok {Q : List Instr} (i : Instr) (s : State) (h : Sound Q s) : outOk Q (exec i s) := by
  cases i with
  | setd core f => exact execSetd_ok core f s h
  | advd core d restore disp => exact execAdvd_ok core d restore disp s h
  | loop core count body => exact execLoop_ok core count body s h
  | budg core budget => exact execBudg_ok core budget s h
  | fence core => exact execFence_ok core s h
  | push core f => exact execPush_ok core f s h
  | pop core q token => exact execPop_ok core q token s h
  | waitf core eq src value => exact execWaitf_ok core eq src value s h
  | waitfPoll core => exact execWaitfPoll_ok core s h
  | ldh core m => exact execLdh_ok core m s h
  | sth core m => exact execSth_ok core m s h
  | movs core m => exact execMovs_ok core m s h
  | gath core m => exact execGath_ok core m s h
  | scat core m => exact execScat_ok core m s h
  | rget core m => exact execRget_ok core m s h
  | rput core m => exact execRput_ok core m s h
  | atom core m op => exact execAtom_ok core m op s h
  | land core m l => exact execLand_ok core m l s h
  | collRs core m c => exact execCollRs_ok core m c s h
  | collAg core m c => exact execCollAg_ok core m c s h
  | collAr core m c => exact execCollAr_ok core m c s h
  | collA2av core m c => exact execCollA2av_ok core m c s h
  | collBcast core m c => exact execCollBcast_ok core m c s h
  | collMcast core m c => exact execCollMcast_ok core m c s h
  | collCinch core m c => exact execCollCinch_ok core m c s h
  | accessCompletion core seq => exact execAccessCompletion_ok core seq s h
  | queueWaitResume core stream => exact execQueueWaitResume_ok core stream s h
  | budgetExpiry core seq elapsed => exact execBudgetExpiry_ok core seq elapsed s h
  | setx core delta f => exact execSetx_ok core delta f s h
  | advx core delta x restore disp => exact execAdvx_ok core delta x restore disp s h
  | loopx core delta count body => exact execLoopx_ok core delta count body s h
  | waitc core delta n => exact execWaitc_ok core delta n s h
  | pushe core delta f => exact execPushe_ok core delta f s h
  | pope core delta q token => exact execPope_ok core delta q token s h
  | mma core delta f => exact execMma_ok core delta f s h
  | drn core delta f => exact execDrn_ok core delta f s h
  | tacc core delta f => exact execTacc_ok core delta f s h
  | vop core delta f => exact execVop_ok core delta f s h
  | rst core delta f => exact execRst_ok core delta f s h
  | xps core delta f => exact execXps_ok core delta f s h
  | awls core delta lane tid base => exact execAwls_ok core delta lane tid base s h
  | cenf core delta set dst tid => exact execCenf_ok core delta set dst tid s h
  | treeHalfTaken core half => exact execTreeHalfTaken_ok core half s h
  | treeSumArrival core op => exact execTreeSumArrival_ok core op s h
  | treeBudgetExpiry core op chip elapsed => exact execTreeBudgetExpiry_ok core op chip elapsed s h
  | segmentDispatch core => exact execSegmentDispatch_ok core s h
  | segmentEnd core => exact execSegmentEnd_ok core s h
  | class3HoldExpiry core => exact execClass3HoldExpiry_ok core s h
  | landingArrival idx => exact execLandingArrival_ok idx s h
  | parkedLandingApply idx => exact execParkedLandingApply_ok idx s h
  | landingResend idx => exact execLandingResend_ok idx s h
  | secondPassReady group => exact execSecondPassReady_ok group s h
  | leaseOpen stack chan => exact execLeaseOpen_ok stack chan s h
  | ldone stack chan status => exact execLdone_ok stack chan status s h
  | leaseOverrun stack chan => exact execLeaseOverrun_ok stack chan s h
  | memWrite addr data poison => exact execMemWrite_ok addr data poison s h
  | memRead addr symbolErrors => exact execMemRead_ok addr symbolErrors s h
  | atomicUpdate addr fmt op data poison => exact execAtomicUpdate_ok addr fmt op data poison s h
  | wcbIdleWriteback ctrl line symbolErrors => exact execWcbIdleWriteback_ok ctrl line symbolErrors s h
  | atomicLineWriteback ctrl line => exact execAtomicLineWriteback_ok ctrl line s h
  | sidedAccessRelease idx => exact execSidedAccessRelease_ok idx s h
  | refresh stack chan bank => exact execRefresh_ok stack chan bank s h
  | scrubRead addr symbolErrors writtenSince lastOfPass => exact execScrubRead_ok addr symbolErrors writtenSince lastOfPass s h
  | stackTempRead stack temp => exact execStackTempRead_ok stack temp s h
  | retrainSlice stack chan checkOk settings => exact execRetrainSlice_ok stack chan checkOk settings s h
  | routeLookup port vc p => exact execRouteLookup_ok port vc p s h
  | packetIngress p => exact execPacketIngress_ok p s h
  | getreq p => exact execGetreq_ok p s h
  | put p => exact execPut_ok p s h
  | atomic p => exact execAtomic_ok p s h
  | getdata p => exact execGetdata_ok p s h
  | ack p => exact execAck_ok p s h
  | retryResend tag => exact execRetryResend_ok tag s h
  | packetSend idx => exact execPacketSend_ok idx s h
  | txnTimeout tag elapsed => exact execTxnTimeout_ok tag elapsed s h
  | fenceNotice p => exact execFenceNotice_ok p s h
  | beat port => exact execBeat_ok port s h
  | portSilent port => exact execPortSilent_ok port s h
  | congestionOnset port vc => exact execCongestionOnset_ok port vc s h
  | routeWrite chip value => exact execRouteWrite_ok chip value s h
  | vcbufWrite port high value => exact execVcbufWrite_ok port high value s h
  | counterPublish => exact execCounterPublish_ok s h
  | colldata p => exact execColldata_ok p s h
  | earlyArrivalApply idx => exact execEarlyArrivalApply_ok idx s h
  | phaseStart op => exact execPhaseStart_ok op s h
  | collComplete op => exact execCollComplete_ok op s h
  | cinchUp p => exact execCinchUp_ok p s h
  | cinchDown p => exact execCinchDown_ok p s h
  | cinchCack p => exact execCinchCack_ok p s h
  | cinchResend comm => exact execCinchResend_ok comm s h
  | commitCinchEntry => exact execCommitCinchEntry_ok s h
  | cinchBudgetExpiry comm elapsed => exact execCinchBudgetExpiry_ok comm elapsed s h
  | combFailure comb => exact execCombFailure_ok comb s h
  | frameSend port => exact execFrameSend_ok port s h
  | frameReceive port g bits rx => exact execFrameReceive_ok port g bits rx s h
  | stop port g => exact execStop_ok port g s h
  | ready port g => exact execReady_ok port g s h
  | switchMarker plan => exact execSwitchMarker_ok plan s h
  | switchDone port plan => exact execSwitchDone_ok port plan s h
  | planSwitch plan => exact execPlanSwitch_ok plan s h
  | buckleReprogram => exact execBuckleReprogram_ok s h
  | reacquireEnd failed => exact execReacquireEnd_ok failed s h
  | pilotWord g tx word => exact execPilotWord_ok g tx word s h
  | pilotLost g tx => exact execPilotLost_ok g tx s h
  | ringSweepEnd g tx found => exact execRingSweepEnd_ok g tx found s h
  | laneRejoin g tx => exact execLaneRejoin_ok g tx s h
  | heaterFeedforward temps => exact execHeaterFeedforward_ok temps s h
  | farLightArrival fport lanes => exact execFarLightArrival_ok fport lanes s h
  | plan port p => exact execPlan_ok port p s h
  | discover ring idx data hostErr => exact execDiscover_ok ring idx data hostErr s h
  | hello port p => exact execHello_ok port p s h
  | coord port p => exact execCoord_ok port p s h
  | up port p => exact execUp_ok port p s h
  | down port p => exact execDown_ok port p s h
  | discAck port p => exact execDiscAck_ok port p s h
  | discRepeat port => exact execDiscRepeat_ok port s h
  | discoveryTimeout => exact execDiscoveryTimeout_ok s h
  | linkDown => exact execLinkDown_ok s h
  | linkRetrain lanes => exact execLinkRetrain_ok lanes s h
  | linkFrameAuthFail => exact execLinkFrameAuthFail_ok s h
  | ringEnable ring value => exact execRingEnable_ok ring value s h
  | ringDisable ring => exact execRingDisable_ok ring s h
  | sqTailDoorbell ring value width32 => exact execSqTailDoorbell_ok ring value width32 s h
  | cqHeadDoorbell ring value width32 => exact execCqHeadDoorbell_ok ring value width32 s h
  | eventHeadDoorbell value width32 => exact execEventHeadDoorbell_ok value width32 s h
  | descriptorFetch ring data => exact execDescriptorFetch_ok ring data s h
  | descriptorComplete ring idx => exact execDescriptorComplete_ok ring idx s h
  | coalesceTimeout ring => exact execCoalesceTimeout_ok ring s h
  | eventRingEnable value => exact execEventRingEnable_ok value s h
  | eventRingDisable => exact execEventRingDisable_ok s h
  | nop ring idx => exact execNop_ok ring idx s h
  | waitr ring idx => exact execWaitr_ok ring idx s h
  | waitrTimeout ring idx => exact execWaitrTimeout_ok ring idx s h
  | htod ring idx data hostErr => exact execHtod_ok ring idx data hostErr s h
  | dtoh ring idx hostErr => exact execDtoh_ok ring idx hostErr s h
  | stepHold ring idx => exact execStepHold_ok ring idx s h
  | stepRelease ring idx => exact execStepRelease_ok ring idx s h
  | stepReplay ring idx => exact execStepReplay_ok ring idx s h
  | drainSet ring idx => exact execDrainSet_ok ring idx s h
  | drainClear ring idx => exact execDrainClear_ok ring idx s h
  | mgmtIdentitySnapshot ring idx request failed => exact execMgmtIdentitySnapshot_ok ring idx request failed s h
  | mgmtTelemetrySnapshot ring idx request failed => exact execMgmtTelemetrySnapshot_ok ring idx request failed s h
  | mgmtAttestationQuote ring idx request failed => exact execMgmtAttestationQuote_ok ring idx request failed s h
  | mgmtDumpRead ring idx request failed => exact execMgmtDumpRead_ok ring idx request failed s h
  | mgmtBootReport ring idx request failed => exact execMgmtBootReport_ok ring idx request failed s h
  | load ring idx image hostErr => exact execLoad_ok ring idx image hostErr s h
  | start ring idx => exact execStart_ok ring idx s h
  | teardown ring idx => exact execTeardown_ok ring idx s h
  | linkReset env => exact execLinkReset_ok env s h
  | setCap body => exact execSetCap_ok body s h
  | getStatus body => exact execGetStatus_ok body s h
  | getLimits body => exact execGetLimits_ok body s h
  | hcapWrite value => exact execHcapWrite_ok value s h
  | fceilWrite value => exact execFceilWrite_ok value s h
  | estimateUpdate activity => exact execEstimateUpdate_ok activity s h
  | peakUpdate => exact execPeakUpdate_ok s h
  | pMeasRead r => exact execPMeasRead_ok r s h
  | divergenceCheck => exact execDivergenceCheck_ok s h
  | headroomSample => exact execHeadroomSample_ok s h
  | dieSample sensors => exact execDieSample_ok sensors s h
  | droopDetect core => exact execDroopDetect_ok core s h
  | thermalTrip group => exact execThermalTrip_ok group s h
  | parityError place => exact execParityError_ok place s h
  | watchdogExpiry => exact execWatchdogExpiry_ok s h
  | quiesceTimeout => exact execQuiesceTimeout_ok s h
  | burnishSliceStart core => exact execBurnishSliceStart_ok core s h
  | burnishSliceEnd core mismatch => exact execBurnishSliceEnd_ok core mismatch s h
  | level1TreeBuilt => exact execLevel1TreeBuilt_ok s h
  | modeTargetWrite target => exact execModeTargetWrite_ok target s h
  | inputStageOn => exact execInputStageOn_ok s h
  | inputOvervoltage => exact execInputOvervoltage_ok s h
  | inputOvervoltageClear => exact execInputOvervoltageClear_ok s h
  | pwrEnLow => exact execPwrEnLow_ok s h
  | prsntNOpen => exact execPrsntNOpen_ok s h
  | bulkUndervoltage withinMs => exact execBulkUndervoltage_ok withinMs s h
  | converterStop => exact execConverterStop_ok s h
  | resetNAssert => exact execResetNAssert_ok s h
  | resetNRelease env => exact execResetNRelease_ok env s h
  | setdasa static dynamic => exact execSetdasa_ok static dynamic s h
  | entdaa dynamic => exact execEntdaa_ok dynamic s h
  | setEndpointId eid => exact execSetEndpointId_ok eid s h
  | powerOn env => exact execPowerOn_ok env s h
  | fullReset cause env => exact execFullReset_ok cause env s h
  | stageOverrun stage => exact execStageOverrun_ok stage s h
  | failedStartRestart env => exact execFailedStartRestart_ok env s h
  | bootRetry env => exact execBootRetry_ok env s h
  | mailboxGo type slot reserved => exact execMailboxGo_ok type slot reserved s h
  | mailboxDone image flashErr => exact execMailboxDone_ok image flashErr s h
  | drainPendingWrite value => exact execDrainPendingWrite_ok value s h
  | compatNextWrite value => exact execCompatNextWrite_ok value s h
  | flashStoreDone => exact execFlashStoreDone_ok s h
  | faultValidClear core recordNow => exact execFaultValidClear_ok core recordNow s h
  | dumpValidClear => exact execDumpValidClear_ok s h
  | watermarkRead port vc => exact execWatermarkRead_ok port vc s h
  | halfReadLatch addr => exact execHalfReadLatch_ok addr s h
  | regBadAccess addr write => exact execRegBadAccess_ok addr write s h
  | registerWrite addr width64 value => exact execRegisterWrite_ok addr width64 value s h
  | congestionClear port vc => exact execCongestionClear_ok port vc s h
  | spareCombLock => exact execSpareCombLock_ok s h
  | droopRecovery core => exact execDroopRecovery_ok core s h
  | modeTransitionDone => exact execModeTransitionDone_ok s h
  | powerRecordWritten env => exact execPowerRecordWritten_ok env s h
  | dumpWritten => exact execDumpWritten_ok s h
  | unknownCommand body => exact execUnknownCommand_ok body s h

/-- No meaning of a command ends in a fault or a refusal. -/
theorem exec_goes_on (i : Instr) (s : State) : ∃ t, exec i s = .next t := by
  cases i <;> exact ⟨_, rfl⟩

theorem Sound.forget {Q : List Instr} {s : State} (h : Sound Q s) : s.sound = true :=
  (sound_iff s).2 ⟨h.hbm, h.cores, h.log, rfl⟩

theorem Sound.taken {s : State} (h : s.sound = true) (rest : List Instr) : Sound rest { s with pending := rest } := by
  obtain ⟨hbm, cores, log, -⟩ := (sound_iff s).1 h
  exact ⟨hbm, cores, log, rfl⟩

/-- Settles O2: a step is the idle step or the command at the front of the queue, and both keep a sound state sound. -/
theorem stepKeepsSound : Obligations.StepKeepsSound := by
  intro s t hs hstep
  unfold step at hstep
  split at hstep
  case h_1 =>
    cases hstep
    exact (idle_ok s ((sound_iff s).1 hs)).forget
  case h_2 c rest _ => exact (exec_ok c _ (Sound.taken hs rest) t hstep).forget

/-- Settles O4: a command that keeps a sound state sound keeps its queue of waiting commands. -/
theorem execKeepsQueue : Obligations.ExecKeepsQueue := by
  intro c s
  obtain ⟨t, ht⟩ := exec_goes_on c s
  exact ⟨t, ht, fun hs => (exec_ok c s ((sound_iff s).1 hs) t ht).queue⟩

end Sys2Proof.Machine
end

section
/-! SUPPORT. What a PUSH, a POP and a WAITF whose flag is met do at once on a free stream (R33, R34, R69, R70). -/

namespace Sys2Proof.Machine

section
variable {s : State} {c : CoreId}

/-- The core of a ready stream with one instruction at its head. -/
theorem core_head (i : AInstr) : (updAccess s c fun a => { a with waiting := [i] }).core c =
    { s.core c with access := { (s.core c).access with waiting := [i] } } := core_updCore_same _ _ _

theorem pushPass_one {f : Flight} {q : Vector (List Entry) 4} (hp : f.pushes = true) (hd : f.pushDue = true) (hr : q[f.queue].length < 16) :
    pushPass [f] q [] = ([], vmod q f.queue (· ++ [f.entry])) := by
  simpa [pushPass, hp, hd] using hr

/-- The flight of a PUSH: its push is due at issue (R69). -/
def pushFlight (a : Access) (f : PushOp) (e : Entry) : Flight :=
  { newFlight a (.push f) { noMove with dq := f.q } e [] false 0 with moved := true, done := true, pushDue := true }

theorem tryIssue_push {f : PushOp} (h : s.accessReady c) (ht : f.token ≠ 0) (hr : (s.core c).aq[f.q].length < 16)
    (hcause : (if f.form1 then pushCause (spadOpen s) f.base.toNat (f.length.toNat + 1)
       else spadCause (spadOpen s) (s.core c).access.desc[f.reg]) = none) :
    tryIssue (updAccess s c fun a => { a with waiting := [.push f] }) c (.push f) = some (s.updCore c fun k =>
        { k with aq := k.aq.set f.q (k.aq[f.q] ++ [if f.form1 then { token := f.token, base := f.base, length := f.length }
                                                   else k.access.desc[f.reg].entry f.token]),
                 access := { k.access.passed with nextSeq := k.access.nextSeq + 1 } }) := by
  have hopen : spadOpen (updAccess s c fun a => { a with waiting := [.push f] }) = spadOpen s := rfl
  simp only [tryIssue, core_head, h.flights, hopen, if_neg ht, hcause]
  simp only [updAccess, updCore_updCore, List.any_nil, List.length_nil, Bool.false_or]
  refine congrArg some (updCore_congr _ _ _ _ ?_)
  have hpush (a : Access) (e : Entry) : pushPass [pushFlight a f e] (s.core c).aq [] = ([], vmod (s.core c).aq f.q (· ++ [e])) :=
    pushPass_one rfl rfl hr
  unfold pushFlight at hpush
  simp [Core.settlePushes, h.flights, hpush, Access.passed, h.waiting, vmod]

theorem tryIssue_pop {q : Fin 4} {token : Token} {e : Entry} {rest : List Entry} (h : s.accessReady c) (hq : (s.core c).eq[q] = e :: rest)
    (he : e.token = token) :
    tryIssue (updAccess s c fun a => { a with waiting := [.pop q token] }) c (.pop q token) =
      some (s.updCore c fun k => { k with eq := k.eq.set q rest, access := k.access.passed }) := by
  simp only [tryIssue, core_head, h.flights, Core.popEq, hq, he, if_true]
  simp only [updAccess, updCore_updCore]
  refine congrArg some (updCore_congr _ _ _ _ ?_)
  simp [Access.passed, h.waiting, h.flights]

theorem tryIssue_waitf_met {equal : Bool} {src : Fin 16} {value : W32} {d : Desc} (hd : (s.core c).access.desc[src] = d)
    (hf : (s.core c).access.flights = []) (hpos : 0 ≤ d.start)
    (hcause : hbmCause s d.start.toNat 4 false (d.start.toNat % 4 == 0) = none) (hmet : s.flagMet d.start.toNat equal value = true) :
    tryIssue s c (.waitf equal src value) = some (updAccess (s.noteFlag d.start.toNat) c Access.passed) := by
  unfold State.flagMet at hmet
  simp only [tryIssue, hf, hd, hcause, hmet, if_neg (not_lt.mpr hpos)]
  rfl
end

/-- Settles O6: each of the three issues at once on a free stream. -/
theorem queueAndFlagComplete : Obligations.QueueAndFlagComplete := by
  intro s c h
  refine ⟨fun f ht hr hcause => ?push, fun q token e rest hq he => ?pop, fun equal src value => ?waitf⟩
  case push =>
    refine congrArg Host.Outcome.next (accessCommand_issue _ _ _ _ h (tryIssue_push h ht hr hcause) (.inl ?_))
    simp [Access.passed, h.waiting]
  case pop =>
    refine congrArg Host.Outcome.next (accessCommand_issue _ _ _ _ h (tryIssue_pop h hq he) (.inl ?_))
    simp [Access.passed, h.waiting]
  case waitf =>
    intro d hpos hcause hclean hmet
    have hflag : s.flagMet d.start.toNat equal value = true := by
      simp [State.flagMet, hclean, hmet]
    have hissue := tryIssue_waitf_met (s := updAccess s c fun a => { a with waiting := [.waitf equal src value] }) (c := c)
      (equal := equal) (value := value) (d := d) (by rw [updAccess_access]) (by rw [updAccess_access]; exact h.flights) hpos
      (by rw [updAccess_hbmCause]; exact hcause) (by rw [updAccess_flagMet]; exact hflag)
    rw [updAccess_noteFlag, noteFlag_of_flagMet hflag, updAccess_updAccess] at hissue
    refine congrArg Host.Outcome.next (accessCommand_issue _ _ _ _ h (hissue.trans (congrArg some (updCore_congr _ _ _ _ ?_))) (.inl ?_))
    · simp [Access.passed, h.waiting]
    · simp [updAccess_access, Access.passed, h.waiting]
end Sys2Proof.Machine
end

section
/-! SUPPORT. What a moving instruction does at its issue on a free stream, and the moves within the module: LDH, STH, MOVS, GATH and SCAT (R54, R62–R65). -/

namespace Sys2Proof.Machine

/-! ## A move at its issue -/

/-- A core with another state of its access stream. -/
def Core.withAccess (k : Core) (a : Access) : Core := { k with access := a }

/-- The access stream of a move at its issue: its wait is taken, and it stands alone at the head. -/
def Access.issuing (a : Access) (k : MoveKind) (m : MoveOp) : Access := { a with waiting := [.move k m], popped := m.we }

/-- The state in which a move issues whose wait left core `K`. -/
def State.issuing (s : State) (c : CoreId) (K : Core) (k : MoveKind) (m : MoveOp) : State :=
  s.updCore c fun _ => K.withAccess (K.access.issuing k m)

@[simp] theorem withAccess_access (K : Core) (a : Access) : (K.withAccess a).access = a := rfl
@[simp] theorem issuing_desc (a : Access) (k : MoveKind) (m : MoveOp) : (a.issuing k m).desc = a.desc := rfl
@[simp] theorem issuing_nextSeq (a : Access) (k : MoveKind) (m : MoveOp) : (a.issuing k m).nextSeq = a.nextSeq := rfl

theorem scatterSpad_withAccess (K : Core) (a : Access) (d : Desc) (bs : List PByte) :
    scatterSpad (K.withAccess a) d bs = (scatterSpad K d bs).withAccess a := scatterSpad_access K a d bs

/-- A change of memory or fabric that does not touch the cores leaves a move at its issue. -/
theorem issuing_commutes {s : State} {c : CoreId} {K : Core} {k : MoveKind} {m : MoveOp} (F : State → State)
    (hF : ∀ s C, F (State.withCores s C) = (F s).withCores C) : F (s.issuing c K k m) = (F s).issuing c K k m :=
  updCore_of_withCores F hF s c _

section
variable {s : State} {c : CoreId} {k : MoveKind} {m : MoveOp} {K : Core}

theorem State.moveReady.access (h : s.moveReady c k m K) : K.access = (s.core c).access := afterWait_access h.wait

theorem State.moveReady.idle (h : s.moveReady c k m K) : K.access.waiting = [] := by rw [h.access, h.ready.waiting]

theorem State.moveReady.inRange (h : s.moveReady c k m K) :
    spadChecks (spadOpen s) (moveSpad k m (K.src m) (K.dst m) (K.aux m)) = none := by
  have hspad := h.spad
  unfold Core.src Core.dst Core.aux at hspad ⊢
  rwa [h.access]

/-- A move goes into flight on the state that its effect leaves, whatever that did to the rest of its core (R54, R62). -/
theorem fly_issued {U : State} {K' : Core} (hw : K.access.waiting = []) (armed : Bool) (parts : Nat) :
    fly (U.updCore c fun _ => K'.withAccess (K.access.issuing k m)) c (.move k m) m
        (doneEntry m k (K.src m) (K.dst m)) (moveRanges k m (K.src m) (K.dst m) (K.aux m)) armed parts =
      U.updCore c fun _ => K'.withAccess (K.access.issued k m armed parts) := by
  simp only [fly, updAccess, updCore_updCore]
  refine updCore_congr _ _ _ _ ?_
  simp only [Access.issuing, Core.withAccess, Access.issued, Access.passed, List.tail, hw]
  rfl

theorem fly_counted {U : State} {K' : Core} (hw : K.access.waiting = []) (n : Nat) (armed : Bool) (parts : Nat) :
    fly (countBytes (U.updCore c fun _ => K'.withAccess (K.access.issuing k m)) c n) c (.move k m) m
        (doneEntry m k (K.src m) (K.dst m)) (moveRanges k m (K.src m) (K.dst m) (K.aux m)) armed parts =
      U.updCore c fun _ => (K'.moved n).withAccess (K.access.issued k m armed parts) := by
  rw [countBytes, updCore_updCore]
  exact fly_issued (K' := K'.moved n) hw armed parts

/-- A move that goes into flight at its issue is that issue. -/
theorem accessCommand_issued {U : State} {K' : Core} {armed : Bool} {parts : Nat} (h : s.moveReady c k m K)
    (e : issueMove (s.issuing c K k m) c k m = U.updCore c fun _ => K'.withAccess (K.access.issued k m armed parts)) :
    accessCommand s c (.move k m) = U.updCore c fun _ => K'.withAccess (K.access.issued k m armed parts) := by
  refine accessCommand_move s _ c k m K h e (.inl ?_)
  rw [core_updCore_same]
  change K.access.waiting.tail = []
  rw [h.idle, List.tail_nil]

/-- What an issue reads of its state. -/
theorem issuing_reads : (s.issuing c K k m).core c = K.withAccess (K.access.issuing k m) ∧ spadOpen (s.issuing c K k m) = spadOpen s ∧
    hbmCheck (s.issuing c K k m) = hbmCheck s :=
  ⟨core_updCore_same _ _ _, rfl, rfl⟩

theorem issuing_updCore (f : Core → Core) : (s.issuing c K k m).updCore c f = s.updCore c fun _ => f (K.withAccess (K.access.issuing k m)) :=
  updCore_updCore _ _ _ _

/-- A write of the scratchpad at the issue of a move. -/
theorem issuing_scatterSpad (d : Desc) (bs : List PByte) : ((s.issuing c K k m).updCore c fun q => scatterSpad q d bs) =
    s.updCore c fun _ => (scatterSpad K d bs).withAccess (K.access.issuing k m) := by
  rw [issuing_updCore, scatterSpad_withAccess]

/-- An LDH whose source passes its check fills its destination (R63). -/
theorem ldh_completes (h : s.moveReady c .ldh m K) (hsrc : hbmCheck s (K.src m) false true = none) :
    accessCommand s c (.move .ldh m) = s.updCore c fun _ =>
      ((scatterSpad K (K.dst m) (gatherHbm s (K.src m))).moved (K.src m).bytes).withAccess (K.access.issued .ldh m false 0) := by
  obtain ⟨hcore, hopen, hcheck⟩ := issuing_reads (s := s) (c := c) (K := K) (k := .ldh) (m := m)
  have hspad := h.inRange
  refine accessCommand_issued h (Eq.trans ?_ (fly_counted h.idle _ _ _))
  simp only [Core.src, Core.dst, Core.aux] at hspad hsrc
  simp only [issueMove, hcore, hopen, hcheck, withAccess_access, issuing_desc, hspad, hsrc, issuing_scatterSpad]
  rfl

/-- An STH whose destination passes its check stores its source (R63). -/
theorem sth_completes (h : s.moveReady c .sth m K) (hdst : hbmCheck s (K.dst m) true true = none) :
    accessCommand s c (.move .sth m) = (scatterHbm s (K.dst m) (gatherSpad K (K.src m))).updCore c fun _ =>
      (K.moved (K.dst m).bytes).withAccess (K.access.issued .sth m false 0) := by
  obtain ⟨hcore, hopen, hcheck⟩ := issuing_reads (s := s) (c := c) (K := K) (k := .sth) (m := m)
  have hspad := h.inRange
  refine accessCommand_issued h (Eq.trans ?_ (fly_counted h.idle _ _ _))
  simp only [Core.src, Core.dst, Core.aux] at hspad hdst
  simp only [issueMove, hcore, hopen, hcheck, withAccess_access, issuing_desc, hspad, hdst,
    issuing_commutes (scatterHbm · _ _) fun s C => scatterHbm_withCores s C _ _]
  rfl

/-- A MOVS whose extents do not meet copies its source (R64). -/
theorem movs_completes (h : s.moveReady c .movs m K)
    (hapart : (K.dst m).start.toNat + (K.dst m).extent - 1 < (K.src m).start.toNat ∨
      (K.src m).start.toNat + (K.src m).extent - 1 < (K.dst m).start.toNat) :
    accessCommand s c (.move .movs m) = s.updCore c fun _ =>
      ((scatterSpad K (K.dst m) (gatherSpad K (K.src m))).moved (K.src m).bytes).withAccess (K.access.issued .movs m false 0) := by
  obtain ⟨hcore, hopen, -⟩ := issuing_reads (s := s) (c := c) (K := K) (k := .movs) (m := m)
  have hspad := h.inRange
  refine accessCommand_issued h (Eq.trans ?_ (fly_counted h.idle _ _ _))
  simp only [Core.src, Core.dst, Core.aux] at hspad hapart
  simp only [issueMove, hcore, hopen, withAccess_access, issuing_desc, hspad, issuing_scatterSpad]
  rw [if_neg (by rw [Bool.and_eq_true, decide_eq_true_eq, decide_eq_true_eq]; omega)]
  rfl

/-- A GATH whose table and indices pass their checks gathers its rows (R65). -/
theorem gath_completes (h : s.moveReady c .gath m K) (hsrc : hbmCheck s (K.src m) false true = none)
    (hix : badIndex (K.src m) (indexList K (K.aux m)) = none) :
    let bs := gatherRows s (K.src m) (indexList K (K.aux m))
    accessCommand s c (.move .gath m) = s.updCore c fun _ =>
      ((scatterSpad K (K.dst m) bs).moved bs.length).withAccess (K.access.issued .gath m false 0) := by
  intro bs
  obtain ⟨hcore, hopen, hcheck⟩ := issuing_reads (s := s) (c := c) (K := K) (k := .gath) (m := m)
  have hspad := h.inRange
  have hlist (d : Desc) : indexList (K.withAccess (K.access.issuing .gath m)) d = indexList K d := rfl
  refine accessCommand_issued h (Eq.trans ?_ (fly_counted h.idle _ _ _))
  simp only [Core.src, Core.dst, Core.aux] at hspad hsrc hix
  simp only [issueMove, hcore, hopen, hcheck, withAccess_access, issuing_desc, hspad, hsrc, hlist, hix, issuing_scatterSpad]
  rfl

/-- A SCAT whose table and indices pass their checks stores its rows (R65). -/
theorem scat_completes (h : s.moveReady c .scat m K) (hdst : hbmCheck s (K.dst m) true true = none)
    (hix : badIndex (K.dst m) (indexList K (K.aux m)) = none) :
    let bs := gatherSpad K (K.src m)
    accessCommand s c (.move .scat m) = (storeRows s (K.dst m) (indexList K (K.aux m)) bs).updCore c fun _ =>
      (K.moved bs.length).withAccess (K.access.issued .scat m false 0) := by
  intro bs
  obtain ⟨hcore, hopen, hcheck⟩ := issuing_reads (s := s) (c := c) (K := K) (k := .scat) (m := m)
  have hspad := h.inRange
  have hlist (d : Desc) : indexList (K.withAccess (K.access.issuing .scat m)) d = indexList K d := rfl
  refine accessCommand_issued h (Eq.trans ?_ (fly_counted h.idle _ _ _))
  simp only [Core.src, Core.dst, Core.aux] at hspad hdst hix
  simp only [issueMove, hcore, hopen, hcheck, withAccess_access, issuing_desc, hspad, hdst, hlist, hix,
    issuing_commutes (storeRows · _ _ _) fun s C => storeRows_withCores s C _ _ _]
  rfl

end

/-- Settles O7: each move is its issue, whose effect is on the scratchpad of its core or on HBM alone. -/
theorem localMovesComplete : Obligations.LocalMovesComplete := by
  intro s c m K
  refine ⟨fun h hsrc => ?_, fun h hdst => ?_, fun h hapart => ?_, fun h hsrc hix => ?_, fun h hdst hix => ?_⟩
  · exact congrArg _ (ldh_completes h hsrc)
  · exact congrArg _ (sth_completes h hdst)
  · exact congrArg _ (movs_completes h hapart)
  · exact congrArg _ (gath_completes h hsrc hix)
  · exact congrArg _ (scat_completes h hdst hix)

end Sys2Proof.Machine
end

section
/-! SUPPORT. The moves that leave the core's module or memory's bytes alone: RGET, RPUT, ATOM and LAND (R63, R66, R67, R75). -/

namespace Sys2Proof.Machine

/-- A remote operand within its 40 bits (R58). -/
theorem remoteCause_none {d : Desc} (h0 : 0 ≤ d.start) (h1 : d.start.toNat + d.extent ≤ 2 ^ 40) : remoteCause d = none := by
  rw [remoteCause, if_neg]
  rw [Bool.or_eq_true, decide_eq_true_eq, decide_eq_true_eq]
  omega

theorem ite_self_none {α : Type} {p : Prop} {inst : Decidable p} {x : Option α} (h : p → x = none) : (if p then x else none) = none :=
  ite_eq_right_iff.2 h

/-- The packets of an RPUT carry what its core's scratchpad holds, and leave the cores. -/
theorem foldl_queuePut_issuing {c : CoreId} {seq : Nat} {chip : Chip} {b : Bool} (l : List (Nat × Nat × Nat)) {s : State} {K : Core}
    {k : MoveKind} {m : MoveOp} (h : spadReadP K = spadReadP (s.core c)) :
    l.foldl (queuePut c seq chip b) (s.issuing c K k m) = (l.foldl (queuePut c seq chip b) s).issuing c K k m := by
  induction l generalizing s with
  | nil => rfl
  | cons x l ih =>
    have hread : spadReadP ((s.issuing c K k m).core c) = spadReadP (s.core c) := by
      rw [State.issuing, core_updCore_same]
      exact h
    have hx : queuePut c seq chip b (s.issuing c K k m) x = (queuePut c seq chip b s x).issuing c K k m := by
      unfold queuePut
      rw [hread]
      rfl
    rw [List.foldl_cons, List.foldl_cons, hx]
    exact ih h

section
variable {s : State} {c : CoreId} {m : MoveOp} {K : Core}

/-- An RGET whose operands pass their checks queues its requests (R63, R75). -/
theorem rget_completes (h : s.moveReady c .rget m K) (hsrc : remoteCause (K.src m) = none)
    (hdst : (K.dst m).space = 1 → hbmCheck s (K.dst m) true true = none) :
    let ps := pieces (K.src m).runs (K.dst m).runs
    accessCommand s c (.move .rget m) =
      (ps.foldl (queueGet c K.access.nextSeq (K.src m).chip ((K.dst m).space == 0)) s).updCore c fun _ =>
        (K.moved (ps.map (·.2.2)).sum).withAccess (K.access.issued .rget m true ps.length) := by
  intro ps
  obtain ⟨hcore, hopen, hcheck⟩ := issuing_reads (s := s) (c := c) (K := K) (k := .rget) (m := m)
  have hspad := h.inRange
  refine accessCommand_issued h (Eq.trans ?_ (fly_counted h.idle _ _ _))
  simp only [Core.src, Core.dst, Core.aux] at hspad hsrc hdst
  simp only [issueMove, hcore, hopen, hcheck, withAccess_access, issuing_desc, issuing_nextSeq, hspad, hsrc,
    issuing_commutes (List.foldl _ · _) fun s C => foldl_withCores s C _ (fun s x => queueGet_withCores s C c _ _ _ x) _]
  rw [ite_self_none hdst]
  rfl

/-- An RPUT whose operands pass their checks queues its data (R63, R75). -/
theorem rput_completes (h : s.moveReady c .rput m K) (hdst : remoteCause (K.dst m) = none)
    (hsrc : (K.src m).space = 1 → hbmCheck s (K.src m) false true = none) :
    let ps := pieces (K.dst m).runs (K.src m).runs
    accessCommand s c (.move .rput m) =
      (ps.foldl (queuePut c K.access.nextSeq (K.dst m).chip ((K.src m).space == 0)) s).updCore c fun _ =>
        (K.moved (ps.map (·.2.2)).sum).withAccess (K.access.issued .rput m true ps.length) := by
  intro ps
  obtain ⟨hcore, hopen, hcheck⟩ := issuing_reads (s := s) (c := c) (K := K) (k := .rput) (m := m)
  have hspad := h.inRange
  have hread : spadReadP K = spadReadP (s.core c) := by
    rw [afterWait_facts h.wait]
    rfl
  refine accessCommand_issued h (Eq.trans ?_ (fly_counted h.idle _ _ _))
  simp only [Core.src, Core.dst, Core.aux] at hspad hsrc hdst
  simp only [issueMove, hcore, hopen, hcheck, withAccess_access, issuing_desc, issuing_nextSeq, hspad, hdst, foldl_queuePut_issuing _ hread]
  rw [ite_self_none hsrc]
  rfl

/-- A local ATOM whose operands pass their checks updates memory (R66). -/
theorem atom_completes_here {op : BitVec 4} (h : s.moveReady c (.atom op) m K) (hspace : (K.dst m).space = 1)
    (hdst : hbmCheck s (K.dst m) true (atomAligned K m (K.dst m) (K.aux m)) = none)
    (hix : badIndex (K.dst m) (if m.ix then indexList K (K.aux m) else []) = none) :
    let es := atomElems K m (K.src m) (K.dst m) (K.aux m)
    accessCommand s c (.move (.atom op) m) = (atomicMany s (K.src m).format op es).updCore c fun _ =>
      (K.moved (es.map (·.2.length)).sum).withAccess (K.access.issued (.atom op) m false 0) := by
  intro es
  obtain ⟨hcore, hopen, hcheck⟩ := issuing_reads (s := s) (c := c) (K := K) (k := .atom op) (m := m)
  have hspad := h.inRange
  have hlist (d : Desc) : indexList (K.withAccess (K.access.issuing (.atom op) m)) d = indexList K d := rfl
  have haligned (d x : Desc) : atomAligned (K.withAccess (K.access.issuing (.atom op) m)) m d x = atomAligned K m d x := rfl
  refine accessCommand_issued h (Eq.trans ?_ (fly_counted h.idle _ _ _))
  simp only [Core.src, Core.dst, Core.aux] at hspad hspace hdst hix
  simp only [issueMove, hcore, hopen, hcheck, withAccess_access, issuing_desc, hlist, haligned, hspad, hspace, hdst, hix, if_true,
    issuing_commutes (atomicMany · _ _ _) fun s C => atomicMany_withCores s C _ _ _]
  rfl

/-- A remote ATOM whose operands pass their checks queues its packets (R66, R75). -/
theorem atom_completes_away {op : BitVec 4} (h : s.moveReady c (.atom op) m K) (hspace : (K.dst m).space ≠ 1)
    (hdst : remoteCause (K.dst m) = none) (hix : badIndex (K.dst m) (if m.ix then indexList K (K.aux m) else []) = none) :
    let ps := atomSends m K (K.src m) (K.dst m) (K.aux m)
    accessCommand s c (.move (.atom op) m) =
      (ps.foldl (queueAtom c K.access.nextSeq (K.dst m).chip (K.src m).format op (gatherSpad K (K.src m))) s).updCore c fun _ =>
        (K.moved (ps.map (·.2.2)).sum).withAccess (K.access.issued (.atom op) m true ps.length) := by
  intro ps
  obtain ⟨hcore, hopen, -⟩ := issuing_reads (s := s) (c := c) (K := K) (k := .atom op) (m := m)
  have hspad := h.inRange
  have hlist (d : Desc) : indexList (K.withAccess (K.access.issuing (.atom op) m)) d = indexList K d := rfl
  refine accessCommand_issued h (Eq.trans ?_ (fly_counted h.idle _ _ _))
  simp only [Core.src, Core.dst, Core.aux] at hspad hspace hdst hix
  simp only [issueMove, hcore, hopen, withAccess_access, issuing_desc, issuing_nextSeq, hlist, hspad, hspace, hdst, hix, if_false,
    issuing_commutes (List.foldl _ · _) fun s C => foldl_withCores s C _ (fun s x => queueAtom_withCores s C c _ _ _ _ _ x) _]
  rfl

/-- A LAND within its parameter hands its landing over (R67). -/
theorem land_completes {l : LandOp} {g : Group} (h : s.moveReady c (.land l) m K) (hg : s.upd.groups.find? (·.idx == l.group) = some g)
    (hfits : l.offset.toNat + (K.src m).count ≤ g.elements) :
    accessCommand s c (.move (.land l) m) =
      ({ s with upd := { s.upd with landings := s.upd.landings ++ [landingOf K c K.access.nextSeq l (K.src m)] } } : State).updCore c fun _ =>
        (K.moved (4 * (K.src m).count)).withAccess (K.access.issued (.land l) m true 1) := by
  obtain ⟨hcore, hopen, -⟩ := issuing_reads (s := s) (c := c) (K := K) (k := .land l) (m := m)
  have hspad := h.inRange
  have hupd : (s.issuing c K (.land l) m).upd = s.upd := rfl
  have hland (d : Desc) : landingOf (K.withAccess (K.access.issuing (.land l) m)) c K.access.nextSeq l d =
    landingOf K c K.access.nextSeq l d := rfl
  refine accessCommand_issued h (Eq.trans ?_ (fly_counted h.idle _ _ _))
  simp only [Core.src, Core.dst, Core.aux] at hspad hfits
  simp only [issueMove, hcore, hopen, hupd, withAccess_access, issuing_desc, issuing_nextSeq, hspad, hg, if_neg (not_lt.2 hfits), hland]
  rfl

end

/-- Settles O8: the packets of a remote operation and a landing leave the cores, and a local ATOM is one change of memory. -/
theorem remoteMovesComplete : Obligations.RemoteMovesComplete := by
  intro s c m K
  refine ⟨fun h h0 h1 hdst => ?_, fun h h0 h1 hsrc => ?_, fun op h hspace hdst hix => ?_, fun op h hspace h0 h1 hix => ?_,
    fun l g h hg hfits => ?_⟩
  · exact congrArg _ (rget_completes h (remoteCause_none h0 h1) hdst)
  · exact congrArg _ (rput_completes h (remoteCause_none h0 h1) hsrc)
  · exact congrArg _ (atom_completes_here h hspace hdst hix)
  · exact congrArg _ (atom_completes_away h hspace (remoteCause_none h0 h1) hix)
  · exact congrArg _ (land_completes h hg hfits)

end Sys2Proof.Machine
end

section
/-! SUPPORT. The COLL operations enter their operation, and COLL CINCH its cinch (R68, R232, R247). -/

namespace Sys2Proof.Machine

/-- Entering an operation reads no core. -/
theorem collStart_withCores (s : State) (C : Vector Core 64) (c : CoreId) (seq : Nat) (cm : Comm) (op : BitVec 4) (l : CollOp) (src dst : Desc) :
    collStart (s.withCores C) c seq cm op l src dst = (collStart s c seq cm op l src dst).withCores C := rfl

section
variable {s : State} {c : CoreId} {m : MoveOp} {K : Core}

/-- A COLL whose operands pass their checks enters its operation (R68, R232). -/
theorem coll_completes {op : BitVec 4} {l : CollOp} {cm : Comm} (h : s.moveReady c (.coll op l) m K) (hop : op ≠ 6)
    (hcomm : commOf s l.comm = some cm) (hcause : collCause s cm op l (K.src m) (K.dst m) = none) :
    accessCommand s c (.move (.coll op l) m) = (collStart s c K.access.nextSeq cm op l (K.src m) (K.dst m)).updCore c fun _ =>
      K.withAccess (K.access.issued (.coll op l) m true 1) := by
  obtain ⟨hcore, hopen, -⟩ := issuing_reads (s := s) (c := c) (K := K) (k := .coll op l) (m := m)
  have hspad := h.inRange
  have hcomm' : commOf (s.issuing c K (.coll op l) m) l.comm = some cm := hcomm
  have hcause' : collCause (s.issuing c K (.coll op l) m) cm op l (K.src m) (K.dst m) = none := hcause
  refine accessCommand_issued h (Eq.trans ?_ (fly_issued h.idle _ _))
  simp only [Core.src, Core.dst, Core.aux] at hspad hcause'
  simp only [issueMove, hcore, hopen, withAccess_access, issuing_desc, issuing_nextSeq, hspad, hcomm', hcause', if_neg hop,
    issuing_commutes (collStart · _ _ _ _ _ _ _) fun s C => collStart_withCores s C _ _ _ _ _ _ _]
  rfl

/-- A COLL CINCH whose operands pass their checks goes into flight and enters its cinch (R68, R247). -/
theorem collCinch_completes {l : CollOp} {cm : Comm} (h : s.moveReady c (.coll 6 l) m K)
    (hcomm : commOf s l.comm = some cm) (hcause : collCause s cm 6 l (K.src m) (K.dst m) = none) :
    accessCommand s c (.move (.coll 6 l) m) =
      collCinch (s.updCore c fun _ => K.withAccess (K.access.issued (.coll 6 l) m true 1)) c K.access.nextSeq cm l (K.src m) (K.dst m) := by
  obtain ⟨hcore, hopen, -⟩ := issuing_reads (s := s) (c := c) (K := K) (k := .coll 6 l) (m := m)
  have hspad := h.inRange
  have hcomm' : commOf (s.issuing c K (.coll 6 l) m) l.comm = some cm := hcomm
  have hcause' : collCause (s.issuing c K (.coll 6 l) m) cm 6 l (K.src m) (K.dst m) = none := hcause
  have hfly := fly_issued (U := s) (c := c) (K' := K) (k := .coll 6 l) (m := m) h.idle true 1
  refine accessCommand_move s _ c _ m K h ?_ (.inl ?_)
  · simp only [Core.src, Core.dst, Core.aux] at hspad hcause' hfly
    change issueMove (s.issuing c K (.coll 6 l) m) c _ m = _
    simp only [issueMove, hcore, hopen, withAccess_access, issuing_desc, issuing_nextSeq, hspad, hcomm', hcause', if_true]
    exact congrArg (collCinch · c _ cm l _ _) hfly
  · rw [collCinch_waiting, core_updCore_same]
    change K.access.waiting.tail = []
    rw [h.idle, List.tail_nil]
end

/-- The six operations differ in their code alone (R68). -/
theorem exec_collInstr {s : State} {c : CoreId} {m : MoveOp} {l : CollOp} : ∀ x ∈ collInstr c m l,
    x.1 ≠ 6 ∧ exec x.2 s = .next (accessCommand s c (.move (.coll x.1 l) m)) := by
  intro x hx
  simp only [collInstr, List.mem_cons, List.not_mem_nil, or_false] at hx
  rcases hx with rfl | rfl | rfl | rfl | rfl | rfl <;> exact ⟨by simp, rfl⟩

/-- Settles O9: the six operations are entered alike, and COLL CINCH is in flight when its cinch is entered. -/
theorem collectivesEnter : Obligations.CollectivesEnter := by
  intro s c m K l cm hcomm
  refine ⟨fun x hx h hcause => ?_, fun h hcause => ?_⟩
  · obtain ⟨hop, hexec⟩ := exec_collInstr x hx
    exact hexec.trans (congrArg _ (coll_completes h hop hcomm hcause))
  · exact congrArg _ (collCinch_completes h hcomm hcause)

end Sys2Proof.Machine
end

section
/-! SUPPORT. What completes an instruction in flight, and what goes on that waited at a queue (R34, R53, R62, R77). -/

namespace Sys2Proof.Machine

/-- A core whose only flight has made its push. -/
def Core.pushed (k : Core) (f : Flight) : Core :=
  { k with aq := k.aq.set f.queue (k.aq[f.queue] ++ [f.entry]), access := { k.access with flights := [] } }

section
variable {s : State} {c : CoreId} {f : Flight}

/-- Its push due and its queue with room, the only flight is pushed and over. -/
theorem settlePushes_pushed {k : Core} {g : Flight} (hk : k.access.flights = [g]) (hp : g.pushes = true) (hdue : g.pushDue = true)
    (hroom : k.aq[g.queue].length < 16) :
    k.settlePushes = k.pushed g := by
  unfold Core.settlePushes
  rw [hk, pushPass_one hp hdue hroom]
  rfl

/-- A push that finds its queue full waits. -/
theorem settlePushes_full {k : Core} {g : Flight} (hk : k.access.flights = [g]) (hfull : 16 ≤ k.aq[g.queue].length) :
    k.settlePushes = k := by
  have hroom : ¬ k.aq[g.queue].length < 16 := not_lt.2 hfull
  have hpass : pushPass [g] k.aq [] = ([g], k.aq) := by
    simp only [pushPass, hroom, decide_false, Bool.and_false, Bool.false_eq_true, if_false]
    split <;> rfl
  unfold Core.settlePushes
  rw [hk, hpass, ← hk]

/-- The only flight leaves where it pushes nothing. -/
theorem completeFlight_leaves (hf : (s.core c).access.flights = [f]) (hw : (s.core c).access.waiting = [])
    (hgoing : (s.core c).access.stopped = false) (hdone : f.done = false) (hopen : f.open_ = 0) (hp : f.pushes = false) :
    completeFlight s c f.seq = updAccess s c fun a => { a with flights := [] } := by
  simp only [completeFlight, hf, List.find?_cons, beq_self_eq_true, hdone, hopen, hgoing, hp]
  simp
  rw [advanceAll_of_nothing_waiting (by rw [updAccess_access]; exact hw)]
  exact updCore_congr _ _ _ _ (by simp [hf])

/-- The only flight falls due where it pushes. -/
theorem completeFlight_due (hf : (s.core c).access.flights = [f]) (hw : (s.core c).access.waiting = [])
    (hgoing : (s.core c).access.stopped = false) (hdone : f.done = false) (hopen : f.open_ = 0) (hp : f.pushes = true) :
    completeFlight s c f.seq = s.updCore c fun k =>
      ({ k with access := { k.access with flights := [{ f with moved := true, done := true, pushDue := true }] } } : Core).settlePushes := by
  simp only [completeFlight, hf, List.find?_cons, beq_self_eq_true, hdone, hopen, hgoing, hp]
  simp only [updAccess, updCore_updCore]
  simp
  rw [advanceAll_of_nothing_waiting (by rw [core_updCore_same]; exact hw)]
  exact updCore_congr _ _ _ _ (by simp [hf, hopen])

/-- After a stop the only flight leaves with its push dropped. -/
theorem completeFlight_stopped (hf : (s.core c).access.flights = [f]) (hstop : (s.core c).access.stopped = true)
    (hdue : (s.core c).faultDue = none) (hdone : f.done = false) (hopen : f.open_ = 0) :
    completeFlight s c f.seq = updAccess s c fun a => { a with flights := [] } := by
  simp only [completeFlight, hf, List.find?_cons, beq_self_eq_true, hdone, hopen, hstop]
  have hsettled (t : State) (h : (t.core c).faultDue = none) : settleFault t c = t := by simp [settleFault, h]
  simp
  rw [hsettled _ (by rw [updAccess, core_updCore_same]; exact hdue)]
  exact updCore_congr _ _ _ _ (by simp [hf])

end

/-! ## What waits at a queue (R34) -/

/-- With no half and no TACC waiting to push, the part pushes nothing. -/
theorem retryPart_idle {k : Core} (h0 : k.halves[(0 : Fin 2)].pushDue = false) (h1 : k.halves[(1 : Fin 2)].pushDue = false)
    (ht : ∀ w ∈ k.taccs, w.pushDue = false) : k.retryPart = k := by
  have hnone : k.taccs.filter (·.pushDue) = [] := List.filter_eq_nil_iff.2 fun w hw => by simp [ht w hw]
  simp only [Core.retryPart, h0, h1, Bool.false_eq_true, if_false, hnone, List.foldl_nil]

section
variable {s : State} {c : CoreId}

/-- A POPE reads no range, no unit, no link and no slot, so nothing of R84 holds it back. -/
theorem pope_unchecked (k : Core) (q : Fin 4) (token : Token) (t : Nat) :
    drnHeld k (.pope q token) = false ∧ xSpadCause s k (.pope q token) (xPlan k (.pope q token) t) = none ∧
      timingSlip k (.pope q token) (xPlan k (.pope q token) t) t = none := by
  refine ⟨rfl, rfl, ?_⟩
  have hranges : (k.exec.windows.flatMap fun w => w.accesses.flatMap fun _ => ([] : List (Nat × Nat × Nat))) = [] := by
    simp [List.flatMap_eq_nil_iff]
  simp [timingSlip, xPlan, Plan.none, windowSlip, XInstr.port, maxOf, earliest, hranges]

/-- An instruction that passes the checks of its cycle runs on its core as it is then (R80, R84). -/
theorem tryX_checked {delta : W16} {i : XInstr} {t : Nat} (ht : t = s.issueCycle c delta) (hlate : lateSlip (s.core c) t = none)
    (hheld : drnHeld ((s.core c).settled t) i = false)
    (hspad : xSpadCause (s.updCore c fun k => k.settled t) ((s.core c).settled t) i (xPlan ((s.core c).settled t) i t) = none)
    (htimed : timingSlip ((s.core c).settled t) i (xPlan ((s.core c).settled t) i t) t = none) :
    tryX s c delta i = runX (s.updCore c fun k => k.settled t) c i t := by
  have hcycle : (s.core c).exec.base + delta.toNat = t := ht.symm
  have hsettled : (s.updCore c fun k => { k.flushBeats t with exec := (k.flushBeats t).exec.prune t }) = s.updCore c fun k => k.settled t := rfl
  unfold tryX
  dsimp only
  rw [hcycle, hlate]
  dsimp only
  rw [hsettled, core_updCore_same, hheld, hspad]
  simp only [htimed, Bool.false_eq_true, if_false]

theorem tryX_pope {delta : W16} {q : Fin 4} {token : Token} {e : Entry} {rest : List Entry}
    (hlate : lateSlip (s.core c) (s.issueCycle c delta) = none) (hq : (s.core c).aq[q] = e :: rest) (he : e.token = token) :
    tryX s c delta (.pope q token) = some (s.passes c (fun k => { k.settled (s.issueCycle c delta) with aq := k.aq.set q rest })
      (s.issueCycle c delta) (s.issueCycle c delta)) := by
  obtain ⟨hheld, hspad, htimed⟩ := pope_unchecked (s := s.updCore c fun k => k.settled (s.issueCycle c delta))
    ((s.core c).settled (s.issueCycle c delta)) q token (s.issueCycle c delta)
  have hq' : ((s.core c).settled (s.issueCycle c delta)).aq[q] = e :: rest := hq
  rw [tryX_checked rfl hlate hheld hspad htimed]
  simp only [runX, core_updCore_same, hq', he, if_true, updCore_updCore, passX, passes_updCore]
  rfl

/-- A POPE whose token is at the head takes it, once the stream goes on (R34). -/
theorem advanceXAll_pope {delta : W16} {q : Fin 4} {token : Token} {e : Entry} {rest : List Entry}
    (hw : (s.core c).exec.waiting = [(delta, .pope q token)]) (hgoing : (s.core c).exec.stopped = false)
    (hlate : lateSlip (s.core c) (s.issueCycle c delta) = none) (hq : (s.core c).aq[q] = e :: rest) (he : e.token = token) :
    advanceXAll s c = s.passes c (fun k => { k.settled (s.issueCycle c delta) with aq := k.aq.set q rest })
      (s.issueCycle c delta) (s.issueCycle c delta) := by
  have hrest : ∀ t : State, (t.core c).exec.waiting = [] → advanceX 1 t c = t := by
    intro t ht
    simp [advanceX, ht]
  simp only [advanceXAll, hw, List.length_singleton, advanceX, hgoing, tryX_pope hlate hq he, Bool.false_eq_true, if_false]
  rw [passes_core]
  simp [Core.passedX, Execute.passed, Core.settled, Core.flushBeats, Execute.prune, hw]

end

/-- Settles O10: the only flight completes or falls due, and what waits at a queue is tried again when the queue has changed. -/
theorem flightsComplete : Obligations.FlightsComplete := by
  refine ⟨fun s c f hf hw hgoing hdone hopen => ⟨fun hp => ?leaves, fun hp hroom => ?pushed, fun hp hfull => ?waits⟩,
    fun s c f hf hstop hdue hdone hopen => ?stopped, fun s c hrun => ⟨fun f hf hw hgoing hp hdue hroom h0 h1 ht => ?resumed, ?pope⟩⟩
  case leaves => exact congrArg _ (completeFlight_leaves hf hw hgoing hdone hopen hp)
  case pushed =>
    refine congrArg _ ((completeFlight_due hf hw hgoing hdone hopen hp).trans (updCore_congr _ _ _ _ ?_))
    exact settlePushes_pushed (g := { f with moved := true, done := true, pushDue := true }) rfl hp rfl hroom
  case waits =>
    refine congrArg _ ((completeFlight_due hf hw hgoing hdone hopen hp).trans (updCore_congr _ _ _ _ ?_))
    exact settlePushes_full rfl hfull
  case stopped => exact congrArg _ (completeFlight_stopped hf hstop hdue hdone hopen)
  case resumed =>
    have hsettled := settlePushes_pushed hf hp hdue hroom
    have hidle : (s.core c).settlePushes.retryPart = (s.core c).settlePushes := by
      rw [hsettled]
      exact retryPart_idle h0 h1 ht
    change Host.Outcome.next (if _ then advanceAll (s.updCore c fun k => k.settlePushes.retryPart) c else s) = _
    rw [if_pos hrun, updCore_congr s c _ (Core.pushed · f) (hidle.trans hsettled), advanceAll_of_nothing_waiting]
    · rfl
    · rw [core_updCore_same]
      exact hw
  case pope =>
    intro delta q token e rest hw hgoing hlate hq he
    change Host.Outcome.next (if _ then advanceXAll s c else s) = _
    rw [if_pos hrun, advanceXAll_pope hw hgoing hlate hq he]

end Sys2Proof.Machine
end

section
/-! SUPPORT. What the expiry of a budget leaves, in flight and at issue (R71, R75, R77). -/

namespace Sys2Proof.Machine

section
variable {s : State} {c : CoreId}

/-- A fault of the only instruction in flight moves no byte of HBM. -/
theorem flightFault_only_mem {f : Flight} (hu : s.unfaulted c) (hf : (s.core c).access.flights = [f]) (code : W16) (cause : Nat)
    (g : Record → Record) : (flightFault s c f code cause g).mem = s.mem := by
  let v := updAccess s c fun a => { a with flights := a.flights.filter (·.seq ≠ f.seq) }
  have hcore : v.core c = { s.core c with access := { (s.core c).access with flights := [] } } := by simp [v, updAccess, hf]
  have hv : v.unfaulted c := ⟨by rw [hcore]; exact hu.core, hu.aborting, hu.quiescing⟩
  exact (accessFaultAt_faultOf v c f.seq _ hv (by simp [hcore])).2.1

/-- The expiry of a remote instruction that waits at issue for a tag is its fault (R75). -/
theorem exec_budgetExpiry_waiting {k : MoveKind} {m : MoveOp} {rest : List AInstr} (hnow : outcomeNow s c (s.core c).access.nextSeq = false)
    (hgoing : (s.core c).access.stopped = false) (hw : (s.core c).access.waiting = .move k m :: rest) (hf : (s.core c).access.flights = [])
    (htag : needsTag k (s.core c).access.desc[m.dst] = true) (htags : 384 ≤ coreTags s c) (elapsed : W32) :
    exec (.budgetExpiry c (s.core c).access.nextSeq elapsed) s = .next (accessFault s c (.move k m) codeStreamStall 1 fun r =>
      { r with cycle := elapsed, doneTok := if m.de then m.dtok else 0, chip := remoteChip (s.core c).access (.move k m) }) := by
  change execBudgetExpiry c (s.core c).access.nextSeq elapsed s = _
  rw [Fin.getElem_fin] at htag
  simp [execBudgetExpiry, hnow, hf, hw, hgoing, htag, htags]

end

/-- Settles O12: the expiry is the fault of the only instruction in flight, or of the one that waits at issue for a tag. -/
theorem budgetStalls : Obligations.BudgetStalls := by
  intro s c elapsed
  refine ⟨fun f hf harmed hdone hopen => ⟨fun hnow => ?void, fun hnow hu => ?inFlight⟩, ?atIssue⟩
  case void => exact congrArg Host.Outcome.next (if_pos hnow)
  case inFlight =>
    have hu' : (dropCinch s c f.seq).unfaulted c := ⟨hu.core, hu.aborting, hu.quiescing⟩
    exact ⟨_, exec_budgetExpiry_only hf harmed hdone hopen hnow elapsed, flightFault_only_flights hu' hf _ _ _, flightFault_only_mem hu' hf _ _ _,
      (flightFault_faultOf s (dropCinch s c f.seq) c f codeStreamStall _ _ hu (by simp [State.earliest, hf]) rfl rfl rfl rfl).2⟩
  case atIssue =>
    intro k m rest hu a hnow hgoing hw hf htag htags
    obtain ⟨hfault, hmem, -⟩ := accessFaultAt_faultOf s c a.nextSeq
      { accessRecord a.index (.move k m) codeStreamStall 1 with
          cycle := elapsed, doneTok := if m.de then m.dtok else 0, chip := remoteChip a (.move k m) } hu (by rw [hf]; simp)
    exact ⟨_, exec_budgetExpiry_waiting hnow hgoing hw hf htag htags elapsed, hmem, hfault⟩

end Sys2Proof.Machine
end

section
/-! SUPPORT. A fault of the instruction that a free access stream issues, and the waits that find another token at the head (R35, R77). -/

namespace Sys2Proof.Machine

/-- The state in which a free stream has taken an instruction up. -/
def State.offered (s : State) (c : CoreId) (i : AInstr) : State := updAccess s c fun a => { a with waiting := [i] }

section
variable {s : State} {c : CoreId} {i : AInstr}

theorem offered_core : (s.offered c i).core c = { s.core c with access := { (s.core c).access with waiting := [i] } } := core_head i

theorem offered_unfaulted (hu : s.unfaulted c) : (s.offered c i).unfaulted c :=
  ⟨by rw [offered_core]; exact hu.core, hu.aborting, hu.quiescing⟩

/-- A fault of the instruction that a free stream issues is recorded at once, and moves no byte of HBM (R77). -/
theorem accessCommand_fault {code : W16} {cause : Nat} {g : Record → Record} (h : s.accessReady c) (hu : s.unfaulted c)
    (e : tryIssue (s.offered c i) c i = some (accessFault (s.offered c i) c i code cause g)) :
    (accessCommand s c i).mem = s.mem ∧
      s.faultOf (accessCommand s c i) c (g (accessRecord (s.core c).access.index i code cause)) := by
  have hcore := offered_core (s := s) (c := c) (i := i)
  obtain ⟨hfault, hmem, -⟩ := accessFaultAt_faultOf (s.offered c i) c (s.core c).access.nextSeq
    (g (accessRecord (s.core c).access.index i code cause)) (offered_unfaulted hu) (by simp [hcore, h.flights])
  have hrecord : accessFault (s.offered c i) c i code cause g =
      accessFaultAt (s.offered c i) c (s.core c).access.nextSeq (g (accessRecord (s.core c).access.index i code cause)) := by
    rw [accessFault, hcore]
  rw [accessCommand_issue s _ c i h e (.inr ?stops), hrecord]
  case stops =>
    rw [hrecord]
    exact hfault.stopped.2.1
  refine ⟨hmem, faultOf_of_core s _ _ c _ hfault ?_ rfl rfl⟩
  simp only [State.coreRecord, hcore]
  rfl

/-- Every moving instruction is its move at the access stream. -/
theorem exec_moveInstrs {m : MoveOp} {op : BitVec 4} {l : LandOp} {l1 : CollOp} :
    ∀ x ∈ moveInstrs c m op l l1, exec x.2 s = .next (accessCommand s c (.move x.1 m)) := by
  intro x hx
  simp only [moveInstrs, collInstr, List.map_cons, List.map_nil, List.cons_append, List.nil_append, List.mem_cons, List.not_mem_nil,
    or_false] at hx
  rcases hx with rfl | rfl | rfl | rfl | rfl | rfl | rfl | rfl | rfl | rfl | rfl | rfl | rfl | rfl | rfl | rfl <;> rfl

theorem offered_popEq_order {q : Fin 4} {token : Token} {e : Entry} {rest : List Entry} (hq : (s.core c).eq[q] = e :: rest)
    (he : e.token ≠ token) : ((s.offered c i).core c).popEq q token = .order :=
  popEq_order (by rw [offered_core]; exact hq) he

variable (h : s.accessReady c)
include h

theorem offered_flights : ((s.offered c i).core c).access.flights = [] := by rw [offered_core]; exact h.flights

theorem offered_popped : ((s.offered c i).core c).access.popped = false := by rw [offered_core]; exact h.popped

/-- A POP that finds another token at the head (R35). -/
theorem tryIssue_pop_order {q : Fin 4} {token : Token} {e : Entry} {rest : List Entry} (hq : (s.core c).eq[q] = e :: rest)
    (he : e.token ≠ token) :
    tryIssue (s.offered c (.pop q token)) c (.pop q token) =
      some (accessFault (s.offered c (.pop q token)) c (.pop q token) codeStreamStall 7 fun r => { r with carried := token }) := by
  simp only [tryIssue, offered_flights h, offered_popEq_order hq he]
  rfl

/-- A move whose wait finds another token at the head (R35). -/
theorem tryIssue_move_order {k : MoveKind} {m : MoveOp} {e : Entry} {rest : List Entry} (hu : s.unfaulted c) (hwe : m.we = true)
    (hq : (s.core c).eq[m.wq] = e :: rest) (he : e.token ≠ m.wtok) :
    tryIssue (s.offered c (.move k m)) c (.move k m) = some (accessFault (s.offered c (.move k m)) c (.move k m) codeStreamStall 7
      fun r => { r with carried := m.wtok, doneTok := if m.de then m.dtok else 0 }) := by
  generalize hg : (fun r : Record => { r with carried := m.wtok, doneTok := if m.de then m.dtok else 0 }) = g
  have hwait : takeWait (s.offered c (.move k m)) c (.move k m) m =
      some (accessFault (s.offered c (.move k m)) c (.move k m) codeStreamStall 7 g) := by
    simp only [takeWait, hwe, offered_popped h, offered_popEq_order hq he, hg]
    rfl
  have hstop : ((accessFault (s.offered c (.move k m)) c (.move k m) codeStreamStall 7 g).core c).access.stopped = true :=
    (accessFaultAt_faultOf (s.offered c (.move k m)) c _ _ (offered_unfaulted hu) (by simp [offered_flights h])).1.stopped.2.1
  simp only [tryIssue, offered_flights h, hwait, hstop, if_true]
  rfl

end

/-- Settles O13: the POP, the wait of a move and the POPE each find the head of their queue out of order. -/
theorem tokenOrderStalls : Obligations.TokenOrderStalls := by
  intro s c e rest hu
  refine ⟨fun q token h hq he => ?pop, fun m op l l1 x hx h hwe hq he => ?move, fun delta q token h hq he => ?pope⟩
  case pop => exact ⟨_, rfl, (accessCommand_fault h hu (tryIssue_pop_order h hq he)).2⟩
  case move => exact ⟨_, exec_moveInstrs x hx, (accessCommand_fault h hu (tryIssue_move_order h hu hwe hq he)).2⟩
  case pope =>
    have hrun (s1 : State) (h1 : s1 = s.updCore c fun k => k.atHead (s.issueCycle c delta) delta (.pope q token)) :
        runX s1 c (.pope q token) (s.issueCycle c delta) = some (streamFaultAt s1 c (s.issueCycle c delta)
          { execRecord (s.core c).exec (.pope q token) codeStreamStall 7 with carried := token }) := by
      subst h1
      have hq' : ((s.updCore c fun k => k.atHead (s.issueCycle c delta) delta (.pope q token)).core c).aq[q] = e :: rest := by
        rw [core_updCore_same]
        exact hq
      simp only [runX, hq', if_neg he]
      rw [core_updCore_same]
      rfl
    obtain ⟨t, ht, -, hfault⟩ := execCommand_fault s c delta _ _ _ h hu hrun
    exact ⟨t, congrArg Host.Outcome.next ht, hfault⟩

end Sys2Proof.Machine
end

section
/-! SUPPORT. The range checks of the moves and of a DRN's landing, which come before any effect (R67, R73, R74, R77). -/

namespace Sys2Proof.Machine

section
variable {s : State} {c : CoreId} {k : MoveKind} {m : MoveOp}

/-- A move without a wait, of a free stream, with a tag where it needs one, issues (R54, R61, R75). -/
theorem tryIssue_move_offered (h : s.accessReady c) (hwe : m.we = false)
    (htag : needsTag k ((s.core c).dst m) = true → coreTags s c < 384) :
    tryIssue (s.offered c (.move k m)) c (.move k m) = some (issueMove (s.offered c (.move k m)) c k m) := by
  have hcore := offered_core (s := s) (c := c) (i := .move k m)
  refine tryIssue_move _ _ c k m (offered_flights h) (by simp [takeWait, hwe]) (by rw [hcore]; exact h.going) (offered_flights h) ?_
  rw [hcore, Bool.and_eq_false_iff, decide_eq_false_iff_not, not_le]
  cases hn : needsTag k ((s.core c).dst m) with
  | false => exact .inl hn
  | true => exact .inr (htag hn)

/-- What the checks of a move read of the state in which it is taken up. -/
theorem offered_reads {i : AInstr} : spadOpen (s.offered c i) = spadOpen s ∧ hbmCheck (s.offered c i) = hbmCheck s ∧
    ((s.offered c i).core c).access.desc = (s.core c).access.desc :=
  ⟨rfl, rfl, by rw [offered_core]⟩

/-- A move with a scratchpad operand out of range (R73). -/
theorem issueMove_spad {cause addr : Nat}
    (hspad : spadChecks (spadOpen s) (moveSpad k m ((s.core c).src m) ((s.core c).dst m) ((s.core c).aux m)) = some (cause, addr)) :
    issueMove (s.offered c (.move k m)) c k m = accessFault (s.offered c (.move k m)) c (.move k m) codeSpadRange cause (raddr addr) := by
  obtain ⟨hopen, -, hdesc⟩ := offered_reads (s := s) (c := c) (i := .move k m)
  simp only [Core.src, Core.dst, Core.aux] at hspad
  simp only [issueMove, hopen, hdesc, hspad]

/-- An LDH whose source fails a check (R74). -/
theorem issueMove_ldh_hbm {cause : Nat}
    (hspad : spadChecks (spadOpen s) (moveSpad .ldh m ((s.core c).src m) ((s.core c).dst m) ((s.core c).aux m)) = none)
    (hsrc : hbmCheck s ((s.core c).src m) false true = some cause) :
    issueMove (s.offered c (.move .ldh m)) c .ldh m = accessFault (s.offered c (.move .ldh m)) c (.move .ldh m) codeHbmRange cause
      (raddr (((s.core c).src m).base.toNat % 2 ^ 40)) := by
  obtain ⟨hopen, hcheck, hdesc⟩ := offered_reads (s := s) (c := c) (i := .move .ldh m)
  simp only [Core.src, Core.dst, Core.aux] at hspad hsrc
  simp only [issueMove, hopen, hcheck, hdesc, hspad, hsrc]
  rfl

/-- An STH whose destination fails a check (R74). -/
theorem issueMove_sth_hbm {cause : Nat}
    (hspad : spadChecks (spadOpen s) (moveSpad .sth m ((s.core c).src m) ((s.core c).dst m) ((s.core c).aux m)) = none)
    (hdst : hbmCheck s ((s.core c).dst m) true true = some cause) :
    issueMove (s.offered c (.move .sth m)) c .sth m = accessFault (s.offered c (.move .sth m)) c (.move .sth m) codeHbmRange cause
      (raddr (((s.core c).dst m).base.toNat % 2 ^ 40)) := by
  obtain ⟨hopen, hcheck, hdesc⟩ := offered_reads (s := s) (c := c) (i := .move .sth m)
  simp only [Core.src, Core.dst, Core.aux] at hspad hdst
  simp only [issueMove, hopen, hcheck, hdesc, hspad, hdst]
  rfl

/-- A move whose issue is a fault is that fault of its core (R77). -/
theorem move_fault {code : W16} {cause : Nat} {g : Record → Record} (h : s.accessReady c) (hu : s.unfaulted c) (hwe : m.we = false)
    (htag : needsTag k ((s.core c).dst m) = true → coreTags s c < 384)
    (e : issueMove (s.offered c (.move k m)) c k m = accessFault (s.offered c (.move k m)) c (.move k m) code cause g) :
    (accessCommand s c (.move k m)).mem = s.mem ∧
      s.faultOf (accessCommand s c (.move k m)) c (g (accessRecord (s.core c).access.index (.move k m) code cause)) :=
  accessCommand_fault h hu ((tryIssue_move_offered h hwe htag).trans (congrArg some e))

end

/-- A DRN whose landing leaves its parameter, or is there already (R67, R149). -/
theorem doDrn_badLanding {s : State} {c : CoreId} {f : DrnOp} {t : Nat} {own : Token} {cause : Nat}
    (hown : ((s.core c).slotAt f.eng f.slot.toNat).stateAt t = .owned own) (hdest : f.dest = 4)
    (hbad : drnLandBad s f ((s.core c).engines[f.eng].m * (s.core c).engines[f.eng].n) = some cause) :
    doDrn s c f t = streamFaultAt s c t
      { execRecord (s.core c).exec (.drn f) codeHbmRange cause with addr := BitVec.ofNat 40 f.offset.toNat } := by
  simp only [doDrn, hown, if_pos hdest, hbad]

/-- Settles O14: the checks of a move come before its effect, and so does that of a DRN's landing. The addresses of the records are the
model's choice (log entries 35, 83). -/
theorem rangeFaults : Obligations.RangeFaults := by
  intro s c m op l l1 hu
  refine ⟨fun h hwe x hx cause addr htag hspad => ?spad, fun h hwe cause hspad hsrc => ?ldh, fun h hwe cause hspad hdst => ?sth, ?drn⟩
  case spad => exact ⟨_, exec_moveInstrs x hx, move_fault h hu hwe htag (issueMove_spad hspad)⟩
  case ldh => exact ⟨_, rfl, move_fault h hu hwe (by simp [needsTag]) (issueMove_ldh_hbm hspad hsrc)⟩
  case sth => exact ⟨_, rfl, move_fault h hu hwe (by simp [needsTag]) (issueMove_sth_hbm hspad hdst)⟩
  case drn =>
    intro delta f own cause t k h hown hdest hbad
    have hrun (s1 : State) (h1 : s1 = s.updCore c fun k => k.atHead t delta (.drn f)) :
        runX s1 c (.drn f) t = some (streamFaultAt s1 c t
          { execRecord k.exec (.drn f) codeHbmRange cause with addr := BitVec.ofNat 40 f.offset.toNat }) := by
      have hcore : s1.core c = (s.core c).atHead t delta (.drn f) := by rw [h1, core_updCore_same]
      have hbad' : drnLandBad s1 f ((s1.core c).engines[f.eng].m * (s1.core c).engines[f.eng].n) = some cause := by
        rw [hcore, h1]
        exact hbad
      rw [runX, doDrn_badLanding (by rw [hcore]; exact hown) hdest hbad', hcore]
      rfl
    obtain ⟨u, hexec, hmem, hfault⟩ := execCommand_fault s c delta _ _ _ h hu hrun
    exact ⟨u, congrArg Host.Outcome.next hexec, hmem, hfault⟩

end Sys2Proof.Machine
end

section
/-! SUPPORT. An execute instruction acts on its core as it stands in its cycle; SETX, ADVX, LOOPX, WAITC, PUSHE, POPE and AWLS (R80, R82, R96, R97). -/

namespace Sys2Proof.Machine

/-- A core with other instructions waiting at its execute stream. -/
def Core.withWaiting (k : Core) (w : List (W16 × XInstr)) : Core := { k with exec := { k.exec with waiting := w } }

theorem settled_waiting (k : Core) (t : Nat) (w : List (W16 × XInstr)) : (k.withWaiting w).settled t = (k.settled t).withWaiting w := rfl

section
variable {s : State} {c : CoreId} {delta : W16} {i : XInstr}

/-- An instruction whose effect is on its core alone, whatever waits there, has that effect on the core as it stands in its cycle. -/
theorem execCommand_effect {F : Core → Core} {base : Nat} (h : s.mayIssue c delta i)
    (e : ∀ u : State, u.core c = ((s.core c).settled (s.issueCycle c delta)).withWaiting [(delta, i)] → u.free = s.free → u.pwr = s.pwr →
      u.job = s.job → runX u c i (s.issueCycle c delta) = some (u.passes c F (s.issueCycle c delta) base))
    (hF : ∀ k w, F (k.withWaiting w) = (F k).withWaiting w) :
    execCommand s c delta i = s.passes c (fun k => F (k.settled (s.issueCycle c delta))) (s.issueCycle c delta) base := by
  generalize ht : s.issueCycle c delta = t at *
  have hk : ((s.core c).settled t).withWaiting [] = (s.core c).settled t := by
    rw [← settled_waiting, Core.withWaiting, ← h.waiting]
  have hpassed : (F ((s.core c).atHead t delta i)).passedX s.free s.pwr.halving t base =
      (F ((s.core c).settled t)).passedX s.free s.pwr.halving t base := by
    have hhead : F ((s.core c).atHead t delta i) = (F ((s.core c).settled t)).withWaiting [(delta, i)] := hF _ _
    have hidle : F ((s.core c).settled t) = (F ((s.core c).settled t)).withWaiting [] := by rw [← hF, hk]
    rw [hhead, hidle]
    rfl
  have hrun : runX (s.updCore c fun k => k.atHead t delta i) c i t =
      some (s.passes c (fun k => F (k.settled t)) t base) := by
    rw [e (s.updCore c fun k => k.atHead t delta i) (core_updCore_same _ _ _) rfl rfl rfl, passes_updCore]
    simp only [State.passes]
    rw [updCore_congr s c _ (fun k => (F (k.settled t)).passedX s.free s.pwr.halving t base) hpassed]
  subst ht
  refine execCommand_issue s _ c delta i h hrun (.inl ?_)
  rw [passes_core]
  have hidle : F ((s.core c).settled (s.issueCycle c delta)) = (F ((s.core c).settled (s.issueCycle c delta))).withWaiting [] := by rw [← hF, hk]
  rw [hidle]
  rfl
/-- SETX, ADVX, WAITC, PUSHE, POPE and AWLS act on their core alone. -/
theorem runX_setx (f : SetxOp) (t : Nat) : runX s c (.setx f) t =
    some (s.passes c (fun k => { k with exec := { k.exec with desc := k.exec.desc.set f.x (Desc.ofSetx f) } }) t t) :=
  congrArg some (passes_updCore _ _ _ _ _ _)

theorem runX_advx (x : Fin 16) (restore : Bool) (disp : W32) (t : Nat) : runX s c (.advx x restore disp) t =
    some (s.passes c (fun k => { k with exec := { k.exec with desc := k.exec.desc.set x (k.exec.desc[x].advance restore disp) } }) t t) :=
  congrArg some (passes_updCore _ _ _ _ _ _)

theorem runX_awls (lane : Fin 4) (tid : BitVec 24) (base : BitVec 40) (t : Nat) : runX s c (.awls lane tid base) t =
    some (s.passes c (fun k => { k with lanes := k.lanes.set lane { seeded := true, tid := tid, idx := base } }) t t) :=
  congrArg some (passes_updCore _ _ _ _ _ _)

theorem runX_pushe (f : PushOp) (t : Nat) (hroom : (s.core c).eq[f.q].length < 16) : runX s c (.pushe f) t =
    some (s.passes c (fun k => { k with eq := k.eq.set f.q (k.eq[f.q] ++ [pusheEntry k f]) }) t t) := by
  simp only [runX, if_neg (not_le.2 hroom), passX, passes_updCore]
  rfl

theorem runX_pope {q : Fin 4} {token : Token} {e : Entry} {rest : List Entry} (t : Nat) (hq : (s.core c).aq[q] = e :: rest)
    (he : e.token = token) : runX s c (.pope q token) t = some (s.passes c (fun k => { k with aq := k.aq.set q rest }) t t) := by
  simp only [runX, hq, if_pos he, passX, passes_updCore]
  rfl

end

/-- A LOOPX opens its loop and begins its base cycle (R80, R82). -/
theorem execLoopx_opens {s : State} {c : CoreId} {delta : W16} {count : W16} {body : BitVec 10} (h : s.mayIssue c delta (.loopx count body)) :
    let t := s.issueCycle c delta
    let k := (s.core c).settled t
    execCommand s c delta (.loopx count body) = { s.updCore c (fun _ =>
      { k.countCycles s.free s.pwr.halving t with
        exec := { k.exec with
          cycle := t, base := t, index := k.exec.index + 1, held := false,
          loops := { first := k.exec.index + 1, last := k.exec.index + 1 + body.toNat, left := count.toNat } :: k.exec.loops } })
      with free := s.free + 3 } := by
  intro t k
  have hw : k.exec.waiting = [] := h.waiting
  refine execCommand_issue s _ c delta _ h ?_ (.inl ?_)
  · simp only [runX, updCore_updCore]
    refine congrArg some (congrArg (fun u : State => { u with free := s.free + 3 }) (updCore_congr s c _ _ ?_))
    simp only [Core.atHead, List.tail_cons]
    rw [← hw]
    rfl
  · change ((s.updCore c _).core c).exec.waiting = []
    rw [core_updCore_same]
    exact hw

/-- Settles O15: each has its effect on its core as it stands in its cycle. -/
theorem executeControlCompletes : Obligations.ExecuteControlCompletes := by
  intro s c delta t k runs
  refine ⟨fun f h => ?_, fun x restore disp h => ?_, fun count body h => ?_, fun n h => ?_, fun f h hroom => ?_,
    fun q token e rest h hq he => ?_, fun lane tid base h => ?_⟩
  · exact congrArg _ (execCommand_effect h (fun u _ _ _ _ => runX_setx f t) (by exact fun _ _ => rfl))
  · exact congrArg _ (execCommand_effect h (fun u _ _ _ _ => runX_advx x restore disp t) (by exact fun _ _ => rfl))
  · exact congrArg _ (execLoopx_opens h)
  · exact congrArg _ (execCommand_effect h (fun u _ _ _ _ => rfl) (by exact fun _ _ => rfl))
  · exact congrArg _ (execCommand_effect (F := fun k => { k with eq := k.eq.set f.q (k.eq[f.q] ++ [pusheEntry k f]) }) h
      (fun u hu _ _ _ => runX_pushe f t (by rw [hu]; exact hroom)) (by exact fun _ _ => rfl))
  · refine congrArg _ (execCommand_effect h (fun u hu _ _ _ => runX_pope t ?_ he) (by exact fun _ _ => rfl))
    rw [hu]
    exact hq
  · exact congrArg _ (execCommand_effect h (fun u _ _ _ _ => runX_awls lane tid base t) (by exact fun _ _ => rfl))

end Sys2Proof.Machine
end

section
/-! SUPPORT. MMA and TACC: the slot an instruction finds as its mode needs it, and what it leaves of its core. -/

namespace Sys2Proof.Machine

/-- What an MMA leaves of its core: its window, its slot with the product, and its unit's busy time (R83, R85). -/
def Core.multiplied (f : MmaOp) (t : Nat) (k : Core) : Core :=
  let i := XInstr.mma f
  let v := k.slotAt f.eng f.slot.toNat
  let busy := mmaLoad k f t + mmaDepth k f
  let ready := t + busy + (if halfRate k f then 12 else 6)
  { (k.openWindow i (mmaPlan k f t) t ready (some (f.eng, f.slot.toNat)) (halfRate k f)).setSlot f.eng f.slot.toNat
      { st := .owned f.own,
        acc := product k.engines[f.eng] f v.acc (k.operand i t f.a).1 (k.operand i t f.b).1 (k.operand i t f.as).1 (k.operand i t f.bs).1,
        poison := (k.operand i t f.a).2 || (k.operand i t f.b).2 || (k.operand i t f.as).2 || (k.operand i t f.bs).2 || (f.cont && v.poison),
        readyAt := ready }
    with mmaBusy := k.mmaBusy.set f.eng (k.mmaBusy[f.eng] + BitVec.ofNat 64 busy) }

/-- What a TACC leaves of its core: its slot Draining, and the wait for its sum (R90). -/
def Core.awaiting (f : TaccOp) (k : Core) : Core :=
  { k.setSlot f.eng f.slot.toNat { k.slotAt f.eng f.slot.toNat with st := .draining f.own none } with
    taccs := k.taccs ++ [{ f := f, index := k.exec.index, pushDue := false }] }

section
variable {s : State} {c : CoreId} {t : Nat}

/-- A slot in the state its instruction's mode asks for fails neither test of R42: that of a start, nor that of a continuation. -/
theorem slotTests_pass {st : SlotState} {own : Token} {cont : Bool} (h : st = if cont then .owned own else .free) :
    (!cont && decide (st ≠ .free)) = false ∧ (cont && decide (st ≠ .owned own)) = false := by
  subst h
  cases cont <;> simp

/-- An MMA finds its slot as it needs it: Free for a start, Owned by its token for a continuation (R42). -/
theorem doMma_runs {f : MmaOp} (h : ((s.core c).slotAt f.eng f.slot.toNat).stateAt t = if f.cont then .owned f.own else .free) :
    doMma s c f t = s.passes c (Core.multiplied f t) t t := by
  have hmma : doMma s c f t = passX (s.updCore c fun _ => (s.core c).multiplied f t) c t := by
    obtain ⟨hstart, hcont⟩ := slotTests_pass h
    simp only [doMma, hstart, hcont, Bool.false_eq_true, if_false]
    rfl
  rw [hmma, passX, passes_updCore]
  exact passes_congr _ _ _ _ _ _ rfl

theorem doTacc_runs {f : TaccOp} (h : ((s.core c).slotAt f.eng f.slot.toNat).stateAt t = if f.cont then .owned f.own else .free) :
    doTacc s c f t = s.passes c (Core.awaiting f) t t := by
  have htacc : doTacc s c f t = passX (s.updCore c fun _ => (s.core c).awaiting f) c t := by
    obtain ⟨hstart, hcont⟩ := slotTests_pass h
    simp only [doTacc, hstart, hcont, Bool.or_self, Bool.false_eq_true, if_false]
    rfl
  rw [htacc, passX, passes_updCore]
  exact passes_congr _ _ _ _ _ _ rfl

end

/-- Settles O16: an MMA whose slot passes the test of its mode is its effect on its core. -/
theorem mmaCompletes : Obligations.MmaCompletes := by
  intro s c delta f t k i v busy ready h hslot
  refine congrArg Host.Outcome.next ((execCommand_effect (F := Core.multiplied f t) h (fun u hu _ _ _ => congrArg some (doMma_runs ?_))
    (by exact fun _ _ => rfl)).trans (passes_congr _ _ _ _ _ _ rfl))
  rw [hu]
  exact hslot

/-- Settles O20: a TACC whose slot passes the test of its mode is its effect on its core. -/
theorem taccCompletes : Obligations.TaccCompletes := by
  intro s c delta f t k v h hslot
  refine congrArg Host.Outcome.next ((execCommand_effect (F := Core.awaiting f) h (fun u hu _ _ _ => congrArg some (doTacc_runs ?_))
    (by exact fun _ _ => rfl)).trans (passes_congr _ _ _ _ _ _ rfl))
  rw [hu]
  exact hslot

end Sys2Proof.Machine
end

section
/-! SUPPORT. An execute instruction's act on its core, the engines' writes, and VOP (R83, R89, R92). -/

namespace Sys2Proof.Machine

section
variable {s : State} {c : CoreId} {delta : W16} {i : XInstr}

/-- An instruction that acts on its core, whatever waits there, and then on the rest of the machine, acts so on the core as it stands in
its cycle, and passes. -/
theorem execCommand_acts {F : Core → Core} {r : State → State} (h : s.mayIssue c delta i)
    (e : ∀ u : State, u.core c = ((s.core c).settled (s.issueCycle c delta)).withWaiting [(delta, i)] →
      u = { s with cores := u.cores } →
      runX u c i (s.issueCycle c delta) = some (passX (r (u.updCore c F)) c (s.issueCycle c delta)))
    (hF : ∀ k w, F (k.withWaiting w) = (F k).withWaiting w) (hr : ∀ u, (r u).core c = u.core c) :
    execCommand s c delta i =
      passX (r (s.updCore c fun k => (F (k.settled (s.issueCycle c delta))).withWaiting [(delta, i)])) c (s.issueCycle c delta) := by
  have hhead : (s.updCore c fun k => k.atHead (s.issueCycle c delta) delta i).updCore c F =
      s.updCore c fun k => (F (k.settled (s.issueCycle c delta))).withWaiting [(delta, i)] := by
    rw [updCore_updCore]
    exact updCore_congr _ _ _ _ (hF _ _)
  refine execCommand_issue s _ c delta i h ?_ (.inl ?_)
  · rw [e (s.updCore c fun k => k.atHead (s.issueCycle c delta) delta i) (core_updCore_same _ _ _) rfl, hhead]
  · rw [passX_core, hr, core_updCore_same]
    rfl

/-- One core shows what another holds: its queues, engines, lanes, scratchpad, trains, census and halves. -/
structure Core.shows (k z : Core) : Prop where
  aq : k.aq = z.aq
  eq : k.eq = z.eq
  engines : k.engines = z.engines
  lanes : k.lanes = z.lanes
  spad : k.spad = z.spad
  spadPoison : k.spadPoison = z.spadPoison
  trains : k.exec.trains = z.exec.trains
  census : k.census = z.census
  halves : k.halves = z.halves

/-- Passing keeps what a core holds, whatever waited there. -/
theorem passedX_shows (k : Core) (w : List (W16 × XInstr)) (free : Nat) (halving : Bool) (t base : Nat) :
    ((k.withWaiting w).passedX free halving t base).shows k := ⟨rfl, rfl, rfl, rfl, rfl, rfl, rfl, rfl, rfl⟩

/-- Passing changes one core and the free choices. -/
theorem onlyCore_passX (s : State) (c : CoreId) (F : Core → Core) (t : Nat) : s.onlyCore (passX (s.updCore c F) c t) c := by
  have hp : passX (s.updCore c F) c t = { s.updCore c (fun k => (F k).passedX s.free s.pwr.halving t t) with free := s.free + 3 } :=
    passes_updCore s c F id t t
  obtain ⟨-, hother⟩ := onlyCore_updCore s c fun k => (F k).passedX s.free s.pwr.halving t t
  rw [hp]
  exact ⟨rfl, hother⟩

/-- An instruction that acts on its core alone. -/
theorem execCommand_alone {F : Core → Core} (h : s.mayIssue c delta i)
    (e : ∀ u : State, u.core c = ((s.core c).settled (s.issueCycle c delta)).withWaiting [(delta, i)] →
      u = { s with cores := u.cores } →
      runX u c i (s.issueCycle c delta) = some (passX (u.updCore c F) c (s.issueCycle c delta)))
    (hF : ∀ k w, F (k.withWaiting w) = (F k).withWaiting w) :
    ∃ t', execCommand s c delta i = t' ∧ s.onlyCore t' c ∧ (t'.core c).shows (F ((s.core c).settled (s.issueCycle c delta))) := by
  refine ⟨_, execCommand_acts (r := id) h e hF fun _ => rfl, onlyCore_passX _ _ _ _, ?_⟩
  rw [passX_core, id, core_updCore_same]
  exact passedX_shows _ _ _ _ _ _

end

/-! The engines' writes go past what waits at the stream. -/

theorem scatterSpad_withWaiting (k : Core) (w : List (W16 × XInstr)) (d : Desc) (bs : List PByte) :
    scatterSpad (k.withWaiting w) d bs = (scatterSpad k d bs).withWaiting w := by
  obtain ⟨hspad, hpoison⟩ := scatterSpad_spad (k.withWaiting w) k d bs rfl rfl
  rw [scatterSpad_frame (k.withWaiting w), scatterSpad_frame k, hspad, hpoison]
  rfl

theorem writeElems_withWaiting (k : Core) (w : List (W16 × XInstr)) (d : Desc) (es : List W32) (p : Bool) :
    writeElems (k.withWaiting w) d es p = (writeElems k d es p).withWaiting w := scatterSpad_withWaiting k w d _

theorem writeScales_withWaiting (k : Core) (w : List (W16 × XInstr)) (f : BitVec 5) (sc : List Byte) (p : Bool) :
    (k.withWaiting w).writeScales f sc p = (k.writeScales f sc p).withWaiting w := by
  unfold Core.writeScales
  rw [show (k.withWaiting w).xdesc f = k.xdesc f from rfl]
  split
  · split
    · rfl
    · exact writeElems_withWaiting _ _ _ _ _
  · rfl

theorem countBeats_withWaiting (k : Core) (w : List (W16 × XInstr)) (cen : Bool) (set : Fin 16) (fmt : BitVec 4) (t0 per : Nat)
    (ys : List Num) (cs : List Conv) (p : Bool) :
    (k.withWaiting w).countBeats cen set fmt t0 per ys cs p = (k.countBeats cen set fmt t0 per ys cs p).withWaiting w := by
  cases cen <;> rfl

theorem openWindow_withWaiting (k : Core) (w : List (W16 × XInstr)) (i : XInstr) (p : Plan) (t readyAt : Nat)
    (slot : Option (Fin 3 × Nat)) (half : Bool) :
    (k.withWaiting w).openWindow i p t readyAt slot half = (k.openWindow i p t readyAt slot half).withWaiting w := rfl

/-! What the engines' writes keep of a core. -/

@[simp] theorem writeElems_keeps (k : Core) (d : Desc) (es : List W32) (p : Bool) :
    (writeElems k d es p).aq = k.aq ∧ (writeElems k d es p).eq = k.eq ∧ (writeElems k d es p).engines = k.engines ∧
      (writeElems k d es p).lanes = k.lanes ∧ (writeElems k d es p).exec = k.exec := by
  obtain ⟨sp, po, e⟩ := writeElems_frame k d es p
  simp [e]

@[simp] theorem writeScales_keeps (k : Core) (f : BitVec 5) (sc : List Byte) (p : Bool) :
    (k.writeScales f sc p).aq = k.aq ∧ (k.writeScales f sc p).eq = k.eq ∧ (k.writeScales f sc p).engines = k.engines ∧
      (k.writeScales f sc p).lanes = k.lanes ∧ (k.writeScales f sc p).exec = k.exec := by
  obtain ⟨sp, po, e⟩ := writeScales_frame k f sc p
  simp [e]

@[simp] theorem countBeats_keeps (k : Core) (cen : Bool) (set : Fin 16) (fmt : BitVec 4) (t0 per : Nat) (ys : List Num) (cs : List Conv)
    (p : Bool) :
    (k.countBeats cen set fmt t0 per ys cs p).aq = k.aq ∧ (k.countBeats cen set fmt t0 per ys cs p).eq = k.eq ∧
      (k.countBeats cen set fmt t0 per ys cs p).engines = k.engines ∧ (k.countBeats cen set fmt t0 per ys cs p).lanes = k.lanes ∧
      (k.countBeats cen set fmt t0 per ys cs p).spad = k.spad ∧ (k.countBeats cen set fmt t0 per ys cs p).spadPoison = k.spadPoison ∧
      (k.countBeats cen set fmt t0 per ys cs p).exec.desc = k.exec.desc ∧
      (k.countBeats cen set fmt t0 per ys cs p).exec.trains = k.exec.trains := by
  obtain ⟨bs, o, e⟩ := countBeats_frame k cen set fmt t0 per ys cs p
  simp [e]

@[simp] theorem openWindow_keeps (k : Core) (i : XInstr) (p : Plan) (t readyAt : Nat) (slot : Option (Fin 3 × Nat)) (half : Bool) :
    (k.openWindow i p t readyAt slot half).aq = k.aq ∧ (k.openWindow i p t readyAt slot half).eq = k.eq ∧
      (k.openWindow i p t readyAt slot half).engines = k.engines ∧ (k.openWindow i p t readyAt slot half).lanes = k.lanes ∧
      (k.openWindow i p t readyAt slot half).spad = k.spad ∧ (k.openWindow i p t readyAt slot half).spadPoison = k.spadPoison ∧
      (k.openWindow i p t readyAt slot half).exec.desc = k.exec.desc := ⟨rfl, rfl, rfl, rfl, rfl, rfl, rfl⟩

/-! What an engine sends out of its results: to the operand's scratchpad, or as a train of beats on a link. -/

/-- A core with one more train on its links. -/
def Core.sends (k : Core) (q : Train) : Core := { k with exec := { k.exec with trains := k.exec.trains ++ [q] } }

/-- Results written to a register's operand, or sent as a train. -/
def Core.emits (k : Core) (o : BitVec 5) (bits : List W32) (p : Bool) (train : Fin 4 → Train) : Core :=
  match opnd o with
  | .reg x => writeElems k k.exec.desc[x] bits p
  | .link l => k.sends (train l)
  | .none => k

theorem emits_withWaiting (k : Core) (w : List (W16 × XInstr)) (o : BitVec 5) (bits : List W32) (p : Bool) (train : Fin 4 → Train) :
    (k.withWaiting w).emits o bits p train = (k.emits o bits p train).withWaiting w := by
  unfold Core.emits
  split
  · exact writeElems_withWaiting _ _ _ _ _
  · rfl
  · rfl

@[simp] theorem emits_keeps (k : Core) (o : BitVec 5) (bits : List W32) (p : Bool) (train : Fin 4 → Train) :
    (k.emits o bits p train).aq = k.aq ∧ (k.emits o bits p train).eq = k.eq ∧ (k.emits o bits p train).engines = k.engines ∧
      (k.emits o bits p train).lanes = k.lanes := by
  unfold Core.emits
  split
  · simp
  · exact ⟨rfl, rfl, rfl, rfl⟩
  · exact ⟨rfl, rfl, rfl, rfl⟩

section
variable {k : Core} {o : BitVec 5} {bits : List W32} {p : Bool} {train : Fin 4 → Train}

theorem emits_reg {x : Fin 16} (h : opnd o = .reg x) : k.emits o bits p train = writeElems k k.exec.desc[x] bits p := by
  simp only [Core.emits, h]

theorem emits_link {l : Fin 4} (h : opnd o = .link l) : k.emits o bits p train = k.sends (train l) := by
  simp only [Core.emits, h]

end

/-! VOP (R92). -/

/-- What a VOP computes, one value an element, and whether a source is poisoned. -/
def vopWords (k : Core) (f : VopOp) (t : Nat) : List W32 :=
  vopAll f.op.toNat f.bc.toNat f.imm (vopCols k f (k.operand (.vop f) t f.src0).1.length) (vopN k f t)
    (widen (k.formatOf (.vop f) t f.src0) (k.operand (.vop f) t f.src0).1)
    (widen (k.formatOf (.vop f) t f.src1) (k.operand (.vop f) t (if vopNeeds1 f then f.src1 else 0x1F)).1)
    (widen (k.formatOf (.vop f) t f.src2) (k.operand (.vop f) t (if vopNeeds2 f then f.src2 else 0x1F)).1)

def vopPoison (k : Core) (f : VopOp) (t : Nat) : Bool :=
  (k.operand (.vop f) t f.src0).2 || (k.operand (.vop f) t (if vopNeeds1 f then f.src1 else 0x1F)).2 ||
    (k.operand (.vop f) t (if vopNeeds2 f then f.src2 else 0x1F)).2

/-- The words of a VOP after the vector lane's conversion, with their block scales. -/
def vopConv (k : Core) (seed : W64) (step : W32) (f : VopOp) (t : Nat) : List Conv × List Byte :=
  let oc := match k.xdesc f.dst with | some x => (x.n1, x.n0) | none => (1, (vopWords k f t).length)
  skive f.fmt f.axis oc.1 oc.2 f.rnd seed step k.lanes[(3 : Fin 4)] ((vopWords k f t).map f32)

/-- The elements a VOP puts out: converted by the vector lane, or rounded to nearest even. -/
def vopBits (k : Core) (seed : W64) (step : W32) (f : VopOp) (t : Nat) : List W32 :=
  if f.conv then (vopConv k seed step f t).1.map (·.bits) else (vopWords k f t).map (plainOut f.fmt)

/-- A core whose lane has converted results: counted into the census, and the lane's stream advanced (R89, R104). -/
def Core.converts (k : Core) (lane : Fin 4) (cen : Bool) (set : Fin 16) (fmt : BitVec 4) (t0 per : Nat) (ys : List Num) (cs : List Conv)
    (p rnd : Bool) (n : Nat) : Core :=
  let z := k.countBeats cen set fmt t0 per ys cs p
  { z with lanes := vmod z.lanes lane (·.advance rnd n) }

/-- A core with the results of a VOP counted and their scales written, where it converts. -/
def Core.vopConverts (k : Core) (seed : W64) (step : W32) (f : VopOp) (t : Nat) : Core :=
  let k1 := k.openWindow (.vop f) (vopPlan k f t) t 0 none false
  if f.conv then
    (k1.converts 3 f.cen f.set f.fmt (t + vopLat f) (vopPer k f t) ((vopWords k f t).map f32) (vopConv k seed step f t).1
      (vopPoison k f t) f.rnd (vopWords k f t).length).writeScales f.sc (vopConv k seed step f t).2 (vopPoison k f t)
  else k1

/-- What a VOP leaves of its core. -/
def Core.vopped (seed : W64) (step : W32) (f : VopOp) (t : Nat) (k : Core) : Core :=
  (k.vopConverts seed step f t).emits f.dst (vopBits k seed step f t) (vopPoison k f t) fun l =>
    { link := l, first := t + vopLat f, count := (vopOutBeats k f t).1, per := (vopOutBeats k f t).2, fmt := f.fmt,
      elems := vopBits k seed step f t, poison := vopPoison k f t, early := 0, producer := k.exec.index, sampled := false }

theorem doVop_acts (s : State) (c : CoreId) (f : VopOp) (t : Nat) :
    doVop s c f t = passX (s.updCore c (Core.vopped (stepSeed s) s.job.step f t)) c t := by
  unfold doVop
  refine congrArg (passX · c t) (updCore_congr _ _ _ _ ?_)
  unfold Core.vopped Core.emits
  cases hconv : f.conv <;> simp only [vopBits, Core.vopConverts, Core.converts, hconv, if_true, Bool.false_eq_true, if_false] <;> rfl

@[simp] theorem converts_keeps (k : Core) (lane : Fin 4) (cen : Bool) (set : Fin 16) (fmt : BitVec 4) (t0 per : Nat) (ys : List Num)
    (cs : List Conv) (p rnd : Bool) (n : Nat) :
    (k.converts lane cen set fmt t0 per ys cs p rnd n).aq = k.aq ∧ (k.converts lane cen set fmt t0 per ys cs p rnd n).eq = k.eq ∧
      (k.converts lane cen set fmt t0 per ys cs p rnd n).engines = k.engines ∧
      (k.converts lane cen set fmt t0 per ys cs p rnd n).lanes = k.lanes.set lane (k.lanes[lane].advance rnd n) ∧
      (k.converts lane cen set fmt t0 per ys cs p rnd n).spad = k.spad ∧
      (k.converts lane cen set fmt t0 per ys cs p rnd n).spadPoison = k.spadPoison ∧
      (k.converts lane cen set fmt t0 per ys cs p rnd n).exec.desc = k.exec.desc ∧
      (k.converts lane cen set fmt t0 per ys cs p rnd n).exec.trains = k.exec.trains := by
  simp [Core.converts, vmod]

theorem converts_withWaiting (k : Core) (w : List (W16 × XInstr)) (lane : Fin 4) (cen : Bool) (set : Fin 16) (fmt : BitVec 4)
    (t0 per : Nat) (ys : List Num) (cs : List Conv) (p rnd : Bool) (n : Nat) :
    (k.withWaiting w).converts lane cen set fmt t0 per ys cs p rnd n = (k.converts lane cen set fmt t0 per ys cs p rnd n).withWaiting w := by
  unfold Core.converts
  rw [countBeats_withWaiting]
  rfl

section
variable (seed : W64) (step : W32) (f : VopOp) (t : Nat) (k : Core) (w : List (W16 × XInstr))

theorem vopConverts_withWaiting : (k.withWaiting w).vopConverts seed step f t = (k.vopConverts seed step f t).withWaiting w := by
  unfold Core.vopConverts
  split
  · dsimp only
    rw [openWindow_withWaiting, converts_withWaiting, writeScales_withWaiting]
    rfl
  · rfl

theorem vopped_withWaiting : (k.withWaiting w).vopped seed step f t = (k.vopped seed step f t).withWaiting w := by
  unfold Core.vopped
  rw [vopConverts_withWaiting, emits_withWaiting]
  rfl

/-- The scratchpad after the conversion: the scales, where the VOP converts. -/
theorem vopConverts_spad :
    let z := if f.conv then k.writeScales f.sc (vopConv k seed step f t).2 (vopPoison k f t) else k
    (k.vopConverts seed step f t).spad = z.spad ∧ (k.vopConverts seed step f t).spadPoison = z.spadPoison := by
  intro z
  cases hconv : f.conv <;> simp only [z, Core.vopConverts, hconv, if_true, Bool.false_eq_true, if_false]
  · simp
  · exact writeScales_spad _ _ _ _ _ (by simp) (by simp) (by simp)

theorem vopConverts_keeps : (k.vopConverts seed step f t).aq = k.aq ∧ (k.vopConverts seed step f t).eq = k.eq ∧
    (k.vopConverts seed step f t).engines = k.engines ∧ (k.vopConverts seed step f t).exec.desc = k.exec.desc ∧
    (k.vopConverts seed step f t).lanes =
      if f.conv then k.lanes.set 3 (k.lanes[(3 : Fin 4)].advance f.rnd (vopWords k f t).length) else k.lanes := by
  unfold Core.vopConverts
  split <;> simp

end

section
variable (seed : W64) (step : W32) (f : VopOp) (t : Nat) (k : Core)

theorem vopped_keeps : (k.vopped seed step f t).aq = k.aq ∧ (k.vopped seed step f t).eq = k.eq ∧
    (k.vopped seed step f t).engines = k.engines ∧ (k.vopped seed step f t).lanes =
      if f.conv then k.lanes.set 3 (k.lanes[(3 : Fin 4)].advance f.rnd (vopWords k f t).length) else k.lanes := by
  obtain ⟨haq, heq, heng, hdesc, hlanes⟩ := vopConverts_keeps seed step f t k
  unfold Core.vopped
  rw [← haq, ← heq, ← heng, ← hlanes]
  exact emits_keeps _ _ _ _ _

theorem vopped_reg {x : Fin 16} (h : opnd f.dst = .reg x) :
    let z := writeElems (if f.conv then k.writeScales f.sc (vopConv k seed step f t).2 (vopPoison k f t) else k) k.exec.desc[x]
      (vopBits k seed step f t) (vopPoison k f t)
    (k.vopped seed step f t).spad = z.spad ∧ (k.vopped seed step f t).spadPoison = z.spadPoison := by
  obtain ⟨-, -, -, hdesc, -⟩ := vopConverts_keeps seed step f t k
  obtain ⟨hspad, hpoison⟩ := vopConverts_spad seed step f t k
  unfold Core.vopped
  rw [emits_reg h, hdesc]
  exact writeElems_spad _ _ _ _ _ hspad hpoison

theorem vopped_link {l : Fin 4} (h : opnd f.dst = .link l) :
    (k.vopped seed step f t).spad =
      (if f.conv then k.writeScales f.sc (vopConv k seed step f t).2 (vopPoison k f t) else k).spad ∧
    (k.vopped seed step f t).exec.trains.getLast? = some
      { link := l, first := t + vopLat f, count := (vopOutBeats k f t).1, per := (vopOutBeats k f t).2, fmt := f.fmt,
        elems := vopBits k seed step f t, poison := vopPoison k f t, early := 0, producer := k.exec.index, sampled := false } := by
  obtain ⟨hspad, -⟩ := vopConverts_spad seed step f t k
  unfold Core.vopped
  rw [emits_link h]
  exact ⟨hspad, List.getLast?_concat⟩

end

/-- Settles O21: a VOP is its effect on its core; its results go where its destination says. -/
theorem vopCompletes : Obligations.VopCompletes := by
  intro s c delta f t k i a b d poison r oc cv bits w h
  obtain ⟨t', hexec, honly, hshows⟩ := execCommand_alone (F := Core.vopped (stepSeed s) s.job.step f t) h (fun u _ hu => by
    have hjob : u.job = s.job := by rw [hu]
    have hseed : stepSeed u = stepSeed s := by rw [stepSeed, hjob, stepSeed]
    exact congrArg some ((doVop_acts u c f t).trans (by rw [hseed, hjob]))) (vopped_withWaiting (stepSeed s) s.job.step f t)
  obtain ⟨haq, heq, heng, hlanes⟩ := vopped_keeps (stepSeed s) s.job.step f t k
  refine ⟨t', congrArg Host.Outcome.next hexec, honly, hshows.aq.trans haq, hshows.eq.trans heq, hshows.engines.trans heng,
    hshows.lanes.trans hlanes, fun x hx => ?_, fun l hl => ?_⟩
  · obtain ⟨h1, h2⟩ := vopped_reg (stepSeed s) s.job.step f t k hx
    exact ⟨hshows.spad.trans h1, hshows.spadPoison.trans h2⟩
  · obtain ⟨h1, h2⟩ := vopped_link (stepSeed s) s.job.step f t k hl
    exact ⟨hshows.spad.trans h1, (congrArg List.getLast? hshows.trains).trans h2⟩

end Sys2Proof.Machine
end

section
/-! SUPPORT. RST (R93). -/

namespace Sys2Proof.Machine

/-! RST (R93). -/

/-- The rows of an RST's sources, its statistics operand, and whether what it reads is poisoned. -/
def rstRows0 (k : Core) (f : RstOp) (t : Nat) : List (List W32) :=
  rowsOfN (f.rows.toNat + 1) (f.cols.toNat + 1)
    (widen (k.formatOf (.rst f) t f.src0) (k.operand (.rst f) t (if f.mode = 1 then 0x1F else f.src0)).1)

def rstRows1 (k : Core) (f : RstOp) (t : Nat) : List (List W32) :=
  rowsOfN (f.rows.toNat + 1) (f.cols.toNat + 1)
    (widen (k.formatOf (.rst f) t f.src1) (k.operand (.rst f) t (if f.mode = 5 then f.src1 else 0x1F)).1)

def rstDesc (k : Core) (f : RstOp) : Desc := (k.xdesc f.st).getD Desc.reset

def rstPoison (k : Core) (f : RstOp) (t : Nat) : Bool :=
  (k.operand (.rst f) t (if f.mode = 1 then 0x1F else f.src0)).2 || (k.operand (.rst f) t (if f.mode = 5 then f.src1 else 0x1F)).2 ||
    (rstReads f && ((rstDesc k f).rows.any fun o => spadPoisoned k ((rstDesc k f).start.toNat + o) 8))

/-- The probabilities of an SMP, and what the vector lane makes of them. -/
def rstProbs (k : Core) (f : RstOp) (t : Nat) : List W32 :=
  ((List.range (f.rows.toNat + 1)).map fun j => rstSmp (statAt k (rstDesc k f) j).2 f.imm ((rstRows0 k f t).getD j [])).flatten

def rstConv (k : Core) (seed : W64) (step : W32) (f : RstOp) (t : Nat) : List Conv :=
  (skive f.fmt false (f.rows.toNat + 1) (f.cols.toNat + 1) f.rnd seed step k.lanes[(3 : Fin 4)] ((rstProbs k f t).map f32)).1

/-- Where a row's statistics go, and the bytes that go there. -/
def rstRow (k : Core) (f : RstOp) (t : Nat) (j : Nat) : Nat × List Byte :=
  let w := rstStat f (statAt k (rstDesc k f) j) ((rstRows0 k f t).getD j []) ((rstRows1 k f t).getD j [])
  ((rstDesc k f).start.toNat + j * (rstDesc k f).stride1.toNat, leBytes 4 w.1.toNat ++ leBytes 4 w.2.toNat)

/-- What an RST leaves of its core: an SMP's probabilities, or each row's statistics. -/
def Core.rowStats (seed : W64) (step : W32) (f : RstOp) (t : Nat) (k : Core) : Core :=
  let k1 := k.openWindow (.rst f) (rstPlan k f t) t 0 none false
  if f.mode = 2 then
    (k1.converts 3 f.cen f.set f.fmt (t + 3) 64 ((rstProbs k f t).map f32) (rstConv k seed step f t) (rstPoison k f t) f.rnd
        (rstProbs k f t).length).emits f.dst ((rstConv k seed step f t).map (·.bits)) (rstPoison k f t) fun l =>
      { link := l, first := t + 3, count := rstBusy f, per := 64, fmt := f.fmt, elems := (rstConv k seed step f t).map (·.bits),
        poison := rstPoison k f t, early := 0, producer := k.exec.index, sampled := false }
  else (List.range (f.rows.toNat + 1)).foldl (fun z j => spadWrite z (rstRow k f t j).1 (rstRow k f t j).2 (rstPoison k f t)) k1

theorem doRst_acts (s : State) (c : CoreId) (f : RstOp) (t : Nat) :
    doRst s c f t = passX (s.updCore c (Core.rowStats (stepSeed s) s.job.step f t)) c t := by
  unfold doRst
  refine congrArg (passX · c t) (updCore_congr _ _ _ _ ?_)
  unfold Core.rowStats Core.emits
  by_cases hmode : f.mode = 2
  · rw [if_pos hmode, if_pos hmode]
    rfl
  · rw [if_neg hmode, if_neg hmode]
    rfl

theorem foldSpad_withWaiting (l : List Nat) (g : Nat → Nat × List Byte) (p : Bool) (k : Core) (w : List (W16 × XInstr)) :
    l.foldl (fun z j => spadWrite z (g j).1 (g j).2 p) (k.withWaiting w) =
      (l.foldl (fun z j => spadWrite z (g j).1 (g j).2 p) k).withWaiting w := by
  induction l generalizing k with
  | nil => rfl
  | cons j l ih => exact ih (spadWrite k (g j).1 (g j).2 p)

section
variable (seed : W64) (step : W32) (f : RstOp) (t : Nat) (k : Core) (w : List (W16 × XInstr))

theorem rowStats_withWaiting : (k.withWaiting w).rowStats seed step f t = (k.rowStats seed step f t).withWaiting w := by
  unfold Core.rowStats
  dsimp only
  rw [openWindow_withWaiting]
  split
  · rw [converts_withWaiting, emits_withWaiting]
    rfl
  · exact foldSpad_withWaiting _ (rstRow k f t) _ _ _

theorem rowStats_keeps : (k.rowStats seed step f t).aq = k.aq ∧ (k.rowStats seed step f t).eq = k.eq ∧
    (k.rowStats seed step f t).engines = k.engines := by
  unfold Core.rowStats
  dsimp only
  split
  · simp
  · obtain ⟨sp, po, hfold, -⟩ := foldStats_spad (List.range (f.rows.toNat + 1)) (rstRow k f t) (rstPoison k f t)
      (k.openWindow (.rst f) (rstPlan k f t) t 0 none false) k rfl
    rw [hfold]
    exact ⟨rfl, rfl, rfl⟩

variable {f}

theorem rowStats_stats (h : f.mode ≠ 2) : (k.rowStats seed step f t).lanes = k.lanes ∧ (k.rowStats seed step f t).spad =
    ((List.range (f.rows.toNat + 1)).foldl (fun z j => spadWrite z (rstRow k f t j).1 (rstRow k f t j).2 (rstPoison k f t)) k).spad := by
  obtain ⟨sp, po, hfold, hspad⟩ := foldStats_spad (List.range (f.rows.toNat + 1)) (rstRow k f t) (rstPoison k f t)
    (k.openWindow (.rst f) (rstPlan k f t) t 0 none false) k rfl
  simp only [Core.rowStats, if_neg h]
  exact ⟨by rw [hfold]; rfl, hspad⟩

theorem rowStats_smp (h : f.mode = 2) :
    (k.rowStats seed step f t).lanes = k.lanes.set 3 (k.lanes[(3 : Fin 4)].advance f.rnd (rstProbs k f t).length) ∧
    (∀ x, opnd f.dst = .reg x → (k.rowStats seed step f t).spad =
      (writeElems k k.exec.desc[x] ((rstConv k seed step f t).map (·.bits)) (rstPoison k f t)).spad) ∧
    ∀ l, opnd f.dst = .link l → (k.rowStats seed step f t).spad = k.spad ∧ (k.rowStats seed step f t).exec.trains.getLast? = some
      { link := l, first := t + 3, count := rstBusy f, per := 64, fmt := f.fmt, elems := (rstConv k seed step f t).map (·.bits),
        poison := rstPoison k f t, early := 0, producer := k.exec.index, sampled := false } := by
  simp only [Core.rowStats, if_pos h]
  refine ⟨by simp, fun x hx => ?_, fun l hl => ?_⟩
  · rw [emits_reg hx]
    simp only [converts_keeps, openWindow_keeps]
    exact (writeElems_spad _ _ _ _ _ (by simp) (by simp)).1
  · rw [emits_link hl]
    exact ⟨by simp [Core.sends], List.getLast?_concat⟩

end

/-- Settles O22: an RST is its effect on its core: an SMP's probabilities through the vector lane, or each row's statistics. -/
theorem rstCompletes : Obligations.RstCompletes := by
  intro s c delta f t k i rows cols a b av bv st poison h
  obtain ⟨t', hexec, honly, hshows⟩ := execCommand_alone (F := Core.rowStats (stepSeed s) s.job.step f t) h (fun u _ hu => by
    have hjob : u.job = s.job := by rw [hu]
    have hseed : stepSeed u = stepSeed s := by rw [stepSeed, hjob, stepSeed]
    exact congrArg some ((doRst_acts u c f t).trans (by rw [hseed, hjob]))) (rowStats_withWaiting (stepSeed s) s.job.step f t)
  obtain ⟨haq, heq, heng⟩ := rowStats_keeps (stepSeed s) s.job.step f t k
  refine ⟨t', congrArg Host.Outcome.next hexec, honly, hshows.aq.trans haq, hshows.eq.trans heq, hshows.engines.trans heng,
    fun hmode => ?_, fun hmode => ?_⟩
  · obtain ⟨hlanes, hspad⟩ := rowStats_stats (stepSeed s) s.job.step t k hmode
    exact ⟨hshows.lanes.trans hlanes, hshows.spad.trans hspad⟩
  · intro r bits
    obtain ⟨hlanes, hreg, hlink⟩ := rowStats_smp (stepSeed s) s.job.step t k hmode
    refine ⟨hshows.lanes.trans hlanes, fun x hx => hshows.spad.trans (hreg x hx), fun l hl => ?_⟩
    obtain ⟨hspad, htrains⟩ := hlink l hl
    exact ⟨hshows.spad.trans hspad, (congrArg List.getLast? hshows.trains).trans htrains⟩

end Sys2Proof.Machine
end

section
/-! SUPPORT. XPS and CENF (R94, R98). -/

namespace Sys2Proof.Machine

/-- What an XPS leaves of its core: its source transposed, with the source's poison (R94). -/
def Core.transposed (f : XpsOp) (t : Nat) (k : Core) : Core :=
  let a := k.operand (.xps f) t f.src
  let out := transpose (f.rows.toNat + 1) (f.cols.toNat + 1) 0 a.1
  (k.openWindow (.xps f) (xpsPlan k f t) t 0 none false).emits f.dst out a.2 fun l =>
    { link := l, first := t + 5, count := (xpsBytes f + 511) / 512, per := 4096 / max 1 (eltBits f.fmt), fmt := f.fmt, elems := out,
      poison := a.2, early := 0, producer := k.exec.index, sampled := false }

theorem doXps_acts (s : State) (c : CoreId) (f : XpsOp) (t : Nat) : doXps s c f t = passX (s.updCore c (Core.transposed f t)) c t := by
  unfold doXps
  refine congrArg (passX · c t) (updCore_congr _ _ _ _ ?_)
  unfold Core.transposed Core.emits
  rfl

theorem transposed_withWaiting (f : XpsOp) (t : Nat) (k : Core) (w : List (W16 × XInstr)) :
    (k.withWaiting w).transposed f t = (k.transposed f t).withWaiting w := by
  unfold Core.transposed
  dsimp only
  rw [openWindow_withWaiting, emits_withWaiting]
  rfl

section
variable (f : XpsOp) (t : Nat) (k : Core)

theorem transposed_reg {x : Fin 16} (h : opnd f.dst = .reg x) :
    let z := writeElems k k.exec.desc[x] (transpose (f.rows.toNat + 1) (f.cols.toNat + 1) 0 (k.operand (.xps f) t f.src).1)
      (k.operand (.xps f) t f.src).2
    (k.transposed f t).spad = z.spad ∧ (k.transposed f t).spadPoison = z.spadPoison := by
  unfold Core.transposed
  dsimp only
  rw [emits_reg h]
  exact writeElems_spad _ _ _ _ _ rfl rfl

theorem transposed_link {l : Fin 4} (h : opnd f.dst = .link l) :
    (k.transposed f t).spad = k.spad ∧ (k.transposed f t).exec.trains.getLast? = some
      { link := l, first := t + 5, count := (xpsBytes f + 511) / 512, per := 4096 / max 1 (eltBits f.fmt), fmt := f.fmt,
        elems := transpose (f.rows.toNat + 1) (f.cols.toNat + 1) 0 (k.operand (.xps f) t f.src).1,
        poison := (k.operand (.xps f) t f.src).2, early := 0, producer := k.exec.index, sampled := false } := by
  unfold Core.transposed
  dsimp only
  rw [emits_link h]
  exact ⟨rfl, List.getLast?_concat⟩

end

/-! CENF (R98). -/

/-- The beats that a core has counted stay counted: at their cycle nothing more is due. -/
theorem flushBeats_settled (k : Core) (t : Nat) : (k.settled t).flushBeats t = k.settled t := by
  have hdue : (k.exec.beats.filter fun b => t ≤ b.1).filter (fun b => b.1 < t) = [] := by
    simp [List.filter_filter]
  have hrest : (k.exec.beats.filter fun b => t ≤ b.1).filter (fun b => t ≤ b.1) = k.exec.beats.filter fun b => t ≤ b.1 := by
    simp [List.filter_filter]
  have hbeats : (k.settled t).exec.beats = k.exec.beats.filter fun b => t ≤ b.1 := rfl
  simp only [Core.flushBeats, hbeats, hdue, hrest, List.foldl_nil]
  rfl

/-- A census set's record, with the set's poison. -/
def censusRecord (k : Core) (set : Fin 16) (tid : BitVec 24) (step : W32) : List PByte :=
  (censusBytes k.census[set] tid set.val step).map fun b => (b, k.census[set].poison)

/-- What a CENF leaves of its core: the record of its census set written, and the set cleared. -/
def Core.censusOut (set dst : Fin 16) (tid : BitVec 24) (step : W32) (t : Nat) (k : Core) : Core :=
  let z := scatterSpad (k.openWindow (.cenf set dst tid) (cenfPlan k dst t) t 0 none false) k.exec.desc[dst] (censusRecord k set tid step)
  { z with census := z.census.set set Census.reset }

theorem censusOut_withWaiting (set dst : Fin 16) (tid : BitVec 24) (step : W32) (t : Nat) (k : Core) (w : List (W16 × XInstr)) :
    (k.withWaiting w).censusOut set dst tid step t = (k.censusOut set dst tid step t).withWaiting w := by
  have hrecord : (k.withWaiting w).exec.desc[dst] = k.exec.desc[dst] ∧ censusRecord (k.withWaiting w) set tid step = censusRecord k set tid step :=
    ⟨rfl, rfl⟩
  simp only [Core.censusOut, openWindow_withWaiting, hrecord.1, hrecord.2, scatterSpad_withWaiting]
  rfl

theorem censusOut_keeps (set dst : Fin 16) (tid : BitVec 24) (step : W32) (t : Nat) (k : Core) :
    let z := scatterSpad k k.exec.desc[dst] (censusRecord k set tid step)
    (k.censusOut set dst tid step t).spad = z.spad ∧ (k.censusOut set dst tid step t).spadPoison = z.spadPoison ∧
      (k.censusOut set dst tid step t).census = k.census.set set Census.reset ∧ (k.censusOut set dst tid step t).aq = k.aq ∧
      (k.censusOut set dst tid step t).eq = k.eq := by
  obtain ⟨hspad, hpoison⟩ := scatterSpad_spad (k.openWindow (.cenf set dst tid) (cenfPlan k dst t) t 0 none false) k k.exec.desc[dst]
    (censusRecord k set tid step) rfl rfl
  refine ⟨hspad, hpoison, ?_⟩
  unfold Core.censusOut
  rw [scatterSpad_frame]
  exact ⟨rfl, rfl, rfl⟩

/-- The consumption of a poisoned census record. -/
def consumeCensus (k : Core) (set dst : Fin 16) (c : CoreId) (s : State) : State :=
  if k.census[set].poison then consume s 1 (some c) k.exec.desc[dst].start.toNat else s

theorem consumeCensus_core (k : Core) (set dst : Fin 16) (c : CoreId) (s : State) : (consumeCensus k set dst c s).core c = s.core c := by
  unfold consumeCensus
  split
  · rw [State.core, consume_cores, State.core]
  · rfl

/-- A CENF on a core whose beats are counted is its effect on the core, and the consumption of the record's poison. -/
theorem doCenf_acts {s : State} {c : CoreId} (set dst : Fin 16) (tid : BitVec 24) {t : Nat} (h : (s.core c).flushBeats t = s.core c) :
    doCenf s c set dst tid t = passX (consumeCensus (s.core c) set dst c (s.updCore c (Core.censusOut set dst tid s.job.step t))) c t := by
  unfold doCenf
  rw [h]
  refine congrArg (passX · c t) ?_
  have hcore : ∀ K : Core, K = (s.core c).censusOut set dst tid s.job.step t →
      (s.updCore c fun _ => K) = s.updCore c (Core.censusOut set dst tid s.job.step t) := fun K hK => updCore_congr _ _ _ _ hK
  unfold consumeCensus
  split
  · exact congrArg (consume · 1 (some c) _) (hcore _ rfl)
  · exact hcore _ rfl

theorem exec_cenf_acts {s : State} {c : CoreId} {delta : W16} {set dst : Fin 16} {tid : BitVec 24} (h : s.mayIssue c delta (.cenf set dst tid)) :
    let t := s.issueCycle c delta
    let k := (s.core c).settled t
    execCommand s c delta (.cenf set dst tid) = passX (consumeCensus k set dst c (s.updCore c fun k =>
      (Core.censusOut set dst tid s.job.step t (k.settled t)).withWaiting [(delta, .cenf set dst tid)])) c t := by
  intro t k
  refine execCommand_acts h (fun u hu hrest => congrArg some ?_) (censusOut_withWaiting set dst tid s.job.step t)
    fun u => consumeCensus_core _ _ _ _ _
  have hflush : (u.core c).flushBeats t = u.core c := by
    rw [hu]
    exact congrArg (fun k : Core => k.withWaiting [(delta, .cenf set dst tid)]) (flushBeats_settled (s.core c) t)
  rw [doCenf_acts set dst tid hflush, show u.job = s.job by rw [hrest], hu]
  rfl

/-- Settles O23: an XPS writes its source transposed; a CENF writes the record of its census set and clears the set. -/
theorem xpsAndCenfComplete : Obligations.XpsAndCenfComplete := by
  intro s c delta t k
  refine ⟨fun f => ?_, fun set dst tid h => ?_⟩
  · intro a out h
    obtain ⟨t', hexec, honly, hshows⟩ := execCommand_alone (F := Core.transposed f t) h
      (fun u _ _ => congrArg some (doXps_acts u c f t)) (transposed_withWaiting f t)
    obtain ⟨haq, heq, heng, -⟩ := emits_keeps (k.openWindow (.xps f) (xpsPlan k f t) t 0 none false) f.dst out a.2 fun l =>
      { link := l, first := t + 5, count := (xpsBytes f + 511) / 512, per := 4096 / max 1 (eltBits f.fmt), fmt := f.fmt, elems := out,
        poison := a.2, early := 0, producer := k.exec.index, sampled := false }
    refine ⟨t', congrArg Host.Outcome.next hexec, honly, hshows.aq.trans haq, hshows.eq.trans heq, hshows.engines.trans heng,
      fun x hx => ?_, fun l hl => ?_⟩
    · obtain ⟨h1, h2⟩ := transposed_reg f t k hx
      exact ⟨hshows.spad.trans h1, hshows.spadPoison.trans h2⟩
    · obtain ⟨h1, h2⟩ := transposed_link f t k hl
      exact ⟨hshows.spad.trans h1, (congrArg List.getLast? hshows.trains).trans h2⟩
  · intro z bs
    have hexec := exec_cenf_acts h
    obtain ⟨hspad, hpoison, hcensus, haq, heq⟩ := censusOut_keeps set dst tid s.job.step t k
    have hshows : ((execCommand s c delta (.cenf set dst tid)).core c).shows (k.censusOut set dst tid s.job.step t) := by
      rw [hexec, passX_core, consumeCensus_core, core_updCore_same]
      exact passedX_shows _ _ _ _ _ _
    refine ⟨_, rfl, fun hz => ?_, hshows.spad.trans hspad, hshows.spadPoison.trans hpoison, hshows.census.trans hcensus,
      hshows.aq.trans haq, hshows.eq.trans heq, fun hz => ?_⟩
    · rw [hexec, consumeCensus, if_neg (by rw [hz]; decide)]
      exact onlyCore_passX _ _ _ _
    · rw [hexec, consumeCensus, if_pos hz]
      obtain ⟨hcount, hpoison⟩ := consume_counts (s.updCore c fun k =>
        (Core.censusOut set dst tid s.job.step t (k.settled t)).withWaiting [(delta, .cenf set dst tid)]) 1 (some c) k.exec.desc[dst].start.toNat
      exact ⟨hpoison, hcount⟩

end Sys2Proof.Machine
end

section
/-! SUPPORT. DRN: what a drain leaves of its core, and the tree it joins (R42, R87-R89). -/

namespace Sys2Proof.Machine

/-! DRN (R83, R87–R89). -/

/-- The values a drain takes from its slot, what its engine's lane makes of them, and the elements that leave. -/
def drnValues (k : Core) (f : DrnOp) : List Num :=
  (k.slotAt f.eng f.slot.toNat).acc.map fun x => (slotValue k.engines[f.eng].acc x).scale f.exp.toInt

def drnLane (f : DrnOp) : Fin 4 := ⟨f.eng.val, by omega⟩

def drnConv (k : Core) (seed : W64) (step : W32) (f : DrnOp) : List Conv × List Byte :=
  skive f.fmt f.axis k.engines[f.eng].m k.engines[f.eng].n f.rnd seed step k.lanes[drnLane f] (drnValues k f)

def drnBits (k : Core) (seed : W64) (step : W32) (f : DrnOp) : List W32 := (drnConv k seed step f).1.map (·.bits)

/-- The conversions counted into the census, with the tile's own clamping. -/
def drnCounted (k : Core) (seed : W64) (step : W32) (f : DrnOp) : List Conv :=
  ((drnConv k seed step f).1.zip (k.slotAt f.eng f.slot.toNat).acc).map fun x =>
    { x.1 with sat := x.1.sat || slotClamped k.engines[f.eng].acc x.2 }

/-- The slot of a drain after it: its tile, Owned or Draining until the last element has left (R42; the cycle toward a tree is the
model's choice, log entry 95). -/
def drnSlot (k : Core) (f : DrnOp) (own : Token) (t : Nat) : Slot :=
  { k.slotAt f.eng f.slot.toNat with
    st := if f.rel then .draining own (some (if 2 ≤ f.dest.toNat then t + drnBeats k f else t + drnLat k f t + drnBeats k f)) else .owned own }

/-- A core with a drain's elements counted, its scales written and its slot kept or released. -/
def Core.drnConverts (k : Core) (seed : W64) (step : W32) (f : DrnOp) (own : Token) (t : Nat) : Core :=
  (((k.openWindow (.drn f) (drnPlan k f t) t 0 none false).converts (drnLane f) f.cen f.set f.fmt
      (if 2 ≤ f.dest.toNat then t else t + drnLat k f t) 256 (drnValues k f) (drnCounted k seed step f)
      (k.slotAt f.eng f.slot.toNat).poison f.rnd (k.engines[f.eng].m * k.engines[f.eng].n)).writeScales f.sc (drnConv k seed step f).2
      (k.slotAt f.eng f.slot.toNat).poison).setSlot f.eng f.slot.toNat (drnSlot k f own t)

/-- The train a drain sends on a link. -/
def drnTrain (k : Core) (seed : W64) (step : W32) (f : DrnOp) (t : Nat) (l : Fin 4) : Train :=
  { link := l, first := t + drnLat k f t, count := drnBeats k f, per := 256, fmt := f.fmt, elems := drnBits k seed step f,
    poison := (k.slotAt f.eng f.slot.toNat).poison, early := if drnHalf k f t then 2 else 1, producer := k.exec.index, sampled := false }

/-- A tree half with a drain's elements. -/
def drnTreeHalf (k : Core) (seed : W64) (step : W32) (f : DrnOp) : Half :=
  { busy := true, drn := some f, data := drnBits k seed step f,
    poison := if (k.slotAt f.eng f.slot.toNat).poison then List.range ((k.engines[f.eng].m * k.engines[f.eng].n + 15) / 16) else [],
    pushDue := false, index := k.exec.index }

/-- What a drain leaves of its core. -/
def Core.drained (seed : W64) (step : W32) (f : DrnOp) (own : Token) (t : Nat) (k : Core) : Core :=
  let z := k.drnConverts seed step f own t
  match f.dest.toNat with
  | 0 => match z.xdesc f.out with | some d => writeElems z d (drnBits k seed step f) (k.slotAt f.eng f.slot.toNat).poison | none => z
  | 1 => match opnd f.out with | .link l => z.sends (drnTrain k seed step f t l) | _ => z
  | _ => { z with halves := z.halves.set (if f.half then 1 else 0 : Fin 2) (drnTreeHalf k seed step f),
                  overflow := z.overflow || (drnValues k f).any fun y => !y.isFinite }

/-- The tree a drain joins, of its cluster, with its elements. -/
def drnJoins (c : CoreId) (f : DrnOp) (index : Nat) (bits : List W32) (s : State) : State :=
  if 2 ≤ f.dest.toNat then
    { s with coll := { s.coll with treeSeq := s.coll.treeSeq + 1 },
             clusters := vmod s.clusters (clusterOf c) fun q => { q with trees := q.trees ++
               [{ core := c, drn := f, index := index, order := s.coll.treeSeq, half := f.half, taken := false, data := bits, poison := [] }] } }
  else s

theorem drnJoins_core (c : CoreId) (f : DrnOp) (index : Nat) (bits : List W32) (s : State) : (drnJoins c f index bits s).core c = s.core c := by
  unfold drnJoins
  split <;> rfl

theorem drnJoins_trees {c : CoreId} {f : DrnOp} (h : 2 ≤ f.dest.toNat) (index : Nat) (bits : List W32) (s : State) :
    (drnJoins c f index bits s).clusters[clusterOf c].trees = s.clusters[clusterOf c].trees ++
      [{ core := c, drn := f, index := index, order := s.coll.treeSeq, half := f.half, taken := false, data := bits, poison := [] }] := by
  simp [drnJoins, if_pos h, vmod]

/-- A drain of an Owned slot whose landing, if any, may be made is its effect on its core and its joining of a tree. -/
theorem doDrn_acts {s : State} {c : CoreId} {f : DrnOp} {own : Token} {t : Nat}
    (hslot : ((s.core c).slotAt f.eng f.slot.toNat).stateAt t = .owned own)
    (hland : f.dest = 4 → drnLandBad s f ((s.core c).engines[f.eng].m * (s.core c).engines[f.eng].n) = none) :
    doDrn s c f t = passX (drnJoins c f (s.core c).exec.index (drnBits (s.core c) (stepSeed s) s.job.step f)
      (s.updCore c (Core.drained (stepSeed s) s.job.step f own t))) c t := by
  have hbad : (if f.dest = 4 then drnLandBad s f ((s.core c).engines[f.eng].m * (s.core c).engines[f.eng].n) else none) = none := by
    split
    · exact hland ‹_›
    · rfl
  have hcore : ∀ K : Core, (s.core c).drained (stepSeed s) s.job.step f own t = K →
      (s.updCore c fun _ => K) = s.updCore c (Core.drained (stepSeed s) s.job.step f own t) := fun K hK => updCore_congr _ _ _ _ hK.symm
  simp only [doDrn, hslot, hbad]
  refine congrArg (passX · c t) ?_
  rw [hcore]
  · rfl
  · rfl

/-- A slot that an engine has reads as it was set. -/
theorem slotAt_setSlot {k : Core} {e : Fin 3} {n : Nat} (v : Slot) (h : n < k.engines[e].slots.length) :
    (k.setSlot e n v).slotAt e n = v := by
  have hn : n < k.engines[e.val].slots.length := h
  simp [Core.slotAt, Core.setSlot, vmod, modifyAt, hn]

section
variable (seed : W64) (step : W32) (f : DrnOp) (own : Token) (t : Nat) (k : Core) (w : List (W16 × XInstr))

theorem drnConverts_withWaiting : (k.withWaiting w).drnConverts seed step f own t = (k.drnConverts seed step f own t).withWaiting w := by
  unfold Core.drnConverts
  rw [openWindow_withWaiting, converts_withWaiting, writeScales_withWaiting]
  rfl

theorem drained_withWaiting : (k.withWaiting w).drained seed step f own t = (k.drained seed step f own t).withWaiting w := by
  unfold Core.drained
  dsimp only
  rw [drnConverts_withWaiting]
  split
  · rw [show ((k.drnConverts seed step f own t).withWaiting w).xdesc f.out = (k.drnConverts seed step f own t).xdesc f.out from rfl]
    split
    · exact writeElems_withWaiting _ _ _ _ _
    · rfl
  · split <;> rfl
  · rfl

/-- A drain's conversion keeps the queues, and advances its engine's lane; the slot is kept or released; the scales are written. -/
theorem drnConverts_keeps : (k.drnConverts seed step f own t).aq = k.aq ∧ (k.drnConverts seed step f own t).eq = k.eq ∧
    (k.drnConverts seed step f own t).lanes = k.lanes.set (drnLane f) (k.lanes[drnLane f].advance f.rnd
      (k.engines[f.eng].m * k.engines[f.eng].n)) ∧
    (k.drnConverts seed step f own t).engines = (k.setSlot f.eng f.slot.toNat (drnSlot k f own t)).engines ∧
    (k.drnConverts seed step f own t).exec.desc = k.exec.desc := by
  simp [Core.drnConverts, Core.setSlot]

theorem drnConverts_spad : let z := k.writeScales f.sc (drnConv k seed step f).2 (k.slotAt f.eng f.slot.toNat).poison
    (k.drnConverts seed step f own t).spad = z.spad ∧ (k.drnConverts seed step f own t).spadPoison = z.spadPoison :=
  writeScales_spad _ _ _ _ _ (by simp) (by simp) (by simp)

/-- A drain samples no train: the trains stay as they were. -/
theorem drnConverts_trains : (k.drnConverts seed step f own t).exec.trains = k.exec.trains := by
  have hopen : (k.openWindow (.drn f) (drnPlan k f t) t 0 none false).exec.trains = k.exec.trains := by
    simp [Core.openWindow, drnPlan]
  simp only [Core.drnConverts, Core.setSlot, writeScales_keeps, converts_keeps, hopen]

theorem drained_keeps : (k.drained seed step f own t).aq = k.aq ∧ (k.drained seed step f own t).eq = k.eq ∧
    (k.drained seed step f own t).lanes = k.lanes.set (drnLane f) (k.lanes[drnLane f].advance f.rnd
      (k.engines[f.eng].m * k.engines[f.eng].n)) ∧
    (k.drained seed step f own t).engines = (k.setSlot f.eng f.slot.toNat (drnSlot k f own t)).engines := by
  obtain ⟨haq, heq, hlanes, heng, -⟩ := drnConverts_keeps seed step f own t k
  rw [← haq, ← heq, ← hlanes, ← heng]
  unfold Core.drained
  dsimp only
  split
  · split
    · simp
    · exact ⟨rfl, rfl, rfl, rfl⟩
  · split <;> exact ⟨rfl, rfl, rfl, rfl⟩
  · exact ⟨rfl, rfl, rfl, rfl⟩

variable {f}

theorem drained_reg {r : Fin 16} (hdest : f.dest = 0) (hout : opnd f.out = .reg r) :
    let z := writeElems (k.writeScales f.sc (drnConv k seed step f).2 (k.slotAt f.eng f.slot.toNat).poison) k.exec.desc[r]
      (drnBits k seed step f) (k.slotAt f.eng f.slot.toNat).poison
    (k.drained seed step f own t).spad = z.spad ∧ (k.drained seed step f own t).spadPoison = z.spadPoison := by
  obtain ⟨-, -, -, -, hdesc⟩ := drnConverts_keeps seed step f own t k
  obtain ⟨hspad, hpoison⟩ := drnConverts_spad seed step f own t k
  have hx : (k.drnConverts seed step f own t).xdesc f.out = some k.exec.desc[r] := by
    simp only [Core.xdesc, hout, hdesc]
  have hzero : f.dest.toNat = 0 := by rw [hdest]; rfl
  simp only [Core.drained, hzero, hx]
  exact writeElems_spad _ _ _ _ _ hspad hpoison

theorem drained_link {l : Fin 4} (hdest : f.dest = 1) (hout : opnd f.out = .link l) :
    k.drained seed step f own t = (k.drnConverts seed step f own t).sends (drnTrain k seed step f t l) := by
  have hone : f.dest.toNat = 1 := by rw [hdest]; rfl
  simp only [Core.drained, hone, hout]

theorem drained_half (hdest : 2 ≤ f.dest.toNat) :
    (k.drained seed step f own t).halves[(if f.half then 1 else 0 : Fin 2)] = drnTreeHalf k seed step f := by
  unfold Core.drained
  split
  · omega
  · omega
  · simp

end

/-- Settles O19: a drain is its effect on its core and its joining of a tree. That the release toward a tree or a landing comes at the
issue cycle and the beats alone is the model's choice (log entry 95). -/
theorem drnCompletes : Obligations.DrnCompletes := by
  intro s c delta f own t k e v lane L B cv bits h hlen hslot hland
  have hexec := execCommand_acts (F := Core.drained (stepSeed s) s.job.step f own t)
    (r := drnJoins c f k.exec.index (drnBits k (stepSeed s) s.job.step f)) h (fun u hu hrest => congrArg some ?_)
    (drained_withWaiting (stepSeed s) s.job.step f own t) (drnJoins_core _ _ _ _)
  · have hshows : ((execCommand s c delta (.drn f)).core c).shows (k.drained (stepSeed s) s.job.step f own t) := by
      rw [hexec, passX_core, drnJoins_core, core_updCore_same]
      exact passedX_shows _ _ _ _ _ _
    obtain ⟨haq, heq, hlanes, heng⟩ := drained_keeps (stepSeed s) s.job.step f own t k
    refine ⟨_, rfl, hshows.aq.trans haq, hshows.eq.trans heq, ?_, hshows.lanes.trans hlanes, fun hdest => ?_, fun r hdest hout => ?_,
      fun l hdest hout => ?_, fun hdest => ⟨?_, ?_⟩⟩
    · refine Eq.trans ?_ (slotAt_setSlot (drnSlot k f own t) hlen)
      unfold Core.slotAt
      rw [← heng, ← hshows.engines]
    · rw [hexec, drnJoins, if_neg (by omega)]
      exact onlyCore_passX _ _ _ _
    · obtain ⟨h1, h2⟩ := drained_reg (stepSeed s) s.job.step own t k hdest hout
      exact ⟨hshows.spad.trans h1, hshows.spadPoison.trans h2⟩
    · refine hshows.trains.trans ?_
      rw [drained_link _ _ _ _ _ hdest hout, Core.sends, drnConverts_trains]
      rfl
    · exact (congrArg (·[(if f.half then 1 else 0 : Fin 2)]) hshows.halves).trans (drained_half (stepSeed s) s.job.step own t k hdest)
    · change (execCommand s c delta (.drn f)).clusters[clusterOf c].trees = _
      rw [hexec]
      exact drnJoins_trees hdest _ _ _
  · have hcore : u.core c = k.withWaiting [(delta, .drn f)] := hu
    have hbad : f.dest = 4 → drnLandBad u f ((u.core c).engines[f.eng].m * (u.core c).engines[f.eng].n) = none := by
      rw [hcore, hrest]
      exact hland
    rw [doDrn_acts (own := own) (by rw [hcore]; exact hslot) hbad, hcore]
    have hseed : stepSeed u = stepSeed s := by rw [hrest]; rfl
    have hjob : u.job = s.job := by rw [hrest]
    rw [hseed, hjob]
    rfl

end Sys2Proof.Machine
end

section
/-! SUPPORT. CHAIN_SLIP: what the head of a free execute stream comes to when a timing or link check fails (R38, R84). -/

namespace Sys2Proof.Machine

/-- The state in which one instruction waits at a core's free execute stream. -/
def State.offeredX (s : State) (c : CoreId) (w : W16 × XInstr) : State := s.updCore c fun k => k.withWaiting [w]

section
variable {s : State} {c : CoreId} {delta : W16} {i : XInstr}

/-- What the head of a free execute stream comes to in its cycle is the command, where the stream is then free or stopped. -/
theorem execCommand_tried {t : State} (hrun : (s.core c).running.isSome = true) (hgo : (s.core c).exec.stopped = false)
    (hwait : (s.core c).exec.waiting = []) (e : tryX (s.offeredX c (delta, i)) c delta i = some t)
    (w : (t.core c).exec.waiting = [] ∨ (t.core c).exec.stopped = true) : execCommand s c delta i = t := by
  have hup : (s.core c).running.isSome && !(s.core c).exec.stopped := by rw [hrun, hgo]; rfl
  have hoffer : (updExec s c fun x => { x with waiting := x.waiting ++ [(delta, i)] }) = s.offeredX c (delta, i) :=
    updCore_congr _ _ _ _ (by simp only [hwait]; rfl)
  have hcore : (s.offeredX c (delta, i)).core c = (s.core c).withWaiting [(delta, i)] := core_updCore_same _ _ _
  have hgo' : ((s.core c).withWaiting [(delta, i)]).exec.stopped = false := hgo
  unfold execCommand
  dsimp only
  rw [if_pos hup, hoffer, advanceXAll, hcore]
  change advanceX 2 (s.offeredX c (delta, i)) c = t
  simp only [advanceX, hcore, hgo', Bool.false_eq_true, if_false]
  change (match tryX (s.offeredX c (delta, i)) c delta i with | none => _ | some t => _) = t
  rw [e]
  rcases w with w | w <;> simp [w]

/-- A stream whose beat went by unsampled slips in its next instruction's cycle. -/
theorem tryX_late {p : Slip} (h : lateSlip (s.core c) (s.issueCycle c delta) = some p) :
    tryX (s.offeredX c (delta, i)) c delta i = some (slipFault (s.offeredX c (delta, i)) c p) := by
  have hcore : (s.offeredX c (delta, i)).core c = (s.core c).withWaiting [(delta, i)] := core_updCore_same _ _ _
  have hlate : lateSlip ((s.offeredX c (delta, i)).core c) (((s.offeredX c (delta, i)).core c).exec.base + delta.toNat) = some p := by
    rw [hcore]
    exact h
  simp only [tryX, hlate]

/-- An instruction that passes the checks before its timing and fails one of timing slips, or runs on with the mismatch kept. -/
theorem tryX_slips {p : Slip} (hlate : lateSlip (s.core c) (s.issueCycle c delta) = none)
    (hheld : drnHeld ((s.core c).settled (s.issueCycle c delta)) i = false)
    (hspad : xSpadCause s ((s.core c).settled (s.issueCycle c delta)) i
      (xPlan ((s.core c).settled (s.issueCycle c delta)) i (s.issueCycle c delta)) = none)
    (hslip : timingSlip ((s.core c).settled (s.issueCycle c delta)) i
      (xPlan ((s.core c).settled (s.issueCycle c delta)) i (s.issueCycle c delta)) (s.issueCycle c delta) = some p) :
    let u := s.updCore c fun k => k.atHead (s.issueCycle c delta) delta i
    tryX (s.offeredX c (delta, i)) c delta i =
      if p.cycle ≤ s.issueCycle c delta then some (slipFault u c p)
      else runX (updExec u c fun e => { e with due := e.due ++ [p] }) c i (s.issueCycle c delta) := by
  intro u
  have hcore : (s.offeredX c (delta, i)).core c = (s.core c).withWaiting [(delta, i)] := core_updCore_same _ _ _
  have hu : u.core c = ((s.core c).settled (s.issueCycle c delta)).withWaiting [(delta, i)] := core_updCore_same _ _ _
  have hcycle : ((s.offeredX c (delta, i)).core c).exec.base + delta.toNat = s.issueCycle c delta := by rw [hcore]; rfl
  have hsettle : ((s.offeredX c (delta, i)).updCore c fun k => { k.flushBeats (s.issueCycle c delta) with
      exec := (k.flushBeats (s.issueCycle c delta)).exec.prune (s.issueCycle c delta) }) = u := updCore_updCore _ _ _ _
  have hplan : ∀ (k : Core) w, xPlan (k.withWaiting w) i (s.issueCycle c delta) = xPlan k i (s.issueCycle c delta) := by
    intro k w
    cases i <;> rfl
  have hspad' : ∀ p, xSpadCause u (((s.core c).settled (s.issueCycle c delta)).withWaiting [(delta, i)]) i p =
      xSpadCause s ((s.core c).settled (s.issueCycle c delta)) i p := by
    intro p
    cases i <;> rfl
  have hlate' : lateSlip ((s.offeredX c (delta, i)).core c) (s.issueCycle c delta) = none := by
    rw [hcore]
    exact hlate
  have hheld' : drnHeld (((s.core c).settled (s.issueCycle c delta)).withWaiting [(delta, i)]) i = false := hheld
  have hslip' : timingSlip (((s.core c).settled (s.issueCycle c delta)).withWaiting [(delta, i)]) i
      (xPlan ((s.core c).settled (s.issueCycle c delta)) i (s.issueCycle c delta)) (s.issueCycle c delta) = some p := hslip
  simp only [tryX, hcycle, hlate', hsettle, hu, hplan, hheld', hspad', hspad, hslip', Bool.false_eq_true, if_false]

/-- The record of a slip, from a state whose core and log are as they were but for what waits and what time has settled. -/
theorem slipFault_faultOf {u : State} (p : Slip) (hfresh : u.unfaulted c) (hheads : u.coreRecord c = s.coreRecord c) (hflt : u.flt = s.flt)
    (hglb : u.glb = s.glb) (hmem : u.mem = s.mem) : ∃ r, (slipFault u c p).mem = s.mem ∧ s.faultOf (slipFault u c p) c r ∧ r.code = codeChainSlip ∧
      r.cause = BitVec.ofNat 8 p.cause ∧ r.source = 1 ∧ r.instr = BitVec.ofNat 16 p.index ∧ r.opcode = BitVec.ofNat 8 p.opcode ∧
      r.offset = BitVec.ofInt 8 (max (-128) (min 127 p.offset)) ∧ r.cycle = BitVec.ofNat 32 p.cycle ∧ r.other = BitVec.ofNat 16 p.other := by
  refine ⟨_, (streamFaultAt_mem u c _ _ hfresh).trans hmem,
    faultOf_of_core s u _ c _ (streamFaultAt_faultOf u c _ _ hfresh) (congrFun hheads _) hflt hglb, rfl, rfl, rfl, rfl, rfl, rfl, rfl, rfl⟩

end

/-- Settles O18: a slip whose cycle has come is the fault of its record; that a mismatch still to come is kept, and the instruction runs on
until then, is the model's choice (log entry 36). -/
theorem chainSlips : Obligations.ChainSlips := by
  intro s c delta i p hrun hgo hwait t k slips
  have hcommand : exec (i.command c delta) s = .next (execCommand s c delta i) := by cases i <;> rfl
  rw [hcommand]
  refine ⟨fun hfresh hcase => ?_, fun hslips hdue t' hrunX hfree => ?_⟩
  · obtain ⟨F, htry, hrec, hcore⟩ : ∃ F, tryX (s.offeredX c (delta, i)) c delta i = some (slipFault (s.updCore c F) c p) ∧
        (s.updCore c F).coreRecord c = s.coreRecord c ∧ (F (s.core c)).faulted = (s.core c).faulted := by
      rcases hcase with ⟨⟨hlate, hheld, hspad, hslip⟩, hcycle⟩ | hlate
      · refine ⟨fun k => k.atHead t delta i, (tryX_slips hlate hheld hspad hslip).trans (if_pos hcycle), ?_, rfl⟩
        unfold State.coreRecord
        rw [core_updCore_same]
        rfl
      · refine ⟨fun k => k.withWaiting [(delta, i)], tryX_late hlate, ?_, rfl⟩
        unfold State.coreRecord
        rw [core_updCore_same]
        rfl
    have hunf : (s.updCore c F).unfaulted c := ⟨by rw [core_updCore_same, hcore]; exact hfresh.core, hfresh.aborting, hfresh.quiescing⟩
    obtain ⟨r, hmem, hfault, hfields⟩ := slipFault_faultOf p hunf hrec rfl rfl rfl
    exact ⟨_, r, congrArg Host.Outcome.next (execCommand_tried hrun hgo hwait htry (.inr hfault.stopped.2.2)), hmem, hfault, hfields⟩
  · obtain ⟨hlate, hheld, hspad, hslip⟩ := hslips
    have htry := (tryX_slips hlate hheld hspad hslip).trans (if_neg (not_le.2 hdue))
    have hkept : (updExec (s.updCore c fun k => k.atHead t delta i) c fun e => { e with due := e.due ++ [p] }) =
        s.updCore c fun _ => { k with exec := { k.exec with waiting := [(delta, i)], due := k.exec.due ++ [p] } } :=
      (updCore_updCore _ _ _ _).trans (updCore_congr _ _ _ _ rfl)
    refine congrArg Host.Outcome.next (execCommand_tried hrun hgo hwait (htry.trans ?_) hfree)
    rw [hkept]
    exact hrunX

end Sys2Proof.Machine
end

section
/-! SUPPORT. Trees: halves taken and released, chip-tree operations finished, sums accepted, budgets expired (R89-R91). -/

namespace Sys2Proof.Machine

/-! ## What a tree's pushes leave of a core -/

section
variable {k : Core}

theorem pushPart_room {q : Fin 4} (t : Token) (h : k.aq[q].length < 16) :
    k.pushPart q t = ({ k with aq := k.aq.set q (k.aq[q] ++ [{ token := t, base := 0, length := 0 }]) }, true) := by
  rw [Core.pushPart, if_neg (not_le.2 h)]
  rfl

/-- A half whose queue has room is released: its token is pushed, and the half is free (R89). -/
theorem releaseHalf_room {h : Fin 2} {f : DrnOp} (hdrn : k.halves[h].drn = some f) (hroom : k.aq[f.q].length < 16) :
    k.releaseHalf h = k.released h f := by
  simp only [Core.releaseHalf, hdrn, pushPart_room f.rtok hroom, if_true]
  rfl

/-- The one TACC that waits pushes its accept token into a queue with room, and waits no longer (R90). -/
theorem acceptToken_room {w : TaccWait} (htaccs : k.taccs = [w]) (hroom : k.aq[w.f.q].length < 16) :
    k.acceptToken w = { k with aq := k.aq.set w.f.q (k.aq[w.f.q] ++ [{ token := w.f.atok, base := 0, length := 0 }]), taccs := [] } := by
  have hgone : k.taccs.filter (· ≠ w) = [] := by rw [htaccs]; simp
  simp only [Core.acceptToken, pushPart_room w.f.atok hroom, hgone, if_true]

end

theorem orOverflow_eq (s : State) (o : Bool) : orOverflow s o = { s with job := { s.job with overflow := s.job.overflow || o } } := by
  cases o <;> simp [orOverflow]

section
variable {s : State} {c : CoreId} {half : Bool} {f : DrnOp} {op : Byte}

/-- A busy half is taken: one of destination 2 or 3 is released, and all but one of destination 2 may finish a chip-tree operation. -/
theorem halfTaken_busy (hdrn : (s.core c).halves[(if half then 1 else 0 : Fin 2)].drn = some f)
    (hbusy : (s.core c).halves[(if half then 1 else 0 : Fin 2)].busy = true)
    (hroom : f.dest = 2 ∨ f.dest = 3 → (s.core c).aq[f.q].length < 16) :
    let u := if f.dest = 2 ∨ f.dest = 3 then (s.tookHalf c half).updCore c fun k => k.released (if half then 1 else 0) f else s.tookHalf c half
    halfTaken s c half = if f.dest = 2 then u else chipFinish u f.op := by
  intro u
  have hrelease : f.dest = 2 ∨ f.dest = 3 → ((s.tookHalf c half).updCore c fun k => k.releaseHalf (if half then 1 else 0)) = u := by
    intro hdest
    simp only [u, if_pos hdest]
    exact updCore_congr _ _ _ _ (releaseHalf_room hdrn (hroom hdest))
  have htaken : halfTaken s c half =
      if f.dest = 2 then (s.tookHalf c half).updCore c fun k => k.releaseHalf (if half then 1 else 0)
      else if f.dest = 3 then chipFinish ((s.tookHalf c half).updCore c fun k => k.releaseHalf (if half then 1 else 0)) f.op
      else chipFinish (s.tookHalf c half) f.op := by
    simp only [halfTaken, hdrn, hbusy, if_true]
    rfl
  rw [htaken]
  by_cases h2 : f.dest = 2
  · rw [if_pos h2, if_pos h2, hrelease (.inl h2)]
  · by_cases h3 : f.dest = 3
    · rw [if_neg h2, if_neg h2, if_pos h3, hrelease (.inr h3)]
    · rw [if_neg h2, if_neg h2, if_neg h3]
      simp only [u, if_neg (not_or.2 ⟨h2, h3⟩)]

theorem chipFinish_incomplete {x : Contribution} (hx : firstPart (chipParts s op) = some x) (hc : chipComplete s op x.drn = false) :
    chipFinish s op = s := by
  simp only [chipFinish, hx, hc, Bool.false_eq_true, if_false]

/-- The landing of a complete chip-tree operation of destination 4 (R130, R132). -/
def treeLanding (ps : List Contribution) (op : Byte) (x : Contribution) (data : List PElem) : Landing :=
  { source := .drain x.core x.index op (ps.map fun y => (y.core, y.half)), group := x.drn.commGroup, mb := x.drn.chunkMb.toNat,
    first := x.drn.offset.toNat, data := data, refused := false }

/-- The operation that a complete chip-tree operation of destination 3 gives the collective engine (R127). -/
def treeRun (x : Contribution) (data : List PElem) : CollRun :=
  { id := 0, core := x.core, seq := 0, comm := x.drn.commGroup.setWidth 10, op := 0, chunk := x.drn.chunkMb.toNat, nchunks := 1,
    param := 0, drain := true, fmt := 0, dst := Desc.reset, buf := [data], terms := [], got := [], counts := [], phase := 0, started := false,
    left := 0, fenced := [] }

/-- A complete chip-tree operation hands its sum on. -/
theorem chipFinish_complete {x : Contribution} {data : List PElem} {ov : Bool} (hx : firstPart (chipParts s op) = some x)
    (hc : chipComplete s op x.drn = true) (hsum : chipSum s op x.drn = (some data, ov)) :
    let v := dropParts s (chipParts s op)
    let v1 : State := { v with job := { v.job with overflow := v.job.overflow || ov } }
    chipFinish s op = if x.drn.dest = 4 then
        { v1 with upd := { v1.upd with landings := v1.upd.landings ++ [treeLanding (chipParts s op) op x data] } }
      else newRun v1 (treeRun x data) := by
  intro v v1
  simp only [chipFinish, hx, hc, hsum, orOverflow_eq, if_true]
  rfl

end

/-- Settles O24: a busy half is taken and released, and a complete chip-tree operation hands its sum on. -/
theorem treeHalvesTaken : Obligations.TreeHalvesTaken := by
  intro s c half f h u hdrn hbusy hroom
  have htaken : halfTaken s c half = if f.dest = 2 then u else chipFinish u f.op := halfTaken_busy hdrn hbusy hroom
  refine ⟨fun hdest => ?_, fun x hdest hx hc => ?_, fun x data ov hdest hx hc hsum => ?_⟩
  · exact congrArg Host.Outcome.next (htaken.trans (if_pos hdest))
  · exact congrArg Host.Outcome.next (htaken.trans ((if_neg hdest).trans (chipFinish_incomplete hx hc)))
  · intro v
    have hfinish := htaken.trans ((if_neg hdest).trans (chipFinish_complete hx hc hsum))
    refine ⟨fun h4 => congrArg Host.Outcome.next (hfinish.trans (if_pos h4)), fun h4 => ?_⟩
    exact ⟨_, _, congrArg Host.Outcome.next (hfinish.trans (if_neg h4)), rfl, rfl, rfl, rfl, rfl, rfl, rfl⟩

/-- A complete cluster-tree sum reaches the slot of the one TACC that waits for it (R90). -/
theorem sumArrives_complete {s : State} {c : CoreId} {w : TaccWait} {x : Contribution} {sum : List PElem} {ov : Bool}
    (htaccs : (s.core c).taccs = [w]) (hdue : w.pushDue = false) (hx : firstPart (treeParts s (clusterOf c) w.f.op false) = some x)
    (hc : treeComplete (treeParts s (clusterOf c) w.f.op false) x.drn.mmask = true) (hrecv : x.drn.recv.val = memberOf c)
    (hsum : clusterSum (treeParts s (clusterOf c) w.f.op false) = (some sum, ov)) :
    let k := s.core c
    let v := k.slotAt w.f.eng w.f.slot.toNat
    sumArrives s c w.f.op = (orOverflow (dropTree s (clusterOf c) w.f.op false) ov).updCore c fun _ =>
      (k.setSlot w.f.eng w.f.slot.toNat
        { v with st := .owned w.f.own, acc := acceptSum k.engines[w.f.eng].acc (!w.f.cont) v.acc (sum.map (·.1)),
                 poison := sum.any (·.2) || (w.f.cont && v.poison) }).acceptToken w := by
  intro k v
  have hfind : (s.core c).taccs.find? (fun y => y.f.op = w.f.op && !y.pushDue) = some w := by
    rw [htaccs]
    simp [hdue]
  simp only [sumArrives, hfind, hx, hc, hrecv, hsum, Bool.true_and, decide_true, if_true]
  rfl

/-- Settles O25: the sum is accepted into the slot of the TACC that waits, whose accept token is pushed. -/
theorem treeSumsArrive : Obligations.TreeSumsArrive := by
  intro s c w x sum ov ps k htaccs hdue hroom hx hc hrecv hsum v u
  refine congrArg Host.Outcome.next ((sumArrives_complete htaccs hdue hx hc hrecv hsum).trans ?_)
  rw [orOverflow_eq]
  exact updCore_congr _ _ _ _ (acceptToken_room htaccs hroom)

section
variable {s : State} {c : CoreId} {op : Byte} {elapsed : W32}

/-- The fault of a stream of the core, raised now. -/
theorem streamFault_faultOf (r : Record) (h : s.unfaulted c) : s.faultOf (streamFault s c r) c r := streamFaultAt_faultOf s c _ r h

/-- A landing still refused when its tree's budget expires is given up, and its core stalls (R91, R150). -/
theorem refusedStall_drain {l : Landing} {d : CoreId} {i : Nat} {hs : List (CoreId × Bool)} (hl : s.upd.landings = [l]) (hr : l.refused = true)
    (hsource : l.source = .drain d i op hs) :
    refusedStall s op elapsed = streamFault { s with upd := { s.upd with landings := [] } } d (treeStall i 0x18 8 elapsed []) := by
  simp [refusedStall, hl, hr, hsource]

end

/-- Settles O26: the expiry is a stall of the core that waits, or of the core that contributed first; that a landing still refused for room
stalls as well, and is given up, is the model's choice (log entry 85). -/
theorem treeBudgetStalls : Obligations.TreeBudgetStalls := by
  intro s c op elapsed
  refine ⟨fun w htaccs hop hdue hfresh => ?_, fun x hx hfresh => ?_, fun l d i hs hnone hl hr hsource hfresh => ?_⟩
  · intro ps
    have hfind : (s.core c).taccs.find? (fun w => w.f.op = op && !w.pushDue) = some w := by
      rw [htaccs]
      simp [hop, hdue]
    refine ⟨_, ?_, streamFault_faultOf _ hfresh⟩
    simp only [exec, execTreeBudgetExpiry, hfind, Bool.false_eq_true, if_false]
    rfl
  · refine ⟨_, ?_, streamFault_faultOf _ hfresh⟩
    simp only [exec, execTreeBudgetExpiry, hx, if_true]
  · have hfresh' : State.unfaulted { s with upd := { s.upd with landings := [] } } d := ⟨hfresh.core, hfresh.aborting, hfresh.quiescing⟩
    refine ⟨_, ?_, faultOf_of_core s _ _ d _ (streamFault_faultOf _ hfresh') rfl rfl rfl, ?_⟩
    · have hnone' : firstPart (chipParts s op) = none := by rw [hnone]; rfl
      simp only [exec, execTreeBudgetExpiry, hnone', refusedStall_drain hl hr hsource, if_true]
    · obtain ⟨C, k, fr, q, j, fl, hh, o, e⟩ := streamFaultAt_frame _ d
        (State.core { s with upd := { s.upd with landings := [] } } d).exec.cycle (treeStall i 0x18 8 elapsed []) hfresh'
      rw [streamFault, e]

end Sys2Proof.Machine
end

section
/-! SUPPORT. The start of a segment, and the dispatcher's choice (R36, R40, R45, R55, R71, R97, R166, R307, R337). -/

namespace Sys2Proof.Machine

/-! ## The start of a segment -/

section
variable {s : State} {c : CoreId} {i : Nat} {g : Segment}

/-- The first dispatch of a job completes its START, and the module is RUNNING (R307); nothing else changes. -/
theorem jobStarts_does (s : State) : ∃ h, jobStarts s = { s with hlk := h, job := { s.job with startRing := none } } ∧
    (s.job.startRing.isSome = true → h.state = .running) := by
  unfold jobStarts
  split
  · exact ⟨_, rfl, fun _ => rfl⟩
  · rename_i hnone
    refine ⟨s.hlk, ?_, ?_⟩
    · rw [← hnone]
    · rw [hnone]
      exact fun h => absurd h (by decide)

/-- A started segment stands as R36, R40, R55, R71 and R97 say. -/
theorem startSegment_starts : s.segmentStarts (startSegment s c i g) c i g ∧ (startSegment s c i g).pwr = s.pwr := by
  obtain ⟨h, hjob, hrunning⟩ := jobStarts_does (s.updCore c fun k => k.startSegment i g (defaultBudget s))
  have hstart : startSegment s c i g = { s.updCore c (fun k => k.startSegment i g (defaultBudget s)) with
      hlk := h, job := { s.job with startRing := none } } := hjob
  have hcore : (startSegment s c i g).core c = (s.core c).startSegment i g (defaultBudget s) := by
    rw [hstart]
    exact core_updCore_same s c _
  refine ⟨⟨?_, fun q => ?_, fun x => ?_, fun l => ?_, ?_, fun e => ?_, ?_, ?_, fun d hd => ?_, ?_⟩, by rw [hstart]; rfl⟩
  · rw [hcore]
    exact ⟨rfl, rfl, rfl⟩
  · rw [hcore]
    simp [Core.startSegment, Core.fresh]
  · rw [hcore]
    simp [Core.startSegment, Core.fresh, Access.reset, Execute.reset, Desc.reset]
  · rw [hcore]
    simp [Core.startSegment, Core.fresh, blankLane]
  · rw [hcore]
    rfl
  · rw [hcore]
    simp [Core.startSegment, engineOf, slotCount]
  · rw [hcore]
    exact ⟨rfl, rfl, rfl⟩
  · rw [hstart]
    exact ⟨rfl, hrunning⟩
  · rw [hstart]
    exact core_updCore_ne s c d _ hd
  · exact ⟨_, _, _, _, hstart⟩

/-- A class-3 segment held in RED is counted once a step (R337, R341). -/
theorem hold3_does (s : State) (c : CoreId) (i : Nat) : ∃ l, hold3 s c i =
    { s.updCore c (fun k => { k with held3 := true, heldCounted := l }) with
      pwr := { s.pwr with class3Held := s.pwr.class3Held + if (s.core c).heldCounted.contains i then 0 else 1 } } ∧ i ∈ l := by
  unfold hold3
  dsimp only
  split
  · rename_i hcounted
    exact ⟨(s.core c).heldCounted, by simp [State.updCore, vmod, State.core], by simpa using hcounted⟩
  · rename_i hcounted
    refine ⟨i :: (s.core c).heldCounted, ?_, List.mem_cons_self ..⟩
    rw [updCore_updCore]
    simp [State.updCore, vmod, State.core, bump]

/-- An update segment starts with its pass, which leaves the queue (R166). -/
theorem startUpdate_does (s : State) (c : CoreId) (p : Pass) :
    ((startUpdate s c p).core c).running.isSome = true ∧ ((startUpdate s c p).core c).updating = some p ∧
      (startUpdate s c p).upd.queue = s.upd.queue.filter (· ≠ p) ∧ (startUpdate s c p).mem = s.mem ∧
      ∀ d, d ≠ c → (startUpdate s c p).core d = s.core d := by
  have hcore : (startUpdate s c p).core c =
      { (s.core c).fresh (defaultBudget s) with running := some 16384, segment := s.draw.1.setWidth 16, updating := some p } :=
    core_updCore_same s.draw.2 c _
  rw [hcore]
  exact ⟨rfl, rfl, rfl, rfl, fun d hd => core_updCore_ne s.draw.2 c d _ hd⟩

end

/-! ## The dispatcher's choice (R337) -/

section
variable {s : State} {c : CoreId} {g : Nat × Segment}

theorem dispatch_update {p : Pass} (h : firstPass (readyUpdates s c) = some p) : dispatch s c = startUpdate s c p := by
  simp only [dispatch, h]

/-- In GREEN, the lowest ready segment. -/
theorem dispatch_green (hup : readyUpdates s c = []) (hroom : headroom s = 0) (hg : (readySegments s c).head? = some g) :
    dispatch s c = startSegment s c g.1 g.2 := by
  have hfirst : firstPass (readyUpdates s c) = none := by rw [hup]; rfl
  simp only [dispatch, hfirst, hroom, if_true, hg]

theorem dispatch_low (hup : readyUpdates s c = []) (hroom : headroom s ≠ 0)
    (hg : (readySegments s c).find? (fun x => x.2.cls.toNat ≤ 1) = some g) : dispatch s c = startSegment s c g.1 g.2 := by
  have hfirst : firstPass (readyUpdates s c) = none := by rw [hup]; rfl
  simp only [dispatch, hfirst, hroom, if_false, hg]

theorem find?_none_of_forall {l : List (Nat × Segment)} {n : Nat} (h : ∀ x ∈ l, ¬ x.2.cls.toNat ≤ n) :
    l.find? (fun x => x.2.cls.toNat ≤ n) = none := by
  simpa using h

/-- With none of class 0 or 1, the lowest of class 2. -/
theorem dispatch_two (hup : readyUpdates s c = []) (hroom : headroom s ≠ 0) (hlow : ∀ x ∈ readySegments s c, ¬ x.2.cls.toNat ≤ 1)
    (hg : (readySegments s c).find? (fun x => x.2.cls = 2) = some g) : dispatch s c = startSegment s c g.1 g.2 := by
  have hfirst : firstPass (readyUpdates s c) = none := by rw [hup]; rfl
  have htwo : (readySegments s c).find? (fun x => x.2.cls.toNat ≤ 2) = some g := by
    rw [← hg]
    refine List.find?_congr fun x hx => ?_
    have hx := hlow x hx
    simp only [decide_eq_decide, BitVec.toNat_eq]
    simp
    omega
  simp only [dispatch, hfirst, hroom, if_false, find?_none_of_forall hlow, htwo]

theorem dispatch_three (hup : readyUpdates s c = []) (hroom : headroom s ≠ 0) (hlow : ∀ x ∈ readySegments s c, ¬ x.2.cls.toNat ≤ 2)
    (hg : (readySegments s c).head? = some g) :
    dispatch s c = if headroom s = 1 then startSegment s c g.1 g.2 else hold3 s c g.1 := by
  have hfirst : firstPass (readyUpdates s c) = none := by rw [hup]; rfl
  have hone : ∀ x ∈ readySegments s c, ¬ x.2.cls.toNat ≤ 1 := fun x hx h => hlow x hx (h.trans (by decide))
  simp only [dispatch, hfirst, hroom, if_false, find?_none_of_forall hlow, find?_none_of_forall hone, hg]

end

/-- Settles O27: the dispatcher's choice is R337's; that a ready update segment comes first of class 0 is the model's choice (log entry 16). -/
theorem segmentsDispatched : Obligations.SegmentsDispatched := by
  refine ⟨fun s c hfree => ?_, fun s c g rest hfree hheld hup hrs hcls => ?_⟩
  · intro rs
    have hexec : exec (.segmentDispatch c) s = .next (dispatch s c) := congrArg Host.Outcome.next (if_pos hfree)
    rw [hexec]
    refine ⟨fun g hup hcase => ⟨_, rfl, ?_⟩, fun g hup hroom hlow hg => ⟨_, rfl, ?_⟩, fun p hp => ⟨_, rfl, ?_⟩⟩
    · have hstart : dispatch s c = startSegment s c g.1 g.2 := by
        rcases hcase with ⟨hroom, hg⟩ | ⟨hroom, hg⟩ | ⟨hroom, hlow, hg⟩ | ⟨hroom, hlow, hg⟩
        · exact dispatch_green hup hroom hg
        · exact dispatch_low hup hroom hg
        · exact dispatch_two hup hroom hlow hg
        · rw [dispatch_three hup (by omega) hlow hg, if_pos hroom]
      rw [hstart]
      exact startSegment_starts
    · have hhold : dispatch s c = hold3 s c g.1 := by rw [dispatch_three hup (by omega) hlow hg, if_neg (by omega)]
      obtain ⟨l, hdoes, hmem⟩ := hold3_does s c g.1
      have hnone : (s.core c).running = none := by
        simp only [coreFree, Bool.and_eq_true, Option.isNone_iff_eq_none] at hfree
        exact hfree.1.2
      have hcore : (hold3 s c g.1).core c = { s.core c with held3 := true, heldCounted := l } := by
        rw [hdoes]
        exact core_updCore_same s c _
      rw [hhold, hcore]
      refine ⟨hnone, rfl, by rw [hdoes]; rfl, by rw [hdoes], hmem, fun d hd => ?_⟩
      rw [hdoes]
      exact core_updCore_ne s c d _ hd
    · rw [dispatch_update hp]
      exact startUpdate_does s c p
  · have hall : (readySegments s c).all (fun x => x.2.cls == 3) = true := by
      rw [hrs]
      simpa using hcls
    have hexec : exec (.class3HoldExpiry c) s = .next { startSegment s c g.1 g.2 with
        pwr := { (startSegment s c g.1 g.2).pwr with holdExpired := bump (startSegment s c g.1 g.2).pwr.holdExpired } } := by
      refine congrArg Host.Outcome.next ?_
      simp only [hfree, hheld, hup, hall, List.isEmpty_nil, Bool.and_self, if_true]
      rw [hrs]
      rfl
    obtain ⟨hstarts, hpwr⟩ := startSegment_starts (s := s) (c := c) (i := g.1) (g := g.2)
    obtain ⟨k, r, h, p, hrest⟩ := hstarts.rest
    refine ⟨_, hexec, ?_, by rw [hpwr]; rfl⟩
    exact { hstarts with rest := ⟨k, r, h, _, by rw [hrest]⟩ }

end Sys2Proof.Machine
end

section
/-! SUPPORT. The end of a segment, and the events it signals (R36, R45, R166). -/

namespace Sys2Proof.Machine

/-! ## The events of a step (R45) -/

/-- How often a list of event counts says that an event has been signalled. -/
def signalled (l : List (W16 × Nat)) (e : W16) : Nat := ((l.find? (·.1 == e)).map (·.2)).getD 0

theorem signals_eq (s : State) (e : W16) : signals s e = signalled s.job.events e := rfl

theorem signalled_cons (x : W16 × Nat) (l : List (W16 × Nat)) (e : W16) :
    signalled (x :: l) e = if x.1 = e then x.2 else signalled l e := by
  by_cases h : x.1 = e <;> simp [signalled, h]

/-- Counting up the entries of an event counts it up, where it has one. -/
theorem signalled_map (a e : W16) (l : List (W16 × Nat)) : signalled (l.map fun x => if x.1 == a then (a, x.2 + 1) else x) e =
    signalled l e + if e = a ∧ l.any (·.1 == a) then 1 else 0 := by
  induction l with
  | nil => simp [signalled]
  | cons x l ih =>
    rw [List.map_cons, signalled_cons, signalled_cons, ih]
    by_cases hxa : x.1 = a
    · by_cases hea : e = a
      · simp [hxa, hea]
      · simp [hxa, hea, Ne.symm hea]
    · have hany : (x :: l).any (·.1 == a) = l.any (·.1 == a) := by simp [List.any_cons, beq_false_of_ne hxa]
      by_cases hxe : x.1 = e
      · have hea : e ≠ a := hxe ▸ hxa
        simp [hxe, hea]
      · rw [hany, if_neg hxe]
        simp [hxa, hxe]

theorem signalled_append (a e : W16) (l : List (W16 × Nat)) (h : ∀ x ∈ l, x.1 ≠ a) :
    signalled (l ++ [(a, 1)]) e = signalled l e + if e = a then 1 else 0 := by
  induction l with
  | nil =>
    rw [List.nil_append, signalled_cons]
    simp [signalled, @eq_comm _ a e]
  | cons x l ih =>
    obtain ⟨hx, hl⟩ := List.forall_mem_cons.1 h
    rw [List.cons_append, signalled_cons, signalled_cons, ih hl]
    by_cases hxe : x.1 = e
    · have hea : e ≠ a := hxe ▸ hx
      simp [hxe, hea]
    · simp [hxe]

/-- A signal counts once, for its event. -/
theorem signalled_addSignal (l : List (W16 × Nat)) (a e : W16) : signalled (addSignal l a) e = signalled l e + if e = a then 1 else 0 := by
  unfold addSignal
  split
  · rename_i hany
    rw [signalled_map, hany]
    simp
  · rename_i hnone
    refine signalled_append a e l fun x hx hxa => hnone (List.any_eq_true.2 ⟨x, hx, by simpa using hxa⟩)

theorem nodup_eraseDups (l : List W16) : l.eraseDups.Nodup := by
  match l with
  | [] => exact List.nodup_nil
  | a :: l =>
    rw [List.eraseDups_cons, List.nodup_cons]
    refine ⟨by simp [List.mem_eraseDups], nodup_eraseDups _⟩
termination_by l.length
decreasing_by exact Nat.lt_succ_of_le (List.length_filter_le _ _)

theorem signalled_foldl (es : List W16) (l : List (W16 × Nat)) (e : W16) (h : es.Nodup) :
    signalled (es.foldl addSignal l) e = signalled l e + if e ∈ es then 1 else 0 := by
  induction es generalizing l with
  | nil => rfl
  | cons a es ih =>
    obtain ⟨ha, hes⟩ := List.nodup_cons.1 h
    rw [List.foldl_cons, ih _ hes, signalled_addSignal]
    by_cases hea : e = a
    · subst hea
      simp [ha]
    · simp [hea]

/-- An ended segment signals each of its events once, however often its header names it (R45). -/
theorem signals_signalEvents (s : State) (es : List W16) (e : W16) : signals (signalEvents s es) e = signals s e + if e ∈ es then 1 else 0 := by
  have hmem : e ∈ es.eraseDups ↔ e ∈ es := List.mem_eraseDups
  rw [signals_eq, signals_eq]
  exact (signalled_foldl es.eraseDups s.job.events e (nodup_eraseDups es)).trans (by simp only [hmem])

/-! ## The end of a segment (R36, R45) -/

section
variable {s : State} {c : CoreId} {i : Nat}

theorem endSegment_retired {g : Segment} (hrun : (s.core c).running = some i) (hup : (s.core c).updating = none)
    (hseg : (s.core c).segments[i]? = some g) (hret : (s.core c).retired g = true) (hbeat : strandedBeat (s.core c) = none) :
    endSegment s c = signalEvents (s.updCore c fun q => q.finish i) g.outbound := by
  simp only [endSegment, hrun, hup, hseg, hret, hbeat, ite_self, if_true]

theorem endSegment_update {p : Pass} (hrun : (s.core c).running = some i) (hup : (s.core c).updating = some p) :
    endSegment s c = (completePass s p).updCore c fun k => { k with running := none, updating := none, status := 0 } := by
  simp only [endSegment, hrun, hup]

end

/-- Settles O28: a retired segment finishes and signals its events; an update segment ends with its pass. -/
theorem segmentsEnd : Obligations.SegmentsEnd := by
  intro s c i hrun
  refine ⟨fun g hup hseg hret hbeat => ?_, fun p hup => congrArg Host.Outcome.next (endSegment_update hrun hup)⟩
  have hend := endSegment_retired hrun hup hseg hret hbeat
  have hcore : (signalEvents (s.updCore c fun q => q.finish i) g.outbound).core c = (s.core c).finish i := core_updCore_same s c _
  refine ⟨_, congrArg Host.Outcome.next hend, ?_⟩
  rw [hcore]
  refine ⟨rfl, rfl, rfl, fun q => ?_, rfl, rfl, rfl, signals_signalEvents _ _, fun d hd => core_updCore_ne s c d _ hd, rfl⟩
  simp [Core.finish]

end Sys2Proof.Machine
end

section
/-! SUPPORT. Landings: applied, parked, refused for room, refused for cause (R149, R150). -/

namespace Sys2Proof.Machine

section
variable {s : State} {i : Nat} {l : Landing} {g : Group}

theorem landingArrives_checked (hl : s.upd.landings[i]? = some l) (hg : groupOf s l.group = some g) (hc : landingCause s g l = none) :
    landingArrives s i =
      if landingReady s g l then landingAccepted (applyLanding (dropLanding s i) g l) l
      else if parkRoom s g l then landingAccepted (parkLanding (dropLanding s i) g l) l
      else refuseLanding s i := by
  simp only [landingArrives, hl, hg, hc]

/-- A landing of no group, or one that fails a check of R149, is a fault of its source. -/
theorem landingArrives_refused {cause : Nat} (hl : s.upd.landings[i]? = some l)
    (h : (groupOf s l.group = none ∧ cause = 0x16) ∨ (∃ g, groupOf s l.group = some g ∧ landingCause s g l = some cause)) :
    landingArrives s i = landingFault (dropLanding s i) l cause := by
  rcases h with ⟨hg, rfl⟩ | ⟨g, hg, hc⟩
  · simp only [landingArrives, hl, hg]
  · simp only [landingArrives, hl, hg, hc]

theorem refuseLanding_eq (hl : s.upd.landings[i]? = some l) : refuseLanding s i = { s with
    upd := { s.upd with landings := s.upd.landings.set i { l with refused := true } },
    mem := { s.mem with parkRefused := s.mem.parkRefused + 1 } } := by
  have hset : modifyAt s.upd.landings i (fun l => { l with refused := true }) = s.upd.landings.set i { l with refused := true } := by
    simp only [modifyAt, hl]
  simp only [refuseLanding, hset, bump]

end

/-- Settles O29: a landing that passes its checks is applied, parked or refused for room; that a parked one is counted by its data alone, 4
bytes a word, is the model's choice (log entry 58). -/
theorem landingsComplete : Obligations.LandingsComplete := by
  intro s i l g hg
  refine ⟨fun hl hc => ?_, fun hl hr => ?_, fun hl hready => ?_, fun c seq hsource => ?_, fun c d index op half f => ?_⟩
  · have harrives := landingArrives_checked hl hg hc
    refine ⟨fun hready => ?_, fun hready hroom => ?_, fun hready hfull => ?_⟩
    · exact congrArg Host.Outcome.next (harrives.trans (if_pos hready))
    · have hroom' : parkRoom s g l = true := decide_eq_true hroom
      refine congrArg Host.Outcome.next (harrives.trans ?_)
      rw [hready, hroom', if_neg Bool.false_ne_true, if_pos rfl]
      rfl
    · have hroom' : parkRoom s g l = false := decide_eq_false (not_le.2 hfull)
      refine congrArg Host.Outcome.next (harrives.trans ?_)
      rw [hready, hroom', if_neg Bool.false_ne_true, if_neg Bool.false_ne_true, refuseLanding_eq hl]
  · refine congrArg Host.Outcome.next ?_
    simp only [hl, hr, if_true]
  · refine congrArg Host.Outcome.next ?_
    simp only [parkedApplies, hl, hg, hready, if_true]
  · simp only [landingAccepted, hsource]
    rfl
  · intro h hsource hdrn hroom
    simp only [landingAccepted, hsource]
    exact updCore_congr s d _ _ (releaseHalf_room hdrn hroom)

/-- The fault of a core's stream when a landing has been dropped: nothing of HBM moves, and the other landings wait on. -/
theorem dropped_streamFault {s : State} {c : CoreId} (i : Nat) (r : Record) (h : s.unfaulted c) :
    (streamFault (dropLanding s i) c r).mem = s.mem ∧ (streamFault (dropLanding s i) c r).upd.landings = s.upd.landings.eraseIdx i ∧
      s.faultOf (streamFault (dropLanding s i) c r) c r := by
  have hfresh : (dropLanding s i).unfaulted c := ⟨h.core, h.aborting, h.quiescing⟩
  obtain ⟨C, k, fr, q, j, fl, hh, o, e⟩ := streamFaultAt_frame (dropLanding s i) c ((dropLanding s i).core c).exec.cycle r hfresh
  refine ⟨?_, ?_, faultOf_of_core s _ _ c _ (streamFault_faultOf _ hfresh) rfl rfl rfl⟩
  · rw [streamFault, e]
    rfl
  · rw [streamFault, e]
    rfl

/-- The fault of an instruction in flight when a landing has been dropped. -/
theorem dropped_flightFault {s : State} {c : CoreId} (i : Nat) {f : Flight} (code : W16) (cause : Nat) (g : Record → Record) (h : s.unfaulted c)
    (he : s.earliest c f) :
    (flightFault (dropLanding s i) c f code cause g).mem = s.mem ∧
      (flightFault (dropLanding s i) c f code cause g).upd.landings = s.upd.landings.eraseIdx i ∧
      s.faultOf (flightFault (dropLanding s i) c f code cause g) c (g (accessRecord f.index f.instr code cause)) := by
  obtain ⟨C, k, fr, q, j, fl, hh, o, e⟩ := accessFaultAt_frame
    (updAccess (dropLanding s i) c fun a => { a with flights := a.flights.filter (·.seq ≠ f.seq) }) c f.seq
    (g (accessRecord f.index f.instr code cause))
  refine ⟨?_, ?_, (flightFault_faultOf s (dropLanding s i) c f code cause g h he rfl rfl rfl rfl).2⟩
  · rw [flightFault, e]
    rfl
  · rw [flightFault, e]
    rfl

/-- The records of a refused landing of a drain and of a collective operation (R88, R130, R344). -/
def drainRefusal (l : Landing) (cause index : Nat) : Record :=
  { Record.blank with
    code := codeHbmRange, cause := BitVec.ofNat 8 cause, source := 1, instr := BitVec.ofNat 16 index, opcode := 0x18, unit := 2,
    addr := BitVec.ofNat 40 l.first }

def chunkRefusal (l : Landing) (cause : Nat) (comm : BitVec 10) (chunk chip : W16) : Record :=
  { Record.blank with
    code := codeHbmRange, cause := BitVec.ofNat 8 cause, source := 3, opcode := 0x18, addr := BitVec.ofNat 40 l.first, chip := chip,
    comm := comm.zeroExtend 16, value := chunk.zeroExtend 32 }

/-- Settles O30: a refused landing is a fault of its source; that the record's address is the element offset in the group's shard is the
model's choice (log entry 83). -/
theorem landingsRefused : Obligations.LandingsRefused := by
  intro s i l cause hl hcause
  have hexec : exec (.landingArrival i) s = .next (landingFault (dropLanding s i) l cause) :=
    congrArg Host.Outcome.next (landingArrives_refused hl hcause)
  rw [hexec]
  refine ⟨fun c seq f hsource hf hfresh hfirst => ?_, fun c index op hs hsource hfresh => ?_, fun c comm chunk hsource hfresh => ?_⟩
  · have hseq : f.seq = seq := by simpa using List.find?_some hf
    have hfind : ((dropLanding s i).core c).access.flights.find? (·.seq == seq) = some f := hf
    obtain ⟨hmem, hlandings, hfault⟩ := dropped_flightFault i codeHbmRange cause (raddr l.first) hfresh fun x hx hd => hseq ▸ hfirst x hx hd
    refine ⟨_, rfl, ?_⟩
    simp only [landingFault, hsource, hfind]
    exact ⟨hmem, hlandings, hfault⟩
  · obtain ⟨hmem, hlandings, hfault⟩ := dropped_streamFault i (drainRefusal l cause index) hfresh
    refine ⟨_, drainRefusal l cause index, rfl, ?_⟩
    simp only [landingFault, hsource]
    exact ⟨hmem, hlandings, hfault, rfl, rfl, rfl, rfl, rfl⟩
  · obtain ⟨hmem, hlandings, hfault⟩ := dropped_streamFault i (chunkRefusal l cause comm chunk s.fab.chip) hfresh
    refine ⟨_, chunkRefusal l cause comm chunk s.fab.chip, rfl, ?_⟩
    simp only [landingFault, hsource]
    exact ⟨hmem, hlandings, hfault, rfl, rfl, rfl, rfl, rfl⟩

end Sys2Proof.Machine
end

section
/-! SUPPORT. A landing of one block: its sums, its counter, the overflow flag (R127, R128, R149). -/

namespace Sys2Proof.Machine

/-- The old values of a block's gradients, with their poison. -/
def blockOld (s : State) (g : Group) (b : Nat) : List PElem :=
  (List.range 64).map fun i => (read32 s (g.gradAt (64 * b) + 4 * i), hbmPoisoned s (g.gradAt (64 * b) + 4 * i) 4)

/-- What a block's gradients become: the values of micro-batch 0, one rounded sum each of a later one (R127). -/
def blockSum (s : State) (g : Group) (mb b : Nat) (new : List PElem) : List PElem :=
  if mb = 0 then new else ((blockOld s g b).zip new).map fun x => (fadd x.1.1 x.2.1, x.1.2 || x.2.2)

/-- Some sum of finite inputs of a later micro-batch is not finite (R128). -/
def blockOver (s : State) (g : Group) (mb b : Nat) (new : List PElem) : Bool :=
  mb ≠ 0 && ((blockOld s g b).zip new).any fun x => overflowed x.1.1 x.2.1 (fadd x.1.1 x.2.1)

/-- A block landed: its gradients written, its counter moved on. -/
def landBlock (s : State) (g : Group) (mb b : Nat) (new : List PElem) : State :=
  storeHbm (hbmPut (orOverflow s (blockOver s g mb b new)) (g.gradAt (64 * b))
    ((blockSum s g mb b new).flatMap fun x => (leBytes 4 x.1.toNat).map fun b => (b, x.2))) (g.counterAt b) (leBytes 2 (mb + 1)) false

theorem queuePasses_frame (ps : List Nat) (f : Nat → Pass) (s : State) :
    ∃ q, ps.foldl (fun t k => queuePass t (f k)) s = { s with upd := { s.upd with queue := q } } := by
  induction ps generalizing s with
  | nil => exact ⟨s.upd.queue, rfl⟩
  | cons k ps ih =>
    obtain ⟨q, hq⟩ := ih (queuePass s (f k))
    exact ⟨q, hq⟩

/-- A landing of one block is that block landed, and what becomes ready queued. -/
theorem applyLanding_block (s : State) (g : Group) (l : Landing) (hlen : l.data.length = 64) :
    ∃ q, applyLanding s g l = { landBlock s g l.mb (l.first / 64) l.data with
      upd := { (landBlock s g l.mb (l.first / 64) l.data).upd with queue := q } } := by
  have hblocks : blocksOf l.first l.data.length = [l.first / 64] := by simp [blocksOf, hlen]
  have htake : l.data.take 64 = l.data := List.take_of_length_le (by omega)
  unfold applyLanding
  rw [hblocks]
  simp only [List.zipIdx_cons, List.zipIdx_nil, List.foldl_cons, List.foldl_nil, Nat.mul_zero, List.drop_zero, htake]
  change ∃ q, (if s.job.aborting then landBlock s g l.mb (l.first / 64) l.data else _) = _
  split
  · exact ⟨_, rfl⟩
  · exact queuePasses_frame _ (fun k => { group := g.idx, window := k, kind := if g.held then 1 else 0, abandoned := false }) _

/-- The bytes of elements, element by element. -/
theorem elemBytes_fst (xs : List PElem) :
    (xs.flatMap fun x => (leBytes 4 x.1.toNat).map fun b => (b, x.2)).map (·.1) = bytes32 (xs.map (·.1)) := by
  induction xs with
  | nil => rfl
  | cons x xs ih => simp [bytes32, List.flatMap_cons, ih, Function.comp_def]

section
variable {s : State} {g : Group} {mb b : Nat} {new : List PElem}

theorem blockSum_length (h : new.length = 64) : (blockSum s g mb b new).length = 64 := by
  unfold blockSum
  split
  · exact h
  · simp [blockOld, h]

theorem blockSum_getElem (h : new.length = 64) {i : Nat} (hi : i < 64) :
    ((blockSum s g mb b new)[i]'(by rw [blockSum_length h]; exact hi)).1 =
      if mb = 0 then (new.getD i (0, false)).1 else fadd (read32 s (g.gradAt (64 * b) + 4 * i)) (new.getD i (0, false)).1 := by
  have hget : new.getD i (0, false) = new[i] := by simp [List.getD_eq_getElem?_getD, h, hi]
  rw [hget]
  unfold blockSum
  split
  · rfl
  · simp [blockOld]

theorem blockOver_eq (h : new.length = 64) : blockOver s g mb b new = (mb ≠ 0 && (List.range 64).any fun i =>
    overflowed (read32 s (g.gradAt (64 * b) + 4 * i)) (new.getD i (0, false)).1
      (fadd (read32 s (g.gradAt (64 * b) + 4 * i)) (new.getD i (0, false)).1)) := by
  have hzip : (blockOld s g b).zip new = (List.range 64).map fun i =>
      ((read32 s (g.gradAt (64 * b) + 4 * i), hbmPoisoned s (g.gradAt (64 * b) + 4 * i) 4), new.getD i (0, false)) := by
    refine List.ext_getElem (by simp [blockOld, h]) fun i h1 h2 => ?_
    have hi : i < new.length := by simp [blockOld] at h1; omega
    simp [blockOld, List.getD_eq_getElem?_getD, hi]
  rw [blockOver, hzip, List.any_map]
  rfl

end

/-- A word of bytes that were stored as a block's words. -/
theorem read32_of_bytes {t : State} {a : Nat} {ws : List W32} (h : readHbm t a (4 * ws.length) = bytes32 ws) {i : Nat} (hi : i < ws.length) :
    read32 t (a + 4 * i) = ws[i] := by
  rw [read32, readLe, readHbm_part t a (4 * ws.length) (4 * i) 4 (by omega), h, bytes32_word ws i hi, leNat_leBytes]
  apply BitVec.eq_of_toNat_eq
  simpa using ws[i].isLt

/-- What a landed block leaves: its 64 sums, its counter, the overflow flag, and every other byte as it was. -/
theorem landBlock_does {s : State} {g : Group} {mb b : Nat} {new : List PElem} (hal : s.aligned) (hw : cellsWf s.mem.cells = true)
    (hr : s.job.replay = none) (hnew : new.length = 64) (hmb : mb + 1 < 65536) (ha : s.apart (g.gradAt (64 * b)) 256)
    (hn : s.apart (g.counterAt b) 2)
    (hd : ∀ i < 256, ∀ j < 2, keyOf s (g.gradAt (64 * b) + i) ≠ keyOf s (g.counterAt b + j)) :
    let t := landBlock s g mb b new
    readHbm t (g.gradAt (64 * b)) 256 = bytes32 ((blockSum s g mb b new).map (·.1)) ∧ readLe t (g.counterAt b) 2 = mb + 1 ∧
      t.job.overflow = (s.job.overflow || blockOver s g mb b new) ∧
      ∀ x, (∀ i < 256, keyOf s x ≠ keyOf s (g.gradAt (64 * b) + i)) → (∀ j < 2, keyOf s x ≠ keyOf s (g.counterAt b + j)) →
        readHbm t x 1 = readHbm s x 1 := by
  intro t
  let bs : List PByte := (blockSum s g mb b new).flatMap fun x => (leBytes 4 x.1.toNat).map fun b => (b, x.2)
  have hbs : bs.map (·.1) = bytes32 ((blockSum s g mb b new).map (·.1)) := elemBytes_fst _
  have hlen : bs.length = 256 := by
    rw [← List.length_map (f := (·.1)), hbs, bytes32_length, List.length_map, blockSum_length hnew]
  let u := orOverflow s (blockOver s g mb b new)
  have hu : u = { s with job := { s.job with overflow := s.job.overflow || blockOver s g mb b new } } := orOverflow_eq _ _
  let v := hbmPut u (g.gradAt (64 * b)) bs
  have hstep : HbmStep u v := hbmPut_hbm u _ bs
  have hkey : ∀ x, keyOf v x = keyOf s x := fun x => (hstep.keyOf x).trans (by rw [hu]; rfl)
  have hkeyu : ∀ x, keyOf u x = keyOf s x := fun x => by rw [hu]; rfl
  have halu : u.aligned := by rw [hu]; exact hal
  have halv : v.aligned := by
    unfold State.aligned
    rw [hstep.regions]
    exact halu
  have ht : t = storeHbm v (g.counterAt b) (leBytes 2 (mb + 1)) false := rfl
  have hlen2 : (leBytes 2 (mb + 1)).length = 2 := leBytes_length _ _
  have hother : ∀ x, (∀ j < 2, keyOf s x ≠ keyOf s (g.counterAt b + j)) → readHbm t x 1 = readHbm v x 1 := fun x hx =>
    storeHbm_other v halv _ _ _ x fun i hi => by rw [hkey, hkey]; exact hx i (by omega)
  refine ⟨?_, ?_, ?_, fun x hxa hxn => ?_⟩
  · have hput : readHbm v (g.gradAt (64 * b)) 256 = bs.map (·.1) := by
      rw [← hlen]
      refine hbmPut_same u halu (by rw [hu]; exact hw) (by rw [hu]; exact hr) _ bs fun i j hi hj => ?_
      rw [hkeyu, hkeyu]
      exact ha i j (by omega) (by omega)
    rw [← hbs, ← hput]
    exact readHbm_congr v t _ _ fun j hj => hother _ fun i hi => hd j hj i hi
  · have hread := storeHbm_same v halv (hbmPut_cells u _ bs (by rw [hu]; exact hw)) (by rw [hstep.replay, hu]; exact hr) (g.counterAt b)
      (leBytes 2 (mb + 1)) false (fun i j hi hj => by rw [hkey, hkey]; exact hn i j (by omega) (by omega))
    rw [hlen2, ← ht] at hread
    rw [readLe, hread, leNat_leBytes]
    exact Nat.mod_eq_of_lt hmb
  · rw [ht, (storeHbm_hbm v _ _ _).overflow, hstep.overflow, hu]
  · have hxu : readHbm u x 1 = readHbm s x 1 := by rw [hu]; rfl
    rw [hother x hxn, ← hxu]
    exact hbmPut_other u halu _ bs x fun i hi => by rw [hkeyu, hkeyu]; exact hxa i (by omega)

/-- Settles O31: a landing of one block is its block landed. -/
theorem blocksAccumulate : Obligations.BlocksAccumulate := by
  intro s g l hsound hal hr hlen hfirst hmb a n old new ha hn hd t
  have hw : cellsWf s.mem.cells = true := by
    simp only [State.sound, Bool.and_eq_true] at hsound
    exact hsound.1.1
  have hblock : 64 * (l.first / 64) = l.first := by omega
  obtain ⟨q, hq⟩ := applyLanding_block s g l hlen
  obtain ⟨hgrad, hcount, hover, hother⟩ := landBlock_does (mb := l.mb) (b := l.first / 64) hal hw hr hlen hmb (by rw [hblock]; exact ha) hn
    (by rw [hblock]; exact hd)
  have ht : t = _ := hq
  rw [ht]
  refine ⟨fun i hi => ?_, hcount, ?_, fun x hxa hxn => hother x (by rw [hblock]; exact hxa) hxn⟩
  · have hlen' : ((blockSum s g l.mb (l.first / 64) l.data).map (·.1)).length = 64 := by rw [List.length_map, blockSum_length hlen]
    rw [hblock] at hgrad
    have hword : read32 (landBlock s g l.mb (l.first / 64) l.data) (a + 4 * i) = _ :=
      read32_of_bytes (by rw [hlen']; exact hgrad) (i := i) (by omega)
    refine Eq.trans hword ?_
    rw [List.getElem_map, blockSum_getElem hlen hi, hblock]
  · rw [blockOver_eq hlen, hblock] at hover
    exact hover

end Sys2Proof.Machine
end

section
/-! SUPPORT. Leases: how one opens, how it ends, and a held group's second pass (R160, R182-R187). -/

namespace Sys2Proof.Machine

/-! ## How a lease opens (R183, R184, R187) -/

theorem pullRefresh_frame (s : State) (stack : StackId) (chan : ChanId) :
    ∃ rs f, pullRefresh s stack chan = { s with out := s.out ++ rs, free := f } ∧ ∀ o ∈ rs, ∃ b, o = .refresh stack chan b := by
  have hbank : ∀ (ns : List Nat) (b : Fin 128) (s : State), ∃ rs, ns.foldl (fun u _ => u.say (.refresh stack chan b)) s =
      { s with out := s.out ++ rs } ∧ ∀ o ∈ rs, ∃ b, o = .refresh stack chan b := by
    intro ns b
    induction ns with
    | nil => exact fun s => ⟨[], by simp, by simp⟩
    | cons n ns ih =>
      intro s
      obtain ⟨rs, he, hrs⟩ := ih (s.say (.refresh stack chan b))
      refine ⟨.refresh stack chan b :: rs, ?_, ?_⟩
      · rw [List.foldl_cons, he]
        simp [State.say]
      · exact List.forall_mem_cons.2 ⟨⟨b, rfl⟩, hrs⟩
  have hbanks : ∀ (bs : List (Fin 128)) (s : State), ∃ rs f, bs.foldl (fun t b =>
        let f := t.draw
        (List.range (f.1.toNat % 3)).foldl (fun u _ => u.say (.refresh stack chan b)) f.2) s = { s with out := s.out ++ rs, free := f } ∧
      ∀ o ∈ rs, ∃ b, o = .refresh stack chan b := by
    intro bs
    induction bs with
    | nil => exact fun s => ⟨[], s.free, by simp, by simp⟩
    | cons b bs ih =>
      intro s
      obtain ⟨rs1, he1, hrs1⟩ := hbank (List.range (s.draw.1.toNat % 3)) b s.draw.2
      obtain ⟨rs2, f, he2, hrs2⟩ := ih { s.draw.2 with out := s.draw.2.out ++ rs1 }
      refine ⟨rs1 ++ rs2, f, ?_, ?_⟩
      · rw [List.foldl_cons, he1, he2]
        simp [State.draw]
      · exact List.forall_mem_append.2 ⟨hrs1, hrs2⟩
  exact hbanks (List.finRange 128) s

theorem drainChannel_hbm (s : State) (stack chan : Nat) : HbmStep s (drainChannel s stack chan) :=
  HbmStep.foldl _ (fun s _ => HbmStep.foldl _ (fun s _ => (wcbModify_hbm s _ _).1) _ s) _ s

theorem flushAtomics_cores (s : State) (stack chan : Nat) : (flushAtomics s stack chan).cores = s.cores := rfl

/-- The state in which a lease is granted for a pass: precharged, XGRANT sent, the pass out of the queue. -/
def leaseGranted (v : State) (id : Byte) (stack : StackId) (chan : ChanId) (p : Pass) (g : Group) : State :=
  { v with
    out := v.out ++ [.precharge stack chan, .xgrant stack chan id (grantBytes v g p)],
    mem := { v.mem with hbmStacks := v.mem.hbmStacks.set stack { v.mem.hbmStacks[stack] with leases := v.mem.hbmStacks[stack].leases + 1 } },
    upd := { v.upd with queue := v.upd.queue.filter (· ≠ p),
                        leases := v.upd.leases ++ [{ stack := stack, chan := chan, id := id, pass := p, reclaimed := false }],
                        leaseId := id + 1 } }

/-- A lease that nothing keeps from opening opens. -/
theorem openLease_opens {s : State} {stack : StackId} {chan : ChanId} {p : Pass} {g : Group} (hg : groupOf s p.group = some g)
    (hp : nextPass s stack chan = some p) (hfree : ∀ l ∈ s.upd.leases, ¬ (l.stack = stack ∧ l.chan = chan))
    (hlimit : headroom s = 0 → class3Runs s = true → leased s stack < 8) (hserved : servesStill s s.mem.hbmStacks[stack].chans[chan] = false)
    (hjob : s.jobSide = true) (heng : s.glb.chanEng = true) (hxen : s.mem.hbmStacks[stack].xen = true) :
    openLease s stack chan =
      leaseGranted (pullRefresh (flushAtomics (drainChannel s stack.val chan.val) stack.val chan.val) stack chan) s.upd.leaseId stack chan p g := by
  have hbusy : (s.upd.leases.any fun l => l.stack == stack && l.chan == chan) = false := by
    simpa using hfree
  have hfull : (headroom s == 0 && class3Runs s && decide (8 ≤ leased s stack)) = false := by
    by_cases h0 : headroom s = 0
    · cases h3 : class3Runs s
      · simp
      · simpa [h0] using hlimit h0 h3
    · simp [h0]
  simp only [openLease, hp, hg, hbusy, hfull, hserved, hjob, heng, hxen, Bool.or_self, Bool.not_true, Bool.false_eq_true, if_false,
    leaseGranted, State.say, List.append_assoc]
  rfl

/-! ## A held group's second pass (R160) -/

theorem queuePasses_eq (ks : List Nat) (f : Nat → Pass) (s : State) :
    ks.foldl (fun t k => queuePass t (f k)) s = { s with upd := { s.upd with queue := s.upd.queue ++ ks.map f } } := by
  induction ks generalizing s with
  | nil => simp
  | cons k ks ih =>
    rw [List.foldl_cons, ih]
    simp [queuePass]

theorem secondReady_ready {s : State} {g : Group} (hheld : g.held = true) (hpass : ctlPass1 s g = s.job.step)
    (hrelease : ctlRelease s g = s.job.step) (hsecond : s.upd.second.any (·.1 == g.idx) = false) (habort : s.job.aborting = false) :
    secondReady s g = { s with upd := { s.upd with
      second := s.upd.second ++ [(g.idx, read32 s (normRecord s g true + 4), hbmPoisoned s (normRecord s g true + 4) 4)],
      queue := s.upd.queue ++ (List.range g.windows).map fun k => { group := g.idx, window := k, kind := 2, abandoned := false } } } := by
  simp only [secondReady, hheld, hpass, hrelease, hsecond, habort, beq_self_eq_true, Bool.and_self, Bool.not_false, if_true]
  exact queuePasses_eq _ (fun k => { group := g.idx, window := k, kind := 2, abandoned := false }) _

/-! ## How a lease ends (R182–R185) -/

section
variable {s : State} {stack : StackId} {p : Pass}

theorem abandonPass_first (hp : p.abandoned = false) (habort : s.job.aborting = false) :
    abandonPass s stack p = { s with upd := { s.upd with queue := s.upd.queue ++ [{ p with abandoned := true }] } } := by
  simp only [abandonPass, hp, habort, Bool.false_eq_true, if_false]
  rfl

theorem abandonPass_twice (hp : p.abandoned = true) :
    abandonPass s stack p = fatal s codeStackFatal (BitVec.ofNat 8 stack.val) false := by
  simp only [abandonPass, hp, if_true]

end

/-- The state in which an ended lease's channel has served what waited for it and its status has been read. -/
def leaseEnded (s : State) (stack : StackId) (chan : ChanId) (l : Lease) : State :=
  (serveWaiting (dropLease s l) stack chan).say (.xstat stack chan)

/-- The state in which a lease has been reclaimed for its overrun, its pass not yet abandoned (R185). -/
def leaseReclaimed (s : State) (stack : StackId) (chan : ChanId) (l : Lease) : State :=
  { s with
    out := s.out ++ [.xreclaim stack chan l.id],
    mem := { s.mem with
      hbmStacks := s.mem.hbmStacks.set stack { s.mem.hbmStacks[stack] with leaseOverrun := s.mem.hbmStacks[stack].leaseOverrun + 1 } },
    upd := { s.upd with leases := s.upd.leases.map fun x => if x = l then { x with reclaimed := true } else x } }

section
variable {s : State} {stack : StackId} {chan : ChanId} {l : Lease}

theorem leaseDone_found (st : BitVec 2) (h : findLease s stack chan = some l) :
    leaseDone s stack chan st =
      if st = 3 then fatal (leaseEnded s stack chan l) codeStackFatal (BitVec.ofNat 8 stack.val) false
      else if l.reclaimed then leaseEnded s stack chan l
      else if st = 1 then abandonPass (leaseEnded s stack chan l) stack l.pass
      else completePass (leaseEnded s stack chan l) l.pass := by
  simp only [leaseDone, h]
  rfl

theorem overrunLease_found (h : findLease s stack chan = some l) (hl : l.reclaimed = false) :
    overrunLease s stack chan = abandonPass (leaseReclaimed s stack chan l) stack l.pass := by
  simp only [overrunLease, h, hl, Bool.false_eq_true, if_false]
  rfl

/-- The fatal error of a lease that was reclaimed is the fatal error of the state before: the same leases are reclaimed. -/
theorem leaseReclaimed_fatal {code : W16} {cause : Byte} {t : State} (h : (leaseReclaimed s stack chan l).fatalOf t code cause) :
    s.fatalOf t code cause := by
  refine fatalOf_of h rfl rfl rfl fun x hx => ⟨_, List.mem_map_of_mem hx, ?_⟩
  split <;> exact ⟨rfl, rfl, rfl⟩

end

/-- Settles O32: a lease opens, and ends by its status or its overrun; a held group's second pass becomes ready. -/
theorem leasesRun : Obligations.LeasesRun := by
  refine ⟨fun s stack chan p g hg => ⟨fun hp hfree hlimit hserved hjob heng hxen => ?_,
    fun hheld hpass hrelease hsecond habort hgroup => ?_⟩, fun s stack chan l hfind => ?_⟩
  · intro u v
    have hopen : openLease s stack chan = leaseGranted v s.upd.leaseId stack chan p g :=
      openLease_opens hg hp hfree hlimit hserved hjob heng hxen
    have hcores : u.cores = s.cores := (flushAtomics_cores _ _ _).trans (drainChannel_hbm s stack.val chan.val).cores
    obtain ⟨rs, f, hpull, hrs⟩ := pullRefresh_frame u stack chan
    have hv : v = { u with out := u.out ++ rs, free := f } := hpull
    clear_value u v
    refine ⟨_, congrArg Host.Outcome.next hopen, ?_, ?_, rfl, ⟨rs, by rw [hv], hrs⟩, ?_, ?_⟩
    · rw [hv]
      rfl
    · rw [hv]
      rfl
    · rw [hv]
      rfl
    · rw [hv]
      exact hcores
  · refine congrArg Host.Outcome.next ?_
    simp only [hgroup]
    exact secondReady_ready hheld hpass hrelease hsecond habort
  · intro u
    have hu : u = leaseEnded s stack chan l := rfl
    clear_value u
    subst hu
    have hdone : ∀ st, exec (.ldone stack chan st) s = .next (leaseDone s stack chan st) := fun _ => rfl
    refine ⟨fun hl => ?_, fun hl hp habort => ?_, fun hl hp hdump => ?_, fun hdump => ?_, fun st hst hl => ?_, fun hl hp habort => ?_,
      fun hl hp hdump => ?_⟩
    · rw [hdone, leaseDone_found _ hfind, hl]
      rfl
    · rw [hdone, leaseDone_found _ hfind, hl, if_neg (by decide), if_neg Bool.false_ne_true, if_pos rfl, abandonPass_first hp habort]
    · rw [hdone, leaseDone_found _ hfind, hl, if_neg (by decide), if_neg Bool.false_ne_true, if_pos rfl, abandonPass_twice hp]
      exact ⟨_, rfl, fatal_fatalOf _ _ _ _ hdump⟩
    · rw [hdone, leaseDone_found _ hfind, if_pos rfl]
      exact ⟨_, rfl, fatal_fatalOf _ _ _ _ hdump⟩
    · rw [hdone, leaseDone_found _ hfind, if_neg hst, if_pos hl]
    · refine congrArg Host.Outcome.next ((overrunLease_found hfind hl).trans ?_)
      exact abandonPass_first (s := leaseReclaimed s stack chan l) hp habort
    · refine ⟨_, congrArg Host.Outcome.next ((overrunLease_found hfind hl).trans (abandonPass_twice hp)), ?_⟩
      exact leaseReclaimed_fatal (fatal_fatalOf (leaseReclaimed s stack chan l) _ _ _ hdump)

end Sys2Proof.Machine
end

section
/-! SUPPORT. Requests of HBM at their controller: a write is stored, refused or waits (R74, R177, R184). -/

namespace Sys2Proof.Machine

/-! ## Requests at their controller (R74, R177, R184) -/

/-- An activation draws once and may say one refresh-management command (R168); nothing else changes. -/
theorem activate_frame (s : State) (a : Nat) : ∃ o, activate s a = { s with out := s.out ++ o, free := s.free + 1 } := by
  unfold activate
  dsimp only
  split
  · exact ⟨[_], rfl⟩
  · exact ⟨[], by rw [List.append_nil]; rfl⟩

theorem requestAt_leased {s : State} {r : MemReq} {p : StackId × ChanId} (h : leasedAt s r = some p) :
    requestAt s r = { s with mem := { s.mem with waiting := s.mem.waiting ++ [(p.1, p.2, r)] } } := by
  simp only [requestAt, h]

theorem requestAt_free {s : State} {r : MemReq} (h : leasedAt s r = none) : requestAt s r = serve s r := by
  simp only [requestAt, h]

/-- A store at a controller, after the activation, is a store (R53, R165, R177). -/
theorem activated_store {s : State} (hsound : cellsWf s.mem.cells = true) (hal : s.aligned) (a : Nat) (data : List Byte) (poison : Bool) :
    let t := storeHbm (activate s a) a data poison
    HbmStep s t ∧ s.keeps t a data.length ∧ (s.job.replay = none → s.apart a data.length → readHbm t a data.length = data) ∧
      (s.job.replay.isSome = true → (∀ i < data.length, viaAliasW s (a + i) = true) → t.mem.cells = s.mem.cells) := by
  intro t
  obtain ⟨o, hact⟩ := activate_frame s a
  have hstep : HbmStep s (activate s a) := by
    rw [hact]
    exact hbmStep_plain s _ _ _ _ _ _ _ _ _ _
  have hmem : (activate s a).mem = s.mem := by rw [hact]
  have hread : ∀ b n, readHbm (activate s a) b n = readHbm s b n := fun b n => by rw [hact]; rfl
  have hal' : (activate s a).aligned := by rw [hact]; exact hal
  have hkey : ∀ b, keyOf (activate s a) b = keyOf s b := hstep.keyOf
  refine ⟨hstep.trans (storeHbm_hbm _ _ _ _), fun b hb => ?_, fun hr hapart => ?_, fun hr hv => ?_⟩
  · rw [← hread b 1]
    exact storeHbm_other _ hal' a data poison b fun i hi => by rw [hkey, hkey]; exact hb i hi
  · refine storeHbm_same _ hal' (by rw [hmem]; exact hsound) (by rw [hstep.replay]; exact hr) a data poison fun i j hi hj he => ?_
    rw [hkey, hkey] at he
    exact hapart i j hi hj he
  · rw [← hmem]
    refine storeHbm_discard _ a data poison (by rw [hstep.replay]; exact hr) fun i hi => ?_
    rw [← hv i hi, viaAliasW, hstep.regions]
    rfl

theorem sound_cells {s : State} (h : s.sound = true) : cellsWf s.mem.cells = true := by
  simp only [State.sound, Bool.and_eq_true] at h
  exact h.1.1

/-- Settles O33: a write that no lease holds is stored or refused; one that a lease holds waits. -/
theorem hbmWritesComplete : Obligations.HbmWritesComplete := by
  intro s a data poison hsound hal r
  refine ⟨fun hfree hok => ?_, fun cause hfree hbad => ?_, fun p hp => congrArg Host.Outcome.next (requestAt_leased hp)⟩
  · refine ⟨_, congrArg Host.Outcome.next ((requestAt_free hfree).trans ?_), activated_store (sound_cells hsound) hal a.toNat data poison⟩
    simp only [r, serve, hok]
  · refine congrArg Host.Outcome.next ((requestAt_free hfree).trans ?_)
    simp only [r, serve, hbad]

end Sys2Proof.Machine
end

section
/-! SUPPORT. An atomic update of one element at its unit (R180, R181, R184). -/

namespace Sys2Proof.Machine

section
variable {s : State} {fmt op : BitVec 4} {a : Nat}

theorem atomicMany_one (v : List Byte) :
    atomicMany s fmt op [(a, v.map fun b => (b, false))] = atomicElem s fmt op a (BitVec.ofNat 32 (leNat v)) := by
  simp [atomicMany, Function.comp_def]

theorem atomicMany_poisoned {v : List Byte} (hv : v ≠ []) : atomicMany s fmt op [(a, v.map fun b => (b, true))] = atomicPoison s a := by
  obtain ⟨b, rest, rfl⟩ := List.exists_cons_of_ne_nil hv
  simp [atomicMany]

/-- A source with poison takes nothing, and leaves its line poisoned (R180, R349). -/
theorem atomicPoison_does (hr : s.job.replay = none) :
    MemoryStep s (atomicPoison s a) ∧ (atomicPoison s a).mem.cells = s.mem.cells ∧ (∀ x, keyOf (atomicPoison s a) x = keyOf s x) ∧
      linePoison (atomicPoison s a) (keyOf s a / 64) = true := by
  obtain ⟨hstep, hcells, hkey, -, -, -, -⟩ := atomicEnter_enter s (ctrlOf s a) (keyOf s a / 64)
  obtain ⟨hbm, hmem⟩ := settleLine_hbm (atomicEnter s (ctrlOf s a) (keyOf s a / 64)) (keyOf s a / 64) true (viaAliasW s a)
  have hpoison : atomicPoison s a = settleLine (atomicEnter s (ctrlOf s a) (keyOf s a / 64)) (keyOf s a / 64) true (viaAliasW s a) := by
    simp only [atomicPoison, hr, Option.isSome_none, Bool.false_and, Bool.false_eq_true, if_false]
  rw [hpoison]
  refine ⟨hstep.trans hbm.memoryStep, by rw [hmem]; exact hcells, fun x => (hbm.keyOf x).trans (hkey x), ?_⟩
  rw [linePoison, hmem, contains_setTo, Bool.true_or]

end

/-- Settles O34: an atomic update of one element that no lease holds is its operation, or its poison. -/
theorem atomicsComplete : Obligations.AtomicsComplete := by
  intro s a fmt op data poison hsound hal hr n q hn hlen hok halign line
  refine ⟨fun hfree => ?_, fun p hp => congrArg Host.Outcome.next (requestAt_leased hp)⟩
  have hn0 : n ≠ 0 := by omega
  have hserve : exec (.atomicUpdate a fmt op data poison) s =
      .next (atomicMany (activate s a.toNat) fmt op [(a.toNat, data.map fun b => (b, poison))]) := by
    refine congrArg Host.Outcome.next ((requestAt_free hfree).trans ?_)
    have hok' : hbmCause s a.toNat data.length true (atomBytes fmt ≠ 0 && a.toNat % atomBytes fmt == 0) = none := by
      rw [hlen, decide_eq_true hn0, Bool.true_and]
      exact hok
    have helems : elemsAt (atomBytes fmt) a.toNat (data.map fun b => (b, poison)) = [(a.toNat, data.map fun b => (b, poison))] :=
      elemsAt_one n a.toNat _ hn (by rw [List.length_map]; exact hlen)
    have hn0' : atomBytes fmt ≠ 0 := hn0
    simp only [q, serve, hok', helems, if_neg hn0']
  obtain ⟨o, hact⟩ := activate_frame s a.toNat
  refine ⟨_, hserve, ?_⟩
  generalize hu : activate s a.toNat = u at *
  have hmem : u.mem = s.mem := by rw [hact]
  have hjob : u.job = s.job := by rw [hact]
  have hkey : ∀ x, keyOf u x = keyOf s x := fun x => by rw [hact]; rfl
  have hread : ∀ b m, readHbm u b m = readHbm s b m := fun b m => by rw [hact]; rfl
  have hstep : MemoryStep s u := by rw [hact]; rfl
  have hline : linePoison u = linePoison s := by rw [hact]; rfl
  cases poison with
  | false =>
    rw [atomicMany_one]
    obtain ⟨helem, hkeeps, hvalue, hpoisoned⟩ := atomicElem_does u fmt op a.toNat (BitVec.ofNat 32 (leNat data)) (by rw [hmem]; exact sound_cells hsound)
      (by rw [State.aligned, hmem]; exact hal) (by rw [hjob]; exact hr) hn halign
    rw [hkey, hline, hjob, readLe, hread] at hvalue
    rw [hkey, hmem, hjob] at hpoisoned
    refine ⟨hstep.trans helem, fun b hb => ?_, fun _ hclean => hvalue hclean, fun _ hp => hpoisoned hp, nofun⟩
    rw [← hread]
    exact hkeeps b fun i hi => by rw [hkey, hkey]; exact hb i hi
  | true =>
    have hne : data ≠ [] := by
      rintro rfl
      exact hn0 hlen.symm
    rw [atomicMany_poisoned hne]
    obtain ⟨hpoison, hcells, hkeyp, hlinep⟩ := atomicPoison_does (s := u) (a := a.toNat) (by rw [hjob]; exact hr)
    have hcells' : (atomicPoison u a.toNat).mem.cells = s.mem.cells := by rw [hcells, hmem]
    refine ⟨hstep.trans hpoison, fun b _ => ?_, nofun, nofun, fun _ => ⟨hcells', ?_⟩⟩
    · simp only [readHbm, hcells', hkeyp, hkey]
    · rw [hkey] at hlinep
      exact hlinep

end Sys2Proof.Machine
end

section
/-! SUPPORT. Reads, scrubbing, write-backs and refresh (R178, R181, R187, R191-R193). -/

namespace Sys2Proof.Machine

section
variable {s : State} {a errs : Nat}

/-- The poison of a line once it has been read: what it had, or an uncorrectable error (R192). -/
theorem linePoison_classRead (base line : Nat) :
    linePoison (classRead s base line errs true) line = (linePoison s line || decide (2 < errs)) := by
  have h := classRead_does s base line errs true
  unfold linePoison
  rw [h.poison, h.wcb]
  by_cases he : 2 < errs
  · have hput : (setPut line s.mem.poison).contains line = true := (contains_setPut _ _ _).2 (.inl rfl)
    rw [if_pos ⟨he, rfl⟩, hput, decide_eq_true he]
    simp
  · rw [if_neg (fun h => he h.1), decide_eq_false he, Bool.or_false]

/-- A read of a line delivers its bytes with its poison, and counts and rewrites what R192 says. -/
theorem readLineAt_does (s : State) (a errs : Nat) :
    let base := 64 * (a / 64)
    let line := keyOf s base / 64
    ∃ n, readLineAt s a errs = { classRead s base line errs true with
      mem := { (classRead s base line errs true).mem with poisonedReads := n },
      out := s.out ++ [.memData (readHbm s base 64) (linePoison s line || decide (2 < errs))] } := by
  intro base line
  have h := classRead_does s base line errs true
  have hread : readHbm (classRead s base line errs true) base 64 = readHbm s base 64 := by
    simp only [readHbm, h.cells, h.key]
  have hp := linePoison_classRead (s := s) (errs := errs) base line
  by_cases hpoison : linePoison (classRead s base line errs true) line = true
  · refine ⟨bump (classRead s base line errs true).mem.poisonedReads, ?_⟩
    rw [← hp, ← hread, ← h.out]
    simp only [readLineAt, State.say]
    rw [if_pos hpoison]
  · refine ⟨(classRead s base line errs true).mem.poisonedReads, ?_⟩
    rw [← hp, ← hread, ← h.out]
    simp only [readLineAt, State.say]
    rw [if_neg hpoison]

theorem scrubLine_free {since last : Bool} (h : leaseOn s (placeOf s (64 * (a / 64))).1 (placeOf s (64 * (a / 64))).2 = false) :
    ∃ n, scrubLine s a errs since last = { classRead s (64 * (a / 64)) (keyOf s (64 * (a / 64)) / 64) errs (!since) with
      mem := { (classRead s (64 * (a / 64)) (keyOf s (64 * (a / 64)) / 64) errs (!since)).mem with scrubPasses := n } } ∧
      n = s.mem.scrubPasses + if last then 1 else 0 := by
  have hread := classRead_does s (64 * (a / 64)) (keyOf s (64 * (a / 64)) / 64) errs (!since)
  cases last with
  | false =>
    refine ⟨(classRead s (64 * (a / 64)) (keyOf s (64 * (a / 64)) / 64) errs (!since)).mem.scrubPasses, ?_, ?_⟩
    · simp only [scrubLine, h, Bool.false_eq_true, if_false]
    · rw [hread.passes]
      simp
  | true =>
    refine ⟨bump (classRead s (64 * (a / 64)) (keyOf s (64 * (a / 64)) / 64) errs (!since)).mem.scrubPasses, ?_, ?_⟩
    · simp only [scrubLine, h, Bool.false_eq_true, if_false, if_true]
    · rw [hread.passes]
      rfl

/-- An idle entry goes back to its line, whose poison is the entry's, the line's, or an uncorrectable error's (R178). -/
theorem wcbBack_found {k : Fin 24} {l : Nat} {e : Wcb} (h : s.mem.wcb[k].find? (·.line == l) = some e) :
    (wcbBack s k l errs).mem.cells = s.mem.cells ∧
      (wcbBack s k l errs).mem.wcb = s.mem.wcb.set k (s.mem.wcb[k].filter (·.line != l)) ∧
      ((wcbBack s k l errs).mem.poison.contains l = true ↔ e.poison = true ∨ s.mem.poison.contains l = true ∨ 2 < errs) ∧
      MemoryStep s (wcbBack s k l errs) := by
  have hline : e.line = l := by simpa using List.find?_some h
  have hread := classRead_does s (64 * (l % 2 ^ 34)) l errs true
  obtain ⟨hstep, hmem⟩ := wcbWriteback_hbm (classRead s (64 * (l % 2 ^ 34)) l errs true) k e
  have hback : wcbBack s k l errs = wcbWriteback (classRead s (64 * (l % 2 ^ 34)) l errs true) k e := by simp only [wcbBack, h]
  rw [hback, hmem]
  refine ⟨hread.cells, ?_, ?_, hread.step.trans hstep.memoryStep⟩
  · rw [hline, hread.wcb]
    rfl
  · rw [hline, contains_setTo, hread.poison, Bool.or_eq_true]
    by_cases he : 2 < errs
    · rw [if_pos ⟨he, rfl⟩, contains_setPut]
      simp [he]
    · rw [if_neg (fun h => he h.1)]
      simp [he]

end

/-- Settles O35: reads, scrubbing, write-backs and refresh move no byte. -/
theorem memoryUpkeepCompletes : Obligations.MemoryUpkeepCompletes := by
  intro s a errs base line fixed lost
  refine ⟨fun hfree hok => ?_, fun p hp => congrArg Host.Outcome.next (requestAt_leased hp), fun since last hlease => ?_,
    fun k l e he => ⟨_, rfl, wcbBack_found he⟩, fun k l => rfl, fun stack chan bank hlease hpresent hself => ?_⟩
  · obtain ⟨o, hact⟩ := activate_frame s a.toNat
    have hexec : exec (.memRead a errs) s = .next (readLineAt (activate s a.toNat) a.toNat errs) := by
      refine congrArg Host.Outcome.next ((requestAt_free hfree).trans ?_)
      simp only [serve]
      rw [hok]
    refine ⟨_, hexec, ?_⟩
    obtain ⟨n, hread⟩ := readLineAt_does (activate s a.toNat) a.toNat errs
    have hclass := classRead_does (activate s a.toNat) base (keyOf (activate s a.toNat) base / 64) errs true
    have hstep : MemoryStep s (activate s a.toNat) := by rw [hact]; rfl
    have hkey : keyOf (activate s a.toNat) base / 64 = line := by rw [hact]; rfl
    have hmem : (activate s a.toNat).mem = s.mem := by rw [hact]
    have hbytes : readHbm (activate s a.toNat) base 64 = readHbm s base 64 := by rw [hact]; rfl
    have hplace : placeOf (activate s a.toNat) base = placeOf s base := by rw [hact]; rfl
    have hpoison : linePoison (activate s a.toNat) line = linePoison s line := by rw [hact]; rfl
    rw [hkey] at hclass hread
    rw [hbytes, hpoison] at hread
    rw [hread]
    refine ⟨hstep.trans (hclass.step.trans rfl), by rw [← hmem]; exact hclass.cells, rfl, ?_, ?_, fun he => ⟨?_, ?_⟩, fun he => ?_⟩
    · rw [← hmem]
      exact hclass.corrected.trans (by rw [hmem])
    · rw [← hmem]
      exact hclass.uncorrectable
    · change (classRead (activate s a.toNat) base line errs true).mem.poison.contains line = true
      rw [hclass.poison, if_pos ⟨he, rfl⟩]
      exact (contains_setPut _ _ _).2 (.inl rfl)
    · change (classRead (activate s a.toNat) base line errs true).mem.errorLog = _
      rw [hclass.log, if_pos he, hmem, hplace]
    · change (classRead (activate s a.toNat) base line errs true).mem.poison = _
      rw [hclass.poison, if_neg (fun h => absurd h.1 (by omega)), hmem]
  · obtain ⟨n, hscrub, hn⟩ := scrubLine_free (errs := errs) (since := since) (last := last) hlease
    have hclass := classRead_does s base line errs (!since)
    refine ⟨_, congrArg Host.Outcome.next hscrub, hclass.step.trans rfl, hclass.cells, hclass.corrected, hclass.uncorrectable, hn, ?_⟩
    refine hclass.poison.trans ?_
    simp only [Bool.not_eq_true']
  · refine congrArg Host.Outcome.next ?_
    simp only [hlease, hself, hpresent, Bool.or_self, Bool.not_true, Bool.false_eq_true, if_false]
    rfl

end Sys2Proof.Machine
end

section
/-! SUPPORT. Stack temperatures and retraining slices (R194, R196). -/

namespace Sys2Proof.Machine

section
variable {s : State} {k : StackId} {t : Temp}

/-- A reading at most 8 °C from the reference is noted (R196). -/
theorem stackTemp_near (hp : s.mem.hbmStacks[k].present = true) (h : (t.toInt - s.mem.hbmStacks[k].tRef.toInt).natAbs ≤ 32) :
    stackTemp s k t = { s with mem := { s.mem with hbmStacks := s.mem.hbmStacks.set k { s.mem.hbmStacks[k] with temp := t } } } := by
  have hgap : ¬ 32 < tempGap t s.mem.hbmStacks[k].tRef := not_lt.2 h
  simp only [stackTemp, hp, Bool.not_true, Bool.false_eq_true, if_false, hgap]

/-- A reading farther from the reference starts the retraining of every live channel (R196). -/
theorem stackTemp_far (hp : s.mem.hbmStacks[k].present = true) (h : 32 < (t.toInt - s.mem.hbmStacks[k].tRef.toInt).natAbs) :
    stackTemp s k t = { s with mem := { s.mem with hbmStacks := s.mem.hbmStacks.set k { s.mem.hbmStacks[k] with
      temp := t, tRef := t, retrains := s.mem.hbmStacks[k].retrains + 1, retrainLoad := loadClass s,
      chans := s.mem.hbmStacks[k].chans.map fun c => if c.live then { c with slicesLeft := 24 } else c } } } := by
  have hgap : 32 < tempGap t s.mem.hbmStacks[k].tRef := h
  simp only [stackTemp, hp, Bool.not_true, Bool.false_eq_true, if_false, hgap, if_true, bump]

/-- A retraining slice outside a lease: the last one's check decides (R196). -/
theorem retrainSliceAt_slice {c : ChanId} {ok : Bool} {settings : W64} (h : 0 < s.mem.hbmStacks[k].chans[c].slicesLeft)
    (hlease : leaseOn s k.val c.val = false) :
    let st := s.mem.hbmStacks[k]
    let left := st.chans[c].slicesLeft - 1
    let load := if st.retrainLoad < loadClass s then loadClass s else st.retrainLoad
    retrainSliceAt s k c ok settings = { s with
      out := s.out ++ [.refreshAll k c],
      mem := { s.mem with hbmStacks := s.mem.hbmStacks.set k { st with
        retrainLoad := load, retrainFail := st.retrainFail + (if left = 0 ∧ ok = false then 1 else 0),
        chans := st.chans.set c (if left = 0 ∧ ok = true then { st.chans[c] with slicesLeft := 0, tTemp := st.tRef, tLoad := load, settings := settings }
                                 else { st.chans[c] with slicesLeft := left }) } } } := by
  intro st left load
  have hgo : (decide (s.mem.hbmStacks[k].chans[c].slicesLeft = 0) || leaseOn s k.val c.val) = false := by
    rw [hlease, decide_eq_false h.ne', Bool.or_false]
  by_cases hleft : s.mem.hbmStacks[k].chans[c].slicesLeft - 1 = 0
  · cases ok <;> simp only [retrainSliceAt, hgo, st, left, load, hleft, State.say, bump, decide_true, Bool.true_and, Bool.not_true,
      Bool.not_false, Bool.false_eq_true, Bool.true_eq_false, true_and, if_true, if_false]
    simp
  · simp only [retrainSliceAt, hgo, st, left, load, hleft, State.say, decide_false, Bool.false_and, Bool.false_eq_true, false_and, if_false]
    simp

end

/-- Settles O36: a reading and a retraining slice act as R196 says. -/
theorem stacksRetrain : Obligations.StacksRetrain := by
  intro s k st
  refine ⟨fun t hp h => congrArg Host.Outcome.next (stackTemp_near hp h), fun t hp h => ?_, fun c ok settings h hlease => ?_⟩
  · exact congrArg Host.Outcome.next (stackTemp_far hp h)
  · have hslice := retrainSliceAt_slice (ok := ok) (settings := settings) h hlease
    refine ⟨_, congrArg Host.Outcome.next hslice, rfl, rfl⟩

end Sys2Proof.Machine
end

section
/-! SUPPORT. The router's answer to a header, and a packet's tail at its destination (R202-R207, R213, R220, R221, R282). -/

namespace Sys2Proof.Machine

/-- A header that ends a port's silence leaves the router as alive as it was. -/
theorem heard_routerDead (s : State) (n : Nat) : (heard s n).fab.routerDead = s.fab.routerDead := by
  unfold heard
  split
  · split
    · obtain ⟨P, hport⟩ := updPort_frame s n fun q => { q with silent := false }
      obtain ⟨h, o, hevent⟩ := raiseEvent_frame { updPort s n (fun q => { q with silent := false }) with
        free := (updPort s n fun q => { q with silent := false }).free + 16 } 0x03
        (freeBytes (updPort s n fun q => { q with silent := false }).free 16)
      dsimp only
      rw [raiseOpen, hevent, hport]
    · rfl
  · rfl

/-- A packet as it leaves its input buffer: marked where its channel is congested (R213). -/
theorem markCe_keeps (s : State) (port : Nat) (vc : Fin 8) (p : Packet) :
    (markCe s port vc p).formed = p.formed ∧ (markCe s port vc p).type = p.type ∧ (markCe s port vc p).hops = p.hops ∧
      (markCe s port vc p).dst = p.dst ∧ (markCe s port vc p).src = p.src ∧ (markCe s port vc p).flits = p.flits := by
  unfold markCe
  split <;> exact ⟨rfl, rfl, rfl, rfl, rfl, rfl⟩

/-- The state in which a packet's flits have left their input buffer. -/
def leftBuffer (s : State) (port : Fin 10) (vc : Fin 8) (p : Packet) : State := leaveBuffer s port.val vc p.flits (marking s port.val vc)

/-- What a live router does with a header on a port that is not silent. -/
theorem routeHeader_loud {s : State} {port : Fin 10} (vc : Fin 8) (p : Packet)
    (hloud : ∀ h : port.val < 8, (s.fab.ports[(⟨port.val, h⟩ : Fin 8)]).silent = false) (halive : s.fab.routerDead = false) :
    routeHeader s port vc p =
      if !p.formed then updPort (leftBuffer s port vc p) port.val fun x => { x with malformed := x.malformed + 1 }
      else if p.type = 0x1B then emit (leftBuffer s port vc p) 8 vc port vc (markCe s port.val vc p)
      else if p.hops = 1023 && p.dst ≠ s.fab.chip then countMisrouted (leftBuffer s port vc p) port.val
      else if routeFenced (routeOf s p.dst) then
        (if p.type = 0x19 then leftBuffer s port vc p else fenceNoticeFor (leftBuffer s port vc p) p.dst (markCe s port.val vc p))
      else if chipFenced s p.src then fenceNoticeFor (leftBuffer s port vc p) p.src (markCe s port.val vc p)
      else if !routeUsable (routeOf s p.dst) then countMisrouted (leftBuffer s port vc p) port.val
      else
        let out := Fin.ofNat 8 (2 * (typeClass p.type).getD 3 + nextSet s (routeOf s p.dst) port.val vc)
        if routePort (routeOf s p.dst) < 8 then emit s (routePort (routeOf s p.dst)) out port vc p
        else emit (leftBuffer s port vc p) (routePort (routeOf s p.dst)) out port vc (markCe s port.val vc p) := by
  obtain ⟨hformed, htype, hhops, hdst, hsrc, hflits⟩ := markCe_keeps s port.val vc p
  simp only [routeHeader, heard_loud s port.val hloud, halive, hformed, htype, hhops, hdst, hsrc, hflits, Bool.false_eq_true, if_false]
  rfl

section
variable {s : State} {port : Fin 10} {vc : Fin 8} {p : Packet}

theorem routeHeader_dead (h : s.fab.routerDead = true) : routeHeader s port vc p = s := by
  have hdead : (heard s port.val).fab.routerDead = true := (heard_routerDead s port.val).trans h
  simp only [routeHeader, hdead, if_true]

theorem emit_network {n : Nat} (h : n < 8) (out : Fin 8) :
    emit s n out port vc p = updPort s n fun x => { x with outQ := x.outQ ++ [{ vc := out, p := { p with hops := p.hops + 1 }, inPort := port, inVc := vc, sent := 0 }] } := by
  rw [emit, if_pos h]

theorem emit_local {n : Nat} (h : ¬ n < 8) (out : Fin 8) : emit s n out port vc p = s.say (.packet (Fin.ofNat 10 n) p) := by
  rw [emit, if_neg h]

theorem accepting_discard (f : State → State) (h : p.intact = false) : accepting s p f = discardPacket s p := by
  rw [accepting, h, if_neg Bool.false_ne_true]

theorem stomped_not_intact (h : p.stomps ≠ 0) : p.intact = false := by
  rw [Packet.intact, beq_false_of_ne h, Bool.false_and]

end

/-- Settles O37: a header is routed by its form, its type, its hops, its fences and its route, and a packet's tail is accepted or discarded. -/
theorem packetsRouted : Obligations.PacketsRouted := by
  intro s p
  refine ⟨fun port vc hloud halive => ?_, fun port vc hdead => ?_, fun hstomps => ?_, fun hstomps => ?_⟩
  · intro marked q left e out
    have hroute := routeHeader_loud vc p hloud halive
    have hexec : exec (.routeLookup port vc p) s = .next (routeHeader s port vc p) := rfl
    rw [hexec, hroute]
    have hgo : ∀ b : Bool, b = true → ¬ (!b) = true := by decide
    refine ⟨fun hform htype hhops huse hfence hsrc => ?_, fun hform htype => ?_, fun hform => ?_, fun hform htype hcase => ?_,
      fun hform htype hhops hfence => ?_, fun hform htype hhops hfence hsrc => ?_⟩
    · have hnear : ¬ (p.hops = 1023 && p.dst ≠ s.fab.chip) = true := by
        rcases hhops with h | h
        · rw [decide_eq_false h]
          simp
        · simp [h]
      have hnofence : ¬ routeFenced (routeOf s p.dst) = true := by rw [hfence]; decide
      have hnosrc : ¬ chipFenced s p.src = true := by rw [hsrc]; decide
      rw [if_neg (hgo _ hform), if_neg htype, if_neg hnear, if_neg hnofence, if_neg hnosrc, if_neg (hgo _ huse)]
      by_cases hport : routePort (routeOf s p.dst) < 8
      · rw [if_pos hport, if_pos hport, emit_network hport]
      · rw [if_neg hport, if_neg hport, emit_local hport]
        rfl
    · rw [if_neg (hgo _ hform), if_pos htype, emit_local (by decide)]
      rfl
    · rw [if_pos (by rw [hform]; rfl)]
      rfl
    · rcases hcase with ⟨hhops, hdst⟩ | ⟨huse, hfence, hsrc⟩
      · have hfar : (p.hops = 1023 && p.dst ≠ s.fab.chip) = true := by simp [hhops, hdst]
        rw [if_neg (hgo _ hform), if_neg htype, if_pos hfar]
        rfl
      · have hnofence : ¬ routeFenced (routeOf s p.dst) = true := by rw [hfence]; decide
        have hnosrc : ¬ chipFenced s p.src = true := by rw [hsrc]; decide
        have hnouse : (!routeUsable (routeOf s p.dst)) = true := by rw [huse]; rfl
        rw [if_neg (hgo _ hform), if_neg htype, if_neg hnofence, if_neg hnosrc, if_pos hnouse, ite_self]
        rfl
    · have hnear : ¬ (p.hops = 1023 && p.dst ≠ s.fab.chip) = true := by rw [decide_eq_false hhops]; simp
      rw [if_neg (hgo _ hform), if_neg htype, if_neg hnear, if_pos hfence]
      rfl
    · have hnear : ¬ (p.hops = 1023 && p.dst ≠ s.fab.chip) = true := by rw [decide_eq_false hhops]; simp
      have hnofence : ¬ routeFenced (routeOf s p.dst) = true := by rw [hfence]; decide
      rw [if_neg (hgo _ hform), if_neg htype, if_neg hnear, if_neg hnofence, if_pos hsrc]
      rfl
  · exact congrArg Host.Outcome.next (routeHeader_dead hdead)
  · have hbad := stomped_not_intact hstomps
    have hingress : exec (.packetIngress p) s = .next (discardPacket s p) := by
      refine congrArg Host.Outcome.next ?_
      rw [ingress, hbad, if_neg Bool.false_ne_true]
    have hdiscard : discardPacket s p = { s with fab := { s.fab with stompDiscard := s.fab.stompDiscard + 1 } } := if_pos hstomps
    refine ⟨by rw [hingress, hdiscard], ?_⟩
    rw [hingress]
    simp only [List.forall_mem_cons, List.not_mem_nil, false_imp_iff, implies_true, and_true]
    exact ⟨congrArg _ (accepting_discard _ hbad), congrArg _ (accepting_discard _ hbad), congrArg _ (accepting_discard _ hbad)⟩
  · refine congrArg Host.Outcome.next ?_
    have hintact : p.intact = (p.crc == p.check) := by rw [Packet.intact, hstomps, beq_self_eq_true, Bool.true_and]
    by_cases hcrc : p.crc = p.check
    · rw [ingress, hintact, if_pos hcrc, if_pos (beq_iff_eq.2 hcrc)]
    · rw [ingress, hintact, if_neg hcrc, if_neg (fun h => hcrc (beq_iff_eq.1 h))]
      exact if_neg (fun h => h hstomps)

end Sys2Proof.Machine
end

section
/-! SUPPORT. Requests at their responder: answered, refused, held, discarded (R74, R175, R201, R204, R220). -/

namespace Sys2Proof.Machine

section
variable {s : State} {p : Packet}

theorem request_held (hi : p.intact = true) (hm : mustHold s p = true) : accepting s p (request · p) =
    { s with mem := { s.mem with held := s.mem.held ++ [{ p := p }] } } := by
  simp only [accepting, hi, request, hm, if_true]
  rfl

theorem ingress_discard (h : p.intact = false) : ingress s p = discardPacket s p := by
  rw [ingress, h, if_neg Bool.false_ne_true]

/-- A request of one of the three types is what its command makes of it (R203). -/
theorem exec_request (c : Byte × Instr) (hc : c ∈ [((0x01 : Byte), Instr.getreq p), (0x02, Instr.put p), (0x03, Instr.atomic p)]) :
    exec c.2 s = .next (accepting s { p with type := c.1 } (request · { p with type := c.1 })) := by
  simp only [List.mem_cons, List.not_mem_nil, or_false] at hc
  rcases hc with rfl | rfl | rfl <;> rfl

end

/-- Settles O38: a request is answered, refused, held or discarded by its responder. -/
theorem requestsAnswered : Obligations.RequestsAnswered := by
  intro s p a
  refine ⟨fun hnow => ?_, fun c hc => ⟨fun hheld hintact => ?_, fun hbad => ?_⟩, fun i h hi => ⟨fun hnow => ?_, fun hheld => ?_⟩⟩
  · have hready : ∀ c : Byte × Instr, c ∈ [((0x01 : Byte), Instr.getreq p), (0x02, Instr.put p), (0x03, Instr.atomic p)] →
        ({ p with type := c.1 } : Packet).intact = true → exec c.2 s = .next (respond s { p with type := c.1 }) := fun c hc hintact =>
      (exec_request c hc).trans (congrArg _ (request_now s _ hintact (by rw [mustHold_type]; exact hnow)))
    refine ⟨fun hintact hok => ?_, fun hintact hok => ?_, fun hintact hok => ?_, fun x hintact hbad => ?_, fun x hintact hbad => ?_,
      fun x hintact hbad => ?_⟩
    · exact (hready (0x01, .getreq p) (by simp) hintact).trans (congrArg _ ((respond_get s { p with type := 1 } rfl).2 hok))
    · exact (hready (0x02, .put p) (by simp) hintact).trans (congrArg _ ((respond_put s { p with type := 2 } rfl).2 hok))
    · exact (hready (0x03, .atomic p) (by simp) hintact).trans (congrArg _ ((respond_atom s { p with type := 3 } rfl).2 hok))
    · exact (hready (0x01, .getreq p) (by simp) hintact).trans (congrArg _ ((respond_get s { p with type := 1 } rfl).1 x hbad))
    · exact (hready (0x02, .put p) (by simp) hintact).trans (congrArg _ ((respond_put s { p with type := 2 } rfl).1 x hbad))
    · exact (hready (0x03, .atomic p) (by simp) hintact).trans (congrArg _ ((respond_atom s { p with type := 3 } rfl).1 x hbad))
  · exact (exec_request c hc).trans (congrArg _ (request_held hintact (by rw [mustHold_type]; exact hheld)))
  · refine (exec_request c hc).trans (congrArg Host.Outcome.next ?_)
    rw [accepting_discard _ hbad, ingress_discard hbad]
  · refine congrArg Host.Outcome.next ?_
    simp only [releaseHeld, hi, hnow, Bool.false_eq_true, if_false]
  · refine congrArg Host.Outcome.next ?_
    simp only [releaseHeld, hi, hheld, if_true]

end Sys2Proof.Machine
end

section
/-! SUPPORT. Completions, fence notices and their attempts (R75, R204, R214, R217, R218, R221). -/

namespace Sys2Proof.Machine

/-! ## An answer and its tag (R217, R218) -/

section
variable {s : State} {p : Packet}

theorem accepting_intact (f : State → State) (h : p.intact = true) : accepting s p f = f s := by
  rw [accepting, if_pos h]

/-- An answer to no live attempt: void where this tick has brought the attempt's end, else dropped and counted. -/
def droppedAnswer (s : State) (p : Packet) : State := if endedNow s p.tag p.attempt then s else lateCompletion s

theorem droppedAnswer_eq : droppedAnswer s p = if s.fab.endedAt = s.now ∧ (p.tag, p.attempt) ∈ s.fab.ended then s
    else { s with fab := { s.fab with lateCompletion := s.fab.lateCompletion + 1 } } := by
  unfold droppedAnswer endedNow
  simp only [Bool.and_eq_true, beq_iff_eq, List.contains_iff_mem]
  rfl

theorem completeAck_late (h : findTag s p.tag p.attempt = none) : completeAck s p = droppedAnswer s p := by
  simp only [completeAck, h]
  rfl

theorem completeData_late (h : findTag s p.tag p.attempt = none) : completeData s p = droppedAnswer s p := by
  by_cases hst : p.status = 0
  · simp only [completeData, hst, h, ne_eq, not_true, if_false]
    rfl
  · rw [completeData, if_pos hst, completeAck_late h]

/-- The state in which an answer has ended its attempt: the window updated, the tag free. -/
def answered (s : State) (p : Packet) (t : Tag) : State := endTag (completeWin s t (p.ece || p.ce)) t

theorem answered_frame (s : State) (p : Packet) (t : Tag) : (answered s p t).cores = s.cores ∧ (answered s p t).job = s.job ∧
    (answered s p t).flt = s.flt ∧ (answered s p t).glb = s.glb ∧ (answered s p t).fab.ports = s.fab.ports ∧
    (answered s p t).fab.routes = s.fab.routes := ⟨rfl, rfl, rfl, rfl, rfl, rfl⟩

variable {t : Tag} {c : CoreId} {seq : Nat}

theorem completeAck_done (h : findTag s p.tag p.attempt = some t) (hi : t.issuer = .access c seq) (hst : p.status = 0) :
    completeAck s p = closeFlight (answered s p t) c seq := by
  have hzero : p.status.toNat = 0 := by rw [hst]; rfl
  simp only [completeAck, h, hzero, hi, closeIssuer]
  rfl

theorem completeData_done (h : findTag s p.tag p.attempt = some t) (hi : t.issuer = .access c seq) (hst : p.status = 0) :
    completeData s p = closeFlight (placeData (answered s p t) t.dest p.bytes) c seq := by
  simp only [completeData, h, hst, hi, closeIssuer, ne_eq, not_true, if_false]
  rfl

theorem completeAck_notice (h : findTag s p.tag p.attempt = some t) (hst : p.status = 1) :
    completeAck s p = updTag s t.tag fun x => { x with noticed := true } := by
  have hone : p.status.toNat = 1 := by rw [hst]; rfl
  simp only [completeAck, h, hone, if_true]

/-- An error status refuses the remote operation, with the responder's cause, or 0x11 and a count for a reserved one. -/
theorem completeAck_error (h : findTag s p.tag p.attempt = some t) (hst : 2 ≤ p.status.toNat) :
    completeAck s p = if 0x10 ≤ p.status.toNat ∧ p.status.toNat ≤ 0x17 then refusedRemote (answered s p t) t p p.status.toNat
      else refusedRemote (countReserved (answered s p t) p) t p 0x11 := by
  have hone : p.status.toNat ≠ 1 := by omega
  have hzero : p.status.toNat ≠ 0 := by omega
  simp only [completeAck, h, hone, hzero, if_false, Bool.and_eq_true, decide_eq_true_eq]
  rfl

theorem countReserved_frame (s : State) (p : Packet) : ∃ P, countReserved s p = { s with fab := { s.fab with ports := P } } := updPort_frame _ _ _

theorem updPort_ports {u v : State} (n : Nat) (f : Port → Port) (h : u.fab.ports = v.fab.ports) :
    (updPort u n f).fab.ports = (updPort v n f).fab.ports := by
  unfold updPort
  split
  · exact congrArg (fun P => vmod P _ f) h
  · exact h

theorem refusedRemote_access {u : State} {f : Flight} (status : Nat) (hi : t.issuer = .access c seq)
    (hf : (u.core c).access.flights.find? (·.seq == seq) = some f) :
    refusedRemote u t p status = flightFault u c f codeHbmRange (0x80 + status) fun r => { r with chip := p.src, addr := t.p.addr } := by
  simp only [refusedRemote, hi, hf]

/-- The fault of an access's error status (R77, R204, R345): the tag stays free and the window updated; a reserved status counts. -/
theorem completeAck_fault {f : Flight} (h : findTag s p.tag p.attempt = some t) (hi : t.issuer = .access c seq)
    (hst : 2 ≤ p.status.toNat) (hf : (s.core c).access.flights.find? (·.seq == seq) = some f) (hfresh : s.unfaulted c) (he : s.earliest c f) :
    let cause := if 0x10 ≤ p.status.toNat ∧ p.status.toNat ≤ 0x17 then 0x80 + p.status.toNat else 0x91
    (completeAck s p).fab.tags = (answered s p t).fab.tags ∧ (completeAck s p).fab.wins = (answered s p t).fab.wins ∧
      (completeAck s p).fab.ports = (if 0x10 ≤ p.status.toNat ∧ p.status.toNat ≤ 0x17 then s else countReserved s p).fab.ports ∧
      s.faultOf (completeAck s p) c { accessRecord f.index f.instr codeHbmRange cause with chip := p.src, addr := t.p.addr } := by
  intro cause
  obtain ⟨hcores, hjob, hflt, hglb, hports, -⟩ := answered_frame s p t
  have hfind : ∀ u : State, u.cores = s.cores → (u.core c).access.flights.find? (·.seq == seq) = some f := fun u hu => by
    rw [State.core, hu]
    exact hf
  rw [completeAck_error h hst]
  by_cases hrange : 0x10 ≤ p.status.toNat ∧ p.status.toNat ≤ 0x17
  · have hcause : cause = 0x80 + p.status.toNat := if_pos hrange
    rw [if_pos hrange, if_pos hrange, refusedRemote_access _ hi (hfind _ hcores), hcause]
    obtain ⟨hfab, hfault⟩ := flightFault_faultOf s (answered s p t) c f codeHbmRange (0x80 + p.status.toNat)
      (fun r => { r with chip := p.src, addr := t.p.addr }) hfresh he hcores hjob hflt hglb
    exact ⟨by rw [hfab], by rw [hfab], by rw [hfab]; exact hports, hfault⟩
  · have hcause : cause = 0x91 := if_neg hrange
    obtain ⟨P, hcount⟩ := countReserved_frame (answered s p t) p
    have hcores' : (countReserved (answered s p t) p).cores = s.cores := by rw [hcount]; exact hcores
    rw [if_neg hrange, if_neg hrange, refusedRemote_access _ hi (hfind _ hcores'), hcause]
    obtain ⟨hfab, hfault⟩ := flightFault_faultOf s (countReserved (answered s p t) p) c f codeHbmRange 0x91
      (fun r => { r with chip := p.src, addr := t.p.addr }) hfresh he hcores' (by rw [hcount]; exact hjob) (by rw [hcount]; exact hflt)
      (by rw [hcount]; exact hglb)
    refine ⟨by rw [hfab, hcount], by rw [hfab, hcount], ?_, hfault⟩
    rw [hfab]
    exact updPort_ports _ _ hports

/-! ## Fence notices (R218, R221) -/

/-- A fence notice received and counted. -/
def noticed (s : State) : State := { s with fab := { s.fab with fenceRx := s.fab.fenceRx + 1 } }

/-- The state in which a fence notice has ended its attempt. -/
def noticeEnded (s : State) (t : Tag) : State := endTag (releaseWin (noticed s) t) t

theorem noticeEnded_frame (s : State) (t : Tag) : (noticeEnded s t).cores = s.cores ∧ (noticeEnded s t).job = s.job ∧
    (noticeEnded s t).flt = s.flt ∧ (noticeEnded s t).glb = s.glb ∧ (noticeEnded s t).fab.fenceRx = s.fab.fenceRx + 1 := by
  simp only [noticeEnded, endTag, freeTag, releaseWin, updWin, noticed, and_self]

/-- What a fence notice does to its attempt, whoever is fenced. -/
def noticeTaken (s : State) (p : Packet) : State :=
  if endsNow s p.tag p.attempt || endedNow s p.tag p.attempt then noticed s
  else match findTag s p.tag p.attempt with
    | some t => reportFenced (noticeEnded s t) t.issuer t.p 0
    | none => { noticed s with fab := { (noticed s).fab with lateFence := bump (noticed s).fab.lateFence } }

theorem fenceNotice_eq : fenceNotice s p =
    if BitVec.ofNat 16 (leAt p.cls 0 2) = s.fab.chip && !s.fab.fenced then fencedSelf (noticeTaken s p) else noticeTaken s p := rfl

theorem fenceNotice_other (h : BitVec.ofNat 16 (leAt p.cls 0 2) ≠ s.fab.chip ∨ s.fab.fenced = true) : fenceNotice s p = noticeTaken s p := by
  rw [fenceNotice_eq, if_neg]
  rcases h with h | h <;> simp [h]

theorem noticeTaken_void (h : endsNow s p.tag p.attempt = true ∨ endedNow s p.tag p.attempt = true) : noticeTaken s p = noticed s := by
  rw [noticeTaken, if_pos (by simpa using h)]

theorem noticeTaken_late (h : findTag s p.tag p.attempt = none) (he : endsNow s p.tag p.attempt = false) (hd : endedNow s p.tag p.attempt = false) :
    noticeTaken s p = { s with fab := { s.fab with fenceRx := s.fab.fenceRx + 1, lateFence := s.fab.lateFence + 1 } } := by
  simp only [noticeTaken, he, hd, h, Bool.or_self, Bool.false_eq_true, if_false]
  rfl

/-- The fault of an access whose destination is fenced (R77, R345). -/
theorem noticeTaken_fault {f : Flight} (h : findTag s p.tag p.attempt = some t) (hi : t.issuer = .access c seq)
    (hf : (s.core c).access.flights.find? (·.seq == seq) = some f) (hfresh : s.unfaulted c) (hearly : s.earliest c f)
    (he : endsNow s p.tag p.attempt = false) (hd : endedNow s p.tag p.attempt = false) :
    (noticeTaken s p).fab.fenceRx = s.fab.fenceRx + 1 ∧ (∀ x ∈ (noticeTaken s p).fab.tags, x.tag ≠ t.tag) ∧
      s.faultOf (noticeTaken s p) c { accessRecord f.index f.instr codeFenced 0 with chip := t.p.dst } := by
  obtain ⟨hcores, hjob, hflt, hglb, hcount⟩ := noticeEnded_frame s t
  have hf' : ((noticeEnded s t).core c).access.flights.find? (·.seq == seq) = some f := by
    rw [State.core, hcores]
    exact hf
  have htaken : noticeTaken s p = flightFault (noticeEnded s t) c f codeFenced 0 fun r => { r with chip := t.p.dst } := by
    simp only [noticeTaken, he, hd, h, Bool.or_self, Bool.false_eq_true, if_false, reportFenced, hi, hf']
  obtain ⟨hfab, hfault⟩ := flightFault_faultOf s (noticeEnded s t) c f codeFenced 0 (fun r => { r with chip := t.p.dst })
    hfresh hearly hcores hjob hflt hglb
  rw [htaken, hfab]
  exact ⟨hcount, fun x hx => endTag_gone _ t x hx, hfault⟩

end

/-- Settles O39: an answer ends its attempt, is a notice, an error or a fence's; an answer to no live attempt is dropped. That the record's
address is the start of the refused packet is the model's choice (log entry 83). -/
theorem completionsTaken : Obligations.CompletionsTaken := by
  intro s p hintact
  have hack : exec (.ack p) s = .next (completeAck s p) := congrArg Host.Outcome.next (accepting_intact _ hintact)
  have hdata : exec (.getdata p) s = .next (completeData s p) := congrArg Host.Outcome.next (accepting_intact _ hintact)
  have hfence : exec (.fenceNotice p) s = .next (fenceNotice s p) := congrArg Host.Outcome.next (accepting_intact _ hintact)
  rw [hack, hdata, hfence]
  refine ⟨fun hlate => ?_, fun t c seq htag hi => ?_, fun hother => ?_, fun hself hopen => ?_⟩
  · intro u
    have hu : droppedAnswer s p = u := droppedAnswer_eq
    rw [completeAck_late hlate, completeData_late hlate, hu]
    exact ⟨rfl, rfl⟩
  · intro u
    refine ⟨fun hst => ⟨congrArg _ (completeAck_done htag hi hst), congrArg _ (completeData_done htag hi hst)⟩, fun hst => ?_,
      fun hst => congrArg _ (completeAck_notice htag hst), fun f hf hfresh hearly => ⟨fun hst => ?_, fun hother he hd => ?_⟩⟩
    · rw [completeData, if_pos hst]
    · exact ⟨_, rfl, completeAck_fault htag hi hst hf hfresh hearly⟩
    · rw [fenceNotice_other hother]
      exact ⟨_, rfl, noticeTaken_fault htag hi hf hfresh hearly he hd⟩
  · rw [fenceNotice_other hother]
    exact ⟨fun h => congrArg _ (noticeTaken_void h), fun h he hd => congrArg _ (noticeTaken_late h he hd)⟩
  · have hboth : (BitVec.ofNat 16 (leAt p.cls 0 2) = s.fab.chip && !s.fab.fenced) = true := by simp [hself, hopen]
    refine ⟨_, rfl, ?_⟩
    rw [fenceNotice_eq, if_pos hboth]
    obtain ⟨hcinches, hfab, hcores⟩ := fencedSelf_does (noticeTaken s p)
    exact ⟨by rw [hfab], hcinches, by rw [hfab], hcores⟩

end Sys2Proof.Machine
end

section
/-! SUPPORT. Sends and timers: the state a sent packet leaves, and what a timer's expiry and a retry notice do. -/

namespace Sys2Proof.Machine

/-! ## A packet is sent under its tag (R211, R215, R216, R223) -/

/-- The state in which a tag is armed and its packet's charge taken, the packet not yet on its port. -/
def charged (s : State) (t : Tag) (e : WinEntry) (rest : List WinEntry) : State :=
  { s with fab := { s.fab with
    tags := s.fab.tags.filter (·.tag != t.tag) ++
      [{ t with sent := true, sentTick := s.now, noticed := false, timeout := s.fab.timeout, retries := s.fab.retries }],
    wins := rest ++ [if windowed t.p then { e with outstanding := e.outstanding + t.p.charge } else e] } }

theorem injectTagged_charged (s : State) (t : Tag) (e : WinEntry) (rest : List WinEntry) :
    injectTagged s t e rest = inject (charged s t e rest) { t.p with step := s.job.step, tag := t.tag } := rfl

section
variable {s : State}

/-- A packet whose route is usable leaves on its port. -/
theorem inject_usable {p : Packet} (huse : routeUsable (routeOf s p.dst) = true) (hfence : routeFenced (routeOf s p.dst) = false) :
    inject s p = emit s (routePort (routeOf s p.dst)) (injectVc (routeOf s p.dst) ((typeClass p.type).getD 3))
      (if p.type = 0x10 || p.type = 0x18 then 9 else 8) 0 p.sealed := by
  simp only [inject, hfence, huse, Bool.not_true, Bool.false_eq_true, if_false]

/-- The state in which waiting packet `i` has left the send queue under the fresh tag `n`, armed and charged. -/
def sentState (s : State) (i : Nat) (q : SendReq) (n : BitVec 15) (w : WinEntry) (rest : List WinEntry) : State :=
  charged { s with fab := { s.fab with sendQ := s.fab.sendQ.eraseIdx i } } (q.fresh n) w rest

theorem sendOne_emits {i : Nat} {q : SendReq} {n : BitVec 15} {w : WinEntry} {rest : List WinEntry} (hq : s.fab.sendQ[i]? = some q)
    (hopen : s.fab.fenced = false) (hgo : s.job.quiescing = false) (huse : routeUsable (routeOf s q.p.dst) = true)
    (hfence : routeFenced (routeOf s q.p.dst) = false) (hheld : q.held = none) (htag : pickTag s q.issuer = some n)
    (hwin : takeWin s q.p.dst = some (w, rest)) (hroom : windowed q.p = true → winRoom w q.p.charge = true)
    (hcredit : hasCredit s (routePort (routeOf s q.p.dst)) (injectVc (routeOf s q.p.dst) ((typeClass q.p.type).getD 3)) = true) :
    sendOne s i = emit (sentState s i q n w rest) (routePort (routeOf s q.p.dst))
      (injectVc (routeOf s q.p.dst) ((typeClass q.p.type).getD 3)) (if q.p.type = 0x10 || q.p.type = 0x18 then 9 else 8) 0
      ({ q.p with step := s.job.step, tag := n } : Packet).sealed := by
  rw [sendOne_sends s i q n w rest hq hopen hgo hfence hheld htag hwin hroom hcredit, injectTagged_charged]
  exact inject_usable (p := { q.p with step := s.job.step, tag := n }) huse hfence

/-- A packet queued on a port of the network. -/
theorem emit_queues {n : Nat} (h : n < 8) (vc : Fin 8) (inPort : Fin 10) (inVc : Fin 8) (p : Packet) :
    ∃ P, emit s n vc inPort inVc p = { s with fab := { s.fab with ports := P } } ∧ (P[(⟨n, h⟩ : PortId)]).outQ =
      (s.fab.ports[(⟨n, h⟩ : PortId)]).outQ ++ [{ vc := vc, p := { p with hops := p.hops + 1 }, inPort := inPort, inVc := inVc, sent := 0 }] := by
  rw [emit, if_pos h, updPort, dif_pos h]
  exact ⟨_, rfl, by simp [vmod]⟩

end

/-! ## Timers (R214, R219) -/

section
variable {s : State} {t : Tag} {elapsed : W32}

theorem timerExpires_void (h : s.fab.tags.find? (·.tag == t.tag) = some t)
    (hv : completesNow s t.tag t.p.attempt = true ∨ fencedNow s t.tag t.p.attempt = true) : timerExpires s t.tag elapsed = s := by
  have hskip : (!t.sent || t.noticed || completesNow s t.tag t.p.attempt || fencedNow s t.tag t.p.attempt) = true := by
    rcases hv with hv | hv <;> simp [hv]
  simp only [timerExpires, h, hskip, if_true]

/-- The state in which a timer's expiry is counted and its window has shrunk. -/
def timedOut (s : State) (t : Tag) : State := timeoutWin { s with fab := { s.fab with timeouts := s.fab.timeouts + 1 } } t

theorem timedOut_frame (s : State) (t : Tag) : ∃ w, timedOut s t = { s with fab := { s.fab with timeouts := s.fab.timeouts + 1, wins := w } } :=
  ⟨_, rfl⟩

theorem timerExpires_live (h : s.fab.tags.find? (·.tag == t.tag) = some t) (hsent : t.sent = true) (hn : t.noticed = false)
    (hc : completesNow s t.tag t.p.attempt = false) (hf : fencedNow s t.tag t.p.attempt = false) :
    timerExpires s t.tag elapsed =
      if t.resendable then
        let p := { t.p with attempt := t.p.attempt + 1 }
        sendOne { timedOut s t with fab := { (timedOut s t).fab with
          retriesSent := s.fab.retriesSent + 1,
          tags := s.fab.tags.map fun x => if x.tag == t.tag then { t with p := p, used := t.used + 1, sent := false, resent := false } else x,
          sendQ := s.fab.sendQ ++ [{ issuer := t.issuer, p := p, dest := t.dest, held := some t.tag, waited := false }] } } s.fab.sendQ.length
      else reportTimeout (freeTag (timedOut s t) t.tag) t elapsed := by
  simp only [timerExpires, h, hsent, hn, hc, hf, Bool.not_true, Bool.or_self, Bool.false_eq_true, if_false]
  rfl

theorem resendable_of_type (ht : t.p.type = 0x01 ∨ t.p.type = 0x02 ∨ t.p.type = 0x10) (hu : t.used.toNat < t.retries.toNat) :
    t.resendable = true := by
  have htype : (t.p.type == 0x01 || t.p.type == 0x02 || t.p.type == 0x10) = true := by
    rcases ht with h | h | h <;> rw [h] <;> rfl
  rw [Tag.resendable, htype]
  exact decide_eq_true hu

/-- An ATOMIC, and a tag whose retries are used up, is not sent again. -/
theorem not_resendable (h : t.p.type = 0x03 ∨ t.retries.toNat ≤ t.used.toNat) : t.resendable = false := by
  rcases h with h | h
  · rw [Tag.resendable, h]
    rfl
  · rw [Tag.resendable, decide_eq_false (Nat.not_lt.mpr h)]
    simp

theorem reportTimeout_access {c : CoreId} {seq : Nat} {f : Flight} (hi : t.issuer = .access c seq)
    (hf : (s.core c).access.flights.find? (·.seq == seq) = some f) :
    reportTimeout s t elapsed = flightFault s c f codeTimeout (t.p.type.toNat - 1) fun r => { r with chip := t.p.dst, cycle := elapsed } := by
  simp only [reportTimeout, hi, hf]

theorem resendNoticed_noticed (h : s.fab.tags.find? (·.tag == t.tag) = some t) (hn : t.noticed = true) (hopen : s.fab.fenced = false)
    (hgo : s.job.quiescing = false) (hfence : chipFenced s t.p.dst = false) :
    resendNoticed s t.tag = inject (updTag s t.tag fun t =>
      { t with noticed := false, sentTick := s.now, resent := true, timeout := s.fab.timeout, retries := s.fab.retries })
      { t.p with step := s.job.step, tag := t.tag } := by
  simp only [resendNoticed, h, hn, hopen, hgo, hfence, Bool.not_true, Bool.or_self, Bool.false_eq_true, if_false]

end

section
variable {s : State} {t : Tag} {elapsed : W32}

/-- The flight of a tag that is not sent again is reported (R219). -/
theorem timerExpires_reports {c : CoreId} {seq : Nat} {f : Flight} (h : s.fab.tags.find? (·.tag == t.tag) = some t) (hsent : t.sent = true)
    (hn : t.noticed = false) (hc : completesNow s t.tag t.p.attempt = false) (hf : fencedNow s t.tag t.p.attempt = false)
    (hend : t.p.type = 0x03 ∨ t.retries.toNat ≤ t.used.toNat) (hi : t.issuer = .access c seq)
    (hfl : (s.core c).access.flights.find? (·.seq == seq) = some f) (hun : s.unfaulted c)
    (hfirst : ∀ g ∈ (s.core c).access.flights, g.done = false → f.seq ≤ g.seq) :
    (timerExpires s t.tag elapsed).fab = (freeTag (timedOut s t) t.tag).fab ∧
      s.faultOf (timerExpires s t.tag elapsed) c
        { accessRecord f.index f.instr codeTimeout (t.p.type.toNat - 1) with chip := t.p.dst, cycle := elapsed } := by
  rw [timerExpires_live h hsent hn hc hf, not_resendable hend, if_neg Bool.false_ne_true, reportTimeout_access hi (s := freeTag (timedOut s t) t.tag) hfl]
  exact flightFault_faultOf s _ c f codeTimeout _ _ hun hfirst rfl rfl rfl rfl

end

/-- Settles O40: a packet whose route, tag, window and credit are there leaves under a fresh tag, armed with the settings of now; a timer's
expiry goes by whether the tag's end came in the same tick, and then by whether it may be sent again. That the resending after a retry notice
leaves retries_sent as it is, is the model's choice (log entry 62); so is that one credit lets a packet take its tag and its place in the queue
(log entry 69). -/
theorem sendsAndTimers : Obligations.SendsAndTimers := by
  unfold Obligations.SendsAndTimers
  intro s
  refine ⟨fun i q n w rest hq hopen hgo => ?_, fun t elapsed h => ⟨fun hv => ?_, fun hsent hn hc hf => ?_⟩, fun t h hn hopen hgo hfence => ?_⟩
  · intro e vc huse hfence hheld htag hwin hroom hcredit p
    refine ⟨_, congrArg Host.Outcome.next (sendOne_emits hq hopen hgo huse hfence hheld htag hwin hroom hcredit), ?_⟩
    by_cases hport : routePort e < 8
    · obtain ⟨P, he, hP⟩ := emit_queues (s := sentState s i q n w rest) hport vc (if q.p.type = 0x10 || q.p.type = 0x18 then 9 else 8) 0 p
      rw [he]
      exact ⟨rfl, rfl, rfl, fun _ => ⟨rfl, hP⟩, fun h => absurd hport (Nat.not_lt.mpr h), rfl, rfl⟩
    · rw [emit, if_neg hport]
      exact ⟨rfl, rfl, rfl, fun h => absurd h hport, fun _ => ⟨rfl, rfl⟩, rfl, rfl⟩
  · exact congrArg Host.Outcome.next (timerExpires_void h hv)
  · intro u
    refine ⟨fun ht hu => ?_, fun c seq f hend hi hfl hun hfirst => ?_⟩
    · intro p v
      have hlive := timerExpires_live (elapsed := elapsed) h hsent hn hc hf
      rw [resendable_of_type ht hu, if_pos rfl] at hlive
      exact congrArg Host.Outcome.next hlive
    · obtain ⟨hfab, hfault⟩ := timerExpires_reports (elapsed := elapsed) h hsent hn hc hf hend hi hfl hun hfirst
      refine ⟨_, rfl, by rw [hfab]; rfl, ?_, hfault⟩
      rw [hfab]
      exact fun x hx => freeTag_gone _ _ x hx
  · exact congrArg Host.Outcome.next (resendNoticed_noticed h hn hopen hgo hfence)

end Sys2Proof.Machine
end

section
/-! SUPPORT. Ports and route entries: what a runtime write of a route and of shares leaves. -/

namespace Sys2Proof.Machine

/-! ## Route entries (R207, R208) -/

/-- The route entry a runtime write leaves over the entry `old`. -/
def routeEntry (old v : W32) : W32 := BitVec.ofNat 32 (v.toNat % 32 + bit (routeFenced old || v.getLsbD 5) 5 + 64 + 128 * routeVset v)

theorem routeVset_lt (v : W32) : routeVset v < 4 := Nat.mod_lt _ (by decide)

/-- The entry written, as a number: the low bits of the value, the fence bit, the bit that marks a runtime write, and the channel set. -/
theorem routeEntry_toNat (old v : W32) :
    (routeEntry old v).toNat = v.toNat % 32 + bit (routeFenced old || v.getLsbD 5) 5 + 64 + 128 * routeVset v := by
  have := routeVset_lt v
  have : bit (routeFenced old || v.getLsbD 5) 5 ≤ 32 := by cases (routeFenced old || v.getLsbD 5) <;> decide
  rw [routeEntry, BitVec.toNat_ofNat, Nat.mod_eq_of_lt (by omega)]

theorem routeEntry_port (old v : W32) : routePort (routeEntry old v) = v.toNat % 16 := by
  have : bit (routeFenced old || v.getLsbD 5) 5 % 16 = 0 := by cases (routeFenced old || v.getLsbD 5) <;> rfl
  rw [routePort, routeEntry_toNat]
  omega

theorem routeEntry_valid (old v : W32) : routeValid (routeEntry old v) = v.getLsbD 4 := by
  have : bit (routeFenced old || v.getLsbD 5) 5 % 32 = 0 := by cases (routeFenced old || v.getLsbD 5) <;> rfl
  rw [routeValid, BitVec.getLsbD, BitVec.getLsbD, Nat.testBit_eq_decide_div_mod_eq, Nat.testBit_eq_decide_div_mod_eq, routeEntry_toNat]
  congr 1
  have : (v.toNat % 32 + bit (routeFenced old || v.getLsbD 5) 5 + 64 + 128 * routeVset v) / 2 ^ 4 % 2 = v.toNat / 2 ^ 4 % 2 := by omega
  rw [this]

theorem routeEntry_fenced (old v : W32) : routeFenced (routeEntry old v) = (routeFenced old || v.getLsbD 5) := by
  rw [routeFenced, BitVec.getLsbD, Nat.testBit_eq_decide_div_mod_eq, routeEntry_toNat]
  cases routeFenced old || v.getLsbD 5
  · have : bit false 5 = 0 := rfl
    exact decide_eq_false (by omega)
  · have : bit true 5 = 32 := rfl
    exact decide_eq_true (by omega)

theorem routeEntry_runtime (old v : W32) : (routeEntry old v).getLsbD 6 = true := by
  have : bit (routeFenced old || v.getLsbD 5) 5 ≤ 32 := by cases (routeFenced old || v.getLsbD 5) <;> decide
  rw [BitVec.getLsbD, Nat.testBit_eq_decide_div_mod_eq, routeEntry_toNat]
  exact decide_eq_true (by omega)

/-- A runtime write puts its entry in the place of the old one; a write that would clear the fence bit is counted. -/
theorem writeRoute_frame (s : State) (d : Chip) (v : W32) : writeRoute s d v =
    { s with fab := { s.fab with
      fenceClearRefused := s.fab.fenceClearRefused + (if routeFenced (routeOf s d) = true ∧ v.getLsbD 5 = false then 1 else 0),
      routes := s.fab.routes.filter (·.1 != d.toNat) ++ [(d.toNat, routeEntry (routeOf s d) v)] } } := by
  by_cases h : routeFenced (routeOf s d) = true ∧ v.getLsbD 5 = false
  · have hclear : (routeFenced (routeOf s d) && !v.getLsbD 5) = true := by rw [h.1, h.2]; rfl
    simp only [writeRoute, hclear, if_true, if_pos h, bump, routeEntry]
  · have hkeep : (routeFenced (routeOf s d) && !v.getLsbD 5) = false := by
      rw [← Bool.not_eq_true]
      simpa using h
    simp only [writeRoute, hkeep, Bool.false_eq_true, if_false, if_neg h, add_zero, routeEntry]

theorem routeOf_writeRoute (s : State) (d : Chip) (v : W32) : routeOf (writeRoute s d v) d = routeEntry (routeOf s d) v := by
  have hnone : (s.fab.routes.filter (·.1 != d.toNat)).find? (·.1 == d.toNat) = none := by
    rw [List.find?_filter, List.find?_eq_none]
    simp
  conv_lhs => rw [routeOf, writeRoute_frame, List.find?_append, hnone]
  simp

theorem routeOf_writeRoute_other (s : State) (d x : Chip) (v : W32) (h : x ≠ d) : routeOf (writeRoute s d v) x = routeOf s x := by
  have hne : d.toNat ≠ x.toNat := fun e => h (BitVec.eq_of_toNat_eq e.symm)
  have hkeep : (s.fab.routes.filter (·.1 != d.toNat)).find? (·.1 == x.toNat) = s.fab.routes.find? (·.1 == x.toNat) := by
    rw [List.find?_filter]
    congr 1
    funext a
    by_cases ha : a.1 = x.toNat <;> simp [ha, hne.symm]
  conv_lhs => rw [routeOf, writeRoute_frame, List.find?_append, hkeep]
  simp [hne, routeOf]

/-! ## Shares (R210) -/

theorem shareWords_length (v : W64) : (shareWords v).length = 4 := by simp [shareWords]

/-- The eight shares after a write of the upper or the lower four. -/
def sharesOf (q : Port) (high : Bool) (v : W64) : List W16 :=
  if high then q.shares.toList.take 4 ++ shareWords v else shareWords v ++ q.shares.toList.drop 4

theorem sharesOf_length (q : Port) (high : Bool) (v : W64) : (sharesOf q high v).length = 8 := by
  cases high <;> simp [sharesOf, shareWords_length]

theorem ofFn_getD_toList {n : Nat} {l : List W16} (h : l.length = n) : (Vector.ofFn (n := n) fun i => l.getD i.val 0).toList = l := by
  subst h
  apply List.ext_getElem <;> simp

theorem writeShares_shares (q : Port) (high : Bool) (v : W64) : (writeShares q high v).shares.toList =
    if (∀ x ∈ sharesOf q high v, 64 ≤ x.toNat) ∧ ((sharesOf q high v).map BitVec.toNat).sum ≤ 16384 then sharesOf q high v else q.shares.toList := by
  have hall : ((sharesOf q high v).all (fun x => 64 ≤ x.toNat) && decide (((sharesOf q high v).map BitVec.toNat).sum ≤ 16384)) = true ↔
      (∀ x ∈ sharesOf q high v, 64 ≤ x.toNat) ∧ ((sharesOf q high v).map BitVec.toNat).sum ≤ 16384 := by
    simp
  by_cases h : (∀ x ∈ sharesOf q high v, 64 ≤ x.toNat) ∧ ((sharesOf q high v).map BitVec.toNat).sum ≤ 16384
  · rw [if_pos h]
    exact (congrArg (fun x : Port => x.shares.toList) (if_pos (hall.mpr h))).trans (ofFn_getD_toList (sharesOf_length q high v))
  · rw [if_neg h]
    exact congrArg (fun x : Port => x.shares.toList) (if_neg (mt hall.mp h))

/-! ## Ports -/

theorem updPort_same (s : State) (o : PortId) (f : Port → Port) : ((updPort s o.val f).fab.ports[o]) = f s.fab.ports[o] := by
  rw [updPort, dif_pos o.isLt]
  exact vmod_same _ _ _

theorem updPort_other (s : State) (o x : PortId) (f : Port → Port) (h : x ≠ o) : (updPort s o.val f).fab.ports[x] = s.fab.ports[x] := by
  rw [updPort, dif_pos o.isLt]
  exact vmod_other _ _ _ _ h.symm

/-- A port found silent is marked, and the event is raised (R222). -/
theorem silentOn_marks {s : State} {port : PortId} (h : (s.fab.ports[port]).silent = false) :
    ((silentOn s port).fab.ports[port]).silent = true ∧ (silentOn s port).mem = s.mem ∧ (silentOn s port).cores = s.cores := by
  obtain ⟨H, o, hraise⟩ := raiseOpen_frame (updPort s port.val fun q => { q with silent := true }) 0x03
  obtain ⟨P, hport⟩ := updPort_frame s port.val fun q => { q with silent := true }
  have hsilent : silentOn s port = raiseOpen (updPort s port.val fun q => { q with silent := true }) 0x03 := by
    rw [silentOn, h, if_neg Bool.false_ne_true]
  rw [hsilent, hraise]
  exact ⟨congrArg Port.silent (updPort_same s port _), by rw [hport], by rw [hport]⟩

theorem beatOn_up {s : State} {port : PortId} (h : (s.fab.ports[port]).up = true) :
    beatOn s port = emit s port.val 6 8 0 (packetTo s 0x1A (s.fab.ports[port]).neighbour).sealed := by
  rw [beatOn, h, if_pos rfl]

theorem emit_port (s : State) (o : PortId) (vc : Fin 8) (i : Fin 10) (v : Fin 8) (p : Packet) : emit s o.val vc i v p =
    updPort s o.val fun q => { q with outQ := q.outQ ++ [{ vc := vc, p := { p with hops := p.hops + 1 }, inPort := i, inVc := v, sent := 0 }] } := by
  rw [emit, if_pos o.isLt]

/-! ## The counters of a confidential module (R225) -/

theorem publish_published {s : State} (h : s.sec.conf = true) : (publish s).fab.published = counterOffsets.map fun a => (a, publishAt s a) := by
  rw [publish, h, if_pos rfl]


/-- Settles O41: a beat is queued on a port that is up; a port that falls silent is marked; congestion follows the 75 % line; a route entry
keeps its fence bit and refuses to clear it; shares are taken as eight or not at all; a confidential module publishes its counters rounded
down. -/
theorem portEventsComplete : Obligations.PortEventsComplete := by
  unfold Obligations.PortEventsComplete
  intro s port q
  refine ⟨fun hup => ?_, fun hup => ?_, fun h => ⟨_, rfl, silentOn_marks h⟩, fun vc hvc h => ?_, fun vc h => ?_, fun d v hrails => ?_,
    fun high v hrails => ?_, fun hconf => ?_, fun hconf => ⟨_, rfl, ?_, ?_⟩⟩
  · refine ⟨_, congrArg Host.Outcome.next (beatOn_up hup), ?_⟩
    exact emit_port s port _ _ _ _
  · refine congrArg Host.Outcome.next ?_
    exact if_neg (by rw [hup]; exact Bool.false_ne_true)
  · refine congrArg Host.Outcome.next ?_
    exact if_pos (by rw [decide_eq_true hvc, h]; rfl)
  · refine congrArg Host.Outcome.next ?_
    exact if_neg (by rw [h]; exact Bool.false_ne_true)
  · have hrun : exec (.routeWrite d v) s = .next (writeRoute s.unlatch d v) := by
      refine congrArg Host.Outcome.next ?_
      rw [State.onRails, hrails, if_pos rfl]
    have hself : routeOf (writeRoute s.unlatch d v) d = routeEntry (routeOf s d) v := routeOf_writeRoute s.unlatch d v
    refine ⟨_, hrun, ?_, ?_, ?_, ?_, ?_, fun x hx => routeOf_writeRoute_other s.unlatch d x v hx⟩
    · rw [hself, routeEntry_port]
    · rw [hself, routeEntry_valid]
    · rw [hself, routeEntry_fenced]
    · rw [hself, routeEntry_runtime]
    · rw [writeRoute_frame]
      rfl
  · have hrun : exec (.vcbufWrite port high v) s = .next (updPort s.unlatch port.val fun q => writeShares q high v) := by
      refine congrArg Host.Outcome.next ?_
      rw [State.onRails, hrails, if_pos rfl]
    refine ⟨_, hrun, ?_, fun o ho => updPort_other s.unlatch port o _ ho⟩
    exact (congrArg (fun x : Port => x.shares.toList) (updPort_same s.unlatch port _)).trans (writeShares_shares q high v)
  · refine congrArg Host.Outcome.next ?_
    rw [publish, hconf, if_neg Bool.false_ne_true]
  · rw [publish_published hconf, List.map_map]
    exact List.map_id _
  · rw [publish_published hconf]
    intro x hx
    obtain ⟨a, -, rfl⟩ := List.mem_map.mp hx
    rfl

end Sys2Proof.Machine
end

section
/-! SUPPORT. Collective packets: what an arrival comes to, and what each kind of packet does in its operation. -/

namespace Sys2Proof.Machine

/-! ## What a packet's arrival comes to (R239–R241) -/

section
variable {s : State} {p : Packet} {c : Comm} {r : CollRun}

/-- A module that takes part finds the communicator of the packet. -/
structure TakesPart (s : State) (p : Packet) (c : Comm) : Prop where
  comm : commOf s (collId p).comm = some c
  unfenced : s.fab.fenced = false
  running : s.job.quiescing = false

theorem TakesPart.going (h : TakesPart s p c) : collStopped s = false := by
  rw [collStopped, h.unfenced, h.running, Bool.or_self]

theorem collArrives_stale (h : TakesPart s p c) (hs : staleStep s p = true) :
    collArrives s p = inject { s with coll := { s.coll with stale := s.coll.stale + 1 } } (ackOf s p 0) := by
  simp only [collArrives, h.comm, h.going, hs, Bool.false_eq_true, if_false, if_true, bump]

theorem collArrives_again (h : TakesPart s p c) (hs : staleStep s p = false) (hseen : collId p ∈ s.coll.seen) :
    collArrives s p = duplicate s p := by
  simp only [collArrives, h.comm, h.going, hs, List.contains_iff_mem.mpr hseen, Bool.false_eq_true, if_false, if_true]

theorem not_contains_of_not_mem (h : collId p ∉ s.coll.seen) : s.coll.seen.contains (collId p) = false := by
  simpa using h

theorem collArrives_early (h : TakesPart s p c) (hs : staleStep s p = false) (hnew : collId p ∉ s.coll.seen) (hr : runFor s c p = none) :
    collArrives s p = if storeLimit < storeBytes s + p.payload.length then inject s (ackOf s p 1) else
      let v : State := { s with coll := { s.coll with early := s.coll.early ++ [p], seen := collId p :: s.coll.seen } }
      if isHeapOp (collOp p) then v else inject v (ackOf s p 0) := by
  simp only [collArrives, h.comm, h.going, hs, not_contains_of_not_mem hnew, hr, Bool.false_eq_true, if_false]
  rfl

/-- A packet the operation can use is refused where it would have to wait in a full store, else used and acknowledged. -/
theorem collArrives_used (h : TakesPart s p c) (hs : staleStep s p = false) (hnew : collId p ∉ s.coll.seen) (hr : runFor s c p = some r) :
    collArrives s p = if treeWaits c r p && storeLimit < storeBytes s + p.payload.length then inject s (ackOf s p 1) else
      ackStored (usePacket (noteSeen s p) c r p) p := by
  simp only [collArrives, h.comm, h.going, hs, not_contains_of_not_mem hnew, hr, Bool.false_eq_true, if_false]

theorem duplicate_acknowledged (h : isHeapOp (collOp p) = false) : duplicate s p = inject s (ackOf s p 0) := by
  simp only [duplicate, h, Bool.false_and, Bool.false_eq_true, if_false]

/-- A broadcast's packet whose acknowledgement is owed takes the place of the copy held (R243). -/
theorem duplicate_owed (h : isHeapOp (collOp p) = true) (hq : ∃ q ∈ s.coll.early, collId q = collId p) :
    duplicate s p = { s with coll := { s.coll with
      acksOwed := s.coll.acksOwed.map (fun x => if collId x.1 = collId p then (p, x.2) else x),
      early := s.coll.early.map fun q => if collId q = collId p then p else q } } := by
  obtain ⟨q, hmem, hid⟩ := hq
  have hheld : (s.coll.early.any fun q => collId q == collId p) = true := List.any_eq_true.mpr ⟨q, hmem, beq_iff_eq.mpr hid⟩
  simp only [duplicate, h, hheld, Bool.or_true, Bool.and_self, if_true, beq_iff_eq]

end

/-! ## Using a packet (R235–R237) -/

section
variable {s : State} {p : Packet} {c : Comm} {r : CollRun}

/-- An A2AV segment is kept under its sender (R233). -/
theorem usePacket_segment (h : r.op = 3) : usePacket s c r p =
    putRun s { r with got := r.got ++ [((collId p).sender.toNat, (collId p).offset.toNat, pktElems r p)] } := by
  have hred : isReduce r.op = false := by rw [h]; rfl
  have hheap : isHeapOp r.op = false := by rw [h]; rfl
  simp only [usePacket, hred, hheap, Bool.false_eq_true, if_false]
  rfl

theorem usePacket_ring {x : State × CollRun} (hred : isReduce r.op = true) (hkind : (collId p).kind ≠ 1) (htree : c.tree = false)
    (hx : useRing s c r (pktPhase p) (r.op == 0 && r.phase + 1 == (phaseSteps c r.op).length) (pktChunk p - r.chunk) (pktOffset p)
      (pktElems r p) = x) :
    usePacket s c r p = putRun x.1 (x.2.advance x.1 c) := by
  have hring : pktGather p = false := beq_false_of_ne hkind
  simp only [usePacket, hred, hring, htree, Bool.false_eq_true, if_false, if_true, hx]

theorem useRing_owner {k j off : Nat} {last : Bool} {es : List PElem} (h : c.ownerCoord k off = c.coord k) :
    useRing s c r k last j off es =
      let x := ropAll r.fmt (ropOf r) es (slice (r.buf.getD j []) off es.length)
      (orOverflow s x.2, r.settle last j off x.1) := by
  rw [useRing, if_pos h]

theorem useRing_passes {k j off : Nat} {last : Bool} {es : List PElem} (h : ¬ c.ownerCoord k off = c.coord k) :
    useRing s c r k last j off es =
      let x := ropAll r.fmt (ropOf r) es (slice (r.buf.getD j []) off es.length)
      (sendElems (orOverflow s x.2) c r (c.lineMember k ((c.coord k + 1) % c.len k)) (r.chunk + j) k 0 off 0 0 x.1,
        { r with left := r.left - es.length }) := by
  rw [useRing, if_neg h]

/-- The operation's run with a gathered piece kept. -/
def CollRun.gathered (r : CollRun) (j off : Nat) (es : List PElem) : CollRun :=
  { r with buf := modifyAt r.buf j (setSlice · off es), left := r.left - es.length, got := r.got ++ [(j, off, es)] }

theorem useGather_last {k j off : Nat} {es : List PElem} (h : gatherNext s c k (c.ownerCoord k off) = none) :
    useGather s c r k j off es = (s, r.gathered j off es) := by
  simp only [useGather, h]
  rfl

theorem useGather_passes {k j off x : Nat} {es : List PElem} (h : gatherNext s c k (c.ownerCoord k off) = some x) :
    useGather s c r k j off es =
      (sendElems s c (r.gathered j off es) (c.lineMember k x) (r.chunk + j) k 1 off 0 0 es, r.gathered j off es) := by
  simp only [useGather, h]
  rfl

theorem usePacket_gather {x : State × CollRun} (hred : isReduce r.op = true) (hkind : (collId p).kind = 1)
    (hx : useGather s c r (pktPhase p) (pktChunk p - r.chunk) (pktOffset p) (pktElems r p) = x) :
    usePacket s c r p = putRun x.1 (x.2.advance x.1 c) := by
  have hgather : pktGather p = true := beq_iff_eq.mpr hkind
  simp only [usePacket, hred, hgather, if_true, hx]

theorem earlyApplies_usable {i : Nat} (hi : s.coll.early[i]? = some p) (hc : commOf s (collId p).comm = some c) (hr : runFor s c p = some r) :
    earlyApplies s i = (let v := usePacket { s with coll := { s.coll with early := s.coll.early.eraseIdx i } } c r p
      if isHeapOp (collOp p) then settleAcks v else v) := by
  simp only [earlyApplies, hi, hc, hr]

end

/-- Settles O42: a collective packet's fate by its step, by what was seen before, by the operation that can use it and by the room of the
arrival store; and what each kind of packet does in its operation. That the store's limit is 75,497,472 bytes counted in payload bytes is the
model's choice (log entry 73), and so is that a gathered piece goes past a fenced member (log entry 116). -/
theorem collectivePacketsTaken : Obligations.CollectivePacketsTaken := by
  unfold Obligations.CollectivePacketsTaken
  intro s p
  refine ⟨fun hi => ?_, fun c hi hc hopen hgo => ?_⟩
  · refine congrArg Host.Outcome.next ?_
    rw [accepting_discard _ hi, ingress_discard hi]
  have hpart : TakesPart s p c := ⟨hc, hopen, hgo⟩
  have hrun : ∀ {t : State}, collArrives s p = t → exec (.colldata p) s = .next t := fun h =>
    congrArg Host.Outcome.next ((accepting_intact _ hi).trans h)
  intro k u
  refine ⟨fun hne hlt => ?_, fun hs hseen => ⟨fun hheap => ?_, fun hheap hq => ?_⟩, fun hs hnew hr => ⟨fun hroom => ?_, fun hfull => ?_⟩,
    fun r hs hnew hr => ⟨fun hwait hfull => ?_, fun hok => ?_⟩, fun i r hi hr => ?_⟩
  · exact hrun (collArrives_stale hpart (by rw [staleStep, decide_eq_true hne, decide_eq_true hlt]; rfl))
  · exact hrun ((collArrives_again hpart hs hseen).trans (duplicate_acknowledged hheap))
  · exact hrun ((collArrives_again hpart hs hseen).trans (duplicate_owed hheap hq))
  · exact hrun ((collArrives_early hpart hs hnew hr).trans (if_neg (Nat.not_lt.mpr hroom)))
  · exact hrun ((collArrives_early hpart hs hnew hr).trans (if_pos hfull))
  · exact hrun ((collArrives_used hpart hs hnew hr).trans (if_pos (by rw [hwait, decide_eq_true (show storeLimit < _ from hfull)]; rfl)))
  · intro j off es ph last answer
    have huse : exec (.colldata p) s = .next (answer (usePacket u c r p)) := by
      refine hrun ((collArrives_used hpart hs hnew hr).trans (if_neg ?_))
      rcases hok with h | h
      · rw [h]
        exact Bool.false_ne_true
      · rw [decide_eq_false (show ¬ storeLimit < _ from Nat.not_lt.mpr h), Bool.and_false]
        exact Bool.false_ne_true
    refine ⟨huse, fun h => ?_, fun hred hkind htree => ?_, fun hred hkind => ?_⟩
    · rw [huse, usePacket_segment h]
    · intro x v
      by_cases hown : c.ownerCoord ph off = c.coord ph
      · rw [if_pos hown, huse, usePacket_ring hred hkind htree (useRing_owner hown)]
        rfl
      · rw [if_neg hown, huse, usePacket_ring hred hkind htree (useRing_passes hown)]
        rfl
    · intro r1 v
      cases hnext : gatherNext u c ph (c.ownerCoord ph off) with
      | none =>
        have hv : v = u := by simp only [v, hnext]
        rw [huse, usePacket_gather hred hkind (useGather_last hnext), hv]
        rfl
      | some x =>
        have hv : v = sendElems u c r1 (c.lineMember ph x) (r.chunk + j) ph 1 off 0 0 es := by simp only [v, hnext]
        rw [huse, usePacket_gather hred hkind (useGather_passes hnext), hv]
        rfl
  · exact congrArg Host.Outcome.next (earlyApplies_usable hi hc hr)

end Sys2Proof.Machine
end

section
/-! SUPPORT. Operations: the next phase, the status an operation completes with, and what completing leaves. -/

namespace Sys2Proof.Machine

/-! ## An operation's next phase (R242) -/

section
variable {s : State} {r : CollRun} {c : Comm}

theorem going_of (hopen : s.fab.fenced = false) (hgo : s.job.quiescing = false) : collStopped s = false := by
  rw [collStopped, hopen, hgo, Bool.or_self]

theorem startPhase_step {k : Nat} {gather : Bool} (hr : s.coll.runs.find? (·.id == r.id) = some r) (hc : commOf s r.comm = some c)
    (hnew : r.started = false) (hgo : collStopped s = false) (hred : isReduce r.op = true)
    (hk : (phaseSteps c r.op)[r.phase]? = some (k, gather)) :
    startPhase s r.id =
      if planAllows s c k then
        let x := if gather then startGather s c { r with started := true } k (r.op == 1 && r.phase == 0 || r.op == 2 && r.phase == c.phases.length)
          else startScatter s c { r with started := true } k (r.op == 0 && r.phase + 1 == (phaseSteps c r.op).length)
        putRun x.1 (x.2.advance x.1 c)
      else s := by
  simp only [startPhase, hr, hc, hnew, hgo, hred, curStep, hk, Bool.or_self, Bool.false_eq_true, if_false, if_true]

theorem startPhase_direct (hr : s.coll.runs.find? (·.id == r.id) = some r) (hc : commOf s r.comm = some c)
    (hnew : r.started = false) (hgo : collStopped s = false) (hred : isReduce r.op = false) :
    startPhase s r.id = putRun (startDirect s c r).1 (startDirect s c r).2 := by
  simp only [startPhase, hr, hc, hnew, hgo, hred, Bool.or_self, Bool.false_eq_true, if_false]

end

/-! ## How an operation completes (R230, R234, R243, R244) -/

section
variable {s : State} {r : CollRun} {c : Comm}

/-- Nothing of the operation is on its way, and it owes no acknowledgement. -/
structure Settled (s : State) (r : CollRun) : Prop where
  tags : ∀ t ∈ s.fab.tags, t.issuer ≠ .coll r.id
  sends : ∀ q ∈ s.fab.sendQ, q.issuer ≠ .coll r.id
  acks : owesAck s r = false

theorem Settled.quiet (h : Settled s r) : (!runQuiet s r.id || owesAck s r) = false := by
  have htags : (s.fab.tags.any fun t => t.issuer == .coll r.id) = false := by simpa using h.tags
  have hsends : (s.fab.sendQ.any fun q => q.issuer == .coll r.id) = false := by simpa using h.sends
  rw [runQuiet, htags, hsends, h.acks]
  rfl

/-- The fenced members the operation knows of. -/
def goneMembers (s : State) (c : Comm) (r : CollRun) : List Nat := addFenced r.fenced (fencedMembers s c)

theorem heap_not_reduce {op : BitVec 4} (h : isHeapOp op = true) : isReduce op = false ∧ op ≠ 3 := by
  revert op
  decide

theorem reduce_not_heap {op : BitVec 4} (h : isReduce op = true) : isHeapOp op = false ∧ op ≠ 3 := by
  revert op
  decide

theorem completion_heap (h : Settled s r) (hheap : isHeapOp r.op = true) : completion s c r =
    if r.over s c then some (if pruned c r then (1, r.fencedTotal, r.fenced) else (0, 0, [])) else none := by
  simp only [completion, h.quiet, hheap, Bool.false_eq_true, if_false, if_true]

theorem completion_segments (h : Settled s r) (hop : r.op = 3) (hover : r.over s c = true) : completion s c r =
    some (if (goneMembers s c r).isEmpty then (0, 0, []) else (1, (goneMembers s c r).length, goneMembers s c r)) := by
  have hheap : isHeapOp r.op = false := by rw [hop]; rfl
  simp only [completion, h.quiet, hheap, hover, if_pos hop, Bool.false_eq_true, if_false, if_true]
  rfl

theorem completion_reduce (h : Settled s r) (hred : isReduce r.op = true) (hover : r.over s c = true) : completion s c r =
    some (if gatherLacks c r (goneMembers s c r) then (1, (goneMembers s c r).length, goneMembers s c r) else (0, 0, [])) := by
  obtain ⟨hheap, hop⟩ := reduce_not_heap hred
  simp only [completion, h.quiet, hheap, hover, if_neg hop, Bool.false_eq_true, if_false, if_true]
  rfl

/-- An operation in a scatter step completes where a member is fenced (R244). -/
theorem completion_scatter {k : Nat} (h : Settled s r) (hred : isReduce r.op = true) (hover : r.over s c = false)
    (hk : (phaseSteps c r.op)[r.phase]? = some (k, false)) : completion s c r =
    if (goneMembers s c r).isEmpty then none else some (1, (goneMembers s c r).length, goneMembers s c r) := by
  obtain ⟨hheap, -⟩ := reduce_not_heap hred
  simp only [completion, h.quiet, hheap, hover, curStep, hk, Bool.false_eq_true, if_false]
  rfl

theorem completion_gather (h : Settled s r) (hred : isReduce r.op = true) (hover : r.over s c = false)
    (hk : ¬ ∃ k, (phaseSteps c r.op)[r.phase]? = some (k, false)) : completion s c r = none := by
  obtain ⟨hheap, -⟩ := reduce_not_heap hred
  simp only [completion, h.quiet, hheap, hover, curStep, Bool.false_eq_true, if_false]
  split
  · next k hstep => exact absurd ⟨k, hstep⟩ hk
  · rfl

end

/-! ## What completing leaves -/

section
variable {s : State} {r : CollRun} {c : Comm} {st total : Nat} {fenced : List Nat}

theorem completeRun_goesOn (hr : s.coll.runs.find? (·.id == r.id) = some r) (hc : commOf s r.comm = some c) (h : completion s c r = none) :
    completeRun s r.id = goOn s c r := by
  simp only [completeRun, hr, hc, h]

/-- Results that do not land are written; the operation leaves the engine and its flight is closed (R234). -/
theorem completeRun_writes (hr : s.coll.runs.find? (·.id == r.id) = some r) (hc : commOf s r.comm = some c)
    (h : completion s c r = some (st, total, fenced)) (hland : (r.op = 0 && c.land) = false) (hdrain : r.drain = false) :
    completeRun s r.id = closeFlight (dropRun (writeStatus (writePieces s c r) c st r.op r.chunk total fenced) r.id) r.core r.seq := by
  simp only [completeRun, hr, hc, h, hland, hdrain, Bool.false_and, Bool.false_eq_true, if_false, List.isEmpty_nil, if_true]

/-- The state in which an operation's landings wait. -/
def landed (s : State) (c : Comm) (r : CollRun) : State := { s with upd := { s.upd with landings := s.upd.landings ++ landPieces c r } }

theorem completeRun_drains (hr : s.coll.runs.find? (·.id == r.id) = some r) (hc : commOf s r.comm = some c)
    (h : completion s c r = some (0, total, fenced)) (hland : (r.op = 0 && c.land) = true) (hdrain : r.drain = true) :
    completeRun s r.id = dropRun (landed s c r) r.id := by
  simp only [completeRun, hr, hc, h, hland, hdrain, Bool.true_and, if_true, decide_true, landed]

/-- Writing the status slot leaves landings and operations as they are. -/
theorem writeStatus_keeps (s : State) (c : Comm) (op : BitVec 4) (chunk : Nat) :
    (writeStatus s c st op chunk total fenced).upd.landings = s.upd.landings ∧ (writeStatus s c st op chunk total fenced).coll = s.coll := by
  rw [writeStatus, storePart]
  dsimp only
  split
  · obtain ⟨f, h, o, e⟩ := logRecord_frame s _
    rw [e]
    exact ⟨rfl, rfl⟩
  · obtain ⟨⟨_, _, _, _, _, _, _, _, _, _, _, _, _, _, _, e⟩, -⟩ := storeHbm_hbm s c.stat (statusBytes st op chunk s.job.step total fenced) false
    rw [e]
    exact ⟨rfl, rfl⟩

/-- Landings of an instruction's reduce-scatter wait, the status slot is written and the operation leaves the engine (R150, R230). -/
theorem completeRun_lands (hr : s.coll.runs.find? (·.id == r.id) = some r) (hc : commOf s r.comm = some c)
    (h : completion s c r = some (0, total, fenced)) (hland : (r.op = 0 && c.land) = true) (hdrain : r.drain = false)
    (hsome : landPieces c r ≠ []) :
    (completeRun s r.id).upd.landings = s.upd.landings ++ landPieces c r ∧
      (completeRun s r.id).coll.runs = s.coll.runs.filter (·.id ≠ r.id) := by
  have hne : (landPieces c r).isEmpty = false := List.isEmpty_eq_false_iff.mpr hsome
  obtain ⟨hupd, hcoll⟩ := writeStatus_keeps (st := 0) (total := total) (fenced := fenced) (landed s c r) c r.op r.chunk
  have hdone : ∃ f, completeRun s r.id = updAccess (dropRun (writeStatus (landed s c r) c 0 r.op r.chunk total fenced) r.id) r.core f :=
    ⟨_, by simp only [completeRun, hr, hc, h, hland, hdrain, hne, Bool.false_and, Bool.false_eq_true, if_false, if_true, landed]; rfl⟩
  obtain ⟨f, hdone⟩ := hdone
  rw [hdone, updAccess_upd, updAccess_coll, dropRun]
  exact ⟨hupd, by rw [hcoll]; rfl⟩

end

/-- Settles O43: an operation's next phase starts when its plan allows it; an operation that is settled completes with the status its kind,
its fenced members and its step give it, or goes on. That an incomplete scatter step completes as FENCED with the list of its fenced members is
the model's choice (log entry 75), and so is that a gather goes on past fenced members (log entry 116). -/
theorem operationsRun : Obligations.OperationsRun := by
  unfold Obligations.OperationsRun
  intro s r c hr hc
  refine ⟨fun hnew hopen hgo => ⟨fun k gather hred hk hplan => ?_, fun k gather hred hk hplan => ?_, fun hred => ?_⟩, fun htags hsends hacks => ?_⟩
  · intro x
    refine congrArg Host.Outcome.next ?_
    rw [startPhase_step hr hc hnew (going_of hopen hgo) hred hk, if_pos hplan]
    rfl
  · refine congrArg Host.Outcome.next ?_
    rw [startPhase_step hr hc hnew (going_of hopen hgo) hred hk, hplan, if_neg Bool.false_ne_true]
  · exact congrArg Host.Outcome.next (startPhase_direct hr hc hnew (going_of hopen hgo) hred)
  have hset : Settled s r := ⟨htags, hsends, hacks⟩
  intro gone ends scatter
  have hends : ∀ {st total : Nat} {fenced : List Nat}, (r.op = 0 && c.land) = false → r.drain = false →
      completion s c r = some (st, total, fenced) → ends st total fenced := fun hland hdrain h =>
    congrArg Host.Outcome.next (completeRun_writes hr hc h hland hdrain)
  have hgoes : completion s c r = none → exec (.collComplete r.id) s = .next (goOn s c r) := fun h =>
    congrArg Host.Outcome.next (completeRun_goesOn hr hc h)
  have hwhole : r.op = 0 → r.over s c = true → completion s c r = some (0, 0, []) := fun hop hover => by
    rw [completion_reduce hset (by rw [hop]; rfl) hover, gatherLacks, hop]
    rfl
  refine ⟨fun hdrain => ⟨fun hred hkind => ?_, fun hop hover => ?_, fun hheap hover => ?_, fun hop hland hover hsome => ?_⟩,
    fun hdrain hop hland hover => ?_, fun hred hover hk => hgoes (completion_gather hset hred hover hk), fun hred hover hgone => ?_,
    fun hheap hover => hgoes (by rw [completion_heap hset hheap, hover, if_neg Bool.false_ne_true])⟩
  · have hwrites : (r.op = 0 && c.land) = false := by
      rcases hkind with h | h
      · rw [h, Bool.and_false]
      · rw [decide_eq_false h, Bool.false_and]
    refine ⟨fun hover hlacks => hends hwrites hdrain ?_, fun hover hlacks => hends hwrites hdrain ?_,
      fun hover ⟨k, hk⟩ hgone => hends hwrites hdrain ?_⟩
    · rw [completion_reduce hset hred hover, goneMembers, hlacks, if_neg Bool.false_ne_true]
    · rw [completion_reduce hset hred hover, goneMembers, hlacks, if_pos rfl]
    · rw [completion_scatter hset hred hover hk, goneMembers, List.isEmpty_eq_false_iff.mpr hgone, if_neg Bool.false_ne_true]
  · refine hends (by rw [hop]; rfl) hdrain ?_
    rw [completion_segments hset hop hover]
    by_cases hgone : gone = []
    · rw [if_pos hgone, show goneMembers s c r = [] from hgone, hgone]
      rfl
    · rw [if_neg hgone, List.isEmpty_eq_false_iff.mpr (show goneMembers s c r ≠ [] from hgone), if_neg Bool.false_ne_true]
      rfl
  · have hwrites : (r.op = 0 && c.land) = false := by
      rw [decide_eq_false (fun h => by rw [h] at hheap; exact absurd hheap (by decide)), Bool.false_and]
    split
    · next hcut => exact hends hwrites hdrain (by rw [completion_heap hset hheap, if_pos hover, if_pos hcut])
    · next hcut => exact hends hwrites hdrain (by rw [completion_heap hset hheap, if_pos hover, if_neg hcut])
  · have hlands : (r.op = 0 && c.land) = true := by rw [decide_eq_true hop, hland]; rfl
    exact ⟨_, rfl, completeRun_lands hr hc (hwhole hop hover) hlands hdrain hsome⟩
  · have hlands : (r.op = 0 && c.land) = true := by rw [decide_eq_true hop, hland]; rfl
    exact congrArg Host.Outcome.next (completeRun_drains hr hc (hwhole hop hover) hlands hdrain)
  · by_cases hk : scatter
    · obtain ⟨k, hk⟩ := hk
      refine hgoes ?_
      rw [completion_scatter hset hred hover hk, show goneMembers s c r = [] from hgone]
      rfl
    · exact hgoes (completion_gather hset hred hover hk)

end Sys2Proof.Machine
end

section
/-! SUPPORT. The packets of a cinch: what UP, DOWN and CACK do, and what is sent again. -/

namespace Sys2Proof.Machine

/-! ## The packets of a cinch (R246, R248, R275) -/

section
variable {s : State} {p : Packet} {c : Comm} {n : Cinch}

/-- A communicator is found again by its own index. -/
theorem commOf_idx {i : BitVec 10} (h : commOf s i = some c) : commOf s c.idx = some c := by
  have hi : c.idx = i := by simpa using List.find?_some h
  rw [hi, h]

theorem sendCack_coll (s : State) (c : Comm) (p : Packet) : (sendCack s c p).coll = s.coll := by
  obtain ⟨f, o, e⟩ := inject_frame s { packetTo s 0x18 p.src with cls := cinchCls c.idx (cinchSeq p) 2 0 c.self }
  rw [sendCack, e]

theorem cinchDownArrives_waits (hc : commOf s (cinchComm p) = some c) (hgo : collStopped s = false) (h : s.opt.switching = true) :
    cinchDownArrives s p = { s with coll := { s.coll with heldDowns := s.coll.heldDowns ++ [p] } } := by
  simp only [cinchDownArrives, hc, hgo, h, Bool.false_eq_true, if_false, if_true]

theorem cinchDownArrives_ends (hc : commOf s (cinchComm p) = some c) (hgo : collStopped s = false) (h : s.opt.switching = false)
    (hn : findCinch s c.idx = some n) (hseq : n.cseq = cinchSeq p) :
    cinchDownArrives s p = finishCinch (cinchDown (sendCack s c p) c n (cinchOf p), some (n, cinchOf p)) := by
  simp only [cinchDownArrives, hc, hgo, h, hn, if_pos hseq, Bool.false_eq_true, if_false]

theorem cinchDownArrives_over (hc : commOf s (cinchComm p) = some c) (hgo : collStopped s = false) (h : s.opt.switching = false)
    (hn : findCinch s c.idx = none) : cinchDownArrives s p = sendCack s c p := by
  simp only [cinchDownArrives, hc, hgo, h, hn, Bool.false_eq_true, if_false]

theorem cinchUp_taken (hc : commOf s (cinchComm p) = some c) (hgo : collStopped s = false) (hn : findCinch s c.idx = some n)
    (hseq : n.cseq = cinchSeq p) : cinchUp s p = if ∃ u ∈ n.ups, u.1 = cinchSender p then sendCack s c p else
      finishCinch (cinchFlow (updCinch (sendCack s c p) c.idx fun x => { x with ups := x.ups ++ [(cinchSender p, cinchOf p)] }) c.idx) := by
  have hany : (n.ups.any fun u => u.1 == cinchSender p) = true ↔ ∃ u ∈ n.ups, u.1 = cinchSender p := by simp
  simp only [cinchUp, hc, hgo, hn, if_pos hseq, hany, Bool.false_eq_true, if_false]

/-- An UP for a cinch this member has not entered waits, unless the arrival store is full (R241, R246). -/
theorem cinchUp_early (hc : commOf s (cinchComm p) = some c) (hgo : collStopped s = false) (hn : findCinch s c.idx = none)
    (hahead : (cinchSeq p - c.cseq).toNat < 2147483648)
    (hfirst : ∀ q ∈ s.coll.earlyUps, ¬ (cinchComm q = cinchComm p ∧ cinchSeq q = cinchSeq p ∧ cinchSender q = cinchSender p)) :
    cinchUp s p = if storeLimit < storeBytes s + p.payload.length then s
      else { sendCack s c p with coll := { s.coll with earlyUps := s.coll.earlyUps ++ [p] } } := by
  have hnew : (s.coll.earlyUps.any fun q => cinchComm q == cinchComm p && cinchSeq q == cinchSeq p && cinchSender q == cinchSender p) = false := by
    rw [List.any_eq_false]
    simpa [and_assoc] using hfirst
  have hholds : (decide ((cinchSeq p - c.cseq).toNat < 2 ^ 31) && !s.coll.earlyUps.any fun q =>
      cinchComm q == cinchComm p && cinchSeq q == cinchSeq p && cinchSender q == cinchSender p) = true := by
    rw [hnew, decide_eq_true (show (cinchSeq p - c.cseq).toNat < 2 ^ 31 from hahead)]
    rfl
  simp only [cinchUp, cinchUp.holdUp, hc, hgo, hn, hholds, sendCack_coll, Bool.false_eq_true, if_false, if_true]

theorem cinchCack_down (hc : commOf s (cinchComm p) = some c)
    (h : ∃ o ∈ s.coll.owed, (o.comm = c.idx && o.cseq = cinchSeq p && o.member = cinchSender p) = true) :
    cinchCack s p = { s with coll := { s.coll with owed := s.coll.owed.filter fun o =>
      !(o.comm = c.idx && o.cseq = cinchSeq p && o.member = cinchSender p) } } := by
  simp only [cinchCack, hc]
  exact if_pos (List.any_eq_true.mpr h)

theorem cinchCack_up (hc : commOf s (cinchComm p) = some c)
    (h : ∀ o ∈ s.coll.owed, (o.comm = c.idx && o.cseq = cinchSeq p && o.member = cinchSender p) = false) :
    cinchCack s p = updCinch s c.idx fun n =>
      if n.cseq = cinchSeq p ∧ n.upSent = true ∧ cinchSender p = cinchUpTo s c then { n with upAcked := true } else n := by
  have hnone : ¬ (s.coll.owed.any fun o => o.comm == c.idx && o.cseq == cinchSeq p && o.member == cinchSender p) = true := by
    rw [List.any_eq_true]
    rintro ⟨o, ho, ht⟩
    exact Bool.false_ne_true ((h o ho).symm.trans ht)
  simp only [cinchCack, hc, if_neg hnone, Bool.and_eq_true, decide_eq_true_eq, and_assoc]

end

/-! ## What goes again (R246, R249) -/

section
variable {s : State} {c : Comm} {n : Cinch}

/-- The DOWNs of the communicator sent again. -/
def resendDowns (s : State) (c : Comm) : State :=
  (s.coll.owed.filter (·.comm == c.idx)).foldl (fun t o => sendCinch t c o.cseq 1 o.member o.record) s

theorem sendCinch_coll (s : State) (c : Comm) (q : W32) (k m : Nat) (r : CinchRec) : (sendCinch s c q k m r).coll = s.coll := by
  obtain ⟨f, o, e⟩ := sendCinch_frame s c q k m r
  rw [e]

theorem sendDowns_coll (c : Comm) (l : List CinchOwed) (s : State) :
    (l.foldl (fun t o => sendCinch t c o.cseq 1 o.member o.record) s).coll = s.coll := by
  induction l generalizing s with
  | nil => rfl
  | cons o l ih => rw [List.foldl_cons, ih, sendCinch_coll]

theorem findCinch_resendDowns (s : State) (c : Comm) : findCinch (resendDowns s c) c.idx = findCinch s c.idx := by
  rw [findCinch, resendDowns, sendDowns_coll, findCinch]

theorem cinchResend_none (hc : commOf s c.idx = some c) (hgo : collStopped s = false) (hn : findCinch s c.idx = none) :
    cinchResend s c.idx = resendDowns s c := by
  have hn1 := (findCinch_resendDowns s c).trans hn
  rw [resendDowns] at hn1
  simp only [cinchResend, hc, hgo, hn1, Bool.false_eq_true, if_false]
  rfl

/-- The DOWNs go again first; then the UP, unless it was answered and its parent is not fenced. -/
theorem cinchResend_sent (hc : commOf s c.idx = some c) (hgo : collStopped s = false) (hn : findCinch s c.idx = some n)
    (hsent : n.upSent = true) : cinchResend s c.idx =
      match cinchGathered (resendDowns s c) c n with
      | some r => if !n.upAcked || chipFenced s (c.chip (cinchParentRaw c c.self))
        then sendCinch (resendDowns s c) c n.cseq 0 (cinchUpTo (resendDowns s c) c) r else resendDowns s c
      | none => resendDowns s c := by
  have hn1 := (findCinch_resendDowns s c).trans hn
  rw [resendDowns] at hn1
  simp only [cinchResend, hc, hgo, hn1, hsent, Bool.false_eq_true, if_false, if_true]
  rfl

theorem cinchResend_answered (hc : commOf s c.idx = some c) (hgo : collStopped s = false) (hn : findCinch s c.idx = some n)
    (hsent : n.upSent = true) (hack : n.upAcked = true) (hparent : chipFenced s (c.chip (cinchParentRaw c c.self)) = false) :
    cinchResend s c.idx = resendDowns s c := by
  rw [cinchResend_sent hc hgo hn hsent]
  split
  · rw [hack, hparent]
    rfl
  · rfl

theorem resendDowns_none (h : ∀ o ∈ s.coll.owed, o.comm ≠ c.idx) : resendDowns s c = s := by
  rw [resendDowns, List.filter_eq_nil_iff.mpr fun o ho => by simpa using h o ho]
  rfl

theorem cinchResend_up {r : CinchRec} (hc : commOf s c.idx = some c) (hgo : collStopped s = false) (hnone : ∀ o ∈ s.coll.owed, o.comm ≠ c.idx)
    (hn : findCinch s c.idx = some n) (hsent : n.upSent = true)
    (hagain : n.upAcked = false ∨ chipFenced s (c.chip (cinchParentRaw c c.self)) = true) (hr : cinchGathered s c n = some r) :
    cinchResend s c.idx = sendCinch s c n.cseq 0 (cinchUpTo s c) r := by
  have hgoes : (!n.upAcked || chipFenced s (c.chip (cinchParentRaw c c.self))) = true := by
    rcases hagain with h | h
    · rw [h]
      rfl
    · rw [h, Bool.or_true]
  rw [cinchResend_sent hc hgo hn hsent, resendDowns_none hnone, hr]
  exact if_pos hgoes

end

/-- Settles O44: UP, DOWN and CACK by whether this member is in the cinch they name, and what is sent again. That an early UP for which the
store has no payload room goes unanswered is the model's choice (log entry 73). -/
theorem cinchPacketsTaken : Obligations.CinchPacketsTaken := by
  unfold Obligations.CinchPacketsTaken
  intro s p
  refine ⟨fun hi x hx => ?_, fun c hi hc hopen hgo => ?_⟩
  · simp only [List.mem_cons, List.not_mem_nil, or_false] at hx
    rcases hx with rfl | rfl | rfl <;>
      exact congrArg Host.Outcome.next ((accepting_discard _ hi).trans (ingress_discard hi).symm)
  have hgoes := going_of hopen hgo
  have hidx : commOf s c.idx = some c := commOf_idx hc
  intro cack owed
  refine ⟨fun h => ?_, fun n hn hseq => ⟨fun h => ?_, ?_⟩, fun hn => ⟨fun h => ?_, fun hahead hfirst => ?_⟩, fun n h => ?_,
    fun n r hnone hn hsent hagain hr => congrArg Host.Outcome.next (cinchResend_up hidx hgoes hnone hn hsent hagain hr), fun h => ?_, fun h => ?_⟩
  · exact congrArg Host.Outcome.next ((accepting_intact _ hi).trans (cinchDownArrives_waits hc hgoes h))
  · exact congrArg Host.Outcome.next ((accepting_intact _ hi).trans (cinchDownArrives_ends hc hgoes h hn hseq))
  · exact congrArg Host.Outcome.next ((accepting_intact _ hi).trans (cinchUp_taken hc hgoes hn hseq))
  · exact congrArg Host.Outcome.next ((accepting_intact _ hi).trans (cinchDownArrives_over hc hgoes h hn))
  · exact congrArg Host.Outcome.next ((accepting_intact _ hi).trans (cinchUp_early hc hgoes hn hahead hfirst))
  · rcases h with hn | ⟨hn, hsent, hack, hparent⟩
    · exact congrArg Host.Outcome.next (cinchResend_none hidx hgoes hn)
    · exact congrArg Host.Outcome.next (cinchResend_answered hidx hgoes hn hsent hack hparent)
  · exact congrArg Host.Outcome.next ((accepting_intact _ hi).trans (cinchCack_down hc h))
  · exact congrArg Host.Outcome.next ((accepting_intact _ hi).trans (cinchCack_up hc h))

end Sys2Proof.Machine
end

section
/-! SUPPORT. The entry into the commit cinch: what the entering state keeps and sets. -/

namespace Sys2Proof.Machine

/-- A module's kin in a cinch go by the fences of its routes alone. -/
theorem cinchKids_of_fab {s t : State} (h : t.fab = s.fab) (c : Comm) : ∀ fuel l, cinchKids t c fuel l = cinchKids s c fuel l := by
  have hfenced : ∀ d, chipFenced t d = chipFenced s d := fun d => by rw [chipFenced, routeOf, h, chipFenced, routeOf]
  intro fuel
  induction fuel with
  | zero => intro l; cases l <;> rfl
  | succ n ih =>
    intro l
    cases l with
    | nil => rfl
    | cons a l => simp only [cinchKids, hfenced, ih]

theorem cinchFamily_of_fab {s t : State} (h : t.fab = s.fab) (c : Comm) : cinchFamily t c = cinchFamily s c := cinchKids_of_fab h c _ _

/-! ## The entry into the commit cinch (R250, R350) -/

section
variable {s : State} {m : Manifest} {c : Comm}

/-- The state once the commit record has been read: its poison is taken. -/
def recordRead (s : State) (m : Manifest) : State := if hbmPoisoned s m.crec 64 then consume s 3 none m.crec else s

/-- The state that enters: the governor has made its offer at a first entry, and nothing is dispatched any more. -/
def entering (s : State) (m : Manifest) : State :=
  let g := if s.job.firstEntry then govern (recordRead s m) else recordRead s m
  { g with job := { g.job with entered := true, firstEntry := false, deferred := false, dispatching := false } }

theorem enterCommit_enters (hm : s.job.manifest = some m) (hc : commOf s m.commit = some c) (hmay : mayEnter s = true) :
    enterCommit s = finishCinch (cinchEnter (entering s m) c .commit (commitWords (entering s m)) none 0) := by
  have hcomm : commitComm s = some c := by rw [commitComm, hm]; exact hc
  simp only [enterCommit, hm, hcomm, hmay, if_true]
  rfl

theorem recordRead_frame (s : State) (m : Manifest) : ∃ q fl h o, recordRead s m =
    { s with job := { s.job with poison := s.job.poison || hbmPoisoned s m.crec 64, consumedNow := q }, flt := fl, hlk := h, out := o } := by
  rw [recordRead]
  cases hbmPoisoned s m.crec 64
  · exact ⟨_, _, _, _, by rw [Bool.or_false]; rfl⟩
  · rw [Bool.or_true, if_pos rfl, consume]
    dsimp only
    split
    · exact ⟨_, _, _, _, rfl⟩
    · obtain ⟨f, h, o, e⟩ := logRecord_frame ({ s with
        flt := { s.flt with consumptions := bump s.flt.consumptions },
        job := { s.job with poison := true, consumedNow := true } } : State) { Record.blank with
        code := codePoison, cause := BitVec.ofNat 8 3, source := 4, core := none, step := s.job.step, addr := BitVec.ofNat 40 m.crec }
      exact ⟨_, _, _, _, e⟩

/-- What the entering state keeps, and what it has set. -/
theorem entering_frame (s : State) (m : Manifest) : ∃ q pw fl h o, entering s m = { s with
    job := { s.job with poison := s.job.poison || hbmPoisoned s m.crec 64, consumedNow := q, entered := true, firstEntry := false,
                        deferred := false, dispatching := false }, pwr := pw, flt := fl, hlk := h, out := o } := by
  obtain ⟨q, fl, h, o, e⟩ := recordRead_frame s m
  rw [entering, e]
  cases s.job.firstEntry
  · exact ⟨q, _, fl, h, o, rfl⟩
  · exact ⟨q, _, fl, h, o, rfl⟩

end

/-- Settles O45: the part enters with the words of its record, its flags and its offer, and waits for a child that has not sent its UP. -/
theorem commitEntered : Obligations.CommitEntered := by
  unfold Obligations.CommitEntered
  intro s m c hm hc hmay hn ⟨x, hx, hup⟩
  have hidx : commOf s c.idx = some c := by
    have hi : c.idx = m.commit := by simpa using List.find?_some hc
    rw [hi, hc]
  obtain ⟨q, pw, fl, h, o, e⟩ := entering_frame s m
  have hfam : x ∈ (cinchFamily (entering s m) c).1 := by
    rw [cinchFamily_of_fab (s := s) (by rw [e])]
    exact hx
  have hcoll : (entering s m).coll = s.coll := by rw [e]
  have hrec := enterCommit_enters hm hc hmay
  obtain ⟨n, W, hfin, hmem, hcom, hseq, hkind, hwords⟩ := cinchEnter_waits (entering s m) c .commit (commitWords (entering s m)) none 0
    (by rw [commOf, hcoll]; exact hidx) (by rw [findCinch, hcoll]; exact hn) x hfam (by rw [hcoll]; exact hup)
  refine ⟨{ entering s m with coll := W }, n, congrArg Host.Outcome.next (hrec.trans hfin), hmem, hcom, hseq, hkind, ?_⟩
  have hjob : (entering s m).job.manifest = some m := by rw [e]; exact hm
  intro poison
  refine ⟨?_, by rw [e], by rw [e], by rw [e], by rw [e], by rw [e]⟩
  rw [hwords, commitWords, hjob, e]
  rfl

end Sys2Proof.Machine
end

section
/-! SUPPORT. Rings: what a pilot's words, their absence and a sweep's end leave. -/

namespace Sys2Proof.Machine

/-! ## Words of a pilot (R265, R268, R269) -/

section
variable {s : State} {g : LaneId} {tx : Bool} {w : W16}

/-- The words in a row that matched, and those of another identity. -/
def Lane.good (l : Lane) (tx : Bool) : Nat := if tx then l.txGood else l.rxGood
def Lane.other (l : Lane) (tx : Bool) : Nat := if tx then l.txOther else l.rxOther
def Lane.out (l : Lane) (tx : Bool) : Bool := if tx then l.txOut else l.rxOut

theorem becomeReady_in (h : s.opt.lanes[g].out tx = false) : becomeReady s g tx = s := by
  cases tx
  · exact if_neg (by rw [show s.opt.lanes[g].rxOut = false from h]; exact Bool.false_ne_true)
  · exact if_neg (by rw [show s.opt.lanes[g].txOut = false from h]; exact Bool.false_ne_true)

theorem setRing_out (st : Nat) : ((setRing s g tx st).opt.lanes[g]).out tx = s.opt.lanes[g].out tx := by
  rw [setRing, updLane_at]
  cases tx <;> rfl

/-- A matching word on an acquiring ring: the second in a row locks it. -/
theorem pilotWord_acquiring (h : ringState s.opt.lanes[g] tx = 2) (hv : wordValid w = true) (hm : wordMatches s g tx w = true) :
    pilotWord s g tx w = if s.opt.lanes[g].good tx = 1 then becomeReady (setRing s g tx 3) g tx
      else setWords s g tx (s.opt.lanes[g].good tx + 1) 0 := by
  simp only [pilotWord, h, hv, hm, Bool.and_self, if_true]
  rfl

theorem pilotWord_acquiring_wrong (h : ringState s.opt.lanes[g] tx = 2) (hv : wordValid w = true) (hm : wordMatches s g tx w = false) :
    pilotWord s g tx w = setRing s g tx 1 := by
  simp only [pilotWord, h, hv, hm, Bool.and_false, Bool.not_false, Bool.and_self, Bool.false_eq_true, if_false, if_true]

theorem pilotWord_invalid (h : ringState s.opt.lanes[g] tx = 2 ∨ ringState s.opt.lanes[g] tx = 3) (hv : wordValid w = false) :
    pilotWord s g tx w = setWords s g tx 0 0 := by
  rcases h with h | h <;> simp only [pilotWord, h, hv, Bool.false_and, Bool.false_eq_true, if_false]

theorem pilotWord_locked (h : ringState s.opt.lanes[g] tx = 3) (hv : wordValid w = true) (hm : wordMatches s g tx w = true) :
    pilotWord s g tx w = setWords s g tx 0 0 := by
  simp only [pilotWord, h, hv, hm, Bool.not_true, Bool.and_false, Bool.false_eq_true, if_false]

/-- A word of another identity on a locked ring: the third in a row is a mislock (R269). -/
theorem pilotWord_wrong (h : ringState s.opt.lanes[g] tx = 3) (hv : wordValid w = true) (hm : wordMatches s g tx w = false) :
    pilotWord s g tx w = if s.opt.lanes[g].other tx = 2 then mislock s g tx w else setWords s g tx 0 (s.opt.lanes[g].other tx + 1) := by
  simp only [pilotWord, h, hv, hm, Bool.not_false, Bool.and_self, if_true]
  rfl

theorem pilotWord_failed (h : ringState s.opt.lanes[g] tx = 4) : pilotWord s g tx w = s := by
  simp only [pilotWord, h]

end

/-! ## A lane that leaves and sweeps (R268, R269) -/

section
variable {s : State} {g : LaneId} {tx : Bool}

theorem takeOut_ringState (s : State) (g : LaneId) (tx : Bool) :
    ringState (takeOut s g tx).opt.lanes[g] tx = ringState s.opt.lanes[g] tx := by
  cases tx
  · cases h : s.opt.lanes[g].rxOut
    · obtain ⟨f, q, e⟩ := takeOutRx_does s g h
      rw [show takeOut s g false = takeOutRx s g from rfl, e]
      simp [ringState]
    · rw [show takeOut s g false = takeOutRx s g from rfl, takeOutRx, if_pos h]
  · cases h : s.opt.lanes[g].txOut
    · obtain ⟨f, e⟩ := takeOutTx_does s g h
      rw [show takeOut s g true = takeOutTx s g from rfl, e]
      simp [ringState]
    · rw [show takeOut s g true = takeOutTx s g from rfl, takeOutTx, if_pos h]

/-- A ring that sweeps, its lane out of its strap. -/
def Lane.sweepsOut (l : Lane) (tx : Bool) : Prop := ringState l tx = 1 ∧ if tx then l.txOut = true else l.rxOut = true

theorem lanes_set_same (v : Vector Lane 64) (x : Lane) (g : LaneId) : (v.set g x)[g] = x := by simp

theorem lanes_set_other (v : Vector Lane 64) (x : Lane) {g h : LaneId} (hne : h ≠ g) : (v.set g x)[h] = v[h] := by
  have : g.val ≠ h.val := fun e => hne (Fin.ext e.symm)
  simp [Vector.getElem_set_ne, this]

/-- What a lost lock leaves: the lane out of its strap and sweeping, every other lane as it was. -/
theorem lockLost_does (h : ringState s.opt.lanes[g] tx = 3) : ∃ f q n L, startSweep (takeOut s g tx) g tx =
    { s with fab := f, opt := { s.opt with lanes := L, lanesRemoved := n, straps := q } } ∧
    L[g].sweepsOut tx ∧ L[g].mislock = s.opt.lanes[g].mislock ∧ ∀ x, x ≠ g → L[x] = s.opt.lanes[x] := by
  obtain ⟨f, q, n, L, e, hout, hothers, hcount, -, -, -, -⟩ := takeOut_does s g tx
  have hring : ringState L[g] tx = 3 := by
    have := takeOut_ringState s g tx
    rw [e, h] at this
    exact this
  obtain ⟨x, ex, hx, hxt, hxr, hxc, -⟩ := startSweep_does (takeOut s g tx) g tx
  rw [e] at ex hx hxt hxr hxc
  rw [e, ex]
  refine ⟨f, q, n, L.set g x, rfl, ?_, ?_, fun y hy => ?_⟩
  · rw [lanes_set_same]
    refine ⟨?_, ?_⟩
    · rw [hx]
      exact if_neg (by rw [show ringState L[g] tx = 3 from hring]; decide)
    · cases tx
      · exact hxr.trans hout
      · exact hxt.trans hout
  · rw [lanes_set_same, hxc]
    exact hcount
  · rw [lanes_set_other _ _ hy]
    exact hothers y hy

/-- The state in which a mislock is counted. -/
def mislockCounted (s : State) (g : LaneId) : State :=
  updLane { s with free := s.free + 8, opt := { s.opt with mislock := s.opt.mislock + 1 } } g fun l => { l with mislock := l.mislock + 1 }

/-- The state in which a mislock is counted and reported, its lane still in its strap. -/
def mislocked (s : State) (g : LaneId) (tx : Bool) (w : W16) : State :=
  raiseEvent (mislockCounted s g) 0x04 (leBytes 2 codeMislock.toNat ++ leBytes 1 g.val ++ leBytes 1 tx.toNat ++
    leBytes 2 (expectedWord s g tx).toNat ++ leBytes 2 w.toNat ++ freeBytes s.free 8)

theorem mislock_eq (w : W16) : mislock s g tx w = startSweep (takeOut (mislocked s g tx w) g tx) g tx := rfl

theorem mislocked_frame (s : State) (g : LaneId) (tx : Bool) (w : W16) : ∃ o, mislocked s g tx w = { s with
    free := s.free + 8, out := s.out ++ o,
    hlk := (raiseEvent s 0x04 (leBytes 2 0x0303 ++ [BitVec.ofNat 8 g.val, if tx then 1 else 0] ++ leBytes 2 (expectedWord s g tx).toNat ++
      leBytes 2 w.toNat ++ freeBytes s.free 8)).hlk,
    opt := { s.opt with
      mislock := s.opt.mislock + 1,
      lanes := s.opt.lanes.set g { s.opt.lanes[g] with mislock := s.opt.lanes[g].mislock + 1 } } } := by
  have hdetail : leBytes 2 codeMislock.toNat ++ leBytes 1 g.val ++ leBytes 1 tx.toNat ++ leBytes 2 (expectedWord s g tx).toNat ++ leBytes 2 w.toNat ++
      freeBytes s.free 8 = leBytes 2 0x0303 ++ [BitVec.ofNat 8 g.val, if tx then 1 else 0] ++ leBytes 2 (expectedWord s g tx).toNat ++
      leBytes 2 w.toNat ++ freeBytes s.free 8 := by
    cases tx <;> rfl
  rw [mislocked, hdetail]
  generalize leBytes 2 0x0303 ++ [BitVec.ofNat 8 g.val, if tx then 1 else 0] ++ leBytes 2 (expectedWord s g tx).toNat ++ leBytes 2 w.toNat ++
    freeBytes s.free 8 = d
  have hlink := raiseEvent_congr s (mislockCounted s g) 0x04 d rfl rfl rfl
  obtain ⟨h, o, e⟩ := raiseEvent_frame (mislockCounted s g) 0x04 d
  rw [← hlink]
  rw [e]
  exact ⟨o, rfl⟩

theorem pilotGone_locked (h : ringState s.opt.lanes[g] tx = 3) (hp : tx = true ∨ s.opt.lanes[g].rxPort.isSome = true) :
    pilotGone s g tx = startSweep (takeOut { s with opt := { s.opt with pilotLost := s.opt.pilotLost + 1 } } g tx) g tx := by
  refine if_pos ?_
  rw [decide_eq_true h]
  rcases hp with hp | hp
  · rw [hp]
    rfl
  · rw [hp, Bool.or_true]
    rfl

theorem pilotGone_ignored (h : ringState s.opt.lanes[g] tx ≠ 3 ∨ (tx = false ∧ s.opt.lanes[g].rxPort = none)) : pilotGone s g tx = s := by
  refine if_neg ?_
  rcases h with h | ⟨ht, hp⟩
  · rw [decide_eq_false h, Bool.false_and]
    exact Bool.false_ne_true
  · rw [ht, hp, Option.isSome_none, Bool.or_false, Bool.and_false]
    exact Bool.false_ne_true

end

/-! ## Sweeps (R268) -/

section
variable {s : State} {g : LaneId} {tx : Bool}

def Lane.sweeps (l : Lane) (tx : Bool) : Nat := if tx then l.txSweeps else l.rxSweeps

theorem sweepEnds_found (h : ringState s.opt.lanes[g] tx = 1) :
    sweepEnds s g tx true = updLane (setRing s g tx 2) g fun l => if tx then { l with txSweeps := 0 } else { l with rxSweeps := 0 } := by
  simp only [sweepEnds, h, if_true]
  rfl

theorem sweepEnds_nothing (h : ringState s.opt.lanes[g] tx = 1) : sweepEnds s g tx false =
    if 3 ≤ s.opt.lanes[g].sweeps tx + 1 then ringFails s g tx else updLane s g fun l =>
      if tx then { l with txSweeps := s.opt.lanes[g].sweeps tx + 1 } else { l with rxSweeps := s.opt.lanes[g].sweeps tx + 1 } := by
  simp only [sweepEnds, h, Bool.false_eq_true, if_false]
  rfl

theorem sweepEnds_failed {found : Bool} (h : ringState s.opt.lanes[g] tx = 4) : sweepEnds s g tx found = s := by
  simp only [sweepEnds, h]
  rfl

theorem ringFails_does (s : State) (g : LaneId) (tx : Bool) : ringState (ringFails s g tx).opt.lanes[g] tx = 4 ∧
    (ringFails s g tx).opt.sweepFailed = s.opt.sweepFailed + 1 := by
  obtain ⟨h, o, e⟩ := raiseOpen_frame { setRing s g tx 4 with opt := { (setRing s g tx 4).opt with sweepFailed := bump s.opt.sweepFailed } } 0x06
  rw [ringFails, e]
  refine ⟨?_, rfl⟩
  rw [show ringState (setRing s g tx 4).opt.lanes[g] tx = 4 by rw [setRing, updLane_at]; cases tx <;> rfl]

end

/-- Settles O47: a ring by its state, by the words that come in a row, by their absence and by the end of its sweeps. The places of the three
values in the mislock's event are the model's choice (log entry 111); so are that a ring whose words stay away takes its lane out of its strap (log
entry 20), and that an invalid word starts the counts anew (log entry 77). -/
theorem ringsTrack : Obligations.RingsTrack := by
  unfold Obligations.RingsTrack
  intro s g tx w l good other isOut
  have hrun : ∀ {t : State}, pilotWord s g tx w = t → exec (.pilotWord g tx w) s = .next t := fun h => congrArg Host.Outcome.next h
  refine ⟨fun h hv hm => ⟨fun hgood hin => hrun ?_, fun hgood => hrun ?_⟩, fun h hv hm => hrun (pilotWord_acquiring_wrong h hv hm),
    fun h hv => hrun (pilotWord_invalid h hv), fun h hv hm => hrun (pilotWord_locked h hv hm),
    fun h hv hm => ⟨fun hother => hrun ?_, fun hother => ?_⟩, fun h hp => ?_,
    fun h => congrArg Host.Outcome.next (pilotGone_ignored h), fun h => ?_, fun h found => ?_⟩
  · exact (pilotWord_acquiring h hv hm).trans ((if_pos hgood).trans (becomeReady_in ((setRing_out 3).trans hin)))
  · exact (pilotWord_acquiring h hv hm).trans (if_neg hgood)
  · exact (pilotWord_wrong h hv hm).trans (if_neg hother)
  · have hmis : pilotWord s g tx w = mislock s g tx w := (pilotWord_wrong h hv hm).trans (if_pos hother)
    obtain ⟨o, e⟩ := mislocked_frame s g tx w
    have hlanes : (mislocked s g tx w).opt.lanes = s.opt.lanes.set g { s.opt.lanes[g] with mislock := s.opt.lanes[g].mislock + 1 } := by rw [e]
    have hring : ringState (mislocked s g tx w).opt.lanes[g] tx = 3 := by
      rw [hlanes, lanes_set_same]
      exact h
    obtain ⟨f, q, n, L, ht, hsweeps, hcount, hothers⟩ := lockLost_does hring
    refine ⟨_, hrun (hmis.trans (mislock_eq w)), ?_⟩
    rw [ht]
    refine ⟨by rw [e], ?_, hsweeps, by rw [e], by rw [e], by rw [e], fun x hx => ?_⟩
    · rw [hlanes, lanes_set_same] at hcount
      exact hcount
    · rw [hothers x hx, hlanes, lanes_set_other _ _ hx]
  · have hring : ringState ({ s with opt := { s.opt with pilotLost := s.opt.pilotLost + 1 } } : State).opt.lanes[g] tx = 3 := h
    obtain ⟨f, q, n, L, ht, hsweeps, -, hothers⟩ := lockLost_does hring
    refine ⟨_, congrArg Host.Outcome.next (pilotGone_locked h hp), ?_⟩
    rw [ht]
    exact ⟨rfl, hsweeps, rfl, rfl, hothers⟩
  · intro n
    refine ⟨⟨_, congrArg Host.Outcome.next (sweepEnds_found h), ?_, rfl⟩, fun hn => congrArg Host.Outcome.next ?_, fun hn => ?_⟩
    · rw [updLane_at, setRing, updLane_at]
      cases tx <;> rfl
    · rw [sweepEnds_nothing h, if_neg (by have : s.opt.lanes[g].sweeps tx < 2 := hn; omega)]
      rfl
    · refine ⟨_, congrArg Host.Outcome.next ?_, ringFails_does s g tx⟩
      rw [sweepEnds_nothing h, if_pos (by have : 2 ≤ s.opt.lanes[g].sweeps tx := hn; omega)]
  · exact ⟨hrun (pilotWord_failed h), congrArg Host.Outcome.next (sweepEnds_failed h)⟩

end Sys2Proof.Machine
end

section
/-! SUPPORT. Lanes and combs: leaving and rejoining a strap, training, and what a comb's failure and the spare leave. -/

namespace Sys2Proof.Machine

/-! ## Leaving and rejoining a strap (R269, R270) -/

section
variable {s : State} {g : LaneId}

/-- A transmit lane out of its strap that locks again before its 200 µs are over only notes it. -/
theorem rejoinIfDue_early (h : s.opt.lanes[g].txDue = false) :
    rejoinIfDue (updLane s g fun l => { l with txReady := true }) g true = updLane s g fun l => { l with txReady := true } := by
  rw [rejoinIfDue, if_pos rfl, updLane_at]
  exact if_neg (by rw [h]; exact Bool.false_ne_true)

theorem set_updLane (s : State) (g : LaneId) (f : Lane → Lane) (x : Lane) : (updLane s g f).opt.lanes.set g x = s.opt.lanes.set g x := by
  rw [updLane, vmod]
  simp

theorem rejoinIfDue_due (hout : s.opt.lanes[g].txOut = true) (hdue : s.opt.lanes[g].txDue = true) (hkeep : keptOut s g = false) :
    ∃ f, rejoinIfDue (updLane s g fun l => { l with txReady := true }) g true = { s with fab := f, opt := { s.opt with
      lanesRejoined := s.opt.lanesRejoined + 1,
      lanes := s.opt.lanes.set g { s.opt.lanes[g] with
        txOut := false, txReady := false, txActive := s.opt.lanes[g].txMod ≠ 0 && s.opt.lanes[g].txPort.isSome } } } := by
  have hgo : rejoinIfDue (updLane s g fun l => { l with txReady := true }) g true = rejoinTx (updLane s g fun l => { l with txReady := true }) g := by
    rw [rejoinIfDue, if_pos rfl, updLane_at]
    exact if_pos hdue
  obtain ⟨f, e⟩ := rejoinTx_does (updLane s g fun l => { l with txReady := true }) g (by rw [updLane_at]; exact hout) (by rw [updLane_at]) hkeep
  rw [set_updLane, updLane_at] at e
  exact ⟨f, hgo.trans e⟩

/-- A direction that is not ready, or whose engine is out for the job, only notes that its time has come. -/
theorem rejoinTx_notes (h : s.opt.lanes[g].txReady = false ∨ keptOut s g = true) :
    rejoinTx (updLane s g fun l => { l with txDue := true }) g = updLane s g fun l => { l with txDue := true } := by
  rw [rejoinTx, updLane_at]
  refine if_neg (show ¬ (s.opt.lanes[g].txOut && s.opt.lanes[g].txReady && !keptOut s g) = true from ?_)
  rcases h with h | h
  · rw [h, Bool.and_false, Bool.false_and]
    exact Bool.false_ne_true
  · rw [h, Bool.not_true, Bool.and_false]
    exact Bool.false_ne_true

theorem rejoinRx_notes (h : s.opt.lanes[g].rxReady = false ∨ keptOut s g = true) :
    rejoinRx (updLane s g fun l => { l with rxDue := true }) g = updLane s g fun l => { l with rxDue := true } := by
  rw [rejoinRx, updLane_at]
  refine if_neg (show ¬ (s.opt.lanes[g].rxOut && s.opt.lanes[g].rxReady && !keptOut s g) = true from ?_)
  rcases h with h | h
  · rw [h, Bool.and_false, Bool.false_and]
    exact Bool.false_ne_true
  · rw [h, Bool.not_true, Bool.and_false]
    exact Bool.false_ne_true

theorem rejoinTx_rejoins (hout : s.opt.lanes[g].txOut = true) (hready : s.opt.lanes[g].txReady = true) (hkeep : keptOut s g = false) :
    ∃ f, rejoinTx (updLane s g fun l => { l with txDue := true }) g = { s with fab := f, opt := { s.opt with
      lanesRejoined := s.opt.lanesRejoined + 1,
      lanes := s.opt.lanes.set g { s.opt.lanes[g] with
        txDue := true, txOut := false, txReady := false, txActive := s.opt.lanes[g].txMod ≠ 0 && s.opt.lanes[g].txPort.isSome } } } := by
  obtain ⟨f, e⟩ := rejoinTx_does (updLane s g fun l => { l with txDue := true }) g (by rw [updLane_at]; exact hout) (by rw [updLane_at]; exact hready) hkeep
  rw [set_updLane, updLane_at] at e
  exact ⟨f, e⟩

theorem rejoinRx_rejoins (hout : s.opt.lanes[g].rxOut = true) (hready : s.opt.lanes[g].rxReady = true) (hkeep : keptOut s g = false) :
    ∃ f, rejoinRx (updLane s g fun l => { l with rxDue := true }) g = { s with fab := f, opt := { s.opt with
      lanesRejoined := s.opt.lanesRejoined + 1,
      lanes := s.opt.lanes.set g { s.opt.lanes[g] with
        rxDue := true, rxOut := false, rxReady := false, rxActive := s.opt.lanes[g].rxMod ≠ 0 && s.opt.lanes[g].rxPort.isSome } } } := by
  obtain ⟨f, e⟩ := rejoinRx_does (updLane s g fun l => { l with rxDue := true }) g (by rw [updLane_at]; exact hout) (by rw [updLane_at]; exact hready) hkeep
  rw [set_updLane, updLane_at] at e
  exact ⟨f, e⟩

end

/-! ## Training (R261, R262) -/

section
variable {s : State} {g : LaneId} {fport : Fin 16}

/-- A lane trained on arriving light. -/
def trainedLane (s : State) (x : LaneTrain) (l : Lane) : Lane :=
  let rx := chosenMod l.rxTrained l.rxMod x.snrRx
  let tx := chosenMod l.txTrained l.txMod x.snrTx
  let heat := (ringRecord s (2 * x.lane.val + 1)).heater + x.heater
  { l with
    rxState := 3, rxGood := 0, rxOther := 0, snr := if l.rxTrained then l.snr else x.snrRx, rxMod := rx, txMod := tx, rxTrained := true,
    txTrained := true, heatRx := heat, trimRx := 0, rxActive := rx ≠ 0 && !l.rxOut,
    txActive := tx ≠ 0 && !l.txOut && l.txState = 3 && l.txPort.isSome }

theorem trainLane_trains (x : LaneTrain) (hp : fibrePort x.lane s.opt.lanes[x.lane].rxPort = some fport) (hs : s.opt.lanes[x.lane].rxState ≠ 4)
    (hkeep : keptOut s x.lane = false) (hlock : x.locked = true) (hin : s.opt.lanes[x.lane].rxOut = false) :
    (trainLane fport s x).opt.lanes[x.lane] = trainedLane s x s.opt.lanes[x.lane] := by
  have hgo : ¬ ((fibrePort x.lane s.opt.lanes[x.lane].rxPort ≠ some fport || s.opt.lanes[x.lane].rxState = 4 || keptOut s x.lane) = true) := by
    rw [hp, decide_eq_false hs, hkeep]
    simp
  have hunlocked : ¬ ((!x.locked) = true) := by rw [hlock]; exact Bool.false_ne_true
  rw [trainLane]
  refine (congrArg (fun t : State => t.opt.lanes[x.lane]) ((if_neg hgo).trans (if_neg hunlocked))).trans ?_
  extract_lets rx tx mux r _ u v
  have hu : u.opt.lanes[x.lane] = trainedLane s x s.opt.lanes[x.lane] := by
    simp only [u, setRing, updLane_updLane, updLane_at]
    rfl
  have hv : v = u := becomeReady_in (by rw [hu]; exact hin)
  rw [hv]
  split
  · obtain ⟨h, o, e⟩ := raiseOpen_frame u 6
    rw [e]
    exact hu
  · exact hu

/-- Light that arrives on a fibre port trains its lane; the ports are counted anew. -/
theorem farLight_trains (x : LaneTrain) (hp : fibrePort x.lane s.opt.lanes[x.lane].rxPort = some fport) (hs : s.opt.lanes[x.lane].rxState ≠ 4)
    (hkeep : keptOut s x.lane = false) (hlock : x.locked = true) (hin : s.opt.lanes[x.lane].rxOut = false) :
    (farLight s fport [x]).opt.lanes[x.lane] = trainedLane s x s.opt.lanes[x.lane] := by
  obtain ⟨f, e⟩ := recount_frame (trainLane fport s x)
  rw [farLight]
  dsimp only [List.foldl_cons, List.foldl_nil]
  rw [e]
  exact trainLane_trains x hp hs hkeep hlock hin

end

/-! ## Combs (R254) -/

section
variable {s : State}

theorem combEvent_frame (s : State) : ∃ h o, combEvent s =
    { s with free := s.free + 16, hlk := h, out := s.out ++ o, opt := { s.opt with combEvents := s.opt.combEvents + 1 } } :=
  raiseOpen_frame { s with opt := { s.opt with combEvents := s.opt.combEvents + 1 } } 0x05

theorem mem_engineLanes {g : LaneId} {e : Nat} : g ∈ engineLanes e ↔ g.val / 16 = e := by
  simp [engineLanes, engOf]

/-- An engine that goes dark: its lanes leave their straps and carry no pilot. -/
theorem engineDark_does (s : State) (e : Nat) : ∃ f q n L, engineDark s e =
    { s with fab := f, opt := { s.opt with lanes := L, lanesRemoved := n, straps := q } } ∧
    (∀ h : LaneId, h.val / 16 = e → L[h].txOut = true ∧ L[h].rxOut = true ∧ L[h].pilotX = 0 ∧ L[h].pilotY = 0) ∧
    ∀ h : LaneId, h.val / 16 ≠ e → L[h] = s.opt.lanes[h] := by
  obtain ⟨f, q, n, L, he, hout, hkeep, -, -⟩ := takeAll_does (engineLanes e) s
  rw [engineDark, engineOut, he]
  refine ⟨f, q, n, _, rfl, fun h hh => ?_, fun h hh => ?_⟩
  · obtain ⟨ht, hr⟩ := hout h (mem_engineLanes.mpr hh)
    simp only [Fin.getElem_fin, Vector.getElem_mapFinIdx, if_pos hh, Bool.false_eq_true, if_false]
    exact ⟨ht, hr, trivial, trivial⟩
  · have := hkeep h (fun hm => hh (mem_engineLanes.mp hm))
    simp only [Fin.getElem_fin, Vector.getElem_mapFinIdx, if_neg hh]
    exact this

theorem combDark_out : ∀ (c : Fin 5) (b : BitVec 5),
    (BitVec.ofNat 5 (b.toNat - if b.getLsbD c.val then 2 ^ c.val else 0)).getLsbD c.val = false := by
  decide

theorem spareEngine_toNat : ∀ c : Fin 5, c ≠ 4 → (BitVec.ofNat 2 c.val).toNat = c.val := by
  decide

/-- The state in which the spare has taken the place of comb `c`, its event not yet raised. -/
def takenOver (s : State) (c : Fin 5) (h : Hlk) (o : List Out) (f : Fabric) (q : Vector Strap 8) (n : W64) (L : Vector Lane 64) : State :=
  { s with free := s.free + 16, hlk := h, out := s.out ++ o, fab := f, opt := { s.opt with
      combEvents := s.opt.combEvents + 1, combs := BitVec.ofNat 5 (s.opt.combs.toNat - if s.opt.combs.getLsbD c.val then 2 ^ c.val else 0),
      lanes := L, lanesRemoved := n, straps := q, spareUsed := true, spareEngine := BitVec.ofNat 2 c.val, spareLit := true } }

theorem combFails_engine {c : Fin 5} (hc : c ≠ 4) (hlit : s.opt.combs.getLsbD c.val = true) (hp : enginePresent s c.val = true) :
    combFails s c =
      let t := engineDark (combEvent (combDark s c)) c.val
      if !s.opt.spareUsed && s.opt.combs.getLsbD 4 then
        combEvent { t with opt := { t.opt with spareUsed := true, spareEngine := BitVec.ofNat 2 c.val, spareLit := true } }
      else { t with opt := { t.opt with combsOut := setPut c.val t.opt.combsOut } } := by
  have hgo : ¬ ((!s.opt.combs.getLsbD c.val || (decide (c.val < 4) && !enginePresent s c.val)) = true) := by
    rw [hlit, hp]
    simp
  rw [combFails, if_neg hgo, if_neg hc]

/-- The comb's state once it is dark and reported, its engine's light not yet gone. -/
theorem combOut_frame (s : State) (c : Fin 5) : ∃ h o, combEvent (combDark s c) =
    { s with free := s.free + 16, hlk := h, out := s.out ++ o, opt := { s.opt with
      combEvents := s.opt.combEvents + 1, combs := BitVec.ofNat 5 (s.opt.combs.toNat - if s.opt.combs.getLsbD c.val then 2 ^ c.val else 0) } } :=
  combEvent_frame (combDark s c)

end

/-! ## The spare (R254, R261) -/

theorem spareLocks_does {s : State} (hlit : s.opt.spareLit = true) : ∃ L, spareLocks s = { s with opt := { s.opt with spareLit := false, lanes := L } } ∧
    ∀ h : LaneId, if h.val / 16 = s.opt.spareEngine.toNat then
      L[h].rxState = swept s.opt.lanes[h].rxState ∧ L[h].txState = swept s.opt.lanes[h].txState ∧
        L[h].pilotX = identityWord (h.val % 16) (h.val / 16) ∧ L[h].pilotY = ~~~identityWord (h.val % 16) (h.val / 16)
      else L[h] = s.opt.lanes[h] := by
  have hall := retrainAll_does (engineLanes s.opt.spareEngine.toNat)
    (lightEngine { s with opt := { s.opt with spareLit := false } } s.opt.spareEngine.toNat true)
  obtain ⟨L, he, hin, hother, hpilot⟩ := hall
  refine ⟨L, ?_, fun h => ?_⟩
  · rw [spareLocks, if_pos hlit, he]
    rfl
  split
  · next hh =>
    obtain ⟨hrx, htx⟩ := hin h (mem_engineLanes.mpr hh)
    obtain ⟨hx, hy⟩ := hpilot h
    simp only [lightEngine, Fin.getElem_fin, Vector.getElem_mapFinIdx, if_pos hh, if_true] at hrx htx hx hy
    exact ⟨hrx, htx, hx, hy⟩
  · next hh =>
    have hkeep := hother h (fun hm => hh (mem_engineLanes.mp hm))
    simp only [lightEngine, Fin.getElem_fin, Vector.getElem_mapFinIdx, if_neg hh] at hkeep
    exact hkeep

/-- Settles O48: a lane leaves on Stop and rejoins once it is ready and due; the heaters follow the temperatures; light trains a lane; a comb's
failure takes its engine's lanes out, and the spare takes its place once. -/
theorem lanesMove : Obligations.LanesMove := by
  unfold Obligations.LanesMove
  intro s g l
  refine ⟨fun port hport => ⟨fun hin => ?_, fun hout hlock hdue => ?_, fun hout hlock hdue hkeep => ?_⟩, fun tx hout => ?_, fun temps => ?_,
    fun fport x hx hp hs hkeep hlock hin => ?_, fun c hc hlit hp => ?_, fun hlit => ?_⟩
  · obtain ⟨f, e⟩ := takeOutTx_does s g hin
    refine ⟨_, congrArg Host.Outcome.next ((if_pos hport).trans e), rfl, rfl, rfl, rfl⟩
  · have hgo : (decide (txNet s g = some port) && s.opt.lanes[g].txOut && decide (s.opt.lanes[g].txState = 3)) = true := by
      rw [decide_eq_true hport, decide_eq_true hlock, hout]
      rfl
    exact congrArg Host.Outcome.next ((if_pos hgo).trans (rejoinIfDue_early hdue))
  · have hgo : (decide (txNet s g = some port) && s.opt.lanes[g].txOut && decide (s.opt.lanes[g].txState = 3)) = true := by
      rw [decide_eq_true hport, decide_eq_true hlock, hout]
      rfl
    obtain ⟨f, e⟩ := rejoinIfDue_due hout hdue hkeep
    exact ⟨_, congrArg Host.Outcome.next ((if_pos hgo).trans e), rfl, rfl⟩
  · cases tx
    · intro due
      have hrun : exec (.laneRejoin g false) s = .next (rejoinRx (updLane s g fun l => { l with rxDue := true }) g) :=
        congrArg Host.Outcome.next (if_pos hout)
      refine ⟨fun h => hrun.trans (congrArg Host.Outcome.next (rejoinRx_notes h)), fun hready hkeep => ?_⟩
      obtain ⟨f, e⟩ := rejoinRx_rejoins hout hready hkeep
      exact ⟨_, hrun.trans (congrArg Host.Outcome.next e), rfl, rfl, rfl, rfl⟩
    · intro due
      have hrun : exec (.laneRejoin g true) s = .next (rejoinTx (updLane s g fun l => { l with txDue := true }) g) :=
        congrArg Host.Outcome.next (if_pos hout)
      refine ⟨fun h => hrun.trans (congrArg Host.Outcome.next (rejoinTx_notes h)), fun hready hkeep => ?_⟩
      obtain ⟨f, e⟩ := rejoinTx_rejoins hout hready hkeep
      exact ⟨_, hrun.trans (congrArg Host.Outcome.next e), rfl, rfl, rfl, rfl⟩
  · refine ⟨_, rfl, rfl, fun e => ?_, fun h => ?_⟩
    · simp only [feedForward, Fin.getElem_fin, Vector.getElem_ofFn]
    · simp only [feedForward, Fin.getElem_fin, Vector.getElem_mapFinIdx]
  · intro mod
    subst hx
    refine ⟨_, rfl, ?_⟩
    rw [farLight_trains x hp hs hkeep hlock hin]
    refine ⟨rfl, rfl, rfl, rfl, rfl, fun hnew => ?_, rfl, rfl, ?_⟩
    · exact if_neg (by rw [show s.opt.lanes[x.lane].rxTrained = false from hnew]; exact Bool.false_ne_true)
    · have hactive : (trainedLane s x s.opt.lanes[x.lane]).rxActive =
          (decide ((trainedLane s x s.opt.lanes[x.lane]).rxMod ≠ 0) && !s.opt.lanes[x.lane].rxOut) := rfl
      rw [hactive, show s.opt.lanes[x.lane].rxOut = false from hin, Bool.not_false, Bool.and_true]
  · have hfail := combFails_engine hc hlit hp
    obtain ⟨h1, o1, e1⟩ := combOut_frame s c
    obtain ⟨f, q, n, L, e2, hdark, hothers⟩ := engineDark_does (combEvent (combDark s c)) c.val
    have hspare : (!s.opt.spareUsed && s.opt.combs.getLsbD 4) = true ↔ s.opt.spareUsed = false ∧ s.opt.combs.getLsbD 4 = true := by simp
    by_cases hs : s.opt.spareUsed = false ∧ s.opt.combs.getLsbD 4 = true
    · rw [if_pos (hspare.mpr hs)] at hfail
      rw [e2, e1] at hfail
      obtain ⟨h2, o2, e3⟩ := combEvent_frame (takenOver s c h1 o1 f q n L)
      refine ⟨_, congrArg Host.Outcome.next (hfail.trans e3), combDark_out c s.opt.combs, hdark, fun x hx => ?_, fun _ _ => ⟨rfl, ?_, rfl, ?_⟩,
        fun hno => ?_⟩
      · rw [e1] at hothers
        exact hothers x hx
      · exact spareEngine_toNat c hc
      · exact BitVec.add_assoc _ 1 1
      · rcases hno with hno | hno
        · rw [hs.1] at hno
          cases hno
        · rw [hs.2] at hno
          cases hno
    · rw [if_neg (mt hspare.mp hs), e2, e1] at hfail
      refine ⟨_, congrArg Host.Outcome.next hfail, combDark_out c s.opt.combs, hdark, fun x hx => ?_, fun hu hl => absurd ⟨hu, hl⟩ hs,
        fun _ => ⟨rfl, rfl⟩⟩
      rw [e1] at hothers
      exact hothers x hx
  · obtain ⟨L, e, hL⟩ := spareLocks_does hlit
    refine ⟨_, congrArg Host.Outcome.next e, rfl, fun h => ?_⟩
    exact hL h

end Sys2Proof.Machine
end

section
/-! SUPPORT. Frames: the flits given to a frame, what a frame sent leaves, and what a frame that comes in leaves by its place in the sequence. -/

namespace Sys2Proof.Machine

/-! ## The flits that the router gives (R206, R210) -/

section
variable {s : State} {n : PortId}

/-- A flit leaves a channel that is ready; no other channel goes while a control channel can. -/
theorem pick_ready {q : Port} {first : Bool} {vc : Fin 8} (h : q.pick first = some vc) :
    q.ready vc = true ∧ (vc.val < 6 → q.ready 6 = false ∧ q.ready 7 = false) := by
  rw [Port.pick] at h
  cases h6 : q.ready 6 <;> cases h7 : q.ready 7 <;> simp only [h6, h7] at h
  · exact ⟨List.find?_some h, fun _ => ⟨rfl, rfl⟩⟩
  · obtain rfl : 7 = vc := Option.some.inj h
    exact ⟨h7, fun hlt => absurd hlt (by decide)⟩
  · obtain rfl : 6 = vc := Option.some.inj h
    exact ⟨h6, fun hlt => absurd hlt (by decide)⟩
  · cases first
    · obtain rfl : 7 = vc := Option.some.inj h
      exact ⟨h7, fun hlt => absurd hlt (by decide)⟩
    · obtain rfl : 6 = vc := Option.some.inj h
      exact ⟨h6, fun hlt => absurd hlt (by decide)⟩

theorem ready_credit {q : Port} {vc : Fin 8} (h : q.ready vc = true) : 0 < q.credits[vc] := by
  rw [Port.ready, Bool.and_eq_true] at h
  exact of_decide_eq_true h.2

/-- A flit that leaves an input buffer changes no credit and no count of flits sent. -/
theorem leaveBuffer_port (s : State) (p : Nat) (vc : Fin 8) (k : Nat) (m : Bool) (o : PortId) :
    ((leaveBuffer s p vc k m).fab.ports[o]).credits = (s.fab.ports[o]).credits ∧
      ((leaveBuffer s p vc k m).fab.ports[o]).flitsTx = (s.fab.ports[o]).flitsTx := by
  by_cases hp : p < 8
  · by_cases ho : o = ⟨p, hp⟩
    · subst ho
      rw [leaveBuffer, updPort_same s ⟨p, hp⟩]
      exact ⟨rfl, rfl⟩
    · rw [leaveBuffer, updPort_other s ⟨p, hp⟩ o _ ho]
      exact ⟨rfl, rfl⟩
  · rw [leaveBuffer, updPort, dif_neg hp]
    exact ⟨rfl, rfl⟩

theorem leaveBuffer_frame (s : State) (p : Nat) (vc : Fin 8) (k : Nat) (m : Bool) : ∃ P, leaveBuffer s p vc k m =
    { s with fab := { s.fab with ports := P } } := updPort_frame _ _ _

/-- What the router gives: one flit of the packet whose turn it is. -/
theorem nextFlit_some {t : State} {f : Flit} (h : nextFlit s n = some (t, f)) : ∃ (vc : Fin 8) (i : Nat) (o o1 : OutPkt) (m : Bool) (fr : Nat),
    (s.fab.ports[n]).pick ((Config.freeValue s.free).getLsbD 0) = some vc ∧ f = packetFlit o1.p vc o.sent ∧
      t = leaveBuffer (updPort { s with free := fr } n.val fun q => q.send vc i o1) o.inPort.val o.inVc 1 m := by
  unfold nextFlit at h
  dsimp only at h
  split at h
  · cases h
  split at h
  · cases h
  next vc hpick =>
  split at h
  · cases h
  next i o hnext =>
  obtain ⟨ht, hf⟩ := Prod.mk.inj (Option.some.inj h)
  split at ht
  · exact ⟨vc, i, o, _, _, s.free + 1, hpick, hf.symm, ht.symm⟩
  · exact ⟨vc, i, o, _, _, s.free, hpick, hf.symm, ht.symm⟩

theorem nextFlit_spends {t : State} {f : Flit} (h : nextFlit s n = some (t, f)) : ∃ vc : Fin 8, f.vc = vc ∧ 0 < (s.fab.ports[n]).credits[vc] ∧
    (t.fab.ports[n]).credits[vc] = (s.fab.ports[n]).credits[vc] - 1 ∧ (t.fab.ports[n]).flitsTx[vc] = (s.fab.ports[n]).flitsTx[vc] + 1 ∧
      (vc.val < 6 → (s.fab.ports[n]).ready 6 = false ∧ (s.fab.ports[n]).ready 7 = false) := by
  obtain ⟨vc, i, o, o1, m, fr, hpick, hf, ht⟩ := nextFlit_some h
  obtain ⟨hready, horder⟩ := pick_ready hpick
  refine ⟨vc, by rw [hf]; rfl, ready_credit hready, ?_, ?_, horder⟩
  · rw [ht, (leaveBuffer_port _ _ _ _ _ n).1, updPort_same]
    exact vmod_same _ _ _
  · rw [ht, (leaveBuffer_port _ _ _ _ _ n).2, updPort_same]
    exact vmod_same _ _ _

theorem nextFlit_frame {t : State} {f : Flit} (h : nextFlit s n = some (t, f)) : ∃ F fr, t = { s with fab := F, free := fr } := by
  obtain ⟨vc, i, o, o1, m, fr, -, -, ht⟩ := nextFlit_some h
  obtain ⟨P, e⟩ := updPort_frame { s with free := fr } n.val fun q => q.send vc i o1
  obtain ⟨P1, e1⟩ := leaveBuffer_frame (updPort { s with free := fr } n.val fun q => q.send vc i o1) o.inPort.val o.inVc 1 m
  rw [ht, e1, e]
  exact ⟨_, _, rfl⟩

theorem takeFlits_frame (k : Nat) (s : State) (n : PortId) : ∃ F fr, (takeFlits k s n).1 = { s with fab := F, free := fr } := by
  induction k generalizing s with
  | zero => exact ⟨s.fab, s.free, rfl⟩
  | succ k ih =>
    rw [takeFlits]
    split
    · exact ⟨s.fab, s.free, rfl⟩
    · next t f h =>
      obtain ⟨F, fr, e⟩ := nextFlit_frame h
      obtain ⟨F1, fr1, e1⟩ := ih t
      rw [e] at e1
      rw [e]
      exact ⟨F1, fr1, e1⟩

theorem countStalls_frame (s : State) (n : PortId) : ∃ F fr, countStalls s n = { s with fab := F, free := fr } := by
  have hfold : ∀ (l : List (Fin 8)) (t : State), ∃ F fr, l.foldl (fun t vc =>
      if ((t.fab.ports[n]).next vc).isSome && (t.fab.ports[n]).credits[vc] = 0 then countStall t n.val vc else t) t = { t with fab := F, free := fr } := by
    intro l
    induction l with
    | nil => exact fun t => ⟨t.fab, t.free, rfl⟩
    | cons vc l ih =>
      intro t
      rw [List.foldl_cons]
      split
      · obtain ⟨P, e⟩ := updPort_frame { t with free := t.free + 1 } n.val fun q => { q with stall := vmod q.stall vc (· + freeCycles t.free) }
        obtain ⟨F, fr, e1⟩ := ih (countStall t n.val vc)
        rw [countStall, e] at e1
        rw [countStall, e]
        exact ⟨F, fr, e1⟩
      · exact ih t
  exact hfold _ s

end

/-! ## A frame goes out (R258–R260) -/

section
variable {s : State} {n : PortId} {g : LaneId}

/-- The frame that a strap sends next on a lane: its oldest service message, with the credits and the flits given to it. -/
def outFrame (s : State) (n : PortId) (g : LaneId) (x : State × List Flit) : Frame :=
  makeFrame s n g ((s.opt.straps[n]).svcQ.headD (0, 0)) (creditsOf x.1.fab.ports[n]) x.2

/-- A frame as it goes out on the line. -/
def lineOut (s : State) (n : PortId) (g : LaneId) (f : Frame) : Out :=
  .frame n g f (lineSymbols (frameBits s.sec.conf s.glb.moduleId.toNat s.sec.epoch.toNat f))

/-- A strap that has sent a frame: numbered, kept, its service message gone. -/
def Strap.afterSend (q : Strap) (g : LaneId) (f : Frame) : Strap :=
  { q with txSeq := q.txSeq + 1, svcQ := q.svcQ.tail, kept := q.kept ++ [(g, f)], nextLane := g.val + 1,
           doneSent := q.doneSent || (q.svcQ.headD (0, 0)).1 == 4 }

theorem sayFrame_frame (s : State) (n : PortId) (g : LaneId) (f : Frame) : ∃ L, sayFrame s n g f =
    { s with out := s.out ++ [lineOut s n g f], opt := { s.opt with lanes := L } } := by
  have hsay : sayFrame s n g f = (spendCounter s g).say (lineOut s n g f) := by rw [sayFrame, lineOut]
  rw [hsay, spendCounter]
  generalize lineOut s n g f = o
  cases s.sec.conf
  · exact ⟨s.opt.lanes, rfl⟩
  · exact ⟨_, rfl⟩

theorem sendFrame_sends (hg : nextLane s n = some g) (open_ : Bool) : let x := takeFlits (if open_ then slotsPerFrame s else 0) s n
    ∃ F fr L, sendFrame s n open_ = { s with
      fab := F, free := fr, out := s.out ++ [lineOut s n g (outFrame s n g x)],
      opt := { s.opt with lanes := L, straps := vmod s.opt.straps n fun q => q.afterSend g (outFrame s n g x) } } := by
  intro x
  obtain ⟨F, fr, e⟩ := takeFlits_frame (if open_ then slotsPerFrame s else 0) s n
  have hx : x.1 = { s with fab := F, free := fr } := e
  have hframe : makeFrame x.1 n g ((x.1.opt.straps[n]).svcQ.headD (0, 0)) (creditsOf x.1.fab.ports[n]) x.2 = outFrame s n g x := by
    rw [hx, outFrame, hx]
    rfl
  have hsend : sendFrame s n open_ = sayFrame (updPort (updStrap x.1 n fun q => { q with
      txSeq := q.txSeq + 1, svcQ := q.svcQ.tail, kept := q.kept ++ [(g, outFrame s n g x)], nextLane := g.val + 1,
      doneSent := q.doneSent || ((x.1.opt.straps[n]).svcQ.headD (0, 0)).1 == 4 }) n.val fun q => payCredits q (creditsOf x.1.fab.ports[n])) n g
      (outFrame s n g x) := by
    rw [← hframe, sendFrame, hg]
  generalize outFrame s n g x = f at hsend ⊢
  obtain ⟨P, e1⟩ := updPort_frame (updStrap x.1 n fun q => { q with
      txSeq := q.txSeq + 1, svcQ := q.svcQ.tail, kept := q.kept ++ [(g, f)], nextLane := g.val + 1,
      doneSent := q.doneSent || ((x.1.opt.straps[n]).svcQ.headD (0, 0)).1 == 4 }) n.val fun q => payCredits q (creditsOf x.1.fab.ports[n])
  rw [e1] at hsend
  obtain ⟨L, e2⟩ := sayFrame_frame { (updStrap x.1 n fun q => { q with
      txSeq := q.txSeq + 1, svcQ := q.svcQ.tail, kept := q.kept ++ [(g, f)], nextLane := g.val + 1,
      doneSent := q.doneSent || ((x.1.opt.straps[n]).svcQ.headD (0, 0)).1 == 4 }) with fab := { x.1.fab with ports := P } } n g f
  refine ⟨{ x.1.fab with ports := P }, x.1.free, L, (hsend.trans e2).trans ?_⟩
  rw [hx]
  rfl

theorem sendFrame_none (h : nextLane s n = none) (open_ : Bool) : sendFrame s n open_ = s := by
  rw [sendFrame, h]

end

/-! ## A frame comes in (R259, R260, R385) -/

section
variable {s : State} {n : PortId} {g : LaneId} {bits : BitVec 10280} {rx : FrameRx}

/-- The state in which the symbols corrected in a frame are counted. -/
def symbolsCounted (s : State) (g : LaneId) (rx : FrameRx) : State :=
  let fixed := BitVec.ofNat 64 (symbolsFixed rx.errors0 + symbolsFixed rx.errors1)
  updLane { s with opt := { s.opt with fecSymbols := s.opt.fecSymbols + fixed } } g fun l => { l with fec := l.fec + fixed }

theorem farLane_counted (s : State) (g : LaneId) (rx : FrameRx) : farLane (symbolsCounted s g rx) g = farLane s g := by
  rw [farLane, symbolsCounted, updLane_at]
  rfl

/-- A frame that names another lane than the far one expected. -/
def wrongLane (far : Option Nat) (f : Frame) : Bool := match far with | some x => x ≠ f.lid.toNat | none => false

/-- A frame is lost or used, once its corrected symbols are counted. -/
theorem receiveFrame_eq (hn : rxNet s g = some n) : receiveFrame s n g bits rx =
    let u := symbolsCounted s g rx
    let f := frameOf s.sec.conf bits.toNat
    if 15 < rx.errors0 || 15 < rx.errors1 || wrongLane (farLane s g) f || rx.late || s.opt.phase = 2 then frameLost u g
    else if s.sec.conf then
      match clearBits true bits.toNat with
      | some b =>
        if staleCounter s.opt.straps[n] f then frameLost { u with sec := { u.sec with fibreAuthFail := s.sec.fibreAuthFail + 1 } } g
        else useFrame (updStrap u n (noteCounter · f)) n (frameOf true b)
      | none => frameLost { u with sec := { u.sec with fibreAuthFail := s.sec.fibreAuthFail + 1 } } g
    else useFrame u n f := by
  have hfar := farLane_counted s g rx
  rw [receiveFrame, if_neg (not_not.mpr hn), ← hfar]
  rfl

theorem receiveFrame_lost (hn : rxNet s g = some n) (h : 15 < rx.errors0 ∨ 15 < rx.errors1 ∨ rx.late = true ∨ s.opt.phase = 2 ∨
    ∃ x, farLane s g = some x ∧ x ≠ (frameOf s.sec.conf bits.toNat).lid.toNat) :
    receiveFrame s n g bits rx = frameLost (symbolsCounted s g rx) g := by
  rw [receiveFrame_eq hn]
  refine if_pos ?_
  simp only [Bool.or_eq_true, decide_eq_true_eq]
  rcases h with h | h | h | h | ⟨x, hx, hne⟩
  · exact .inl (.inl (.inl (.inl h)))
  · exact .inl (.inl (.inl (.inr h)))
  · exact .inl (.inr h)
  · exact .inr h
  · refine .inl (.inl (.inr ?_))
    rw [hx]
    exact decide_eq_true hne

/-- A frame that decodes, comes in time and names the lane expected is not lost. -/
theorem not_lost (h0 : rx.errors0 ≤ 15) (h1 : rx.errors1 ≤ 15) (hlate : rx.late = false) (hphase : s.opt.phase ≠ 2)
    (hfar : ∀ x, farLane s g = some x → x = (frameOf s.sec.conf bits.toNat).lid.toNat) :
    ¬ (15 < rx.errors0 || 15 < rx.errors1 || wrongLane (farLane s g) (frameOf s.sec.conf bits.toNat) || rx.late || s.opt.phase = 2) = true := by
  have hright : wrongLane (farLane s g) (frameOf s.sec.conf bits.toNat) = false := by
    cases hx : farLane s g with
    | none => rfl
    | some x => exact decide_eq_false (not_not.mpr (hfar x hx))
  rw [decide_eq_false (Nat.not_lt.mpr h0), decide_eq_false (Nat.not_lt.mpr h1), hright, hlate, decide_eq_false hphase]
  exact Bool.false_ne_true

/-- In confidential mode a frame whose tag or counter fails is lost, and counted as a failed authentication (R385). -/
theorem receiveFrame_forged (hn : rxNet s g = some n)
    (hok : ¬ (15 < rx.errors0 || 15 < rx.errors1 || wrongLane (farLane s g) (frameOf s.sec.conf bits.toNat) || rx.late || s.opt.phase = 2) = true)
    (hconf : s.sec.conf = true) (hbad : clearBits true bits.toNat = none ∨ staleCounter s.opt.straps[n] (frameOf s.sec.conf bits.toNat) = true) :
    receiveFrame s n g bits rx =
      frameLost { symbolsCounted s g rx with sec := { s.sec with fibreAuthFail := s.sec.fibreAuthFail + 1 } } g := by
  rw [receiveFrame_eq hn]
  refine (if_neg hok).trans ((if_pos hconf).trans ?_)
  rcases hbad with h | h
  · rw [h]
    rfl
  · split
    · exact if_pos h
    · rfl

theorem receiveFrame_plain (hn : rxNet s g = some n)
    (hok : ¬ (15 < rx.errors0 || 15 < rx.errors1 || wrongLane (farLane s g) (frameOf s.sec.conf bits.toNat) || rx.late || s.opt.phase = 2) = true)
    (hconf : s.sec.conf = false) : receiveFrame s n g bits rx = useFrame (symbolsCounted s g rx) n (frameOf s.sec.conf bits.toNat) := by
  rw [receiveFrame_eq hn]
  exact (if_neg hok).trans (if_neg (by rw [hconf]; exact Bool.false_ne_true))

theorem receiveFrame_sealed {b : Nat} (hn : rxNet s g = some n)
    (hok : ¬ (15 < rx.errors0 || 15 < rx.errors1 || wrongLane (farLane s g) (frameOf s.sec.conf bits.toNat) || rx.late || s.opt.phase = 2) = true)
    (hconf : s.sec.conf = true) (hb : clearBits true bits.toNat = some b)
    (hfresh : staleCounter s.opt.straps[n] (frameOf s.sec.conf bits.toNat) = false) :
    receiveFrame s n g bits rx =
      useFrame (updStrap (symbolsCounted s g rx) n (noteCounter · (frameOf s.sec.conf bits.toNat))) n (frameOf true b) := by
  rw [receiveFrame_eq hn]
  refine (if_neg hok).trans ((if_pos hconf).trans ?_)
  rw [hb]
  exact if_neg (by rw [hfresh]; exact Bool.false_ne_true)

end

/-! ## A frame that has decoded is used (R258, R260) -/

section
variable {s : State} {n : PortId} {f : Frame}

theorem updStrap_at (s : State) (n : PortId) (h : Strap → Strap) : (updStrap s n h).opt.straps[n] = h s.opt.straps[n] := vmod_same _ _ _

theorem heard_audible (h : (s.fab.ports[n]).silent = false) : heard s n.val = s := by
  rw [heard, dif_pos n.isLt]
  exact if_neg (by rw [h]; exact Bool.false_ne_true)

/-- The strap once a frame's acknowledgement is used, before the frame itself. -/
def acked (s : State) (n : PortId) (f : Frame) : State := updStrap s n fun q => { q with kept := q.kept.filter fun x => seqAfter x.2.seq f.ack }

theorem useFrame_eq (hloud : (s.fab.ports[n]).silent = false) (hn : f.nack = false) (ht : f.svcType ≠ 4) : useFrame s n f =
    let q := s.opt.straps[n]
    let u := if seqAfter f.seq q.rxSeq && !q.buffer.any (·.seq == f.seq) then updStrap (acked s n f) n fun q => { q with buffer := q.buffer ++ [f] }
      else acked s n f
    updStrap (deliverNext (q.buffer.length + 1 + q.markers) u n) n fun q => { q with gap := !q.buffer.isEmpty } := by
  have hack : acknowledge (heard s n.val) n f.ack f.nack = acked s n f := by
    rw [heard_audible hloud, acknowledge, hn, if_neg Bool.false_ne_true, acked]
  rw [useFrame, hack, if_neg ht]
  simp only [acked, updStrap_at]

/-- Nothing is delivered where no frame follows in sequence and no marker was passed over. -/
theorem deliverNext_none {k : Nat} (hb : ∀ b ∈ (s.opt.straps[n]).buffer, b.seq ≠ (s.opt.straps[n]).rxSeq + 1) (hd : (s.opt.straps[n]).doneAt = none) :
    deliverNext k s n = s := by
  cases k with
  | zero => rfl
  | succ k =>
    have hnone : (s.opt.straps[n]).buffer.find? (fun f => f.seq == (s.opt.straps[n]).rxSeq + 1) = none := by
      rw [List.find?_eq_none]
      exact fun b hm => by simpa using hb b hm
    have hgap : markerGap s.opt.straps[n] = false := by rw [markerGap, hd]
    simp only [deliverNext, hnone, hgap, Bool.false_eq_true, if_false]

theorem deliverNext_some {k : Nat} (h : (s.opt.straps[n]).buffer.find? (fun f => f.seq == (s.opt.straps[n]).rxSeq + 1) = some f) :
    deliverNext (k + 1) s n = deliverNext k (deliver (updStrap s n fun q => { q with buffer := q.buffer.filter (· ≠ f) }) n f) n := by
  simp only [deliverNext, h]

end

/-! ## Where a frame stands in the sequence (R260) -/

section
variable {s : State} {n : PortId} {f : Frame}

/-- What a strap needs for a frame to be used plainly: the port is heard, the frame asks for no resending and is no Done, no Done is awaited, and
nothing in the reorder buffer follows. -/
structure Plain (s : State) (n : PortId) (f : Frame) : Prop where
  loud : (s.fab.ports[n]).silent = false
  nack : f.nack = false
  service : f.svcType ≠ 4
  done : (s.opt.straps[n]).doneAt = none
  buffer : ∀ b ∈ (s.opt.straps[n]).buffer, b.seq ≠ f.seq ∧ b.seq ≠ f.seq + 1 ∧ b.seq ≠ (s.opt.straps[n]).rxSeq + 1

theorem Plain.unheld (h : Plain s n f) : (s.opt.straps[n]).buffer.any (·.seq == f.seq) = false := by
  rw [List.any_eq_false]
  exact fun b hb => by simpa using (h.buffer b hb).1

/-- The state in which a frame waits in the reorder buffer. -/
def buffered (s : State) (n : PortId) (f : Frame) : State := updStrap (acked s n f) n fun q => { q with buffer := q.buffer ++ [f] }

theorem acked_at (s : State) (n : PortId) (f : Frame) : (acked s n f).opt.straps[n] =
    { s.opt.straps[n] with kept := (s.opt.straps[n]).kept.filter fun x => seqAfter x.2.seq f.ack } := updStrap_at _ _ _

theorem buffered_at (s : State) (n : PortId) (f : Frame) : (buffered s n f).opt.straps[n] =
    { s.opt.straps[n] with
      kept := (s.opt.straps[n]).kept.filter fun x => seqAfter x.2.seq f.ack, buffer := (s.opt.straps[n]).buffer ++ [f] } := by
  rw [buffered, updStrap_at, acked_at]

/-- A frame seen before changes nothing of the sequence. -/
theorem useFrame_behind (h : Plain s n f) (ha : seqAfter f.seq (s.opt.straps[n]).rxSeq = false) :
    useFrame s n f = updStrap (acked s n f) n fun q => { q with gap := !q.buffer.isEmpty } := by
  rw [useFrame_eq h.loud h.nack h.service]
  simp only [ha, Bool.false_and, Bool.false_eq_true, if_false]
  rw [deliverNext_none (by rw [acked_at]; exact fun b hb => (h.buffer b hb).2.2) (by rw [acked_at]; exact h.done)]

/-- A frame ahead of its turn waits in the reorder buffer. -/
theorem useFrame_ahead (h : Plain s n f) (hne : f.seq ≠ (s.opt.straps[n]).rxSeq + 1) (ha : seqAfter f.seq (s.opt.straps[n]).rxSeq = true) :
    useFrame s n f = updStrap (buffered s n f) n fun q => { q with gap := !q.buffer.isEmpty } := by
  rw [useFrame_eq h.loud h.nack h.service]
  simp only [ha, h.unheld, Bool.not_false, Bool.and_self, if_true]
  rw [← buffered, deliverNext_none ?_ (by rw [buffered_at]; exact h.done)]
  rw [buffered_at]
  intro b hb
  rcases List.mem_append.mp hb with hb | hb
  · exact (h.buffer b hb).2.2
  · rw [List.mem_singleton.mp hb]
    exact hne

theorem seqAfter_next (r : BitVec 24) : seqAfter (r + 1) r = true := by
  have hne : r + 1 ≠ r := by bv_omega
  have hone : (r + 1 - r).toNat = 1 := by
    rw [add_sub_cancel_left]
    rfl
  rw [seqAfter, hone, decide_eq_true hne]
  rfl

theorem deliver_at (s : State) (n : PortId) (f : Frame) : (deliver s n f).opt.straps[n] =
    { s.opt.straps[n] with rxSeq := f.seq, doneAt := if (s.opt.straps[n]).doneAt = some f.seq then none else (s.opt.straps[n]).doneAt } := by
  obtain ⟨P, e⟩ := updPort_frame s n.val fun q =>
    f.flits.foldl takeFlit { q with credits := f.credits.foldl (fun c x => vmod c x.1 (· + x.2.toNat)) q.credits }
  rw [deliver, e]
  split <;> exact updStrap_at { s with fab := { s.fab with ports := P } } n _

theorem deliver_port (s : State) (n : PortId) (f : Frame) : (deliver s n f).fab.ports[n] =
    f.flits.foldl takeFlit { s.fab.ports[n] with credits := f.credits.foldl (fun c x => vmod c x.1 (· + x.2.toNat)) (s.fab.ports[n]).credits } := by
  rw [deliver]
  split <;> exact updPort_same s n _

/-- The state in which a frame in its turn has been taken from the reorder buffer and delivered. -/
def delivered (s : State) (n : PortId) (f : Frame) : State :=
  deliver (updStrap (buffered s n f) n fun q => { q with buffer := q.buffer.filter (· ≠ f) }) n f

theorem delivered_at (h : Plain s n f) : (delivered s n f).opt.straps[n] = { s.opt.straps[n] with
    kept := (s.opt.straps[n]).kept.filter fun x => seqAfter x.2.seq f.ack, rxSeq := f.seq } := by
  have hbuffer : ((s.opt.straps[n]).buffer ++ [f]).filter (· ≠ f) = (s.opt.straps[n]).buffer := by
    rw [List.filter_append, List.filter_eq_self.mpr]
    · simp
    · exact fun b hb => decide_eq_true fun e => (h.buffer b hb).1 (by rw [e])
  have hdone : (if (s.opt.straps[n]).doneAt = some f.seq then none else (s.opt.straps[n]).doneAt) = (s.opt.straps[n]).doneAt := by
    rw [h.done]
    rfl
  rw [delivered, deliver_at, updStrap_at, buffered_at]
  dsimp only
  rw [hbuffer, hdone]

/-- A frame in its turn is delivered, and nothing after it. -/
theorem useFrame_next (h : Plain s n f) (hseq : f.seq = (s.opt.straps[n]).rxSeq + 1) :
    useFrame s n f = updStrap (delivered s n f) n fun q => { q with gap := !q.buffer.isEmpty } := by
  have ha : seqAfter f.seq (s.opt.straps[n]).rxSeq = true := by rw [hseq, seqAfter_next]
  have hfirst : ((buffered s n f).opt.straps[n]).buffer.find? (fun b => b.seq == ((buffered s n f).opt.straps[n]).rxSeq + 1) = some f := by
    rw [buffered_at]
    dsimp only
    rw [List.find?_append, List.find?_eq_none.mpr fun b hb => by simpa using (h.buffer b hb).2.2]
    simp [hseq]
  have hfuel : (s.opt.straps[n]).buffer.length + 1 + (s.opt.straps[n]).markers =
      (s.opt.straps[n]).buffer.length + (s.opt.straps[n]).markers + 1 := by omega
  rw [useFrame_eq h.loud h.nack h.service]
  simp only [ha, h.unheld, Bool.not_false, Bool.and_self, if_true]
  rw [← buffered, hfuel, deliverNext_some hfirst, ← delivered, deliverNext_none]
  · rw [delivered_at h]
    exact fun b hb => (h.buffer b hb).2.1
  · rw [delivered_at h]
    exact h.done

end

/-! ## What a frame used leaves -/

section
variable {s : State} {n : PortId} {f : Frame}

/-- What a strap and its port hold after a frame, by its place in the sequence. -/
def UsedFrame (q : Strap) (a : Fabric) (n : PortId) (f : Frame) (t : State) : Prop :=
  (t.opt.straps[n]).kept = q.kept.filter (fun x => seqAfter x.2.seq f.ack) ∧
    (f.seq = q.rxSeq + 1 → (t.opt.straps[n]).rxSeq = f.seq ∧ t.fab.ports[n] = f.flits.foldl takeFlit
      { a.ports[n] with credits := f.credits.foldl (fun c x => vmod c x.1 (· + x.2.toNat)) (a.ports[n]).credits }) ∧
    (f.seq ≠ q.rxSeq + 1 → seqAfter f.seq q.rxSeq = true → (t.opt.straps[n]).rxSeq = q.rxSeq ∧
      (t.opt.straps[n]).buffer = q.buffer ++ [f] ∧ (t.opt.straps[n]).gap = true ∧ t.fab = a) ∧
    (f.seq ≠ q.rxSeq + 1 → seqAfter f.seq q.rxSeq = false → (t.opt.straps[n]).rxSeq = q.rxSeq ∧
      (t.opt.straps[n]).buffer = q.buffer ∧ t.fab = a)

theorem useFrame_does (h : Plain s n f) : UsedFrame s.opt.straps[n] s.fab n f (useFrame s n f) := by
  by_cases hseq : f.seq = (s.opt.straps[n]).rxSeq + 1
  · have hport : (useFrame s n f).fab.ports[n] = f.flits.foldl takeFlit
        { s.fab.ports[n] with credits := f.credits.foldl (fun c x => vmod c x.1 (· + x.2.toNat)) (s.fab.ports[n]).credits } := by
      rw [useFrame_next h hseq]
      exact deliver_port _ n f
    have hat := congrArg (fun t : State => t.opt.straps[n]) (useFrame_next h hseq)
    simp only [updStrap_at, delivered_at h] at hat
    refine ⟨by rw [hat], fun _ => ⟨by rw [hat], hport⟩, fun hne => absurd hseq hne, fun hne => absurd hseq hne⟩
  · cases ha : seqAfter f.seq (s.opt.straps[n]).rxSeq
    · have hat := congrArg (fun t : State => t.opt.straps[n]) (useFrame_behind h ha)
      simp only [updStrap_at, acked_at] at hat
      refine ⟨by rw [hat], fun he => absurd he hseq, fun _ ht => absurd ha (by rw [ht]; exact nofun), fun _ _ => ⟨by rw [hat], by rw [hat], ?_⟩⟩
      rw [useFrame_behind h ha]
      rfl
    · have hat := congrArg (fun t : State => t.opt.straps[n]) (useFrame_ahead h hseq ha)
      simp only [updStrap_at, buffered_at] at hat
      refine ⟨by rw [hat], fun he => absurd he hseq, fun _ _ => ⟨by rw [hat], by rw [hat], ?_, ?_⟩, fun _ ht => absurd ha (by rw [ht]; exact nofun)⟩
      · rw [hat]
        simp
      · rw [useFrame_ahead h hseq ha]
        rfl

end

/-! ## What a frame sent leaves -/

section
variable {s : State} {n : PortId} {g : LaneId}

/-- What the machine holds once a strap has sent the flits of `x` on lane `g`. -/
def SentFrame (s : State) (n : PortId) (x : State × List Flit) (g : LaneId) (t : State) : Prop :=
  ∃ f, t.out = s.out ++ [lineOut s n g f] ∧
    f.lid.toNat = g.val ∧ f.seq = (s.opt.straps[n]).txSeq ∧ f.ack = (s.opt.straps[n]).rxSeq ∧ f.nack = (s.opt.straps[n]).gap ∧ f.flits = x.2 ∧
    f.secCounter = (if s.sec.conf then s.opt.lanes[g].txCounter else 0) ∧ f.credits = creditsOf x.1.fab.ports[n] ∧
    (t.opt.straps[n]).txSeq = (s.opt.straps[n]).txSeq + 1 ∧ (t.opt.straps[n]).kept = (s.opt.straps[n]).kept ++ [(g, f)] ∧
    (f.svcType, f.svcPayload) = (s.opt.straps[n]).svcQ.headD (0, 0) ∧ (t.opt.straps[n]).svcQ = (s.opt.straps[n]).svcQ.tail ∧
    t.mem = s.mem ∧ t.cores = s.cores

theorem lid_toNat (g : LaneId) : (BitVec.ofNat 6 g.val).toNat = g.val := by
  rw [BitVec.toNat_ofNat]
  exact Nat.mod_eq_of_lt g.isLt

/-- A state that differs from the one after a frame by ports and free choices alone shows the frame sent. -/
theorem sentFrame_of {x : State × List Flit} {t : State} {F : Fabric} {fr : Nat} {L : Vector Lane 64} (ht : t = { s with
      fab := F, free := fr, out := s.out ++ [lineOut s n g (outFrame s n g x)],
      opt := { s.opt with lanes := L, straps := vmod s.opt.straps n fun q => q.afterSend g (outFrame s n g x) } }) :
    SentFrame s n x g t ∧ t.opt.straps[n] = (s.opt.straps[n]).afterSend g (outFrame s n g x) := by
  have hstrap : t.opt.straps[n] = (s.opt.straps[n]).afterSend g (outFrame s n g x) := by
    rw [ht]
    exact vmod_same _ _ _
  refine ⟨⟨outFrame s n g x, by rw [ht], lid_toNat g, rfl, rfl, rfl, rfl, rfl, rfl, ?_, ?_, rfl, ?_, by rw [ht], by rw [ht]⟩, hstrap⟩
  · rw [hstrap]
    rfl
  · rw [hstrap]
    rfl
  · rw [hstrap]
    rfl

end

/-- Settles O49: an open strap sends on its next lane with room; a paused one only a Done; a frame that comes is lost, or used by its place in the
sequence. -/
theorem framesMove : Obligations.FramesMove := by
  unfold Obligations.FramesMove
  intro s port q sent
  refine ⟨fun g hp hg => ?_, fun hp hg => ?_, fun hp hsvc => ?_, fun g hp hsvc hg hd => ?_, fun t f h => nextFlit_spends h,
    fun g bits rx hn => ⟨fun hlost => ?_, fun h0 h1 hlate hphase hfar => ⟨fun hconf hbad => ?_, fun f hf hloud hnack hsvc hdone hbuf => ?_⟩⟩⟩
  · obtain ⟨F, fr, L, e⟩ := sendFrame_sends hg true
    obtain ⟨F1, fr1, e1⟩ := countStalls_frame (sendFrame s port true) port
    refine ⟨_, congrArg Host.Outcome.next (if_neg (by rw [show (s.opt.straps[port]).paused = false from hp]; exact Bool.false_ne_true)), ?_⟩
    exact (sentFrame_of (F := F1) (fr := fr1) (L := L) (by rw [e1, e]; rfl)).1
  · obtain ⟨F1, fr1, e1⟩ := countStalls_frame (sendFrame s port true) port
    refine ⟨_, congrArg Host.Outcome.next (if_neg (by rw [show (s.opt.straps[port]).paused = false from hp]; exact Bool.false_ne_true)), ?_⟩
    rw [e1, sendFrame_none hg]
  · exact congrArg Host.Outcome.next ((if_pos hp).trans (if_neg hsvc))
  · obtain ⟨F, fr, L, e⟩ := sendFrame_sends hg false
    obtain ⟨hsent, hstrap⟩ := sentFrame_of e
    have hstays : resumeIfDone (sendFrame s port false) port = sendFrame s port false := by
      have hseen : ((sendFrame s port false).opt.straps[port]).doneSeen = false := by
        rw [hstrap]
        exact hd
      rw [resumeIfDone, hseen, Bool.and_false]
      exact if_neg Bool.false_ne_true
    refine ⟨_, congrArg Host.Outcome.next ((if_pos hp).trans ((if_pos hsvc).trans hstays)), hsent, ?_, ?_⟩
    · rw [hstrap, Strap.afterSend, hsvc]
      exact Bool.or_true _
    · rw [hstrap]
      exact hp
  · exact ⟨_, congrArg Host.Outcome.next (receiveFrame_lost hn hlost), rfl, rfl, rfl⟩
  · exact ⟨_, congrArg Host.Outcome.next (receiveFrame_forged hn (not_lost h0 h1 hlate hphase hfar) hconf hbad), rfl, rfl, rfl, rfl⟩
  · have hok := not_lost h0 h1 hlate hphase hfar
    rcases hf with ⟨hconf, rfl⟩ | ⟨hconf, hfresh, b, hb, rfl⟩
    · exact ⟨_, congrArg Host.Outcome.next (receiveFrame_plain hn hok hconf), useFrame_does ⟨hloud, hnack, hsvc, hdone, hbuf⟩⟩
    · have hplain : Plain (updStrap (symbolsCounted s g rx) port (noteCounter · (frameOf s.sec.conf bits.toNat))) port (frameOf true b) :=
        ⟨hloud, hnack, hsvc, by rw [updStrap_at]; exact hdone, by rw [updStrap_at]; exact hbuf⟩
      have huse := useFrame_does hplain
      rw [updStrap_at] at huse
      exact ⟨_, congrArg Host.Outcome.next (receiveFrame_sealed hn hok hconf hb hfresh), huse⟩

end Sys2Proof.Machine
end

section
/-! SUPPORT. Plan switches: markers, the start and the end of a switch, Done, and PLAN packets. -/

namespace Sys2Proof.Machine

/-! ## Markers and the plan in force (R274) -/

section
variable {s : State} {k : Fin 8}

theorem ofNat_eq_iff {b : BitVec 3} {k : Fin 8} : b = BitVec.ofNat 3 k.val ↔ b.toNat = k.val := by
  constructor
  · intro h
    rw [h, BitVec.toNat_ofNat]
    exact Nat.mod_eq_of_lt k.isLt
  · intro h
    apply BitVec.eq_of_toNat_eq
    rw [h, BitVec.toNat_ofNat]
    exact (Nat.mod_eq_of_lt k.isLt).symm

theorem triggerSwitch_triggers (hw : s.opt.switching = false) (hp : s.opt.plan.toNat ≠ k.val) :
    triggerSwitch s (BitVec.ofNat 3 k.val) = { s with opt := { s.opt with switching := true, target := BitVec.ofNat 3 k.val, phase := 0 } } := by
  rw [triggerSwitch, if_neg (mt ofNat_eq_iff.mp hp), hw, if_neg Bool.false_ne_true]

theorem triggerSwitch_same (h : s.opt.plan.toNat = k.val ∨ (s.opt.switching = true ∧ s.opt.target.toNat = k.val)) :
    triggerSwitch s (BitVec.ofNat 3 k.val) = s := by
  rw [triggerSwitch]
  rcases h with h | ⟨hw, ht⟩
  · exact if_pos (ofNat_eq_iff.mpr h)
  · rw [hw, if_pos rfl, if_pos (ofNat_eq_iff.mpr ht), ite_self]

theorem triggerSwitch_waits (hw : s.opt.switching = true) (hp : s.opt.plan.toNat ≠ k.val) (ht : s.opt.target.toNat ≠ k.val) :
    triggerSwitch s (BitVec.ofNat 3 k.val) = { s with opt := { s.opt with markersHeld := s.opt.markersHeld ++ [k] } } := by
  have hk : Fin.ofNat 8 (BitVec.ofNat 3 k.val).toNat = k := by
    apply Fin.ext
    rw [BitVec.toNat_ofNat]
    show k.val % 2 ^ 3 % 8 = k.val
    omega
  rw [triggerSwitch, if_neg (mt ofNat_eq_iff.mp hp)]
  refine (if_pos hw).trans ((if_neg (mt ofNat_eq_iff.mp ht)).trans ?_)
  rw [hk]

end

/-! ## The marker frames (R275) -/

section
variable {s : State}

/-- A marker frame of plan `k`, as it goes out. -/
def IsMarker (k : Fin 8) (x : Out) : Prop := ∃ n g f y, x = .frame n g f y ∧ f.svcType = 3 ∧ f.svcPayload.toNat = k.val ∧ f.flits = []

/-- What sending `m` markers of plan `k` changes: frames out, and the numbers of straps and lanes. -/
structure Marked (k : Fin 8) (m : Nat) (s t : State) : Prop where
  frame : ∃ new Q L, t = { s with out := s.out ++ new, opt := { s.opt with straps := Q, lanes := L } } ∧ new.length = m ∧ ∀ x ∈ new, IsMarker k x
  straps : ∀ n : PortId, ∃ q, t.opt.straps[n] = { s.opt.straps[n] with txSeq := q }
  lanes : ∀ g : LaneId, ∃ c, t.opt.lanes[g] = { s.opt.lanes[g] with txCounter := c }

theorem Marked.refl (k : Fin 8) (s : State) : Marked k 0 s s :=
  ⟨⟨[], _, _, by rw [List.append_nil], rfl, nofun⟩, fun n => ⟨(s.opt.straps[n]).txSeq, rfl⟩, fun g => ⟨(s.opt.lanes[g]).txCounter, rfl⟩⟩

theorem Marked.trans {k : Fin 8} {m m1 : Nat} {s t u : State} (h : Marked k m s t) (h1 : Marked k m1 t u) : Marked k (m + m1) s u := by
  obtain ⟨new, Q, L, e, hlen, hmark⟩ := h.frame
  obtain ⟨new1, Q1, L1, e1, hlen1, hmark1⟩ := h1.frame
  refine ⟨⟨new ++ new1, Q1, L1, ?_, ?_, ?_⟩, fun n => ?_, fun g => ?_⟩
  · rw [e1, e, List.append_assoc]
  · rw [List.length_append, hlen, hlen1]
  · intro x hx
    rcases List.mem_append.mp hx with hx | hx
    · exact hmark x hx
    · exact hmark1 x hx
  · obtain ⟨q, hq⟩ := h.straps n
    obtain ⟨q1, hq1⟩ := h1.straps n
    exact ⟨q1, by rw [hq1, hq]⟩
  · obtain ⟨c, hc⟩ := h.lanes g
    obtain ⟨c1, hc1⟩ := h1.lanes g
    exact ⟨c1, by rw [hc1, hc]⟩

/-- Markers leave the active lanes of every strap as they are. -/
theorem Marked.strapLanes {k : Fin 8} {m : Nat} {s t : State} (h : Marked k m s t) (n : PortId) : strapLanes t n = strapLanes s n := by
  obtain ⟨new, Q, L, e, -, -⟩ := h.frame
  have hnet : ∀ f, netPort t f = netPort s f := fun f => by
    rw [e]
    rfl
  refine List.filter_congr fun g _ => ?_
  obtain ⟨c, hc⟩ := h.lanes g
  rw [txNet, txNet, hnet, hc]

/-- Folding steps that each send their own number of markers sends them all. -/
theorem Marked.foldl {α : Type} {k : Fin 8} (g : State → α → State) (c : α → Nat) (s : State) (hg : ∀ t x m, Marked k m s t → Marked k (c x) t (g t x))
    (l : List α) : Marked k (l.map c).sum s (l.foldl g s) := by
  have hrun : ∀ (l : List α) (t : State) (m : Nat), Marked k m s t → Marked k (m + (l.map c).sum) s (l.foldl g t) := by
    intro l
    induction l with
    | nil => exact fun t m h => h
    | cons x l ih =>
      intro t m h
      have := ih (g t x) (m + c x) (h.trans (hg t x m h))
      rwa [Nat.add_assoc] at this
  have := hrun l s 0 (Marked.refl k s)
  rwa [Nat.zero_add] at this

/-- A frame on the line changes of a lane its counter alone. -/
theorem sayFrame_lane (s : State) (n : PortId) (g : LaneId) (f : Frame) (x : LaneId) :
    ∃ c, (sayFrame s n g f).opt.lanes[x] = { s.opt.lanes[x] with txCounter := c } := by
  have hsay : (sayFrame s n g f).opt.lanes = (spendCounter s g).opt.lanes := by rw [sayFrame]; rfl
  rw [hsay, spendCounter]
  split
  · by_cases hx : x = g
    · subst hx
      exact ⟨_, updLane_at s x _⟩
    · exact ⟨(s.opt.lanes[x]).txCounter, vmod_other _ _ _ _ (Ne.symm hx)⟩
  · exact ⟨(s.opt.lanes[x]).txCounter, rfl⟩

theorem sendMarker_marked (s : State) (n : PortId) (g : LaneId) (k : Fin 8) : Marked k 1 s (sendMarker s n g k) := by
  obtain ⟨L, e⟩ := sayFrame_frame (updStrap s n fun q => { q with txSeq := q.txSeq + 1 }) n g (makeFrame s n g (3, BitVec.ofNat 8 k.val) [] [])
  have hstraps : (sendMarker s n g k).opt.straps = (updStrap s n fun q => { q with txSeq := q.txSeq + 1 }).opt.straps := by
    rw [show sendMarker s n g k = _ from e]
  refine ⟨⟨_, _, _, e, rfl, fun x hx => ?_⟩, fun m => ?_, fun x => ?_⟩
  · rw [List.mem_singleton.mp hx]
    refine ⟨n, g, _, _, rfl, rfl, ?_, rfl⟩
    show (BitVec.ofNat 8 k.val).toNat = k.val
    rw [BitVec.toNat_ofNat]
    omega
  · rw [hstraps]
    by_cases hm : m = n
    · subst hm
      exact ⟨_, updStrap_at s m _⟩
    · exact ⟨(s.opt.straps[m]).txSeq, vmod_other _ _ _ _ (Ne.symm hm)⟩
  · exact sayFrame_lane (updStrap s n fun q => { q with txSeq := q.txSeq + 1 }) n g _ x

/-- Four markers on a lane. -/
theorem laneMarkers_marked (s : State) (n : PortId) (g : LaneId) (k : Fin 8) :
    Marked k 4 s ((List.range 4).foldl (fun v _ => sendMarker v n g k) s) :=
  Marked.foldl (fun v _ => sendMarker v n g k) (fun _ => 1) s (fun t _ _ _ => sendMarker_marked t n g k) (List.range 4)

/-- Four markers on every active lane of every strap. -/
theorem allMarkers_marked (s : State) (k : Fin 8) : Marked k (4 * ((List.finRange 8).map fun n => (strapLanes s n).length).sum) s
    ((List.finRange 8).foldl (fun t n => (strapLanes t n).foldl (fun u g => (List.range 4).foldl (fun v _ => sendMarker v n g k) u) t) s) := by
  have hstrap : ∀ (t : State) (n : PortId) (m : Nat), Marked k m s t → Marked k (4 * (strapLanes s n).length) t
      ((strapLanes t n).foldl (fun u g => (List.range 4).foldl (fun v _ => sendMarker v n g k) u) t) := by
    intro t n m h
    have := Marked.foldl (fun u g => (List.range 4).foldl (fun v _ => sendMarker v n g k) u) (fun _ => 4) t
      (fun u g _ _ => laneMarkers_marked u n g k) (strapLanes t n)
    rw [List.map_const', List.sum_replicate, smul_eq_mul, Nat.mul_comm, h.strapLanes] at this
    rwa [h.strapLanes]
  have := Marked.foldl _ (fun n => 4 * (strapLanes s n).length) s hstrap (List.finRange 8)
  rwa [List.sum_map_mul_left] at this

end

/-! ## What the end of a switch keeps (R274, R275) -/

section
variable {s : State}

/-- The plan of the straps, the state of a switch, and what a switch leaves to the job and the cinches. -/
def State.switch (s : State) : BitVec 3 × Bool × BitVec 3 × Nat × List (Fin 8) × W64 × Job × Coll :=
  (s.opt.plan, s.opt.switching, s.opt.target, s.opt.phase, s.opt.markersHeld, s.opt.switches, s.job, s.coll)

theorem foldl_switch {α : Type} (g : State → α → State) (hg : ∀ t x, (g t x).switch = t.switch) (l : List α) (s : State) :
    (l.foldl g s).switch = s.switch := by
  induction l generalizing s with
  | nil => rfl
  | cons x l ih => rw [List.foldl_cons, ih, hg]

theorem recount_switch (s : State) : (recount s).switch = s.switch := by
  obtain ⟨f, e⟩ := recount_frame s
  rw [e]
  rfl

theorem rejoin_switch (s : State) (g : LaneId) : (rejoin s g).switch = s.switch := by
  have htx : (rejoinTx s g).switch = s.switch := by
    unfold rejoinTx
    dsimp only
    split
    · exact recount_switch _
    · rfl
  have hrx : (rejoinRx (rejoinTx s g) g).switch = (rejoinTx s g).switch := by
    generalize rejoinTx s g = t
    unfold rejoinRx
    dsimp only
    split
    · exact recount_switch _
    · rfl
  exact hrx.trans htx

theorem startSweep_switch (s : State) (g : LaneId) (tx : Bool) : (startSweep s g tx).switch = s.switch := by
  obtain ⟨x, e, -⟩ := startSweep_does s g tx
  rw [e]
  rfl

theorem reacquired_switch (failed : List LaneId) (s : State) (g : LaneId) : (reacquired failed s g).switch = s.switch := by
  unfold reacquired
  dsimp only
  split
  · exact startSweep_switch _ g false
  · exact rejoin_switch s g

theorem sendFrame_switch (s : State) (n : PortId) (open_ : Bool) : (sendFrame s n open_).switch = s.switch := by
  cases hg : nextLane s n with
  | none => rw [sendFrame_none hg]
  | some g =>
    obtain ⟨F, fr, L, e⟩ := sendFrame_sends hg open_
    rw [e]
    rfl

/-- Resending sends kept frames again and counts them. -/
theorem resendKept_frame (s : State) (n : PortId) : ∃ o L r, resendKept s n =
    { s with out := o, opt := { s.opt with lanes := L, framesResent := r } } := by
  unfold resendKept
  dsimp only
  generalize strapLanes s n = lanes
  generalize (s.opt.straps[n]).kept = l
  induction l generalizing s with
  | nil => exact ⟨s.out, s.opt.lanes, s.opt.framesResent, rfl⟩
  | cons x l ih =>
    rw [List.foldl_cons]
    split
    · exact ih s
    · next g _ =>
      obtain ⟨L, e⟩ := sayFrame_frame s n g { x.2 with
        lid := BitVec.ofNat 6 g.val, ack := s.opt.straps[n].rxSeq, nack := s.opt.straps[n].gap,
        secCounter := if s.sec.conf then s.opt.lanes[g].txCounter else 0 }
      rw [e]
      obtain ⟨o, L1, r, e1⟩ := ih _
      exact ⟨o, L1, r, e1⟩

theorem resumeIfDone_switch (s : State) (n : PortId) : (resumeIfDone s n).switch = s.switch := by
  unfold resumeIfDone
  dsimp only
  split
  · obtain ⟨o, L, r, e⟩ := resendKept_frame (updStrap s n fun q => { q with paused := false, doneSent := false, doneSeen := false }) n
    rw [e]
    rfl
  · rfl

theorem sendDone_switch (s : State) (n : PortId) (k : BitVec 3) : (sendDone s n k).switch = s.switch := sendFrame_switch _ n false

end

/-! ## The end of a switch (R274, R275) -/

section
variable {s : State}

/-- Markers of other plans trigger a switch, or wait for the end of the one that runs. -/
theorem triggers_frame (l : List (Fin 8)) (s : State) (h : s.opt.phase = 0) : ∃ sw tg M,
    l.foldl (fun t m => triggerSwitch t (BitVec.ofNat 3 m.val)) s =
      { s with opt := { s.opt with switching := sw, target := tg, markersHeld := M } } ∧
    (s.opt.switching = true → sw = true ∧ tg = s.opt.target) := by
  induction l generalizing s with
  | nil => exact ⟨_, _, _, rfl, fun hw => ⟨hw, rfl⟩⟩
  | cons m l ih =>
    rw [List.foldl_cons]
    by_cases hsame : s.opt.plan.toNat = m.val ∨ (s.opt.switching = true ∧ s.opt.target.toNat = m.val)
    · rw [triggerSwitch_same hsame]
      exact ih s h
    · have hp : s.opt.plan.toNat ≠ m.val := fun e => hsame (.inl e)
      cases hw : s.opt.switching
      · rw [triggerSwitch_triggers hw hp]
        obtain ⟨sw, tg, M, e, -⟩ := ih { s with opt := { s.opt with switching := true, target := BitVec.ofNat 3 m.val, phase := 0 } } rfl
        refine ⟨sw, tg, M, ?_, nofun⟩
        rw [e, ← h]
      · rw [triggerSwitch_waits hw hp fun e => hsame (.inr ⟨hw, e⟩)]
        obtain ⟨sw, tg, M, e, hkeep⟩ := ih { s with opt := { s.opt with markersHeld := s.opt.markersHeld ++ [m] } } h
        exact ⟨sw, tg, M, e, fun _ => hkeep hw⟩

/-- The markers that waited: with none no switch runs, and the first of another plan than the one in force starts the next switch. -/
theorem markersGo_does (h : s.opt.phase = 0) (hw : s.opt.switching = false) : ∃ sw tg M,
    markersGo s = { s with opt := { s.opt with switching := sw, target := tg, markersHeld := M } } ∧
    (s.opt.markersHeld = [] → sw = false) ∧
    ∀ m l, s.opt.markersHeld = m :: l → m.val ≠ s.opt.plan.toNat → sw = true ∧ tg.toNat = m.val := by
  obtain ⟨sw, tg, M, e, -⟩ := triggers_frame s.opt.markersHeld { s with opt := { s.opt with markersHeld := [] } } h
  refine ⟨sw, tg, M, e, fun hnone => ?_, fun m l hl hm => ?_⟩
  · rw [hnone] at e
    exact (congrArg (fun t : State => t.opt.switching) e).symm.trans hw
  · obtain ⟨sw1, tg1, M1, e1, hkeep⟩ := triggers_frame l
      { s with opt := { s.opt with markersHeld := [], switching := true, target := BitVec.ofNat 3 m.val, phase := 0 } } rfl
    obtain ⟨rfl, rfl⟩ := hkeep rfl
    rw [hl, List.foldl_cons, triggerSwitch_triggers (s := { s with opt := { s.opt with markersHeld := [] } }) hw (Ne.symm hm)] at e
    have e2 := e1.symm.trans e
    refine ⟨(congrArg (fun t : State => t.opt.switching) e2).symm, ?_⟩
    have htg : BitVec.ofNat 3 m.val = tg := congrArg (fun t : State => t.opt.target) e2
    exact ofNat_eq_iff.mp htg.symm

theorem cinchesGo_none (h : ∀ n ∈ s.coll.cinches, n.upSent = true) : cinchesGo s = s := by
  have hfold : ∀ l : List Cinch, (∀ n ∈ l, n.upSent = true) →
      l.foldl (fun t n => if n.upSent then t else finishCinch (cinchFlow t n.comm)) s = s := by
    intro l
    induction l with
    | nil => exact fun _ => rfl
    | cons n l ih =>
      intro hl
      rw [List.foldl_cons, if_pos (hl n (List.mem_cons_self ..))]
      exact ih fun x hx => hl x (List.mem_cons_of_mem _ hx)
  exact hfold _ h

theorem downsGo_none (h : s.coll.heldDowns = []) : (downsGo s).opt = s.opt ∧ (downsGo s).job = s.job := by
  rw [downsGo, h]
  exact ⟨rfl, rfl⟩

theorem beginStep_opt (s : State) : (beginStep s).opt = s.opt ∧ (beginStep s).job.switchThenRun = s.job.switchThenRun := by
  unfold beginStep
  extract_lets s1 s2
  have h : HbmStep s s1 := by
    unfold s1
    split
    · exact storeHbm_hbm _ _ _ _
    · exact HbmStep.refl s
  have h2 : HbmStep s s2 := h.trans (HbmStep.foldl _ clearGroup_hbm _ s1)
  clear_value s2
  obtain ⟨⟨_, _, _, _, _, _, _, _, _, _, _, _, _, _, _, e⟩, -⟩ := h2
  subst e
  exact ⟨rfl, rfl⟩

/-- The state in which the lanes have been reacquired and the new plan is current, before any Done. -/
def planTaken (s : State) (failed : List LaneId) : State :=
  let t := recount ((List.finRange 64).foldl (reacquired failed) s)
  enforceShares { t with opt := { t.opt with plan := s.opt.target, switching := false, phase := 0, switches := bump t.opt.switches } }

theorem planTaken_switch (s : State) (failed : List LaneId) : (planTaken s failed).switch =
    (s.opt.target, false, s.opt.target, 0, s.opt.markersHeld, s.opt.switches + 1, s.job, s.coll) := by
  have h : (recount ((List.finRange 64).foldl (reacquired failed) s)).switch = s.switch :=
    (recount_switch _).trans (foldl_switch _ (reacquired_switch failed) _ s)
  unfold planTaken
  generalize recount ((List.finRange 64).foldl (reacquired failed) s) = t at h
  simp only [State.switch, Prod.mk.injEq] at h
  obtain ⟨-, -, ht, -, hm, hs, hj, hc⟩ := h
  simp only [State.switch, enforceShares, bump, ht, hm, hs, hj, hc]

/-- The state in which every strap has sent its Done. -/
def donesSent (s : State) (failed : List LaneId) : State :=
  (List.finRange 8).foldl (fun t n => resumeIfDone (sendDone t n s.opt.target) n) (planTaken s failed)

theorem donesSent_switch (s : State) (failed : List LaneId) : (donesSent s failed).switch =
    (s.opt.target, false, s.opt.target, 0, s.opt.markersHeld, s.opt.switches + 1, s.job, s.coll) := by
  rw [← planTaken_switch s failed]
  exact foldl_switch _ (fun t n => (resumeIfDone_switch _ n).trans (sendDone_switch t n _)) _ _

theorem switchEnds_eq (failed : List LaneId) (hw : s.opt.switching = true) (hp : s.opt.phase = 2) : switchEnds s failed =
    let t := downsGo (cinchesGo (markersGo (donesSent s failed)))
    if t.job.switchThenRun then
      let u := { t with job := { t.job with switchThenRun := false } }
      if u.hlk.state == .loaded && u.job.startRing.isSome then beginStep u else u
    else t := by
  have hgo : (s.opt.switching && decide (s.opt.phase = 2)) = true := by
    rw [hw, decide_eq_true hp]
    rfl
  unfold switchEnds donesSent planTaken
  rw [if_pos hgo]

end

/-! ## The start of a switch, its buckles, Done and PLAN packets (R257, R271, R273, R275) -/

section
variable {s : State} {k : Fin 8}

/-- The state in which every strap is paused, no marker sent yet. -/
def switchPaused (s : State) : State :=
  { s with opt := { s.opt with phase := 1, straps := s.opt.straps.mapFinIdx fun i q h => q.pause (strapReceives s ⟨i, h⟩).length } }

theorem beginSwitch_marked (hw : s.opt.switching = true) (ht : s.opt.target.toNat = k.val) (hp : s.opt.phase = 0) :
    Marked k (4 * ((List.finRange 8).map fun n => (strapLanes s n).length).sum) (switchPaused s) (beginSwitch s k) := by
  have hgo : (s.opt.switching && decide (s.opt.target.toNat = k.val) && decide (s.opt.phase = 0)) = true := by
    rw [hw, decide_eq_true ht, decide_eq_true hp]
    rfl
  rw [beginSwitch, if_pos hgo]
  exact allMarkers_marked (switchPaused s) k

theorem switchPaused_strap (s : State) (n : PortId) : (switchPaused s).opt.straps[n] = (s.opt.straps[n]).pause (strapReceives s n).length := by
  simp [switchPaused]

theorem reprogram_lanes (hw : s.opt.switching = true) (hp : s.opt.phase = 1) : ∃ L, reprogram s = { s with opt := { s.opt with phase := 2, lanes := L } } ∧
    ∀ g : LaneId, L[g] = { s.opt.lanes[g] with
      txPort := (planEntry s s.opt.target g).1, rxPort := (planEntry s s.opt.target g).2, txActive := false, rxActive := false } := by
  have hgo : (s.opt.switching && decide (s.opt.phase = 1)) = true := by
    rw [hw, decide_eq_true hp]
    rfl
  rw [reprogram, if_pos hgo]
  exact ⟨_, rfl, fun g => by simp only [Fin.getElem_fin, Vector.getElem_mapFinIdx]⟩

/-- A strap that has seen its Done before it has sent its own goes on waiting. -/
theorem resumeIfDone_waits {n : PortId} (h : (s.opt.straps[n]).doneSent = false) : resumeIfDone s n = s := by
  rw [resumeIfDone, h, Bool.and_false, Bool.false_and]
  exact if_neg Bool.false_ne_true

theorem resumeIfDone_resumes {n : PortId} (hp : (s.opt.straps[n]).paused = true) (hs : (s.opt.straps[n]).doneSent = true)
    (hd : (s.opt.straps[n]).doneSeen = true) : ∃ o L r, resumeIfDone s n =
      { s with out := o, opt := { s.opt with
        straps := vmod s.opt.straps n fun q => { q with paused := false, doneSent := false, doneSeen := false }, lanes := L, framesResent := r } } := by
  have hgo : ((s.opt.straps[n]).paused && (s.opt.straps[n]).doneSent && (s.opt.straps[n]).doneSeen) = true := by rw [hp, hs, hd]; rfl
  obtain ⟨o, L, r, e⟩ := resendKept_frame (updStrap s n fun q => { q with paused := false, doneSent := false, doneSeen := false }) n
  exact ⟨o, L, r, (if_pos hgo).trans e⟩

/-- The state in which a strap has seen Done. -/
def doneSeenAt (s : State) (n : PortId) : State := updStrap s n fun q => { q with doneSeen := true }

theorem execSwitchDone_seen {n : PortId} (hp : (s.opt.straps[n]).paused = true)
    (hk : (if s.opt.switching then s.opt.target else s.opt.plan).toNat = k.val) :
    exec (.switchDone n k) s = .next (resumeIfDone (doneSeenAt s n) n) := by
  refine congrArg Host.Outcome.next (if_pos ?_)
  rw [decide_eq_true hk, hp]
  rfl

end

section
variable {s : State} {port : PortId} {p : Packet}

/-- Each difference of plans is reported and counted (R273). -/
theorem reportPlans_eq (port : PortId) : ∀ (t : State) (l : List (Fin 8 × Fin 16 × W16 × W16)),
    l.foldl (fun t x => { t.say (.planMismatch port x.1 x.2.1 x.2.2.1 x.2.2.2) with
      opt := { t.opt with planMismatch := bump t.opt.planMismatch } }) t =
    { t with out := t.out ++ l.map (fun x => .planMismatch port x.1 x.2.1 x.2.2.1 x.2.2.2),
             opt := { t.opt with planMismatch := t.opt.planMismatch + BitVec.ofNat 64 l.length } } := by
  intro t l
  induction l generalizing t with
  | nil =>
    have hzero : t.opt.planMismatch + BitVec.ofNat 64 0 = t.opt.planMismatch := BitVec.add_zero _
    rw [List.length_nil, List.map_nil, List.append_nil, hzero]
    rfl
  | cons x l ih =>
    have hcount : t.opt.planMismatch + 1 + BitVec.ofNat 64 l.length = t.opt.planMismatch + BitVec.ofNat 64 (x :: l).length := by
      rw [List.length_cons, BitVec.add_assoc]
      congr 1
      apply BitVec.eq_of_toNat_eq
      simp [Nat.add_comm]
    rw [List.foldl_cons, ih, ← hcount]
    simp only [State.say, bump, List.map_cons, List.append_assoc, List.singleton_append]

/-- The state in which a PLAN packet is kept under its port. -/
def planKept (s : State) (port : PortId) (p : Packet) : State :=
  { s with opt := { s.opt with planPkts := s.opt.planPkts.filter (·.1 ≠ port) ++ [(port, p)] } }

theorem planArrives_kept (h : s.hlk.state ≠ .loaded ∨ planDiffs s port p = []) : planArrives s port p = planKept s port p := by
  refine if_neg ?_
  rcases h with h | h
  · rw [beq_false_of_ne h, Bool.false_and]
    exact Bool.false_ne_true
  · rw [h, List.isEmpty_nil, Bool.not_true, Bool.and_false]
    exact Bool.false_ne_true

theorem planArrives_fails (hl : s.hlk.state = .loaded) (hd : planDiffs s port p ≠ []) : planArrives s port p =
    { s with
      opt := { s.opt with
        planPkts := s.opt.planPkts.filter (·.1 ≠ port) ++ [(port, p)],
        planMismatch := s.opt.planMismatch + BitVec.ofNat 64 (planDiffs s port p).length, planFailed := true },
      out := s.out ++ (planDiffs s port p).map (fun x => .planMismatch port x.1 x.2.1 x.2.2.1 x.2.2.2),
      hlk := { s.hlk with state := .ready } } := by
  have hgo : (s.hlk.state == .loaded && !(planDiffs s port p).isEmpty) = true := by
    rw [hl, List.isEmpty_eq_false_iff.mpr hd]
    rfl
  have hreport : reportPlans (planKept s port p) port p = _ := reportPlans_eq port (planKept s port p) (planDiffs s port p)
  refine (if_pos hgo).trans ?_
  rw [← planKept, hreport]
  rfl

end

/-! ## What the end of a switch leaves -/

section
variable {s : State} {failed : List LaneId}

theorem switchEnds_does (hw : s.opt.switching = true) (hp : s.opt.phase = 2) (hup : ∀ n ∈ s.coll.cinches, n.upSent = true)
    (hdown : s.coll.heldDowns = []) :
    (switchEnds s failed).opt.plan = s.opt.target ∧ (switchEnds s failed).opt.phase = 0 ∧
      (switchEnds s failed).opt.switches = s.opt.switches + 1 ∧ (switchEnds s failed).job.switchThenRun = false ∧
      (s.opt.markersHeld = [] → (switchEnds s failed).opt.switching = false) ∧
      ∀ m l, s.opt.markersHeld = m :: l → m.val ≠ s.opt.target.toNat →
        (switchEnds s failed).opt.switching = true ∧ (switchEnds s failed).opt.target.toNat = m.val := by
  have hsw := donesSent_switch s failed
  rw [switchEnds_eq failed hw hp]
  generalize donesSent s failed = d at hsw ⊢
  simp only [State.switch, Prod.mk.injEq] at hsw
  obtain ⟨hplan, hswitching, -, hphase, hheld, hcount, hjob, hcoll⟩ := hsw
  obtain ⟨sw, tg, M, e, hnone, hsome⟩ := markersGo_does hphase hswitching
  have hcinches : cinchesGo (markersGo d) = markersGo d := cinchesGo_none (by rw [e]; show ∀ n ∈ d.coll.cinches, _; rw [hcoll]; exact hup)
  have hdowns := downsGo_none (s := markersGo d) (by rw [e]; show d.coll.heldDowns = []; rw [hcoll]; exact hdown)
  rw [hcinches]
  generalize downsGo (markersGo d) = v at hdowns ⊢
  rw [e] at hdowns
  obtain ⟨hopt, hvjob⟩ := hdowns
  rw [hheld, hplan] at hsome
  rw [hheld] at hnone
  have hend : ∀ t : State, t.opt = v.opt → t.job.switchThenRun = false → t.opt.plan = s.opt.target ∧ t.opt.phase = 0 ∧
      t.opt.switches = s.opt.switches + 1 ∧ t.job.switchThenRun = false ∧ (s.opt.markersHeld = [] → t.opt.switching = false) ∧
      ∀ m l, s.opt.markersHeld = m :: l → m.val ≠ s.opt.target.toNat → t.opt.switching = true ∧ t.opt.target.toNat = m.val := by
    intro t hto htj
    rw [hto, hopt]
    exact ⟨hplan, hphase, hcount, htj, hnone, hsome⟩
  dsimp only
  split
  · split
    · exact hend _ (beginStep_opt _).1 ((beginStep_opt _).2)
    · exact hend _ rfl rfl
  · next hrun => exact hend _ rfl (by simpa using hrun)

end

/-- Settles O50: markers trigger a switch or wait for one; a switch pauses the straps and sends its markers, moves the lanes, and ends with the plan
current; Done resumes a strap; a PLAN packet is kept and compared. That differences are reported as an output is the model's choice (log entry 112),
and so is that a PLAN packet is compared on its arrival and kept (log entry 21). -/
theorem plansSwitch : Obligations.PlansSwitch := by
  unfold Obligations.PlansSwitch
  intro s k
  refine ⟨fun hw hp => congrArg Host.Outcome.next (triggerSwitch_triggers hw hp), fun h => congrArg Host.Outcome.next (triggerSwitch_same h),
    fun hw hp ht => congrArg Host.Outcome.next (triggerSwitch_waits hw hp ht), fun hw ht hp => ⟨_, rfl, ?_⟩, fun hw hp => ?_,
    fun failed hw hp hup hdown => ⟨_, rfl, switchEnds_does hw hp hup hdown⟩, fun port hp hk => ⟨fun hs => ?_, fun hs => ?_⟩,
    fun port p hi => ?_, fun port p hi => ?_⟩
  · have hmarked := beginSwitch_marked hw ht hp
    obtain ⟨new, Q, L, e, hlen, hmark⟩ := hmarked.frame
    refine ⟨by rw [e]; rfl, fun n => ?_, ⟨new, by rw [e]; rfl, hlen, hmark⟩, by rw [e]; rfl, by rw [e]; rfl⟩
    obtain ⟨q, hq⟩ := hmarked.straps n
    rw [hq, switchPaused_strap]
    exact ⟨rfl, rfl, rfl, rfl, rfl⟩
  · obtain ⟨L, e, hL⟩ := reprogram_lanes hw hp
    refine ⟨_, congrArg Host.Outcome.next e, rfl, hL⟩
  · rw [execSwitchDone_seen hp hk, resumeIfDone_waits (by rw [doneSeenAt, updStrap_at]; exact hs)]
    rfl
  · obtain ⟨o, L, r, e⟩ := resumeIfDone_resumes (s := doneSeenAt s port) (n := port) (by rw [doneSeenAt, updStrap_at]; exact hp)
      (by rw [doneSeenAt, updStrap_at]; exact hs) (by rw [doneSeenAt, updStrap_at])
    refine ⟨_, (execSwitchDone_seen hp hk).trans (congrArg Host.Outcome.next e), ?_, ?_, rfl, rfl⟩
    · show ((vmod (doneSeenAt s port).opt.straps port _)[port]).paused = false
      rw [vmod_same]
    · show ((vmod (doneSeenAt s port).opt.straps port _)[port]).kept = _
      rw [vmod_same, doneSeenAt, updStrap_at]
  · intro o
    have hrun : ∀ {t : State}, planArrives s port p = t → exec (.plan port p) s = .next t := fun h =>
      congrArg Host.Outcome.next ((accepting_intact _ hi).trans h)
    exact ⟨fun h => hrun (planArrives_kept h), fun hl hd => hrun (planArrives_fails hl hd)⟩
  · refine ⟨_, congrArg Host.Outcome.next (accepting_discard _ hi), ?_⟩
    rw [discardPacket]
    split
    · exact ⟨rfl, rfl⟩
    · exact ⟨rfl, rfl⟩

end Sys2Proof.Machine
end

section
/-! SUPPORT. Discovery (R280–R292): what its messages, its progress and its end change, and what DISCOVER leaves. -/

namespace Sys2Proof.Machine

/-! ## What sending the messages of discovery changes (R282, R283) -/

section
variable {s t u : State}

theorem updLink_at (s : State) (p : Fin 16) (f : DiscLink → DiscLink) : (updLink s p f).disc.links[p] = f s.disc.links[p] := vmod_same _ _ _

theorem updLink_other (s : State) {p q : Fin 16} (f : DiscLink → DiscLink) (h : q ≠ p) : (updLink s p f).disc.links[q] = s.disc.links[q] :=
  vmod_other _ _ _ _ h.symm

/-- A link that has only sent: what was received on it is as before. -/
def DiscLink.OnlySent (a b : DiscLink) : Prop :=
  ∃ q c u d, b = { a with tseqs := q, coordSent := c, upSent := u, downSent := d }

theorem DiscLink.OnlySent.refl (a : DiscLink) : a.OnlySent a := ⟨a.tseqs, a.coordSent, a.upSent, a.downSent, rfl⟩

theorem DiscLink.OnlySent.trans {a b c : DiscLink} (h : a.OnlySent b) (h1 : b.OnlySent c) : a.OnlySent c := by
  obtain ⟨q, x, y, z, rfl⟩ := h
  obtain ⟨q1, x1, y1, z1, rfl⟩ := h1
  exact ⟨q1, x1, y1, z1, rfl⟩

/-- Discovery that has gone on: links have sent at most, coordinates stand, flags may have been added. -/
structure Progressed (s t : State) : Prop where
  links : ∀ p : Fin 16, (s.disc.links[p]).OnlySent (t.disc.links[p])
  coords : t.disc.coords = s.disc.coords
  flags : ∃ x, t.disc.flags = s.disc.flags ||| x

theorem Progressed.refl (s : State) : Progressed s s := ⟨fun _ => DiscLink.OnlySent.refl _, rfl, 0, BitVec.or_zero.symm⟩

theorem Progressed.trans (h : Progressed s t) (h1 : Progressed t u) : Progressed s u := by
  obtain ⟨x, hx⟩ := h.flags
  obtain ⟨y, hy⟩ := h1.flags
  exact ⟨fun p => (h.links p).trans (h1.links p), h1.coords.trans h.coords, x ||| y, by rw [hy, hx, BitVec.or_assoc]⟩

theorem Progressed.foldl {α : Type} (g : State → α → State) (hg : ∀ t x, Progressed t (g t x)) (l : List α) (s : State) :
    Progressed s (l.foldl g s) := by
  induction l generalizing s with
  | nil => exact Progressed.refl s
  | cons x l ih => exact (hg s x).trans (ih _)

/-- An update of a link that only sends. -/
theorem updLink_progressed (s : State) (p : Fin 16) (f : DiscLink → DiscLink) (h : ∀ l : DiscLink, l.OnlySent (f l)) : Progressed s (updLink s p f) := by
  refine ⟨fun q => ?_, rfl, 0, BitVec.or_zero.symm⟩
  by_cases hq : q = p
  · subst hq
    rw [updLink_at]
    exact h _
  · rw [updLink_other s f hq]
    exact DiscLink.OnlySent.refl _

theorem sendMsg_progressed (s : State) (p : Fin 16) (m : DiscMsg) : Progressed s (sendMsg s p m) := by
  have h := updLink_progressed (s.say (.disc p (discPacket s m (discPayload m)))) p (fun l => { l with tseqs := l.tseqs ++ [(m.kind, m.tseq)] })
    fun l => ⟨l.tseqs ++ [(m.kind, m.tseq)], l.coordSent, l.upSent, l.downSent, rfl⟩
  exact ⟨h.links, h.coords, h.flags⟩

theorem sendOn_progressed (s : State) (d : Decl) (n : Nat) (kind : Fin 4) (g : DiscMsg → DiscMsg) : Progressed s (sendOn s d n kind g) := by
  unfold sendOn
  split
  · exact Progressed.refl s
  · refine (sendMsg_progressed s _ _).trans (updLink_progressed _ _ _ fun l => ?_)
    split
    · exact ⟨l.tseqs, true, l.upSent, l.downSent, rfl⟩
    · exact ⟨l.tseqs, l.coordSent, true, l.downSent, rfl⟩
    · exact ⟨l.tseqs, l.coordSent, l.upSent, true, rfl⟩
    · exact DiscLink.OnlySent.refl l

theorem flagCode_progressed (s : State) (c : Nat) (p : Option (Fin 16)) : Progressed s (flagCode s c p) :=
  ⟨fun _ => DiscLink.OnlySent.refl _, rfl, _, rfl⟩

/-- Sending on a link touches discovery and what leaves the module. -/
theorem sendOn_frame (s : State) (d : Decl) (n : Nat) (kind : Fin 4) (g : DiscMsg → DiscMsg) : ∃ D o, sendOn s d n kind g =
    { s with disc := D, out := o } ∧ D.owner = s.disc.owner := by
  unfold sendOn
  split
  · exact ⟨s.disc, s.out, rfl, rfl⟩
  · exact ⟨_, _, rfl, rfl⟩

theorem sendAllOn_frame (d : Decl) (kind : Fin 4) (g : DiscMsg → DiscMsg) (l : List Nat) (s : State) : ∃ D o,
    l.foldl (fun t n => sendOn t d n kind g) s = { s with disc := D, out := o } := by
  induction l generalizing s with
  | nil => exact ⟨s.disc, s.out, rfl⟩
  | cons n l ih =>
    obtain ⟨D, o, e, -⟩ := sendOn_frame s d n kind g
    rw [List.foldl_cons, e]
    exact ih _

end

/-! ## The end of discovery (R287, R442) -/

section
variable {s : State}

theorem sendPlans_frame (s : State) (d : Decl) : ∃ P o, sendPlans s d = { s with fab := { s.fab with ports := P }, out := o } := by
  unfold sendPlans
  generalize d.netPorts = l
  induction l generalizing s with
  | nil => exact ⟨s.fab.ports, s.out, rfl⟩
  | cons n l ih =>
    rw [List.foldl_cons]
    dsimp only
    generalize ((packetTo s 0x1C _).load _).sealed = p
    obtain ⟨P, o, e⟩ := emit_frame s n 6 8 0 p
    rw [e]
    obtain ⟨P1, o1, e1⟩ := ih { s with fab := { s.fab with ports := P }, out := s.out ++ o }
    exact ⟨P1, o1, e1⟩

/-- The outcome of discovery: its registers, the ports and the state of the host link. -/
structure DiscEnd (s : State) (d : Decl) (result : Nat) (D : Disc) (F : Fabric) (H : Hlk) : Prop where
  running : D.running = false
  ended : D.ended = true
  code : D.result = BitVec.ofNat 4 result
  links : D.links = s.disc.links
  coords : D.coords = s.disc.coords
  flags : D.flags = s.disc.flags
  fails : result ≠ 0 → F = s.fab
  place : result = 0 → F.chip = BitVec.ofNat 16 (chipOf d.lens (s.disc.coords.getD [0, 0, 0, 0]))
  state : H.state = if s.hlk.state == .discovering then (if result = 0 then .ready else .nodisc) else s.hlk.state

theorem sendPlans_end {D : Disc} {F : Fabric} {H : Hlk} {b : Boot} (d : Decl) (h : DiscEnd s d 0 D F H) : ∃ D' F' H' o b',
    sendPlans { s with disc := D, fab := F, hlk := H, boot := b } d = { s with disc := D', fab := F', hlk := H', out := o, boot := b' } ∧
      DiscEnd s d 0 D' F' H' := by
  obtain ⟨P, o, e⟩ := sendPlans_frame { s with disc := D, fab := F, hlk := H, boot := b } d
  exact ⟨_, _, _, _, _, e, ⟨h.running, h.ended, h.code, h.links, h.coords, h.flags, fun h0 => absurd rfl h0, h.place, h.state⟩⟩

/-- What the end of discovery leaves: its outcome, and the module in its place only where the result is 0. -/
theorem endDiscovery_does (s : State) (d : Decl) (result total : Nat) : ∃ D F H o b,
    endDiscovery s d result total = { s with disc := D, fab := F, hlk := H, out := o, boot := b } ∧ DiscEnd s d result D F H := by
  by_cases h : result = 0
  · subst h
    unfold endDiscovery
    simp only [if_true]
    cases ho : s.disc.owner with
    | none => exact sendPlans_end (s := s) d ⟨rfl, rfl, rfl, rfl, rfl, rfl, fun e => absurd rfl e, fun _ => rfl, rfl⟩
    | some x => exact sendPlans_end (s := s) d ⟨rfl, rfl, rfl, rfl, rfl, rfl, fun e => absurd rfl e, fun _ => rfl, rfl⟩
  · unfold endDiscovery
    simp only [if_neg h]
    cases ho : s.disc.owner with
    | none => exact ⟨_, _, _, _, _, rfl, rfl, rfl, rfl, rfl, rfl, rfl, fun _ => rfl, fun e => absurd e h, by rw [if_neg h]; rfl⟩
    | some x => exact ⟨_, _, _, _, _, rfl, rfl, rfl, rfl, rfl, rfl, rfl, fun _ => rfl, fun e => absurd e h, by rw [if_neg h]; rfl⟩

theorem endDiscovery_progressed (s : State) (d : Decl) (result total : Nat) : Progressed s (endDiscovery s d result total) := by
  obtain ⟨D, F, H, o, b, e, hend⟩ := endDiscovery_does s d result total
  rw [e]
  refine ⟨fun p => ?_, hend.coords, 0, hend.flags.trans BitVec.or_zero.symm⟩
  show (s.disc.links[p]).OnlySent D.links[p]
  rw [hend.links]
  exact DiscLink.OnlySent.refl _

/-! ## Progress (R285, R286) -/

/-- The children have their DOWN; the module notes its own result. -/
def downSent (s : State) (d : Decl) (cs : List Nat) (result total : Nat) : State :=
  updDisc ((childPorts d cs).foldl
    (fun t n => sendOn t d n 3 fun m => { m with count := BitVec.ofNat 32 total, result := BitVec.ofNat 4 result }) s)
    fun x => { x with downResult := some (BitVec.ofNat 4 result), total := BitVec.ofNat 17 total }

theorem downAndAct_eq (s : State) (d : Decl) (cs : List Nat) (result total : Nat) :
    downAndAct s d cs result total = endDiscovery (downSent s d cs result total) d result total := rfl

theorem downSent_progressed (s : State) (d : Decl) (cs : List Nat) (result total : Nat) : Progressed s (downSent s d cs result total) :=
  (Progressed.foldl _ (fun t n => sendOn_progressed t d n 3 _) (childPorts d cs) s).trans
    ⟨fun _ => DiscLink.OnlySent.refl _, rfl, 0, BitVec.or_zero.symm⟩

theorem downSent_frame (s : State) (d : Decl) (cs : List Nat) (result total : Nat) : ∃ D o, downSent s d cs result total =
    { s with disc := D, out := o } := by
  obtain ⟨D, o, e⟩ := sendAllOn_frame d 3 (fun m => { m with count := BitVec.ofNat 32 total, result := BitVec.ofNat 4 result }) (childPorts d cs) s
  rw [downSent, e]
  exact ⟨_, o, rfl⟩

theorem downAndAct_progressed (s : State) (d : Decl) (cs : List Nat) (result total : Nat) : Progressed s (downAndAct s d cs result total) :=
  (downSent_progressed s d cs result total).trans (endDiscovery_progressed _ d result total)

/-- Going on with discovery keeps what was received. -/
theorem progress_progressed (s : State) : Progressed s (progress s) := by
  unfold progress
  split
  · split
    · exact Progressed.refl s
    · split
      · exact Progressed.refl s
      · split
        · dsimp only
          split
          · exact (flagCode_progressed s 6 none).trans (downAndAct_progressed _ _ _ _ _)
          · exact downAndAct_progressed _ _ _ _ _
        · split
          · exact Progressed.refl s
          · exact sendOn_progressed _ _ _ _ _
  · exact Progressed.refl s

theorem takeCoords_progressed (s : State) (d : Decl) (cs : List Nat) :
    Progressed (updDisc s fun x => { x with coords := some cs }) (takeCoords s d cs) :=
  Progressed.foldl _ (fun t n => sendOn_progressed t d n 1 id) d.netPorts _

end

/-! ## A message is answered, and taken once (R283–R287) -/

section
variable {s : State} {p : Fin 16} {pk : Packet} {m : DiscMsg} {d : Decl}

theorem discArrives_eq {kind : Fin 4} {ack : Bool} (hi : pk.intact = true) (hm : discOf pk = some m) (hk : m.kind = kind) (ha : m.ack = ack)
    (f : DiscMsg → State → State) : discArrives s pk kind ack f = f m s := by
  have hgo : (decide (m.kind = kind) && decide (m.ack = ack)) = true := by rw [decide_eq_true hk, decide_eq_true ha]; rfl
  rw [discArrives, accepting_intact _ hi, hm]
  exact if_pos hgo

theorem helloArrives_again (h : answering s p m = some d) (hseen : (s.disc.links[p]).helloChecked = true) :
    helloArrives s p pk m = ackMsg s d p pk m := by
  simp only [helloArrives, h, hseen, if_true]

/-- The state in which a HELLO is taken, its checks not yet made. -/
def helloTaken (s : State) (d : Decl) (p : Fin 16) (pk : Packet) (m : DiscMsg) : State :=
  updLink (ackMsg s d p pk m) p fun l => { l with helloChecked := true, farIdentity := some m.identity, farEngine := some m.engine }

/-- The state in which what a check found wrong is flagged. -/
def checked (s : State) (d : Decl) (p : Fin 16) (m : DiscMsg) : State :=
  match helloFlag s d p m with | some c => flagCode s c (some p) | none => s

theorem checked_progressed (s : State) (d : Decl) (p : Fin 16) (m : DiscMsg) : Progressed s (checked s d p m) := by
  unfold checked
  split
  · exact flagCode_progressed s _ _
  · exact Progressed.refl s

theorem helloArrives_first (h : answering s p m = some d) (hnew : (s.disc.links[p]).helloChecked = false) :
    helloArrives s p pk m = progress (checked (helloTaken s d p pk m) d p m) := by
  simp only [helloArrives, h, hnew, Bool.false_eq_true, if_false]
  rfl

/-- A HELLO of another tag or declaration sets its flag, which stays. -/
theorem checked_flag (hbad : m.tag ≠ d.tag ∨ m.dcrc ≠ d.dcrc) : (checked s d p m).disc.flags.getLsbD 1 = true := by
  have hdiffers : (decide (m.tag ≠ d.tag) || decide (m.dcrc ≠ d.dcrc)) = true := by
    rcases hbad with h | h
    · rw [decide_eq_true h, Bool.true_or]
    · rw [decide_eq_true h, Bool.or_true]
  have hflag : helloFlag s d p m = some 1 := if_pos hdiffers
  rw [checked, hflag]
  show (s.disc.flags ||| BitVec.ofNat 16 (2 ^ 1)).getLsbD 1 = true
  simp

theorem or_or_and_middle (a b c : W16) : ((a ||| b) ||| c) &&& b = b := by
  apply BitVec.eq_of_getLsbD_eq
  intro i hi
  cases h : b.getLsbD i <;> simp [h]

theorem Progressed.flag {t : State} (h : Progressed s t) {i : Nat} (hi : s.disc.flags.getLsbD i = true) : t.disc.flags.getLsbD i = true := by
  obtain ⟨x, hx⟩ := h.flags
  rw [hx, BitVec.getLsbD_or, hi, Bool.true_or]

theorem Progressed.helloChecked {t : State} (h : Progressed s t) : (t.disc.links[p]).helloChecked = (s.disc.links[p]).helloChecked ∧
    (t.disc.links[p]).farIdentity = (s.disc.links[p]).farIdentity ∧ (t.disc.links[p]).farEngine = (s.disc.links[p]).farEngine ∧
    (t.disc.links[p]).coordSeen = (s.disc.links[p]).coordSeen ∧ (t.disc.links[p]).upFrom = (s.disc.links[p]).upFrom ∧
    (t.disc.links[p]).helloAcked = (s.disc.links[p]).helloAcked ∧ (t.disc.links[p]).roundTrip = (s.disc.links[p]).roundTrip := by
  obtain ⟨q, c, u, x, e⟩ := h.links p
  rw [e]
  exact ⟨rfl, rfl, rfl, rfl, rfl, rfl, rfl⟩

theorem coordArrives_again (h : answering s p m = some d) (hseen : (s.disc.links[p]).coordSeen = true ∨ s.disc.running = false) :
    coordArrives s p pk m = ackMsg s d p pk m := by
  have hdone : ((s.disc.links[p]).coordSeen || !s.disc.running) = true := by
    rcases hseen with h | h
    · rw [h, Bool.true_or]
    · rw [h, Bool.not_false, Bool.or_true]
  simp only [coordArrives, h, hdone, if_true]

/-- The state in which a COORD is noted on its link. -/
def coordNoted (s : State) (d : Decl) (p : Fin 16) (pk : Packet) (m : DiscMsg) : State :=
  updLink (ackMsg s d p pk m) p fun l => { l with coordSeen := true }

/-- The first COORD gives the module its place, and is then checked like every other (R285). -/
theorem coordArrives_first (h : answering s p m = some d) (hnew : (s.disc.links[p]).coordSeen = false) (hrun : s.disc.running = true)
    (hnone : s.disc.coords = none) : let b := firstCoord s d p m
    ∃ t, Progressed (takeCoords (coordNoted s d p pk m) d (coordFrom d b.1 b.2)) t ∧ coordArrives s p pk m = t := by
  intro b
  refine ⟨_, ?_, rfl⟩
  have hopen : ((s.disc.links[p]).coordSeen || !s.disc.running) = false := by rw [hnew, hrun]; rfl
  simp only [coordArrives, h, hopen, hnone, Bool.false_eq_true, if_false]
  refine Progressed.trans ?_ (progress_progressed _)
  split
  · exact flagCode_progressed _ 5 (some p)
  · exact Progressed.refl _

theorem upArrives_again (h : answering s p m = some d) (hseen : (s.disc.links[p]).upFrom.isSome = true ∨ s.disc.running = false) :
    upArrives s p pk m = ackMsg s d p pk m := by
  have hdone : ((s.disc.links[p]).upFrom.isSome || !s.disc.running) = true := by
    rcases hseen with h | h
    · rw [h, Bool.true_or]
    · rw [h, Bool.not_false, Bool.or_true]
  simp only [upArrives, h, hdone, if_true]

/-- The state in which an UP is noted, its flags added. -/
def upNoted (s : State) (d : Decl) (p : Fin 16) (pk : Packet) (m : DiscMsg) : State :=
  updDisc (updLink (ackMsg s d p pk m) p fun l => { l with upFrom := some (m.count, m.flags) }) fun x => { x with flags := x.flags ||| m.flags }

theorem upArrives_first (h : answering s p m = some d) (hnew : (s.disc.links[p]).upFrom = none) (hrun : s.disc.running = true) :
    upArrives s p pk m = progress (upNoted s d p pk m) := by
  have hopen : ((s.disc.links[p]).upFrom.isSome || !s.disc.running) = false := by rw [hnew, hrun]; rfl
  simp only [upArrives, h, hopen, Bool.false_eq_true, if_false]
  rfl

theorem downArrives_ignored (h : answering s p m = some d) (hno : s.disc.coords = none ∨ s.disc.running = false) :
    downArrives s p pk m = ackMsg s d p pk m := by
  simp only [downArrives, h]
  rcases hno with hno | hno
  · rw [hno]
  · rw [hno]
    split
    · exact if_neg Bool.false_ne_true
    · rfl

theorem downArrives_acts {cs : List Nat} (h : answering s p m = some d) (hc : s.disc.coords = some cs) (hrun : s.disc.running = true) :
    downArrives s p pk m = downAndAct (ackMsg s d p pk m) d cs m.result.toNat m.count.toNat := by
  simp only [downArrives, h, hc, hrun, if_true]

/-- What a DOWN leaves: discovery over with its result, and the module in its place only where that is 0. -/
theorem downAndAct_does (s : State) (d : Decl) (cs : List Nat) (result : BitVec 4) (total : Nat) (hc : s.disc.coords = some cs) :
    let t := downAndAct s d cs result.toNat total
    t.disc.running = false ∧ t.disc.ended = true ∧ t.disc.result = result ∧ (result = 0 → t.fab.chip = BitVec.ofNat 16 (chipOf d.lens cs)) ∧
      (result ≠ 0 → t.fab = s.fab) := by
  intro t
  obtain ⟨D, o, e⟩ := downSent_frame s d cs result.toNat total
  have hcoords : (downSent s d cs result.toNat total).disc.coords = some cs := (downSent_progressed s d cs result.toNat total).coords.trans hc
  obtain ⟨D1, F, H, o1, b, e1, hend⟩ := endDiscovery_does (downSent s d cs result.toNat total) d result.toNat total
  have ht : t = endDiscovery (downSent s d cs result.toNat total) d result.toNat total := downAndAct_eq s d cs result.toNat total
  rw [ht, e1]
  refine ⟨hend.running, hend.ended, hend.code.trans (BitVec.ofNat_toNat ..), fun h => ?_, fun h => ?_⟩
  · have := hend.place (by rw [h]; rfl)
    rw [hcoords] at this
    exact this
  · have := hend.fails fun h0 => h (BitVec.eq_of_toNat_eq h0)
    rw [e] at this
    exact this

end

/-! ## Acknowledgements and repeats (R283, R284) -/

section
variable {s : State} {p : Fin 16} {pk : Packet} {m : DiscMsg} {d : Decl}

theorem execDiscAck_eq (hi : pk.intact = true) (hm : discOf pk = some m) (ha : m.ack = true) :
    exec (.discAck p pk) s = .next (discAcked s p m) := by
  refine congrArg Host.Outcome.next ((accepting_intact _ hi).trans ?_)
  rw [hm]
  exact if_pos ha

theorem discAcked_stray (h : answering s p m = some d) (hno : (m.kind, m.echo) ∉ (s.disc.links[p]).tseqs) : discAcked s p m = s := by
  have hnot : (s.disc.links[p]).tseqs.contains (m.kind, m.echo) = false := by simpa using hno
  simp only [discAcked, h, hnot, Bool.not_false, if_true]

/-- The state in which a HELLO's acknowledgement has given the round trip. -/
def helloAnswered (s : State) (p : Fin 16) (m : DiscMsg) : State :=
  updLink s p fun l =>
    { l with helloAcked := true, roundTrip := some ((s.now.setWidth 32 : W32) - m.echo - m.turnaround).toNat }

theorem discAcked_hello (h : answering s p m = some d) (hyes : (m.kind, m.echo) ∈ (s.disc.links[p]).tseqs) (hk : m.kind = 0) :
    discAcked s p m = if (s.disc.links[p]).helloAcked then s else progress (checked (helloAnswered s p m) d p m) := by
  have hcontains : (s.disc.links[p]).tseqs.contains (m.kind, m.echo) = true := List.contains_iff_mem.mpr hyes
  rw [hk] at hcontains
  simp only [discAcked, h, hk, hcontains, Bool.not_true, Bool.false_eq_true, if_false]
  rfl

theorem discAcked_other (h : answering s p m = some d) (hyes : (m.kind, m.echo) ∈ (s.disc.links[p]).tseqs) :
    (m.kind = 1 → discAcked s p m = updLink s p fun l => { l with coordAcked := true }) ∧
    (m.kind = 2 → discAcked s p m = updLink s p fun l => { l with upAcked := true }) ∧
    (m.kind = 3 → discAcked s p m = updLink s p fun l => { l with downAcked := true }) := by
  have hcontains : (s.disc.links[p]).tseqs.contains (m.kind, m.echo) = true := List.contains_iff_mem.mpr hyes
  refine ⟨fun hk => ?_, fun hk => ?_, fun hk => ?_⟩ <;> rw [hk] at hcontains <;>
    simp only [discAcked, h, hk, hcontains, Bool.not_true, Bool.false_eq_true, if_false]

/-- What is unanswered on a link without an UP or a DOWN of its own: the HELLO, and after it the COORD. -/
theorem discRepeats_eq (hd : s.disc.decl = some d) (hnet : (d.net p).isSome = true) (hrun : s.disc.running = true)
    (hup : (s.disc.links[p]).upSent = false) (hdown : (s.disc.links[p]).downSent = false) : discRepeats s p =
      let t := if (s.disc.links[p]).helloAcked then s else sendMsg s p (message s d p 0)
      if (s.disc.links[p]).coordSent && !(s.disc.links[p]).coordAcked then sendMsg t p (message t d p 1) else t := by
  simp only [discRepeats, hd, hnet, hrun, hup, hdown, Bool.not_true, Bool.true_or, Bool.or_self, Bool.false_and, Bool.false_eq_true, if_false]

end

/-! ## DISCOVER (R280, R281, R288) -/

section
variable {s : State} {ring : RingId} {idx : W16} {data : List Byte}

/-- A state with a declaration that failed a check: nothing of an earlier discovery is left. -/
def declRefused (s : State) (ring : RingId) (idx : W16) : State :=
  let u := updDisc s fun x => { x with coords := none, links := Vector.replicate 16 DiscLink.reset, flags := 0, flagged := [], downResult := none,
                                        owner := some (ring, idx) }
  updDisc { u with hlk := { u.hlk with state := .discovering } } fun x => { x with decl := none }

theorem supersede_idle (h : s.disc.running = false) : supersede s = s := by
  rw [supersede, h]

theorem startDiscovery_bad (hrun : s.disc.running = false) (hbad : declBad s data = true) :
    startDiscovery s ring idx data = endDiscovery (declRefused s ring idx) (declOf data) 8 0 := by
  rw [startDiscovery, supersede_idle hrun, if_pos hbad]
  rfl

/-- The state in which a good declaration is taken, before the training map. -/
def declTaken (s : State) (ring : RingId) (idx : W16) (d : Decl) : State :=
  let u := updDisc s fun x => { x with coords := none, links := Vector.replicate 16 DiscLink.reset, flags := 0, flagged := [], downResult := none,
                                        owner := some (ring, idx) }
  updDisc { u with hlk := { u.hlk with state := .discovering }, opt := { u.opt with portMap := d.pmap, planPkts := [], planFailed := false },
                   boot := { u.boot with stage := 0xC0, highest := 0xC0 } } fun x =>
    { x with running := true, ended := false, decl := some d, oldTags := x.oldTags.filter (· ≠ d.tag) }

theorem startDiscovery_good (hrun : s.disc.running = false) (hgood : declBad s data = false) (hseed : (declOf data).seed ≠ s.glb.moduleId) :
    startDiscovery s ring idx data = (declOf data).mapped.foldl (fun t p => sendMsg t p (message t (declOf data) p 0))
      (trainingMap (declTaken s ring idx (declOf data))) := by
  rw [startDiscovery, supersede_idle hrun, hgood, if_neg Bool.false_ne_true, if_neg hseed]
  rfl

/-- A message that HELLO sends on a port. -/
def helloOut (s : State) (d : Decl) (p : Fin 16) : Out := let m := message s d p 0
  .disc p (discPacket s m (discPayload m))

/-- HELLO on every port of a list. -/
theorem sendHellos_frame (d : Decl) (l : List (Fin 16)) (s : State) : ∃ L, l.foldl (fun t p => sendMsg t p (message t d p 0)) s =
    { s with disc := { s.disc with links := L }, out := s.out ++ l.map (helloOut s d) } := by
  induction l generalizing s with
  | nil => exact ⟨s.disc.links, by rw [List.map_nil, List.append_nil]; rfl⟩
  | cons p l ih =>
    obtain ⟨L, e⟩ := ih (sendMsg s p (message s d p 0))
    refine ⟨L, ?_⟩
    have hsame : helloOut (sendMsg s p (message s d p 0)) d = helloOut s d := rfl
    rw [List.foldl_cons, e, hsame, List.map_cons]
    have hout : (sendMsg s p (message s d p 0)).out = s.out ++ [helloOut s d p] := rfl
    rw [hout, List.append_assoc, List.singleton_append]
    rfl

/-- Counting the lanes of the ports leaves the chip identifier. -/
theorem recount_chip (s : State) : (recount s).fab.chip = s.fab.chip := by
  unfold recount
  generalize List.finRange 8 = l
  have hfold : ∀ (l : List PortId) (G : PortId → Port → Port) (t : State),
      (l.foldl (fun t n => updPort t n.val (G n)) t).fab.chip = t.fab.chip := by
    intro l G
    induction l with
    | nil => exact fun _ => rfl
    | cons n l ih =>
      intro t
      obtain ⟨P, e⟩ := updPort_frame t n.val (G n)
      rw [List.foldl_cons, ih, e]
  exact hfold l (fun n q => { q with
    up := (strapLanes s n).length ≠ 0 && !(strapReceives s n).isEmpty, lanes := BitVec.ofNat 7 (strapLanes s n).length }) s

theorem trainingMap_frame (s : State) : ∃ F L, trainingMap s = { s with fab := F, opt := { s.opt with lanes := L } } ∧ F.chip = s.fab.chip ∧
    ∀ g : LaneId, s.glb.engines.getLsbD (g.val / 16) = true →
      (L[g]).txPort = some (Fin.ofNat 4 (g.val % 4)) ∧ (L[g]).rxPort = some (Fin.ofNat 4 ((g.val % 4).xor 1)) := by
  unfold trainingMap
  dsimp only
  generalize hL : s.opt.lanes.mapFinIdx _ = L
  obtain ⟨F, e⟩ := recount_frame { s with opt := { s.opt with lanes := L } }
  have hchip := recount_chip { s with opt := { s.opt with lanes := L } }
  rw [e] at hchip
  refine ⟨F, L, e, hchip, fun g hg => ?_⟩
  rw [← hL]
  simp only [Fin.getElem_fin, Vector.getElem_mapFinIdx, hg, if_true]
  exact ⟨trivial, trivial⟩

/-- A declaration that a ready DISCOVER brings, once it has been read (R307). -/
theorem discoverCmd_reads (hplain : sealing s = false) (hlen : data.length = 64) : ∃ c R, discoverCmd s ring idx data false =
    startDiscovery { s with sec := c, hlk := { s.hlk with rings := R } } ring idx data := by
  have hpad : padTo 64 0 data = data := by simp [padTo, hlen]
  rw [discoverCmd, if_neg Bool.false_ne_true, fromHost_plain s none 0x40 64 data hplain, hpad]
  dsimp only
  split
  · exact ⟨s.sec, _, rfl⟩
  · exact ⟨_, _, rfl⟩

end

/-! ## What each message, repeat and time-out does first -/

section
variable {s : State} {ring : RingId} {idx : W16} {data : List Byte} {x : Inflight}

section
variable (hready : s.descReady ring idx 0x40 x) (hcheck : descCheck s ring x = none) (hplain : sealing s = false) (hlen : data.length = 64)
  (hidle : s.disc.running = false)
include hready hcheck hplain hlen hidle

/-- A declaration that fails a check ends at once with result 8. -/
theorem discover_refuses (hbad : declBad s data = true) : ∃ t, exec (.discover ring idx data false) s = .next t ∧ t.disc.result = 8 ∧
    t.disc.ended = true ∧ t.disc.running = false ∧ t.hlk.state = .nodisc ∧ t.mem = s.mem := by
  have hrun := runDesc_ready s ring idx 0x40 x (fun _ t => discoverCmd t ring idx data false) hready hcheck
  obtain ⟨c, R, e⟩ := discoverCmd_reads (s := linkGood s) (ring := ring) (idx := idx) hplain hlen
  have hstart := startDiscovery_bad (s := { linkGood s with sec := c, hlk := { (linkGood s).hlk with rings := R } }) (ring := ring) (idx := idx)
    hidle hbad
  obtain ⟨D, F, H, o, b, e1, hend⟩ := endDiscovery_does
    (declRefused { linkGood s with sec := c, hlk := { (linkGood s).hlk with rings := R } } ring idx) (declOf data) 8 0
  refine ⟨_, congrArg Host.Outcome.next (hrun.trans (e.trans (hstart.trans e1))), ?_⟩
  exact ⟨hend.code, hend.ended, hend.running, hend.state, rfl⟩

/-- A good declaration puts every lane on the training map and sends HELLO on each mapped fibre port. -/
theorem discover_starts (hgood : declBad s data = false) (hseed : (declOf data).seed ≠ s.glb.moduleId) : ∃ t,
    exec (.discover ring idx data false) s = .next t ∧ t.disc.running = true ∧ t.disc.decl = some (declOf data) ∧ t.disc.coords = none ∧
      t.hlk.state = .discovering ∧ t.opt.portMap = (declOf data).pmap ∧ t.disc.owner = some (ring, idx) ∧
      (∀ g : LaneId, s.glb.engines.getLsbD (g.val / 16) = true →
        (t.opt.lanes[g]).txPort = some (Fin.ofNat 4 (g.val % 4)) ∧ (t.opt.lanes[g]).rxPort = some (Fin.ofNat 4 ((g.val % 4).xor 1))) ∧
      t.out = s.out ++ (declOf data).mapped.map (fun p => let m := message t (declOf data) p 0
        .disc p (discPacket t m (discPayload m))) := by
  have hrun := runDesc_ready s ring idx 0x40 x (fun _ t => discoverCmd t ring idx data false) hready hcheck
  obtain ⟨c, R, e⟩ := discoverCmd_reads (s := linkGood s) (ring := ring) (idx := idx) hplain hlen
  have hstart := startDiscovery_good (s := { linkGood s with sec := c, hlk := { (linkGood s).hlk with rings := R } }) (ring := ring) (idx := idx)
    hidle hgood hseed
  obtain ⟨F, L, e1, hchip, hlanes⟩ := trainingMap_frame
    (declTaken { linkGood s with sec := c, hlk := { (linkGood s).hlk with rings := R } } ring idx (declOf data))
  obtain ⟨K, e2⟩ := sendHellos_frame (declOf data) (declOf data).mapped
    (trainingMap (declTaken { linkGood s with sec := c, hlk := { (linkGood s).hlk with rings := R } } ring idx (declOf data)))
  refine ⟨_, congrArg Host.Outcome.next (hrun.trans (e.trans (hstart.trans e2))), ?_⟩
  rw [e1]
  exact ⟨rfl, rfl, rfl, rfl, rfl, rfl, hlanes, rfl⟩

end

end

section
variable {s : State} {p : Fin 16} {pk : Packet} {m : DiscMsg} {d : Decl}

section
variable (hi : pk.intact = true) (hm : discOf pk = some m) (hans : answering s p m = some d) (ha : m.ack = false)
include hi hm hans ha

theorem hello_first (hk : m.kind = 0) (hnew : (s.disc.links[p]).helloChecked = false) : ∃ t, exec (.hello p pk) s = .next t ∧
    (t.disc.links[p]).helloChecked = true ∧ (t.disc.links[p]).farIdentity = some m.identity ∧ (t.disc.links[p]).farEngine = some m.engine ∧
    ((m.tag ≠ d.tag ∨ m.dcrc ≠ d.dcrc) → t.disc.flags.getLsbD 1 = true) := by
  have hgoes := (checked_progressed (helloTaken s d p pk m) d p m).trans (progress_progressed _)
  obtain ⟨h1, h2, h3, -⟩ := hgoes.helloChecked (p := p)
  refine ⟨_, congrArg Host.Outcome.next ((discArrives_eq hi hm hk ha _).trans (helloArrives_first hans hnew)), ?_, ?_, ?_,
    fun hbad => (progress_progressed _).flag (checked_flag hbad)⟩
  · rw [h1, helloTaken, updLink_at]
  · rw [h2, helloTaken, updLink_at]
  · rw [h3, helloTaken, updLink_at]

theorem coord_first (hk : m.kind = 1) (hnew : (s.disc.links[p]).coordSeen = false) (hrun : s.disc.running = true) (hnone : s.disc.coords = none) :
    ∃ t, exec (.coord p pk) s = .next t ∧ (t.disc.links[p]).coordSeen = true ∧
      t.disc.coords = some (coordFrom d (firstCoord s d p m).1 (firstCoord s d p m).2) ∧
      (s.pending = [] → t.disc.coords = some (coordFrom d p m)) := by
  obtain ⟨t, hgoes, e⟩ := coordArrives_first (pk := pk) hans hnew hrun hnone
  have hall := (takeCoords_progressed (coordNoted s d p pk m) d _).trans hgoes
  have hcoords := hall.coords
  refine ⟨t, congrArg Host.Outcome.next ((discArrives_eq hi hm hk ha _).trans e), ?_, hcoords, fun hpending => ?_⟩
  · rw [(hall.helloChecked (p := p)).2.2.2.1]
    exact congrArg DiscLink.coordSeen (updLink_at _ p _)
  · rw [hcoords, firstCoord, hpending]
    rfl

theorem up_first (hk : m.kind = 2) (hnew : (s.disc.links[p]).upFrom = none) (hrun : s.disc.running = true) : ∃ t, exec (.up p pk) s = .next t ∧
    (t.disc.links[p]).upFrom = some (m.count, m.flags) ∧ t.disc.flags &&& m.flags = m.flags := by
  have hgoes := progress_progressed (upNoted s d p pk m)
  refine ⟨_, congrArg Host.Outcome.next ((discArrives_eq hi hm hk ha _).trans (upArrives_first hans hnew hrun)), ?_, ?_⟩
  · rw [(hgoes.helloChecked (p := p)).2.2.2.2.1]
    exact congrArg DiscLink.upFrom (updLink_at _ p _)
  · obtain ⟨x, hx⟩ := hgoes.flags
    rw [hx]
    exact or_or_and_middle s.disc.flags m.flags x

end

theorem discAck_hello (hi : pk.intact = true) (hm : discOf pk = some m) (hans : answering s p m = some d) (ha : m.ack = true)
    (hyes : (m.kind, m.echo) ∈ (s.disc.links[p]).tseqs) (hk : m.kind = 0) (hnew : (s.disc.links[p]).helloAcked = false) :
    ∃ t, exec (.discAck p pk) s = .next t ∧ (t.disc.links[p]).helloAcked = true ∧
      (t.disc.links[p]).roundTrip = some ((s.now.setWidth 32 : W32) - m.echo - m.turnaround).toNat := by
  have hgoes := (checked_progressed (helloAnswered s p m) d p m).trans (progress_progressed _)
  obtain ⟨-, -, -, -, -, h6, h7⟩ := hgoes.helloChecked (p := p)
  have hacked := discAcked_hello hans hyes hk
  rw [show (s.disc.links[p]).helloAcked = false from hnew, if_neg Bool.false_ne_true] at hacked
  refine ⟨_, (execDiscAck_eq hi hm ha).trans (congrArg Host.Outcome.next hacked), ?_, ?_⟩
  · rw [h6, helloAnswered, updLink_at]
  · rw [h7, helloAnswered, updLink_at]

section
variable (hd : s.disc.decl = some d) (hnet : (d.net p).isSome = true) (hrun : s.disc.running = true)
  (hup : (s.disc.links[p]).upSent = false) (hdown : (s.disc.links[p]).downSent = false)
include hd hnet hrun hup hdown

theorem discRepeat_coord (hack : (s.disc.links[p]).helloAcked = true) (hsent : (s.disc.links[p]).coordSent = true)
    (hno : (s.disc.links[p]).coordAcked = false) : discRepeats s p = sendMsg s p (message s d p 1) := by
  rw [discRepeats_eq hd hnet hrun hup hdown, hack, hsent, hno]
  rfl

theorem discRepeat_hello (hno : (s.disc.links[p]).coordSent = false ∨ (s.disc.links[p]).coordAcked = true) :
    discRepeats s p = if (s.disc.links[p]).helloAcked then s else sendMsg s p (message s d p 0) := by
  have hquiet : ((s.disc.links[p]).coordSent && !(s.disc.links[p]).coordAcked) = false := by
    rcases hno with h | h
    · rw [h, Bool.false_and]
    · rw [h, Bool.not_true, Bool.and_false]
  rw [discRepeats_eq hd hnet hrun hup hdown, hquiet]
  rfl

end

theorem discoveryTimeout_ends (hd : s.disc.decl = some d) (hrun : s.disc.running = true) (hno : downNow s = false) :
    ∃ t, exec .discoveryTimeout s = .next t ∧ t.disc.running = false ∧ t.disc.ended = true ∧
      t.disc.result = BitVec.ofNat 4 ((firstCode s.disc.flags).getD 7) ∧ t.mem = s.mem := by
  obtain ⟨D, F, H, o, b, e, hend⟩ := endDiscovery_does s d ((firstCode s.disc.flags).getD 7) 0
  have hends : exec .discoveryTimeout s = .next (endDiscovery s d ((firstCode s.disc.flags).getD 7) 0) := by
    refine congrArg Host.Outcome.next ?_
    rw [hd]
    exact if_pos (by rw [hrun, hno]; rfl)
  rw [e] at hends
  exact ⟨_, hends, hend.running, hend.ended, hend.code, rfl⟩

theorem discoveryTimeout_ignored (hno : s.disc.running = false ∨ downNow s = true) : exec .discoveryTimeout s = .next s := by
  refine congrArg Host.Outcome.next ?_
  split
  · refine if_neg ?_
    rcases hno with h | h
    · rw [h]
      exact Bool.false_ne_true
    · rw [h, Bool.not_true, Bool.and_false]
      exact Bool.false_ne_true
  · rfl

end

/-- Settles O51: DISCOVER by the checks of its declaration; each message by what was seen before on its link; repeats, and the end of the budget.
That a failed result leaves the chip identifier as it was is the model's choice (log entry 51). -/
theorem discoveryRuns : Obligations.DiscoveryRuns := by
  unfold Obligations.DiscoveryRuns
  intro s
  refine ⟨fun ring idx data x hready hcheck => ⟨?_, fun hplain hlen hidle =>
    ⟨discover_refuses hready hcheck hplain hlen hidle, discover_starts hready hcheck hplain hlen hidle⟩⟩, fun p pk hi x hx => ?_,
    fun p pk m d hi hm hans => ?_, fun p d hd hnet hrun => ?_, fun d hd hrun hno => discoveryTimeout_ends hd hrun hno, discoveryTimeout_ignored⟩
  · exact congrArg Host.Outcome.next ((runDesc_ready s ring idx 0x40 x _ hready hcheck).trans rfl)
  · simp only [List.mem_cons, List.not_mem_nil, or_false] at hx
    rcases hx with rfl | rfl | rfl | rfl | rfl <;>
      exact congrArg Host.Outcome.next ((accepting_discard _ hi).trans (ingress_discard hi).symm)
  · intro l acked
    refine ⟨fun hk ha => ⟨fun hseen => ?_, fun hnew => ?_⟩, fun hk ha => ⟨fun hseen => ?_, fun hnew hrun hnone => ?_⟩,
      fun hk ha => ⟨fun hseen => ?_, fun hnew hrun => ?_⟩, fun hk ha => ⟨fun hno => ?_, fun cs hcs hrun => ?_⟩,
      fun ha hno => ?_, fun ha hyes => ⟨fun hk hnew => ?_, fun hk hold => ?_, fun hk => ?_, fun hk => ?_, fun hk => ?_⟩⟩
    · exact congrArg Host.Outcome.next ((discArrives_eq hi hm hk ha _).trans (helloArrives_again hans hseen))
    · exact hello_first hi hm hans ha hk hnew
    · exact congrArg Host.Outcome.next ((discArrives_eq hi hm hk ha _).trans (coordArrives_again hans hseen))
    · exact coord_first hi hm hans ha hk hnew hrun hnone
    · exact congrArg Host.Outcome.next ((discArrives_eq hi hm hk ha _).trans (upArrives_again hans hseen))
    · exact up_first hi hm hans ha hk hnew hrun
    · exact congrArg Host.Outcome.next ((discArrives_eq hi hm hk ha _).trans (downArrives_ignored hans hno))
    · exact ⟨_, congrArg Host.Outcome.next ((discArrives_eq hi hm hk ha _).trans (downArrives_acts hans hcs hrun)),
        downAndAct_does (ackMsg s d p pk m) d cs m.result m.count.toNat hcs⟩
    · exact (execDiscAck_eq hi hm ha).trans (congrArg Host.Outcome.next (discAcked_stray hans hno))
    · exact discAck_hello hi hm hans ha hyes hk hnew
    · exact (execDiscAck_eq hi hm ha).trans (congrArg Host.Outcome.next ((discAcked_hello hans hyes hk).trans (if_pos hold)))
    · exact (execDiscAck_eq hi hm ha).trans (congrArg Host.Outcome.next ((discAcked_other hans hyes).1 hk))
    · exact (execDiscAck_eq hi hm ha).trans (congrArg Host.Outcome.next ((discAcked_other hans hyes).2.1 hk))
    · exact (execDiscAck_eq hi hm ha).trans (congrArg Host.Outcome.next ((discAcked_other hans hyes).2.2 hk))
  · intro l sent hup hdown
    exact ⟨fun hack hsent hno => congrArg Host.Outcome.next (discRepeat_coord hd hnet hrun hup hdown hack hsent hno),
      fun hno => congrArg Host.Outcome.next (discRepeat_hello hd hnet hrun hup hdown hno)⟩

end Sys2Proof.Machine
end

section
/-! SUPPORT. The host link and its rings (R293, R295–R297, R300–R302, R311, R386): loss and return of the link, doorbells and control registers. -/

namespace Sys2Proof.Machine

/-- The descriptors whose host access the loss of the link cuts (R293). -/
def State.cutNow (s : State) : List (RingId × W16) :=
  (List.finRange 16).flatMap fun r => (s.hlk.rings[r].inflight.filter (usesHost s r)).map fun d => (r, d.idx)

theorem cutNow_mem (s : State) (r : RingId) (d : Inflight) (hd : d ∈ s.hlk.rings[r].inflight) (hu : usesHost s r d = true) :
    (r, d.idx) ∈ s.cutNow :=
  List.mem_flatMap.2 ⟨r, List.mem_finRange r, List.mem_map.2 ⟨d, List.mem_filter.2 ⟨hd, hu⟩, rfl⟩⟩

theorem linkDown_up (s : State) (hu : s.hlk.up = true) : exec .linkDown s =
    .next { s with hlk := { s.hlk with up := false, width := 0, cutOff := s.hlk.cutOff ++ s.cutNow, authRun := 0 } } :=
  congrArg Host.Outcome.next (if_pos hu)

theorem linkDown_down (s : State) (hu : s.hlk.up = false) : exec .linkDown s = .next s :=
  congrArg Host.Outcome.next (if_neg (by simp [hu]))

/-! ## Retraining -/

/-- The link as training leaves it, before what was cut off and kept is served (R293). -/
def State.trainedTo (s : State) (lanes : Nat) : State :=
  updHlk s fun h => { h with
    up := true
    width := if 8 ≤ lanes then 8 else 4
    linkRetrains := (if h.trained then bump h.linkRetrains else h.linkRetrains)
    trained := true
    cutOff := []
    authRun := 0 }

theorem comeUp_trains (s : State) (lanes : Nat) (hu : s.hlk.up = false) (hl : 4 ≤ lanes) :
    comeUp s lanes = flushEvents (s.hlk.cutOff.foldl (fun t x => finishDesc t x.1 x.2 0x000B 0 0 0) (s.trainedTo lanes)) :=
  if_neg (by simp [hu, Nat.not_lt.2 hl])

theorem comeUp_stays (s : State) (lanes : Nat) (h : s.hlk.up = true ∨ lanes < 4) : comeUp s lanes = s :=
  if_pos (by simpa using h)

theorem linkRetrain_does (s : State) (lanes : Nat) (hu : s.hlk.up = false) (hl : 4 ≤ lanes) :
    ∃ t, exec (.linkRetrain lanes) s = .next t ∧ t.hlk.up = true ∧
      t.hlk.width = (if 8 ≤ lanes then 8 else 4) ∧ t.hlk.buffered = [] ∧ t.hlk.cutOff = [] ∧
      t.hlk.linkRetrains = (if s.hlk.trained then s.hlk.linkRetrains + 1 else s.hlk.linkRetrains) ∧
      (∀ x ∈ s.hlk.cutOff, ∀ d ∈ s.hlk.rings[x.1].inflight, d.idx = x.2 → d.status = none →
        d.finish 0x000B 0 0 0 ∈ t.hlk.rings[x.1].inflight) ∧
      t = { s with hlk := t.hlk, out := t.out } := by
  obtain ⟨R, e, _, hcut⟩ := cutAll s.hlk.cutOff (s.trainedTo lanes)
  have hev := flushAll s.hlk.buffered
    { s.trainedTo lanes with hlk := { (s.trainedTo lanes).hlk with rings := R, buffered := [] } }
  refine ⟨_, congrArg Host.Outcome.next ((comeUp_trains s lanes hu hl).trans (congrArg flushEvents e)), ?_⟩
  obtain ⟨hall, hup, hwidth, hbuf, hcutOff, hretr, hrings⟩ := hev
  refine ⟨hup, hwidth, hbuf, hcutOff, hretr, fun x hx d hd hi hs => ?_, hall⟩
  exact hrings ▸ hcut x hx d hd hi hs

/-! ## Frames that fail authentication -/

theorem linkFrameAuthFail_counts (s : State) (hs : sealing s = true) (hu : s.hlk.up = true) (h : s.hlk.authRun < 999) :
    exec .linkFrameAuthFail s = .next
      { s with sec := { s.sec with linkAuthFail := s.sec.linkAuthFail + 1 }, hlk := { s.hlk with authRun := s.hlk.authRun + 1 } } :=
  congrArg Host.Outcome.next ((if_pos (by rw [hs, hu]; rfl)).trans (if_neg (by omega)))

theorem linkFrameAuthFail_drops (s : State) (hs : sealing s = true) (hu : s.hlk.up = true) (h : 999 ≤ s.hlk.authRun) :
    exec .linkFrameAuthFail s = .next (goDown { s with sec := { s.sec with linkAuthFail := s.sec.linkAuthFail + 1 } }) :=
  congrArg Host.Outcome.next ((if_pos (by rw [hs, hu]; rfl)).trans (if_pos (by omega)))

theorem linkFrameAuthFail_open (s : State) (hs : sealing s = false) : exec .linkFrameAuthFail s = .next s :=
  congrArg Host.Outcome.next (if_neg (by simp [hs]))

/-! ## Doorbells and control registers -/

theorem doorbellOk_good {en : Bool} {size : BitVec 5} {v : W16} (he : en = true) (hv : v.toNat < 2 ^ size.toNat) :
    doorbellOk en size v true = true := by
  subst he; exact decide_eq_true hv

theorem doorbellOk_bad {en : Bool} {size : BitVec 5} {v : W16} {wide : Bool}
    (h : en = false ∨ 2 ^ size.toNat ≤ v.toNat ∨ wide = false) : ¬ doorbellOk en size v wide = true := by
  unfold doorbellOk ringEntries
  rcases h with rfl | h | rfl
  · simp
  · simp [Nat.not_lt.2 h]
  · simp

theorem eventRingEnable_on (h : Hlk) (v : W32) (he : h.evenable = true) : writeEventCtl h (v ||| 0x20) = h :=
  (if_pos he).trans (if_pos (by simp))

/-! ## Fetching and coalescing -/

theorem fetch_stays (s : State) (ring : RingId) (data : List Byte) (h : s.hlk.up = false ∨ fetchable s s.hlk.rings[ring] = false) :
    fetch s ring data = s := by
  refine if_pos ?_
  rcases h with h | h
  · simp [h]
  · have hn : nextRing s ≠ some ring := fun hn => Bool.false_ne_true (h.symm.trans (nextRing_fetchable s ring hn))
    simp [hn]

theorem coalesceTimeout_does (s : State) (ring : RingId) : exec (.coalesceTimeout ring) s = .next
    (if s.hlk.up = true ∧ s.hlk.rings[ring].cticks ≠ 0 ∧ 0 < s.hlk.rings[ring].unsent then
      { s with
        hlk := { s.hlk with rings := s.hlk.rings.set ring { s.hlk.rings[ring] with unsent := 0 } }
        out := s.out ++ [.interrupt s.hlk.rings[ring].runVector] }
     else s) :=
  congrArg Host.Outcome.next (if_congr (by simp [and_assoc]) rfl rfl)

/-- Settles O52: the loss, the return and the doorbells are the branches of the model's own functions; what retraining completes with
HOSTERR comes from `cutAll` and what it writes from `flushAll`; a fetch and a completion from `fetch_does` and `complete_does`. -/
theorem hostRings : Obligations.HostRings := by
  unfold Obligations.HostRings
  intro s
  refine ⟨fun hu => ⟨s.cutNow, linkDown_up s hu, cutNow_mem s⟩, linkDown_down s, linkRetrain_does s,
    fun lanes h => congrArg Host.Outcome.next (comeUp_stays s lanes h), linkFrameAuthFail_counts s,
    fun hs hu h => ⟨_, linkFrameAuthFail_drops s hs hu h, rfl, rfl, rfl⟩, linkFrameAuthFail_open s, fun ring => ?_, fun v he hv => ?_, fun v wide h => ?_,
    fun v he => ?_, fun v he => ?_, rfl⟩
  · intro r put
    refine ⟨fun v he => ?_, fun v he => ?_, rfl, fun v he hv => ⟨?_, ?_⟩, fun v wide h => ?_, fun data hu hn => ⟨_, rfl, fetch_does s ring data hu hn⟩,
      fun data h => congrArg Host.Outcome.next (fetch_stays s ring data h), fun idx d hf hu => complete_does s ring idx d hf hu,
      coalesceTimeout_does s ring⟩
    · exact congrArg (fun q => Host.Outcome.next (put q)) (writeRing_off r v he)
    · exact congrArg (fun q => Host.Outcome.next (put q)) (writeRing_on r v he)
    · exact congrArg Host.Outcome.next (if_pos (doorbellOk_good he hv))
    · exact congrArg Host.Outcome.next (if_pos (doorbellOk_good he hv))
    · exact ⟨congrArg Host.Outcome.next (if_neg (doorbellOk_bad h)), congrArg Host.Outcome.next (if_neg (doorbellOk_bad h))⟩
  · exact congrArg Host.Outcome.next (if_pos (doorbellOk_good he hv))
  · exact congrArg Host.Outcome.next (if_neg (doorbellOk_bad h))
  · intro z
    exact congrArg (fun q => Host.Outcome.next { s.unlatch with hlk := q }) (writeEventCtl_off s.hlk v he)
  · exact congrArg (fun q => Host.Outcome.next { s.unlatch with hlk := q }) (eventRingEnable_on s.hlk v he)

end Sys2Proof.Machine
end

section
/-! SUPPORT. The job's commands (R307, R312, R314, R319, R335, R379): what placing an image brings, the start cinch, and what a teardown releases. -/

namespace Sys2Proof.Machine

/-! ## LOAD (R307, R312, R319) -/

section
variable {s : State} {ring : RingId} {idx : W16} {d : Inflight} {image img : List Byte}

theorem exec_load (hr : s.descReady ring idx 0x41 d) (hc : descCheck s ring d = none) (image : List Byte) (err : Bool) :
    exec (.load ring idx image err) s = .next (load (linkGood s) ring idx d image err) :=
  congrArg Host.Outcome.next (runDesc_ready s ring idx 0x41 d _ hr hc)

theorem load_hosterr : load s ring idx d image true = finishDesc s ring idx 0x000B 0 0 0 := rfl

/-- A sealed block that does not open refuses the image before any check of its format. -/
theorem load_unsealed {i : Nat} (h : (fromHost s none 0x41 d.len image).2.2 = some i) :
    load s ring idx d image false = refuseLoad (fromHost s none 0x41 d.len image).1 ring idx 2 (offsetItem (4096 * i)) := by
  simp only [load, h, Bool.false_eq_true, if_false]

theorem load_refused (hp : fromHost s none 0x41 d.len image = (s, img, none)) {e : Nat × Nat} (h : firstFail (loadFails s img) = some e) :
    load s ring idx d image false = refuseLoad (countPlans s img e.1 e.2) ring idx e.1 e.2 := by
  simp only [load, hp, h, Bool.false_eq_true, if_false]

theorem load_placed (hp : fromHost s none 0x41 d.len image = (s, img, none)) (h : firstFail (loadFails s img) = none) :
    load s ring idx d image false = doneDesc (measure (place s img) 2 0x21 img) ring idx 0 := by
  simp only [load, hp, h, Bool.false_eq_true, if_false]

/-- Counting the plans that differ writes what leaves the module and the count, nothing else. -/
theorem countPlans_frame (s : State) (img : List Byte) (code item : Nat) :
    ∃ O o, countPlans s img code item = { s with opt := O, out := o } := by
  unfold countPlans
  dsimp only
  split
  · exact ⟨_, _, rfl⟩
  · exact ⟨s.opt, s.out, rfl⟩

/-- What placing an image leaves of its contexts, tables and regions (R120, R314, R316). -/
structure Placed (s : State) (img : List Byte) (t : State) : Prop where
  manifest : t.job.manifest = some (manifestOf img)
  step : t.job.step = (manifestOf img).step0
  steps : t.job.l = (manifestOf img).l0
  side : t.mem.side = (manifestOf img).side0
  regions : t.mem.regions = (imageRegions img).zipIdx.map fun r => r.1.placed (liveChannels s).length r.2
  groups : t.upd.groups = imageGroups img
  comms : t.coll.comms = imageComms img
  cores : ∀ c : CoreId, (t.core c).segments = coreSegments img c.val ∧ (t.core c).running = none
  sec : t.sec = s.sec

theorem configure_core (s : State) (img : List Byte) (c : CoreId) :
    ((configure s img).core c).segments = coreSegments img c.val ∧ ((configure s img).core c).running = none := by
  have hcore : (configure s img).core c = { Core.release s.cores[c] with segments := coreSegments img c.val } :=
    Vector.getElem_ofFn ..
  rw [hcore]
  exact ⟨rfl, rfl⟩

theorem configure_sec (s : State) (img : List Byte) : (configure s img).sec = s.sec := by unfold configure; rfl

theorem configure_placed (s : State) (img : List Byte) : Placed s img (configure s img) where
  manifest := rfl
  step := rfl
  steps := rfl
  side := rfl
  regions := rfl
  groups := rfl
  comms := rfl
  cores := configure_core s img
  sec := configure_sec s img

/-- Writing HBM leaves what placing has brought. -/
theorem Placed.hbm {s t u : State} {img : List Byte} (h : Placed s img t) (hu : HbmStep t u) : Placed s img u := by
  obtain ⟨⟨_, _, _, _, _, _, _, _, _, _, _, _, _, _, _, rfl⟩, -⟩ := hu
  exact { manifest := h.manifest, step := h.step, steps := h.steps, side := h.side, regions := h.regions, groups := h.groups,
          comms := h.comms, cores := h.cores, sec := h.sec }

theorem Placed.loaded {s t : State} {img : List Byte} (h : Placed s img t) :
    Placed s img { t with upd := { t.upd with fingers := [] }, hlk := { t.hlk with state := .loaded } } :=
  { manifest := h.manifest, step := h.step, steps := h.steps, side := h.side, regions := h.regions, groups := h.groups,
    comms := h.comms, cores := h.cores, sec := h.sec }

theorem place_placed (s : State) (img : List Byte) : Placed s img (place s img) :=
  ((configure_placed s img).hbm (putAll_hbm _ _)).loaded

theorem place_loaded (s : State) (img : List Byte) : (place s img).hlk.state = .loaded := rfl

theorem measure_placed {t : State} (h : Placed s img t) (type : Nat) (object : List Byte) (r : Fin 3) :
    ∃ c, measure t r type object = { t with sec := c } ∧ c.logSeq = s.sec.logSeq + 1 ∧ c.log.length = s.sec.log.length + 1 ∧
      ∀ x : Fin 3, x ≠ r → c.m[x] = s.sec.m[x] := by
  refine ⟨_, rfl, congrArg (·.logSeq + 1) h.sec, ?_, fun x hx => ?_⟩
  · rw [List.length_append, h.sec]; rfl
  · rw [← h.sec]; exact vmod_other _ _ _ _ (Ne.symm hx)

/-- A placed image is measured as object 0x21 of register 2 (R379); the other registers stay. -/
theorem measure_place (s : State) (img : List Byte) (t : State) (ht : Placed s img t) :
    ∃ c, measure t 2 0x21 img = { t with sec := c } ∧ c.logSeq = s.sec.logSeq + 1 ∧ c.log.length = s.sec.log.length + 1 ∧
      c.m[(0 : Fin 3)] = s.sec.m[(0 : Fin 3)] ∧ c.m[(1 : Fin 3)] = s.sec.m[(1 : Fin 3)] := by
  obtain ⟨c, e, hseq, hlog, hm⟩ := measure_placed ht 0x21 img 2
  exact ⟨c, e, hseq, hlog, hm 0 (by decide), hm 1 (by decide)⟩

/-! ## START (R307, R335) -/

/-- The module as it enters the start cinch: the descriptor has begun and the frequency is offered (R335). -/
def State.offering (s : State) (ring : RingId) (idx : W16) : State := updPwr (begun s ring idx) fun p => { p with fOffer := offerOf p }

theorem offering_fab (s : State) (ring : RingId) (idx : W16) : (s.offering ring idx).fab = s.fab := rfl

theorem start_enters {c : Comm} (hr : s.descReady ring idx 0x42 d) (hd : descCheck s ring d = none) (hc : commitComm s = some c)
    (hn : findCinch s c.idx = none)
    (hx : ∃ x ∈ (cinchFamily s c).1, ∀ q ∈ s.coll.earlyUps, cinchComm q = c.idx → cinchSeq q = c.cseq → cinchSender q ≠ x) :
    ∃ (t : State) (n : Cinch), exec (.start ring idx) s = .next t ∧ n ∈ t.coll.cinches ∧ n.comm = c.idx ∧ n.cseq = c.cseq ∧
      n.kind = .start ring idx ∧ n.record = { CinchRec.blank with minw := (offerOf s.pwr).zeroExtend 64 } ∧
      t.pwr = { s.pwr with fOffer := offerOf s.pwr } ∧ t.hlk.state = s.hlk.state ∧ t.mem = s.mem ∧ t.job = s.job := by
  obtain ⟨x, hxm, hup⟩ := hx
  obtain ⟨m, -, hm⟩ := Option.bind_eq_some_iff.1 hc
  have hcomm : commOf s c.idx = some c := commOf_idx hm
  obtain ⟨n, W, e, hin, hcm, hcs, hkind, hrec⟩ := cinchEnter_waits (s.offering ring idx) c
    (.start ring idx) { CinchRec.blank with minw := (offerOf s.pwr).zeroExtend 64 } none 0 hcomm hn x
    ((cinchFamily_of_fab (offering_fab s ring idx) c).symm ▸ hxm) hup
  have hstart : startCmd s ring idx = { s.offering ring idx with coll := W } := by
    simp only [startCmd, hc]
    exact e
  exact ⟨_, n, congrArg Host.Outcome.next ((runDesc_ready s ring idx 0x42 d _ hr hd).trans hstart), hin, hcm, hcs, hkind, hrec, rfl, rfl, rfl, rfl⟩

/-! ## TEARDOWN (R307, R379) -/

theorem exec_teardown (hr : s.descReady ring idx 0x43 d) (hc : descCheck s ring d = none) :
    exec (.teardown ring idx) s = .next (teardownCmd s ring idx) :=
  congrArg Host.Outcome.next (runDesc_ready s ring idx 0x43 d _ hr hc)

theorem quiesce_frame (s : State) : ∃ C k f, quiesce s = { s with
    cores := C
    clusters := k
    free := f
    coll := { s.coll with cinches := [], owed := [] }
    fab := { s.fab with sendQ := [] }
    job := { s.job with dispatching := false, quiescing := true } } := by
  obtain ⟨C, k, f, e⟩ := stopCores_frame s
  unfold quiesce
  rw [e]
  exact ⟨C, k, f, rfl⟩

/-- The module without its job: released, its measurement dropped, in NODISC. -/
def State.released (s : State) : State :=
  { updSec (releaseJob s) dropM2 with hlk := { (releaseJob s).hlk with state := .nodisc } }

theorem othersDone_quiesce (s : State) (ring : RingId) : othersDone (quiesce s) ring = othersDone s ring := by
  obtain ⟨C, k, f, e⟩ := quiesce_frame s
  rw [e]
  rfl

theorem teardownCmd_waits (h : othersDone s ring = false) : teardownCmd s ring idx = quiesce s :=
  if_neg (by rw [othersDone_quiesce, h]; exact Bool.false_ne_true)

theorem teardownCmd_releases (h : othersDone s ring = true) : teardownCmd s ring idx = (doneDesc (quiesce s) ring idx 0).released :=
  if_pos ((othersDone_quiesce s ring).trans h)

theorem released_core (s : State) (c : CoreId) : s.released.core c = (s.core c).release := Vector.getElem_map ..

theorem ended_of_status {d : Inflight} (h : d.status.isNone = false) : d.ended = d := if_neg (by simp [h])

theorem released_keeps (s : State) (ring : RingId) (d : Inflight) (hd : d ∈ s.hlk.rings[ring].inflight) (h : d.status.isNone = false) :
    d ∈ (s.released.hlk.rings[ring]).inflight := by
  have hring : s.released.hlk.rings[ring] = s.hlk.rings[ring].endActed := Vector.getElem_map ..
  rw [hring]
  exact List.mem_map.2 ⟨d, hd, ended_of_status h⟩

/-- What leaving a job keeps and clears outside the cores and the rings (R307). -/
structure Released (s t : State) : Prop where
  state : t.hlk.state = .nodisc
  job : t.job = Job.reset
  regions : t.mem.regions = []
  cells : t.mem.cells = s.mem.cells
  side : t.mem.side = s.mem.side
  drain : t.mem.drainPending = false
  groups : t.upd.groups = []
  comms : t.coll.comms = []
  cinches : t.coll.cinches = []
  sendQ : t.fab.sendQ = []
  fenced : t.fab.fenced = false
  routes : t.fab.routes = s.fab.routes
  measured : t.sec.m[(2 : Fin 3)] = 0
  log : t.sec.log = s.sec.log.filter fun e => byteAt e 0 ≠ 2
  running : ∀ c, (t.core c).running = none ∧ (t.core c).segments = []

theorem released_running (s : State) (c : CoreId) : (s.released.core c).running = none ∧ (s.released.core c).segments = [] := by
  rw [released_core]
  exact ⟨rfl, rfl⟩

theorem released_does (s : State) : Released s s.released where
  state := rfl
  job := rfl
  regions := rfl
  cells := rfl
  side := rfl
  drain := rfl
  groups := rfl
  comms := rfl
  cinches := rfl
  sendQ := rfl
  fenced := rfl
  routes := rfl
  measured := Vector.getElem_set_self ..
  log := rfl
  running := released_running s

theorem quiesce_descReady {op : Nat} (hr : s.descReady ring idx op d) : (quiesce s).descReady ring idx op d := by
  obtain ⟨C, k, f, e⟩ := quiesce_frame s
  rw [e]
  exact ⟨hr.found, hr.up, hr.starts⟩

theorem teardown_finishes (hr : s.descReady ring idx 0x43 d) :
    d.finish 0 0 0 0 ∈ ((doneDesc (quiesce s) ring idx 0).released.hlk.rings[ring]).inflight :=
  released_keeps _ ring _ (finishDesc_marks (quiesce_descReady hr) 0 0 0 0) rfl

theorem quiesce_frame_mem (s : State) : (quiesce s).mem = s.mem ∧ (quiesce s).fab.routes = s.fab.routes ∧ (quiesce s).sec = s.sec ∧
    (quiesce s).job.quiescing = true ∧ (quiesce s).job.dispatching = false := by
  obtain ⟨C, k, f, e⟩ := quiesce_frame s
  rw [e]
  exact ⟨rfl, rfl, rfl, rfl, rfl⟩

theorem Released.of_same {s u t : State} (h : Released u t) (hmem : u.mem = s.mem) (hroutes : u.fab.routes = s.fab.routes) (hsec : u.sec = s.sec) :
    Released s t :=
  { h with
    cells := h.cells.trans (congrArg Mem.cells hmem)
    side := h.side.trans (congrArg Mem.side hmem)
    routes := h.routes.trans hroutes
    log := h.log.trans (congrArg (fun c : Sec => c.log.filter fun e => byteAt e 0 ≠ 2) hsec) }

theorem doneDesc_same (s : State) (ring : RingId) (idx : W16) (b : Nat) :
    (doneDesc s ring idx b).mem = s.mem ∧ (doneDesc s ring idx b).fab.routes = s.fab.routes ∧ (doneDesc s ring idx b).sec = s.sec :=
  ⟨rfl, rfl, rfl⟩

theorem teardown_released (s : State) (ring : RingId) (idx : W16) : Released s (doneDesc (quiesce s) ring idx 0).released := by
  obtain ⟨hmem, hroutes, hsec, -, -⟩ := quiesce_frame_mem s
  obtain ⟨hmem', hroutes', hsec'⟩ := doneDesc_same (quiesce s) ring idx 0
  exact (released_does _).of_same (hmem'.trans hmem) (hroutes'.trans hroutes) (hsec'.trans hsec)

end

/-- Settles O54, by the branches of `load`, `startCmd` and `teardownCmd`: a refused image leaves the state but for the counts of `countPlans`, a
passing one is `Placed` and then measured. That a sealed block that fails refuses the image before any check of its format is the model's
choice (log entry 40), and that TEARDOWN clears the fenced bit and keeps routes and the bytes of HBM is log entry 51. -/
theorem jobCommands : Obligations.JobCommands := by
  unfold Obligations.JobCommands
  intro s ring idx d hc
  refine ⟨fun hr image => ⟨exec_load hr hc image true, fun i hi => ?_, fun hs => ⟨fun code item hf => ?_, fun hf => ?_⟩⟩,
    fun hr c hcm hn hx => start_enters hr hc hcm hn hx, fun hr => ⟨fun ho => ?_, fun ho => ?_⟩⟩
  · obtain ⟨c, hsec⟩ := fromHost_sec (linkGood s) none 0x41 d.len image
    exact ⟨_, (exec_load hr hc image false).trans (congrArg Host.Outcome.next (load_unsealed hi)), by rw [hsec]; exact ⟨rfl, rfl, rfl⟩⟩
  · obtain ⟨O, o, hcount⟩ := countPlans_frame (linkGood s) (padTo d.len 0 image) code item
    have he := load_refused (ring := ring) (idx := idx) (fromHost_plain (linkGood s) none 0x41 d.len image hs) hf
    rw [hcount] at he
    refine ⟨_, (exec_load hr hc image false).trans (congrArg Host.Outcome.next he), ?_⟩
    exact ⟨rfl, rfl, rfl, firstFail_le _ (code, item) hf⟩
  · have hp := place_placed (linkGood s) (padTo d.len 0 image)
    have hl := place_loaded (linkGood s) (padTo d.len 0 image)
    have he := load_placed (ring := ring) (idx := idx) (fromHost_plain (linkGood s) none 0x41 d.len image hs) hf
    generalize place (linkGood s) (padTo d.len 0 image) = t at hp hl he
    obtain ⟨c, hm, hseq, hlog, h0, h1⟩ := measure_place _ _ t hp
    rw [hm] at he
    exact ⟨_, (exec_load hr hc image false).trans (congrArg Host.Outcome.next he), hl, ⟨hp.manifest, hp.step, hp.steps, hp.side⟩, hp.regions, hp.groups,
      hp.comms, hp.cores, hseq, hlog, h0, h1⟩
  · obtain ⟨hcinches, hfab, hcores⟩ := quiesce_does s
    obtain ⟨hmem, -, -, hq, hdispatch⟩ := quiesce_frame_mem s
    exact ⟨_, (exec_teardown hr hc).trans (congrArg Host.Outcome.next (teardownCmd_waits ho)), hcinches, congrArg (·.sendQ) hfab, hq, hdispatch,
      fun c => (hcores c).1, hmem⟩
  · have h := teardown_released s ring idx
    exact ⟨_, (exec_teardown hr hc).trans (congrArg Host.Outcome.next (teardownCmd_releases ho)), h.state, h.job, h.regions, h.cells, h.side, h.drain,
      h.groups, h.comms, h.cinches, h.sendQ, h.fenced, h.routes, h.running, teardown_finishes hr, h.measured, h.log⟩

end Sys2Proof.Machine
end

section
/-! SUPPORT. The responses of MGMT (R309, R364, R381–R383, R422, R423, R433): what is served, what answers, what fits. -/

namespace Sys2Proof.Machine

/-! ## What a management request is answered (R309, R364, R381–R383, R422, R423, R433) -/

/-- Carry out an answer on the state whose request has been read. -/
def answerMgmt (s : State) (ring : RingId) (idx : W16) (d : Inflight) (failed : Option HostAccess) : Answer → State
  | .refuse st => finishDesc s ring idx st 0 0 0
  | .wait => s
  | .give n f => respondMgmt s ring idx d (failed == some .response) n f

/-- A response that fits is written at the response address, unless that write fails. -/
def State.replies (s : State) (ring : RingId) (idx : W16) (d : Inflight) (failed : Option HostAccess) (bs : List Byte) : State :=
  if failed = some .response then finishDesc s ring idx 0x000B 0 0 0
  else finishDesc { s with out := s.out ++ [.hostWrite (BitVec.ofNat 64 d.respAddr) bs] } ring idx 0 0 0 0

section
variable {s : State} {ring : RingId} {idx : W16} {d : Inflight} {request : List Byte} {failed : Option HostAccess} {sub : Nat}
  {f : State → List Byte → Answer}

theorem answer_give (hs : sealing s = false) (n : Nat) (g : State → State × List Byte) (hg : sealing (g s).1 = false) :
    answerMgmt s ring idx d failed (.give n g) =
      (if d.respRoom < n then finishDesc s ring idx 0x0001 0 (BitVec.ofNat 64 n) codeLength
       else (g s).1.replies ring idx d failed (g s).2) := by
  have hlen : hostLen s n = n := if_neg (by simp [hs])
  unfold answerMgmt respondMgmt
  dsimp only
  rw [hlen, toHost_plain _ _ _ _ hg]
  exact if_congr Iff.rfl rfl (if_congr beq_iff_eq rfl rfl)

theorem mgmt_of_ready (hr : s.descReady ring idx 0x30 d) (hc : descCheck s ring d = none) : mgmt s ring idx sub request failed f =
    (if d.sub ≠ sub then linkGood s else if (!mgmtServed (linkGood s) sub) = true then finishDesc (linkGood s) ring idx 0x0004 0 0 0
     else mgmt s ring idx sub request failed f) := by
  split
  · next h => exact (runDesc_ready s ring idx 0x30 d _ hr hc).trans (if_pos h)
  · next h =>
    split
    · next h' => exact (runDesc_ready s ring idx 0x30 d _ hr hc).trans ((if_neg h).trans (if_pos h'))
    · rfl

/-- A command of another subcommand does nothing. -/
theorem mgmt_other (hr : s.descReady ring idx 0x30 d) (hc : descCheck s ring d = none) (h : d.sub ≠ sub) :
    mgmt s ring idx sub request failed f = linkGood s := (mgmt_of_ready hr hc).trans (if_pos h)

theorem mgmt_unserved (hr : s.descReady ring idx 0x30 d) (hc : descCheck s ring d = none) (h : d.sub = sub) (hm : mgmtServed s sub = false) :
    mgmt s ring idx sub request failed f = finishDesc (linkGood s) ring idx 0x0004 0 0 0 :=
  (mgmt_of_ready hr hc).trans ((if_neg (not_not.2 h)).trans (if_pos (congrArg not hm)))

/-- A subcommand that is served outside confidential mode is answered once its request has been read. -/
theorem mgmt_answers (hr : s.descReady ring idx 0x30 d) (hc : descCheck s ring d = none) (hs : sealing s = false) (h : d.sub = sub)
    (hm : mgmtServed s sub = true) : mgmt s ring idx sub request failed f =
    (if failed = some .request then finishDesc (linkGood s) ring idx 0x000B 0 0 0
     else answerMgmt (linkGood s) ring idx d failed (f (linkGood s) (padTo d.reqLen 0 request))) := by
  have hserved : mgmtServed (linkGood s) sub = true := hm
  have hplain := fromHost_plain (linkGood s) none 0x30 d.reqLen request hs
  unfold mgmt
  rw [runDesc_ready s ring idx 0x30 d _ hr hc, if_pos (show hostOp 0x30 = true from rfl), if_neg (not_not.2 h), hserved,
    if_neg (show ¬ (!true) = true from nofun)]
  refine if_congr Iff.rfl rfl ?_
  simp only [hplain]
  cases f (linkGood s) (padTo d.reqLen 0 request) <;> rfl

theorem mgmtServed_up (h : s.hlk.state ≠ .minimal) (sub : Nat) : mgmtServed s sub = true :=
  if_neg (by simp [h])

/-- The identity and the boot report are served in every state (R422). -/
theorem mgmtServed_plain (h : sub = 1 ∨ sub = 5) : mgmtServed s sub = true := by
  unfold mgmtServed
  split
  · rcases h with rfl | rfl <;> rfl
  · rfl

theorem mgmtServed_dump (h : s.hlk.state = .minimal → s.sec.unlocked = true ∨ s.sec.conf = false) : mgmtServed s 4 = true := by
  by_cases hm : s.hlk.state = .minimal
  · rcases h hm with h | h <;> simp [mgmtServed, hm, h]
  · exact mgmtServed_up hm 4

theorem mgmtServed_minimal (h : s.hlk.state = .minimal) (hsub : sub = 2 ∨ sub = 3) : mgmtServed s sub = false := by
  unfold mgmtServed
  rw [h]
  rcases hsub with rfl | rfl <;> rfl

theorem mgmtServed_sealed (h : s.hlk.state = .minimal) (hu : s.sec.unlocked = false) (hc : s.sec.conf = true) : mgmtServed s 4 = false := by
  simp [mgmtServed, h, hu, hc]

/-! ## The answers -/

/-- A response of fixed bytes to a request of eight zero bytes. -/
theorem answer_report (hs : sealing s = false) (q : List Byte) (bytes : State → List Byte) :
    answerMgmt s ring idx d failed (if zeroRequest q then .give 128 fun t => (t, bytes t) else .refuse 0x0002) =
      (if q ≠ List.replicate 8 0 then finishDesc s ring idx 0x0002 0 0 0
       else if d.respRoom < 128 then finishDesc s ring idx 0x0001 0 (BitVec.ofNat 64 128) codeLength
       else s.replies ring idx d failed (bytes s)) := by
  by_cases hq : q = List.replicate 8 0
  · have hz : zeroRequest q = true := beq_iff_eq.2 hq
    rw [if_pos hz, if_neg (not_not.2 hq)]
    exact answer_give hs 128 (fun t => (t, bytes t)) hs
  · have hz : ¬ zeroRequest q = true := fun h => hq (beq_iff_eq.1 h)
    rw [if_neg hz, if_pos hq]
    rfl

theorem freeBytes_length (k n : Nat) : (freeBytes k n).length = n := by
  simp [freeBytes]

/-- Telemetry takes free bytes of the length the configuration gives. -/
theorem answer_telemetry (hs : sealing s = false) :
    answerMgmt s ring idx d failed (.give Config.telemetryLength fun t =>
        ({ t with free := t.free + Config.telemetryLength }, freeBytes t.free Config.telemetryLength)) =
      (if d.respRoom < Config.telemetryLength then finishDesc s ring idx 0x0001 0 (BitVec.ofNat 64 Config.telemetryLength) codeLength
       else { s with free := s.free + Config.telemetryLength }.replies ring idx d failed (freeBytes s.free Config.telemetryLength)) :=
  answer_give hs _ _ (by exact hs)

/-- A quote takes the next leaf and moves the reservation mark before it is used (R381). -/
theorem answer_quote (hs : sealing s = false) (q : List Byte) : let x := s.sec.leafNext
    let n := 5408 + 48 * s.sec.log.length
    answerMgmt s ring idx d failed (quoteAnswer s q) =
      (if q.length ≠ 32 then finishDesc s ring idx 0x0002 0 0 0
       else if 2 ^ 30 ≤ x then finishDesc s ring idx 0x0004 0 0 0
       else if s.sec.treeBuilt ≤ x / 2 ^ 15 then s
       else if d.respRoom < n then finishDesc s ring idx 0x0001 0 (BitVec.ofNat 64 n) codeLength
       else (signQuote q s).1.replies ring idx d failed (signQuote q s).2) := by
  intro x n
  unfold quoteAnswer
  rw [apply_ite (answerMgmt s ring idx d failed), apply_ite (answerMgmt s ring idx d failed), apply_ite (answerMgmt s ring idx d failed)]
  exact if_congr Iff.rfl rfl (if_congr Iff.rfl rfl (if_congr Iff.rfl rfl (answer_give hs n (signQuote q) hs)))

/-- A piece of a fault object, once the request names one within it (R364). -/
theorem answer_dump (hs : sealing s = false) (q : List Byte) : let o := leAt q 8 8
    let n := leAt q 16 4 + 1
    answerMgmt s ring idx d failed (dumpAnswer s q) =
      (if q.length ≠ 20 ∨ (q.drop 1).take 7 ≠ List.replicate 7 0 then finishDesc s ring idx 0x0002 0 0 0
       else match faultObject s (leAt q 0 1) with
         | none => finishDesc s ring idx 0x0002 0 0 0
         | some (size, bytes) => if size < o + n then finishDesc s ring idx 0x0002 0 0 0
           else if d.respRoom < n then finishDesc s ring idx 0x0001 0 (BitVec.ofNat 64 n) codeLength
           else s.replies ring idx d failed (bytes o n)) := by
  intro o n
  unfold dumpAnswer
  dsimp only
  rw [apply_ite (answerMgmt s ring idx d failed)]
  refine if_congr (by simp) rfl ?_
  cases faultObject s (leAt q 0 1) with
  | none => rfl
  | some x =>
    dsimp only
    rw [apply_ite (answerMgmt s ring idx d failed)]
    exact if_congr Iff.rfl rfl (answer_give hs n (fun t => (t, x.2 o n)) hs)

end

/-- Settles O55: each subcommand is `mgmt_answers` with its own answer, and `mgmt_unserved` or `mgmt_other` where it is not served or not named. That a
command of another subcommand does nothing is the model's choice (log entry 4). -/
theorem managementAnswers : Obligations.ManagementAnswers := by
  unfold Obligations.ManagementAnswers
  intro s ring idx d request failed hc hs hr g q reply read tooLong field
  have hg : sealing g = false := hs
  refine ⟨fun h => ?_, fun h => ?_, fun h hm => ?_, fun h hm => ?_, fun h hm => ?_, fun x hx h hm => ?_, fun h hm hu hcf => ?_, fun x hx h => ?_⟩
  · exact congrArg Host.Outcome.next ((mgmt_answers hr hc hs h (mgmtServed_plain (.inl rfl))).trans (if_congr Iff.rfl rfl (answer_report hg q identityBytes)))
  · exact congrArg Host.Outcome.next ((mgmt_answers hr hc hs h (mgmtServed_plain (.inr rfl))).trans (if_congr Iff.rfl rfl (answer_report hg q bootBytes)))
  · refine ⟨freeBytes s.free Config.telemetryLength, ?_, ?_⟩
    · exact freeBytes_length s.free Config.telemetryLength
    · rw [freeBytes_length s.free Config.telemetryLength]
      exact congrArg Host.Outcome.next ((mgmt_answers hr hc hs h (mgmtServed_up hm 2)).trans (if_congr Iff.rfl rfl (answer_telemetry hg)))
  · exact congrArg Host.Outcome.next ((mgmt_answers hr hc hs h (mgmtServed_up hm 3)).trans (if_congr Iff.rfl rfl (answer_quote hg q)))
  · intro o n
    exact congrArg Host.Outcome.next ((mgmt_answers hr hc hs h (mgmtServed_dump hm)).trans (if_congr Iff.rfl rfl (answer_dump hg q)))
  · simp only [List.mem_cons, List.not_mem_nil, or_false] at hx
    rcases hx with rfl | rfl
    · exact congrArg Host.Outcome.next (mgmt_unserved hr hc h (mgmtServed_minimal hm (.inl rfl)))
    · exact congrArg Host.Outcome.next (mgmt_unserved hr hc h (mgmtServed_minimal hm (.inr rfl)))
  · exact congrArg Host.Outcome.next (mgmt_unserved hr hc h (mgmtServed_sealed hm hu hcf))
  · simp only [List.mem_cons, List.not_mem_nil, or_false] at hx
    rcases hx with rfl | rfl | rfl | rfl | rfl <;> exact congrArg Host.Outcome.next (mgmt_other hr hc h)

end Sys2Proof.Machine
end

section
/-! SUPPORT. Trips, parity errors, wedging, the end of a dump and burnish slices (R330, R348, R355–R364, R441). -/

namespace Sys2Proof.Machine

/-! ## Trips (R330) -/

section
variable {s t : State} {code : W16} {cause : Byte}

/-- The fatal path stays taken after an event more. -/
theorem fatalOf_raised (h : s.fatalOf t code cause) (n : Nat) : s.fatalOf (raiseOpen t n) code cause := by
  obtain ⟨k, o, e⟩ := raiseOpen_frame t n
  obtain ⟨hleases, hqueue, hwaiting, hout⟩ := h.leases
  rw [e]
  exact ⟨⟨h.logged.placed, h.logged.counted⟩, h.dump, h.stopped, h.halted,
    ⟨hleases, hqueue, hwaiting, fun l hl => List.mem_append_left o (hout l hl)⟩, h.cinches⟩

/-- A tripped module, before the fatal path: dark, with the group that tripped. -/
def State.tripped (s : State) (g : BitVec 3) : State := updPwr (darken s) fun p => { p with trip := g, tripPending := true }

theorem tripped_lanes (s : State) (g : BitVec 3) (l : LaneId) :
    ((s.tripped g).opt.lanes[l]).txActive = false ∧ ((s.tripped g).opt.lanes[l]).rxActive = false := by
  have hlane : (s.tripped g).opt.lanes[l] = { s.opt.lanes[l] with txActive := false, rxActive := false, pilotX := 0, pilotY := 0 } :=
    Vector.getElem_map ..
  rw [hlane]
  exact ⟨rfl, rfl⟩

theorem tripped_ports (s : State) (g : BitVec 3) (p : PortId) : ((s.tripped g).fab.ports[p]).up = false := by
  have hport : (s.tripped g).fab.ports[p] = { s.fab.ports[p] with up := false } := Vector.getElem_map ..
  rw [hport]

theorem trip_does (s : State) (g : BitVec 3) (hd : s.flt.dumping = false) : ∃ t, exec (.thermalTrip g) s = .next t ∧
    s.fatalOf t codeThermalTrip (g.zeroExtend 8) ∧ t.pwr = { s.pwr with trip := g, tripPending := true } ∧
    t.inp = { s.inp with clocksStopped := true, tripN := true } ∧ t.opt.spareLit = false ∧
    (∀ l : LaneId, (t.opt.lanes[l]).txActive = false ∧ (t.opt.lanes[l]).rxActive = false) ∧ (∀ p : PortId, (t.fab.ports[p]).up = false) ∧
    t.mem = { s.mem with selfRefresh := true, waiting := [] } := by
  have hfatal := fatalOf_raised (fatalOf_of (s := s) (fatal_fatalOf (s.tripped g) codeThermalTrip (g.zeroExtend 8) false hd) rfl rfl rfl
    fun l hl => ⟨l, hl, rfl, rfl, rfl⟩) 0x09
  obtain ⟨hpwr, hinp, hopt, hfab, hmem, -, -⟩ := fatal_frame (s.tripped g) codeThermalTrip (g.zeroExtend 8) false hd
  refine ⟨raiseOpen (fatal (s.tripped g) codeThermalTrip (g.zeroExtend 8) false) 0x09, rfl, hfatal, ?_⟩
  obtain ⟨k, o, e⟩ := raiseOpen_frame (fatal (s.tripped g) codeThermalTrip (g.zeroExtend 8) false) 0x09
  rw [e]
  refine ⟨hpwr, hinp, congrArg Optics.spareLit hopt, fun l => ?_, fun p => ?_, hmem⟩
  · exact hopt ▸ tripped_lanes s g l
  · exact hfab ▸ tripped_ports s g p

end

/-! ## Parity in data (R348) -/

/-- A parity error in data is counted for its unit. -/
def State.parityCounted (s : State) (n : Fin 9) : State :=
  { s with flt := { s.flt with dataParity := s.flt.dataParity + 1, parityUnits := s.flt.parityUnits.set n (s.flt.parityUnits[n] + 1) } }

theorem mem_putLines (l : List Nat) (acc : List Nat) (x : Nat) : x ∈ l.foldl (fun l n => setPut n l) acc ↔ x ∈ l ∨ x ∈ acc := by
  induction l generalizing acc with
  | nil => simp
  | cons a l ih =>
    rw [List.foldl_cons, ih, mem_setPut, List.mem_cons]
    tauto

theorem mem_putUndos (l : List Undo) (acc : List Nat) (x : Nat) :
    x ∈ l.foldl (fun l u => (linesOf u.addr u.old.length).foldl (fun l n => setPut n l) l) acc ↔
      (∃ u ∈ l, x ∈ linesOf u.addr u.old.length) ∨ x ∈ acc := by
  induction l generalizing acc with
  | nil => simp
  | cons u l ih =>
    rw [List.foldl_cons, ih, mem_putLines, List.exists_mem_cons_iff, or_left_comm, or_assoc]

/-- What an operation of the unit has not written yet becomes poisoned: the lines still to come, and its beats that nothing has sampled. -/
theorem poisonPipe_lines (k : Core) (n : Nat) (w : Window) (hw : w ∈ k.exec.windows) (hn : w.unit = n) (x : Undo) (hx : x ∈ w.writes)
    (hc : k.exec.cycle ≤ x.cycle) (line : Nat) (hl : line ∈ linesOf x.addr x.old.length) : line ∈ (k.poisonPipe n).spadPoison := by
  have hwin : w ∈ k.exec.windows.filter (·.unit == n) := List.mem_filter.2 ⟨hw, beq_iff_eq.2 hn⟩
  have hundo : x ∈ w.writes.filter fun x => k.exec.cycle ≤ x.cycle := List.mem_filter.2 ⟨hx, decide_eq_true hc⟩
  exact (mem_putUndos _ _ _).2 (.inl ⟨x, List.mem_flatMap.2 ⟨w, hwin, hundo⟩, hl⟩)

theorem poisonPipe_beats (k : Core) (n : Nat) (w : Window) (hw : w ∈ k.exec.windows) (hn : w.unit = n) (b : Train) (hb : b ∈ k.exec.trains)
    (hs : b.sampled = false) (hp : b.producer = w.index) : { b with poison := true } ∈ (k.poisonPipe n).exec.trains := by
  have hwin : w ∈ k.exec.windows.filter (·.unit == n) := List.mem_filter.2 ⟨hw, beq_iff_eq.2 hn⟩
  have hany : ((k.exec.windows.filter (·.unit == n)).any fun w => w.index == b.producer) = true :=
    List.any_eq_true.2 ⟨w, hwin, beq_iff_eq.2 hp.symm⟩
  exact List.mem_map.2 ⟨b, hb, if_pos (by rw [hs, hany]; rfl)⟩

theorem getElem?_modifyAt {α : Type} (l : List α) (i : Nat) (f : α → α) (a : α) (h : l[i]? = some a) : (modifyAt l i f)[i]? = some (f a) := by
  have hi : i < l.length := (List.getElem?_eq_some_iff.1 h).1
  simp only [modifyAt, h]
  exact List.getElem?_set_self hi

/-- The line of a write-combining entry, or of HBM where none holds it, becomes poisoned; no byte changes. -/
theorem poisonBuffer_does (s : State) (a : Nat) :
    linePoison (poisonBuffer s a) (keyOf s a / 64) = true ∧ (poisonBuffer s a).mem.cells = s.mem.cells ∧
      poisonBuffer s a = { s with mem := (poisonBuffer s a).mem } := by
  unfold poisonBuffer
  dsimp only
  split
  · next h =>
    refine ⟨?_, rfl, rfl⟩
    obtain ⟨e, he, hline⟩ := List.any_eq_true.1 h
    refine Bool.or_eq_true_iff.2 (.inr (List.any_eq_true.2 ⟨_, Vector.mem_toList_iff.2 (Vector.getElem_mem (ctrlOf s a).isLt), ?_⟩))
    rw [show (vmod s.mem.wcb (ctrlOf s a) _)[(ctrlOf s a).val] = _ from vmod_same _ _ _]
    exact List.any_eq_true.2 ⟨_, List.mem_map.2 ⟨e, he, if_pos hline⟩, by simp [beq_iff_eq.1 hline]⟩
  · next h =>
    refine ⟨?_, rfl, rfl⟩
    exact Bool.or_eq_true_iff.2 (.inl ((contains_setPut _ _ _).2 (.inl rfl)))

/-! ## Parity in control (R348, R359) -/

/-- A router that a control error hits is dead. -/
def State.routerHit (s : State) (place : ControlPlace) : State :=
  if place = .router then { s with fab := { s.fab with routerDead := true } } else s

theorem routerHit_frame (s : State) (place : ControlPlace) : ∃ f, s.routerHit place = { s with fab := f } ∧
    f = (if place = .router then { s.fab with routerDead := true } else s.fab) := by
  unfold State.routerHit
  split
  · exact ⟨_, rfl, rfl⟩
  · exact ⟨_, rfl, rfl⟩

theorem control_does (s : State) (unit : Byte) (place : ControlPlace) (hd : s.flt.dumping = false) :
    ∃ t, exec (.parityError (.control unit place)) s = .next t ∧ s.fatalOf t codeControlParity unit ∧ t.flt.dataParity = s.flt.dataParity ∧
      t.flt.parityUnits = s.flt.parityUnits ∧ t.fab = (if place = .router then { s.fab with routerDead := true } else s.fab) := by
  refine ⟨fatal (s.routerHit place) codeControlParity unit (place == .memoryController), rfl, ?_⟩
  obtain ⟨f, e, hf⟩ := routerHit_frame s place
  rw [e]
  obtain ⟨-, -, -, hfab, -, hdata, hunits⟩ := fatal_frame { s with fab := f } codeControlParity unit (place == .memoryController) hd
  exact ⟨fatalOf_of (fatal_fatalOf _ codeControlParity unit _ hd) rfl rfl rfl fun l hl => ⟨l, hl, rfl, rfl, rfl⟩, hdata, hunits, hfab.trans hf⟩

/-! ## Wedging (R355, R359) -/

/-- A TEARDOWN in progress completes with WEDGED. -/
def Inflight.torn (d : Inflight) : Inflight := if d.status.isNone && isOpcode d 0x43 then d.finish 0x000D 0 0 0 else d

/-- An admin descriptor in progress ends with STATE where its dump begins. -/
def Inflight.adminEnded (d : Inflight) : Inflight :=
  if d.status.isNone && (isOpcode d 0x40 || isOpcode d 0x41) then d.finish 0x0004 0 0 0 else d

/-- Ring 0 with its TEARDOWN completed. -/
def State.tornRing (s : State) : State := updRing s 0 fun q => { q with inflight := q.inflight.map Inflight.torn }

theorem wedge_ring (s : State) (r : RingId) : (wedge s).hlk.rings[r] = ((s.tornRing.hlk.rings[r]).endAdmin).endActed := by
  have hring : ∀ v : Vector Ring 16, ((v.map Ring.endAdmin).map Ring.endActed)[r] = v[r].endAdmin.endActed := fun v => by
    simp
  exact hring _

theorem endRing_inflight (q : Ring) : q.endAdmin.endActed.inflight = q.inflight.map fun d => d.adminEnded.ended := by
  simp only [Ring.endActed, Ring.endAdmin, List.map_map]
  rfl

theorem wedge_inflight_zero (s : State) :
    ((wedge s).hlk.rings[(0 : RingId)]).inflight = (s.hlk.rings[(0 : RingId)]).inflight.map fun d => d.torn.adminEnded.ended := by
  have hzero : (s.tornRing.hlk.rings[(0 : RingId)]).inflight = (s.hlk.rings[(0 : RingId)]).inflight.map Inflight.torn :=
    congrArg Ring.inflight (updRing_at s 0 _)
  rw [wedge_ring, endRing_inflight, hzero, List.map_map]
  rfl

theorem wedge_inflight_other (s : State) (r : RingId) (h : r ≠ 0) :
    ((wedge s).hlk.rings[r]).inflight = (s.hlk.rings[r]).inflight.map fun d => d.adminEnded.ended := by
  have hother : s.tornRing.hlk.rings[r] = s.hlk.rings[r] := vmod_other _ _ _ _ (Ne.symm h)
  rw [wedge_ring, endRing_inflight, hother]

theorem isOpcode_unique {d : Inflight} {a b : Nat} (h : isOpcode d a = true) (hab : a ≠ b) : isOpcode d b = false := by
  have ha : (byteAt d.bytes 0).toNat = a := beq_iff_eq.1 h
  exact beq_false_of_ne (ha ▸ hab)

theorem wedge_teardown (s : State) (d : Inflight) (hd : d ∈ (s.hlk.rings[(0 : RingId)]).inflight) (hs : d.status = none)
    (ho : isOpcode d 0x43 = true) : d.finish 0x000D 0 0 0 ∈ ((wedge s).hlk.rings[(0 : RingId)]).inflight := by
  rw [wedge_inflight_zero]
  refine List.mem_map.2 ⟨d, hd, ?_⟩
  have htorn : d.torn = d.finish 0x000D 0 0 0 := if_pos (by rw [hs, ho]; rfl)
  rw [htorn]
  rfl

theorem wedge_begun (s : State) (r : RingId) (d : Inflight) (hd : d ∈ (s.hlk.rings[r]).inflight) (hs : d.status = none) (ha : d.acted = true)
    (ho : isOpcode d 0x42 = true ∨ isOpcode d 0x20 = true) : d.finish 0x0004 0 0 0 ∈ ((wedge s).hlk.rings[r]).inflight := by
  have hother : ∀ op, op ≠ 0x42 → op ≠ 0x20 → isOpcode d op = false := fun op h1 h2 =>
    ho.elim (fun h => isOpcode_unique h (Ne.symm h1)) fun h => isOpcode_unique h (Ne.symm h2)
  have htorn : d.torn = d := if_neg (by simp [hother 0x43 (by decide) (by decide)])
  have hadmin : d.adminEnded = d :=
    if_neg (by simp [hother 0x40 (by decide) (by decide), hother 0x41 (by decide) (by decide)])
  have hended : d.ended = d.finish 0x0004 0 0 0 := if_pos (by simpa [hs, ha] using ho)
  by_cases hr : r = 0
  · subst hr
    rw [wedge_inflight_zero]
    exact List.mem_map.2 ⟨d, hd, by rw [htorn, hadmin, hended]⟩
  · rw [wedge_inflight_other s r hr]
    exact List.mem_map.2 ⟨d, hd, by rw [hadmin, hended]⟩

/-- A dump in progress is dropped and counted before a management processor's fatal (R359). -/
def State.dumpDropped (s : State) : State :=
  if s.flt.dumping then updFlt s fun f => { f with fatalDropped := bump f.fatalDropped, dumping := false } else s

theorem dumpDropped_frame (s : State) : ∃ f, s.dumpDropped = { s with flt := f } ∧ f.dumping = false ∧ f.log = s.flt.log := by
  unfold State.dumpDropped
  split
  · exact ⟨_, rfl, rfl, rfl⟩
  · next h => exact ⟨s.flt, rfl, Bool.eq_false_iff.2 h, rfl⟩

theorem watchdog_does (s : State) : ∃ t, exec .watchdogExpiry s = .next t ∧ t.hlk.state = .wedged ∧ t.coll.cinches = [] ∧ t.upd.leases = [] ∧
    t.job.dispatching = false ∧ t.flt.dumping = false ∧ t.flt.log = s.flt.log ∧ (∀ c, (t.core c).running = none) ∧
    t.mem = { s.mem with waiting := [] } ∧
    (∀ d ∈ (s.hlk.rings[(0 : RingId)]).inflight, d.status = none → isOpcode d 0x43 = true →
      d.finish 0x000D 0 0 0 ∈ (t.hlk.rings[(0 : RingId)]).inflight) ∧
    (∀ (ring : RingId), ∀ d ∈ (s.hlk.rings[ring]).inflight, d.status = none → d.acted = true → isOpcode d 0x42 = true ∨ isOpcode d 0x20 = true →
      d.finish 0x0004 0 0 0 ∈ (t.hlk.rings[ring]).inflight) := by
  obtain ⟨f, e, hdump, hlog⟩ := dumpDropped_frame s
  refine ⟨wedge (fatalStop s.dumpDropped), rfl, ?_⟩
  rw [e]
  obtain ⟨C, k, fr, j, c, estop, -, -, hc, hcores⟩ := fatalStop_does { s with flt := f }
  have hrunning : ∀ x, ((fatalStop { s with flt := f }).core x).running = none := fun x => (hcores x).1
  have hteardown := wedge_teardown (fatalStop { s with flt := f })
  have hbegun := wedge_begun (fatalStop { s with flt := f })
  rw [estop] at hrunning hteardown hbegun ⊢
  exact ⟨rfl, congrArg Coll.cinches hc, rfl, rfl, hdump, hlog, hrunning, rfl, hteardown, hbegun⟩

theorem quiesceTimeout_wedges (s : State)
    (h : (s.job.aborting = true ∧ s.hlk.state = .running ∧ s.job.entered = false) ∨ s.job.quiescing = true) :
    ∃ t, exec .quiesceTimeout s = .next t ∧ t.hlk.state = .wedged ∧ t.job.dispatching = false ∧
      s.logs t { Record.blank with code := codeFirmware, cause := 0xFF, source := 5, step := s.job.step } ∧ t.mem = s.mem ∧ t.cores = s.cores := by
  have hlog := logRecord_logs s { Record.blank with code := codeFirmware, cause := 0xFF, source := 5, step := s.job.step }
  obtain ⟨f, k, o, e⟩ := logRecord_frame s { Record.blank with code := codeFirmware, cause := 0xFF, source := 5, step := s.job.step }
  have hcond : ((s.job.aborting && s.hlk.state == .running && !s.job.entered) || s.job.quiescing) = true := by
    rcases h with ⟨ha, hr, he⟩ | hq
    · simp [ha, hr, he]
    · simp [hq]
  refine ⟨_, congrArg Host.Outcome.next (if_pos hcond), rfl, rfl, ?_⟩
  rw [e] at hlog ⊢
  exact ⟨⟨hlog.placed, hlog.counted⟩, rfl, rfl⟩

theorem quiesceTimeout_stays (s : State) (h : s.job.aborting = false ∨ s.hlk.state ≠ .running ∨ s.job.entered = true)
    (hq : s.job.quiescing = false) : exec .quiesceTimeout s = .next s := by
  refine congrArg Host.Outcome.next (if_neg ?_)
  rw [hq]
  rcases h with h | h | h <;> simp [h]

/-! ## The end of a dump (R359, R364) -/

/-- The finished dump is valid, and shown to the host where it is for the host. -/
def State.dumpShown (s : State) : State :=
  let u := updFlt s fun f => { f with dumping := false, dumpValid := true }
  if s.flt.dumpDest = 1 then u.say (.hostWrite s.flt.dumpHostBase (dumpRead u 0 0x5800000)) else u

theorem dumpShown_frame (s : State) : ∃ o, s.dumpShown = { s with flt := { s.flt with dumping := false, dumpValid := true }, out := o } ∧
    (s.flt.dumpDest ≠ 1 → o = s.out) ∧ (s.flt.dumpDest = 1 → ∃ bs, o = s.out ++ [.hostWrite s.flt.dumpHostBase bs]) := by
  unfold State.dumpShown
  dsimp only
  split
  · next h => exact ⟨_, rfl, fun hn => absurd h hn, fun _ => ⟨_, rfl⟩⟩
  · next h => exact ⟨s.out, rfl, fun _ => rfl, fun hn => absurd hn h⟩

/-- The module stops once its dump is written, unless it serves management only. -/
def State.stopsAfterDump (s : State) : State :=
  { s with
    hlk := { s.hlk with state := if s.hlk.state == .minimal || s.hlk.state == .wedged then s.hlk.state else .stopped }
    job := { s.job with quiescing := false } }

theorem dumpWritten_does (s : State) (h : s.flt.dumping = true) :
    ∃ t, exec .dumpWritten s = .next t ∧ t.flt = { s.flt with dumping := false, dumpValid := true } ∧
      (s.hlk.state ≠ .minimal → s.hlk.state ≠ .wedged → t.hlk.state = .stopped) ∧ t.job = { s.job with quiescing := false } ∧ t.mem = s.mem ∧
      (s.flt.dumpDest ≠ 1 → t.out = s.out) ∧ (s.flt.dumpDest = 1 → ∃ bs, t.out = s.out ++ [.hostWrite s.flt.dumpHostBase bs]) := by
  obtain ⟨o, e, hquiet, hshown⟩ := dumpShown_frame s
  have hrun : exec .dumpWritten s = .next s.dumpShown.stopsAfterDump := congrArg Host.Outcome.next (if_pos h)
  rw [e] at hrun
  exact ⟨_, hrun, rfl, fun hm hw => if_neg (by simp [hm, hw]), rfl, rfl, hquiet, hshown⟩

theorem dumpWritten_stays (s : State) (h : s.flt.dumping = false) : exec .dumpWritten s = .next s :=
  congrArg Host.Outcome.next (if_neg (by simp [h]))

/-! ## Burnish slices (R356, R358) -/

section
variable {s : State} {c : CoreId}

/-- A core whose slice has ended; the work that became ready during it is counted as delayed. -/
def State.sliceOver (s : State) (c : CoreId) : State :=
  { s.updCore c (fun k => { k with sliceOn := false, status := 0 }) with
    flt := { s.flt with burnishDelay := s.flt.burnishDelay + BitVec.ofNat 64 ((readySegments s c).length + (readyUpdates s c).length) } }

theorem sliceEnd_idle (h : (s.core c).sliceOn = false) (b : Bool) : exec (.burnishSliceEnd c b) s = .next s :=
  congrArg Host.Outcome.next (if_neg (by simp [h]))

theorem sliceEnd_mismatch (h : (s.core c).sliceOn = true) (hr : (s.core c).sliceRerun = false) :
    exec (.burnishSliceEnd c true) s = .next ((s.sliceOver c).updCore c fun k => { k with sliceRerun := true }) :=
  congrArg Host.Outcome.next ((if_pos h).trans ((if_pos rfl).trans (if_neg (by simp [hr]))))

theorem sliceEnd_match (h : (s.core c).sliceOn = true) (hr : (s.core c).sliceRerun = false) : exec (.burnishSliceEnd c false) s =
    .next ((s.sliceOver c).updCore c fun k => { k with sliceRerun := false, slicePattern := (k.slicePattern + 1) % 1024 }) :=
  congrArg Host.Outcome.next ((if_pos h).trans ((if_neg Bool.false_ne_true).trans (if_neg (by simp [hr]))))

theorem sliceEnd_transient (h : (s.core c).sliceOn = true) (hr : (s.core c).sliceRerun = true) : exec (.burnishSliceEnd c false) s =
    .next (updFlt ((s.sliceOver c).updCore c fun k => { k with sliceRerun := false, slicePattern := (k.slicePattern + 1) % 1024 })
      fun f => { f with transients := bump f.transients }) :=
  congrArg Host.Outcome.next ((if_pos h).trans ((if_neg Bool.false_ne_true).trans (if_pos hr)))

theorem sliceEnd_suspect (h : (s.core c).sliceOn = true) (hr : (s.core c).sliceRerun = true) :
    exec (.burnishSliceEnd c true) s = .next (markSuspect (s.sliceOver c) c) :=
  congrArg Host.Outcome.next ((if_pos h).trans ((if_pos rfl).trans (if_pos hr)))

end

theorem sliceOver_core (s : State) (c : CoreId) : (s.sliceOver c).core c = { s.core c with sliceOn := false, status := 0 } :=
  core_updCore_same s c _

theorem sliceTransient_does (s : State) (c : CoreId) (h : (s.core c).sliceOn = true) (hr : (s.core c).sliceRerun = true) :
    ∃ t, exec (.burnishSliceEnd c false) s = .next t ∧ t.flt.transients = s.flt.transients + 1 ∧ (t.core c).suspect = (s.core c).suspect ∧
      (t.core c).sliceRerun = false ∧ t.mem = s.mem ∧ t.job = s.job := by
  have hcore := core_updCore_same (s.sliceOver c) c fun k => { k with sliceRerun := false, slicePattern := (k.slicePattern + 1) % 1024 }
  refine ⟨_, sliceEnd_transient h hr, rfl, ?_, congrArg Core.sliceRerun hcore, rfl, rfl⟩
  refine (congrArg Core.suspect hcore).trans ?_
  rw [sliceOver_core]

/-- A core marked suspect, before its record: in the core map, and in flash with its pattern (R358, R439). -/
def State.marked (s : State) (c : CoreId) : State :=
  let p := (s.core c).phys.toNat
  let cl : Fin 8 := Fin.ofNat 8 (c.val / 8)
  let u := s.updCore c fun k => { k with suspect := true, sliceRerun := false }
  { u with
    clusters := vmod u.clusters cl fun k => { k with suspect := k.suspect ||| BitVec.ofNat 9 (2 ^ p) }
    boot := { u.boot with
      coreSuspect := u.boot.coreSuspect ++ [(cl, Fin.ofNat 9 p)]
      suspectPattern := u.boot.suspectPattern ++ [(cl, Fin.ofNat 9 p, (s.core c).slicePattern)] } }

def suspectRecord (s : State) (c : CoreId) : Record :=
  { Record.blank with code := codeSuspect, source := 5, core := some c, phys := (s.core c).phys, step := s.job.step }

theorem marked_core (s : State) (c : CoreId) : (s.marked c).core c = { s.core c with suspect := true, sliceRerun := false } :=
  core_updCore_same s c _

theorem markSuspect_does (s : State) (c : CoreId) : s.logs (markSuspect s c) (suspectRecord s c) ∧
    (markSuspect s c).core c = (s.marked c).core c ∧ (markSuspect s c).boot = (s.marked c).boot ∧ (markSuspect s c).mem = s.mem ∧
    (markSuspect s c).job = s.job := by
  have hlog := logRecord_logs (s.marked c) (suspectRecord s c)
  obtain ⟨f, k, o, e⟩ := logRecord_frame (s.marked c) (suspectRecord s c)
  have hmark : markSuspect s c = raiseCode (logRecord (s.marked c) (suspectRecord s c)) 0x0A codeSuspect := rfl
  rw [e] at hlog hmark
  obtain ⟨k', o', e'⟩ := raiseCode_frame { s.marked c with flt := f, hlk := k, out := (s.marked c).out ++ o } 0x0A codeSuspect
  rw [hmark, e']
  exact ⟨⟨hlog.placed, hlog.counted⟩, rfl, rfl, rfl, rfl⟩

theorem sliceSuspect_does (s : State) (c : CoreId) (h : (s.core c).sliceOn = true) (hr : (s.core c).sliceRerun = true) :
    ∃ t, exec (.burnishSliceEnd c true) s = .next t ∧ (t.core c).suspect = true ∧ (t.core c).sliceOn = false ∧
      t.boot.coreSuspect = s.boot.coreSuspect ++ [(Fin.ofNat 8 (c.val / 8), Fin.ofNat 9 (s.core c).phys.toNat)] ∧
      t.boot.suspectPattern = s.boot.suspectPattern ++ [(Fin.ofNat 8 (c.val / 8), Fin.ofNat 9 (s.core c).phys.toNat, (s.core c).slicePattern)] ∧
      s.logs t (suspectRecord s c) ∧ t.mem = s.mem ∧ t.job = s.job := by
  obtain ⟨hlog, hcore, hboot, hmem, hjob⟩ := markSuspect_does (s.sliceOver c) c
  have hk := sliceOver_core s c
  have hrecord : suspectRecord (s.sliceOver c) c = suspectRecord s c := by
    unfold suspectRecord
    rw [hk]
    rfl
  rw [hrecord] at hlog
  rw [marked_core, hk] at hcore
  refine ⟨_, sliceEnd_suspect h hr, congrArg Core.suspect hcore, congrArg Core.sliceOn hcore, ?_, ?_, ⟨hlog.placed, hlog.counted⟩, hmem, hjob⟩
  · refine (congrArg Boot.coreSuspect hboot).trans ?_
    unfold State.marked
    rw [hk]
    rfl
  · refine (congrArg Boot.suspectPattern hboot).trans ?_
    unfold State.marked
    rw [hk]
    rfl

/-! ## The flags of R441 -/

theorem onRails_lit {s : State} (h : s.inp.rails = true) (f : State → State) : s.onRails f = f s.unlatch := if_pos h

theorem onRails_dark {s : State} (h : s.inp.rails = false) (f : State → State) : s.onRails f = s.unlatch := if_neg (by simp [h])

/-- Settles O57: a trip and a control error are `fatal_fatalOf` from a darkened module or a dead router; a data error is its place's own
poisoning; `wedge_teardown` and `wedge_begun` say what wedging completes. The model's choices: the core a slice starts on and its pattern number (log
entry 53), the train of a link that a beat's error poisons (54), and the places that an error of a row or of a pipeline marks (127). -/
theorem faultsContained : Obligations.FaultsContained := by
  unfold Obligations.FaultsContained
  intro s
  refine ⟨fun g hd => trip_does s g hd, ?_, fun unit place hd => control_does s unit place hd, watchdog_does s, quiesceTimeout_wedges s,
    quiesceTimeout_stays s, dumpWritten_does s, dumpWritten_stays s, fun c => ?_, fun c hr => ⟨?_, ?_⟩, fun c b hr => ?_, rfl⟩
  · intro u
    refine ⟨fun c a => rfl, fun c e v => rfl, fun c l => rfl, fun c h line => rfl, fun c n => ?_, fun i l q hq => ?_, fun i l p hp => ?_, fun a => ?_⟩
    · intro k
      have hcore : ((u 4).updCore c (·.poisonPipe n.val)).core c = k.poisonPipe n.val := core_updCore_same (u 4) c _
      refine ⟨(u 4).updCore c (·.poisonPipe n.val), rfl, rfl, fun w hw hn => ⟨fun x hx hc line hl => ?_, fun b hb hs hp => ?_⟩⟩
      · rw [hcore]
        exact poisonPipe_lines k n.val w hw hn x hx hc line hl
      · rw [hcore]
        exact poisonPipe_beats k n.val w hw hn b hb hs hp
    · exact ⟨_, rfl, getElem?_modifyAt _ i _ q hq, rfl⟩
    · exact ⟨_, rfl, getElem?_modifyAt _ i _ p hp, rfl⟩
    · intro line
      obtain ⟨hpoison, hcells, hframe⟩ := poisonBuffer_does (u 7) a.toNat
      refine ⟨poisonBuffer (u 7) a.toNat, rfl, ?_, hpoison, hcells, ?_⟩
      · rw [hframe]
      · rw [hframe]
  · intro k waits v
    exact ⟨fun h => congrArg Host.Outcome.next (if_pos h), fun h => congrArg Host.Outcome.next (if_neg h), fun b h => sliceEnd_idle h b,
      fun h hr => ⟨sliceEnd_mismatch h hr, sliceEnd_match h hr⟩, fun h hr => ⟨sliceTransient_does s c h hr, sliceSuspect_does s c h hr⟩⟩
  · exact congrArg Host.Outcome.next (onRails_lit hr _)
  · exact congrArg Host.Outcome.next (onRails_lit hr _)
  · exact congrArg Host.Outcome.next (onRails_dark hr _)

end Sys2Proof.Machine
end

section
/-! SUPPORT. The module's input, the power-fail sequence, RESET_N and the management endpoint (R391, R394–R402). -/

namespace Sys2Proof.Machine

/-! ## The power-fail sequence (R396, R401) -/

/-- The module with its job side dark: streams stopped, admin descriptors ended (R396). -/
def State.darkened (s : State) : State := endAdmin (darken (stopCores s))

theorem darkened_frame (s : State) : ∃ C k f R d b, s.darkened = { darken s with
    cores := C
    clusters := k
    free := f
    hlk := { s.hlk with rings := R }
    disc := d
    boot := { s.boot with stage := b } } ∧ ∀ c, (s.darkened.core c).running = none := by
  have hhalt := stopCores_halted s
  obtain ⟨C, k, f, e⟩ := stopCores_frame s
  unfold State.darkened
  rw [e] at hhalt ⊢
  exact ⟨C, k, f, _, _, _, rfl, fun c => (hhalt c).running⟩

theorem darken_lanes (s : State) (l : LaneId) : ((darken s).opt.lanes[l]).txActive = false ∧ ((darken s).opt.lanes[l]).rxActive = false := by
  have hlane : (darken s).opt.lanes[l] = { s.opt.lanes[l] with txActive := false, rxActive := false, pilotX := 0, pilotY := 0 } :=
    Vector.getElem_map ..
  rw [hlane]
  exact ⟨rfl, rfl⟩

theorem stopState_running {st : JobState} (hm : st ≠ .minimal) (hw : st ≠ .wedged) : stopState st = .stopped :=
  if_neg (by simp [hm, hw])

/-- The job side has failed for want of power: the state, the cause and the record that waits for flash. -/
def State.powerFailed (s : State) (cause : Byte) : State :=
  { s with
    hlk := { s.hlk with state := stopState s.hlk.state }
    job := { s.job with dispatching := false }
    boot := { s.boot with powerCause := cause }
    inp := { s.inp with powerFail := true } }

theorem powerFails_runs (s : State) (within : Bool) (ha : s.inp.aux = true) (hp : s.inp.powerFail = false) :
    powerFails s within = (raiseOpen s.darkened 0x09).powerFailed (if within then s.inp.lastOpen else 1) := by
  unfold powerFails State.darkened
  rw [if_neg (by simp [ha, hp])]
  generalize raiseOpen (endAdmin (darken (stopCores s))) 0x09 = u
  rfl

theorem raiseOpen_state (s : State) (n : Nat) : (raiseOpen s n).hlk.state = s.hlk.state :=
  raiseEvent_state { s with free := s.free + 16 } n (freeBytes s.free 16)

theorem bulkUndervoltage_does (s : State) (within : Bool) (ha : s.inp.aux = true) (hp : s.inp.powerFail = false) :
    ∃ t, exec (.bulkUndervoltage within) s = .next t ∧
      t.inp = { s.inp with clocksStopped := true, tripN := true, powerFail := true } ∧ t.boot.powerCause = (if within then s.inp.lastOpen else 1) ∧
      (s.hlk.state ≠ .minimal → s.hlk.state ≠ .wedged → t.hlk.state = .stopped) ∧ t.job.dispatching = false ∧
      (∀ c, (t.core c).running = none) ∧ t.coll.cinches = [] ∧ t.opt.spareLit = false ∧
      (∀ l : LaneId, (t.opt.lanes[l]).txActive = false ∧ (t.opt.lanes[l]).rxActive = false) ∧
      Out.tripN ∈ t.out ∧ t.flt = s.flt ∧ t.mem = { s.mem with selfRefresh := true } := by
  refine ⟨_, congrArg Host.Outcome.next (powerFails_runs s within ha hp), ?_⟩
  obtain ⟨C, k, f, R, d, b, e, hcores⟩ := darkened_frame s
  have hstate := raiseOpen_state s.darkened 0x09
  obtain ⟨h, o, er⟩ := raiseOpen_frame s.darkened 0x09
  rw [er] at hstate ⊢
  rw [e] at hcores hstate ⊢
  have hs : h.state = s.hlk.state := hstate
  exact ⟨rfl, rfl, fun hm hw => (congrArg stopState hs).trans (stopState_running hm hw), rfl, hcores, rfl, rfl, darken_lanes s,
    List.mem_append_left o (List.mem_append_right _ (List.mem_singleton.2 rfl)), rfl, rfl⟩

/-- The state in which the power record is in flash, before a reset that waited for it. -/
def State.powerRecorded (s : State) : State :=
  { s with
    boot := { s.boot with
      powerRecord := padTo 32 0 (Config.powerRecord s.boot.powerCause.toNat s.job.step.toNat s.now.toNat s.inp.inputDv.toNat) }
    inp := { s.inp with powerFail := false, resetWaits := none } }

theorem recordWritten_none (s : State) (env : BootEnv) (hp : s.inp.powerFail = true) (hw : s.inp.resetWaits = none) :
    recordWritten s env = s.powerRecorded := by
  unfold recordWritten
  rw [if_pos hp, hw]
  rfl

theorem recordWritten_some (s : State) (env : BootEnv) (hp : s.inp.powerFail = true) {c : BitVec 3} (hw : s.inp.resetWaits = some c) :
    recordWritten s env = fullReset s.powerRecorded c env := by
  unfold recordWritten
  rw [if_pos hp, hw]
  rfl

/-! ## RESET_N (R401) -/

section
variable {s : State}

theorem resetNAssert_holds (ha : s.inp.aux = true) (hl : s.inp.resetLow = false) (hp : s.inp.powerFail = false) :
    exec .resetNAssert s = .next (holdReset { s with inp := { s.inp with resetLow := true } } 1 false) :=
  congrArg Host.Outcome.next ((if_neg (by simp [ha, hl])).trans (if_neg (by simp [hp])))

theorem resetNAssert_waits (ha : s.inp.aux = true) (hl : s.inp.resetLow = false) (hp : s.inp.powerFail = true) :
    exec .resetNAssert s = .next (waitReset { s with inp := { s.inp with resetLow := true } } 1) :=
  congrArg Host.Outcome.next ((if_neg (by simp [ha, hl])).trans (if_pos hp))

theorem resetNAssert_stays (h : s.inp.aux = false ∨ s.inp.resetLow = true) : exec .resetNAssert s = .next s :=
  congrArg Host.Outcome.next (if_pos (by simpa using h))

theorem resetNRelease_boots (env : BootEnv) (hl : s.inp.resetLow = true) (ha : s.inp.aux = true) (hp : s.inp.powerFail = false)
    (hb : s.boot.stage = 0) : exec (.resetNRelease env) s = .next (boot env { s with inp := { s.inp with resetLow := false } }) :=
  congrArg Host.Outcome.next ((if_pos hl).trans (if_pos (by simp [ha, hp, hb])))

theorem resetNRelease_waits (env : BootEnv) (hl : s.inp.resetLow = true) (h : s.inp.aux = false ∨ s.inp.powerFail = true ∨ s.boot.stage ≠ 0) :
    exec (.resetNRelease env) s = .next { s with inp := { s.inp with resetLow := false } } := by
  refine congrArg Host.Outcome.next ((if_pos hl).trans (if_neg ?_))
  rcases h with h | h | h
  · simp [h]
  · simp [h]
  · rw [decide_eq_false h, Bool.and_false]
    exact Bool.false_ne_true

theorem resetNRelease_stays (env : BootEnv) (hl : s.inp.resetLow = false) : exec (.resetNRelease env) s = .next s :=
  congrArg Host.Outcome.next (if_neg (by simp [hl]))

/-! ## The management endpoint (R402) -/

theorem setdasa_does (ha : s.inp.aux = true) (d : BitVec 7) :
    exec (.setdasa s.inp.staticAddr d) s = .next { s with inp := { s.inp with dynAddr := some d } } :=
  congrArg Host.Outcome.next (if_pos (by simp [ha]))

theorem setdasa_stays {a : BitVec 7} (h : s.inp.aux = false ∨ a ≠ s.inp.staticAddr) (d : BitVec 7) : exec (.setdasa a d) s = .next s := by
  refine congrArg Host.Outcome.next (if_neg ?_)
  rcases h with h | h <;> simp [h]

theorem unpowered {f : State} (ha : s.inp.aux = false) : (if s.inp.aux = true then f else s) = s := if_neg (by simp [ha])

end

/-- Settles O58: the switch is the model's own equations; a low bulk node darkens the module and notes its cause; a record that is written lets the
reset go on that waited for it; what RESET_N holds is `holdReset`. -/
theorem moduleEvents : Obligations.ModuleEvents := by
  unfold Obligations.ModuleEvents
  intro s i opened
  refine ⟨rfl, rfl, rfl, rfl, ?_, fun within ha hp => bulkUndervoltage_does s within ha hp, fun within h => ?_, fun hp env => ?_, fun hp env => ?_,
    ⟨_, rfl, rfl, rfl, rfl, rfl, rfl, rfl, rfl, rfl, rfl, rfl, rfl, rfl, rfl, rfl⟩, fun ha hl hp => ?_, fun ha hl hp => resetNAssert_waits ha hl hp,
    resetNAssert_stays, fun env hl => ⟨fun ha hp hb => resetNRelease_boots env hl ha hp hb, fun h => resetNRelease_waits env hl h⟩,
    fun env hl => resetNRelease_stays env hl, fun a d eid => ⟨fun ha => ⟨setdasa_does ha d, ?_, ?_⟩, fun h => setdasa_stays (.inr h) d,
    fun ha => ⟨setdasa_stays (.inl ha) d, ?_, ?_⟩⟩⟩
  · by_cases h : i.overvolt = true
    · exact (congrArg (fun p => Host.Outcome.next { s with inp := p }) (if_pos h)).trans (congrArg Host.Outcome.next (if_pos h).symm)
    · exact (congrArg (fun p => Host.Outcome.next { s with inp := p }) (if_neg h)).trans (congrArg Host.Outcome.next (if_neg h).symm)
  · refine congrArg Host.Outcome.next (if_pos ?_)
    rcases h with h | h <;> simp [h, i]
  · intro w u
    cases hw : i.resetWaits with
    | none => exact congrArg Host.Outcome.next (recordWritten_none s env hp hw)
    | some c => exact congrArg Host.Outcome.next (recordWritten_some s env hp hw)
  · exact congrArg Host.Outcome.next (if_neg (by simp [hp, i]))
  · exact ⟨_, resetNAssert_holds ha hl hp, rfl, rfl, rfl, rfl, rfl, rfl, rfl, rfl, Bool.true_and _, rfl, rfl⟩
  · exact congrArg Host.Outcome.next (if_pos ha)
  · exact congrArg Host.Outcome.next (if_pos ha)
  · exact congrArg Host.Outcome.next (unpowered ha)
  · exact congrArg Host.Outcome.next (unpowered ha)

end Sys2Proof.Machine
end

section
/-! SUPPORT. Resets and boot (R377, R378, R401, R415–R424, R434–R437): the clean start, starts that fail, the sources of a reset, the mailbox. -/

namespace Sys2Proof.Machine

/-! ## A boot that finds nothing wrong (R418) -/

/-- What a start carries through its stages from the rails on: the rails, the keys and the flash it began with, and the state of its ring. -/
structure BootRun (s t : State) : Prop where
  kept : BootKept s t
  rails : t.inp.rails = true
  unlocked : t.sec.unlocked = s.sec.unlocked
  epoch : t.sec.epoch = s.sec.epoch

theorem BootRun.enter {s t : State} (h : BootRun s t) (env : BootEnv) (code : Byte) : BootRun s (enterStage t env code) :=
  ⟨h.kept.trans (enterStage_kept t env code), h.rails, h.unlocked, h.epoch⟩

theorem BootRun.next {s t u : State} (h : BootRun s t) (hk : BootKept t u) (hi : u.inp = t.inp) (hu : u.sec.unlocked = t.sec.unlocked)
    (he : u.sec.epoch = t.sec.epoch) : BootRun s u :=
  ⟨h.kept.trans hk, (congrArg Inp.rails hi).trans h.rails, hu.trans h.unlocked, he.trans h.epoch⟩

section
variable {s : State} {env : BootEnv}

/-- What the rails and the core tests leave of the start: the tests add to the failed cores what they found. -/
structure Powered (env : BootEnv) (s t : State) : Prop where
  run : BootRun s t
  pwr : t.pwr = s.pwr
  suspect : t.boot.coreSuspect = s.boot.coreSuspect
  failed : ∀ x ∈ t.boot.coreFailed, x ∈ s.boot.coreFailed ∨ x ∈ env.coresBad

theorem Powered.enter {env : BootEnv} {s t : State} (h : Powered env s t) (code : Byte) : Powered env s (enterStage t env code) :=
  ⟨h.run.enter env code, h.pwr, h.suspect, h.failed⟩

theorem stageRails_powered (env : BootEnv) (s : State) (code : Byte) :
    Powered env s (updInp (enterStage s env code) fun p => { p with rails := true, railMask := 511, pg := true }) :=
  ⟨⟨⟨rfl, rfl, rfl, rfl, rfl, rfl⟩, rfl, rfl, rfl⟩, rfl, rfl, fun _ hx => .inl hx⟩

theorem stageDie_powered {env : BootEnv} {s t : State} (h : Powered env s t) :
    ∃ u, stageDie env t = (u, none) ∧ Powered env s u := by
  refine ⟨_, rfl, ⟨h.run.next ⟨rfl, rfl, rfl, rfl, rfl, rfl⟩ rfl rfl rfl, h.pwr, h.suspect, fun x hx => ?_⟩⟩
  rcases List.mem_append.1 hx with hx | hx
  · exact h.failed x hx
  · exact .inr (List.mem_filter.1 hx).1

/-- The rails, the clocks and the cores' own tests, all good. -/
theorem bootRails_powered (hf : env.fail = none) (hr : env.rail = none) (hp : env.pll = none) :
    ∃ t, bootRails env s = (stage env 0x70 (stageHbm env) <| stage env 0x80 (stageCharacterise env) <| stage env 0x90 (stageOptics env) <|
        stage env 0xA0 (stageMap env) <| bootDone env) t ∧ Powered env s t := by
  have hrails : ∀ u, stageRails env u = (updInp u fun p => { p with rails := true, railMask := 511, pg := true }, none) := fun u => by
    unfold stageRails
    rw [hr]
  have hclocks : ∀ u, stageClocks env u = (u, none) := fun u => by
    unfold stageClocks
    rw [hp]
    rfl
  obtain ⟨u, e, hu⟩ := stageDie_powered (((stageRails_powered env s 0x40).enter 0x50).enter 0x60)
  unfold bootRails
  rw [stage_goes hf (hrails _), stage_goes hf (hclocks _), stage_goes hf e]
  exact ⟨u, rfl, hu⟩

/-- The stages from HBM_TRAIN to CORE_MAP, all good: every stack of the variant is present and no trip is pending. -/
theorem bootStages_clean (hf : env.fail = none) (hs : env.stackSilent = none) (hc : chansBad env = [])
    (ht : s.pwr.tripPending = true → env.postTripOk = true) (h80 : env.tripIn80 = none) (ho : env.engineBad = none) (hrails : s.inp.rails = true)
    (hcores : ∀ c : Fin 8, enabledCluster s c = true →
      ∃ p : Fin 9, (c, p) ∉ s.boot.coreFailed ∧ (c, p) ∉ s.boot.coreSuspect ∧ 900 ≤ usableFreq (fmeasOf env c p)) :
    ∃ t, (stage env 0x70 (stageHbm env) <| stage env 0x80 (stageCharacterise env) <| stage env 0x90 (stageOptics env) <|
        stage env 0xA0 (stageMap env) <| bootDone env) s = bootDone env t ∧ BootRun s t ∧ t.pwr.tripPending = false ∧
      ∀ k : StackId, k.val < stacksOf s.glb.variant → (t.mem.hbmStacks[k]).present = true := by
  have h0 : BootRun s s := ⟨⟨rfl, rfl, rfl, rfl, rfl, rfl⟩, hrails, rfl, rfl⟩
  obtain ⟨t1, e1, hk1, ⟨hsus1, hfail1⟩, hpwr1, -, hinp1, hsec1, hstacks⟩ := stageHbm_clean (enterStage s env 0x70) env hs hc
  have h1 := (h0.enter env 0x70).next hk1 hinp1 (congrArg Sec.unlocked hsec1) (congrArg Sec.epoch hsec1)
  have hcores' : ∀ c : Fin 8, enabledCluster (enterStage t1 env 0x80) c = true → ∃ p : Fin 9, (c, p) ∉ (enterStage t1 env 0x80).boot.coreFailed ∧
      (c, p) ∉ (enterStage t1 env 0x80).boot.coreSuspect ∧ 900 ≤ usableFreq (fmeasOf env c p) := fun c hcl => by
    obtain ⟨p, hp1, hp2, hp3⟩ := hcores c ((enabledCluster_congr (h1.enter env 0x80).kept c).symm.trans hcl)
    exact ⟨p, hfail1 ▸ hp1, hsus1 ▸ hp2, hp3⟩
  obtain ⟨t2, e2, hk2, htrip2, -, hinp2, hsec2, hmem2⟩ := stageCharacterise_clean (enterStage t1 env 0x80) env
    (fun h => ht ((congrArg Pwr.tripPending hpwr1).symm.trans h)) h80 hcores'
  have h2 := (h1.enter env 0x80).next hk2 hinp2 (congrArg Sec.unlocked hsec2) (congrArg Sec.epoch hsec2)
  obtain ⟨t3, e3, hk3, hpwr3, hinp3, hsec3, hmem3⟩ := stageOptics_clean (enterStage t2 env 0x90) env ho
  have h3 := (h2.enter env 0x90).next hk3 hinp3 (congrArg Sec.unlocked hsec3) (congrArg Sec.epoch hsec3)
  obtain ⟨t4, e4, hk4, htrip4, hinp4, hun4, hep4, hmem4⟩ := stageMap_clean (enterStage t3 env 0xA0) env
  have h4 := (h3.enter env 0xA0).next hk4 hinp4 hun4 hep4
  refine ⟨t4, ?_, h4, htrip4.trans ((congrArg Pwr.tripPending hpwr3).trans htrip2), fun k hk => ?_⟩
  · rw [stage_goes hf e1, stage_goes hf e2, stage_goes hf e3, stage_goes hf e4]
  · have hmem : t4.mem = t1.mem := hmem4.trans (hmem3.trans hmem2)
    rw [hmem]
    exact hstacks k hk

theorem bootClean_runs (h : s.bootClean env) : ∃ t, boot env s = bootDone env t ∧ BootKept s t ∧ t.inp.rails = true ∧ t.sec.unlocked = true ∧
    t.sec.epoch = s.sec.epoch + 1 ∧ t.pwr.tripPending = false ∧
    ∀ k : StackId, k.val < stacksOf s.glb.variant → (t.mem.hbmStacks[k]).present = true := by
  obtain ⟨t1, e1, hk1, ⟨hsus1, hfail1⟩, htrip1, -, hep1, hun1⟩ := boot_unlocked env s h.starts h.stages h.images h.keys
  obtain ⟨t2, e2, h2, hpwr2, hsus2, hfail2⟩ := bootRails_powered (s := t1) h.stages h.supplies.1 h.supplies.2
  have hk2 : BootKept s t2 := hk1.trans h2.kept
  have hcores : ∀ c : Fin 8, enabledCluster t2 c = true →
      ∃ p : Fin 9, (c, p) ∉ t2.boot.coreFailed ∧ (c, p) ∉ t2.boot.coreSuspect ∧ 900 ≤ usableFreq (fmeasOf env c p) := fun c hc => by
    obtain ⟨p, hbad, hfailed, hsus, hrec, hfast⟩ := h.cores c ((enabledCluster_congr hk2 c).symm.trans hc)
    refine ⟨p, fun hx => ?_, fun hx => ?_, hfast⟩
    · rcases hfail2 _ hx with hx | hx
      · rcases hfail1 _ hx with ⟨hx, hchar⟩ | hx
        · rcases hfailed with hf | hf
          · exact hf hx
          · exact Bool.false_ne_true (hchar.symm.trans hf)
        · exact hbad hx
      · exact hbad hx
    · rcases hsus1 _ (hsus2 ▸ hx) with hx | hx
      · exact hsus hx
      · exact hrec hx
  have htrip : t2.pwr.tripPending = true → env.postTripOk = true := fun hp =>
    h.trips.1 (htrip1.symm.trans ((congrArg Pwr.tripPending hpwr2).symm.trans hp))
  obtain ⟨t3, e3, h3, htrip3, hstacks⟩ := bootStages_clean h.stages h.hbm.1 h.hbm.2 htrip h.trips.2 h.optics h2.rails hcores
  refine ⟨t3, e1.trans (e2.trans e3), hk2.trans h3.kept, h3.rails, h3.unlocked.trans (h2.unlocked.trans hun1),
    h3.epoch.trans (h2.epoch.trans hep1), htrip3, fun k hk => hstacks k ?_⟩
  rw [hk2.2.2.2.2.1]
  exact hk

/-- The anti-rollback counters follow the running images (R378). -/
theorem bootDone_arc (env : BootEnv) (s : State) (k : Fin 5) (v : Bool) (hv : selectSlot s k = some v) :
    (bootDone env s).sec.arc[k] = (if (s.sec.arc[k]).toNat < (s.boot.fw[slotIndex (k.val + 1) v]).svn.toNat
      then (s.boot.fw[slotIndex (k.val + 1) v]).svn else s.sec.arc[k]) := by
  have hk : (Fin.ofNat 5 k.val : Fin 5) = k := Fin.ext (Nat.mod_eq_of_lt k.isLt)
  unfold bootDone
  simp only [Fin.getElem_fin, Vector.getElem_mapFinIdx, hk, hv]
  rfl

theorem boot_clean (h : s.bootClean env) : let t := boot env s
    t.hlk.state = .nodisc ∧ t.boot.stage = 0xB0 ∧ t.boot.failedStarts = 0 ∧ t.boot.minimal = s.boot.minimal ∧ t.inp.rails = true ∧
      t.sec.unlocked = true ∧ t.sec.epoch = s.sec.epoch + 1 ∧ t.pwr.tripPending = false ∧
      (∀ k : StackId, k.val < stacksOf s.glb.variant → (t.mem.hbmStacks[k]).present = true) ∧
      (∀ (k : Fin 5) (v : Bool), selectSlot s k = some v →
        let svn := (s.boot.fw[slotIndex (k.val + 1) v]).svn
        t.sec.arc[k] = if (s.sec.arc[k]).toNat < svn.toNat then svn else s.sec.arc[k]) := by
  obtain ⟨t, e, hk, hrails, hun, hep, htrip, hstacks⟩ := bootClean_runs h
  rw [e]
  refine ⟨rfl, rfl, rfl, hk.2.2.2.1, hrails, hun, hep, htrip, hstacks, fun k v hv => ?_⟩
  have harc := bootDone_arc env t k v ((selectSlot_congr hk k).trans hv)
  rw [hk.1, hk.2.1] at harc
  exact harc

/-! ## Starts that fail (R421, R422) -/

theorem boot_rail (h : s.bootClean { env with rail := none }) {r : Fin 9} (hr : env.rail = some r) : let t := boot env s
    t.boot.awaitingRestart = true ∧ t.boot.reason = 0x41 ∧ t.boot.detail.toNat = r.val ∧ t.boot.stage = 0x40 ∧
      t.boot.failedStarts = s.boot.failedStarts + 1 ∧ t.hlk.state = s.hlk.state := by
  obtain ⟨t, e, hk, -, -, hhlk, -, -⟩ := boot_unlocked env s h.starts h.stages h.images h.keys
  have hstage : ∀ u, stageRails env u = (updInp u fun p => { p with railMask := BitVec.ofNat 9 (2 ^ r.val - 1) }, some (0x41, r.val)) := fun u => by
    unfold stageRails
    rw [hr]
  have hfailed : (if t.boot.failedStarts = 3 then 3 else t.boot.failedStarts + 1) = s.boot.failedStarts + 1 := by
    rw [hk.2.2.1]
    exact if_neg h.starts.1
  have hdetail : (BitVec.ofNat 32 r.val).toNat = r.val := by
    rw [BitVec.toNat_ofNat]
    exact Nat.mod_eq_of_lt (by omega)
  rw [e]
  unfold bootRails
  rw [stage_fails (hstage _)]
  exact ⟨rfl, rfl, hdetail, rfl, hfailed, congrArg Hlk.state hhlk⟩

theorem boot_keyless {reads : List Bool} (h : s.bootClean { env with pufReads := reads }) (hp : ∀ i : Fin 3, env.pufReads[i.val]? ≠ some true) :
    let t := boot env s
    t.boot.minimal = true ∧ t.hlk.state = .minimal ∧ t.boot.reason = 0x31 ∧ t.boot.failedStarts = s.boot.failedStarts + 1 ∧
      t.sec.unlocked = s.sec.unlocked := by
  obtain ⟨t, e, hk, -, -, -, hun, -⟩ := boot_verified env s h.starts h.stages h.images
  have hreads : (env.pufReads.take 3).any id = false := by
    rw [List.any_eq_false]
    intro x hx hid
    obtain ⟨i, hi⟩ := List.mem_iff_getElem?.1 hx
    rw [List.getElem?_take] at hi
    split at hi
    · next hlt => exact hp ⟨i, hlt⟩ (hi.trans (congrArg some hid))
    · cases hi
  have hstage : ∀ u, stageUnlock env u = (u, some (0x31, 0)) := fun u => by
    unfold stageUnlock
    rw [hreads]
    rfl
  have hfailed : (if t.boot.failedStarts = 3 then 3 else t.boot.failedStarts + 1) = s.boot.failedStarts + 1 := by
    rw [hk.2.2.1]
    exact if_neg h.starts.1
  rw [e, stage_fails (hstage _)]
  exact ⟨rfl, rfl, rfl, hfailed, hun⟩

end

/-! ## Sources of a reset (R401, R415, R424) -/

section
variable {s : State}

theorem fullReset_boots (ha : s.inp.aux = true) (hp : s.inp.powerFail = false) (hl : s.inp.resetLow = false) (cause : BitVec 3) (env : BootEnv) :
    fullReset s cause env = boot env (holdReset s cause false) :=
  (if_neg (by simp [ha])).trans ((if_neg (by simp [hp])).trans (if_neg (by simp [hl])))

theorem fullReset_waits (ha : s.inp.aux = true) (hp : s.inp.powerFail = true) (cause : BitVec 3) (env : BootEnv) :
    fullReset s cause env = waitReset s cause :=
  (if_neg (by simp [ha])).trans (if_pos hp)

theorem fullReset_off (ha : s.inp.aux = false) (cause : BitVec 3) (env : BootEnv) : fullReset s cause env = s := if_pos (by simp [ha])

theorem exec_fullReset (cause : BitVec 3) (env : BootEnv) (h : ¬ (cause = 4 ∧ s.mem.flashBusy = true)) :
    exec (.fullReset cause env) s = .next (fullReset s cause env) :=
  congrArg Host.Outcome.next (if_neg (by simpa using h))

theorem exec_fullReset_busy (env : BootEnv) (h : s.mem.flashBusy = true) : exec (.fullReset 4 env) s = .next s :=
  congrArg Host.Outcome.next (if_pos (by simp [h]))

/-- The module as boot_retry leaves it before its boot (R424). -/
def State.retried (s : State) (waits : Bool) : State := { s.unlatch with boot := { s.boot with failedStarts := 0, retryWaits := waits } }

theorem bootRetry_waits (env : BootEnv) (h : s.mem.flashBusy = true) (hm : s.boot.minimal = true) :
    exec (.bootRetry env) s = .next (s.retried true) := by
  have hrun : exec (.bootRetry env) s = .next (s.retried s.mem.flashBusy) := congrArg Host.Outcome.next ((if_pos hm).trans (if_pos h))
  rw [h] at hrun
  exact hrun

theorem bootRetry_resets (env : BootEnv) (h : s.mem.flashBusy = false) (hm : s.boot.minimal = true) :
    exec (.bootRetry env) s = .next (fullReset (s.retried false) 4 env) := by
  have hrun : exec (.bootRetry env) s = .next (fullReset (s.retried s.mem.flashBusy) 4 env) :=
    congrArg Host.Outcome.next ((if_pos hm).trans (if_neg (by simp [h])))
  rw [h] at hrun
  exact hrun

theorem bootRetry_stays (env : BootEnv) (hm : s.boot.minimal = false) : exec (.bootRetry env) s = .next s.unlatch :=
  congrArg Host.Outcome.next (if_neg (by simp [hm]))

/-! ## A stage beyond its limit (R418) -/

theorem stageOverrun_fails {x : Byte} (hx : s.boot.stage = x) (hlow : 0x10 ≤ x.toNat) (hhigh : x.toNat ≤ 0xA0)
    (ha : s.boot.awaitingRestart = false) (hm : s.boot.minimal = false) : exec (.stageOverrun x) s = .next { s with boot := { s.boot with
      reason := 0x01, detail := BitVec.ofNat 32 x.toNat, failStage := x,
      failedStarts := if s.boot.failedStarts = 3 then 3 else s.boot.failedStarts + 1, awaitingRestart := true } } := by
  subst hx
  refine congrArg Host.Outcome.next (if_pos ?_)
  simp [hlow, hhigh, ha, hm]

theorem stageOverrun_stays {x : Byte}
    (h : ¬ (s.boot.stage = x ∧ 0x10 ≤ x.toNat ∧ x.toNat ≤ 0xA0 ∧ s.boot.awaitingRestart = false ∧ s.boot.minimal = false)) :
    exec (.stageOverrun x) s = .next s := by
  refine congrArg Host.Outcome.next (if_neg fun hc => h ?_)
  simpa [and_assoc] using hc

/-! ## The mailbox (R434, R435) -/

/-- A transfer names a slot that it may write: one of its type that does not run. -/
def Spare (s : State) (m : MbRun) : Prop := m.type.toNat ≠ 0 ∧ m.type.toNat ≤ 5 ∧ s.sec.slots.getLsbD (m.type.toNat - 1) ≠ m.slot

theorem mailboxTarget_spare {m : MbRun} (h : Spare s m) : mailboxTarget s m = some (slotIndex m.type.toNat m.slot) := by
  obtain ⟨h0, h5, hslot⟩ := h
  refine if_pos ?_
  simp [h5, hslot, Nat.one_le_iff_ne_zero.2 h0]

theorem mailboxTarget_running {m : MbRun} (h : ¬ Spare s m) : mailboxTarget s m = none := by
  refine if_neg fun hc => h ?_
  simp only [Bool.and_eq_true, decide_eq_true_eq] at hc
  exact ⟨Nat.one_le_iff_ne_zero.1 hc.1.1, hc.1.2, hc.2⟩

section
variable {m : MbRun} {image : List Byte} {flashErr : Bool}

theorem mailboxResult_illegal (h : m.type.toNat = 0 ∨ 5 < m.type.toNat ∨ m.reserved = true) : mailboxResult s m image flashErr = 2 :=
  if_pos (by simpa [or_assoc] using h)

theorem mailboxResult_running (h : ¬ Spare s m) : mailboxResult s m image flashErr = 2 ∨ mailboxResult s m image flashErr = 3 := by
  unfold mailboxResult
  dsimp only
  split
  · exact .inl rfl
  · exact .inr (if_pos (by rw [mailboxTarget_running h]; rfl))

/-- The checks on an image for a spare slot, in their order. -/
theorem mailboxResult_spare (h : Spare s m) (hr : m.reserved = false) : mailboxResult s m image flashErr =
    (if m.length.toNat + 1 < 2048 || 16777216 < m.length.toNat + 1 then 4
     else if image.length < 2048 then 7
     else if !headerGood m.type.toNat image (m.length.toNat + 1) ||
       (m.length.toNat + 1 ≤ image.length && !bodyGood (image.take (m.length.toNat + 1))) then 5
     else if leAt image 12 4 < (s.sec.arc[(Fin.ofNat 5 (m.type.toNat - 1) : Fin 5)]).toNat then 6
     else if image.length < m.length.toNat + 1 then 7
     else if flashErr then 8 else 0) := by
  have hlegal : ¬ (decide (m.type.toNat = 0) || decide (5 < m.type.toNat) || m.reserved) = true := by
    simp [hr, h.1, Nat.not_lt.2 h.2.1]
  exact (if_neg hlegal).trans (if_neg (by rw [mailboxTarget_spare h]; exact Bool.false_ne_true))

theorem mailboxResult_size (h : Spare s m) (hr : m.reserved = false) (hn : m.length.toNat + 1 < 2048 ∨ 16777216 < m.length.toNat + 1) :
    mailboxResult s m image flashErr = 4 :=
  (mailboxResult_spare h hr).trans (if_pos (by simpa using hn))

section
variable (h : Spare s m) (hr : m.reserved = false) (hlow : 2048 ≤ m.length.toNat + 1) (hhigh : m.length.toNat + 1 ≤ 16777216)
include h hr hlow hhigh

theorem mailboxResult_sized : mailboxResult s m image flashErr =
    (if image.length < 2048 then 7
     else if !headerGood m.type.toNat image (m.length.toNat + 1) ||
       (m.length.toNat + 1 ≤ image.length && !bodyGood (image.take (m.length.toNat + 1))) then 5
     else if leAt image 12 4 < (s.sec.arc[(Fin.ofNat 5 (m.type.toNat - 1) : Fin 5)]).toNat then 6
     else if image.length < m.length.toNat + 1 then 7
     else if flashErr then 8 else 0) :=
  (mailboxResult_spare h hr).trans (if_neg (by
    rw [decide_eq_false (Nat.not_lt.2 hlow), decide_eq_false (Nat.not_lt.2 hhigh)]
    exact Bool.false_ne_true))

theorem mailboxResult_headless (hi : image.length < 2048) : mailboxResult s m image flashErr = 7 :=
  (mailboxResult_sized h hr hlow hhigh).trans (if_pos hi)

theorem mailboxResult_unverified (hi : 2048 ≤ image.length) (hb : headerGood m.type.toNat image (m.length.toNat + 1) = false ∨
    (m.length.toNat + 1 ≤ image.length ∧ bodyGood (image.take (m.length.toNat + 1)) = false)) : mailboxResult s m image flashErr = 5 :=
  (mailboxResult_sized h hr hlow hhigh).trans ((if_neg (Nat.not_lt.2 hi)).trans (if_pos (by simpa using hb)))

theorem mailboxResult_verified (hi : 2048 ≤ image.length) (hg : headerGood m.type.toNat image (m.length.toNat + 1) = true)
    (hb : m.length.toNat + 1 ≤ image.length → bodyGood (image.take (m.length.toNat + 1)) = true) : mailboxResult s m image flashErr =
    (if leAt image 12 4 < (s.sec.arc[(Fin.ofNat 5 (m.type.toNat - 1) : Fin 5)]).toNat then 6
     else if image.length < m.length.toNat + 1 then 7 else if flashErr then 8 else 0) :=
  (mailboxResult_sized h hr hlow hhigh).trans ((if_neg (Nat.not_lt.2 hi)).trans (if_neg (by simpa [hg] using hb)))

end

/-- The state a transfer of result `r` leaves. -/
def State.mailed (s : State) (r : Nat) (fw : Vector FwSlot 10) : State :=
  { s with boot := { s.boot with
      fw := fw
      mbRun := none
      mbAgain := false
      mbDone := s.boot.mbDone + 1
      mbResult := if s.boot.mbAgain then 1 else BitVec.ofNat 4 r } }

theorem mailboxDone_spare (hm : s.boot.mbRun = some m) (h : Spare s m) : exec (.mailboxDone image flashErr) s =
    .next (s.mailed (mailboxResult s m image flashErr)
      (vmod s.boot.fw (slotIndex m.type.toNat m.slot) fun w => slotAfter w (mailboxResult s m image flashErr) image)) := by
  refine congrArg Host.Outcome.next ?_
  simp only [mailboxEnds, hm, mailboxTarget_spare h]
  rfl

theorem mailboxDone_running (hm : s.boot.mbRun = some m) (h : ¬ Spare s m) : exec (.mailboxDone image flashErr) s =
    .next (s.mailed (mailboxResult s m image flashErr) s.boot.fw) := by
  refine congrArg Host.Outcome.next ?_
  simp only [mailboxEnds, hm, mailboxTarget_running h]
  rfl

theorem mailboxDone_idle (hm : s.boot.mbRun = none) : exec (.mailboxDone image flashErr) s = .next s := by
  refine congrArg Host.Outcome.next ?_
  simp only [mailboxEnds, hm]

theorem slotAfter_cases (w : FwSlot) (r : Nat) : slotAfter w r image =
    (if r = 0 then { valid := true, version := BitVec.ofNat 32 (leAt image 8 4), svn := BitVec.ofNat 32 (leAt image 12 4),
                     length := BitVec.ofNat 32 (leAt image 16 4), hash := BitVec.ofNat 256 (beNat (slice image 20 32)) }
     else if r = 7 ∨ r = 8 then { w with valid := false } else w) :=
  if_congr Iff.rfl rfl (if_congr (by simp) rfl rfl)

end

/-! ## The MEM bits (R436, R437) -/

theorem setDrain_register (v : Bool) : let late := s.mem.drainTick = some s.now ∧ s.mem.drainStep = true
    setDrain s v false = { s with mem := { s.mem with
      drainPrev := (if s.mem.drainTick = some s.now then s.mem.drainPrev else s.mem.drainPending), drainTick := some s.now, drainStep := decide late,
      drainPending := if late then s.mem.drainPending else v } } := by
  intro late
  by_cases ht : s.mem.drainTick = some s.now <;> by_cases hs : s.mem.drainStep = true <;> simp [setDrain, late, ht, hs]

end

/-- What a transfer leaves: its result, and its slot with the new image, invalid, or as it was. -/
theorem mailboxDone_does (s : State) (image : List Byte) (flashErr : Bool) (m : MbRun) (hm : s.boot.mbRun = some m) :
    ∃ t, exec (.mailboxDone image flashErr) s = .next t ∧ t.boot.mbRun = none ∧ t.boot.mbDone = s.boot.mbDone + 1 ∧
      t.boot.mbResult = (if s.boot.mbAgain then 1 else BitVec.ofNat 4 (mailboxResult s m image flashErr)) ∧ t = { s with boot := t.boot } ∧
      (Spare s m → t.boot.fw[slotIndex m.type.toNat m.slot] =
          slotAfter s.boot.fw[slotIndex m.type.toNat m.slot] (mailboxResult s m image flashErr) image ∧
        ∀ j, j ≠ slotIndex m.type.toNat m.slot → t.boot.fw[j] = s.boot.fw[j]) ∧
      (¬ Spare s m → t.boot.fw = s.boot.fw) := by
  by_cases h : Spare s m
  · exact ⟨_, mailboxDone_spare hm h, rfl, rfl, rfl, rfl, fun _ => ⟨vmod_same _ _ _, fun j hj => vmod_other _ _ _ _ (Ne.symm hj)⟩,
      fun hn => absurd h hn⟩
  · exact ⟨_, mailboxDone_running hm h, rfl, rfl, rfl, rfl, fun hs => absurd hs h, fun _ => rfl⟩

/-- Settles O59: a clean boot is `bootClean_runs` through its stages, a bad rail and a missing key end it at their stage (`stage_fails`), and every source
of a reset is `fullReset`; the mailbox's result is `mailboxResult`, case by case. The model's choices: compat_next is written with the rails dark (log
entry 29), a start with a missing key is counted (47), the order of the mailbox's results (57, 125), cores recorded as failed stay so (119), and the
reserved bit of result 2 (120). -/
theorem bootRuns : Obligations.BootRuns := by
  unfold Obligations.BootRuns
  intro s b
  refine ⟨fun cause on => ?_, fun env h => boot_clean h, fun env r h hr => boot_rail h hr, fun env reads h hp => boot_keyless h hp, fun env => rfl,
    fun ha hp hl env => ⟨fun cause hc => ?_, ?_, fun hw => ?_, fun hm hf => ?_⟩, fun env hf => ⟨exec_fullReset_busy env hf, bootRetry_waits env hf⟩,
    fun env ha hp => congrArg Host.Outcome.next (fullReset_waits ha hp 2 env), fun env ha => congrArg Host.Outcome.next (fullReset_off ha 2 env),
    fun env h => congrArg Host.Outcome.next (if_neg (by simp [b, h])), fun env h => bootRetry_stays env h,
    fun x => ⟨fun ⟨hx, hlow, hhigh, ha, hm⟩ => stageOverrun_fails hx hlow hhigh ha hm, stageOverrun_stays⟩, fun type slot reserved => rfl, ?_,
    fun image flashErr h => mailboxDone_idle h, fun v => ⟨?_, rfl⟩, rfl⟩
  · exact ⟨rfl, rfl, rfl, rfl, rfl, rfl, rfl, rfl, rfl, rfl, rfl, rfl, rfl, rfl, rfl, rfl, rfl, rfl, rfl, rfl, rfl⟩
  · exact (exec_fullReset cause env hc).trans (congrArg Host.Outcome.next (fullReset_boots ha hp hl cause env))
  · exact congrArg Host.Outcome.next (fullReset_boots ha hp hl 2 env)
  · exact congrArg Host.Outcome.next ((if_pos hw).trans (fullReset_boots ha hp hl 3 env))
  · exact (bootRetry_resets env hf hm).trans (congrArg Host.Outcome.next (fullReset_boots (s := s.retried false) ha hp hl 4 env))
  · intro image flashErr m hm k n spare
    obtain ⟨t, hrun, hnone, hdone, hresult, hframe, hslot, hkept⟩ := mailboxDone_does s image flashErr m hm
    refine ⟨t, mailboxResult s m image flashErr, hrun, hnone, hdone, hresult, hframe, mailboxResult_illegal, fun hs hr => ⟨mailboxResult_size hs hr, ?_⟩,
      fun hs => ⟨(hslot hs).1.trans (slotAfter_cases _ _), (hslot hs).2⟩, fun hs => ⟨hkept hs, mailboxResult_running hs⟩⟩
    exact fun hlow hhigh => ⟨mailboxResult_headless hs hr hlow hhigh, fun hi => ⟨mailboxResult_unverified hs hr hlow hhigh hi,
      mailboxResult_verified hs hr hlow hhigh hi⟩⟩
  · exact congrArg Host.Outcome.next (if_congr Iff.rfl (setDrain_register (s := s.unlatch) v) rfl)

end Sys2Proof.Machine
end

section
/-! SUPPORT. The set-up window and confidential mode (R11, R295, R376, R381, R388, R389, R427–R430): reads and halves, writes of each block, transitions. -/

namespace Sys2Proof.Machine

/-! ## Reads (R11, R224, R427, R428) -/

section
variable {s : State}

theorem watermarkRead_does (s : State) (port : PortId) (vc : Fin 8) : ∃ t, exec (.watermarkRead port vc) s = .next t ∧
    t = { s.unlatch with out := t.out, fab := { s.fab with ports := t.fab.ports } } ∧
    (s.inp.rails = true → (t.fab.ports[port]).watermark[vc] = 0 ∧
      t.out = s.out ++ [.readData (if s.sec.conf then 0 else ((s.fab.ports[port]).watermark[vc]).zeroExtend 64)]) ∧
    (s.inp.rails = false → t.fab = s.fab ∧ t.out = s.out ++ [.readData 0]) ∧
    ∀ p, t.fab.ports[p] = { s.fab.ports[p] with watermark := (t.fab.ports[p]).watermark } ∧
      ∀ v, ¬ (p = port ∧ v = vc) → (t.fab.ports[p]).watermark[v] = (s.fab.ports[p]).watermark[v] := by
  refine ⟨_, execWatermark_eq s port vc, ?_⟩
  by_cases hr : s.inp.rails = true
  · obtain ⟨hframe, hcleared, hkept⟩ := clearWatermark_does s.unlatch port vc
    have hrails : (s.onRails fun t => clearWatermark t port vc) = clearWatermark s.unlatch port vc := if_pos hr
    rw [hrails, if_pos hr]
    exact ⟨rfl, fun _ => ⟨hcleared, rfl⟩, fun h => absurd (hr.symm.trans h) nofun, hkept⟩
  · have hrails : (s.onRails fun t => clearWatermark t port vc) = s.unlatch := if_neg hr
    rw [hrails, if_neg hr]
    exact ⟨rfl, fun h => absurd h hr, fun _ => ⟨rfl, rfl⟩, fun p => ⟨rfl, fun v _ => rfl⟩⟩

theorem halfRead_low (a : BitVec 26) (n : Nat) (ha : a.toNat = 8 * n) : halfRead s a =
    { readOut (readEffect s (8 * n)) (regRead s (8 * n) &&& (0xFFFFFFFF : W64)) with
      glb := { (readEffect s (8 * n)).glb with latch := some (a, (regRead s (8 * n) >>> 32).setWidth 32) } } := by
  unfold halfRead
  dsimp only
  rw [ha, if_neg (by omega), if_pos (by omega), mask_low]
  rfl

/-- The read of a high half answers from the latch that the read of its low half has left. -/
theorem halfRead_latched (a b : BitVec 26) (n : Nat) (w : W32) (ha : a.toNat = 8 * n) (hb : b.toNat = 8 * n + 4) (hl : s.glb.latch = some (a, w)) :
    halfRead s b = (readOut s (w.zeroExtend 64)).unlatch := by
  unfold halfRead
  dsimp only
  rw [hb, if_neg (by omega), if_neg (by omega)]
  simp only [hl]
  rw [if_pos (by omega)]

theorem halfRead_live (b : BitVec 26) (n : Nat) (hb : b.toNat = 8 * n + 4) (hl : s.glb.latch = none) :
    halfRead s b = { s with out := s.out ++ [.readData (regRead s (8 * n) >>> 32)] } := by
  have hglb : { s.glb with latch := none } = s.glb := by rw [← hl]
  have hrun : halfRead s b = (readOut s (regRead s (8 * n) >>> 32)).unlatch := by
    unfold halfRead
    dsimp only
    rw [hb, if_neg (by omega), if_neg (by omega)]
    simp only [hl]
    rw [show 8 * n + 4 - 4 = 8 * n by omega, mask_high]
  exact hrun.trans (congrArg (fun g => { s with out := s.out ++ [Out.readData (regRead s (8 * n) >>> 32)], glb := g }) hglb)

theorem halfReads_do (s : State) (a b : BitVec 26) (n : Nat) (ha : a.toNat = 8 * n) (hb : b.toNat = 8 * n + 4) :
    ∃ t u, exec (.halfReadLatch a) s = .next t ∧ exec (.halfReadLatch b) t = .next u ∧
      t.out = s.out ++ [.readData (regRead s (8 * n) &&& (0xFFFFFFFF : W64))] ∧ u.out = t.out ++ [.readData (regRead s (8 * n) >>> 32)] ∧
      u.glb.latch = none ∧ t = { s with out := t.out, glb := t.glb, fab := { s.fab with ports := t.fab.ports } } ∧
      u = { t with out := u.out, glb := u.glb } := by
  have he := readEffect_is s (8 * n)
  refine ⟨_, _, congrArg Host.Outcome.next (halfRead_low a n ha), congrArg Host.Outcome.next (halfRead_latched a b n _ ha hb rfl), ?_⟩
  rw [mask_high]
  generalize readEffect s (8 * n) = e at he ⊢
  rw [he]
  exact ⟨rfl, rfl, rfl, rfl, rfl⟩

theorem halfRead_misaligned (a : BitVec 26) (h : a.toNat % 4 ≠ 0) : exec (.halfReadLatch a) s =
    .next { s with glb := { s.glb with latch := none, regBad := bump s.glb.regBad }, out := s.out ++ [.readData 0] } :=
  congrArg Host.Outcome.next (if_pos h)

theorem regBadWrite_does (a : BitVec 26) : exec (.regBadAccess a true) s = .next
    { s with glb := { s.glb with latch := none, regBad := bump s.glb.regBad },
             hlk := if 0x3000000 ≤ a.toNat then { s.hlk with doorbellBad := bump s.hlk.doorbellBad } else s.hlk } := by
  by_cases h : 0x3000000 ≤ a.toNat
  · exact congrArg Host.Outcome.next ((if_pos h).trans
      (congrArg (fun k => { s with glb := { s.glb with latch := none, regBad := bump s.glb.regBad }, hlk := k }) (if_pos h).symm))
  · exact congrArg Host.Outcome.next ((if_neg h).trans
      (congrArg (fun k => { s with glb := { s.glb with latch := none, regBad := bump s.glb.regBad }, hlk := k }) (if_neg h).symm))

/-! ## Writes (R10, R295, R429, R430) -/

section
variable (a : BitVec 26) (wide : Bool) (v : W64)

theorem registerWrite_misaligned (h : a.toNat % (if wide then 8 else 4) ≠ 0) : exec (.registerWrite a wide v) s =
    .next { s with glb := { s.glb with latch := none, regBad := bump s.glb.regBad } } :=
  congrArg Host.Outcome.next (if_pos h)

theorem exec_registerWrite (h : a.toNat % (if wide then 8 else 4) = 0) : exec (.registerWrite a wide v) s =
    .next (writeWord s.unlatch a.toNat wide (mergeWord (regLive s.unlatch (a.toNat / 8 * 8)).1 v (a.toNat % 8 = 4) wide)
      (writtenBits v (a.toNat % 8 = 4) wide) v) :=
  congrArg Host.Outcome.next (writeReg_aligned s a wide v h)

end

section
variable (wide : Bool) (v ones raw : W64)

theorem writeWord_target : writeWord s 0x800040 wide v ones raw = writeTarget s (v.getLsbD 0) := by
  unfold writeWord
  cases wide <;> rfl

theorem writeWord_mem : writeWord s 0x1800000 wide v ones raw =
    writeCompat (if s.inp.rails then setDrain s (v.getLsbD 1) false else s) (v.getLsbD 3) := by
  unfold writeWord
  cases wide <;> rfl

theorem writeWord_events : writeWord s 0x3010000 wide v ones raw = eventDoorbell s (raw.setWidth 16) !wide := rfl

/-- The doorbell page of a ring pair: the tail at offset 0, the head at 4. -/
theorem writeWord_doorbell (ring : RingId) (k : Nat) (hk : k < 0x1000) :
    writeWord s (0x3000000 + 0x1000 * ring.val + k) wide v ones raw = ringDoorbell s ring k (raw.setWidth 16) !wide := by
  have hr := ring.isLt
  have hring : (Fin.ofNat 16 ((0x3000000 + 0x1000 * ring.val + k - 0x3000000) / 0x1000) : RingId) = ring := by
    apply Fin.ext
    show (0x3000000 + 0x1000 * ring.val + k - 0x3000000) / 0x1000 % 16 = ring.val
    omega
  have hoff : (0x3000000 + 0x1000 * ring.val + k) % 0x1000 = k := by omega
  unfold writeWord
  dsimp only
  rw [if_neg (by omega), if_neg (by omega), if_neg (by omega), if_neg (by omega), if_neg (by omega), if_neg (by omega), if_neg (by omega),
    if_neg (by omega), if_neg (by omega), if_pos (by omega), hring, hoff]

/-- The registers of a ring pair. -/
theorem writeWord_ring (ring : RingId) (k : Nat) (hk : k < 0x40) (h8 : k % 8 = 0) :
    writeWord s (0x101000 + 0x40 * ring.val + k) true v ones raw = updRing s ring fun r => writeRingField r k v := by
  have hr := ring.isLt
  have ho : (0x101000 + 0x40 * ring.val + k) / 8 * 8 - 0x100000 = 0x1000 + 0x40 * ring.val + k := by omega
  have hring : (Fin.ofNat 16 ((0x1000 + 0x40 * ring.val + k - 0x1000) / 0x40) : RingId) = ring := by
    apply Fin.ext
    show (0x1000 + 0x40 * ring.val + k - 0x1000) / 0x40 % 16 = ring.val
    omega
  have hoff : (0x1000 + 0x40 * ring.val + k) % 0x40 = k := by omega
  unfold writeWord
  dsimp only
  rw [if_neg (by omega), if_pos (by omega), ho]
  unfold writeHlk
  split
  · omega
  · omega
  · rw [if_pos (by simp; omega), hring, hoff]

end

/-! ## Registers with a command of their own -/

theorem registerWrite_target (a : BitVec 26) (wide : Bool) (v : W64) (ha : a.toNat = 0x800040) :
    exec (.registerWrite a wide v) s = exec (.modeTargetWrite (v.getLsbD 0)) s := by
  rw [exec_registerWrite a wide v (by rw [ha]; cases wide <;> rfl), ha, writeWord_target]
  exact congrArg (fun b => Host.Outcome.next (writeTarget s.unlatch b)) (mergeWord_bit _ v wide 0 (by decide))

/-- A register write of the MEM word: drain_pending where the rails are up, then compat_next. -/
theorem registerWrite_mem (a : BitVec 26) (wide : Bool) (v : W64) (ha : a.toNat = 0x1800000) :
    ∃ t, exec (.drainPendingWrite (v.getLsbD 1)) s = .next t ∧ exec (.registerWrite a wide v) s = exec (.compatNextWrite (v.getLsbD 3)) t := by
  refine ⟨_, rfl, ?_⟩
  rw [exec_registerWrite a wide v (by rw [ha]; cases wide <;> rfl), ha, writeWord_mem]
  refine (congrArg₂ (fun b c => Host.Outcome.next (writeCompat (if s.inp.rails then setDrain s.unlatch b false else s.unlatch) c))
    (mergeWord_bit _ v wide 1 (by decide)) (mergeWord_bit _ v wide 3 (by decide))).trans ?_
  refine congrArg (fun t => Host.Outcome.next (writeCompat t (v.getLsbD 3))) ?_
  unfold State.onRails
  split <;> rfl

theorem registerWrite_sqTail (ring : RingId) (a : BitVec 26) (wide : Bool) (v : W64) (ha : a.toNat = 0x3000000 + 0x1000 * ring.val) :
    exec (.registerWrite a wide v) s = exec (.sqTailDoorbell ring (v.setWidth 16) (!wide)) s := by
  rw [exec_registerWrite a wide v (by rw [ha]; cases wide <;> simp <;> omega), ha]
  exact congrArg Host.Outcome.next (writeWord_doorbell wide _ _ v ring 0 (by decide))

theorem registerWrite_cqHead (ring : RingId) (a : BitVec 26) (v : W64) (ha : a.toNat = 0x3000004 + 0x1000 * ring.val) :
    exec (.registerWrite a false v) s = exec (.cqHeadDoorbell ring (v.setWidth 16) true) s := by
  have ha' : a.toNat = 0x3000000 + 0x1000 * ring.val + 4 := by omega
  rw [exec_registerWrite a false v (by rw [ha']; simp; omega), ha']
  exact congrArg Host.Outcome.next (writeWord_doorbell false _ _ v ring 4 (by decide))

theorem registerWrite_events (a : BitVec 26) (wide : Bool) (v : W64) (ha : a.toNat = 0x3010000) :
    exec (.registerWrite a wide v) s = exec (.eventHeadDoorbell (v.setWidth 16) (!wide)) s := by
  rw [exec_registerWrite a wide v (by rw [ha]; cases wide <;> rfl), ha]
  exact congrArg Host.Outcome.next (writeWord_events wide _ _ v)

/-- A base field is closed while its ring pair is enabled (R295). -/
theorem registerWrite_base (ring : RingId) (a : BitVec 26) (v : W64) (k : Nat) (hk : k < 0x40) (h8 : k % 8 = 0)
    (ha : a.toNat = 0x101000 + 0x40 * ring.val + k) : exec (.registerWrite a true v) s = .next (updRing s.unlatch ring fun r => writeRingField r k v) := by
  have halign : a.toNat % (if true = true then 8 else 4) = 0 := by
    rw [if_pos rfl]
    omega
  rw [exec_registerWrite a true v halign, ha]
  exact congrArg Host.Outcome.next (writeWord_ring _ _ v ring k hk h8)

theorem registerWrite_bases (ring : RingId) (a : BitVec 26) (v : W64) : let r := s.hlk.rings[ring]
    ∃ t, exec (.registerWrite a true v) s = .next t ∧
    (a.toNat = 0x101000 + 0x40 * ring.val → t = { s.unlatch with hlk := t.hlk } ∧ t.hlk.rings[ring] =
      (if r.enable then r else { r with sqbase := v &&& ~~~(0xFFF) })) ∧
    (a.toNat = 0x101008 + 0x40 * ring.val → t = { s.unlatch with hlk := t.hlk } ∧ t.hlk.rings[ring] =
      (if r.enable then r else { r with cqbase := v &&& ~~~(0xFFF) })) := by
  intro r
  refine ⟨writeReg s a true v, rfl, fun ha => ?_, fun ha => ?_⟩
  · have hrun : writeReg s a true v = updRing s.unlatch ring fun r => writeRingField r 0 v :=
      Host.Outcome.next.inj (registerWrite_base ring a v 0 (by decide) rfl ha)
    rw [hrun, ← page_mask]
    exact ⟨rfl, updRing_at s.unlatch ring _⟩
  · have hrun : writeReg s a true v = updRing s.unlatch ring fun r => writeRingField r 8 v :=
      Host.Outcome.next.inj (registerWrite_base ring a v 8 (by decide) rfl (by omega))
    rw [hrun, ← page_mask]
    exact ⟨rfl, updRing_at s.unlatch ring _⟩

/-- A half write of the token leaves the other half (R428). -/
theorem registerWrite_token (j : Fin 4) (a : BitVec 26) (v : W64) : let c := s.sec
    ∃ t u, exec (.registerWrite a true v) s = .next t ∧ exec (.registerWrite a false v) s = .next u ∧
    (a.toNat = 0x800048 + 8 * j.val → t = { s.unlatch with sec := { c with token := t.sec.token } } ∧ t.sec.token[j] = v ∧
      u.sec.token[j] = (c.token[j] >>> 32 <<< 32) ||| (v &&& (0xFFFFFFFF : W64)) ∧ (∀ k, k ≠ j → t.sec.token[k] = c.token[k] ∧ u.sec.token[k] = c.token[k])) ∧
    (a.toNat = 0x800048 + 8 * j.val + 4 → u.sec.token[j] = (c.token[j] &&& (0xFFFFFFFF : W64)) ||| (v <<< 32) ∧
      (∀ k, k ≠ j → u.sec.token[k] = c.token[k])) := by
  intro c
  refine ⟨writeReg s a true v, writeReg s a false v, rfl, rfl, fun ha => ?_, fun ha => ?_⟩
  · rw [tokenWrite s j a true v false ha nofun, tokenWrite s j a false v false ha nofun]
    exact ⟨rfl, vmod_same _ _ _, (vmod_same _ _ _).trans (mergeWord_low _ _), fun k hk =>
      ⟨vmod_other _ _ _ _ (Ne.symm hk), vmod_other _ _ _ _ (Ne.symm hk)⟩⟩
  · rw [tokenWrite s j a false v true ha fun _ => rfl]
    exact ⟨(vmod_same _ _ _).trans (mergeWord_high _ _), fun k hk => vmod_other _ _ _ _ (Ne.symm hk)⟩

/-! ## Confidential mode (R388, R389) -/

/-- What steps 1 and 2 of a transition leave (R388). -/
structure Rekeyed (s t : State) : Prop where
  sec : t.sec = s.sec
  cells : t.mem.cells = []
  poison : t.mem.poison = []
  early : t.coll.early = []
  fingers : t.upd.fingers = []
  flt : t.flt = { s.flt with log := [], dumpValid := t.flt.dumpValid }
  dump : t.flt.dumpValid = true ↔ s.flt.dumpValid = true ∧ s.flt.dumpDest = 1
  hlk : t.hlk = s.hlk
  opt : t.opt = s.opt
  fab : t.fab = s.fab
  job : t.job = s.job
  inp : t.inp = s.inp
  cores : ∀ i : CoreId, (t.cores[i]).spad = [] ∧ (t.cores[i]).engines = Vector.replicate 3 Engine.reset
  clusters : ∀ i : Fin 8, (t.clusters[i]).trees = []

theorem wipe_core (v : Vector Core 64) (i : CoreId) :
    ((v.map Core.wipe)[i]).spad = [] ∧ ((v.map Core.wipe)[i]).engines = Vector.replicate 3 Engine.reset := by
  have hcore : (v.map Core.wipe)[i] = v[i].wipe := Vector.getElem_map ..
  rw [hcore]
  exact ⟨rfl, rfl⟩

theorem emptied_cluster (v : Vector Cluster 8) (i : Fin 8) : ((v.map fun (k : Cluster) => { k with trees := [] })[i]).trees = [] := by
  have hcluster : (v.map fun (k : Cluster) => { k with trees := [] })[i] = { v[i] with trees := [] } := Vector.getElem_map ..
  rw [hcluster]

theorem rekey_does (s : State) (target : Bool) : Rekeyed s (rekey s target) := by
  obtain ⟨d, f, o, e⟩ := loadKeys_frame (updSec s fun c => { c with conf := target })
  unfold rekey
  rw [e]
  exact { sec := rfl, cells := rfl, poison := rfl, early := rfl, fingers := rfl, flt := rfl, dump := Bool.and_eq_true_iff.trans (and_congr Iff.rfl decide_eq_true_iff), hlk := rfl, opt := rfl, fab := rfl,
          job := rfl, inp := rfl, cores := wipe_core s.cores, clusters := emptied_cluster s.clusters }

theorem modeTarget_ignored (target : Bool) (h : target = s.sec.conf ∨ s.sec.modeBusy = true) :
    exec (.modeTargetWrite target) s = .next { s.unlatch with sec := { s.sec with modeTarget := target } } :=
  congrArg Host.Outcome.next (if_pos (Bool.or_eq_true_iff.2 (h.imp (fun h => decide_eq_true h) id)))

section
variable (target : Bool) (hc : target ≠ s.sec.conf) (hb : s.sec.modeBusy = false)
include hc hb

theorem modeTarget_acts : exec (.modeTargetWrite target) s = .next
    (if modeRefused s.unlatch target then { s.unlatch with sec := { s.sec with modeTarget := target, modeErr := true } }
     else updSec (rekey { s.unlatch with sec := { s.sec with modeTarget := target } } target) fun c => { c with modeErr := false, modeBusy := true }) :=
  congrArg Host.Outcome.next (if_neg (by simp [State.unlatch, hc, hb]))

theorem modeTarget_refused (h : modeRefused s.unlatch target = true) :
    exec (.modeTargetWrite target) s = .next { s.unlatch with sec := { s.sec with modeTarget := target, modeErr := true } } :=
  (modeTarget_acts target hc hb).trans (congrArg Host.Outcome.next (if_pos h))

theorem modeTarget_starts (h : ¬ modeRefused s.unlatch target = true) : exec (.modeTargetWrite target) s = .next
    (updSec (rekey { s.unlatch with sec := { s.sec with modeTarget := target } } target) fun c => { c with modeErr := false, modeBusy := true }) :=
  (modeTarget_acts target hc hb).trans (congrArg Host.Outcome.next (if_neg h))

end

/-- The entry that a measurement appends: its register and its type are its first two bytes. -/
theorem measure_entry (s : State) (r : Fin 3) (type : Nat) (object : List Byte) : ∃ e, measure s r type object =
    updSec s (fun c => { c with log := c.log ++ [e], logSeq := c.logSeq + 1, m := vmod c.m r fun m => sha256 (bytes256 m ++ e) }) ∧
      byteAt e 0 = BitVec.ofNat 8 r.val ∧ byteAt e 1 = BitVec.ofNat 8 type := ⟨_, rfl, rfl, rfl⟩

theorem modeTransitionDone_does (h : s.sec.modeBusy = true) : ∃ t e, exec .modeTransitionDone s = .next t ∧ t.sec.conf = !s.sec.conf ∧
    t.sec.modeSeq = s.sec.modeSeq + 1 ∧ t.sec.modeBusy = false ∧ t.sec.log = s.sec.log ++ [e] ∧ byteAt e 0 = 1 ∧ byteAt e 1 = 0x10 ∧
    t.sec.m[0] = s.sec.m[0] ∧ t.sec.m[2] = s.sec.m[2] ∧ t.hlk.state = .nodisc ∧ t.disc.tagReg = 0 ∧
    t.fab = { s.fab with routes := [], published := [] } ∧ t.mem = s.mem ∧ t.cores = s.cores := by
  have hrun : exec .modeTransitionDone s = .next (transitionDone s) := rfl
  unfold transitionDone at hrun
  rw [if_pos h] at hrun
  dsimp only at hrun
  obtain ⟨e, he, h0, h1⟩ := measure_entry (updSec s fun c => { c with conf := !c.conf, modeSeq := c.modeSeq + 1, modeBusy := false }) 1 0x10
    (modeBytes (updSec s fun c => { c with conf := !c.conf, modeSeq := c.modeSeq + 1, modeBusy := false }))
  rw [he] at hrun
  exact ⟨_, e, hrun, rfl, rfl, rfl, rfl, h0, h1, vmod_other s.sec.m 1 0 _ (by decide), vmod_other s.sec.m 1 2 _ (by decide), rfl, rfl, rfl, rfl, rfl⟩

end

/-- Settles O60: reads by `execWatermark_eq` and the halves of `halfRead`; a write changes its block alone by `writeWord_blocks`, and the registers with a
command of their own are `writeWord` at their addresses; a write of mode_target is refused by `modeRefused_iff` or starts with `rekey`. That a second
request is ignored while a transition runs is the model's choice (log entry 28). -/
theorem registersAnswer : Obligations.RegistersAnswer := by
  unfold Obligations.RegistersAnswer
  intro s c
  refine ⟨watermarkRead_does s, fun a b n ha hb => ⟨halfReads_do s a b n ha hb, fun hl => congrArg Host.Outcome.next (halfRead_live b n hb hl)⟩,
    fun a h => halfRead_misaligned a h, fun a => ⟨rfl, regBadWrite_does a⟩, fun a wide v => ⟨registerWrite_misaligned a wide v, fun h hm => ?_,
      registerWrite_target a wide v, registerWrite_mem a wide v, fun ring ha => registerWrite_sqTail ring a wide v ha, fun ring ha hw => ?_,
      registerWrite_events a wide v⟩, fun ring a v => registerWrite_bases ring a v, fun j a v => registerWrite_token j a v, fun target => ?_,
    modeTransitionDone_does, fun h => congrArg Host.Outcome.next (if_neg (by simp [c, h])), rfl⟩
  · exact ⟨_, exec_registerWrite a wide v h, writeWord_blocks s.unlatch a.toNat wide _ _ v hm⟩
  · subst hw
    exact registerWrite_cqHead ring a v ha
  · intro refused
    have hiff : modeRefused s.unlatch target = true ↔ refused := modeRefused_iff s.unlatch target
    refine ⟨modeTarget_ignored target, fun hc hb h => modeTarget_refused target hc hb (hiff.2 h), fun hc hb h => ?_⟩
    have hk := rekey_does { s.unlatch with sec := { s.sec with modeTarget := target } } target
    have hrun := modeTarget_starts target hc hb fun hr => h (hiff.1 hr)
    generalize rekey { s.unlatch with sec := { s.sec with modeTarget := target } } target = t at hk hrun
    exact ⟨_, hrun, congrArg (fun c : Sec => { c with modeErr := false, modeBusy := true }) hk.sec, hk.cells, hk.poison, hk.early, hk.fingers, hk.flt,
      hk.dump, hk.hlk, hk.opt, hk.fab, hk.job, hk.inp, hk.cores, hk.clusters⟩

end Sys2Proof.Machine
end

section
/-! SUPPORT. SETD, ADVD, LOOP, BUDG and FENCE on a free access stream (R56, R59, R60, R71, R72). -/

namespace Sys2Proof.Machine

section
variable {s : State} {c : CoreId}

/-- An instruction that only writes the stream's own registers completes at once on a free stream. -/
theorem accessCommand_register {i : AInstr} {f g : Access → Access} (h : s.accessReady c)
    (e : tryIssue (updAccess s c fun a => { a with waiting := [i] }) c i = some (updAccess (updAccess s c fun a => { a with waiting := [i] }) c f))
    (hfg : f { (s.core c).access with waiting := [i] } = g (s.core c).access) (hw : (g (s.core c).access).waiting = []) :
    accessCommand s c i = updAccess s c g := by
  have hwrites : updAccess (updAccess s c fun a => { a with waiting := [i] }) c f = updAccess s c g := by
    rw [updAccess_updAccess]
    exact updCore_congr _ _ _ _ (congrArg (fun a => { s.core c with access := a }) hfg)
  refine accessCommand_issue s _ c i h (e.trans (congrArg some hwrites)) (.inl ?_)
  rw [updAccess_access]
  exact hw

end

/-- Settles O5: each of the five is `accessCommand_register` with its own effect on the stream's registers. -/
theorem accessControlCompletes : Obligations.AccessControlCompletes := by
  unfold Obligations.AccessControlCompletes
  intro s c h
  refine ⟨fun f => ?_, fun d restore disp => ?_, fun count body => ?_, fun n => ?_, ?_⟩
  · refine congrArg Host.Outcome.next (accessCommand_register (f := fun a => { a.passed with desc := a.desc.set f.d (Desc.ofSetd f) }) h ?_ ?_ ?_)
    · simp [tryIssue, core_head, h.flights]
    · simp [Access.passed, h.waiting]
    · simp [Access.passed, h.waiting]
  · refine congrArg Host.Outcome.next (accessCommand_register
      (f := fun a => { a.passed with desc := a.desc.set d (a.desc[d].advance restore disp) }) h ?_ ?_ ?_)
    · simp [tryIssue, core_head, h.flights, vmod]
    · simp [Access.passed, h.waiting]
    · simp [Access.passed, h.waiting]
  · refine congrArg Host.Outcome.next (accessCommand_register (f := fun a => { a with
      waiting := a.waiting.tail
      index := a.index + 1
      loops := { first := a.index + 1, last := a.index + 1 + body.toNat, left := count.toNat } :: a.loops }) h ?_ ?_ h.waiting)
    · simp [tryIssue, core_head, h.flights]
    · simp [h.waiting]
  · refine congrArg Host.Outcome.next (accessCommand_register (f := fun a => { a.passed with budget := n }) h ?_ ?_ ?_)
    · simp [tryIssue, core_head, h.flights]
    · simp [Access.passed, h.waiting]
    · simp [Access.passed, h.waiting]
  · refine congrArg Host.Outcome.next (accessCommand_register (f := Access.passed) h ?_ ?_ ?_)
    · simp [tryIssue, core_head, h.flights]
    · simp [Access.passed, h.waiting]
    · simp [Access.passed, h.waiting]

end Sys2Proof.Machine
end

section
/-! SUPPORT. What a step is: the front of the queue, or a tick with its ring loops (R266, R414); the reset state is sound. -/

namespace Sys2Proof.Machine

theorem step_front (s : State) (c : Instr) (rest : List Instr) (h : s.pending = c :: rest) : step s = exec c { s with pending := rest } := by
  simp only [step, h]

theorem step_idle (s : State) (h : s.pending = []) : step s = .next (passTick s) := by
  simp only [step, h]
  rfl

/-- The state after one reference tick. -/
def State.ticked (s : State) : State := { s with glb := { s.glb with ticks := s.glb.ticks + 1 } }

theorem passTick_quiet (s : State) (h : ¬ (s.ticked.glb.ticks.toNat % 100 = 0 ∧ s.jobSide = true)) : passTick s = s.ticked :=
  if_neg fun hc => h ((Bool.and_eq_true_iff.1 hc).imp (fun ht => of_decide_eq_true ht) id)

theorem passTick_loops (s : State) (h : s.ticked.glb.ticks.toNat % 100 = 0 ∧ s.jobSide = true) : passTick s = ringLoops s.ticked :=
  if_pos (Bool.and_eq_true_iff.2 (h.imp (fun ht => decide_eq_true ht) id))

/-- The four steps of the loops on a lane are parts of one free value; a ring that is not locked takes none. -/
theorem loopLane_moves (f : W64) (l : Lane) : ∃ dRx dTx dPolar dCarrier : W16, loopLane f l = { l with
    trimRx := if l.rxState = 3 then l.trimRx + dRx else l.trimRx, heatRx := if l.rxState = 3 then l.heatRx + dRx else l.heatRx,
    trimTx := if l.txState = 3 then l.trimTx + dTx else l.trimTx, heatTx := if l.txState = 3 then l.heatTx + dTx else l.heatTx,
    polar := if l.rxState = 3 then l.polar + dPolar else l.polar, carrier := if l.rxState = 3 then l.carrier + dCarrier else l.carrier } := by
  refine ⟨f.setWidth 16, (f >>> 16).setWidth 16, (f >>> 32).setWidth 16, (f >>> 48).setWidth 16, ?_⟩
  simp only [loopLane, beq_iff_eq]

theorem ringLoops_lane (s : State) (g : LaneId) :
    (ringLoops s).opt.lanes[g] = loopLane (Config.freeValue (s.free + g.val)) s.opt.lanes[g] :=
  Vector.getElem_mapFinIdx ..

/-- Settles O1: `step` is `exec` of the front, or `passTick`, whose loops are `loopLane` on every lane. That a tick passes where no command waits is the
model's choice (log entry 1), and what the loops find is free (log entry 17). -/
theorem stepRunsFront : Obligations.StepRunsFront := by
  unfold Obligations.StepRunsFront
  intro s
  refine ⟨fun c rest h => step_front s c rest h, fun h => ?_⟩
  intro u loops
  refine ⟨fun hl => (step_idle s h).trans (congrArg Host.Outcome.next (passTick_quiet s hl)), fun hl => ?_⟩
  refine ⟨_, (step_idle s h).trans (congrArg Host.Outcome.next (passTick_loops s hl)), rfl, fun g => ?_⟩
  intro l
  rw [ringLoops_lane]
  exact loopLane_moves _ l

/-- Settles O3: the reset state is sound by `sound_reset`, the base of the invariant. -/
theorem resetSound : Obligations.ResetSound := (sound_iff State.reset).2 sound_reset

end Sys2Proof.Machine
end
